-- ==== Sys2Proof/Word.lean ====
section
/-! DEFINITION. The word types of the package: a register is 32 bits wide (R5), a memory byte is 8. -/

namespace Sys2Proof

/-- One register or one little-endian word of a structure (R5, R12). -/
abbrev Word := BitVec 32

/-- One byte of a memory. -/
abbrev Byte := BitVec 8

end Sys2Proof
end

