-- ==== Sys2Proof/Machine/Bits.lean ====
section
/-! DEFINITION. Bit fields, byte order and canonical association lists: the helpers every chapter uses. -/

namespace Sys2Proof.Machine

/-- The field `[msb:lsb]` of a word, as a number ("A bit range is written [msb:lsb]", chapter Scope). -/
def fld (w : Word) (msb lsb : Nat) : Nat := (w.toNat >>> lsb) % 2 ^ (msb + 1 - lsb)

/-- One bit of a word. -/
def bit (w : Word) (i : Nat) : Bool := w.getLsbD i

/-- The mask of the field `[msb:lsb]`. -/
def mask (msb lsb : Nat) : Word := BitVec.ofNat 32 ((2 ^ (msb + 1 - lsb) - 1) * 2 ^ lsb)

/-- The word with the field `[msb:lsb]` set to `v`, cut to the field's width. -/
def setFld (w : Word) (msb lsb v : Nat) : Word :=
  (w &&& ~~~ mask msb lsb) ||| (BitVec.ofNat 32 ((v % 2 ^ (msb + 1 - lsb)) * 2 ^ lsb))

/-- The word with one bit set or cleared. -/
def setBit (w : Word) (i : Nat) (b : Bool) : Word := setFld w i i (if b then 1 else 0)

/-- A counter that stops at a bound instead of wrapping. -/
def satAdd (top a b : Nat) : Nat := min top (a + b)

/-- The little-endian number held by a list of bytes (R5, R12). -/
def leNat : List Byte → Nat
  | [] => 0
  | b :: bs => b.toNat + 256 * leNat bs

/-- The `n` little-endian bytes of a number. -/
def leBytes : Nat → Nat → List Byte
  | 0, _ => []
  | n + 1, v => BitVec.ofNat 8 v :: leBytes n (v / 256)

/-- The big-endian number held by a list of bytes (R84, R277, R449). -/
def beNat (bs : List Byte) : Nat := leNat bs.reverse

/-- The `n` big-endian bytes of a number. -/
def beBytes (n v : Nat) : List Byte := (leBytes n v).reverse

/-- The little-endian words of a list of bytes, four bytes each; a short tail is padded with zeros. -/
def wordsOf : List Byte → List Word
  | a :: b :: c :: d :: bs => BitVec.ofNat 32 (leNat [a, b, c, d]) :: wordsOf bs
  | [] => []
  | bs => [BitVec.ofNat 32 (leNat bs)]

/-- The bytes of a list of words, least significant byte first. -/
def bytesOf (ws : List Word) : List Byte := ws.flatMap fun w => leBytes 4 w.toNat

/-- Two's complement reading of the low `n` bits of a number. -/
def signed (n v : Nat) : Int :=
  let u := v % 2 ^ n
  if u < 2 ^ (n - 1) then (u : Int) else (u : Int) - (2 ^ n : Nat)

/-- Words `lo` and `hi` as one 64-bit value (R5). -/
def join64 (lo hi : Word) : Nat := lo.toNat + 2 ^ 32 * hi.toNat

/-- The low word of a 64-bit value. -/
def lo32 (v : Nat) : Word := BitVec.ofNat 32 v

/-- The high word of a 64-bit value. -/
def hi32 (v : Nat) : Word := BitVec.ofNat 32 (v / 2 ^ 32)

/-- The ceiling of a quotient. -/
def cdiv (a b : Nat) : Nat := (a + b - 1) / b

section Assoc
variable {α : Type} [DecidableEq α]

/-- The value listed at a key. -/
def assoc (k : Nat) : List (Nat × α) → Option α
  | [] => none
  | (j, v) :: l => if j = k then some v else assoc k l

/-- The list without a key. -/
def unlist (k : Nat) (l : List (Nat × α)) : List (Nat × α) := l.filter fun e => e.1 != k

/-- The list with `k` bound to `v`, kept in strictly rising order of keys. -/
def enlist (k : Nat) (v : α) : List (Nat × α) → List (Nat × α)
  | [] => [(k, v)]
  | (j, w) :: l =>
    if k < j then (k, v) :: (j, w) :: l
    else if k = j then (k, v) :: l
    else (j, w) :: enlist k v l

/-- The value at a key, where an unlisted key reads as `d`. -/
def peek (d : α) (l : List (Nat × α)) (k : Nat) : α := (assoc k l).getD d

/-- The list after `v` is written at `k`: an entry equal to what an unlisted key reads as is removed, so
that equal contents are equal lists. -/
def poke (d : α) (l : List (Nat × α)) (k : Nat) (v : α) : List (Nat × α) :=
  if v = d then unlist k l else enlist k v l

/-- The canonical form: keys strictly rising, and no entry equal to what an unlisted key reads as. -/
def canon (d : α) (l : List (Nat × α)) : Bool :=
  decide (l.Pairwise fun a b => a.1 < b.1) && l.all fun e => !decide (e.2 = d)

end Assoc

/-- Insertion into a list sorted by a Boolean order, before the first element that is greater, so that the
sort is stable. -/
def insertBy {α : Type} (lt : α → α → Bool) (x : α) : List α → List α
  | [] => [x]
  | y :: l => if lt x y then x :: y :: l else y :: insertBy lt x l

/-- Stable insertion sort. -/
def sortBy {α : Type} (lt : α → α → Bool) (l : List α) : List α := l.foldl (fun acc x => insertBy lt x acc) []

/-- The sorted list of numbers without repeats, with one more member. -/
def addKey (k : Nat) (l : List Nat) : List Nat := if l.contains k then l else insertBy (fun a b => a < b) k l

/-- The elements of a list from an index on, at most `n` of them. -/
def window {α : Type} (i n : Nat) (l : List α) : List α := (l.drop i).take n

/-- The pieces of `n` elements of a list, with a fuel of at most the list's length. -/
def chunksAux {α : Type} (n : Nat) : Nat → List α → List (List α)
  | 0, _ => []
  | _, [] => []
  | f + 1, l => l.take n :: chunksAux n f (l.drop n)

/-- A list cut into pieces of `n` elements. -/
def chunks {α : Type} (n : Nat) (l : List α) : List (List α) := chunksAux n l.length l

/-- A list with its indices. -/
def indexed {α : Type} (l : List α) : List (Nat × α) := (List.range l.length).zip l

end Sys2Proof.Machine
end

