-- ==== Sys2Proof/Machine/Fp.lean ====
section
/-! DEFINITION. FP32, FP16, BF16 and FP8 arithmetic, exact and rounded once (R44, R47 to R49, R55, R110, R111).
A finite value is an integer times a power of two; every operation is computed exactly and then rounded. -/

namespace Sys2Proof.Machine

/-- A floating-point value: NaN, an infinity, or `(-1)^neg * m * 2^e`, where zero keeps its sign. -/
inductive FVal where
  | nan
  | inf (neg : Bool)
  | fin (neg : Bool) (m : Nat) (e : Int)
  deriving DecidableEq, Repr

/-- An IEEE 754 binary layout: exponent bits and mantissa bits; the bias is `2^(ebits-1) - 1`. -/
structure FLayout where
  ebits : Nat
  mbits : Nat
  deriving DecidableEq, Repr

/-- binary32 (R47). -/
def fp32 : FLayout := ⟨8, 23⟩
/-- binary16 (R47). -/
def fp16 : FLayout := ⟨5, 10⟩
/-- The upper 16 bits of binary32 (R47). -/
def bf16 : FLayout := ⟨8, 7⟩
/-- E4M3; its exponent field 15 is an ordinary exponent but for code 0x7F (R44). -/
def e4m3 : FLayout := ⟨4, 3⟩
/-- E5M2 (R44). -/
def e5m2 : FLayout := ⟨5, 2⟩

def FLayout.bias (f : FLayout) : Nat := 2 ^ (f.ebits - 1) - 1

/-- The exponent of the last mantissa bit of the subnormals. -/
def FLayout.qmin (f : FLayout) : Int := 1 - (f.bias : Int) - f.mbits

/-- The value that a bit pattern encodes (R44, R47; subnormal inputs keep their values). -/
def FLayout.decode (f : FLayout) (w : Nat) : FVal :=
  let m := w % 2 ^ f.mbits
  let e := (w / 2 ^ f.mbits) % 2 ^ f.ebits
  let neg := (w / 2 ^ (f.mbits + f.ebits)) % 2 = 1
  if f = e4m3 then
    if e = 15 ∧ m = 7 then .nan
    else if e = 0 then .fin neg m f.qmin else .fin neg (m + 2 ^ f.mbits) (f.qmin + (e - 1 : Nat))
  else if e = 2 ^ f.ebits - 1 then (if m = 0 then .inf neg else .nan)
  else if e = 0 then .fin neg m f.qmin
  else .fin neg (m + 2 ^ f.mbits) (f.qmin + (e - 1 : Nat))

/-- The largest integer `k` with `2^k` at most `num/den`, for positive `num` and `den`. -/
def ilog (num den : Nat) : Int :=
  let l : Int := (Nat.log2 num : Int) - (Nat.log2 den : Int)
  let le : Bool := if l ≥ 0 then decide (den * 2 ^ l.toNat ≤ num) else decide (den ≤ num * 2 ^ (-l).toNat)
  if le then l else l - 1

/-- `num/den` scaled by `2^(-q)`, as a fraction. -/
def scaleBy (num den : Nat) (q : Int) : Nat × Nat :=
  if q ≥ 0 then (num, den * 2 ^ q.toNat) else (num * 2 ^ (-q).toNat, den)

/-- A non-negative fraction rounded to an integer, nearest, ties to even. -/
def rne (num den : Nat) : Nat :=
  let n := num / den
  let r := 2 * (num % den)
  if r > den then n + 1 else if r = den then (if n % 2 = 1 then n + 1 else n) else n

/-- The magnitude bits of a positive fraction rounded to nearest even, without an upper bound: the grid
continues with the spacing of each further binade (R49 uses the continuation for E4M3 and E5M2). -/
def FLayout.roundMag (f : FLayout) (num den : Nat) : Nat :=
  if num = 0 then 0 else
  let q := max (ilog num den - f.mbits) f.qmin
  let s := scaleBy num den q
  let n := rne s.1 s.2
  if n < 2 ^ f.mbits then n else ((q - f.qmin).toNat + 1) * 2 ^ f.mbits + (n - 2 ^ f.mbits)

/-- The bits of an IEEE value from its sign and a positive fraction, rounded once; overflow gives an
infinity (R48). -/
def FLayout.roundFrac (f : FLayout) (neg : Bool) (num den : Nat) : Nat :=
  let top := (2 ^ f.ebits - 1) * 2 ^ f.mbits
  (if neg then 2 ^ (f.mbits + f.ebits) else 0) + min top (f.roundMag num den)

/-- FP32 positive quiet NaN (R48). -/
def nan32 : Word := 0x7FC00000#32
/-- FP32 +0. -/
def zero32 : Word := 0#32
/-- FP32 1.0. -/
def one32 : Word := 0x3F800000#32
/-- FP32 infinity of a sign. -/
def inf32 (neg : Bool) : Word := if neg then 0xFF800000#32 else 0x7F800000#32

/-- The value of an FP32 word. -/
def val32 (w : Word) : FVal := fp32.decode w.toNat

def isNan (w : Word) : Bool := val32 w = .nan
def isInf (w : Word) : Bool := match val32 w with | .inf _ => true | _ => false
def isFin (w : Word) : Bool := match val32 w with | .fin _ _ _ => true | _ => false
def isNeg (w : Word) : Bool := w.getLsbD 31

/-- `m * 2^e` as a fraction. -/
def frac (m : Nat) (e : Int) : Nat × Nat := if e ≥ 0 then (m * 2 ^ e.toNat, 1) else (m, 2 ^ (-e).toNat)

/-- A signed dyadic number rounded to FP32, with the sign given to a zero. -/
def round32 (m : Int) (e : Int) (zneg : Bool) : Word :=
  if m = 0 then (if zneg then 0x80000000#32 else 0#32)
  else let q := frac m.natAbs e
    BitVec.ofNat 32 (fp32.roundFrac (decide (m < 0)) q.1 q.2)

/-- Signed integer mantissa. -/
def smant (neg : Bool) (m : Nat) : Int := if neg then -(m : Int) else m

/-- Exact sum of two dyadic numbers. -/
def dyAdd (m1 : Int) (e1 : Int) (m2 : Int) (e2 : Int) : Int × Int :=
  let e := min e1 e2
  (m1 * 2 ^ (e1 - e).toNat + m2 * 2 ^ (e2 - e).toNat, e)

/-- FP32 addition, rounded once (R110). -/
def fadd (a b : Word) : Word :=
  match val32 a, val32 b with
  | .nan, _ | _, .nan => nan32
  | .inf x, .inf y => if x = y then inf32 x else nan32
  | .inf x, _ => inf32 x
  | _, .inf y => inf32 y
  | .fin x m e, .fin y n g =>
    let s := dyAdd (smant x m) e (smant y n) g
    round32 s.1 s.2 (x && y && m == 0 && n == 0)

def fneg (a : Word) : Word := if isNan a then nan32 else a ^^^ 0x80000000#32
def fabs (a : Word) : Word := if isNan a then nan32 else a &&& 0x7FFFFFFF#32
def fsub (a b : Word) : Word := fadd a (fneg b)

/-- FP32 multiplication, rounded once. -/
def fmul (a b : Word) : Word :=
  match val32 a, val32 b with
  | .nan, _ | _, .nan => nan32
  | .inf x, .inf y => inf32 (x != y)
  | .inf x, .fin y n _ => if n = 0 then nan32 else inf32 (x != y)
  | .fin x m _, .inf y => if m = 0 then nan32 else inf32 (x != y)
  | .fin x m e, .fin y n g => round32 (smant x m * smant y n) (e + g) (x != y)

/-- FP32 fused multiply-add `a * b + c`, rounded once after the exact sum (R110). -/
def ffma (a b c : Word) : Word :=
  match val32 a, val32 b, val32 c with
  | .nan, _, _ | _, .nan, _ | _, _, .nan => nan32
  | .fin x m e, .fin y n g, .fin z k h =>
    let s := dyAdd (smant x m * smant y n) (e + g) (smant z k) h
    round32 s.1 s.2 ((x != y) && z && (m == 0 || n == 0) && k == 0)
  | .fin _ _ _, .fin _ _ _, .inf z => inf32 z
  | _, _, vc =>
    let p := fmul a b
    match val32 p, vc with
    | .inf x, .inf z => if x = z then inf32 x else nan32
    | .inf x, _ => inf32 x
    | _, _ => nan32

/-- Correctly rounded reciprocal (R110). -/
def frecip (a : Word) : Word :=
  match val32 a with
  | .nan => nan32
  | .inf x => if x then 0x80000000#32 else 0#32
  | .fin x 0 _ => inf32 x
  | .fin x m e => let q := frac m e; BitVec.ofNat 32 (fp32.roundFrac x q.2 q.1)

/-- `sqrt(num/den)` rounded to FP32: the root is taken to 60 significant bits, and a sticky bit below them
keeps the rounding exact. -/
def sqrtFrac (num den : Nat) : Word :=
  let k : Int := 60 - ilog num den / 2
  let s := scaleBy num den (-2 * k)
  let r := Nat.sqrt (s.1 / s.2)
  let exact := decide (r * r * s.2 = s.1)
  let m := 2 * r + (if exact then 0 else 1)
  let q := frac m (-k - 1)
  BitVec.ofNat 32 (fp32.roundFrac false q.1 q.2)

/-- Correctly rounded square root. -/
def fsqrt (a : Word) : Word :=
  match val32 a with
  | .nan => nan32
  | .inf x => if x then nan32 else inf32 false
  | .fin x 0 _ => if x then 0x80000000#32 else 0#32
  | .fin x m e => if x then nan32 else let q := frac m e; sqrtFrac q.1 q.2

/-- Correctly rounded reciprocal square root. -/
def frsqrt (a : Word) : Word :=
  match val32 a with
  | .nan => nan32
  | .inf x => if x then nan32 else 0#32
  | .fin x 0 _ => inf32 x
  | .fin x m e => if x then nan32 else let q := frac m e; sqrtFrac q.2 q.1

/-- Order of two finite or infinite values as signed numbers; NaN is unordered. -/
def flt (a b : Word) : Bool :=
  match val32 a, val32 b with
  | .nan, _ | _, .nan => false
  | .inf x, .inf y => x && !y
  | .inf x, _ => x
  | _, .inf y => !y
  | .fin x m e, .fin y n g => let s := dyAdd (smant x m) e (-(smant y n)) g; decide (s.1 < 0)

/-- Equality of values: +0 and -0 are equal, NaN equals nothing. -/
def feq (a b : Word) : Bool := !isNan a && !isNan b && !flt a b && !flt b a
def fle (a b : Word) : Bool := flt a b || feq a b
/-- The larger value; NaN when either is NaN, and +0 above -0 (log entry 12). -/
def fmax (a b : Word) : Word :=
  if isNan a || isNan b then nan32
  else if flt a b then b else if flt b a then a else (if isNeg a then b else a)
def fmin (a b : Word) : Word :=
  if isNan a || isNan b then nan32
  else if flt a b then a else if flt b a then b else (if isNeg a then a else b)

/-- An integer as FP32, rounded to nearest even (R110). -/
def ofInt32 (n : Int) : Word := round32 n 0 false

/-- FP32 to a 32-bit signed integer: nearest even, saturating (R110); NaN gives a value the spec does not
state (log entry 12). -/
def toInt32 (nanValue : Word) (a : Word) : Word :=
  match val32 a with
  | .nan => nanValue
  | .inf x => if x then 0x80000000#32 else 0x7FFFFFFF#32
  | .fin x m e =>
    let q := frac m e
    let n := rne q.1 q.2
    if x then BitVec.ofInt 32 (-(min n (2 ^ 31) : Nat)) else BitVec.ofNat 32 (min n (2 ^ 31 - 1))

/-! ## Correctly rounded transcendental functions

A real value is enclosed between two fractions over a power of two. When both ends round to one FP32 word
that word is the correctly rounded result; otherwise the precision is doubled. -/

/-- `2^(f / 2^p)` for `0 ≤ f < 2^p` between two integers over `2^p`: the product of the square roots of two
for the bits of `f`, each product and each root rounded down by less than one unit. -/
def exp2Lo (p : Nat) : Nat → Nat → Nat → Nat → Nat
  | 0, _, _, acc => acc
  | n + 1, f, root, acc =>
    -- the current root is 2^(2^-k); the next bit of f from the top selects it
    let r := Nat.sqrt (root * 2 ^ p)
    let top := 2 ^ n
    if f ≥ top then exp2Lo p n (f - top) r (acc * r / 2 ^ p) else exp2Lo p n f r acc

/-- Round a positive enclosure `[lo, hi] * 2^e` when both ends agree. -/
def agree (lo hi : Nat) (e : Int) : Option Word :=
  let a := frac lo e
  let b := frac hi e
  let wa := fp32.roundFrac false a.1 a.2
  let wb := fp32.roundFrac false b.1 b.2
  if wa = wb then some (BitVec.ofNat 32 wa) else none

/-- `exp2` of `i + f / 2^n`, working with `p` fraction bits; each of the at most `n` roots and products adds
less than two units of error. -/
def exp2At (i : Int) (n f p : Nat) : Option Word :=
  let lo := exp2Lo p n f (2 * 2 ^ p) (2 ^ p)
  agree lo (lo + 8 * n + 8) (i - p)

/-- FP32 exp2, correctly rounded (R110; log entry 12). A result on a power of two is exact. -/
def fexp2 (a : Word) : Word :=
  match val32 a with
  | .nan => nan32
  | .inf x => if x then 0#32 else inf32 false
  | .fin x m e =>
    if m = 0 then one32
    else if e ≥ 0 then
      let v := m * 2 ^ min e.toNat 12
      if x then (let q := frac 1 (-(min v 1000 : Nat)); BitVec.ofNat 32 (fp32.roundFrac false q.1 q.2))
      else if v ≥ 128 then inf32 false else BitVec.ofNat 32 (fp32.roundFrac false (2 ^ v) 1)
    else
      let n := (-e).toNat
      if Nat.log2 m + 30 < n then one32
      else
        let v : Int := smant x m
        let i : Int := v / (2 ^ n : Nat)
        let f := (v % (2 ^ n : Nat)).toNat
        if i ≥ 128 then inf32 false
        else if i < -160 then 0#32
        else if f = 0 then (let q := frac 1 i; BitVec.ofNat 32 (fp32.roundFrac false q.1 q.2))
        else ((exp2At i n f 128).orElse fun _ => exp2At i n f 512).getD one32

/-- The natural exponential of attention, sampler and norms: exp2 of the product by 0x3FB8_AA3B (R111). -/
def fexp (x : Word) : Word := fexp2 (fmul x 0x3FB8AA3B#32)

/-- An alternating or positive Taylor sum: terms `t_{k+1} = t_k * z / (d_k)`, over `2^p`, with alternating sign;
the result is within `2 * steps` units. -/
def taylor (p z : Nat) : Nat → Nat → Nat → Bool → Int → Int
  | 0, _, _, _, acc => acc
  | n + 1, k, t, neg, acc =>
    let acc' := if neg then acc - t else acc + t
    taylor p z n (k + 2) (t * z / 2 ^ p / ((k + 1) * (k + 2))) (!neg) acc'

/-- `arctan(1/x)` over `2^p`, truncated terms. -/
def atanInv (p x : Nat) : Nat → Nat → Nat → Bool → Int → Int
  | 0, _, _, _, acc => acc
  | n + 1, k, t, neg, acc =>
    let u : Int := t / (2 * k + 1)
    atanInv p x n (k + 1) (t / (x * x)) (!neg) (if neg then acc - u else acc + u)

/-- π over `2^p`, by Machin's formula, within `16 * p` units. -/
def piFix (p : Nat) : Int :=
  4 * (4 * atanInv p 5 (p / 4 + 2) 0 (2 ^ p / 5) false 0 - atanInv p 239 (p / 15 + 2) 0 (2 ^ p / 239) false 0)

/-- `sin` or `cos` of `2π u / 2^64` for `u` in the first eighth of a turn, between two integers over `2^p`. -/
def trigFix (cosine : Bool) (u p : Nat) : Nat × Nat :=
  let z := (2 * piFix p * u / 2 ^ 64).toNat
  let z2 := z * z / 2 ^ p
  let v := (if cosine then taylor p z2 (p / 4 + 4) 0 (2 ^ p) false 0 else taylor p z2 (p / 4 + 4) 1 z false 0).toNat
  (v - 64 * p, v + 64 * p)

/-- `sin` or `cos` in the first eighth of a turn, rounded to FP32; a result that no precision here decides keeps
its lower end (log entry 12). -/
def trigRound (cosine : Bool) (u : Nat) : Word :=
  if u = 0 then (if cosine then one32 else 0#32) else
  let go (p : Nat) : Option Word := let b := trigFix cosine u p; agree b.1 b.2 (-p)
  ((go 192).orElse fun _ => go 640).getD (let b := trigFix cosine u 640; let q := frac b.1 (-640); BitVec.ofNat 32 (fp32.roundFrac false q.1 q.2))

/-- `cos` and `sin` of a phase, an unsigned fraction of a turn in units of `2^-64`, each correctly rounded to
FP32 (R211). -/
def cosSin (phi : Nat) : Word × Word :=
  let q := (phi / 2 ^ 62) % 4
  let r := phi % 2 ^ 62
  -- fold the quarter turn at its middle
  let c := if r ≤ 2 ^ 61 then trigRound true r else trigRound false (2 ^ 62 - r)
  let s := if r ≤ 2 ^ 61 then trigRound false r else trigRound true (2 ^ 62 - r)
  let n (w : Word) : Word := if w = 0#32 then 0#32 else fneg w
  match q with
  | 0 => (c, s)
  | 1 => (n s, c)
  | 2 => (n c, n s)
  | _ => (s, n c)

/-! ## Output conversion (R48, R49) -/

/-- The output formats of R48. -/
inductive OutFmt where
  | bf16 | fp16 | fp32 | e4m3 | e5m2
  deriving DecidableEq, Repr

/-- An IEEE output word of FP32 bits (R48). -/
def convIeee (f : FLayout) (w : Word) : Nat :=
  match val32 w with
  | .nan => 2 ^ f.mbits * (2 ^ f.ebits - 1) + 2 ^ (f.mbits - 1)
  | .inf x => (if x then 2 ^ (f.mbits + f.ebits) else 0) + (2 ^ f.ebits - 1) * 2 ^ f.mbits
  | .fin x m e => let q := frac m e; f.roundFrac x q.1 q.2

/-- An FP8 output code and whether the element saturated, judged after rounding on the continued grid (R49). -/
def convFp8 (f : FLayout) (top nanCode : Nat) (w : Word) : Nat × Bool :=
  match val32 w with
  | .nan => (nanCode, false)
  | .inf x => (top + (if x then 128 else 0), true)
  | .fin x m e =>
    let q := frac m e
    let r := f.roundMag q.1 q.2
    if r > top then (top + (if x then 128 else 0), true) else (r + (if x then 128 else 0), false)

/-- Conversion of an FP32 result to an output code, with the FP8 saturation flag (R48, R49). -/
def convert (o : OutFmt) (w : Word) : Nat × Bool :=
  match o with
  | .fp32 => (if isNan w then nan32.toNat else w.toNat, false)
  | .fp16 => (convIeee fp16 w, false)
  | .bf16 => (convIeee bf16 w, false)
  | .e4m3 => convFp8 e4m3 0x7E 0x7F w
  | .e5m2 => convFp8 e5m2 0x7B 0x7E w

/-- An input of BF16 or FP16 widened to FP32, exactly (R47). -/
def widen (f : FLayout) (w : Nat) : Word :=
  match f.decode w with
  | .nan => nan32
  | .inf x => inf32 x
  | .fin x m e => round32 (smant x m) e x

end Sys2Proof.Machine
end

