-- ==== Sys2Proof/Machine/Quant.lean ====
section
/-! DEFINITION. Element formats, E5M3 block scales and the quantiser (R33 to R54, R385). -/

namespace Sys2Proof.Machine

/-- The element formats of a block (R33); INT4 carries its clamp setting (R36). -/
inductive Fmt where
  | e2m1
  | int4 (clamp : Bool)
  | e4m3
  | e5m2
  deriving DecidableEq, Repr

/-- The layout of E2M1: exponent bias 1, no infinity and no NaN (R34). -/
def e2m1 : FLayout := ⟨2, 1⟩

def Fmt.is8 : Fmt → Bool
  | .e4m3 | .e5m2 => true
  | _ => false

/-- A block of 32 element codes under one scale code (R33), with the poison state of the lines that its elements and its
scale came from (R169). -/
structure Block where
  scale : Nat
  elems : List Nat
  poison : Bool
  sPoison : Bool
  deriving DecidableEq, Repr

/-! ## The E5M3 scale (R40, R67) -/

/-- The integer of a scale code (R67). -/
def scaleInt (c : Nat) : Nat := if c / 8 = 0 then c % 8 else 8 + c % 8
/-- The exponent of a scale code (R67). -/
def scaleExp (c : Nat) : Int := if c / 8 = 0 then -17 else (c / 8 : Nat) - 18
/-- The value of a finite scale code, as a fraction (R40). -/
def scaleVal (c : Nat) : Nat × Nat := frac (scaleInt c) (scaleExp c)

/-! ## Elements (R34 to R36, R44, R46, R67) -/

/-- The magnitude of an E2M1 code in halves (R34). -/
def e2m1Half (c : Nat) : Nat :=
  match c % 8 with
  | 0 => 0 | 1 => 1 | 2 => 2 | 3 => 3 | 4 => 4 | 5 => 6 | 6 => 8 | _ => 12

/-- The integer of a finite element code; E2M1 code 0x8 and FP8 code 0x80 read as zero (R35, R46), INT4 code 0x8
reads as -7 under the clamp and -8 without it (R36). -/
def elemInt (f : Fmt) (c : Nat) : Int :=
  match f with
  | .e2m1 => smant (c % 16 ≥ 8) (e2m1Half c)
  | .int4 clamp => let v := signed 4 c; if clamp && v = -8 then -7 else v
  | .e4m3 => smant (c % 256 ≥ 128) (if (c / 8) % 16 = 0 then c % 8 else 8 + c % 8)
  | .e5m2 => smant (c % 256 ≥ 128) (if (c / 4) % 32 = 0 then c % 4 else 4 + c % 4)

/-- The exponent of an element code (R67). -/
def elemExp (f : Fmt) (c : Nat) : Int :=
  match f with
  | .e2m1 => -1
  | .int4 _ => 0
  | .e4m3 => if (c / 8) % 16 = 0 then -9 else ((c / 8) % 16 : Nat) - 10
  | .e5m2 => if (c / 4) % 32 = 0 then -16 else ((c / 4) % 32 : Nat) - 17

/-- The element is an FP8 infinity or NaN (R44, R46). -/
def elemSpecial (f : Fmt) (c : Nat) : Bool :=
  match f with
  | .e4m3 => c % 128 = 0x7F
  | .e5m2 => c % 128 ≥ 0x7C
  | _ => false

/-- Packing of a 4-bit block: element 2i in bits [3:0] of byte i, element 2i+1 in bits [7:4] (R38). -/
def pack4 : List Nat → List Byte
  | a :: b :: l => BitVec.ofNat 8 (a % 16 + 16 * (b % 16)) :: pack4 l
  | [a] => [BitVec.ofNat 8 (a % 16)]
  | [] => []

/-- The elements of packed bytes. -/
def unpack4 (bs : List Byte) : List Nat := bs.flatMap fun b => [b.toNat % 16, b.toNat / 16]

/-- The elements of a block of scale 0x00 or 0xFF have no effect (R41, R42). -/
def Block.live (b : Block) : Bool := b.scale != 0 && b.scale != 0xFF

/-- The block reads as poisoned where both its scale and its elements are read. -/
def Block.tainted (b : Block) : Bool := b.poison || b.sPoison

/-- The bytes of a block's elements: packed for 4-bit formats, one byte each for FP8. -/
def Block.bytes (f : Fmt) (b : Block) : List Byte :=
  if f.is8 then b.elems.map (BitVec.ofNat 8) else pack4 b.elems

/-- A list padded with zero codes to a multiple of 32 (R39). -/
def pad32 {α : Type} (z : α) (l : List α) : List α := l ++ List.replicate ((32 - l.length % 32) % 32) z

/-! ## The quantiser (R50 to R54) -/

/-- The divisor D of a target format (R51). -/
def divisor : Fmt → Nat
  | .e2m1 => 6 | .int4 _ => 7 | .e4m3 => 448 | .e5m2 => 57344

/-- The classes of R52, in their order of precedence. -/
inductive BlockClass where
  | invalid | zero | flushed | saturated | ordinary
  deriving DecidableEq, Repr

/-- The magnitude of a finite FP32 word as a fraction. -/
def mag32 (w : Word) : Nat × Nat :=
  match val32 w with
  | .fin _ m e => frac m e
  | _ => (0, 1)

/-- Comparison of two fractions. -/
def fracLt (a b : Nat × Nat) : Bool := decide (a.1 * b.2 < b.1 * a.2)
def fracLe (a b : Nat × Nat) : Bool := decide (a.1 * b.2 ≤ b.1 * a.2)

/-- The largest magnitude among a block's inputs (R52). -/
def maxMag (xs : List Word) : Nat × Nat :=
  xs.foldl (fun a x => let m := mag32 x; if fracLt a m then m else a) (0, 1)

/-- The smallest scale code from 0x01 to 0xFE whose value is at least the exact quotient `a/d` (R53). -/
def scaleFor (q : Nat × Nat) : Nat :=
  (((List.range 254).map (· + 1)).find? fun c => fracLe q (scaleVal c)).getD 0xFE

/-- The class and the scale of a block, from the exact quotient A/D (R52, R53). -/
def classify (f : Fmt) (xs : List Word) : BlockClass × Nat :=
  if xs.any fun x => !isFin x then (.invalid, 0xFF) else
  let a := maxMag xs
  let q := (a.1, a.2 * divisor f)
  if a.1 = 0 then (.zero, 0x00)
  else if fracLt q (1, 2 ^ 17) then (.flushed, 0x00)
  else if fracLt (114688, 1) q then (.saturated, 0xFE)
  else (.ordinary, scaleFor q)

/-- The largest element's magnitude code. -/
def topCode : Fmt → Nat
  | .e2m1 => 7 | .int4 _ => 7 | .e4m3 => 0x7E | .e5m2 => 0x7B

/-- A magnitude code with a sign; zero always encodes as 0x0 (R35, R54). -/
def signCode (f : Fmt) (neg : Bool) (m : Nat) : Nat :=
  if m = 0 ∨ !neg then m else
  match f with
  | .e2m1 => 8 + m
  | .int4 _ => 16 - m
  | _ => 128 + m

/-- The float layout of a format's magnitude grid. -/
def gridLayout : Fmt → FLayout
  | .e4m3 => e4m3 | .e5m2 => e5m2 | _ => e2m1

/-- The nearest grid value to an exact non-negative quotient, ties to the even code, clipped (R54). -/
def nearMag (f : Fmt) (q : Nat × Nat) : Nat :=
  min (topCode f) (match f with
    | .int4 _ => rne q.1 q.2
    | _ => (gridLayout f).roundMag q.1 q.2)

/-- The exact quotient of an input's magnitude by a scale. -/
def quot (x : Word) (s : Nat) : Nat × Nat :=
  let m := mag32 x
  let v := scaleVal s
  (m.1 * v.2, m.2 * v.1)

/-- One element of an ordinary or saturated block (R54). -/
def quantElem (f : Fmt) (s : Nat) (x : Word) : Nat := signCode f (isNeg x) (nearMag f (quot x s))

/-- The quantiser (R50 to R54): a block of FP32 inputs, rotated and with its outliers zeroed, becomes one scale
and 32 elements, in exactly one class. -/
def quantise (f : Fmt) (xs : List Word) (poison : Bool) : Block × BlockClass :=
  let c := classify f xs
  match c.1 with
  | .saturated | .ordinary => (⟨c.2, xs.map (quantElem f c.2), poison, poison⟩, c.1)
  | _ => (⟨c.2, xs.map fun _ => 0, poison, poison⟩, c.1)

/-- The largest magnitude code at or below a quotient on a float grid, and whether the quotient lies on the grid. -/
def floorMag (l : FLayout) (q : Nat × Nat) : Nat × Bool :=
  let c := l.roundMag q.1 q.2
  let v (k : Nat) : Nat × Nat := match l.decode k with | .fin _ m e => frac m e | _ => (0, 1)
  if fracLe (v c) q then (c, !fracLt (v c) q) else (c - 1, false)

/-- One element of a training gradient, rounded stochastically with the draw `n * 2^-24` (R385). -/
def quantElemSr (f : Fmt) (s : Nat) (n : Nat) (x : Word) : Nat :=
  let l := gridLayout f
  let q := quot x s
  let fl := floorMag l q
  let v (k : Nat) : Nat × Nat := match l.decode k with | .fin _ m e => frac m e | _ => (0, 1)
  if fl.2 || fracLt (v (topCode f)) q then quantElem f s x else
  let lo := v fl.1
  let hi := v (fl.1 + 1)
  -- (q - lo) / (hi - lo) as a fraction
  let num := (q.1 * lo.2 - lo.1 * q.2) * hi.2
  let den := (hi.1 * lo.2 - lo.1 * hi.2) * q.2
  -- for a negative value the upper neighbour is the smaller magnitude
  let up := if isNeg x then decide (n * den < 2 ^ 24 * (den - num)) else decide (n * den < 2 ^ 24 * num)
  signCode f (isNeg x) (if up = isNeg x then fl.1 else fl.1 + 1)

/-- Quantisation of a gradient block (R385): class and scale under R52 and R53, elements stochastic with one
24-bit draw each. -/
def quantiseSr (f : Fmt) (xs : List Word) (draws : List Nat) (poison : Bool) : Block × BlockClass :=
  let c := classify f xs
  match c.1 with
  | .saturated | .ordinary => (⟨c.2, (xs.zip draws).map fun xn => quantElemSr f c.2 xn.2 xn.1, poison, poison⟩, c.1)
  | _ => (⟨c.2, xs.map fun _ => 0, poison, poison⟩, c.1)

/-- An element times its scale as an exact FP32 value (R33, R212). A special element or scale gives NaN. -/
def decodeElem (f : Fmt) (s c : Nat) : Word :=
  if s = 0xFF then nan32 else if s = 0 then 0#32
  else if elemSpecial f c then nan32
  else round32 (elemInt f c * scaleInt s) (elemExp f c + scaleExp s) false

/-- The decoded values of a block. -/
def Block.values (f : Fmt) (b : Block) : List Word := b.elems.map (decodeElem f b.scale)

/-! ## Numeric events (R52, R57, R97, R101, R70, R49) -/

/-- The events of one step that QSTAT adds at commit (R57): the nine counters and the five sticky flags. -/
structure QEvents where
  zeroBlk : Nat
  flushBlk : Nat
  satBlk : Nat
  invalidBlk : Nat
  outlierOvf : Nat
  wideRecomp : Nat
  budgetExh : Nat
  accSat : Nat
  fp8OutSat : Nat
  invalid : Bool
  deriving DecidableEq, Repr

def QEvents.none : QEvents := ⟨0, 0, 0, 0, 0, 0, 0, 0, 0, false⟩

def QEvents.add (a b : QEvents) : QEvents :=
  ⟨a.zeroBlk + b.zeroBlk, a.flushBlk + b.flushBlk, a.satBlk + b.satBlk, a.invalidBlk + b.invalidBlk,
    a.outlierOvf + b.outlierOvf, a.wideRecomp + b.wideRecomp, a.budgetExh + b.budgetExh, a.accSat + b.accSat,
    a.fp8OutSat + b.fp8OutSat, a.invalid || b.invalid⟩

/-- The count of one quantised block (R52). -/
def BlockClass.events : BlockClass → QEvents
  | .invalid => { QEvents.none with invalidBlk := 1, invalid := true }
  | .zero => { QEvents.none with zeroBlk := 1 }
  | .flushed => { QEvents.none with flushBlk := 1 }
  | .saturated => { QEvents.none with satBlk := 1 }
  | .ordinary => QEvents.none

/-- The blocks of a row of FP32 values, each with its poison state (R169), padded under R39, with their events. A block is poisoned
when a value in it is: its scale comes from all of them. `sr` gives the stochastic draw of every element where R385 applies, which
concerns E4M3 and E5M2 alone. -/
def quantiseRow (f : Fmt) (sr : Option (Nat → Nat)) (xs : List (Word × Bool)) : List Block × QEvents :=
  let bs := chunks 32 (pad32 (0#32, false) xs)
  let r := ((List.range bs.length).zip bs).map fun kb =>
    let vs := kb.2.map (·.1)
    let po := kb.2.any (·.2)
    match if f.is8 then sr else none with
    | some u => quantiseSr f vs ((List.range 32).map fun e => u (32 * kb.1 + e)) po
    | none => quantise f vs po
  (r.map (·.1), r.foldl (fun e b => e.add b.2.events) QEvents.none)

end Sys2Proof.Machine
end

