-- ==== Sys2Proof/Machine/Accum.lean ====
section
/-! DEFINITION. The long accumulator, output rounding, the checker and the wide reference mode (R62 to R78,
R107 to R109, R176, R324). -/

namespace Sys2Proof.Machine

/-- The accumulator state of R65. `value` is VALUE with GUARD above it, one 168-bit two's complement sum whose
bit 0 weighs 2^-80 (R63, R64). -/
structure Acc where
  value : BitVec 168
  nan : Bool
  poison : Bool
  count : Nat
  deriving DecidableEq, Repr

def Acc.empty : Acc := ⟨0#168, false, false, 0⟩

/-- COUNT stops at 2^21 - 1 (R65). -/
def countTop : Nat := 2 ^ 21 - 1

/-- The contribution of an exact dyadic number `k * 2^e`, which lands on bits that the accumulator holds (R69). -/
def contrib (k : Int) (e : Int) : BitVec 168 := BitVec.ofInt 168 (k * 2 ^ (e + 80).toNat)

/-- An exact-accumulate add of two accumulator states (R72). -/
def Acc.add (a b : Acc) : Acc :=
  ⟨a.value + b.value, a.nan || b.nan, a.poison || b.poison, satAdd countTop a.count b.count⟩

/-- The exact sum of the element products of a pair that is not skipped, with its scales (R68, R69). -/
def pairSum (fa fb : Fmt) (a b : Block) : BitVec 168 :=
  (a.elems.zip b.elems).foldl (fun acc xy =>
    acc + contrib (elemInt fa xy.1 * elemInt fb xy.2 * (scaleInt a.scale * scaleInt b.scale : Nat))
      (elemExp fa xy.1 + elemExp fb xy.2 + scaleExp a.scale + scaleExp b.scale)) 0#168

/-- A pair in which neither scale is 0x00 or 0xFF is not skipped; the engine decides from the two scales alone
(R41, R43, R46). -/
def pairLive (a b : Block) : Bool := a.scale != 0 && b.scale != 0 && a.scale != 0xFF && b.scale != 0xFF

/-- The pair makes the output NaN: an invalid scale on either side, or a special FP8 element in a pair that is
not skipped (R42, R43, R46). -/
def pairNan (fa fb : Fmt) (a b : Block) : Bool :=
  a.scale == 0xFF || b.scale == 0xFF ||
    (pairLive a b && (a.elems.any (elemSpecial fa) || b.elems.any (elemSpecial fb)))

/-- One block pair enters an accumulator: COUNT grows by 32 whatever the pair holds (R66, R68, R69). The elements of a pair
that is not live are not fetched, so only its scales can poison the accumulator (R41, R42, R65). -/
def Acc.pair (fa fb : Fmt) (acc : Acc) (a b : Block) : Acc :=
  { value := if pairLive a b && !pairNan fa fb a b then acc.value + pairSum fa fb a b else acc.value
    nan := acc.nan || pairNan fa fb a b
    poison := acc.poison || a.sPoison || b.sPoison || (pairLive a b && (a.poison || b.poison))
    count := satAdd countTop acc.count 32 }

/-- An outlier slot of R95: an FP16 value and an index within the group. -/
structure Slot where
  value : Nat
  index : Nat
  deriving DecidableEq, Repr

/-- The word of a slot (R95). -/
def Slot.word (s : Slot) : Word := BitVec.ofNat 32 (s.value + 2 ^ 16 * s.index)
def Slot.ofWord (w : Word) : Slot := ⟨fld w 15 0, fld w 23 16⟩

/-- Signed integer and exponent of an FP16 slot value (R67). -/
def slotInt (v : Nat) : Int := smant (v / 2 ^ 15 % 2 = 1) (if v / 1024 % 32 = 0 then v % 1024 else 1024 + v % 1024)
def slotExp (v : Nat) : Int := if v / 1024 % 32 = 0 then -24 else (v / 1024 % 32 : Nat) - 25
def slotNan (v : Nat) : Bool := v / 1024 % 32 = 31 && v % 1024 != 0

/-- One outlier product: the slot times the weight element at its index and that element's block scale (R69, R96).
A weight block of scale 0x00 contributes zero, one of scale 0xFF sets NAN; COUNT does not grow (R66). An FP8 infinity or
NaN element contributes nothing here: it makes the output NaN through its block pair alone, when that is not skipped
(R46). `poison` is that of the slot's line. -/
def Acc.outlier (fw : Fmt) (acc : Acc) (s : Slot) (poison : Bool) (w : Block) : Acc :=
  let c := w.elems.getD (s.index % 32) 0
  { acc with
    value := if w.scale = 0 ∨ w.scale = 0xFF ∨ slotNan s.value ∨ elemSpecial fw c then acc.value
      else acc.value + contrib (slotInt s.value * elemInt fw c * (scaleInt w.scale : Int)) (slotExp s.value + elemExp fw c + scaleExp w.scale)
    nan := acc.nan || w.scale == 0xFF || slotNan s.value
    poison := acc.poison || poison || w.sPoison || (w.scale != 0 && w.scale != 0xFF && w.poison) }

def Block.zero : Block := ⟨0, [], false, false⟩

/-- The accumulation of one output: the block pairs of a row and a column, then the row's outlier slots by
group of 256 (R68, R69, R96), with the poison of each group's slots. -/
def accumulate (fa fb : Fmt) (row col : List Block) (slots : List (List Slot × Bool)) : Acc :=
  let base := (row.zip col).foldl (fun acc ab => acc.pair fa fb ab.1 ab.2) Acc.empty
  (slots.zip (List.range slots.length)).foldl (fun acc g =>
    g.1.1.foldl (fun acc s => acc.outlier fb s g.1.2 (col.getD (8 * g.2 + s.index / 32) Block.zero)) acc) base

/-- Whether an output consumed a 0xFF scale or an FP8 infinity or NaN element, for QSTAT_STICKY.INVALID. -/
def consumesInvalid (fa fb : Fmt) (row col : List Block) : Bool := (row.zip col).any fun ab => pairNan fa fb ab.1 ab.2

/-! ## Output rounding (R70, R71, R74, R75) -/

/-- The reduction limit of R70. -/
def reductionLimit : Nat := 2 ^ 20

/-- The final sum lies in the range of R63. -/
def Acc.inRange (a : Acc) : Bool := decide (-(2 ^ 159 : Int) ≤ a.value.toInt) && decide (a.value.toInt < 2 ^ 159)

/-- The accumulator counts as saturated (R70, R71): a count overrun even with NAN set, a range overrun only when
NAN is clear. -/
def Acc.saturated (a : Acc) : Bool := decide (a.count > reductionLimit) || (!a.nan && !a.inRange)

/-- The FP32 value before scaling, when the accumulator is not an exact zero (R71, R75 steps 1 and 3). -/
def Acc.toFp32 (a : Acc) : Word :=
  if a.nan || decide (a.count > reductionLimit) then nan32
  else if !a.inRange then inf32 (decide (a.value.toInt < 0))
  else round32 a.value.toInt (-80) false

/-- An output element: its code, its poison and the events it counts (R75). -/
structure OutElem where
  code : Nat
  poison : Bool
  events : QEvents
  deriving DecidableEq, Repr

/-- The five steps of R75. An exact zero gives +0 whatever σ. -/
def roundOutput (sigma : Word) (o : OutFmt) (invalid : Bool) (a : Acc) : OutElem :=
  let ev := { QEvents.none with accSat := if a.saturated then 1 else 0, invalid := invalid }
  if !a.nan && decide (a.count ≤ reductionLimit) && a.value = 0#168 then ⟨0, a.poison, ev⟩ else
  let v := a.toFp32
  let w := if isNan v then v else fmul v sigma
  let c := convert o w
  ⟨c.1, a.poison, { ev with fp8OutSat := if c.2 then 1 else 0 }⟩

/-! ## The wire form (R324) -/

def Acc.wire (a : Acc) : List Byte :=
  leBytes 21 a.value.toNat ++
    leBytes 3 (a.count + 2 ^ 21 * (if a.nan then 1 else 0) + 2 ^ 22 * (if a.poison then 1 else 0))

def Acc.ofWire (bs : List Byte) : Acc :=
  let h := leNat (window 21 3 bs)
  ⟨BitVec.ofNat 168 (leNat (bs.take 21)), h / 2 ^ 21 % 2 = 1, h / 2 ^ 22 % 2 = 1, h % 2 ^ 21⟩

/-! ## The checker (R107, R108, R176) -/

/-- A checksum trailer entry `F * 2^E` (R176). -/
structure Trailer where
  f : Int
  e : Int
  deriving DecidableEq, Repr

/-- The trailer entry of a 4-bit weight veneer: F in bits [55:0], E in bits [63:56] (R176). -/
def Trailer.of64 (v : Nat) : Trailer := ⟨signed 56 v, signed 8 (v / 2 ^ 56)⟩
/-- The trailer entry of an FP8 weight veneer: F in bits [111:0], E in bits [127:112] (R177). -/
def Trailer.of128 (v : Nat) : Trailer := ⟨signed 112 v, signed 16 (v / 2 ^ 112)⟩

/-- The unique encoding of R176: a zero sum is F = 0, E = 0, any other sum has F odd. -/
def trailerNorm : Nat → Int → Int → Trailer
  | 0, f, e => ⟨f, e⟩
  | n + 1, f, e => if f = 0 then ⟨0, 0⟩ else if f % 2 = 0 then trailerNorm n (f / 2) (e + 1) else ⟨f, e⟩

/-- The trailer entry of one reduction index: the exact sum over the columns of element times scale (R176). -/
def trailerOf (f : Fmt) (blocks : List Block) (k : Nat) : Trailer :=
  let s := blocks.foldl (fun acc b =>
    if b.scale = 0 ∨ b.scale = 0xFF then acc
    else let c := b.elems.getD k 0
      dyAdd acc.1 acc.2 (elemInt f c * (scaleInt b.scale : Int)) (elemExp f c + scaleExp b.scale)) ((0 : Int), (0 : Int))
  trailerNorm 512 s.1 s.2

/-- A checker accumulator has 16 guard bits above bit 159 (R107). -/
structure ChkAcc where
  value : BitVec 176
  nan : Bool
  count : Nat
  deriving DecidableEq, Repr

/-- The contribution of `k * 2^e` to a checker accumulator. -/
def chkContrib (k : Int) (e : Int) : BitVec 176 := BitVec.ofInt 176 (k * 2 ^ (e + 80).toNat)

/-- The checker accumulator of one row (R107): activation elements times trailer entries, then outlier slots times
the trailer entry at the slot's reduction index. -/
def checkRow (fa : Fmt) (row : List Block) (trailers : List (List Trailer)) (slots : List (List Slot × Bool)) : ChkAcc :=
  let base := (row.zip trailers).foldl (fun (acc : ChkAcc) bt =>
    let special := bt.1.scale = 0xFF ∨ (bt.1.scale ≠ 0 ∧ bt.1.elems.any (elemSpecial fa))
    { value := if bt.1.scale = 0 ∨ special then acc.value
        else (bt.1.elems.zip bt.2).foldl (fun v et =>
          v + chkContrib (elemInt fa et.1 * (scaleInt bt.1.scale : Int) * et.2.f)
            (elemExp fa et.1 + scaleExp bt.1.scale + et.2.e)) acc.value
      nan := acc.nan || decide special
      count := satAdd countTop acc.count 32 }) (⟨0#176, false, 0⟩ : ChkAcc)
  (slots.zip (List.range slots.length)).foldl (fun acc g =>
    g.1.1.foldl (fun (acc : ChkAcc) s =>
      let t := ((trailers.getD (8 * g.2 + s.index / 32) []).getD (s.index % 32) ⟨0, 0⟩)
      { acc with
        value := if slotNan s.value then acc.value else acc.value + chkContrib (slotInt s.value * t.f) (slotExp s.value + t.e)
        nan := acc.nan || slotNan s.value }) acc) base

/-- Row r of a tile passes (R108): exact sums agree, unless NAN exempts the row, and every COUNT agrees. -/
def rowPasses (outs : List Acc) (chk : ChkAcc) : Bool :=
  let sum := outs.foldl (fun v a => v + BitVec.ofInt 176 a.value.toInt) 0#176
  ((outs.any (·.nan) || chk.nan) || sum == chk.value) && outs.all fun a => a.count == chk.count

/-! ## Wide reference mode (R76 to R78) -/

/-- A 640-bit reference accumulator; bit 0 weighs 2^-320 (R77). -/
structure WideAcc where
  value : BitVec 640
  nan : Bool
  pinf : Bool
  ninf : Bool
  poison : Bool
  count : Nat
  deriving DecidableEq, Repr

def WideAcc.empty : WideAcc := ⟨0#640, false, false, false, false, 0⟩

/-- One product enters a reference accumulator: of two BF16 operands, or of FP16 and FP32 values that feed the mode under
R47, which enter unrounded: their products too are whole multiples of 2^-320 (DEDUCED from R47 and R77, log entry 24). -/
def WideAcc.step (acc : WideAcc) (a b : Word) : WideAcc :=
  let c := { acc with count := satAdd countTop acc.count 1 }
  match val32 a, val32 b with
  | .nan, _ | _, .nan => { c with nan := true }
  | .inf x, .inf y => if x = y then { c with pinf := true } else { c with ninf := true }
  | .inf x, .fin y m _ | .fin y m _, .inf x =>
    if m = 0 then { c with nan := true } else if x = y then { c with pinf := true } else { c with ninf := true }
  | .fin x m e, .fin y n g =>
    { c with value := acc.value + BitVec.ofInt 640 (smant x m * smant y n * 2 ^ (e + g + 320).toNat) }

/-- Reference accumulators combine under the rules of R72 (R77). -/
def WideAcc.add (a b : WideAcc) : WideAcc :=
  ⟨a.value + b.value, a.nan || b.nan, a.pinf || b.pinf, a.ninf || b.ninf, a.poison || b.poison, satAdd countTop a.count b.count⟩

/-- The sum of one output of a wide reference product, in tiles of 16 reduction elements whose accumulators combine under
R72 (R77). -/
def wideSum (as bs : List Word) (poison : Bool) : WideAcc :=
  { (chunks 16 (as.zip bs)).foldl (fun acc t => acc.add (t.foldl (fun k ab => k.step ab.1 ab.2) WideAcc.empty)) WideAcc.empty with
    poison := poison }

/-- The output of a wide reference product (R76): the special cases from the top, then steps 4 and 5 of R75. It
counts nothing (R78). -/
def wideOutput (sigma : Word) (o : OutFmt) (a : WideAcc) : Nat :=
  if a.count > reductionLimit ∨ a.nan ∨ (a.pinf ∧ a.ninf) then (convert o nan32).1
  else if a.pinf then (convert o (fmul (inf32 false) sigma)).1
  else if a.ninf then (convert o (fmul (inf32 true) sigma)).1
  else if a.value = 0#640 then 0
  else (convert o (fmul (round32 a.value.toInt (-320) false) sigma)).1

end Sys2Proof.Machine
end

