-- ==== Sys2Proof/Machine/Crypto.lean ====
section
/-! DEFINITION. The standard algorithms the spec names by reference: SM4 (GB/T 32907), SM3 (GB/T 32905), SM2
(GB/T 32918), CRC-32 (IEEE 802.3) and the CRC-64 of R353 (log entry 4). -/

namespace Sys2Proof.Machine

/-! ## SM4 encryption (R84, R277, R385) -/

/-- The SM4 S-box as one number, entry 0 in its most significant byte. -/
def sm4Box : Nat :=
  0xd690e9fecce13db716b614c228fb2c052b679a762abe04c3aa441326498606999c4250f491ef987a33540b43edcfac62e4b31ca9c908e89580df94fa758f3fa64707a7fcf37317ba83593c19e6854fa8686b81b27164da8bf8eb0f4b70569d351e240e5e6358d1a225227c3b01217887d40046579fd327524c3602e7a0c4c89eeabf8ad240c738b5a3f7f2cef96115a1e0ae5da49b341a55ad933230f58cb1e31df6e22e8266ca60c02923ab0d534e6fd5db3745defd8e2f03ff6a726d6c5b518d1baf92bbddbc7f11d95c411f105ad80ac13188a5cd7bbd2d74d012b8e5b4b08969974a0c96777e65b9f109c56ec68418f07dec3adc4d2079ee5f3ed7cb3948

def sm4Sub (b : Nat) : Nat := (sm4Box >>> (8 * (255 - b % 256))) % 256

/-- The S-box on each byte of a word. -/
def sm4Tau (w : Word) : Word :=
  BitVec.ofNat 32 (sm4Sub (w.toNat >>> 24) * 2 ^ 24 + sm4Sub (w.toNat >>> 16) * 2 ^ 16
    + sm4Sub (w.toNat >>> 8) * 2 ^ 8 + sm4Sub w.toNat)

def sm4L (w : Word) : Word := w ^^^ w.rotateLeft 2 ^^^ w.rotateLeft 10 ^^^ w.rotateLeft 18 ^^^ w.rotateLeft 24
def sm4L' (w : Word) : Word := w ^^^ w.rotateLeft 13 ^^^ w.rotateLeft 23

/-- The constant CK of round i. -/
def sm4Ck (i : Nat) : Word :=
  BitVec.ofNat 32 ((4 * i * 7 % 256) * 2 ^ 24 + ((4 * i + 1) * 7 % 256) * 2 ^ 16 + ((4 * i + 2) * 7 % 256) * 2 ^ 8 + (4 * i + 3) * 7 % 256)

/-- Thirty-two rounds of SM4, the round keys formed on the way: `x` is the data, `k` the key state. -/
def sm4Rounds : Nat → Nat → Word × Word × Word × Word → Word × Word × Word × Word → Word × Word × Word × Word
  | 0, _, x, _ => x
  | n + 1, i, (x0, x1, x2, x3), (k0, k1, k2, k3) =>
    let rk := k0 ^^^ sm4L' (sm4Tau (k1 ^^^ k2 ^^^ k3 ^^^ sm4Ck i))
    sm4Rounds n (i + 1) (x1, x2, x3, x0 ^^^ sm4L (sm4Tau (x1 ^^^ x2 ^^^ x3 ^^^ rk))) (k1, k2, k3, rk)

/-- SM4 encryption of a 128-bit block under a 128-bit key, both big-endian numbers of their 16 bytes. -/
def sm4Enc (key blk : Nat) : Nat :=
  let w (v i : Nat) : Word := BitVec.ofNat 32 (v >>> (32 * (3 - i)))
  let k := (w key 0 ^^^ 0xA3B1BAC6#32, w key 1 ^^^ 0x56AA3350#32, w key 2 ^^^ 0x677D9197#32, w key 3 ^^^ 0xB27022DC#32)
  let r := sm4Rounds 32 0 (w blk 0, w blk 1, w blk 2, w blk 3) k
  r.2.2.2.toNat * 2 ^ 96 + r.2.2.1.toNat * 2 ^ 64 + r.2.1.toNat * 2 ^ 32 + r.1.toNat

/-! ## SM3 (R133, R449 to R461) -/

def sm3P0 (w : Word) : Word := w ^^^ w.rotateLeft 9 ^^^ w.rotateLeft 17
def sm3P1 (w : Word) : Word := w ^^^ w.rotateLeft 15 ^^^ w.rotateLeft 23

/-- The message expansion: the list holds the words so far, newest first. -/
def sm3Expand : Nat → List Word → List Word
  | 0, l => l
  | n + 1, l =>
    let g (i : Nat) : Word := l.getD (i - 1) 0#32
    sm3Expand n ((sm3P1 (g 16 ^^^ g 9 ^^^ (g 3).rotateLeft 15) ^^^ (g 13).rotateLeft 7 ^^^ g 6) :: l)

structure Sm3State where
  a : Word
  b : Word
  c : Word
  d : Word
  e : Word
  f : Word
  g : Word
  h : Word
  deriving DecidableEq, Repr

/-- The compression rounds over the expanded words. -/
def sm3Rounds : Nat → Nat → List Word → Sm3State → Sm3State
  | 0, _, _, v => v
  | n + 1, j, w, v =>
    let t : Word := if j < 16 then 0x79CC4519#32 else 0x7A879D8A#32
    let ss1 := (v.a.rotateLeft 12 + v.e + t.rotateLeft (j % 32)).rotateLeft 7
    let ss2 := ss1 ^^^ v.a.rotateLeft 12
    let ff := if j < 16 then v.a ^^^ v.b ^^^ v.c else (v.a &&& v.b) ||| (v.a &&& v.c) ||| (v.b &&& v.c)
    let gg := if j < 16 then v.e ^^^ v.f ^^^ v.g else (v.e &&& v.f) ||| (~~~v.e &&& v.g)
    let wj := w.getD 0 0#32
    let tt1 := ff + v.d + ss2 + (wj ^^^ w.getD 4 0#32)
    let tt2 := gg + v.h + ss1 + wj
    sm3Rounds n (j + 1) (w.drop 1) ⟨tt1, v.a, v.b.rotateLeft 9, v.c, sm3P0 tt2, v.e, v.f.rotateLeft 19, v.g⟩

def sm3Block (v : Sm3State) (blk : List Byte) : Sm3State :=
  let w0 := (chunks 4 blk).map fun b => (BitVec.ofNat 32 (beNat b) : Word)
  let w := (sm3Expand 52 w0.reverse).reverse
  let r := sm3Rounds 64 0 w v
  ⟨v.a ^^^ r.a, v.b ^^^ r.b, v.c ^^^ r.c, v.d ^^^ r.d, v.e ^^^ r.e, v.f ^^^ r.f, v.g ^^^ r.g, v.h ^^^ r.h⟩

/-- The padded message of SM3. -/
def sm3Pad (m : List Byte) : List Byte :=
  m ++ [0x80#8] ++ List.replicate ((119 - m.length % 64) % 64) 0#8 ++ beBytes 8 (8 * m.length)

/-- The SM3 digest, 32 bytes. -/
def sm3 (m : List Byte) : List Byte :=
  let v := (chunks 64 (sm3Pad m)).foldl sm3Block
    ⟨0x7380166F#32, 0x4914B2B9#32, 0x172442D7#32, 0xDA8A0600#32, 0xA96F30BC#32, 0x163138AA#32, 0xE38DEE4D#32, 0xB0FB0E4E#32⟩
  [v.a, v.b, v.c, v.d, v.e, v.f, v.g, v.h].flatMap fun w => beBytes 4 w.toNat

/-- The key derivation function of GB/T 32918.4, first 256 bits (R459). -/
def sm3Kdf (z : List Byte) : Nat := beNat (sm3 (z ++ beBytes 4 1))

/-- HMAC-SM3 (R459). -/
def hmacSm3 (key msg : List Byte) : List Byte :=
  let k := key ++ List.replicate (64 - key.length) 0#8
  sm3 ((k.map (· ^^^ 0x5C#8)) ++ sm3 ((k.map (· ^^^ 0x36#8)) ++ msg))

/-! ## SM2 (R449, R459, R461) -/

def sm2P : Nat := 0xFFFFFFFEFFFFFFFFFFFFFFFFFFFFFFFFFFFFFFFF00000000FFFFFFFFFFFFFFFF
def sm2A : Nat := 0xFFFFFFFEFFFFFFFFFFFFFFFFFFFFFFFFFFFFFFFF00000000FFFFFFFFFFFFFFFC
def sm2B : Nat := 0x28E9FA9E9D9F5E344D5A9E4BCF6509A7F39789F515AB8F92DDBCBD414D940E93
def sm2N : Nat := 0xFFFFFFFEFFFFFFFFFFFFFFFFFFFFFFFF7203DF6B21C6052B53BBF40939D54123
def sm2G : Nat × Nat :=
  (0x32C4AE2C1F1981195F9904466A39C9948FE30BBFF2660BE1715A4589334C74C7,
    0xBC3736A2F4F6779C59BDCEE36B692153D0A9877CC62A474002DF32E52139F0A0)

/-- Power modulo a number, with a fuel of the exponent's bits. -/
def powMod (m : Nat) : Nat → Nat → Nat → Nat → Nat
  | 0, _, _, acc => acc
  | f + 1, b, e, acc => powMod m f (b * b % m) (e / 2) (if e % 2 = 1 then acc * b % m else acc)

def invMod (m a : Nat) : Nat := powMod m 256 (a % m) (m - 2) 1

/-- Addition on the curve; `none` is the point at infinity. -/
def sm2Add (p q : Option (Nat × Nat)) : Option (Nat × Nat) :=
  match p, q with
  | none, q => q
  | p, none => p
  | some (x1, y1), some (x2, y2) =>
    if x1 = x2 ∧ (y1 + y2) % sm2P = 0 then none else
    let l := if x1 = x2 then (3 * x1 * x1 + sm2A) * invMod sm2P (2 * y1) % sm2P
      else (y2 + sm2P - y1) * invMod sm2P (x2 + sm2P - x1) % sm2P
    let x3 := (l * l + 2 * sm2P - x1 - x2) % sm2P
    some (x3, (l * (x1 + sm2P - x3) + sm2P - y1) % sm2P)

/-- Scalar multiplication with a fuel of the scalar's bits. -/
def sm2Mul : Nat → Nat → Option (Nat × Nat) → Option (Nat × Nat) → Option (Nat × Nat)
  | 0, _, _, acc => acc
  | f + 1, k, p, acc => sm2Mul f (k / 2) (sm2Add p p) (if k % 2 = 1 then sm2Add acc p else acc)

def sm2Times (k : Nat) (p : Nat × Nat) : Option (Nat × Nat) := sm2Mul 256 k (some p) none

/-- The identifier's digest Z of a public key (GB/T 32918.2), with the distinguishing identifier of R449. -/
def sm2Z (key : Nat × Nat) : List Byte :=
  let ida : List Byte := [0x31#8, 0x32#8, 0x33#8, 0x34#8, 0x35#8, 0x36#8, 0x37#8, 0x38#8]
  sm3 (beBytes 2 128 ++ ida ++ ida ++ beBytes 32 sm2A ++ beBytes 32 sm2B ++ beBytes 32 sm2G.1 ++ beBytes 32 sm2G.2
    ++ beBytes 32 key.1 ++ beBytes 32 key.2)

/-- The number e that is signed. -/
def sm2E (key : Nat × Nat) (msg : List Byte) : Nat := beNat (sm3 (sm2Z key ++ msg))

/-- Verification of the signature (r, s) of a message under a public key, all as in R449. -/
def sm2Verify (key : Nat × Nat) (msg : List Byte) (r s : Nat) : Bool :=
  let t := (r + s) % sm2N
  if r = 0 ∨ r ≥ sm2N ∨ s = 0 ∨ s ≥ sm2N ∨ t = 0 then false
  else match sm2Add (sm2Times s sm2G) (sm2Times t key) with
    | none => false
    | some q => (sm2E key msg + q.1) % sm2N == r

/-- Signature of a message with a private scalar and a nonce. -/
def sm2Sign (d k : Nat) (msg : List Byte) : Nat × Nat :=
  match sm2Times d sm2G, sm2Times k sm2G with
  | some key, some q =>
    let r := (sm2E key msg + q.1) % sm2N
    (r, invMod sm2N (1 + d) * (k + (sm2N - r) * d) % sm2N)
  | _, _ => (0, 0)

/-! ## CRCs (R317, R448, R353) -/

def crc32Bits : Nat → Nat → Nat
  | 0, c => c
  | n + 1, c => crc32Bits n (if c % 2 = 1 then (c / 2) ^^^ 0xEDB88320 else c / 2)

/-- CRC-32 with the IEEE 802.3 polynomial and conventions (reflected, initial value and final inversion of all ones). -/
def crc32 (bs : List Byte) : Word :=
  BitVec.ofNat 32 ((bs.foldl (fun c b => crc32Bits 8 (c ^^^ b.toNat)) 0xFFFFFFFF) ^^^ 0xFFFFFFFF)

def crc64Bits : Nat → Nat → Nat
  | 0, c => c
  | n + 1, c => crc64Bits n ((if c / 2 ^ 63 % 2 = 1 then (2 * c) ^^^ 0x42F0E1EBA9EA3693 else 2 * c) % 2 ^ 64)

/-- The CRC-64 of R353: initial value 0 and no final inversion, most significant bit first. -/
def crc64 (bs : List Byte) : Nat := bs.foldl (fun c b => crc64Bits 8 (c ^^^ (b.toNat * 2 ^ 56))) 0

/-- The signature of one written line: CRC-64 of its 8-byte line number and its 128 bytes (R353). -/
def lineSig (line : Nat) (bs : List Byte) : Nat := crc64 (leBytes 8 line ++ bs)

end Sys2Proof.Machine
end

