-- ==== Sys2Proof/Machine/Plane.lean ====
section
/-! DEFINITION. The plane unit: rotation, outlier extraction, quantisation and the recompute grants (R82 to R102);
the vector unit's reductions, integer operations and residues (R93, R110, R112). -/

namespace Sys2Proof.Machine

/-! ## The rotation spec (R90, R91) -/

/-- The recompute policy of a site (R90). -/
inductive RotPolicy where
  | continue
  | recomputeWide
  deriving DecidableEq, Repr

/-- The rotation spec as its four words (R90). -/
structure RotSpec where
  w0 : Word
  w1 : Word
  w2 : Word
  w3 : Word
  deriving DecidableEq, Repr

def RotSpec.groupLog2 (r : RotSpec) : Nat := fld r.w0 3 0
/-- The group size n; 0 without rotation. -/
def RotSpec.n (r : RotSpec) : Nat := if r.groupLog2 = 0 then 0 else 2 ^ r.groupLog2
/-- The decoded count S of outlier slots per group: 0, 2, 4 or 8 (R90). -/
def RotSpec.slots (r : RotSpec) : Nat := match fld r.w0 5 4 with | 0 => 0 | 1 => 2 | 2 => 4 | _ => 8
def RotSpec.policyCode (r : RotSpec) : Nat := fld r.w0 7 6
def RotSpec.wide (r : RotSpec) : Bool := r.policyCode = 1
def RotSpec.recompFmt (r : RotSpec) : Fmt := if bit r.w0 8 then .e5m2 else .e4m3
/-- Sixteen times the threshold multiple T (R90). -/
def RotSpec.mult (r : RotSpec) : Nat := fld r.w0 23 16
def RotSpec.site (r : RotSpec) : Nat := fld r.w0 26 24
def RotSpec.layer (r : RotSpec) : Nat := fld r.w1 15 0
def RotSpec.budget (r : RotSpec) : Nat := fld r.w1 31 16
def RotSpec.slotBase (r : RotSpec) : Nat := r.w2.toNat + 2 ^ 32 * fld r.w3 15 0
/-- The reserved bits of the spec are 0 (R91). -/
def RotSpec.reservedOk (r : RotSpec) : Bool := fld r.w0 15 9 = 0 && fld r.w0 31 27 = 0 && fld r.w3 31 16 = 0
/-- A spec is in use under the fourth rule of R91. -/
def RotSpec.inUse (r : RotSpec) : Bool := r.groupLog2 != 0 || fld r.w0 5 4 != 0 || r.mult != 0 || r.wide

/-- The rules of R91 that concern one spec with reduction length K. -/
def RotSpec.ok (r : RotSpec) (k : Nat) : Bool :=
  (r.groupLog2 == 0 || (5 ≤ r.groupLog2 && r.groupLog2 ≤ 12)) && (r.groupLog2 == 0 || k % r.n == 0) &&
    r.policyCode ≤ 1 && r.reservedOk

/-! ## The signs and the transform (R83 to R86) -/

/-- The site key K_ls (R84). -/
def siteKey (seed layer site : Nat) : Nat :=
  sm4Enc seed (beNat (beBytes 2 layer ++ [BitVec.ofNat 8 site] ++ List.replicate 13 0#8))

/-- The sign bit of the element at reduction index i (R84). -/
def signBit (seed layer site i : Nat) : Bool := (sm4Enc (siteKey seed layer site) (i / 128)).testBit (i % 128)

/-- Exact multiplication by ±1. -/
def flipSign (neg : Bool) (x : Word) : Word := if neg then fneg x else x

/-- One butterfly stage over runs of `2h` elements (R85). -/
def butterfly (h : Nat) (v : List Word) : List Word :=
  (chunks (2 * h) v).flatMap fun c =>
    let a := c.take h
    let b := c.drop h
    (a.zip b).map (fun p => fadd p.1 p.2) ++ (a.zip b).map (fun p => fsub p.1 p.2)

/-- The stages of a group in their fixed order (R85). -/
def stagesOf (log2n : Nat) (v : List Word) : List Word := (List.range log2n).foldl (fun v s => butterfly (2 ^ s) v) v

/-- One rotated group, whose first element has reduction index `base` (R85). -/
def rotateGroup (seed layer site log2n base : Nat) (x : List Word) : List Word :=
  stagesOf log2n ((x.zip (List.range x.length)).map fun p => flipSign (signBit seed layer site (base + p.2)) p.1)

/-- A row rotated under a spec (R82, R83); without rotation the row is padded under R39. -/
def rotateRow (seed : Nat) (r : RotSpec) (x : List Word) : List Word :=
  if r.groupLog2 = 0 then pad32 0#32 x else
  let gs := chunks r.n x
  (gs.zip (List.range gs.length)).flatMap fun p => rotateGroup seed r.layer r.site r.groupLog2 (p.2 * r.n) p.1

/-- Poison spreads over a group of `n` values that an operation mixes (R169); 0 mixes none. -/
def spreadPo (n : Nat) (po : List Bool) : List Bool :=
  if n = 0 then po else (chunks n po).flatMap fun g => g.map fun _ => g.any fun b => b

/-- A rotated row with the poison of its values: a rotated value depends on its whole group. -/
def rotateCells (seed : Nat) (r : RotSpec) (x : List (Word × Bool)) : List (Word × Bool) :=
  let po := x.map (·.2)
  (rotateRow seed r (x.map (·.1))).zip (spreadPo r.n (if r.groupLog2 = 0 then pad32 false po else po))

/-! ## The pairwise tree sum (R93) -/

/-- One level of the tree: pairs (2i, 2i+1), with a missing leaf 0. -/
def pairLevel : List Word → List Word
  | a :: b :: l => fadd a b :: pairLevel l
  | [a] => [fadd a 0#32]
  | [] => []

def treeSumAux : Nat → List Word → Word
  | 0, l => l.headD 0#32
  | n + 1, l => if l.length ≤ 1 then l.headD 0#32 else treeSumAux n (pairLevel l)

/-- The sum in the pairwise tree order of R93; an empty list sums to +0. -/
def treeSum (l : List Word) : Word := treeSumAux (l.length + 1) l

/-! ## Outlier extraction (R92 to R97) -/

/-- The threshold t of a group (R93). -/
def threshold (mult : Nat) (g : List Word) : Word :=
  let mean := (let s := treeSum (g.map fun x => fmul x x)
    match val32 s with
    | .fin n m e => let q := frac m e; BitVec.ofNat 32 (fp32.roundFrac n q.1 (q.2 * g.length))
    | _ => s)
  fmul (round32 (mult * mult : Nat) (-8) false) mean

/-- The candidates of a group: indices of finite elements whose rounded square is above t (R93); none when t is
not finite, and none without extraction (R90). -/
def candidates (mult : Nat) (g : List Word) : List (Nat × Word) :=
  if mult = 0 then [] else
  let t := threshold mult g
  if !isFin t then [] else
  (g.zip (List.range g.length)).filterMap fun p =>
    if isFin p.1 && flt t (fmul p.1 p.1) then some (p.2, p.1) else none

/-- The candidate's FP16 value (R94). -/
def slotValue (x : Word) : Nat := convIeee fp16 x

/-- A candidate is eligible when its FP16 value is finite (R94). -/
def eligible (x : Word) : Bool := slotValue x / 1024 % 32 != 31

/-- The larger magnitude comes first; equal magnitudes keep their index order (R94). -/
def magAbove (a b : Nat × Word) : Bool := flt (fabs b.2) (fabs a.2)

/-- What extraction makes of one group: its S slots in index order, the group with the slotted elements zeroed,
and whether it overflows (R94 to R97). The unused slots stand after the used ones (DESIGN CHOICE: R95 orders slots by index,
and R96 gives an unused one INDEX 0; log entry 24). -/
structure GroupOut where
  slots : List Slot
  rest : List Word
  overflow : Bool
  deriving DecidableEq, Repr

def extractGroup (s mult : Nat) (g : List Word) : GroupOut :=
  let cs := candidates mult g
  let taken := (sortBy magAbove (cs.filter fun c => eligible c.2)).take s
  let idx := taken.map (·.1)
  let used := (cs.filter fun c => idx.contains c.1).map fun c => (⟨slotValue c.2, c.1⟩ : Slot)
  { slots := used ++ List.replicate (s - used.length) ⟨0, 0⟩
    rest := (g.zip (List.range g.length)).map fun p => if idx.contains p.2 then 0#32 else p.1
    overflow := decide (cs.length > taken.length) }

/-- A row of an operand: its blocks, and whether the row overflows (R98). A row without blocks takes no part in a product. Its
slots lie in context memory (R95, R179), and the values held for a wide recompute in shared slices (R89). -/
structure PlaneRow where
  blocks : List Block
  overflow : Bool
  deriving DecidableEq, Repr

def PlaneRow.none : PlaneRow := ⟨[], false⟩

/-- What the plane unit makes of one row: the operand's row, its slots by group with their poison, and the rotated values for a
site whose policy is RECOMPUTE_WIDE (R82, R89, R95, R169). -/
structure PlaneOut where
  row : PlaneRow
  slots : List (List Slot × Bool)
  held : List (Word × Bool)
  events : QEvents
  deriving DecidableEq, Repr

/-- Extraction of rotated values by groups of 256 (R92): each group's outcome with the poison of its values. Which elements are
slotted depends on the whole group. -/
def extractCells (r : RotSpec) (v : List (Word × Bool)) : List (GroupOut × List Bool) :=
  (chunks 256 v).map fun g =>
    (extractGroup r.slots r.mult (g.map (·.1)), spreadPo (if r.mult = 0 then 0 else 256) (g.map (·.2)))

/-- The values that stay in their blocks. -/
def restCells (gs : List (GroupOut × List Bool)) : List (Word × Bool) := gs.flatMap fun g => g.1.rest.zip g.2

/-- The three stages of R82 on one row, with the events they count (R97, R52); `sr` as in `quantiseRow`. -/
def planeRow (seed : Nat) (r : RotSpec) (f : Fmt) (sr : Option (Nat → Nat)) (x : List (Word × Bool)) : PlaneOut :=
  let v := rotateCells seed r x
  let gs := extractCells r v
  let q := quantiseRow f sr (restCells gs)
  let ovf := (gs.filter (·.1.overflow)).length
  { row := ⟨q.1, decide (ovf > 0)⟩
    slots := if r.slots = 0 then [] else gs.map fun g => (g.1.slots, r.mult != 0 && g.2.any fun b => b)
    held := if r.wide then v else []
    events := q.2.add { QEvents.none with outlierOvf := ovf } }

/-- The grants of one site: overflowing rows in ascending batch-table order, up to the budget (R99). -/
def grants (budget : Nat) (rows : List Nat) : List Nat := (sortBy (fun a b => decide (a < b)) rows).take budget

/-- A granted row quantised again to the recompute format, from its held values: they are extracted again, so the same
elements stand in the same slots, and the rest is quantised (R100, R102). -/
def recomputeRow (r : RotSpec) (sr : Option (Nat → Nat)) (held : List (Word × Bool)) : PlaneRow × QEvents :=
  let q := quantiseRow r.recompFmt sr (restCells (extractCells r held))
  (⟨q.1, true⟩, q.2)

/-- The bytes of a row's slot array, and of one row's place for it (R95, R179). -/
def RotSpec.rowBytes (r : RotSpec) (k : Nat) : Nat := cdiv (4 * r.slots * cdiv k 256) 128 * 128
def RotSpec.rowBase (r : RotSpec) (k row : Nat) : Nat := r.slotBase + row * r.rowBytes k
def slotBytesOf (gs : List (List Slot)) : List Byte := gs.flatMap fun g => g.flatMap fun s => leBytes 4 s.word.toNat

/-- A row's slots by group from the bytes of its array. -/
def slotsOfBytes (s : Nat) (bs : List Byte) : List (List Slot) :=
  (chunks (4 * s) bs).map fun g => (chunks 4 g).map fun w => .ofWord (BitVec.ofNat 32 (leNat w))

/-- A weight element read on the FP8 path: its E4M3 code, exact for every E2M1 and INT4 value (R100). -/
def toE4m3 (f : Fmt) (c : Nat) : Nat :=
  match f with
  | .e4m3 | .e5m2 => c
  | _ =>
    let k := elemInt f c
    let q := frac k.natAbs (elemExp f c)
    signCode .e4m3 (decide (k < 0)) (e4m3.roundMag q.1 q.2)

/-- The weight block on the FP8 path of a recompute. -/
def Block.widened (f : Fmt) (b : Block) : Block := { b with elems := b.elems.map (toE4m3 f) }

/-! ## Vector integer operations and their residues (R110, R112) -/

/-- The integer operations; a shift names its distance. -/
inductive IntOp where
  | add | sub | mul
  | shl (s : Fin 32)
  | shr (s : Fin 32)
  | sar (s : Fin 32)
  deriving DecidableEq, Repr

/-- The result of an integer operation, modulo 2^32. -/
def IntOp.eval (op : IntOp) (a b : Word) : Word :=
  match op with
  | .add => a + b
  | .sub => a - b
  | .mul => a * b
  | .shl s => a <<< s.val
  | .shr s => a >>> s.val
  | .sar s => a.sshiftRight s.val

/-- The residue of a word modulo 3. -/
def res3 (w : Word) : Nat := w.toNat % 3

/-- The residue that the table of R112 predicts from the operands' residues and the side value. -/
def IntOp.predict (op : IntOp) (a b : Word) : Nat :=
  let ra := res3 a
  let rb := res3 b
  match op with
  | .add => (ra + rb + 2 * ((a.toNat + b.toNat) / 2 ^ 32)) % 3
  | .sub => (ra + 2 * rb + (if a.toNat < b.toNat then 1 else 0)) % 3
  | .mul => (ra * rb + 2 * (a.toNat * b.toNat / 2 ^ 32 % 3)) % 3
  | .shl s => (ra * 2 ^ (s.val % 2) + 2 * (a.toNat / 2 ^ (32 - s.val) % 3)) % 3
  | .shr s => ((ra + 2 * (a.toNat % 2 ^ s.val % 3)) * 2 ^ (s.val % 2)) % 3
  | .sar s => ((ra + 2 * (a.toNat % 2 ^ s.val % 3)) * 2 ^ (s.val % 2) +
      (if a.getLsbD 31 then 2 ^ 32 - 2 ^ (32 - s.val) else 0)) % 3

/-- A result that the unit formed passes its residue check (R112). -/
def IntOp.residueOk (op : IntOp) (a b r : Word) : Bool := op.predict a b == res3 r

end Sys2Proof.Machine
end

