-- ==== Sys2Proof/Machine/Attention.lean ====
section
/-! DEFINITION. The attention engine's arithmetic: layer records, rotary codes, masks, block states, the mitre tree
(R207 to R218). -/

namespace Sys2Proof.Machine

/-! ## Layer records and rotary codes (R210 to R212) -/

/-- A layer record (R210). -/
structure LayerRec where
  sliding : Bool
  windowRelease : Bool
  halves : Bool
  rotPairs : Nat
  window : Nat
  scale : Word
  inc : List Nat
  poison : Bool
  deriving DecidableEq, Repr

/-- The record from its 640 bytes, with the poison of the lines that hold them (R169, R210). -/
def LayerRec.ofBytes (bs : List Byte) (poison : Bool) : LayerRec :=
  let w (i : Nat) : Word := BitVec.ofNat 32 (leNat (Machine.window i 4 bs))
  { sliding := bit (w 0) 0, windowRelease := bit (w 0) 1, halves := bit (w 0) 2, rotPairs := fld (w 0) 14 8
    window := fld (w 4) 22 0, scale := w 8
    inc := (List.range 64).map fun k => leNat (Machine.window (0x40 + 8 * k) 8 bs), poison := poison }

/-- The two dimensions of pair k (R210). -/
def LayerRec.pairDims (r : LayerRec) (k : Nat) : Nat × Nat :=
  if r.halves then (k, k + r.rotPairs) else (2 * k, 2 * k + 1)

/-- One pair rotated by the codes of its phase (R211, R212). -/
def rotatePair (inc p : Nat) (x y : Word) : Word × Word :=
  let cs := cosSin (p * inc % 2 ^ 64)
  (ffma x cs.1 (fneg (fmul y cs.2)), ffma y cs.1 (fmul x cs.2))

/-- A 128-dimension vector rotated at position p (R212). -/
def rotary (r : LayerRec) (p : Nat) (v : List Word) : List Word :=
  (List.range r.rotPairs).foldl (fun v k =>
    let d := r.pairDims k
    let q := rotatePair (r.inc.getD k 0) p (v.getD d.1 0#32) (v.getD d.2 0#32)
    (v.set d.1 q.1).set d.2 q.2) v

/-- A rotated vector with its poison: the dimensions of a pair depend on each other, and all of them on the record (R169). -/
def rotaryCells (r : LayerRec) (p : Nat) (v : List (Word × Bool)) : List (Word × Bool) :=
  let po := (List.range r.rotPairs).foldl (fun (po : List Bool) k =>
    let d := r.pairDims k
    let b := po.getD d.1 false || po.getD d.2 false
    (po.set d.1 b).set d.2 b) (v.map (·.2))
  (rotary r p (v.map (·.1))).zip (po.map (· || r.poison))

/-! ## The length table (R207) and the masks (R208) -/

/-- What a plan row runs as (R207). -/
inductive RowKind where
  | decode | prefill | kvFill
  deriving DecidableEq, Repr

/-- One length-table row (R207): HANDLE, COMMITTED, KIND, NEW, the parents of NODES tree nodes, the prefix group
and its shared length. -/
structure LenRow where
  handle : Nat
  committed : Nat
  kind : RowKind
  new : Nat
  parents : List Nat
  prefixGroup : Nat
  prefixLen : Nat
  deriving DecidableEq, Repr

def LenRow.nodes (r : LenRow) : Nat := r.parents.length

/-- The depth of a node, the root being 0 (R282). -/
def depthOf (parents : List Nat) : Nat → Nat → Nat
  | 0, _ => 0
  | _, 0 => 0
  | f + 1, k => 1 + depthOf parents f (parents.getD (k - 1) 0)

def LenRow.depth (r : LenRow) (k : Nat) : Nat := depthOf r.parents (r.nodes + 1) k

/-- Node k has node j as itself or an ancestor below the root. -/
def isAncestor (parents : List Nat) (j : Nat) : Nat → Nat → Bool
  | 0, _ => false
  | f + 1, k => k == j || (k != 0 && isAncestor parents j f (parents.getD (k - 1) 0))

/-- The slot of row i of a sequence (R207). -/
def LenRow.slot (r : LenRow) (i : Nat) : Nat := r.committed + i

/-- The position of row i: a tree slot stands at c + depth (R207, R208). -/
def LenRow.pos (r : LenRow) (i : Nat) : Nat :=
  match r.kind with
  | .prefill => r.committed + i
  | _ => r.committed + r.depth i

/-- The position of slot t. -/
def LenRow.slotPos (r : LenRow) (t : Nat) : Nat := if t < r.committed then t else r.pos (t - r.committed)

/-- The slot is visible to row i (R208). -/
def LenRow.visible (r : LenRow) (l : LayerRec) (i t : Nat) : Bool :=
  let c := r.committed
  let causal := decide (t < c) ||
    (if r.kind = .prefill ∨ r.nodes = 0 then decide (t ≤ r.slot i)
     else t == c || isAncestor r.parents (t - c) (r.nodes + 1) i)
  causal && (!l.sliding || decide (r.pos i < r.slotPos t + l.window))

/-! ## Block arithmetic (R213 to R215) -/

/-- A KV slot as it is stored: four key blocks and four value blocks (R191). -/
structure KvSlot where
  key : List Block
  value : List Block
  deriving DecidableEq, Repr

/-- A vector of 128 dimensions quantised to E4M3 (R212). -/
def quantHead (v : List (Word × Bool)) : List Block × QEvents := quantiseRow .e4m3 none v

/-- The accumulator of a score (R213), with its invalid mark. -/
def scoreAcc (q k : List Block) : Acc × Bool := (accumulate .e4m3 .e4m3 q k [], consumesInvalid .e4m3 .e4m3 q k)

/-- The trailer of a key operand of several slots, block by block of the reduction (R213). -/
def keyTrailers (keys : List (List Block)) : List (List Trailer) :=
  (List.range 4).map fun b => (List.range 32).map fun k => trailerOf .e4m3 (keys.map fun q => q.getD b Block.zero) k

/-- The state of a block or of a combination of blocks (R214, R216). -/
structure AState where
  m : Word
  l : Word
  o : List Word
  poison : Bool
  deriving DecidableEq, Repr

/-- The format in which value elements enter the product: E2M1, INT4 and E4M3 elements enter as E4M3 codes, and
E5M2 elements keep their own exact codes (R215; log entry 13). -/
def valueFmt : Fmt → Fmt
  | .e5m2 => .e5m2
  | _ => .e4m3

def valueCode (f : Fmt) (c : Nat) : Nat := match f with | .e5m2 => c | f => toE4m3 f c

/-- `p′` of a slot: its weight times the value scale; a scale of 0x00 gives 0 and one of 0xFF a NaN (R215). -/
def scaledWeight (p : Word) (scale : Nat) : Word :=
  if scale = 0 then 0#32
  else if scale = 0xFF then nan32
  else fmul p (let s := scaleVal scale; BitVec.ofNat 32 (fp32.roundFrac false s.1 s.2))

/-- The trailer of a value operand: the sum of each slot's codes over the 32 columns, under scale 0x78 (R213). -/
def valueTrailers (f : Fmt) (vs : List Block) : List Trailer :=
  vs.map fun b => if !b.live then ⟨0, 0⟩ else
    let s := (b.elems.map (valueCode f)).foldl (fun (acc : Int × Int) c => dyAdd acc.1 acc.2 (elemInt (valueFmt f) c) (elemExp (valueFmt f) c)) ((0 : Int), (0 : Int))
    trailerNorm 512 s.1 s.2

/-- The 32 accumulators of value block β with their invalid marks (R215), their checker, and the events that the quantisation
counts. A masked slot has no weight and its value is not read: nothing of it, a stale 0xFF scale or NaN included, reaches the
output (DEDUCED from R79 and R214, log entry 13). A value block of scale 0x00 or 0xFF is not read for its elements (R41, R42).
`poison` is that of the scores, on which every weight depends. -/
def valueTile (f : Fmt) (beta : Nat) (p : List (Option Word)) (slots : List KvSlot) (poison : Bool) :
    List (Acc × Bool) × ChkAcc × QEvents :=
  let vs := (p.zip slots).map fun ps => if ps.1.isSome then ps.2.value.getD beta Block.zero else Block.zero
  let a := quantise .e4m3 ((p.zip vs).map fun pv => match pv.1 with | some w => scaledWeight w pv.2.scale | none => 0#32)
    (poison || vs.any (·.sPoison))
  ((List.range 32).map fun d =>
      let col : Block := ⟨0x78, vs.map fun b => if b.live then valueCode f (b.elems.getD d 0) else 0, vs.any fun b => b.live && b.poison, false⟩
      (accumulate .e4m3 (valueFmt f) [a.1] [col] [], consumesInvalid .e4m3 (valueFmt f) [a.1] [col]),
    checkRow .e4m3 [a.1] [valueTrailers f vs] [], a.2.events)

/-- What the walker makes of one block of 32 slots: the state, the events, and its product tiles as the checker sees them: rows
of accumulators with their checkers (R213, R214). -/
structure BlockOut where
  state : Option AState
  events : QEvents
  outs : List (List Acc)
  chk : List ChkAcc
  deriving DecidableEq, Repr

def BlockOut.null : BlockOut := ⟨none, QEvents.none, [], []⟩

/-- The values of a key as it is read, with their poison: a block of scale 0x00 or 0xFF is not read for its elements (R41, R42). -/
def keyCells (f : Fmt) (k : List Block) : List (Word × Bool) :=
  k.flatMap fun b => (b.values f).map fun v => (v, b.sPoison || (b.live && b.poison))

/-- The state of one block of 32 slots for one query row; a block without a visible slot is null (R214). `first` is the slot
number of the block's first slot. A key is quantised, and its quantisation counts, once for each query row and head that
reads it, in visible slots only (DEDUCED from R57 and R214, log entry 13). Poison of the layer record reaches every score through
the scale and the masks (R169, R210). -/
def blockState (f : Fmt) (l : LayerRec) (row : LenRow) (i first : Nat) (q : List Block) (slots : List KvSlot) : BlockOut :=
  let vis := (List.range 32).map fun t => row.visible l i (first + t)
  if !vis.any (fun b => b) then BlockOut.null else
  let keys := (slots.zip (List.range slots.length)).map fun s => quantHead (rotaryCells l (row.slotPos (first + s.2)) (keyCells f s.1.key))
  let acs := (vis.zip keys).map fun vk => if vk.1 then scoreAcc q vk.2.1 else (Acc.empty, false)
  let sc := (vis.zip acs).map fun va => if va.1 then roundOutput l.scale .fp32 va.2.2 va.2.1 else ⟨0, false, QEvents.none⟩
  let seen := (vis.zip sc).filterMap fun vs => if vs.1 then some (BitVec.ofNat 32 vs.2.code : Word) else none
  let m := seen.tail.foldl fmax (seen.headD 0#32)
  let po := l.poison || sc.any (·.poison)
  let p := (vis.zip sc).map fun vs =>
    let s : Word := BitVec.ofNat 32 vs.2.code
    if !vs.1 then none else some (if s = inf32 true then 0#32 else fexp (fsub s m))
  let vs := (List.range 4).map fun b => valueTile f b p slots po
  let os := vs.map fun v => v.1.map fun ai => roundOutput one32 .fp32 ai.2 ai.1
  { state := some ⟨m, treeSum (p.map fun w => w.getD 0#32), os.flatMap fun o => o.map fun e => BitVec.ofNat 32 e.code,
      po || os.any fun o => o.any (·.poison)⟩
    events := os.foldl (fun e o => o.foldl (fun e x => e.add x.events) e) (vs.foldl (fun e v => e.add v.2.2)
      ((vis.zip (keys.zip sc)).foldl (fun e vks => if vks.1 then (e.add vks.2.1.2).add vks.2.2.events else e) QEvents.none))
    outs := ((vis.zip acs).filter (·.1)).map (·.2.1) :: vs.map fun v => v.1.map (·.1)
    chk := checkRow .e4m3 q (keyTrailers (((vis.zip keys).filter (·.1)).map (·.2.1))) [] :: vs.map (·.2.1) }

/-! ## Combination (R216 to R218) -/

/-- Two states combine, the first holding the lower slots; the empty state is the identity (R216). -/
def combine : Option AState → Option AState → Option AState
  | none, b => b
  | a, none => a
  | some a, some b =>
    let m := fmax a.m b.m
    let fa := fexp (fsub a.m m)
    let fb := fexp (fsub b.m m)
    some ⟨m, ffma a.l fa (fmul b.l fb), (a.o.zip b.o).map (fun o => ffma o.1 fa (fmul o.2 fb)), a.poison || b.poison⟩

/-- The blocks of one part, in ascending slot order (R216). -/
def partState (bs : List (Option AState)) : Option AState := bs.foldl combine none

/-- One level of the mitre tree: pairs (2i, 2i+1), an unpaired last state passing up (R217). -/
def mitreLevel : List (Option AState) → List (Option AState)
  | a :: b :: l => combine a b :: mitreLevel l
  | l => l

def mitreAux : Nat → List (Option AState) → Option AState
  | 0, l => l.headD none
  | n + 1, l => if l.length ≤ 1 then l.headD none else mitreAux n (mitreLevel l)

/-- The merge of parts ordered by first logical page (R217). -/
def mitre (l : List (Option AState)) : Option AState := mitreAux (l.length + 1) l

/-- A head's output row (R218). -/
def attnOut : Option AState → List Word
  | none => List.replicate 128 0#32
  | some s =>
    if isNan s.m || isNan s.l || s.o.any isNan || s.m = inf32 false then List.replicate 128 nan32
    else s.o.map fun x => fmul x (frecip s.l)

end Sys2Proof.Machine
end

