-- ==== Sys2Proof/Machine/Expert.lean ====
section
/-! DEFINITION. Expert scores, choice, send lists, expert arithmetic and the exit test (R221 to R240). -/

namespace Sys2Proof.Machine

/-- A per-layer expert entry (R225), as its six used words. -/
structure ExpertRec where
  w0 : Word
  w1 : Word
  minScore : Word
  gateScale : Word
  w4 : Word
  w5 : Word
  reserved : List Word
  deriving DecidableEq, Repr

def ExpertRec.layer (r : ExpertRec) : Nat := fld r.w0 15 0
def ExpertRec.experts (r : ExpertRec) : Nat := fld r.w0 26 16
def ExpertRec.sigmoid (r : ExpertRec) : Bool := bit r.w0 27
def ExpertRec.minEn (r : ExpertRec) : Bool := bit r.w0 28
def ExpertRec.act (r : ExpertRec) : Nat := fld r.w0 30 29
def ExpertRec.cap (r : ExpertRec) : Nat := fld r.w1 12 0
def ExpertRec.exit (r : ExpertRec) : Nat := fld r.w1 15 13
def ExpertRec.width (r : ExpertRec) : Nat := fld r.w1 31 16
def ExpertRec.routerDesc (r : ExpertRec) : Nat := fld r.w4 15 0
def ExpertRec.gateUpDesc (r : ExpertRec) : Nat := fld r.w4 31 16
def ExpertRec.downDesc (r : ExpertRec) : Nat := fld r.w5 15 0
def ExpertRec.exitDesc (r : ExpertRec) : Nat := fld r.w5 31 16

/-- The entry from its eight words (R225). -/
def ExpertRec.ofWords (ws : List Word) : ExpertRec :=
  ⟨ws.getD 0 0#32, ws.getD 1 0#32, ws.getD 2 0#32, ws.getD 3 0#32, ws.getD 4 0#32, ws.getD 5 0#32, [ws.getD 6 0#32, ws.getD 7 0#32]⟩

/-- The first block of FFN columns of member m, and the number of blocks it holds (R223). -/
def sliceFirst (b p m : Nat) : Nat := m * b / p
def sliceBlocks (b p m : Nat) : Nat := (m + 1) * b / p - m * b / p

/-! ## Scores (R228) -/

/-- `1 / (1 + exp(-z))` in the order of R228 and R238. -/
def sigmoid (z : Word) : Word := frecip (fadd one32 (fexp (fneg z)))

/-- The scores of a row from its router outputs (R228). -/
def scores (r : ExpertRec) (z : List Word) : List Word :=
  if r.sigmoid then z.map sigmoid else
  let m := z.tail.foldl fmax (z.headD 0#32)
  let p := z.map fun x => fexp (fsub x m)
  let inv := frecip (treeSum p)
  p.map fun x => fmul x inv

/-! ## Expert choice (R229) -/

/-- The rows that expert e takes, from the eligible rows' scores given with their batch-table indices: ranked by
score, equal scores by lower index, at most C of them; listed in ascending row order (R229, R230). -/
def chooseRows (r : ExpertRec) (col : List (Nat × Word)) : List (Nat × Word) :=
  let kept := col.filter fun p => !isNan p.2 && !(r.minEn && flt p.2 r.minScore)
  let ranked := sortBy (fun a b => flt b.2 a.2) kept
  sortBy (fun a b => decide (a.1 < b.1)) (ranked.take r.cap)

/-- A send-list entry (R230). -/
structure SendEntry where
  row : Nat
  home : Nat
  slot : Nat
  gate : Word
  deriving DecidableEq, Repr

/-- The words of a send list: the header, then the entries (R230). -/
def sendWords (layer expert : Nat) (l : List SendEntry) : List Word :=
  [BitVec.ofNat 32 (layer + 2 ^ 16 * expert), BitVec.ofNat 32 l.length, 0#32, 0#32] ++
    l.flatMap fun e => [BitVec.ofNat 32 (e.row + 2 ^ 16 * e.home), BitVec.ofNat 32 e.slot, e.gate, 0#32]

/-! ## Expert arithmetic (R232) -/

/-- The activation (R232): SiLU or squared ReLU. -/
def activation (act : Nat) (a : Word) : Word :=
  if act = 0 then fmul a (sigmoid a) else fmul (fmax a 0#32) (fmax a 0#32)

/-- The gated products h_j of a row's interleaved gate and up columns (R223, R232). -/
def gated (act : Nat) (gate : Word) : List Word → List Word
  | a :: b :: l => fmul (fmul (activation act a) b) gate :: gated act gate l
  | _ => []

/-! ## Early exit (R238, R239) -/

/-- The exit test of one row's z against a threshold; a threshold of 1.0 or above or NaN disables the point, and a
NaN q never exits (R238, R239). -/
def exits (theta z : Word) : Bool :=
  if isNan theta || !flt theta one32 then false else flt theta (sigmoid z)

end Sys2Proof.Machine
end

