-- ==== Sys2Proof/Machine/Sampler.lean ====
section
/-! DEFINITION. The sampler stages, draw values, the speculative walk and the penalty table (R267 to R286). -/

namespace Sys2Proof.Machine

/-! ## Parameters (R279) -/

/-- The draw parameters of KIND 0b00 (R279). -/
structure DrawParams where
  topK : Nat
  treeMax : Nat
  scopeAll : Bool
  temp : Word
  topP : Word
  minP : Word
  repPen : Word
  presPen : Word
  freqPen : Word
  seed : Nat
  deriving DecidableEq, Repr

/-- The defaults of R279. -/
def DrawParams.default : DrawParams := ⟨0, 0, false, 0#32, one32, 0#32, one32, 0#32, 0#32, 0⟩

/-- The bias, constraint and exit parameters of KIND 0b01 (R279); `biases` holds token and bias pairs. -/
structure ConParams where
  constraint : Nat
  biases : List (Nat × Word)
  conAddr : Nat
  startState : Nat
  theta : List Word
  poison : Bool
  deriving DecidableEq, Repr

def ConParams.default : ConParams := ⟨0, [], 0, 0, List.replicate 4 one32, false⟩

/-- The bias of a token: the last entry governs, 0 without one (R269, R279). -/
def ConParams.bias (c : ConParams) (t : Nat) : Word :=
  ((c.biases.reverse.find? fun b => b.1 == t).map (·.2)).getD 0#32

/-! ## The penalty table (R270) -/

/-- One entry: a token with its ALL and GEN counts (R270). -/
structure PenEntry where
  token : Nat
  all : Nat
  gen : Nat
  deriving DecidableEq, Repr

/-- One processed token enters the table; `published` tokens also count in GEN. A token not yet in a full table is
not added (R270). -/
def penAdd (tbl : List PenEntry) (t : Nat) (published : Bool) : List PenEntry :=
  let g := if published then 1 else 0
  if tbl.any fun e => e.token == t then
    tbl.map fun e => if e.token == t then { e with all := satAdd 65535 e.all 1, gen := satAdd 65535 e.gen g } else e
  else if tbl.length < 4096 then tbl ++ [⟨t, 1, g⟩] else tbl

/-- The distinct tokens of a list. -/
def distinct (l : List Nat) : List Nat := l.foldl (fun acc x => if acc.contains x then acc else acc ++ [x]) []

/-- The count n_t of a row whose path, from the root's side on, holds the tokens that the table does not yet count
(R270). -/
def penCount (tbl : List PenEntry) (scopeAll : Bool) (path : List Nat) (t : Nat) : Nat :=
  let occ := (path.filter fun x => x == t).length
  match tbl.find? fun e => e.token == t with
  | some e => (if scopeAll then e.all else e.gen) + occ
  | none =>
    let absent := distinct ((path.takeWhile fun x => x != t).filter fun x => !tbl.any fun e => e.token == x)
    if tbl.length + absent.length < 4096 then occ else 0

/-! ## Stages 1 to 4 (R269 to R274) -/

/-- Stage 1 on one logit (R269). -/
def stage1 (d : DrawParams) (bias : Word) (n : Nat) (z : Word) : Word :=
  let a := fadd z bias
  if n = 0 then a else
  let a := if feq d.repPen one32 then a
    else if flt 0#32 a then fmul a (frecip d.repPen) else fmul a d.repPen
  fsub a (fadd d.presPen (fmul (ofInt32 n) d.freqPen))

/-- Stages 2 and 3 on one value (R272, R273). -/
def stage3 (d : DrawParams) (allowed : Bool) (a : Word) : Word :=
  let a := if allowed then a else inf32 true
  let y := if flt 0#32 d.temp then fmul a (frecip d.temp) else a
  if isNan y then inf32 true else if y = inf32 false then 0x7F7FFFFF#32 else y

/-- The ranking of candidates: the larger value first, then the lower token id (R274). -/
def candAbove (a b : Nat × Word) : Bool := flt b.2 a.2 || (feq a.2 b.2 && decide (a.1 < b.1))

/-- What one member sends for a row (R274): its candidates, m_m and l_m. -/
structure SliceSend where
  cands : List (Nat × Word)
  m : Word
  l : Word
  deriving DecidableEq, Repr

/-- K_loc of R274. -/
def kLoc (d : DrawParams) : Nat := if !flt 0#32 d.temp then 1 else if d.topK > 0 then d.topK else 1024

/-- Stage 4 over a slice whose first token is `first` (R274). -/
def stage4 (d : DrawParams) (first : Nat) (ys : List Word) : SliceSend :=
  let fin := ((ys.zip (List.range ys.length)).filter fun p => isFin p.1).map fun p => (first + p.2, p.1)
  match fin with
  | [] => ⟨[], 0#32, 0#32⟩
  | c :: cs =>
    let m := cs.foldl (fun m p => fmax m p.2) c.2
    ⟨(sortBy candAbove fin).take (kLoc d), m, treeSum (ys.map fun y => if isFin y then fexp (fsub y m) else 0#32)⟩

/-! ## Stages 5 to 7 (R275 to R278) -/

/-- The draw value's integer N (R277). -/
def drawInt (seed position stream draw : Nat) : Nat :=
  sm4Enc seed (beNat (beBytes 8 position ++ beBytes 4 stream ++ beBytes 4 draw)) / 2 ^ 104

/-- The draw value u (R277), exact in FP32. -/
def drawValue (n : Nat) : Word := round32 n (-24) false

/-- The running sums C_1, C_2, ... of a list (R276). -/
def cumul : Word → List Word → List Word
  | _, [] => []
  | c, p :: ps => let c' := fadd c p; c' :: cumul c' ps

/-- Stage 6: the number of ranks kept; rank 1 always stays (R276). -/
def truncate (d : DrawParams) (p : List Word) : Nat :=
  let floor := fmul d.minP (p.headD 0#32)
  let p1 := p.takeWhile fun x => !flt x floor
  let cs := 0#32 :: cumul 0#32 p1
  max 1 ((p1.zip cs).takeWhile fun pc => flt pc.2 d.topP).length

/-- Stage 7: the rank drawn among the kept probabilities, from 0 (R278). -/
def drawRank (u : Word) (p : List Word) : Nat :=
  let cs := cumul 0#32 p
  let tau := fmul u (cs.getLastD 0#32)
  min ((cs.takeWhile fun c => !flt tau c).length) (p.length - 1)

/-- Stages 5 to 7 for a row at position q: the token, or none at a dead end (R273, R275 to R278). -/
def drawRow (d : DrawParams) (q : Nat) (sends : List SliceSend) : Option Nat :=
  let ranked := (sortBy candAbove (sends.flatMap (·.cands))).take (if d.topK > 0 then d.topK else 1024)
  match ranked with
  | [] => none
  | c :: _ =>
    if !flt 0#32 d.temp then some c.1 else
    let live := sends.filter fun s => !s.cands.isEmpty
    let m := live.tail.foldl (fun m s => fmax m s.m) ((live.head?.map (·.m)).getD 0#32)
    let l := treeSum (sends.map fun s => if feq s.l 0#32 then 0#32 else fmul s.l (fexp (fsub s.m m)))
    let inv := frecip l
    let p := ranked.map fun y => fmul (fexp (fsub y.2 m)) inv
    let kept := p.take (truncate d p)
    let u := drawValue (drawInt d.seed (q + 1) 0 0)
    (ranked[drawRank u kept]?).map (·.1)

/-! ## The speculative walk (R285) -/

/-- What the walk finds: the draws in order, the accepted nodes, the row it ended on, and whether that row is a dead
end (R273, R285). -/
structure Walk where
  draws : List Nat
  accepted : List Nat
  last : Nat
  deadEnd : Bool
  deriving DecidableEq, Repr

/-- The walk from a row. `tok k` is node k's proposed token, `drw k` row k's draw. -/
def walkFrom (parents : List Nat) (tok : Nat → Nat) (drw : Nat → Option Nat) : Nat → Nat → Walk → Walk
  | 0, _, w => w
  | f + 1, k, w =>
    match drw k with
    | none => { w with last := k, deadEnd := true }
    | some x =>
      let w := { w with draws := w.draws ++ [x], last := k }
      match ((List.range parents.length).map (· + 1)).find? fun j => parents.getD (j - 1) 0 == k && tok j == x with
      | some j => walkFrom parents tok drw f j { w with accepted := w.accepted ++ [j] }
      | none => w

def walk (parents : List Nat) (tok : Nat → Nat) (drw : Nat → Option Nat) : Walk :=
  walkFrom parents tok drw (parents.length + 1) 0 ⟨[], [], 0, false⟩

end Sys2Proof.Machine
end

