-- ==== Sys2Proof/Syntax.lean ====
section
/-! DEFINITION. The commands of the package: `Instr`, one constructor per row of the table of operations and
events, with the operands each carries. What a command brings from outside (host memory, a message, a
measurement) is an operand; what the package holds is in the state. -/

namespace Sys2Proof
open Machine

/-- The three access paths of the configuration window (R6, R183, R310). -/
inductive Path where
  | epA | epB | i3c
  deriving DecidableEq, Repr

/-- An Etcen port (R17). -/
inductive EPort where
  | a | b
  deriving DecidableEq, Repr

/-- Host memory as the package reads it during one command: bytes by address, an unlisted byte being 0, the
address ranges whose reads the adapter card reports as failed (R298), and the link-level retries that the reads took on their port
(R288). -/
structure HostView where
  cells : List (Nat × Byte)
  fails : List (Nat × Nat)
  retries : Nat
  deriving DecidableEq, Repr

/-- One descriptor taken from a submission ring: its port and pair, its sixteen words, and host memory (R297). -/
structure Submission where
  port : EPort
  pair : Fin 64
  words : List Word
  host : HostView
  deriving DecidableEq, Repr

/-- The header of a request or response (R321): source, job tag, partition, tag, 40-bit offset, step, attempt and
the poison mark. -/
structure MsgHdr where
  src : Nat
  job : Nat
  part : Nat
  tag : Nat
  offset : Nat
  step : Nat
  attempt : Nat
  poison : Bool
  deriving DecidableEq, Repr

/-- The step limits of `STEP_POLICY` (R258). -/
structure Policy where
  seqCap : Nat
  tokenCap : Nat
  chunk : Nat
  prefillCap : Nat
  aging : Nat
  headroom : Nat
  deriving DecidableEq, Repr

/-- The values of `BENCH_SPLIT` (R262). -/
structure Bench where
  minRatio : Nat
  maxRatio : Nat
  minHold : Nat
  up : List Nat
  down : List Nat
  deriving DecidableEq, Repr

/-- A step plan (R25, R336): step, attempt and predecessor, start time, jig slot, DIGEST and bench ratio, plane
mask, the length-table rows, the values in force, the bucket entry it was chosen by, and a training body with the member that
submitted it: R336 gives that member no field (DESIGN CHOICE, log entry 17). -/
structure Plan where
  job : Nat
  step : Nat
  attempt : Nat
  pred : Nat
  start : Nat
  slot : Nat
  digest : Nat
  ratio : Nat
  mask : Nat
  rows : List LenRow
  policy : Policy
  groups : List (Nat × Nat)
  bench : Bench
  bucket : Nat
  train : Option (Nat × List Word)
  deriving DecidableEq, Repr

/-- A fault entry of a seal (R337): the sequence, or the whole context, of the job whose seal it is; CONTEXT as the sender numbers it
(R376). -/
structure SealFault where
  handle : Nat
  context : Nat
  cause : Nat
  deriving DecidableEq, Repr

/-- A sequence's state (R245). -/
inductive SeqState where
  | prefill | decode | ready | shipping | receiving
  deriving DecidableEq, Repr

/-- The names that every SHIP message carries (R321, R323): the job tag of its header, which finds the context on every member
(R376), and both handles and both contexts, numbered as their homes number them. -/
structure ShipName where
  job : Nat
  srcNode : Nat
  srcCtx : Nat
  srcHandle : Nat
  dstNode : Nat
  dstCtx : Nat
  dstHandle : Nat
  deriving DecidableEq, Repr

/-- What a home makes every member apply at a boundary (R198, R202, R204, R206, R259, R265): the package's own page
tables follow these edits for the sequences that other members home. -/
inductive Edit where
  | openSeq (handle home maxLen : Nat)
  | advance (handle accepted committed : Nat) (path : List Nat)
  | setLen (handle committed : Nat)
  | share (dst src first count length : Nat)
  | unmap (handle first : Nat)
  | close (handle : Nat) (auto : Bool)
  | hold (n : ShipName) (committed run : Nat) (members : List Nat)
  | mapShip (n : ShipName)
  | dropShip (n : ShipName)
  | params (handle : Nat) (draw : DrawParams) (con : ConParams)
  deriving DecidableEq, Repr

/-- A sequence entry of a report (R253, R338): its state, none once it is closed; `held` says that the home offers it to no plan for
now, and `queued` counts its queue with the pending token. -/
structure SeqReport where
  handle : Nat
  home : Nat
  state : Option SeqState
  held : Bool
  cls : Nat
  queued : Nat
  committed : Nat
  quota : Nat
  order : Nat
  nodes : Nat
  prefixGroup : Nat
  prefixLen : Nat
  deriving DecidableEq, Repr

/-- The entry's sequence runs: it is in PREFILL or DECODE. -/
def SeqReport.runs (e : SeqReport) : Bool := e.state = some .prefill || e.state = some .decode

/-- A policy that a member forwards to the lead (R258, R262, R383), with the submitting member and its order. -/
inductive Forward where
  | limits (p : Policy)
  | quota (group max : Nat)
  | bench (b : Bench)
  | train (body : List Word)
  deriving DecidableEq, Repr

structure Forwarded where
  node : Nat
  job : Nat
  order : Nat
  what : Forward
  deriving DecidableEq, Repr

/-- The report of one member about one context (R253, R338): pages, waiting prefill tokens, free strict token records and
completions (R361),
whether it holds the context (R387), the sequences that its pool cannot top up (R203), its homed sequences whose entry changed since
the last report that counted (R338), and the policies it forwards (R258), and while the partition idles the page-table edits of its home by job, and in a report that answers
such edits or follows the end of a copy the sequences, each with its job, whose copies have not ended (R205; log entry 19). One with
a mask says nothing else: it is the lead's republished plane mask, for which R330 names no message (DESIGN CHOICE, log entry 18). -/
structure Report where
  node : Nat
  job : Nat
  free : Nat
  resv : Nat
  waiting : Nat
  strictSpace : Option (Nat × Nat)
  held : Bool
  waits : List Nat
  seqs : List SeqReport
  forwards : List Forwarded
  edits : List (Nat × Edit)
  copying : Option (List (Nat × Nat))
  mask : Option Nat
  deriving DecidableEq, Repr

/-- A slot of a tree node as its step wrote it, whose place below may lie on another member (R202): the sequence, the slot, and for
each layer and head group the parts of the slot with their poison. -/
structure SlotMsg where
  handle : Nat
  slot : Nat
  parts : List (List (List Byte × Bool))
  deriving DecidableEq, Repr

/-- A seal (R337), with the edits that travel with it by job (R253, log entry 19), the sequences whose
copies have not ended on the sender (R205), each with its job, the slots of tree nodes that other members may have to copy (R202), and
from the lead of a training step the word at LOSS_ADDR after the commit (R383): the manual gives the last four no message (DESIGN
CHOICE, log entry 18). -/
structure SealMsg where
  node : Nat
  job : Nat
  step : Nat
  attempt : Nat
  pass : Bool
  planes : Nat
  sig : Nat
  faults : List SealFault
  edits : List (Nat × Edit)
  copying : List (Nat × Nat)
  slots : List SlotMsg
  loss : Nat
  deriving DecidableEq, Repr

/-- A RETRACT message (R323, R358): step, attempt, originating node, cause status, for cause `SUSPECT` the first suspect
step, and whether a window overran: R146 makes the lead act on an overrun of any member, and R323 names no field that tells it
(DESIGN CHOICE, log entry 18). -/
structure RetractMsg where
  job : Nat
  step : Nat
  attempt : Nat
  node : Nat
  cause : Nat
  first : Nat
  overran : Bool
  deriving DecidableEq, Repr

/-- A floating-point operation of the vector unit (R110): arithmetic, comparisons (1.0 or +0), selection, and conversions to
and from the narrow formats and 32-bit two's complement integers. -/
inductive FloatOp where
  | add | sub | mul | fma | exp2 | exp | recip | sqrt | rsqrt | max | min | select
  | lt | le | eq
  | toFmt (f : OutFmt)
  | ofFmt (f : OutFmt)
  | toInt | ofInt
  deriving DecidableEq, Repr

/-- A bitwise operation of the vector unit (R110). -/
inductive LogicOp where
  | and | or | xor | not
  deriving DecidableEq, Repr

/-- An operation of the vector unit (R110); `upset` is XORed into an integer result before its residue check (R112). -/
inductive VecOp where
  | float (op : FloatOp)
  | int (op : IntOp) (upset : Word)
  | logic (op : LogicOp)
  deriving DecidableEq, Repr

/-- What a home sends every member about one of its rows at the load stage (R270, R272, R284): the parents of the nodes it
runs with, the tokens of its rows (root first), the penalty entries of the member's slice, whether the root's token is in them
already, the automaton state, and whether the proposals among the tokens were made of poisoned data (R169). -/
structure RowInput where
  handle : Nat
  parents : List Nat
  tokens : List Nat
  pen : List PenEntry
  rootPublished : Bool
  auto : Nat
  poison : Bool
  deriving DecidableEq, Repr

/-- The state of one attention part as its member returns it to the home (R189, R217): the sequence's index in the plan, row,
layer, head group and query head, the member's index, the part's index there, and the state; none when every block is
null. -/
structure PartMsg where
  seq : Nat
  i : Nat
  layer : Nat
  hg : Nat
  qh : Nat
  member : Nat
  index : Nat
  state : Option AState
  deriving DecidableEq, Repr

/-- Where a product's accumulators go (R72, R75, R105, R232): rounded into the rows of a buffer, added to an accumulator region of
this package or of each row's home, or added to the tile that stands in a bank of another core. -/
inductive TileInto where
  | rows (dst : Nat)
  | here (region : Nat)
  | home (region : Nat)
  | bank (die : Fin 8) (core : Fin 48) (bank : Bool)
  deriving DecidableEq, Repr

/-- The tile of a product piece (R104, R105): the core and its bank, the group of 32 rows and the range of 256 columns, and where
the tile's veneers lie: from a line of the core's local SRAM on (R25, R115), or at W_BASE in context memory (R178). -/
structure TileAt where
  die : Fin 8
  core : Fin 48
  bank : Bool
  group : Nat
  col : Nat
  veneers : Option Nat
  deriving DecidableEq, Repr

/-- Where rows lie that a core program reads or writes: context memory by address, its own local SRAM, or its die's slice space by
line. -/
inductive Spot where
  | ctx (addr : Nat)
  | sram (line : Nat)
  | slice (line : Nat)
  deriving DecidableEq, Repr

/-- Work that the jig's programs do in a stage (R135). The programs themselves are not described in the manual
(R133), so the work a stage does is an operand; what each piece of work computes is the manual's. Buffers are
named by number; `seq` is an index into the plan's rows and `i` a row of that sequence. The first group are contributions of
other members and events, the second the package's own work. -/
inductive Work where
  /-- A home's inputs of one of its rows (R270, R272, R284). -/
  | rowInput (r : RowInput)
  /-- Candidates of another member for a row homed here (R274). -/
  | cands (seq i member : Nat) (s : SliceSend)
  /-- The highest outputs of a head on another member's draft slice, for a row homed here (R283). -/
  | headCands (seq i h member : Nat) (l : List (Nat × Word)) (poison : Bool)
  /-- A part of attention from another member (R189). -/
  | part (p : PartMsg)
  /-- A late remote wait of a segment, in ns (R151). -/
  | remoteWait (ns : Nat)
  /-- Bits of a word of a local SRAM line (with a core) or a slice line turn over: 64 data bits, and 8 check bits above them
(R116). -/
  | sramUpset (die : Fin 8) (core : Option (Fin 48)) (line : Nat) (word : Fin 16) (bits : Nat)
  /-- Bits of a word turn over in the next line that a port of a die sends (R348). -/
  | moveUpset (die : Fin 8) (port : Nat) (word : Fin 16) (bits : Nat)
  /-- A service access to a slice line of a die, from a die (R16, R119, R124). -/
  | serviceRead (from_ die : Fin 8) (offset : Nat)
  | serviceWrite (from_ die : Fin 8) (offset : Nat) (bytes : List Byte) (poison : Bool)
  /-- The load stage (R25): page-table snapshot, image, layer records and bitmaps, and the batch table. Each attempt begins with
  it. -/
  | load
  /-- Rows that a core program forms. -/
  | input (dst : Nat) (rows : List (List Word))
  /-- Rows that a core reads, widened to FP32 (R47). -/
  | fetch (dst : Nat) (from_ : Spot) (rows cols : Nat) (fmt : OutFmt) (die : Fin 8) (core : Fin 48)
  /-- Rows that a core writes (R156). -/
  | store (src : Nat) (place : Spot) (fmt : OutFmt) (die : Fin 8) (core : Fin 48)
  /-- The next crossbar cycles of the stage: the schedule's transfers in them (R122, R128, R137). -/
  | crossbar (cycles : Nat)
  /-- A plane unit segment of a die under an operand descriptor's rotation spec (R82, R385). -/
  | plane (dst src desc : Nat) (die : Fin 8)
  /-- The sequencer slice of die 0 grants the wide recomputes of a site (R99). -/
  | grant (layer site : Nat)
  /-- The recompute quantisation of the granted rows of an operand (R100); `operand` is 0, or an expert's number plus 1, and
  `rows` the operand's count of rows. -/
  | recompute (dst desc operand rows : Nat) (die : Fin 8)
  /-- A tile of a product over blocks `first` to `first + count - 1` of the reduction; it enters a bank and waits for the
  checker, and then for `adds` exact-accumulate adds from outside the core (R104 to R107). -/
  | product (src desc : Nat) (at_ : TileAt) (first count : Nat) (into : TileInto) (adds : Nat)
  /-- A BF16 wide reference product on one core (R76). -/
  | wideProduct (dst src desc : Nat) (die : Fin 8) (core : Fin 48)
  /-- A vector operation on the rows of buffers. -/
  | vec (op : VecOp) (dst a b c : Nat) (die : Fin 8) (core : Fin 48)
  /-- A vector register of 64 lanes takes values of a buffer's row, and gives them. -/
  | vload (die : Fin 8) (core : Fin 48) (reg : Fin 64) (src row col : Nat)
  | vreg (op : VecOp) (die : Fin 8) (core : Fin 48) (d a b c : Fin 64)
  | vstore (die : Fin 8) (core : Fin 48) (reg : Fin 64) (dst row col : Nat)
  /-- The KV write path for one row of one layer and head group (R192). -/
  | kvWrite (seq i layer hg : Nat) (key value : Nat)
  /-- A query row goes from its home to every member that holds pages of its sequence (R189). -/
  | query (q seq i layer : Nat)
  /-- Attention of one query row over half a page that this member holds, on one core's walker (R189, R208 to R216). -/
  | attend (q seq i layer hg qh page : Nat) (upper : Bool) (die : Fin 8) (core : Fin 48) (bank : Bool)
  /-- The merge of a row's parts at its home (R217, R218). -/
  | merge (dst seq i layer hg qh : Nat)
  /-- Router outputs become scores (R228). -/
  | router (src layer : Nat)
  /-- The expert choice of a layer (R229) and its send lists (R230). -/
  | choose (layer : Nat)
  /-- A tile of the gate and up product of one expert over its chosen rows (R231, R232). -/
  | gateUp (layer expert dst src : Nat) (at_ : TileAt)
  /-- The activation, gating, rotation and quantisation of an expert's rows (R232). -/
  | hidden (layer expert dst src : Nat)
  /-- A tile of the down product of one expert; its rows go to their homes (R232). -/
  | down (layer expert src : Nat) (at_ : TileAt)
  /-- The exit test of the decode rows on an exit head's outputs; `state` holds the rows' hidden states after the layer (R238 to
  R240). -/
  | exitPoint (layer src state : Nat)
  /-- Stages 1 to 4 of one row on this member's vocabulary slice; the buffer's row holds the logits (R268 to R274). -/
  | slice (seq i src : Nat)
  /-- One head's outputs on this member's draft slice for one row, ranked (R283). -/
  | head (seq i h src : Nat)
  /-- Stages 5 to 8 for a sequence homed here (R275 to R285). -/
  | draw (seq : Nat)
  deriving DecidableEq, Repr

/-- The outcome that the third replay of a share shows (R357). -/
inductive Third where
  | replay | original | neither
  deriving DecidableEq, Repr

/-- A unit of a die that the shadow controller ranks (R354), by its fault-history kind and number (R366). -/
structure UnitName where
  die : Fin 8
  kind : Nat
  unit : Nat
  deriving DecidableEq, Repr

/-- What a gauge watches (R419). -/
inductive GaugeClock where
  | xa | xb | fio
  | pll (die : Fin 8) (k : Fin 4)
  | island (die : Fin 8) (n : Nat)
  deriving DecidableEq, Repr

/-- Where a critical-state error arises (R349). -/
inductive CritUnit where
  | die (d : Fin 8)
  | package
  deriving DecidableEq, Repr

/-- A reset level with its unit (R427, R428). -/
inductive RstLevel where
  | cold
  | warm
  | die (d : Fin 8)
  | core (d : Fin 8) (c : Fin 48)
  | port (u : Fin 48)
  deriving DecidableEq, Repr

/-- The commands of the package. -/
inductive Instr where
  -- descriptors (R300)
  | ctxCreate (s : Submission)
  | ctxDestroy (s : Submission)
  | load (s : Submission)
  | jigLoad (s : Submission)
  | seqOpen (s : Submission)
  | seqAppend (s : Submission)
  | seqCancel (s : Submission)
  | seqClose (s : Submission)
  | seqParams (s : Submission)
  | pageMap (s : Submission)
  | pageUnmap (s : Submission)
  | kvShip (s : Submission)
  | kvAccept (s : Submission)
  | stepPolicy (s : Submission)
  | benchSplit (s : Submission)
  | fence (s : Submission)
  | checkpoint (s : Submission)
  | restore (s : Submission)
  | trainStep (s : Submission)
  | faultRead (s : Submission)
  | tableRead (s : Submission)
  | join (s : Submission)
  | depart (s : Submission)
  | spdm (s : Submission)
  | imagePush (s : Submission)
  -- commands started through registers (R287)
  | memPlaceMove (p : Path) (target first count : Word)
  | memPlaceMakeReadOnly (p : Path) (target first count : Word)
  | memPlaceMakeWritable (p : Path) (target first count : Word)
  | migrationCopyDone (p : Path)
  | ethSetupCmd (p : Path) (h : HostView)
  | rstCmdPackageWarm (p : Path)
  | rstCmdDie (p : Path) (die : Fin 8) (hold : Bool)
  | rstCmdCore (p : Path) (die : Fin 8) (core : Fin 48) (hold : Bool)
  | rstCmdPort (p : Path) (unit : Fin 48) (hold : Bool)
  | rstCmdReleaseHold (p : Path)
  | qstatClear (p : Path) (ctx : Fin 64)
  | qstatFreeze (p : Path) (ctx : Fin 64) (on : Bool)
  | resume (p : Path)
  | retrain (p : Path) (port : EPort)
  | xbarStallMaxClear (p : Path) (die : Fin 8)
  | thermClear (die : Fin 8)
  | memInjectArm (p : Path) (value : Word)
  | acquire (p : Path) (n : Fin 16)
  | release (p : Path) (n : Fin 16)
  | breakDowel (n : Fin 16)
  | ringEnable (p : Path) (port : EPort) (pair : Fin 64) (tqEn : Bool)
  | ringDisable (p : Path) (port : EPort) (pair : Fin 64)
  | intStrictWrite (p : Path) (lo hi : Word)
  | clkSscWrite (p : Path) (value : Word)
  | clkEnWrite (p : Path) (offset : Nat) (value : Word)
  | clkMuxBreak (p : Path) (die : Fin 8) (island : Fin 128)
  | fabCableWrite (p : Path) (port : Fin 32) (value : Word)
  | secOwnerFuse (p : Path) (value : Word)
  | rstPresValidClear (p : Path) (k : Fin 8)
  | pwrCapWrite (value : Word)
  | pwrSafeWrite (value : Word)
  | kick
  -- register accesses (R5 to R9, R290, R469)
  | loRead (p : Path) (offset : Nat)
  | loWrite (p : Path) (offset : Nat) (value : Word)
  | hiWrite (p : Path) (offset : Nat) (value : Word)
  | registerWrite (p : Path) (offset : Nat) (value : Word) (h : HostView)
  -- management commands (R463)
  | windowRead (offset count : Nat)
  | windowWrite (offset : Nat) (value : Word) (h : HostView)
  | mgmtRead (offset : Nat)
  | mgmtWrite (offset : Nat) (value : Word)
  | memberSet (partition : Nat) (nodes : List Nat)
  | faultClear
  | stateSetIdle
  | stateSetNap
  | stateSetSleep
  | stateSetOff
  | bcbWrite (offset : Nat) (bytes : List Byte)
  -- PLDM (R457, R458, R466 to R468)
  | pldmSetPowerCap (watts : Nat)
  | pldmSetSafeCap (watts : Nat)
  | pldmSetHbTimeout (value : Nat)
  | pldmSetStagedEffecter (id value : Nat)
  | setEventReceiver
  | sensorChange (sensor value : Nat)
  | requestUpdate
  | pldmImageData (offset : Nat) (bytes : List Byte)
  | activateFirmware
  | updateWriteDone (ok : Bool)
  | recoverySelfReset
  -- SPDM requests (R461)
  | getVersion (p : Path)
  | getCapabilities (p : Path)
  | negotiateAlgorithms (p : Path) (sm2 sm3 : Bool)
  | getDigests (p : Path)
  | getCertificate (p : Path) (slot offset length : Nat)
  | challenge (p : Path) (nonce : List Byte)
  | getMeasurements (p : Path) (index : Nat) (nonce : List Byte)
  | keyExchange (p : Path)
  | pskExchange (p : Path)
  -- the Etcen ports (R288 to R313)
  | doorbellPoll (port : EPort) (h : HostView)
  | nudge (port : EPort) (h : HostView)
  | recordRelease (port : EPort) (pair : Fin 64)
  | headReread (port : EPort) (h : HostView)
  | irqModTimeout (port : EPort) (pair : Fin 64)
  | hotResetPort (port : EPort)
  | hotResetPackage (port : EPort)
  | etcenLinkUp (port : EPort) (partnerGen : Fin 4) (badLanes : List (Nat × Nat))
  | etcenLinkDown (port : EPort)
  | etcenTrainRetry (port : EPort)
  | portLost (port : EPort)
  -- planning, steps and commit (R25, R135, R150, R253 to R256)
  | planPointReached
  | idlePlan
  | idleApply
  | plan (pl : Plan)
  | stepStart
  | stageEnd (work : List Work)
  | tileCheck (die : Fin 8) (core : Fin 48) (upset : List (Nat × Nat × Nat))
  | replayDone (die : Fin 8) (core : Fin 48) (pass : Bool)
  | windowEnd (index : Nat) (outstanding : Bool)
  | combineRound (layer : Nat)
  | stallWatchdog (die : Fin 8) (seg : Fin 8) (cycles : Nat) (remote : Bool)
  | sealSend
  | sealMessage (m : SealMsg)
  | report (r : Report)
  | sealTimeout (node : Nat)
  | sealDeadlineExpired
  | sealPendingSend
  | retract (m : RetractMsg)
  | departMessage (node cause : Nat)
  | memberLost (node : Nat)
  | pendingMsg (src kind step attempt : Nat)
  | requestPendingSend (node : Nat)
  | requestTimeout (tag : Nat)
  -- fabric requests and responses (R323 to R334)
  | read (m : MsgHdr) (lines : Nat)
  | write (m : MsgHdr) (data : List Byte)
  | atomicAdd (m : MsgHdr) (operand : Nat)
  | atomicSwap (m : MsgHdr) (operand : Nat)
  | atomicCompareAndSwap (m : MsgHdr) (compare new : Nat)
  | accAdd (m : MsgHdr) (states : List (List Byte))
  | mcastWrite (m : MsgHdr) (loadSet : Bool) (dests : List Nat) (index : Nat) (data : List Byte)
  | groupEnd (m : MsgHdr) (layer expert member adds : Nat)
  | timeRequest (src plane t1 : Nat) (correction : Int)
  | timeReply (plane t1 t2 t3 : Nat) (reqCorrection correction : Int)
  | timeExchangeTick
  | timeHoldover
  | shipOffer (n : ShipName) (committed : Nat) (pending : Option (Nat × Bool)) (layout : List Word) (job : Nat) (pen : List PenEntry) (members : List Nat)
  | shipGrant (n : ShipName) (node : Nat) (logical pages : List Nat)
  | writesDone (n : ShipName) (member pages : Nat)
  | shipDone (n : ShipName) (pages : Nat)
  | shipAccepted (n : ShipName)
  | shipRefused (n : ShipName) (status : Nat)
  | shipTimeout (n : ShipName)
  | acceptTimeout (ctx : Fin 64) (handle : Nat)
  | ack (src tag : Nat)
  | data (src tag : Nat) (bytes : List Byte) (poison : Bool)
  | nack (src tag reason : Nat)
  -- the Limfele link layer (R316 to R320, R339)
  | nak (port : Fin 32) (seq : Nat)
  | creditReturn (port : Fin 32) (vc : Fin 3) (n : Nat)
  | linkId (port : Fin 32) (swId swPort plane : Nat)
  | limfelePortTrained (port : Fin 32) (partnerV2 lanesPassV2 lanesPassV1 : Bool)
  | limfelePortDown (port : Fin 32) (lane : Option (Fin 4))
  | limfeleTrainRetry (port : Fin 32)
  | planeMaskRepublish
  -- Ethernet and storage (R344 to R347)
  | storageCompletion (id : Nat) (status : Nat) (data : List Byte)
  | storageTimeout (id : Nat)
  | congestionNotification (qp : Fin 1024)
  | keepAlive (target : Fin 16)
  | ethernetLinkChange (port : Fin 2) (up : Bool) (targets : List (Fin 16))
  -- integrity, memory and contexts
  | shadowCompare (u : UnitName) (step : Nat) (matches_ : Bool) (third : Third) (first : List UnitName)
  | cowCopyDone (ctx : Fin 64) (handle page : Nat)
  | contextRelease (ctx : Fin 64)
  | quarantineIdleRelease (ctx : Fin 64)
  | switchReady (die : Fin 8)
  | scrubLine (die : Fin 8)
  | criticalStateError (u : CritUnit)
  | gaugeFault (c : GaugeClock) (stopped : Bool) (held : Bool)
  -- power, droop and heat (R390 to R410)
  | droopStretch (die : Fin 8)
  | droopPersist (die : Fin 8) (island : Nat)
  | clampTick (power : Nat) (millisecond : Bool)
  | capEffectTimeout
  | heartbeatExpired
  | lowInput (centivolts : Nat)
  | lowInputRelease
  | inputFailing
  | inputLost
  | throttle (limit : Nat)
  | throttleReleaseTick
  | hardThrottle
  | hardThrottleRelease
  | trip
  | leak
  | coolFail
  | coolantConditionEnd (leakSide : Bool)
  | eject
  | idleEntry
  -- reset and boot (R427 to R456)
  | pwrOkRise
  | pwrOkFall
  | rstNAssert
  | rstNRelease
  | mgmtWatchdog
  | clockLossFaultN
  | resetRelease (l : RstLevel) (selfTest : List Bool) (slotId : Nat) (parityOk : Bool)
  | xbStartDelayEnd (gaugePass : Bool)
  | readyReport
  | flitCrcFail (port : Fin 32)
  | powerApplied
  | loadLastLineWritten (id : Nat)
  | registerRead (p : Path) (offset : Nat)
  | priorityFlowControl (port : Fin 2) (priority : Fin 8) (quanta : Nat)
  deriving DecidableEq, Repr

end Sys2Proof
end

