-- ==== Sys2Proof/Decode.lean ====
section
/-! DEFINITION. The words of the table. No row of the table of operations and events gives bits: a command is not
a word, so no word spells one. -/

namespace Sys2Proof

/-- The command that a word of the table spells: none, for no row gives bits. -/
def decodeTableWord (nbits w : Nat) : Option Instr :=
  match nbits, w with
  | _, _ => none

end Sys2Proof
end

