-- ==== Sys2Proof/Config.lean ====
section
/-! DEFINITION. The free values of the model: constants without a body, for the values that the spec
leaves open while the package goes on. Nothing can be proved of one but what holds of every value. -/

namespace Sys2Proof.Config

/-- A fresh open value, applied to the counter `State.fresh` (log entry 3). -/
opaque freeValue : Nat → Word

/-- The 256-bit device secret of a die, in fuses that only the boot ROM reads (R459; log entry 4). -/
opaque deviceSecret : Nat → Nat

/-- The nonce of one SM2 signature and every other random choice of the responder (R461; log entry 4). -/
opaque signNonce : Nat → Nat

/-- The Alias certificate that a boot issues, from D, SVN, FW_VERSION, the Alias public key and the DeviceID signature: its
X.509 bytes are not in the manual (R460; log entry 4). -/
opaque aliasCertificate : List Byte → Nat → Nat → Nat × Nat → Nat × Nat → List Byte

/-- The transcript that a response signature covers, a function of what the response carries: its form is DSP0274's (R461; log entry 4). -/
opaque transcript : List Byte → List Byte

/-- What `JIG_LOAD` finds of section 5, whose form the manual does not describe: its structure and the rule of R115
hold (R133, R140; log entry 16). -/
opaque coreProgramsOk : List Byte → Bool

/-- The part of section 5 that a stage's core programs are on a die (R147; log entry 16). -/
opaque corePrograms : List Byte → Nat → Nat → List Byte

/-- The slice regions that a jig declares on a die, as first lines and counts of lines, which no section of the image
describes (R119; log entry 16). -/
opaque jigRegions : List Byte → Nat → List (Nat × Nat)

/-- The slice lines at which a jig places the length table and the page-table snapshot, and the die and slice line of an operand's
recompute buffer (R25, R89, R207; log entry 16). -/
opaque tableLine : List Byte → Nat
opaque snapshotLine : List Byte → Nat
opaque heldDie : List Byte → Nat → Nat → Nat
opaque heldLine : List Byte → Nat → Nat → Nat

/-- The slice region of a die that a jig declares for the shadow log: its first line and its count of lines (R355; log entry 16). -/
opaque shadowLog : List Byte → Nat → Nat × Nat

/-- The context address at which a jig places a query row on the members that hold pages of its sequence (R189; log entry 24). -/
opaque queryPlace : List Byte → Nat → Nat → Nat

/-- The accumulator regions that a jig declares beside its combines, with the operand descriptor that each is rounded under and
the static count of adds that completes it (R72, R332; log entry 16). -/
opaque regions : List Byte → List (Nat × Nat × Nat)

/-- The die that holds the source of a schedule entry, which the entry does not name (R137; log entry 16). -/
opaque entryDie : List Byte → Nat → Nat

/-- The plane that Daxorn named for a jig-placed transfer, by destination node and offset (R329; log entry 16). -/
opaque namedPlane : List Byte → Nat → Nat → Nat

/-- Where the buddy of a member keeps the mirror of its page tables, page descriptors and penalty tables, by job and address, and the
mirror of its records of sequences, by job, with the lines that these take: R371 gives a place to pool pages only (log entry 33). -/
opaque mirrorPlace : Nat → Nat → Nat
opaque recordPlace : Nat → Nat
opaque recordLines : Nat → Nat

/-- The bytes of a plan header, by job, step * 256 + attempt, and place: R336 says what its 64 bytes hold, and not where (log entry 26). -/
opaque planHeader : Nat → Nat → Nat → Byte

/-- What a NaN converts to as an integer, which R110 does not state (log entry 12). -/
opaque nanInt : Word → Word

/-- The lines that a routing engine takes when no jig gives the place of a send list (R230; log entry 16). -/
opaque sendListLine : List Byte → Nat → Nat → Nat

/-- The context address at which a jig places a combined row on every member (R235; log entry 24). -/
opaque rowPlace : List Byte → Nat → Nat → Nat

/-- The vocabulary size V of a job's model, which no structure of the manual gives (R248, R268; log entry 20). -/
opaque vocab : Nat → Nat

/-- The block size of a namespace of a storage target, 512 or 4,096 (R334, R346; log entry 22). -/
opaque blockSize : Nat → Nat → Nat

end Sys2Proof.Config
end

