-- ==== Sys2Proof/Machine/State.lean ====
section
/-! DEFINITION. The state of the package as plain data, its faults and refusals, and the state at reset.
INVENTORY.md lists every field with the rule that names it and its reset value. -/

namespace Sys2Proof.Machine

/-- No command of this block stops the machine with a fault: the spec answers every bad access with a status
(`DENIED`, `GATED`, a completion status or a NACK). No constructor is ever raised. -/
inductive Fault where
  deriving DecidableEq, Repr

/-- Refusals of the model. -/
inductive Refusal where
  /-- Raised only by an arm of `exec` for a command without a meaning; safe, since nothing can be proved of its
  effect. No arm raises it now. -/
  | notModelled (mnemonic : String)
  deriving DecidableEq, Repr

/-! ## Records and the Etcen ports (R292 to R309) -/

/-- A ring pair's state (R313). -/
inductive RingState where
  | off | running | draining | error
  deriving DecidableEq, Repr

/-- A completion, event or token record that the package has formed (R286, R303, R306, R307). `words` carries no PHASE
bit; `commit` numbers the commit that caused it, for R304 (0: none). -/
structure Rec where
  pair : Nat
  token : Bool
  event : Bool
  words : List Word
  irqNow : Bool
  commit : Nat
  deriving DecidableEq, Repr

/-- One ring pair (R292, R293, R313): its state and error cause, the package's indices, the tail and head words last
read, and the interrupt count with the time of its oldest record (R309). -/
structure Pair where
  state : RingState
  cause : Nat
  sqHead : Nat
  sqTail : Nat
  cqProd : Nat
  tqProd : Nat
  cqHead : Nat
  tqHead : Nat
  irqCount : Nat
  irqOldest : Option Nat
  deriving DecidableEq, Repr

def Pair.off : Pair := ⟨.off, 0, 0, 0, 0, 0, 0, 0, 0, none⟩

/-- One Etcen port beside its registers (R288, R295, R307, R308): its pairs, the held records, the polling
interval I in ns and the end of fast polling, the next pair in rotation, whether a training has ended since package
warm reset, and whether the port is lost. -/
structure Port where
  pairs : List (Nat × Pair)
  held : List Rec
  interval : Nat
  busyUntil : Nat
  next : Nat
  trained : Bool
  lost : Bool
  deriving DecidableEq, Repr

def Port.reset : Port := ⟨[], [], 1000, 0, 0, false, false⟩

/-- How far an accepted descriptor has got: waiting for its boundary (`late` when it was accepted after the
package's own seal, R253), in effect and running, or waiting for the condition that its chapter names (R491). -/
inductive Phase where
  | boundary (late : Bool)
  | running
  | waiting
  deriving DecidableEq, Repr

/-- An accepted descriptor that has not completed (R297, R303): its acceptance order, port, pair, words, the host
buffer copied at acceptance, its phase, and whether its ring set is gone (R291, R308), so that its records are
discarded. -/
structure Desc where
  id : Nat
  port : EPort
  pair : Nat
  words : List Word
  buf : List Word
  bufPo : Bool
  phase : Phase
  orphan : Bool
  deriving DecidableEq, Repr

/-! ## Contexts and sequences -/

/-- A sequence homed on this package (R243 to R252). `queue` starts with the pending token; `gen` is the id of its
generating descriptor, `pre` of a prefilling one; `published` counts the generation's tokens; `cands` holds the
kept proposals by head (R283), and `candsPo` whether what they were made of was poisoned (R169). `closing` names the
descriptor that waits for the release of a closed sequence (0: none does), and `closedIn` the commit that closed it. `roots` names, for each logical page
that it maps from another sequence, the sequence whose page it is, by acceptance order (R199). `left` lists
the steps of the plans that held rows of it, already published, when it left PREFILL or DECODE, and `kept` the tokens that its
chunk in them still takes (R255). -/
structure Seq where
  handle : Nat
  state : SeqState
  committed : Nat
  queue : List Nat
  rootPublished : Bool
  maxLen : Nat
  cls : Nat
  stops : List Nat
  quota : Nat
  prefixGroup : Nat
  prefixLen : Nat
  gen : Option Nat
  pre : Option Nat
  maxNew : Nat
  published : Nat
  autoClose : Bool
  paramsFollow : Bool
  draw : DrawParams
  con : ConParams
  auto : Nat
  pen : List PenEntry
  cands : List (List Nat)
  candsPo : Bool
  order : Nat
  mapping : Bool
  closing : Option Nat
  closedIn : Nat
  roots : List (Nat × Nat)
  left : List Nat
  kept : List Nat
  deriving DecidableEq, Repr

/-- A sequence's page table on this member (R194): its place and local pages, the committed length here (R202), the
reservation (R203), whether its last top-up failed, whether it waits for its release (1: closed, 2: closed by a
failed entry, R197), and whether it runs: a plan has admitted it (R256). A member that does not home the sequence holds the
parameters that its own sampler stages and exit tests need (R239, R267, R280). -/
structure Table where
  handle : Nat
  home : Nat
  base : Nat
  pages : Nat
  committed : Nat
  resv : Nat
  waiting : Bool
  closing : Nat
  running : Bool
  draw : DrawParams
  con : ConParams
  deriving DecidableEq, Repr

/-- A copy-on-write copy in progress (R200): the sequence's logical page, the new pool pages by layer and head
group, the descriptor that waits for it, whether its data has moved, and whether it was abandoned. -/
structure Copy where
  handle : Nat
  page : Nat
  new : List Nat
  desc : Option Nat
  done : Bool
  abandoned : Bool
  deriving DecidableEq, Repr

/-- A context's state (`CTX_STAT_c.STATE`). -/
inductive CtxState where
  | free | active | faulted | destroying
  deriving DecidableEq, Repr

/-- A context (R376 to R384): the fields of its creation, its page map with 64-bit entries by page (R160), its jig
area and jig slots with each image's first line in the area, the images replaced while a plan names them with theirs (R141), the bucket table, the KV layout record and the speculation table as words, sequences, page
tables, copies, the policies in force with the current ratio, the last committed step, its teardown and whether a
descriptor holds it. -/
structure Ctx where
  job : Nat
  kind : Nat
  priority : Nat
  range : Nat
  quantum : Nat
  jigFrames : List Nat
  lendJob : Nat
  lendFirst : Nat
  lendCount : Nat
  state : CtxState
  fault : Nat
  pages : List (Nat × Nat)
  jigs : List (Nat × List Byte)
  jigPlaces : List (Nat × Nat)
  oldJigs : List (Nat × List Byte)
  buckets : List Byte
  kv : List Word
  spec : List Word
  stateFirst : Nat
  stateCount : Nat
  step : Nat
  seqs : List Seq
  tables : List Table
  copies : List Copy
  policy : Policy
  groupMax : List (Nat × Nat)
  bench : Bench
  ratio : Nat
  sinceRatio : Nat
  bookMatch : Bool
  teardown : Option Nat
  teardownStep : Nat
  teardownNode : Nat
  destroyDesc : Option Nat
  holdDesc : Option Nat
  deriving DecidableEq, Repr

/-- A placement command, queued or running (R183, R184, R389): its path, context, operation (0 move, 1 make read-only,
2 make writable), destination, whether it has been judged, the next page and the end of its pages, and the frame of the
copy in progress. -/
structure Place where
  path : Path
  ctx : Nat
  op : Nat
  fabric : Bool
  node : Nat
  anyDie : Bool
  die : Nat
  started : Bool
  first : Nat
  next : Nat
  last : Nat
  copying : Option Nat
  deriving DecidableEq, Repr

/-- What a placement command makes of a page's entry (R184): it points at another frame, or at the lender's page of the same number,
or its WRITABLE changes. -/
inductive SwapTo where
  | hbm (key : Nat)
  | fabric (node : Nat)
  | writable (b : Bool)
  deriving DecidableEq, Repr

/-- A change of a page's entry that waits for the context's next boundary (R184), with the path whose command counts the page. -/
structure Swap where
  path : Option Path
  ctx : Nat
  page : Nat
  dest : SwapTo
  deriving DecidableEq, Repr

/-! ## Steps -/

/-- An FP32 row of a buffer: its values, each with its poison state (R169). -/
structure FRow where
  cells : List (Word × Bool)
  deriving DecidableEq, Repr

def FRow.vals (r : FRow) : List Word := r.cells.map (·.1)
def FRow.po (r : FRow) : List Bool := r.cells.map (·.2)
/-- Some value of the row is poisoned. -/
def FRow.poison (r : FRow) : Bool := r.cells.any (·.2)
/-- Values that are all poisoned, or none of them. -/
def FRow.of (vs : List Word) (poison : Bool) : FRow := ⟨vs.map fun v => (v, poison)⟩

/-- A buffer that a step's work reads and writes. -/
inductive Buf where
  | rows (r : List FRow)
  /-- The rows of an operand, and whether they are those of a wide recompute (R100). -/
  | plane (r : List PlaneRow) (f : Fmt) (wide : Bool)
  deriving DecidableEq, Repr

/-- What a walker made of half a page for a query row (R189, R214, R216): the sequence's index in the plan, row, layer, head group
and query head, the logical page and its half, the walker's core as die * 48 + core, and the states of its blocks. -/
structure HalfWalk where
  seq : Nat
  i : Nat
  layer : Nat
  hg : Nat
  qh : Nat
  page : Nat
  upper : Bool
  core : Nat
  states : List (Option AState)
  deriving DecidableEq, Repr

/-- Where the accumulators of a tile go once it has passed (R75, R105, R109, R217, R232): rows of a buffer, a region of this package,
a region at each row's home given by home and slot, a tile in another core's bank, or a walker's part. -/
inductive Release where
  | rows (dst : Nat)
  | here (region : Nat)
  | home (region : Nat) (dsts : List (Nat × Nat))
  | bank (die core : Nat) (bank : Bool)
  | walk (w : HalfWalk) (events : QEvents)
  deriving DecidableEq, Repr

/-- A product tile in a core's bank (R105 to R109): its descriptor and output format, its first row and column range, the
batch-table row of each of its rows, whether it is a wide recompute's (R100), its accumulators and checkers, where it goes, how it
stands with its checker, and the adds from outside that it still waits for. -/
structure Tile where
  die : Nat
  core : Nat
  bank : Bool
  desc : Nat
  row : Nat
  col : Nat
  batch : List Nat
  wide : Bool
  outs : List (List Acc)
  chk : List ChkAcc
  invalid : List (List Bool)
  fmt : OutFmt
  release : Release
  failed : Bool
  passed : Bool
  due : Nat
  replays : List Nat
  deriving DecidableEq, Repr

/-- Where a withheld result belongs: a row of a buffer, or a vector register's lanes from a key on. -/
inductive HeldFor where
  | row (dst index : Nat)
  | reg (key : Nat)
  deriving DecidableEq, Repr

/-- A withheld integer result whose residue failed (R112). -/
structure Held where
  die : Nat
  core : Nat
  goal : HeldFor
  row : FRow
  replays : List Nat
  deriving DecidableEq, Repr

/-- An accumulator region: the combine of one expert layer at this home (R233 to R235), under its layer number, or a region of
a split reduction or of a cross-package reduction (R72, R332). -/
structure Combine where
  layer : Nat
  accs : List (Nat × Acc)
  markers : Nat
  adds : Nat
  due : Nat
  rounded : Bool
  deriving DecidableEq, Repr

/-- What the home found for one sequence of the step (R273, R278, R285), with the automaton's state after what it publishes (R272)
and the die whose sampler drew (R267). -/
structure Result where
  handle : Nat
  draws : List Nat
  accepted : List Nat
  proposed : Nat
  last : Nat
  deadEnd : Bool
  exit : Nat
  cands : List (List Nat)
  candsPo : Bool
  auto : Nat
  die : Nat
  deriving DecidableEq, Repr

/-- The routing counts of one attempt (R242). -/
structure RouteEv where
  unpicked : Nat
  nullE : Nat
  kvFill : Nat
  exits : List Nat
  deriving DecidableEq, Repr

def RouteEv.none : RouteEv := ⟨0, 0, 0, [0, 0, 0, 0]⟩

/-- A row's candidates or head outputs gathered at the home. -/
structure RowCands where
  seq : Nat
  i : Nat
  member : Nat
  send : SliceSend
  deriving DecidableEq, Repr

/-- The outputs of one head that a member sends for a row: token and output (R283), with their poison (R169). -/
structure HeadSend where
  seq : Nat
  i : Nat
  h : Nat
  member : Nat
  outs : List (Nat × Word)
  poison : Bool
  deriving DecidableEq, Repr

/-- The attempt in flight (R25, R145, R196, R353, R362): the plan, the context number, the time it started, the image
and the layer records as loaded (R141, R210), the stage, its crossbar cycle (R122) and within-layer phase (R25), the work of
the stage that waits and whether the stage ends after it, what a piece of work found missing, the lines that a lender sent
(R181), the schedule's transfers that engines have taken (R103), the segments that hold their slot counters with the cycle each
stands at (R128), bits in error of lines to come by port and word (R348), the windows that have ended, the page-table snapshot
entries that failed their check, the buffers with the descriptor each was formed under, tentative writes of context memory, tiles,
the overflowing rows and the rows granted a wide recompute by site (layer * 8 + site, R99), send lists, regions, walked half pages
and attention parts, what homes sent, sampler gatherings, exits with the held hidden states of exiting rows (R240), the
sequences whose exit test read poison, the row groups that cores of an expert tile group have read (R231), results,
events, the signature, the half of the shadow log with what stands in it by die (R355), the seal's fault entries, the seals
received, and when each peer's seal timer last started. -/
structure Attempt where
  plan : Plan
  ctx : Nat
  started : Nat
  img : List Byte
  layers : List LayerRec
  stage : Nat
  cycle : Nat
  phase : Nat
  todo : List Work
  ending : Bool
  wants : List Nat
  waits : Bool
  lent : List (Nat × List Byte × Bool)
  claims : List Nat
  lags : List (Nat × Nat)
  upsets : List (Nat × Nat)
  windows : List Nat
  masked : List Nat
  snapshot : List (Nat × Nat)
  bufs : List (Nat × Buf)
  formed : List (Nat × Nat)
  writes : List (Nat × Byte)
  wpoison : List Nat
  tiles : List Tile
  held : List Held
  spills : List (Nat × Nat)
  granted : List (Nat × List Nat)
  scores : List (Nat × List Word × Bool)
  sends : List (Nat × List (List SendEntry))
  combines : List Combine
  bitmaps : List (Nat × List Bool)
  loaded : Bool
  walks : List HalfWalk
  parts : List PartMsg
  inputs : List RowInput
  gathered : List RowCands
  heads : List HeadSend
  exits : List (Nat × Nat × Nat)
  states : List (Nat × FRow)
  tainted : List Nat
  rowsRead : List Nat
  results : List Result
  events : QEvents
  route : RouteEv
  sig : Nat
  half : Nat
  logged : List (Nat × Nat)
  shadowed : List UnitName
  faults : List SealFault
  failed : Option Nat
  overran : Bool
  sealed : Bool
  seals : List SealMsg
  sealTimers : List (Nat × Nat)
  deriving DecidableEq, Repr

/-- The inputs of a committed step, held for two steps (R364), with the half of the shadow log and the count of lines in it by
die. -/
structure HeldInputs where
  ctx : Nat
  plan : Plan
  snapshot : List (Nat × Nat)
  params : List (Nat × DrawParams × ConParams)
  descs : List Nat
  shadowed : List UnitName
  half : Nat
  logged : List (Nat × Nat)
  deriving DecidableEq, Repr

/-- What STRICT_COMMIT delays (R360): a token record, or the completion of a generating descriptor with its status
and RESULT. -/
inductive StrictWhat where
  | token (desc : Nat) (r : Rec)
  | finish (desc status result : Nat)
  deriving DecidableEq, Repr

/-- A record that waits in the strict hold area (R360, R361): the sequence and the step of its commit. -/
structure StrictRec where
  ctx : Nat
  handle : Nat
  step : Nat
  what : StrictWhat
  deriving DecidableEq, Repr

/-- The history of one homed sequence that STRICT_COMMIT and SUSPECT need (R359, R360): the committed length
before each recent step with rows, and the tokens published by then. -/
structure SeqPast where
  ctx : Nat
  handle : Nat
  step : Nat
  before : Nat
  pending : List Nat
  published : Nat
  deriving DecidableEq, Repr

/-- What the lead's memory was before a plan that has not started: a discarded plan leaves no trace in it (R27, R153, R363, R381,
R382). The job and step of the plan, the job of the plan before it with its run length, the sequences that the plan admitted, the
quota group that last admitted, the ratio with its count of steps, and the training step that the plan took. -/
structure PlanMark where
  job : Nat
  step : Nat
  cur : Nat
  run : Nat
  news : List Nat
  lastQuota : Option Nat
  ratio : Nat
  sinceRatio : Nat
  train : Option Forwarded
  deriving DecidableEq, Repr

/-- The lead's memory (R253 to R258, R330, R338, R365, R381): the latest reports and those of the step in flight, the
up planes by member, the admitted sequences in order and when candidates were first listed (each with its job), the
quota group that last admitted by job, waiting training steps, the job of the last plan with its run length,
retracted attempts in a row with the job and step that they are of, a step to plan again, and what a plan that has not started would
give back if it were discarded. -/
structure Lead where
  reports : List Report
  incoming : List Report
  planes : List (Nat × Nat)
  admitted : List (Nat × Nat)
  listed : List (Nat × Nat × Nat)
  lastQuota : List (Nat × Nat)
  trains : List Forwarded
  cur : Nat
  run : Nat
  retracted : Nat
  retractedOf : Nat × Nat
  replan : Option Plan
  saved : Option PlanMark
  deriving DecidableEq, Repr

def Lead.empty : Lead := ⟨[], [], [], [], [], [], [], 0, 0, 0, (0, 0), none, none⟩

/-! ## Fabric -/

/-- A request as the receiver holds and performs it (R323, R326, R327). -/
inductive FabOp where
  | read (lines : Nat)
  | write (data : List Byte)
  | add (v : Nat)
  | swap (v : Nat)
  | cas (compare new : Nat)
  | acc (states : List (List Byte))
  | mcast (loadSet : Bool) (dests : List Nat) (index : Nat) (data : List Byte)
  | group (layer expert member adds : Nat)
  deriving DecidableEq, Repr

structure FabReq where
  hdr : MsgHdr
  op : FabOp
  deriving DecidableEq, Repr

/-- Why a request was sent, so that its response is put to use (R265, R335, R389). -/
inductive Purpose where
  | step
  | load (desc : Nat)
  | ship (n : ShipName)
  | lend (path : Path) (ctx page : Nat)
  | line (ctx line : Nat)
  /-- A line for an accepted descriptor (R155); a line of the page manager's tables or of a page that it copies; lines of a page that a
  placement command moves back, from a line of the context on (R389). -/
  | fetch (desc job line : Nat)
  | manager (ctx : Nat)
  | copy (path : Path) (ctx line : Nat)
  /-- A change of what the buddy mirrors (R371); lines of a buddy's mirror for a JOIN (R373): of its records, from a line on, or of
  context memory, from an address on. -/
  | mirror (ctx : Nat)
  | joinRecord (desc line : Nat)
  | joinMem (desc addr : Nat)
  | mcast (parent : Nat) (tag : Nat)
  deriving DecidableEq, Repr

/-- An outstanding request of this package (R320, R323, R325), with the plane that it left on: none while it waits for a port of the
mask to come up (R17, R320). -/
structure Outst where
  tag : Nat
  dst : Nat
  plane : Option Nat
  ctx : Nat
  req : FabReq
  purpose : Purpose
  issued : Nat
  reissued : Bool
  deriving DecidableEq, Repr

/-- A message in the queue of a port (R317 to R319): its virtual channel, what the path hash takes of it, a request's tag, its bytes with
the header, and how many of its flits have left. -/
structure Queued where
  vc : Nat
  dst : Nat
  offset : Nat
  tag : Option Nat
  bytes : List Byte
  sent : Nat
  deriving DecidableEq, Repr

/-- The link of a Limfele port (R317, R318): the sequence numbers of the next flit that it sends and of the next that it expects, the
messages that wait, the flits in the replay buffer by sequence number, oldest first, and the credits to give back by virtual channel. -/
structure FabLink where
  next : Nat
  expect : Nat
  queue : List Queued
  sent : List (Nat × List Byte)
  back : List (Nat × Nat)
  deriving DecidableEq, Repr

/-- A forwarded MCAST_WRITE that waits for its children (R333). -/
structure Forwarding where
  hdr : MsgHdr
  children : List Nat
  deriving DecidableEq, Repr

/-- What a home has heard of its ship, and acts on at a boundary (R246, R265, R266): an offer, SHIP_DONE, SHIP_ACCEPTED, or the end of
the ship with what the source is told, the status of its own descriptor and its RESULT. -/
inductive ShipNews where
  | offer | arrived | accepted
  | ends (tell status result : Nat)
  deriving DecidableEq, Repr

/-- A ship as this package holds it (R264 to R266), under this package's number of its context, at the source (`out`) or at the
destination, at a home (`desc` names its descriptor) or at another member (`desc` 0): the committed length and pending token with whether it was published, the
source's run length and member list, whether the offer was sent or matched, the logical pages granted, the pages held here by
logical page, the source members that are done with the pages they wrote, whether SHIP_DONE was sent or came, whether
its pages are held by order 4, the status that ended it, what waits for a boundary, each with whether it came after this package's seal
(R253), and when the offer was sent. -/
structure Ship where
  name : ShipName
  ctx : Nat
  out : Bool
  desc : Nat
  committed : Nat
  pending : Option Nat
  published : Bool
  run : Nat
  members : List Nat
  offered : Bool
  granted : List Nat
  heldPages : List (Nat × Nat)
  done : List (Nat × Nat)
  arrived : Bool
  accepted : Bool
  ended : Option Nat
  news : List (ShipNews × Bool)
  pen : List PenEntry
  offerTime : Nat
  deriving DecidableEq, Repr

/-! ## Storage, firmware and power -/

/-- A storage command outstanding (R335, R346, R387): its descriptor and context, what it asks of which target, the context lines that
stand registered as its RDMA memory region, whether it is a `LOAD`'s, the I/O queue of its target that holds it (none while each is
full), whether its command has gone out, and the payload still to move. -/
structure StorJob where
  id : Nat
  desc : Nat
  ctx : Nat
  read : Bool
  target : Nat
  nsid : Nat
  lba : Nat
  addr : Nat
  len : Nat
  load : Bool
  queue : Option Nat
  told : Bool
  left : List Byte
  deriving DecidableEq, Repr

/-- A LOAD whose lines are under way (R335): the nodes of its list, lines still unacknowledged, the status that decides so far with its
address, and the status that its context faults with (0: none). -/
structure LoadJob where
  desc : Nat
  ctx : Nat
  dests : List Nat
  hostDone : Bool
  waiting : Nat
  status : Nat
  addr : Nat
  fault : Nat
  deriving DecidableEq, Repr

/-- A JOIN under way (R373): its descriptor and context, and the lines of the lost member's records that have come. -/
structure Join where
  desc : Nat
  ctx : Nat
  lines : List (Nat × List Byte)
  deriving DecidableEq, Repr

/-- The Ethernet side (R345 to R347): the setup record's words as last applied, paused priorities by port with the end of the
pause in common time, the rate of each slowed queue pair in percent, the queue pair that the rotation served last, and the targets whose
keep-alive waits. -/
structure Eth where
  setup : List Word
  paused : List (Nat × Nat × Nat)
  rates : List (Nat × Nat)
  turn : Nat
  alive : List Nat
  deriving DecidableEq, Repr

/-- What the shadow comparisons of one unit have shown (R357, R367): the last step of a context that compared clean, and
whether the unit's last comparison failed. -/
structure ShadowMark where
  unit : UnitName
  ctx : Nat
  clean : Nat
  failed : Bool
  deriving DecidableEq, Repr

/-- A shadow replay of a committed step that has not compared (R355, R356). -/
structure ShadowOpen where
  unit : UnitName
  ctx : Nat
  step : Nat
  deriving DecidableEq, Repr

/-- A fault history entry (R366). `sram` marks a corrected error of a core's local SRAM, which the history records (R130) and which
is none of the core's corrected events (R367); the 16 bytes do not show it. -/
structure FaultEntry where
  kind : Nat
  die : Nat
  unit : Nat
  event : Nat
  step : Nat
  time : Nat
  sram : Bool
  deriving DecidableEq, Repr

/-- The in-package flash (R446, R448, R366, R368): the firmware image slot, the board configuration block, the
fault history oldest first, the retirements in force, and the certificates. -/
structure Flash where
  image : List Byte
  bcb : List Byte
  history : List FaultEntry
  retired : List UnitName
  certs : List (List Byte)
  deriving DecidableEq, Repr

/-- The fuses (R395, R450 to R452, R459, R474): member, serial number, enterprise number, root hash, owner hash and
enable, revocation mask, security version, JTAG lock, the voltage table in mV by die and point, and the boot ROM's
digest that attestation reports (R461). -/
structure Fuses where
  dies : Nat
  serial : Nat
  iana : Nat
  rootHash : List Byte
  ownerHash : List Byte
  ownerEn : Bool
  revoked : Nat
  svn : Nat
  jtagLock : Bool
  volts : List (List Nat)
  romDigest : List Byte
  deriving DecidableEq, Repr

/-- A firmware update under way (R457, R458): the path that holds the slot (none: PLDM over management), the
submitting descriptor, the image length, the bytes written, and whether a component failed. -/
structure Update where
  byPort : Option EPort
  desc : Option Nat
  len : Nat
  bytes : List Byte
  started : Bool
  failed : Bool
  deriving DecidableEq, Repr

/-- An SPDM connection of one path (R461): how far negotiation got. -/
structure SpdmConn where
  version : Bool
  caps : Bool
  algs : Bool
  deriving DecidableEq, Repr

def SpdmConn.fresh : SpdmConn := ⟨false, false, false⟩

/-- The package states of R393. -/
inductive PkgState where
  | on | idle | nap | sleep | off
  deriving DecidableEq, Repr

/-- The power controller (R390 to R417) beside its registers: the cap in units of 10 W, class, order and mode in force,
an accepted write of `PWR_CAP` that waits, whether it waits for the end of a condition (R404), the spread profile in force, the thermal limit in W, the conditions that
hold, hard throttle, the group clocks in MHz of compute, memory and links, islands that droop has lowered (die * 128 +
island, MHz), and a low-power state that waits. -/
structure Power where
  cap : Nat
  classB : Bool
  order : Nat
  phaseLearned : Bool
  waiting : Option Word
  capHeld : Bool
  ssc : Word
  thermal : Option Nat
  vinLow : Bool
  vinFailing : Bool
  leak : Bool
  cool : Bool
  hbExpired : Bool
  hard : Bool
  clocks : List Nat
  lowered : List (Nat × Nat)
  waitState : Option PkgState
  deriving DecidableEq, Repr

/-- The reset controller (R427 to R434): the levels in reset, each with the bit of its source in
`RST_CAUSE` (15: none), the reset that `RST_CMD.HOLD` holds, whether 48 V is
applied, the pins `PWR_OK` and `RST_N` (low from outside) as filtered, the clocks whose loss holds a package warm
reset, and the sampled `SLOT_ID` (R485). -/
structure Rst where
  active : List (RstLevel × Nat)
  cmdHold : Option RstLevel
  powered : Bool
  pwrOk : Bool
  rstN : Bool
  clockHold : List GaugeClock
  slotId : Nat
  deriving DecidableEq, Repr

/-- The boot and management firmware (R453 to R468): the digest D of the running image, its owner key and whether its
owner signature verifies, whether the ready report was made, the wait for XB, an update, the SPDM connections, whether
an event receiver is set, events unread on SMBus, the staged effecters 2, 3, 4 and 6, the sensor values last reported,
whether the management domain runs, the board block as read at boot, whether a recovery image waits for the package's
own reset (R456). The keys of R459 follow from the fuses, the digest and the primary die. -/
structure Boot where
  digest : List Byte
  ownerKey : List Byte
  ownerOk : Bool
  ready : Bool
  xbWait : Bool
  update : Option Update
  spdm : List (Path × SpdmConn)
  receiver : Bool
  unread : Nat
  staged : List Nat
  sensors : List (Nat × Nat)
  mgmtUp : Bool
  bcb : List Byte
  recoverAt : Bool
  deriving DecidableEq, Repr

/-- The answers of PLDM commands that the spec names (R458, R467). -/
inductive PldmCode where
  | success | denied | invalidData | alreadyInUpdateMode | activationWaits
  deriving DecidableEq, Repr

/-- An SPDM response by what it carries (R460, R461); its bytes are DSP0274's. A signature is a pair r, s. -/
inductive SpdmRsp where
  | version (major minor : Nat)
  | capabilities (certificates challenge signedMeasurements sessions : Bool)
  | algorithms (sm2 sm3 : Bool)
  | digests (slot0 : List Byte)
  | certificate (portion : List Byte) (remaining : Nat)
  | challengeAuth (nonce : List Byte) (sig : Nat × Nat)
  | measurements (blocks : List (Nat × List Byte)) (nonce : List Byte) (sig : Nat × Nat)
  | unexpected
  | unsupported
  deriving DecidableEq, Repr

/-- What leaves the package (newest first in `State.out`): writes to host memory, interrupt messages, register
read data and write statuses, fabric messages, link-layer replies, management and PLDM answers, SPDM responses,
storage commands. -/
inductive Out where
  | hostWrite (port : EPort) (addr : Nat) (bytes : List Byte)
  | irq (port : EPort) (vector : Nat)
  | readData (path : Path) (status : Nat) (value : Word)
  | writeStatus (path : Path) (status : Nat)
  | plan (dst : Nat) (p : Plan)
  | seal (dst : Nat) (m : SealMsg)
  | report (dst : Nat) (r : Report)
  | retract (dst : Nat) (m : RetractMsg)
  | depart (node : Nat) (port : Option Nat) (cause step : Nat)
  | pendingMsg (dst kind step attempt : Nat)
  | request (dst plane : Nat) (r : FabReq)
  | ack (dst tag : Nat)
  | data (dst tag : Nat) (bytes : List Byte) (poison : Bool)
  | nack (dst tag reason : Nat)
  | time (dst plane : Nat) (reply : Bool) (t1 t2 t3 : Nat) (reqCorrection : Int)
  | shipOffer (n : ShipName) (committed : Nat) (pending : Option (Nat × Bool)) (layout : List Word) (pen : List PenEntry)
      (members : List Nat)
  | shipGrant (dst : Nat) (n : ShipName) (logical pages : List Nat)
  | writesDone (dst : Nat) (n : ShipName) (member pages : Nat)
  | shipDone (n : ShipName) (pages : Nat)
  | shipAccepted (n : ShipName)
  | shipRefused (dst : Nat) (n : ShipName) (status : Nat)
  | cands (dst seq i : Nat) (s : SliceSend)
  | headCands (dst seq i h : Nat) (l : List (Nat × Word)) (poison : Bool)
  | rowInput (dst : Nat) (r : RowInput)
  | part (dst : Nat) (p : PartMsg)
  | service (die offset : Nat) (route : List Nat) (status : Nat) (bytes : List Byte) (poison : Bool)
  | flit (port : Nat) (bytes : List Byte)
  | train (port : Nat) (v2 : Bool)
  | mgmt (status : Nat) (words : List Word)
  | pldm (code : PldmCode)
  | event (sensor value : Nat)
  | spdm (path : Path) (r : SpdmRsp)
  | nvme (target qp : Nat) (read : Bool) (nsid lba addr len : Nat)
  | rdma (qp : Nat) (data : List Byte)
  | connect (target : Nat)
  | disconnect (target : Nat)
  | keepAlive (target : Nat)
  deriving DecidableEq, Repr

/-- The package. -/
structure State where
  /-- Window registers by offset; an unlisted register reads its reset value (RegTable). -/
  regs : List (Nat × Word)
  /-- Registers of the management address space. -/
  mregs : List (Nat × Word)
  /-- The per-path shadows of `_HI` registers and staged `_LO` values (R6, R7), by path and offset. -/
  shadows : List (Nat × Word)
  staged : List (Nat × Word)
  /-- Dowel owners (0 free, 1 A, 2 B, 3 I3C) and BROKEN bits (R310, R312). -/
  dowels : List Nat
  broken : List Bool
  /-- Retained memory words and words with an uncorrectable error (R437, R438). -/
  retained : List (Nat × Word)
  retainedBad : List Nat
  fuses : Fuses
  flash : Flash
  rst : Rst
  boot : Boot
  power : Power
  pkg : PkgState
  /-- Common time in ns with its fraction in units of 2^-32 ns (R340), the ns for which the count is held (R341), locked exchanges in a row (R342),
  and the offsets gathered in this interval by plane, in units of 2^-17 ns. -/
  time : Nat
  timeFrac : Nat
  timeHold : Nat
  timeLocks : Nat
  offsets : List (Nat × Int)
  slew : Int
  portA : Port
  portB : Port
  opens : List Desc
  nextDesc : Nat
  commits : Nat
  ctxs : List (Nat × Ctx)
  /-- HBM bytes by die and line address; poisoned lines; injected flips of word 0 by line (R164 to R168). -/
  hbm : List (Nat × Byte)
  hbmPoison : List Nat
  hbmFlips : List (Nat × Nat)
  /-- Slice and local SRAM bytes, poisoned lines, and the bits in error of each 72-bit word: by word, 64 data bits with 8 check
  bits above them (R114 to R118). -/
  slices : List (Nat × Byte)
  slicePoison : List Nat
  sliceFlips : List (Nat × Nat)
  locals : List (Nat × Byte)
  localPoison : List Nat
  localFlips : List (Nat × Nat)
  /-- Buffer lines of engine, bridge, link and dovetail ports (R137), and the vector registers with the poisoned ones
  (R110). -/
  lines : List (Nat × Byte)
  linePoison : List Nat
  vregs : List (Nat × Word)
  vregPoison : List Nat
  /-- The jig store of each die (R147): die, stage, the stage's schedule entries and its core programs. -/
  jigStore : List (Nat × Nat × List (List Byte) × List Byte)
  /-- Tables whose write by the page manager a page forbade, by job, with the status (R157). -/
  tableFaults : List (Nat × Nat)
  /-- Frames in use, by die and frame (R178's free frames are the others). -/
  frames : List Nat
  /-- Frames held for preserved regions: region, page, page-map entry (R439). -/
  preserved : List (Nat × Nat × Nat)
  scrub : List (Nat × Nat)
  corrected : List (Nat × Nat)
  places : List Place
  swaps : List Swap
  /-- Frames that moved pages have left, free once the step in flight has ended (R184). -/
  leaving : List Nat
  members : List Nat
  lostNodes : List Nat
  departed : Bool
  lead : Lead
  plans : List Plan
  attempt : Option Attempt
  /-- The newest retracted attempt by job, as step * 256 + attempt (R326, R363). -/
  retracted : List (Nat × Nat)
  /-- The plans of attempts of a step that have been retracted: seals of theirs may still come late (R151). -/
  stopped : List Plan
  /-- Seals with PASS = 0 that the seal agent could not send while its die was in reset (R21). -/
  owed : List SealMsg
  /-- The job of the last step started (R382). -/
  lastJob : Nat
  heldInputs : List HeldInputs
  strict : List StrictRec
  /-- The frames of each strict hold area, by context number (R361). -/
  strictAreas : List (Nat × List Nat)
  past : List SeqPast
  forwards : List Forwarded
  /-- The sequence entries of this home's last report that counted, and of the report that went with the seal of the step in flight, by
  job (R338). -/
  told : List (Nat × SeqReport)
  telling : List (Nat × SeqReport)
  /-- Page-table edits of this home by job (R198, R253): those not applied here yet, and those applied here that the
  other members have not been told (log entry 19). -/
  edits : List (Nat × Edit)
  unsent : List (Nat × Edit)
  shadowOpen : List ShadowOpen
  shadowMarks : List ShadowMark
  /-- The half of the shadow log that the next step fills (R355). -/
  logHalf : Nat
  /-- The shadow period in force: a write of `INT_CTL` takes effect at the next boundary. -/
  period : Nat
  switchWait : List Nat
  /-- Seals of an attempt that this package has not started, and edits of idle reports that came while a plan of their
  job was published here (log entry 19). -/
  sealsHeld : List SealMsg
  /-- RETRACTs of a plan that this package cannot retract yet (log entry 18). -/
  retractsHeld : List RetractMsg
  /-- The jobs whose retracted step waits here to be planned again (R141). -/
  replansDue : List Nat
  /-- Faults of a context that a command raised while a step of the context was in flight, by context number: the next seal of the
  context names them (R379). -/
  dueFaults : List (Nat × Nat)
  heldEdits : List (Nat × Edit)
  /-- Credits returned to a Limfele port (R318), by port times 4 plus virtual channel. -/
  credits : List (Nat × Nat)
  /-- The links of the Limfele ports, and how many messages of `out` they have taken (R317 to R320). -/
  links : List (Nat × FabLink)
  drained : Nat
  /-- The translation caches (R161, R328): unit (a die's own, or 8 + die for its own accesses), context, page and entry. -/
  xlate : List (Nat × Nat × Nat × Nat)
  /-- Islands whose clock multiplexer is hung because the old clock stopped, first hung first (R425): die * 128 + island. -/
  hung : List Nat
  /-- Cores whose core reset ended while the step in flight ran (R131): die * 48 + core. -/
  resting : List Nat
  outst : List Outst
  nextTag : Nat
  parked : List (Option Nat × FabReq)
  /-- Lines of lenders read for commands, by job and line with their poison; lines of a job that the command at work found missing; and the
  accepted descriptors that wait for lines, each with host memory as it was taken with it (R155, R389). -/
  lent : List (Nat × Nat × List Byte × Bool)
  wants : List (Nat × Nat)
  stalled : List (Nat × HostView)
  forwarding : List Forwarding
  ships : List Ship
  stor : List StorJob
  loads : List LoadJob
  joins : List Join
  eth : Eth
  out : List Out
  /-- The model's own counter of free values (log entry 3). -/
  fresh : Nat
  /-- The model's own queue of waiting commands, first in, first out. -/
  pending : List Instr
  deriving DecidableEq, Repr

/-! ## The state at reset

The package right after a cold reset took effect (R428, R429): power is applied and `PWR_OK` is high, the
minimum length has elapsed and no source holds the level, so that `RESET_RELEASE` is what comes next. Every
register is at its reset value (RegTable: an unlisted register reads it). What the spec gives no reset value is a
choice of the model, named in log entries 5 to 7. -/

/-- The fuses of the modelled package: a T8 whose identity fuses are blank (DESIGN CHOICE, log entry 5). -/
def Fuses.reset : Fuses :=
  { dies := 8, serial := 0, iana := 0, rootHash := List.replicate 32 0#8, ownerHash := List.replicate 32 0#8,
    ownerEn := false, revoked := 0, svn := 0, jtagLock := false, volts := [], romDigest := List.replicate 32 0#8 }

/-- The flash of the modelled package: nothing written (DESIGN CHOICE, log entry 5). -/
def Flash.reset : Flash := { image := [], bcb := [], history := [], retired := [], certs := [] }

def Rst.reset : Rst :=
  { active := [(.cold, 0)], cmdHold := none, powered := true, pwrOk := true, rstN := false, clockHold := [], slotId := 0 }

def Boot.reset : Boot :=
  { digest := List.replicate 32 0#8, ownerKey := [], ownerOk := false, ready := false, xbWait := false,
    update := none, spdm := [], receiver := false, unread := 0, staged := [1, 0, 0, 1],
    sensors := [], mgmtUp := false, bcb := [], recoverAt := false }

/-- The clamp at reset: class B at the T8's minimum cap, as `PWR_CAP` resets (R400, R403), spread off, and the islands
not clocked by their oscillators. -/
def Power.reset : Power :=
  { cap := 180, classB := true, order := 0, phaseLearned := false, waiting := none, capHeld := false,
    ssc := 0x0003C000#32, thermal := none, vinLow := false, vinFailing := false, leak := false, cool := false, hbExpired := false, hard := false,
    clocks := [0, 0, 0], lowered := [], waitState := none }

def Eth.reset : Eth := { setup := [], paused := [], rates := [], turn := 0, alive := [] }

/-- The package right after a cold reset. -/
def State.reset : State :=
  { regs := [], mregs := [], shadows := [], staged := [], dowels := List.replicate 16 0,
    broken := List.replicate 16 false, retained := [], retainedBad := [], fuses := .reset, flash := .reset,
    rst := .reset, boot := .reset, power := .reset, pkg := .on, time := 0, timeFrac := 0, timeHold := 0, timeLocks := 0,
    offsets := [], slew := 0, portA := .reset, portB := .reset, opens := [], nextDesc := 1,
    commits := 0, ctxs := [], hbm := [], hbmPoison := [], hbmFlips := [], slices := [], slicePoison := [], sliceFlips := [],
    locals := [], localPoison := [], localFlips := [], lines := [], linePoison := [], vregs := [], vregPoison := [], jigStore := [],
    tableFaults := [], frames := [], preserved := [], scrub := [], corrected := [], places := [],
    swaps := [], leaving := [], members := [], lostNodes := [], departed := false, lead := .empty, plans := [],
    attempt := none, retracted := [], stopped := [], owed := [], lastJob := 0, heldInputs := [], strict := [], strictAreas := [], past := [], forwards := [], told := [], telling := [], edits := [], unsent := [], shadowOpen := [],
    shadowMarks := [], logHalf := 0, period := 32, switchWait := [], sealsHeld := [], retractsHeld := [], replansDue := [], dueFaults := [], heldEdits := [], credits := [], links := [], drained := 0, xlate := [], hung := [], resting := [], outst := [], nextTag := 0, parked := [], lent := [], wants := [], stalled := [],
    forwarding := [], ships := [], stor := [], loads := [], joins := [], eth := .reset, out := [], fresh := 0, pending := [] }

end Sys2Proof.Machine
end

