-- ==== Sys2Proof/Machine/RegTable.lean ====
section
/-! DEFINITION. The registers of the configuration window by offset (R469 to R474 and the register tables of every
chapter), and the power registers of the management space. -/

namespace Sys2Proof.Machine

/-- What the tables say of one register: fields that a write sets (RW), bits that a 1 clears (W1C), the reset
value, and the bits kept through a port, die, package warm and cold reset that reaches the register (R8 to R11).
Every other bit is RO, WO (reads 0) or reserved (R9). -/
structure RegInfo where
  rw : Word
  w1c : Word
  reset : Word
  keepPort : Word
  keepDie : Word
  keepWarm : Word
  keepCold : Word
  deriving DecidableEq, Repr

/-- A register that only the package changes; nothing of it survives a reset that reaches it. -/
def RegInfo.ro : RegInfo := ⟨0#32, 0#32, 0#32, 0#32, 0#32, 0#32, 0#32⟩
def RegInfo.rwOf (m reset : Word) : RegInfo := { RegInfo.ro with rw := m, reset := reset }

/-! ## Offsets -/

def oPart : Nat := 0x0
def oSerialLo : Nat := 0x4
def oSerialHi : Nat := 0x8
def oIana : Nat := 0xC
def oLayout : Nat := 0x10
def oCapPorts : Nat := 0x14
def oCapDies : Nat := 0x18

/-- The base of an Etcen port's block. -/
def oPortBlk : EPort → Nat
  | .a => 0x1_0000
  | .b => 0x2_0000
def oLinkCtl (p : EPort) : Nat := oPortBlk p
def oLinkStat (p : EPort) : Nat := oPortBlk p + 0x4
def oEpErr (p : EPort) : Nat := oPortBlk p + 0x8
def oErrLog (p : EPort) : Nat := oPortBlk p + 0xC
def oQueue (p : EPort) : Nat := oPortBlk p + 0x10
def oEvent (p : EPort) : Nat := oPortBlk p + 0x14
def oDropped (p : EPort) : Nat := oPortBlk p + 0x18
def oHotRst (p : EPort) : Nat := oPortBlk p + 0x1C

def portNo : EPort → Nat
  | .a => 0
  | .b => 1
/-- The base of a ring set. -/
def oRing (p : EPort) (i : Nat) : Nat := 0x3_0000 + 0x4000 * portNo p + 0x100 * i
def oRingSize (p : EPort) (i : Nat) : Nat := oRing p i + 0x18
def oRingCtl (p : EPort) (i : Nat) : Nat := oRing p i + 0x1C
def oIrqMod (p : EPort) (i : Nat) : Nat := oRing p i + 0x20
def oIrqVec (p : EPort) (i : Nat) : Nat := oRing p i + 0x24
def oRingStat (p : EPort) (i : Nat) : Nat := oRing p i + 0x28
def oSqHead (p : EPort) (i : Nat) : Nat := oRing p i + 0x2C
def oDbLo (p : EPort) : Nat := 0x4_0000 + 0x100 * portNo p
def oDbHi (p : EPort) : Nat := oDbLo p + 0x4
def oPollCtl (p : EPort) : Nat := oDbLo p + 0x8
def oNudge (p : EPort) : Nat := oDbLo p + 0xC

def oDowel (n : Nat) : Nat := 0xC_0000 + 4 * n
def oBroken : Nat := 0xC_0040
def oCtxStat (c : Nat) : Nat := 0xD_0000 + 0x10 * c
def oSwitchNs : Nat := 0xD_0400
def oSwitches : Nat := 0xD_0404
def oRoute (c : Nat) : Nat := 0xD_C000 + 0x40 * c
def oSpec (c : Nat) : Nat := 0xD_D000 + 0x20 * c

def oScrub : Nat := 0x10_0000
def oInject : Nat := 0x10_0004
def oUeLo : Nat := 0x10_0008
def oUeHi : Nat := 0x10_000C
def oMemErr (d : Nat) : Nat := 0x10_0100 + 4 * d
def oMemInfo (d : Nat) : Nat := 0x10_0140 + 4 * d
def pathNo : Path → Nat
  | .epA => 0
  | .epB => 1
  | .i3c => 2
def oPlace (p : Path) : Nat := 0x10_0200 + 0x20 * pathNo p
def oKvFree (c : Nat) : Nat := 0x10_0400 + 0x10 * c

def oFabNode : Nat := 0x20_0000
def oFabPart : Nat := 0x20_0004
def oFabCtl : Nat := 0x20_0008
def oPlanes : Nat := 0x20_000C
def oRxRefused : Nat := 0x20_0010
def oTimeLo : Nat := 0x20_0020
def oTimeHi : Nat := 0x20_0024
def oTimeStat : Nat := 0x20_0028
def oLateStart : Nat := 0x20_0030
def oLateSeal : Nat := 0x20_0034
def oLatePeer : Nat := 0x20_0038
def oRemoteLo : Nat := 0x20_003C
def oRemoteHi : Nat := 0x20_0040
def oLateMax : Nat := 0x20_0044
def oPortStat (p : Nat) : Nat := 0x20_0100 + 4 * p
def oCable (p : Nat) : Nat := 0x20_0180 + 4 * p
def oCableStat (p : Nat) : Nat := 0x20_0200 + 4 * p
def oMember (k : Nat) : Nat := 0x20_0400 + 4 * k

def oEthLo : Nat := 0x30_0000
def oEthHi : Nat := 0x30_0004
def oEthCmd : Nat := 0x30_0008
def oEthStat (p : Nat) : Nat := 0x30_0010 + 4 * p
def oTgtStat : Nat := 0x30_0020

def oIntCtl : Nat := 0x40_0000
def oStrictLo : Nat := 0x40_0004
def oStrictHi : Nat := 0x40_0008
def oIntStat : Nat := 0x40_0010
def oImmTransient : Nat := 0x40_0020
def oImmUnrecov : Nat := 0x40_0024
def oShadowCmp : Nat := 0x40_0028
def oShadowMis : Nat := 0x40_002C
def oRetractSent : Nat := 0x40_0030
def oRetractRcvd : Nat := 0x40_0034
def oSuspect : Nat := 0x40_0038
def oSigLo : Nat := 0x40_0040
def oSigStepLo : Nat := 0x40_0048
def oRetirePending : Nat := 0x40_0050

def oClkSrc : Nat := 0x50_0000
def oClkSsc : Nat := 0x50_0004
def oClkGauge : Nat := 0x50_0008
def oClkPll (d : Nat) : Nat := 0x50_0010 + 4 * d
def oClkEnPkg : Nat := 0x50_0040
def oGatedLog : Nat := 0x50_0048
def oClkEnBlk (d : Nat) : Nat := 0x50_0100 + 0x10 * d
def oClkEnCoreLo (d : Nat) : Nat := 0x50_0104 + 0x10 * d
def oClkEnCoreHi (d : Nat) : Nat := 0x50_0108 + 0x10 * d
def oMuxStat (d : Nat) : Nat := 0x50_0200 + 8 * d
def oMuxBreak (d : Nat) : Nat := 0x50_0204 + 8 * d

def oRstCause : Nat := 0x58_0000
def oDieCause (d : Nat) : Nat := 0x58_0010 + 4 * d
def oRstCmd : Nat := 0x58_0040
def oPinOut : Nat := 0x58_0044
def oBkup (n : Nat) : Nat := 0x58_0100 + 4 * n
def oPres (k : Nat) : Nat := 0x58_0200 + 0x10 * k
def oRetained : Nat := 0x5C_0000

def oBootStat : Nat := 0x60_0000
def oFwVer : Nat := 0x60_0004
def oSvn : Nat := 0x60_0008
def oSecFuse : Nat := 0x60_000C
def oOwnerHash (n : Nat) : Nat := 0x60_0020 + 4 * n
def oOwnerStage (n : Nat) : Nat := 0x60_0040 + 4 * n
def oOwnerFuse : Nat := 0x60_0060

def oQstat (c : Nat) : Nat := 0x70_0000 + 0x100 * c
def oDieWin (d : Nat) : Nat := 0x80_0000 + 0x10_0000 * d
def oStallLimit (d : Nat) : Nat := oDieWin d + 0x2_0000
def oStallStat (d : Nat) : Nat := oDieWin d + 0x2_0004
def oStallMax (d : Nat) : Nat := oDieWin d + 0x2_0008
def oSramErr (d : Nat) : Nat := oDieWin d + 0x2_0010
def oCoreState (d n : Nat) : Nat := oDieWin d + 0x2_0100 + 4 * n

/-! ## The tables -/

/-- The register tables of an Etcen port block, by offset within it (R290, R291, R306, R307). -/
def portInfo (o : Nat) : Option RegInfo :=
  match o with
  | 0x00 => some (.rwOf 0x7#32 0x7#32)
  | 0x04 => some .ro
  | 0x08 => some { RegInfo.ro with keepPort := 0xFFFFFFFF#32, keepDie := 0#32 }
  | 0x0C => some { RegInfo.ro with w1c := 0x80000000#32, keepPort := 0xFFFFFFFF#32 }
  | 0x10 => some { RegInfo.ro with keepPort := 0x1FFF0000#32 }
  | 0x14 => some (.rwOf 0x8000003F#32 0#32)
  | 0x18 => some { RegInfo.ro with keepPort := 0xFFFFFFFF#32 }
  | 0x1C => some { RegInfo.ro with keepPort := 0xFFFFFFFF#32 }
  | _ => none

/-- The tables of a ring set, by offset within it. -/
def ringInfo (o : Nat) : Option RegInfo :=
  match o with
  | 0x00 | 0x08 | 0x10 => some (.rwOf 0xFFFFF000#32 0#32)
  | 0x04 | 0x0C | 0x14 => some (.rwOf 0xFFFFFFFF#32 0#32)
  | 0x18 => some (.rwOf 0x001F1F1F#32 0x00060606#32)
  | 0x1C => some (.rwOf 0x3#32 0#32)
  | 0x20 => some (.rwOf 0x00FFFFFF#32 1#32)
  | 0x24 => some (.rwOf 0x8000FFFF#32 0#32)
  | 0x28 | 0x2C => some .ro
  | _ => none

/-- The tables of a doorbell setup. -/
def doorbellInfo (o : Nat) : Option RegInfo :=
  match o with
  | 0x00 => some (.rwOf 0xFFFFF000#32 0#32)
  | 0x04 => some (.rwOf 0xFFFFFFFF#32 0#32)
  | 0x08 => some (.rwOf 0xFFFF3F01#32 0x00323000#32)
  | 0x0C => some .ro
  | _ => none

/-- Whether an offset lies in a run of `n` registers `step` bytes apart, at one of the inner offsets below `len`. -/
def inRun (o base step n len : Nat) : Bool := base ≤ o && o < base + step * n && (o - base) % step < len

/-- The tables of the Memory and tiers block. -/
def memInfo (o : Nat) : Option RegInfo :=
  if o = oScrub then some (.rwOf 0xFF#32 0x18#32)
  else if o = oInject then some (.rwOf 0x0000773F#32 0#32)
  else if o = oUeLo then some .ro
  else if o = oUeHi then some { RegInfo.ro with w1c := 0x80000000#32 }
  else if inRun o 0x10_0100 4 8 4 || inRun o 0x10_0140 4 8 4 then some .ro
  else if inRun o 0x10_0200 0x20 3 0x18 then
    match (o - 0x10_0200) % 0x20 with
    | 0x00 => some (.rwOf 0x0FFFFF3F#32 0x00001800#32)
    | 0x04 | 0x08 => some (.rwOf 0x07FFFFFF#32 0#32)
    | _ => some .ro
  else if inRun o 0x10_0400 0x10 64 0x10 then some .ro
  else none

/-- The tables of the Fabric block. -/
def fabInfo (o : Nat) : Option RegInfo :=
  if o = oFabNode then some (.rwOf 0xFFF#32 0xFFF#32)
  else if o = oFabPart then some (.rwOf 0x3F#32 0#32)
  else if o = oFabCtl then some (.rwOf 0xB#32 0x2#32)
  else if o = oPlanes || o = oRxRefused || inRun o oTimeLo 4 3 4 || inRun o oLateStart 4 6 4 then some .ro
  else if inRun o 0x20_0100 4 32 4 || inRun o 0x20_0200 4 32 4 || inRun o 0x20_0400 4 2048 4 then some .ro
  else if inRun o 0x20_0180 4 32 4 then
    some { RegInfo.ro with rw := 0x80FFFFFF#32, keepWarm := 0xFFFFFFFF#32, keepCold := 0xFFFFFFFF#32 }
  else none

/-- The tables of the Integrity block. -/
def intInfo (o : Nat) : Option RegInfo :=
  if o = oIntCtl then some (.rwOf 0x000107FF#32 0x20#32)
  else if o = oStrictLo || o = oStrictHi then some (.rwOf 0xFFFFFFFF#32 0#32)
  else if o = oIntStat then some { RegInfo.ro with reset := 0x0FFF0000#32 }
  else if inRun o oImmTransient 4 7 4 || inRun o oSigLo 4 5 4 then some .ro
  else none

/-- The tables of the Clocks block. -/
def clkInfo (o : Nat) : Option RegInfo :=
  if o = oClkSrc || o = oGatedLog then some .ro
  else if o = oClkSsc then some (.rwOf 0x801FE01F#32 0x0003C000#32)
  else if o = oClkGauge then some { RegInfo.ro with w1c := 0x3E#32, keepWarm := 0x6#32, keepCold := 0x6#32 }
  else if inRun o 0x50_0010 4 8 4 then some { RegInfo.ro with w1c := 0xF0#32 }
  else if o = oClkEnPkg then some (.rwOf 0x7#32 0#32)
  else if inRun o 0x50_0100 0x10 8 4 then some { RegInfo.rwOf 0x03FFFFFF#32 0#32 with keepDie := 0x03FFFFFF#32 }
  else if inRun o 0x50_0104 0x10 8 4 then some { RegInfo.rwOf 0xFFFFFFFF#32 0#32 with keepDie := 0xFFFFFFFF#32 }
  else if inRun o 0x50_0108 0x10 8 4 then some { RegInfo.rwOf 0x0000FFFF#32 0#32 with keepDie := 0x0000FFFF#32 }
  else if inRun o 0x50_0200 8 8 8 && (o - 0x50_0200) % 4 = 0 then some .ro
  else none

/-- The tables of the Reset and backup block (R437). `BKUP_0` and `BKUP_1` reset with the minimum cap, which
depends on the member: their reset value is in `resetWord`. -/
def rstInfo (o : Nat) : Option RegInfo :=
  let kept (r : RegInfo) : RegInfo := { r with keepWarm := 0xFFFFFFFF#32 }
  if o = oRstCause then some (kept { RegInfo.ro with w1c := 0xC00001FF#32, reset := 1#32 })
  else if inRun o 0x58_0010 4 8 4 then some (kept { RegInfo.ro with w1c := 0x7#32 })
  else if o = oRstCmd then some { RegInfo.rwOf 0x7FFF0000#32 0#32 with keepWarm := 0x47FF0000#32 }
  else if o = oPinOut then some { RegInfo.ro with keepWarm := 0x7#32, keepCold := 0x4#32 }
  else if o = oBkup 0 || o = oBkup 1 then some (kept .ro)
  else if inRun o (oBkup 2) 4 6 4 then some (kept (.rwOf 0xFFFFFFFF#32 0#32))
  else if inRun o 0x58_0200 0x10 8 0xC && o % 4 = 0 then
    some (kept (if o % 0x10 = 0 then .rwOf 0x8000FFFF#32 0#32 else .rwOf 0x07FFFFFF#32 0#32))
  else none

/-- The tables of the Security and boot block. -/
def secInfo (o : Nat) : Option RegInfo :=
  if inRun o oBootStat 4 4 4 || inRun o 0x60_0020 4 8 4 || o = oOwnerFuse then some .ro
  else if inRun o 0x60_0040 4 8 4 then some (.rwOf 0xFFFFFFFF#32 0#32)
  else none

/-- The tables of a QSTAT block, by offset within it. -/
def qstatInfo (o : Nat) : Option RegInfo :=
  if o = 0 then some (.rwOf 0x2#32 0#32)
  else if o = 4 then some { RegInfo.ro with w1c := 0x1F#32 }
  else if o < 0x58 then some .ro
  else none

/-- The tables of a die window, by offset within it. -/
def dieInfo (o : Nat) : Option RegInfo :=
  if o = 0x2_0000 then some (.rwOf 0x00FFFFFF#32 0x00010000#32)
  else if o = 0x2_0004 then some { RegInfo.ro with w1c := 0xFF#32 }
  else if o = 0x2_0008 || o = 0x2_0010 then some .ro
  else if inRun o 0x2_0100 4 48 4 then some { RegInfo.ro with w1c := 0x8#32 }
  else none

/-- The register at an aligned offset of the window; none where no table lists one. -/
def regInfo (o : Nat) : Option RegInfo :=
  if o % 4 ≠ 0 then none
  else if o < 0x1_0000 then (if o ≤ 0x18 then some .ro else none)
  else if o < 0x2_0000 then portInfo (o - 0x1_0000)
  else if o < 0x3_0000 then portInfo (o - 0x2_0000)
  else if o < 0x4_0000 then (if o < 0x3_8000 then ringInfo ((o - 0x3_0000) % 0x100) else none)
  else if o < 0x5_0000 then (if o < 0x4_0200 then doorbellInfo (o % 0x100) else none)
  else if inRun o 0xC_0000 4 17 4 then some { RegInfo.ro with w1c := if o = oBroken then 0xFFFF#32 else 0x8#32 }
  else if inRun o 0xD_0000 0x10 64 0x10 then some .ro
  else if o = oSwitchNs then some (.rwOf 0xFFFFFFFF#32 0x004C4B40#32)
  else if o = oSwitches || inRun o 0xD_C000 0x40 64 0x38 || inRun o 0xD_D000 0x20 64 0x20 then some .ro
  else if 0x10_0000 ≤ o ∧ o < 0x20_0000 then memInfo o
  else if 0x20_0000 ≤ o ∧ o < 0x30_0000 then fabInfo o
  else if o = oEthLo then some (.rwOf 0xFFFFF800#32 0#32)
  else if o = oEthHi then some (.rwOf 0xFFFFFFFF#32 0#32)
  else if o = oEthCmd || inRun o 0x30_0010 4 2 4 || o = oTgtStat then some .ro
  else if 0x40_0000 ≤ o ∧ o < 0x50_0000 then intInfo o
  else if 0x50_0000 ≤ o ∧ o < 0x58_0000 then clkInfo o
  else if 0x58_0000 ≤ o ∧ o < 0x5C_0000 then rstInfo o
  else if inRun o oRetained 4 4096 4 then some (.rwOf 0xFFFFFFFF#32 0#32)
  else if 0x60_0000 ≤ o ∧ o < 0x70_0000 then secInfo o
  else if 0x70_0000 ≤ o ∧ o < 0x70_4000 then qstatInfo (o % 0x100)
  else if 0x80_0000 ≤ o ∧ o < 0x100_0000 then dieInfo (o % 0x10_0000)
  else none

/-- The offset lies in a block of the window (R470). -/
def inBlock (o : Nat) : Bool :=
  o < 0x5_0000 || (0xC_0000 ≤ o && o < 0xE_0000) || (0x10_0000 ≤ o && o < 0x5C_4000) ||
    (0x60_0000 ≤ o && o < 0x70_4000) || (0x80_0000 ≤ o && o < 0x100_0000)

/-- The dowel that guards writes at an offset (R311). -/
def guardOf (o : Nat) : Option Nat :=
  if 0x50_0000 ≤ o ∧ o < 0x58_0000 then some 0
  else if 0x58_0000 ≤ o ∧ o < 0x5C_4000 then some 1
  else if 0x20_0000 ≤ o ∧ o < 0x30_0000 then some 2
  else if 0x30_0000 ≤ o ∧ o < 0x40_0000 then some 3
  else if o = oScrub ∨ o = oInject then some 4
  else if 0x40_0000 ≤ o ∧ o < 0x50_0000 then some 5
  else if 0x60_0000 ≤ o ∧ o < 0x70_0000 then some 6
  else none

/-- The `_HI` register that pairs with a `_LO` register (R5): the same register table names both, the `_LO` at the
lower offset. -/
def hiOf (o : Nat) : Option Nat :=
  let pair : Bool :=
    o = oSerialLo || (0x3_0000 ≤ o && o < 0x3_8000 && (o % 0x100 = 0 || o % 0x100 = 8 || o % 0x100 = 0x10)) ||
    (0x4_0000 ≤ o && o < 0x4_0200 && o % 0x100 = 0) ||
    inRun o 0xD_0008 0x10 64 4 || (inRun o 0xD_C000 0x40 64 0x38 && o % 8 = 0) || (inRun o 0xD_D000 0x20 64 0x20 && o % 8 = 0) ||
    o = oUeLo || o = oTimeLo || o = oRemoteLo || o = oEthLo || o = oStrictLo || o = oSigLo || o = oSigStepLo ||
    inRun o 0x50_0104 0x10 8 4 ||
    (0x70_0000 ≤ o && o < 0x70_4000 && 8 ≤ o % 0x100 && o % 0x100 < 0x58 && o % 8 = 0)
  if pair && (regInfo o).isSome then some (o + 4) else none

/-- The `_LO` register that pairs with a `_HI` register. -/
def loOf (o : Nat) : Option Nat := if 4 ≤ o then (if (hiOf (o - 4)).isSome then some (o - 4) else none) else none

/-- The offset is one of the enable registers (R421). -/
def isEnable (o : Nat) : Bool := o = oClkEnPkg || (inRun o 0x50_0100 0x10 8 0xC && o % 4 = 0)

/-! ## Management address space -/

def mCap : Nat := 0x000
def mSafe : Nat := 0x004
def mHb : Nat := 0x008
def mStat : Nat := 0x00C
def mIn : Nat := 0x010
def mDroop (d : Nat) : Nat := 0x040 + 4 * d
def mTherm (d : Nat) : Nat := 0x080 + 4 * d

/-- The minimum cap of a member in units of 10 W (R402). -/
def minCap (dies : Nat) : Nat := if dies = 2 then 50 else if dies = 4 then 95 else 180
/-- The lowest cap of class A (R402). -/
def classACap (dies : Nat) : Nat := if dies = 2 then 75 else if dies = 4 then 140 else 260
/-- The highest cap (R402). -/
def maxCap (dies : Nat) : Nat := if dies = 2 then 100 else if dies = 4 then 190 else 360

/-- The reset value of `PWR_CAP` and of `PWR_SAFE`: class B at the minimum cap. -/
def capReset (dies : Nat) : Word := BitVec.ofNat 32 (0x1000 + minCap dies)

/-- The reset value of a management register; none where the space has no register. -/
def mReset (dies o : Nat) : Option Word :=
  if o = mCap ∨ o = mSafe ∨ o = mStat then some (capReset dies)
  else if o = mHb ∨ o = mIn then some 0#32
  else if (inRun o 0x040 4 dies 4 || inRun o 0x080 4 dies 4) && o % 4 = 0 then some 0#32
  else none

/-- The reset value of a window register. -/
def resetWord (dies o : Nat) : Word :=
  if o = oBkup 0 ∨ o = oBkup 1 then capReset dies else ((regInfo o).map (·.reset)).getD 0#32

end Sys2Proof.Machine
end

