-- ==== Sys2Proof/Machine/Ops.lean ====
section
/-! DEFINITION. The named operations over the state: registers, ports and pairs, contexts, what leaves the package,
free values, units in service, and frames. -/

namespace Sys2Proof.Machine

/-! ## Registers -/

/-- The stored value of a window register (R5); an unlisted register holds its reset value. -/
def State.reg (s : State) (o : Nat) : Word := peek (resetWord s.fuses.dies o) s.regs o

/-- The state with a window register set. -/
def State.setReg (s : State) (o : Nat) (v : Word) : State :=
  { s with regs := poke (resetWord s.fuses.dies o) s.regs o v }

/-- The state with one field of a window register set. -/
def State.setRegFld (s : State) (o msb lsb v : Nat) : State := s.setReg o (setFld (s.reg o) msb lsb v)

def State.setRegBit (s : State) (o i : Nat) (b : Bool) : State := s.setReg o (setBit (s.reg o) i b)

/-- A register of the management address space (R463). -/
def State.mreg (s : State) (o : Nat) : Word := peek ((mReset s.fuses.dies o).getD 0#32) s.mregs o

def State.setMreg (s : State) (o : Nat) (v : Word) : State :=
  { s with mregs := poke ((mReset s.fuses.dies o).getD 0#32) s.mregs o v }

def State.setMregFld (s : State) (o msb lsb v : Nat) : State := s.setMreg o (setFld (s.mreg o) msb lsb v)

/-! ## What leaves the package -/

/-- One more output of the package, newest first. -/
def State.emit (s : State) (o : Out) : State := { s with out := o :: s.out }

def State.emits (s : State) (os : List Out) : State := os.foldl State.emit s

/-- A fresh free value and the state after it is drawn (log entry 3). -/
def State.free (s : State) : Word × State := (Config.freeValue s.fresh, { s with fresh := s.fresh + 1 })

/-! ## Ports and pairs -/

def State.port (s : State) : EPort → Port
  | .a => s.portA
  | .b => s.portB

def State.setPort (s : State) (p : EPort) (v : Port) : State :=
  match p with
  | .a => { s with portA := v }
  | .b => { s with portB := v }

def State.pair (s : State) (p : EPort) (i : Nat) : Pair := peek Pair.off (s.port p).pairs i

def State.setPair (s : State) (p : EPort) (i : Nat) (v : Pair) : State :=
  s.setPort p { s.port p with pairs := poke Pair.off (s.port p).pairs i v }

def portPath : EPort → Path
  | .a => .epA
  | .b => .epB

def pathPort : Path → Option EPort
  | .epA => some .a
  | .epB => some .b
  | .i3c => none

/-- The port's link is up (`EP_LINK_STAT.STATE`). -/
def State.linkUp (s : State) (p : EPort) : Bool := fld (s.reg (oLinkStat p)) 1 0 = 2

/-- A 64-bit register pair. -/
def State.reg64 (s : State) (o : Nat) : Nat := join64 (s.reg o) (s.reg (o + 4))

def State.setReg64 (s : State) (o v : Nat) : State := (s.setReg o (lo32 v)).setReg (o + 4) (hi32 v)

/-! ## Units in service (R368, R369, R471) -/

/-- A unit of a kind is retired: kinds 1 core, 2 slice, 3 pseudo-channel, 4 lane, 5 shared engine (R366). -/
def State.isRetired (s : State) (kind die unit : Nat) : Bool :=
  s.flash.retired.any fun u => u.die.val = die && u.kind = kind && u.unit = unit

/-- A retired slice or shared engine takes its die out of service (R368). -/
def State.dieOut (s : State) (d : Nat) : Bool :=
  s.flash.retired.any fun u => u.die.val = d && (u.kind = 2 || u.kind = 5)

/-- The dies the member carries. -/
def State.diesCarried (s : State) : List Nat := List.range s.fuses.dies

def State.diesInService (s : State) : List Nat := s.diesCarried.filter fun d => !s.dieOut d

/-- The stack of a die is withdrawn (R172, R369). -/
def State.stackOut (s : State) (d : Nat) : Bool :=
  s.dieOut d || s.flash.retired.any fun u => u.die.val = d && u.kind = 3

/-- The dies whose stacks contexts may use. -/
def State.stacks (s : State) : List Nat := s.diesCarried.filter fun d => !s.stackOut d

/-- A core of the retirement mask (R24, R369). -/
def State.coreRetired (s : State) (d n : Nat) : Bool := s.dieOut d || s.isRetired 1 d n

/-- A reset level is asserted. -/
def State.inReset (s : State) (l : RstLevel) : Bool := s.rst.active.any fun e => e.1 = l

def State.pkgInReset (s : State) : Bool := s.inReset .cold || s.inReset .warm

/-- The die is in die reset, or in a wider one. -/
def State.dieInReset (s : State) (d : Nat) : Bool :=
  s.pkgInReset || s.rst.active.any fun e => match e.1 with | .die x => x.val = d | _ => false

/-- `CORE_STATE_n.STATE` reads in reset: a core reset, or one of its die. -/
def State.coreInReset (s : State) (d n : Nat) : Bool :=
  s.dieInReset d || s.rst.active.any fun e => match e.1 with | .core x m => x.val = d && m.val = n | _ => false

/-- The core runs: it is not retired and not in core reset (R24). -/
def State.coreRuns (s : State) (d n : Nat) : Bool := !s.coreRetired d n && !s.coreInReset d n

/-- The enable of an island's block (R421), numbered as in `CLK_MUX_STAT_d`: the seven engines have the last bits of
`CLK_EN_BLK_d`. -/
def State.islandEnabled (s : State) (d n : Nat) : Bool :=
  if n < 32 then bit (s.reg (oClkEnCoreLo d)) n else if n < 48 then bit (s.reg (oClkEnCoreHi d)) (n - 32)
  else bit (s.reg (oClkEnBlk d)) (if n < 64 then n - 48 else if n ≤ 70 then n - 45 else n - 55)

/-- The island receives a clock: its block is enabled (R421) and its multiplexer does not hang (R425). -/
def State.clocked (s : State) (d n : Nat) : Bool := s.islandEnabled d n && !s.hung.contains (d * 128 + n)

/-- The core works: it runs and has a clock. -/
def State.coreWorks (s : State) (d n : Nat) : Bool := s.coreRuns d n && s.clocked d n

/-- A port is in port reset by number (0 EPA, 1 EPB, 2 and 3 Ethernet, 16 to 47 Limfele). -/
def State.portInReset (s : State) (u : Nat) : Bool :=
  s.pkgInReset || s.rst.active.any fun e => match e.1 with | .port v => v.val = u | _ => false

/-- The die of a port (R17). -/
def portDie (u : Nat) : Nat := if u < 4 then u % 2 else (u - 16) / 4

/-- The firmware is in recovery mode (R455). -/
def State.recovery (s : State) : Bool := fld (s.reg oBootStat) 31 29 = 5

/-- The package is in service: from the ready report until the next reset (R171). -/
def State.service (s : State) : Bool := s.boot.ready

/-! ## Power domains (R22, R392, R393) -/

/-- A separately switched power domain: sixty of each die, and four of the package. -/
inductive Domain where
  | core (die core : Nat)
  | sliceGroup (die group : Nat)
  | hbm (die : Nat)
  | dovetail (die : Nat)
  | limfele (die : Nat)
  | engines (die : Nat)
  | alwaysOn | management | etcen | ethernet
  deriving DecidableEq, Repr

/-- The domains of a member with so many dies. -/
def domains (dies : Nat) : List Domain :=
  ((List.range dies).flatMap fun d =>
    (List.range 48).map (.core d) ++ (List.range 8).map (.sliceGroup d) ++ [.hbm d, .dovetail d, .limfele d, .engines d]) ++
    [.alwaysOn, .management, .etcen, .ethernet]

/-- No 48 V, or OFF: nothing of the package runs. -/
def State.dead (s : State) : Bool := !s.rst.powered || s.pkg = .off

/-- The die of a domain that lies on one. -/
def Domain.die? : Domain → Option Nat
  | .core d _ | .sliceGroup d _ | .hbm d | .dovetail d | .limfele d | .engines d => some d
  | .alwaysOn | .management | .etcen | .ethernet => none

/-- The domains that run in recovery mode (R455). -/
def Domain.inRecovery : Domain → Bool
  | .sliceGroup d _ => d = 0
  | .alwaysOn | .management | .etcen => true
  | _ => false

/-- A domain is switched on: R393's table by package state, a retired core's never (R24), none of a die out of service (R369), and
in recovery mode those that R455 lists. The table says nothing of dovetail links, which stay on while the HBM does (DESIGN CHOICE,
log entry 35), and the HBM in self-refresh counts as on. -/
def State.domainOn (s : State) (x : Domain) : Bool :=
  let work : Bool := match s.pkg with | .on | .idle => true | _ => false
  !s.dead && (!s.recovery || x.inRecovery) && (match x.die? with | some d => !s.dieOut d | none => true) && match x with
    | .core d n => work && !s.coreRetired d n
    | .sliceGroup _ _ | .engines _ => work
    | .limfele _ | .ethernet => s.pkg != .sleep
    | .hbm _ | .dovetail _ | .alwaysOn | .management | .etcen => true

/-! ## Dies and their dovetail links (R14, R16) -/

/-- The columns of the member's grid of dies. -/
def dieCols (dies : Nat) : Nat := if dies ≤ 2 then 2 else dies / 2

/-- The neighbours of a die in ascending order: its links are numbered in this order (R14, R138). -/
def neighbours (dies d : Nat) : List Nat :=
  let c := dieCols dies
  (List.range dies).filter fun e => (e / c = d / c && (e % c = d % c + 1 || d % c = e % c + 1)) || (e % c = d % c && e / c != d / c)

/-- The dimension order: along the row first, then along the column; the dies after the first, the last one included. -/
def dimPath (cols : Nat) : Nat → Nat → Nat → List Nat
  | 0, _, _ => []
  | n + 1, s, t =>
    if s = t then []
    else
      let e := if s % cols < t % cols then s + 1 else if t % cols < s % cols then s - 1 else if s < t then s + cols else s - cols
      e :: dimPath cols n e t

/-- The dies from which a die is reached in at most `n` hops through dies that are `ok`. -/
def reachedIn (dies : Nat) (ok : Nat → Bool) (t : Nat) : Nat → List Nat
  | 0 => [t]
  | n + 1 =>
    let r := reachedIn dies ok t n
    (List.range dies).filter fun d => r.contains d || (ok d && (neighbours dies d).any r.contains)

/-- The shortest route through dies that are `ok`, at each hop to the lower-numbered die. -/
def detour (dies : Nat) (ok : Nat → Bool) : Nat → Nat → Nat → Option (List Nat)
  | 0, s, t => if s = t then some [] else none
  | n + 1, s, t =>
    if s = t then some []
    else match (List.range n.succ).find? fun k => (reachedIn dies ok t k).any fun e => (neighbours dies s).contains e with
      | none => none
      | some k => match (neighbours dies s).find? fun e => (reachedIn dies ok t k).contains e && (ok e || e = t) with
        | none => none
        | some e => (detour dies ok n e t).map fun l => e :: l

/-- The route of unplanned traffic between two dies, as the dies after the first (R16). None when a die at its end is out of
service or no route through dies in service exists. -/
def State.route (s : State) (a b : Nat) : Option (List Nat) :=
  let ok (d : Nat) : Bool := decide (d < s.fuses.dies) && !s.dieOut d
  if !ok a || !ok b then none
  else
    let p := dimPath (dieCols s.fuses.dies) s.fuses.dies a b
    if p.all ok then some p else detour s.fuses.dies ok s.fuses.dies a b

/-- The dovetail link of die `d` to a neighbour, and the neighbour on a link (R138). -/
def linkTo (dies d e : Nat) : Option Nat := (neighbours dies d).findIdx? (· = e)
def linkDie (dies d l : Nat) : Option Nat := (neighbours dies d)[l]?

/-! ## Partition -/

/-- This package's node number (R244, `FAB_NODE`). -/
def State.node (s : State) : Nat := fld (s.reg oFabNode) 11 0
def State.partition (s : State) : Nat := fld (s.reg oFabPart) 5 0
/-- The members in service: not lost and not departed (R25, R370). -/
def State.inService (s : State) : List Nat := s.members.filter fun m => !s.lostNodes.contains m
/-- The lead is the member with the lowest node number in service (R25). -/
def State.leadNode (s : State) : Option Nat := s.inService.head?
def State.isLead (s : State) : Bool := s.leadNode = some s.node && !s.departed
def State.memberIndex (s : State) (n : Nat) : Nat := s.members.idxOf n
/-- The other members in service. -/
def State.peers (s : State) : List Nat := s.inService.filter fun m => m != s.node
/-- The partition is DEGRADED, from the loss of a member until RESUME (R370, R373). -/
def State.degraded (s : State) : Bool := !s.lostNodes.isEmpty

/-- One output to every other member in service. -/
def State.toPeers (s : State) (f : Nat → Out) : State := s.emits (s.peers.map f)

/-- The home of a handle (R244): the member index H, and the node of that member. -/
def homeIndex (members handle : Nat) : Nat := (handle * 0x9E3779B1 % 2 ^ 32) * members / 2 ^ 32
def State.homeNode (s : State) (handle : Nat) : Nat :=
  (s.members[homeIndex s.members.length handle]?).getD 0xFFF
def State.isHome (s : State) (handle : Nat) : Bool := !s.members.isEmpty && s.homeNode handle = s.node

/-! ## Contexts -/

def State.ctx (s : State) (c : Nat) : Option Ctx := assoc c s.ctxs

def State.setCtx (s : State) (c : Nat) (x : Ctx) : State := { s with ctxs := enlist c x s.ctxs }

def State.dropCtx (s : State) (c : Nat) : State := { s with ctxs := unlist c s.ctxs }

/-- The state with a context changed, where it exists. -/
def State.modCtx (s : State) (c : Nat) (f : Ctx → Ctx) : State :=
  match s.ctx c with
  | none => s
  | some x => s.setCtx c (f x)

/-- The context that carries a job tag (R376). -/
def State.ctxOfJob (s : State) (job : Nat) : Option (Nat × Ctx) := s.ctxs.find? fun e => e.2.job = job

/-- The context that carries a job tag and is active. -/
def State.activeOfJob (s : State) (job : Nat) : Option (Nat × Ctx) :=
  s.ctxs.find? fun e => e.2.job = job && e.2.state = .active

def Ctx.seq? (x : Ctx) (h : Nat) : Option Seq := x.seqs.find? fun q => q.handle = h

def Ctx.setSeq (x : Ctx) (q : Seq) : Ctx :=
  { x with seqs := if x.seqs.any (·.handle = q.handle) then x.seqs.map fun r => if r.handle = q.handle then q else r
                   else x.seqs ++ [q] }

def Ctx.dropSeq (x : Ctx) (h : Nat) : Ctx := { x with seqs := x.seqs.filter (·.handle != h) }

def Ctx.table? (x : Ctx) (h : Nat) : Option Table := x.tables.find? fun t => t.handle = h

def Ctx.setTable (x : Ctx) (t : Table) : Ctx :=
  { x with tables := if x.tables.any (·.handle = t.handle) then x.tables.map fun r => if r.handle = t.handle then t else r
                     else x.tables ++ [t] }

def Ctx.dropTable (x : Ctx) (h : Nat) : Ctx := { x with tables := x.tables.filter (·.handle != h) }

def State.seq? (s : State) (c h : Nat) : Option Seq := (s.ctx c).bind fun x => x.seq? h

def State.setSeq (s : State) (c : Nat) (q : Seq) : State := s.modCtx c fun x => x.setSeq q

/-- A step of a context is in flight, or a plan for it is published (R255). -/
def State.planned (s : State) (job : Nat) : Bool :=
  s.plans.any (·.job = job) || (s.attempt.map fun a => decide (a.plan.job = job)).getD false

/-- The partition is idle as seen here: no step in flight and no plan published (R251). -/
def State.idle (s : State) : Bool := s.plans.isEmpty && s.attempt.isNone

/-- The context of the step in flight, or the one of the last commit: R253 speaks of the step of the context. -/
def State.stepOf (s : State) (c : Nat) : Bool := (s.attempt.map fun a => decide (a.ctx = c)).getD false

def State.modAttempt (s : State) (f : Attempt → Attempt) : State :=
  match s.attempt with
  | none => s
  | some a => { s with attempt := some (f a) }

/-- Whether this package has sent its seal for the step in flight (R253). -/
def State.sealSent (s : State) : Bool := match s.attempt with | some a => a.sealed | none => false

/-- The step in flight, as the fault history records it; 0 outside a step (R366). -/
def State.stepNow (s : State) : Nat := (s.attempt.map fun a => a.plan.step).getD 0

/-! ## Frames (R163, R178, R378) -/

/-- Frames of a die's stack. -/
def framesPerDie : Nat := 26214

/-- A frame as one number: die, then frame. -/
def frameKey (d f : Nat) : Nat := d * 2 ^ 15 + f

/-- The lowest free frame of a die: frames in use are listed in rising order. The spec does not say which free
frame is taken (DESIGN CHOICE, log entry 9). -/
def lowestFree (used : List Nat) : Nat → Nat → Option Nat
  | 0, _ => none
  | fuel + 1, k => if used.contains k then lowestFree used fuel (k + 1) else some k

def State.freeFrame (s : State) (d : Nat) : Option Nat :=
  if s.stackOut d then none
  else
    let used := s.frames.filter fun k => k / 2 ^ 15 = d
    lowestFree used (min framesPerDie (used.length + 1)) (frameKey d 0)

def State.freeCount (s : State) (d : Nat) : Nat :=
  if s.stackOut d then 0 else framesPerDie - (s.frames.filter fun k => k / 2 ^ 15 = d).length

def State.takeFrame (s : State) (k : Nat) : State := { s with frames := addKey k s.frames }

def State.giveFrame (s : State) (k : Nat) : State := { s with frames := s.frames.filter (· != k) }

def State.giveFrames (s : State) (ks : List Nat) : State := { s with frames := s.frames.filter fun k => !ks.contains k }

/-- The first die with a free frame, from the one at index `i` of the usable dies on, wrapping (R378). -/
def State.frameFrom (s : State) (i : Nat) : Option Nat :=
  let ds := s.stacks
  ((ds.drop (i % max 1 ds.length)) ++ ds.take (i % max 1 ds.length)).findSome? fun d => s.freeFrame d

end Sys2Proof.Machine
end

