-- ==== Sys2Proof/Machine/Flags.lean ====
section
/-! DEFINITION. Counters, sticky bits and cause bits: every flag that an operation sets in a register. -/

namespace Sys2Proof.Machine

/-- Adds to a counter field that stops at its largest value. -/
def State.bump (s : State) (o msb lsb n : Nat) : State :=
  s.setRegFld o msb lsb (satAdd (2 ^ (msb + 1 - lsb) - 1) (fld (s.reg o) msb lsb) n)

/-- Adds to a 64-bit counter pair that stops at 2^64 - 1. -/
def State.bump64 (s : State) (o n : Nat) : State :=
  if n = 0 then s else s.setReg64 o (satAdd (2 ^ 64 - 1) (s.reg64 o) n)

/-- Sets bits of a register. -/
def State.orReg (s : State) (o : Nat) (v : Word) : State := s.setReg o (s.reg o ||| v)

/-- Adds to a counter field of a management register. -/
def State.mbump (s : State) (o msb lsb n : Nat) : State :=
  s.setMregFld o msb lsb (satAdd (2 ^ (msb + 1 - lsb) - 1) (fld (s.mreg o) msb lsb) n)

/-! ## QSTAT (R57 to R61) -/

/-- The sticky bits that a step's events set (R57). -/
def QEvents.sticky (e : QEvents) : Word :=
  BitVec.ofNat 32 ((if e.satBlk > 0 then 16 else 0) + (if e.flushBlk > 0 then 8 else 0) +
    (if e.fp8OutSat > 0 then 4 else 0) + (if e.accSat > 0 then 2 else 0) + (if e.invalid then 1 else 0))

/-- The counters of a step's events, in the order of the block (offsets 0x10 to 0x54). -/
def QEvents.counts (e : QEvents) : List Nat :=
  [e.zeroBlk, e.flushBlk, e.satBlk, e.invalidBlk, e.outlierOvf, e.wideRecomp, e.budgetExh, e.accSat, e.fp8OutSat]

/-- The commit's additions to the block of context `c` (R57, R60): counters and step unless frozen, sticky bits
always, and then a pending clear. -/
def State.qstatCommit (s : State) (c step : Nat) (e : QEvents) : State :=
  let b := oQstat c
  let s := s.orReg (b + 4) e.sticky
  let s := if bit (s.reg b) 1 then s
    else ((List.range 9).foldl (fun s i => s.bump64 (b + 0x10 + 8 * i) ((e.counts[i]?).getD 0)) s).setReg64 (b + 8) step
  if bit (s.reg b) 2 then
    let s := (List.range 9).foldl (fun s i => s.setReg64 (b + 0x10 + 8 * i) 0) (s.setReg (b + 4) 0#32)
    (s.setReg64 (b + 8) step).setRegBit b 2 false
  else s

/-- `CTX_CREATE` returns the block to its reset values (R59). -/
def State.qstatReset (s : State) (c : Nat) : State :=
  (List.range 22).foldl (fun s i => s.setReg (oQstat c + 4 * i) 0#32) s

/-- `CTX_CREATE` clears the routing and exit counters (R242) and the speculation counters. -/
def State.countersReset (s : State) (c : Nat) : State :=
  let s := (List.range 14).foldl (fun s i => s.setReg (oRoute c + 4 * i) 0#32) s
  (List.range 8).foldl (fun s i => s.setReg (oSpec c + 4 * i) 0#32) s

/-! ## Fault history and classing (R366, R367) -/

/-- The newest entry written to the ring; when it is full, the oldest entry that is not a classing is lost. -/
def pushHistory (h : List FaultEntry) (e : FaultEntry) : List FaultEntry :=
  if h.length < 65536 then h ++ [e]
  else match h.findIdx? (fun x => x.event != 6) with
    | some i => h.eraseIdx i ++ [e]
    | none => h

def State.logEntry (s : State) (u : UnitName) (event step : Nat) (sram : Bool) : State :=
  let e : FaultEntry :=
    { kind := u.kind, die := u.die.val, unit := u.unit, event := event, step := step % 2 ^ 32, time := s.time, sram := sram }
  { s with flash := { s.flash with history := pushHistory s.flash.history e } }

def State.logFault (s : State) (u : UnitName) (event step : Nat) : State := s.logEntry u event step false

def FaultEntry.of (e : FaultEntry) (u : UnitName) : Bool := e.kind = u.kind && e.die = u.die.val && e.unit = u.unit

/-- A unit that is classed permanently faulty: an entry with EVENT 0x6 (R367). -/
def State.classed (s : State) (u : UnitName) : Bool := s.flash.history.any fun e => e.event = 6 && e.of u

/-- Twenty-four hours of common time, in ns. -/
def dayNs : Nat := 24 * 3600 * 10 ^ 9

/-- Three corrected events within 24 hours of common time class a unit (R367). -/
def State.corrected3 (s : State) (u : UnitName) : Bool :=
  3 ≤ (s.flash.history.filter fun e => e.event = 1 && !(e.kind = 1 && e.sram) && e.of u && s.time < e.time + dayNs).length

def State.classIf (s : State) (u : UnitName) (step : Nat) (b : Bool) : State :=
  if b && !s.classed u then s.logFault u 6 step else s

/-- A corrected event of a unit (R367). -/
def State.correctedEvent (s : State) (u : UnitName) (step : Nat) : State :=
  let s := s.logFault u 1 step
  s.classIf u step (s.corrected3 u)

/-- The units classed and not yet retired: what `INT_RETIRE_PENDING` counts. -/
def State.retirePending (s : State) (kinds : List Nat) : Nat :=
  (s.flash.history.filter fun e => e.event = 6 && kinds.contains e.kind && !s.isRetired e.kind e.die e.unit).length

/-! ## Reset causes (R429, R432) -/

def State.cause (s : State) (i : Nat) : State := s.setRegBit oRstCause i true
def State.dieCause (s : State) (d i : Nat) : State := s.setRegBit (oDieCause d) i true

/-! ## Access log (R290, R423) -/

/-- `EP_ERR_LOG` of the port whose access was refused, and `CLK_GATED_LOG` for a gated access. -/
def State.logAccess (s : State) (p : Path) (o status : Nat) (write : Bool) : State :=
  let s := if status = 0x31 then (s.bump oGatedLog 31 24 1).setRegFld oGatedLog 23 0 o else s
  match pathPort p with
  | none => s
  | some e => s.setReg (oErrLog e) (BitVec.ofNat 32
      (2 ^ 31 + (if write then 2 ^ 26 else 0) + (if status = 0x31 then 1 else 2) * 2 ^ 24 + o % 2 ^ 24))

end Sys2Proof.Machine
end

