-- ==== Sys2Proof/Machine/Clamp.lean ====
section
/-! DEFINITION. The clamp: the effective cap and class, accepted caps, floor clocks, the group clocks and the spread
profile (R396, R399 to R406, R409, R410, R417). -/

namespace Sys2Proof.Machine

def State.modPower (s : State) (f : Power → Power) : State := { s with power := f s.power }

/-! ## The effective cap (R402, R404) -/

/-- CAP, CLASS, ORDER and PHASE_LEARNED of a `PWR_CAP` word; `PWR_SAFE` has its cap and class in the same places. -/
def capOf (w : Word) : Nat := fld w 11 0
def classOf (w : Word) : Bool := bit w 12
def orderOf (w : Word) : Nat := fld w 30 28
def phaseOf (w : Word) : Bool := bit w 31

/-- The cap lies in the range of its class (R402). -/
def capInRange (dies : Nat) (w : Word) : Bool :=
  if classOf w then decide (minCap dies ≤ capOf w ∧ capOf w ≤ classACap dies)
  else decide (classACap dies ≤ capOf w ∧ capOf w ≤ maxCap dies)

/-- An input, leak, coolant or heartbeat condition holds. -/
def Power.condition (p : Power) : Bool := p.vinLow || p.leak || p.cool || p.hbExpired

/-- A thermal limit below the class A range applies. -/
def State.thermalLow (s : State) : Bool :=
  match s.power.thermal with | some t => decide (t < 10 * classACap s.fuses.dies) | none => false

/-- The effective cap in units of 10 W (R404). -/
def State.effCap (s : State) : Nat :=
  let p := s.power
  let c := match p.thermal with | some t => min p.cap (t / 10) | none => p.cap
  let c := if p.condition then min c (minCap s.fuses.dies) else c
  if p.hbExpired then min c (capOf (s.mreg mSafe)) else c

/-- The effective floor class (R404): class B while the minimum cap or a low thermal limit applies. -/
def State.effB (s : State) : Bool := s.power.classB || s.power.condition || s.thermalLow

/-- The floor clock in MHz: 1.6 GHz in class A and 1.2 GHz in class B (R148), and in phase-learned mode 0.6 GHz (R405). -/
def State.floorMhz (s : State) : Nat := if s.power.phaseLearned then 600 else if s.effB then 1200 else 1600

/-- The fastest island clock (R395). -/
def topMhz : Nat := 2100

/-- The spread's depth in force in units of 0.1% (R415): 0 while it is off. -/
def Power.depth (p : Power) : Nat := if bit p.ssc 31 then fld p.ssc 4 0 else 0

/-- The lowest nominal frequency that the clamp sets: the lowest point of the spread lies at or above the floor (R416). The
phase-learned mode keeps no floor (R405). -/
def State.lowMhz (s : State) : Nat :=
  if s.power.phaseLearned then s.floorMhz else cdiv (s.floorMhz * 1000) (1000 - s.power.depth)

/-- The mean frequency of an island set to `mhz`, in units of 0.5 kHz: its setting less half the depth (R416). -/
def State.meanOf (s : State) (mhz : Nat) : Nat := mhz * (2000 - s.power.depth)

/-- No running group stands below the floor, but under hard throttle. -/
def State.keepFloor (s : State) : State :=
  if s.power.hard then s
  else s.modPower fun p => { p with clocks := p.clocks.map fun f => if f = 0 then 0 else max f s.lowMhz }

/-- `PWR_STAT` shows the conditions and the effective cap. -/
def State.refreshPower (s : State) : State :=
  let p := s.power
  let b (x : Bool) (i : Nat) : Nat := if x then 2 ^ i else 0
  let thr := match p.thermal with | some t => decide (t < 10 * p.cap) | none => false
  let w := s.mreg mStat
  let w := BitVec.ofNat 32 (fld w 31 23 * 2 ^ 23 + b p.hbExpired 22 + b p.cool 21 + b p.leak 20 + b p.hard 19 + b thr 18 +
    b p.vinLow 17 + b s.effB 12 + s.effCap % 2 ^ 12)
  (s.setMreg mStat w).keepFloor

/-! ## Accepted caps (R403, R404) -/

/-- The accepted write comes into force. -/
def State.forceCap (s : State) : State :=
  match s.power.waiting with
  | none => s
  | some w => (s.modPower fun p => { p with
      cap := capOf w, classB := classOf w, order := orderOf w, phaseLearned := phaseOf w, waiting := none, capHeld := false }).refreshPower

/-- A condition of R404 holds a written cap back, unless it is lower than the cap in force (DEDUCED, log entry 28). -/
def State.holdsCap (s : State) (w : Word) : Bool := (s.power.condition || s.thermalLow) && decide (s.power.cap ≤ capOf w)

/-- The accepted write is due under R403: it comes into force, or waits for the end of the conditions. -/
def State.takeCap (s : State) : State :=
  match s.power.waiting with
  | none => s
  | some w => if s.holdsCap w then s.modPower fun p => { p with capHeld := true } else s.forceCap

/-- A condition has changed: the effective cap is recomputed, and an accepted write that waited for the end of the
conditions comes into force. -/
def State.recap (s : State) : State :=
  if s.power.condition || s.thermalLow || !s.power.capHeld then s.refreshPower else (s.refreshPower).forceCap

/-- A write of `PWR_CAP` (R402, R403): refused, or accepted and copied into `BKUP_0`. -/
def State.writeCap (s : State) (w : Word) : Option State :=
  let w := w &&& 0xF0001FFF#32
  if !capInRange s.fuses.dies w || 6 ≤ orderOf w then none
  else
    let s := ((s.setMreg mCap w).setReg (oBkup 0) w).modPower fun p => { p with waiting := some w, capHeld := s.holdsCap w }
    some (if s.attempt.isNone then s.takeCap else s)

/-- A write of `PWR_SAFE` (R402, R410), copied into `BKUP_1`. -/
def State.writeSafe (s : State) (w : Word) : Option State :=
  let w := w &&& 0x00FF1FFF#32
  if !capInRange s.fuses.dies w then none
  else some ((s.setMreg mSafe w).setReg (oBkup 1) w).refreshPower

/-- After a package warm reset the clamp reloads its settings from `BKUP_0` and `BKUP_1` (R403, R410). -/
def State.reloadCap (s : State) : State :=
  let w := s.reg (oBkup 0)
  let s := (s.setMreg mCap w).setMreg mSafe (s.reg (oBkup 1))
  (s.modPower fun p => { p with
    cap := capOf w, classB := classOf w, order := orderOf w, phaseLearned := phaseOf w, waiting := none
    capHeld := false }).refreshPower

/-! ## Group clocks (R399 to R401) -/

/-- The groups in the priority order: 0 compute, 1 memory, 2 links. -/
def groupOrder (order : Nat) : List Nat :=
  match order with
  | 0 => [0, 1, 2]
  | 1 => [0, 2, 1]
  | 2 => [1, 0, 2]
  | 3 => [1, 2, 0]
  | 4 => [2, 0, 1]
  | _ => [2, 1, 0]

def State.groupMhz (s : State) (g : Nat) : Nat := s.power.clocks.getD g 0

/-- The group of an island, numbered as in `CLK_MUX_STAT_d`. -/
def groupOf (island : Nat) : Nat := if island < 48 || (64 ≤ island && island ≤ 70) then 0 else if island ≤ 71 then 1 else 2

/-- A group's clock is set; what droop had lowered in it runs with the group again (log entry 28). -/
def State.setGroup (s : State) (g mhz : Nat) : State :=
  s.modPower fun p => { p with
    clocks := p.clocks.set g mhz, lowered := p.lowered.filter fun e => groupOf (e.1 % 128) != g }

/-- A free clock between two bounds: how far the clamp goes is not stated (log entry 28). -/
def State.freeClock (s : State) (g lo hi : Nat) : State :=
  let r := s.free
  r.2.setGroup g (lo + r.1.toNat % (hi - lo + 1))

/-- Above the effective cap: the first group in order that stands above the floor is lowered, and no other. -/
def State.lowerGroups (s : State) : State :=
  match (groupOrder s.power.order).find? fun g => s.lowMhz < s.groupMhz g with
  | none => s
  | some g => s.freeClock g s.lowMhz (s.groupMhz g - 1)

/-- Below it: the last group in order that stands below the top may rise. -/
def State.raiseGroups (s : State) : State :=
  match (groupOrder s.power.order).reverse.find? fun g => s.groupMhz g < topMhz with
  | none => s
  | some g => s.freeClock g (s.groupMhz g) topMhz

/-- The phase-learned mode sets the groups as it has learned, down to 0.6 GHz: any clock below the cap; above it none rises, and one is
lowered while one can be, so that R32 and R401 hold in this mode too (R405; what is learned is free: log entry 28). -/
def State.learnClocks (s : State) (above : Bool) : State :=
  let s := if above then s.lowerGroups else s
  [0, 1, 2].foldl (fun s g => if above then s.freeClock g (min 600 (s.groupMhz g)) (s.groupMhz g) else s.freeClock g 600 topMhz) s

/-- Every group stands at the floor. -/
def State.atFloor (s : State) : Bool := s.power.clocks.all fun f => f ≤ s.lowMhz

/-! ## Boundaries -/

/-- A written spread profile comes into force, and every group that it would take below the floor rises (R416, R417). -/
def State.takeSsc (s : State) : State := (s.modPower fun p => { p with ssc := s.reg oClkSsc }).keepFloor

/-- A written shadow period, an accepted cap and a written spread profile come into force at a step boundary (R354, R403,
R417). -/
def State.atBoundary (s : State) : State := ({ s with period := fld (s.reg oIntCtl) 10 0 }.takeSsc).takeCap

end Sys2Proof.Machine
end

