-- ==== Sys2Proof/Machine/Operands.lean ====
section
/-! DEFINITION. Operand forms: the descriptor header and bodies by byte offset (R300, R302 and the body tables of
each chapter), their reserved bits and value faults (R301, R490), and records in host memory. -/

namespace Sys2Proof.Machine

/-! ## Status codes (the table of R306) -/

def stOk : Nat := 0x00
def stEos : Nat := 0x01
def stLimit : Nat := 0x02
def stCancelled : Nat := 0x03
def stFinished : Nat := 0x04
def stPoisoned : Nat := 0x10
def stFault : Nat := 0x11
def stPage : Nat := 0x12
def stTable : Nat := 0x13
def stTier : Nat := 0x14
def stNoPages : Nat := 0x15
def stSuspect : Nat := 0x20
def stRetracted : Nat := 0x21
def stDegraded : Nat := 0x22
def stDrain : Nat := 0x23
def stBad : Nat := 0x30
def stGated : Nat := 0x31
def stDenied : Nat := 0x32
def stTimeout : Nat := 0x33

/-! ## Words of a descriptor -/

/-- The word at a byte offset of a structure. -/
def wordAt (ws : List Word) (off : Nat) : Word := (ws[off / 4]?).getD 0#32

/-- A field of the word at a byte offset. -/
def fieldAt (ws : List Word) (off msb lsb : Nat) : Nat := fld (wordAt ws off) msb lsb

/-- A 48-bit context address or a 64-bit host address in two words. -/
def addrAt (ws : List Word) (lo hi : Nat) : Nat := join64 (wordAt ws lo) (wordAt ws hi)
def addr48 (ws : List Word) (lo hi : Nat) : Nat := (wordAt ws lo).toNat + 2 ^ 32 * fieldAt ws hi 15 0

def hOpcode (ws : List Word) : Nat := fieldAt ws 0 7 0
def hIrqNow (ws : List Word) : Bool := bit (wordAt ws 0) 8
def hContext (ws : List Word) : Nat := fieldAt ws 0 31 16
def hTag (ws : List Word) : Word := wordAt ws 4
def hObject (ws : List Word) : Nat := (wordAt ws 8).toNat
def hLength (ws : List Word) : Nat := (wordAt ws 12).toNat

/-! ## Opcodes (R301) -/

def opCtxCreate : Nat := 0x01
def opCtxDestroy : Nat := 0x02
def opLoad : Nat := 0x03
def opJigLoad : Nat := 0x04
def opSeqOpen : Nat := 0x10
def opSeqAppend : Nat := 0x11
def opSeqCancel : Nat := 0x12
def opSeqClose : Nat := 0x13
def opSeqParams : Nat := 0x14
def opPageMap : Nat := 0x20
def opPageUnmap : Nat := 0x21
def opKvShip : Nat := 0x22
def opKvAccept : Nat := 0x23
def opStepPolicy : Nat := 0x30
def opBenchSplit : Nat := 0x31
def opFence : Nat := 0x40
def opCheckpoint : Nat := 0x41
def opRestore : Nat := 0x42
def opTrainStep : Nat := 0x50
def opDiag : Nat := 0x60

def opcodes : List Nat :=
  [0x01, 0x02, 0x03, 0x04, 0x10, 0x11, 0x12, 0x13, 0x14, 0x20, 0x21, 0x22, 0x23, 0x30, 0x31, 0x40, 0x41, 0x42, 0x50, 0x60]

/-- OBJECT is reserved for the opcode. -/
def objectReserved (op : Nat) : Bool :=
  [0x01, 0x02, 0x03, 0x30, 0x31, 0x40, 0x41, 0x42, 0x50].contains op

/-- LENGTH is reserved for the opcode. -/
def lengthReserved (op : Nat) : Bool := op != opLoad && op != opJigLoad

/-- The bits of a body that belong to fields, for the twelve words from offset 0x10 on; the other bits are
reserved. -/
def bodyMask (ws : List Word) : List Word :=
  let f := 0xFFFFFFFF#32
  let z (n : Nat) : List Word := List.replicate n 0#32
  let stop := 0x800FFFFF#32
  let op := hOpcode ws
  if op = opCtxCreate then [f, f, 0xFFFFF#32, 0x7FFFFFF#32, f, 0xFFFF#32, 0x7FFFFFF#32, 0x7FFFFFF#32] ++ z 4
  else if op = opLoad then [0x3F#32, f, f, f, f, f, f, 0xFFFF#32] ++ z 4
  else if op = opJigLoad then [f, 0xFFFF#32, f, f, 1#32] ++ z 7
  else if op = opSeqOpen then
    [f, f, 0x7FFFFF#32, 0x1FFFFFFF#32, 0x7FFFFF#32, stop, stop, 0x3FF#32, 0xFFFF#32, 0x7FFFFF#32] ++ z 2
  else if op = opSeqAppend then [f, f, 0x7FFFFF#32, 0x0C000000#32, 0x7FFFFF#32] ++ z 7
  else if op = opSeqCancel then [1#32] ++ z 11
  else if op = opSeqParams then
    if fieldAt ws 0x10 1 0 = 1 then
      [0x07FF000F#32, f, 0xFFFF#32, f, 0xFFFF#32, f, f, f, f, f] ++ z 2
    else [0x000FFFFF#32, f, f, f, f, f, f, f, f, f, f] ++ z 1
  else if op = opPageMap then [f, 3#32, f, 0x7FFFFF#32, f, 0xFFFF#32] ++ z 6
  else if op = opPageUnmap then [0xFFFF#32] ++ z 11
  else if op = opKvShip then [0x003F0FFF#32, f] ++ z 10
  else if op = opKvAccept then
    [0x003F0FFF#32, f, 0x1FFFFFFF#32, 0x7FFFFF#32, stop, stop, 0x3FF#32, 0xFFFF#32, 0x7FFFFF#32] ++ z 3
  else if op = opStepPolicy then
    if fieldAt ws 0x10 1 0 = 1 then [3#32, 0x3FF#32, 0x3FFF#32] ++ z 9
    else [3#32, 0x7FFF3FFF#32, 0x7FFF3FFF#32, 0xFFFF#32, f] ++ z 7
  else if op = opBenchSplit then [0xFFFF003F#32] ++ List.replicate 8 f ++ z 3
  else if op = opFence then [3#32] ++ z 11
  else if op = opCheckpoint ∨ op = opRestore then [0xF#32, f, f, f, 0x7FFFFFF#32, 0x7FFFFFF#32] ++ z 6
  else if op = opTrainStep then [0xFF#32, f, 0xFFFF#32] ++ List.replicate 7 f ++ [0xFFFF#32, 0#32]
  else if op = opDiag then List.replicate 5 f ++ z 7
  else z 12

/-- The lowest byte of a word that holds a set bit. -/
def lowByte (w : Word) : Nat :=
  if w &&& 0xFF#32 != 0#32 then 0 else if w &&& 0xFFFF#32 != 0#32 then 1 else if w &&& 0xFFFFFF#32 != 0#32 then 2 else 3

/-- The offsets of the bytes that hold the set reserved bits of the body, lowest of each word (R301). -/
def reservedFaults (ws : List Word) : List Nat :=
  ((List.range 12).zip (bodyMask ws)).filterMap fun iw =>
    let bad := wordAt ws (0x10 + 4 * iw.1) &&& ~~~ iw.2
    if bad = 0#32 then none else some (0x10 + 4 * iw.1 + lowByte bad)

/-- The lowest offset of a list of faults. -/
def lowest (l : List Nat) : Option Nat := l.foldl (fun m x => some (match m with | none => x | some y => min x y)) none

def faultIf (b : Bool) (off : Nat) : List Nat := if b then [off] else []

/-! ## Sequence fields (R247, R264) -/

/-- The fields that open a sequence, from `SEQ_OPEN` at 0x1C on, or from `KV_ACCEPT` at 0x18 on. -/
structure OpenFields where
  maxLen : Nat
  cls : Nat
  generate : Bool
  autoClose : Bool
  paramsFollow : Bool
  maxNew : Nat
  stops : List Nat
  quota : Nat
  prefixGroup : Nat
  prefixLen : Nat
  deriving DecidableEq, Repr

def openFields (ws : List Word) (b : Nat) : OpenFields :=
  let stop (o : Nat) : List Nat := if bit (wordAt ws o) 31 then [fieldAt ws o 19 0] else []
  { maxLen := fieldAt ws b 22 0, cls := fieldAt ws b 25 23, generate := bit (wordAt ws b) 26,
    autoClose := bit (wordAt ws b) 27, paramsFollow := bit (wordAt ws b) 28, maxNew := fieldAt ws (b + 4) 22 0,
    stops := stop (b + 8) ++ stop (b + 12), quota := fieldAt ws (b + 16) 9 0, prefixGroup := fieldAt ws (b + 20) 15 0,
    prefixLen := fieldAt ws (b + 24) 22 0 }

/-- The open fields of an opening or appending descriptor. -/
def Desc.fields (d : Desc) : OpenFields := openFields d.words (if hOpcode d.words = opKvAccept then 0x18 else 0x1C)

/-- The longest sequence (R247). -/
def maxTokens : Nat := 4194304

/-- The token array of NTOK tokens is 4-byte aligned; NTOK = 0 names no array (R247; DEDUCED, log entry 36). -/
def arrayFaults (ws : List Word) : List Nat := faultIf (fieldAt ws 0x18 22 0 != 0 && fieldAt ws 0x10 1 0 != 0) 0x10

/-- Value faults of the open fields at `b` (R248). -/
def openFaults (ws : List Word) (b : Nat) (append : Bool) : List Nat :=
  let f := openFields ws b
  faultIf (!append && (f.maxLen = 0 || maxTokens < f.maxLen)) b ++
  faultIf (f.generate && (f.maxNew = 0 || maxTokens < f.maxNew)) (b + 4) ++
  faultIf (!append && f.prefixLen % 256 != 0) (b + 24)

/-- GENERATE of an opening or appending descriptor, and the offset of the byte that holds it (R301 check 5). -/
def generates (ws : List Word) : Bool :=
  let op := hOpcode ws
  if op = opSeqOpen ∨ op = opSeqAppend then bit (wordAt ws 0x1C) 26
  else if op = opKvAccept then bit (wordAt ws 0x18) 26 else false

def generateByte (ws : List Word) : Nat := if hOpcode ws = opKvAccept then 0x1B else 0x1F

/-! ## FP32 fields of `SEQ_PARAMS` (R280) -/

def finite32 (w : Word) : Bool := fld w 30 23 != 255
def neg32 (w : Word) : Bool := bit w 31
def isZero32 (w : Word) : Bool := fld w 30 0 = 0
/-- Above zero and finite. -/
def pos32 (w : Word) : Bool := finite32 w && !neg32 w && !isZero32 w
/-- At most 1.0, for a finite value that is not negative. -/
def atMostOne (w : Word) : Bool := fld w 30 0 ≤ 0x3F800000

/-- The logical block size of a namespace of a storage target: 512 or 4,096 bytes (R346; log entry 22). -/
def blockSize (target nsid : Nat) : Nat := if Config.blockSize target nsid = 512 then 512 else 4096

/-- The block size of a storage source divides LENGTH (R334). -/
def loadSizeOk (ws : List Word) : Bool :=
  fieldAt ws 0x10 1 0 != 1 || hLength ws % blockSize (fieldAt ws 0x10 5 2) (wordAt ws 0x1C).toNat = 0

/-- Value faults of the descriptor's own 64 bytes, beside the reserved bits: the causes that each chapter lists
under `BAD_DESCRIPTOR` and that need nothing but the descriptor (R490 item 1). -/
def valueFaults (ws : List Word) : List Nat :=
  let op := hOpcode ws
  let w := wordAt ws
  if op = opCtxCreate then
    faultIf (fieldAt ws 0x10 5 0 != 0) 0x10 ++ faultIf (fieldAt ws 0x18 17 16 = 3) 0x1A ++
    faultIf (fieldAt ws 0x1C 26 0 = 0) 0x1C ++ faultIf (fieldAt ws 0x20 31 16 = 0) 0x22 ++
    faultIf (fieldAt ws 0x2C 26 0 != 0 && fieldAt ws 0x1C 26 0 < fieldAt ws 0x28 26 0 + fieldAt ws 0x2C 26 0) 0x28
  else if op = opLoad then
    faultIf (hLength ws % 128 != 0 || !loadSizeOk ws) 0x0C ++ faultIf (2 ≤ fieldAt ws 0x10 1 0) 0x10 ++
    faultIf (fieldAt ws 0x20 6 0 != 0) 0x20 ++ faultIf (4096 < fieldAt ws 0x24 31 16) 0x26
  else if op = opJigLoad then
    faultIf (0x100 < hObject ws) 0x08 ++ faultIf (fieldAt ws 0x10 6 0 != 0) 0x10
  else if op = opSeqOpen then
    arrayFaults ws ++ faultIf (maxTokens < fieldAt ws 0x18 22 0 || fieldAt ws 0x1C 22 0 < fieldAt ws 0x18 22 0) 0x18 ++
    openFaults ws 0x1C false
  else if op = opSeqAppend then
    arrayFaults ws ++ faultIf (maxTokens < fieldAt ws 0x18 22 0) 0x18 ++ openFaults ws 0x1C true
  else if op = opKvAccept then openFaults ws 0x18 false
  else if op = opSeqParams then
    if fieldAt ws 0x10 1 0 = 0 then
      faultIf (1024 < fieldAt ws 0x10 12 2) 0x10 ++ faultIf (32 < fieldAt ws 0x10 18 13) 0x11 ++
      faultIf (!finite32 (w 0x14) || (neg32 (w 0x14) && !isZero32 (w 0x14))) 0x14 ++
      faultIf (!(pos32 (w 0x18) && atMostOne (w 0x18))) 0x18 ++
      faultIf (!(finite32 (w 0x1C) && (!neg32 (w 0x1C) || isZero32 (w 0x1C)) && atMostOne (w 0x1C))) 0x1C ++
      faultIf (!pos32 (w 0x20)) 0x20 ++ faultIf (!finite32 (w 0x24)) 0x24 ++ faultIf (!finite32 (w 0x28)) 0x28
    else if fieldAt ws 0x10 1 0 = 1 then
      faultIf (fieldAt ws 0x10 3 2 = 3) 0x10 ++ faultIf (1024 < fieldAt ws 0x10 26 16) 0x12
    else [0x10]
  else if op = opPageMap then
    faultIf (2 ≤ fieldAt ws 0x14 1 0) 0x14 ++ faultIf (fieldAt ws 0x18 31 16 = 0 || 16384 < fieldAt ws 0x18 31 16) 0x1A ++
    faultIf (16384 < fieldAt ws 0x18 15 0 + fieldAt ws 0x18 31 16) 0x18 ++
    faultIf (fieldAt ws 0x1C 22 0 ≤ 256 * fieldAt ws 0x18 15 0 ||
      256 * (fieldAt ws 0x18 15 0 + fieldAt ws 0x18 31 16) < fieldAt ws 0x1C 22 0) 0x1C
  else if op = opStepPolicy then
    if fieldAt ws 0x10 1 0 = 0 then
      faultIf (fieldAt ws 0x14 13 0 = 0 || 8192 < fieldAt ws 0x14 13 0) 0x14 ++
      faultIf (fieldAt ws 0x14 30 16 = 0 || 16384 < fieldAt ws 0x14 30 16) 0x16 ++
      faultIf (fieldAt ws 0x18 13 0 < 32 || 8192 < fieldAt ws 0x18 13 0 || fieldAt ws 0x18 13 0 % 32 != 0) 0x18 ++
      faultIf (16384 < fieldAt ws 0x18 30 16) 0x1A
    else if fieldAt ws 0x10 1 0 = 1 then faultIf (8192 < fieldAt ws 0x18 13 0) 0x18
    else [0x10]
  else if op = opBenchSplit then
    let lo := fieldAt ws 0x10 2 0
    let hi := fieldAt ws 0x10 5 3
    faultIf (hi < lo || 4 < hi) 0x10 ++
    (List.range 4).flatMap fun r =>
      faultIf (lo ≤ r && r < hi && (wordAt ws (0x14 + 4 * r)).toNat < (wordAt ws (0x24 + 4 * r)).toNat) (0x24 + 4 * r)
  else if op = opCheckpoint ∨ op = opRestore then faultIf (fieldAt ws 0x24 26 0 = 0) 0x24
  else if op = opDiag then
    faultIf (!([1, 2, 3, 4, 0x10, 0x11].contains (hObject ws))) 0x08 ++
    faultIf (([1, 2].contains (hObject ws)) && fieldAt ws 0x18 3 0 != 0) 0x18
  else []

/-- The faults of the descriptor's own bytes, lowest first (R490 item 1). -/
def ownFault (ws : List Word) : Option Nat := lowest (reservedFaults ws ++ valueFaults ws)

/-! ## Host memory (R298, R299) -/

def hostByte (h : HostView) (a : Nat) : Byte := peek 0#8 h.cells a

/-- A read of `n` bytes of host memory; none when the adapter card reports it failed. -/
def hostRead (h : HostView) (a n : Nat) : Option (List Byte) :=
  if h.fails.any fun f => f.1 < a + n && a < f.1 + f.2 then none
  else some ((List.range n).map fun i => hostByte h (a + i))

def hostWords (h : HostView) (a n : Nat) : Option (List Word) := (hostRead h a (4 * n)).map wordsOf

end Sys2Proof.Machine
end

