-- ==== Sys2Proof/Machine/Records.lean ====
section
/-! DEFINITION. Completions, events and token records: their words, their way into the rings, held records,
interrupts, draining pairs and fences (R286, R302 to R309, R313). -/

namespace Sys2Proof.Machine

/-! ## Ring arithmetic (R292, R293) -/

/-- Entries of a pair's token (true) or completion ring. -/
def State.ringSize (s : State) (p : EPort) (i : Nat) (token : Bool) : Nat :=
  let r := s.reg (oRingSize p i)
  2 ^ (if token then fld r 20 16 else fld r 12 8)

def State.sqSize (s : State) (p : EPort) (i : Nat) : Nat := 2 ^ fld (s.reg (oRingSize p i)) 4 0

/-- The host address of a ring: the base registers at `o` within the ring set. -/
def State.ringBase (s : State) (p : EPort) (i o : Nat) : Nat := s.reg64 (oRing p i + o)

def Pair.prod (pr : Pair) (token : Bool) : Nat := if token then pr.tqProd else pr.cqProd
def Pair.cons (pr : Pair) (token : Bool) : Nat := if token then pr.tqHead else pr.cqHead

/-- The pair writes records: running, draining, or in error with CAUSE overrun or host read failed (R298). -/
def Pair.writes (pr : Pair) : Bool :=
  match pr.state with
  | .running | .draining => true
  | .error => pr.cause = 1 || pr.cause = 3
  | .off => false

/-- The ring has room, judged from the head word last read (R307). -/
def State.hasRoom (s : State) (p : EPort) (i : Nat) (token : Bool) : Bool :=
  let pr := s.pair p i
  (pr.prod token + 2 ^ 32 - pr.cons token) % 2 ^ 32 < s.ringSize p i token

/-! ## Words -/

/-- A completion or event (R303, R306), without PHASE and `SQ_HEAD`. -/
def completionWords (tag : Word) (status opcode : Nat) (ctx : Option Nat) (object time result step : Nat) : List Word :=
  [tag,
   BitVec.ofNat 32 (status + opcode * 2 ^ 8 + (match ctx with | some c => c * 2 ^ 16 | none => 2 ^ 22)),
   BitVec.ofNat 32 object, 0#32, lo32 time, hi32 time, BitVec.ofNat 32 result, BitVec.ofNat 32 step]

/-- A token record (R286), without PHASE. -/
def tokenWords (handle token : Nat) (last accepted noToken : Bool) (exit position step : Nat) : List Word :=
  let b (x : Bool) (i : Nat) : Nat := if x then 2 ^ i else 0
  [BitVec.ofNat 32 handle,
   BitVec.ofNat 32 (token % 2 ^ 20 + b last 20 + b accepted 21 + b noToken 22 + exit * 2 ^ 24),
   BitVec.ofNat 32 (position % 2 ^ 23), BitVec.ofNat 32 step]

/-! ## Writing -/

/-- An interrupt message of a pair, which clears its count (R309). -/
def State.sendIrq (s : State) (p : EPort) (i : Nat) : State :=
  (s.setPair p i { s.pair p i with irqCount := 0, irqOldest := none }).emit (.irq p (fld (s.reg (oIrqVec p i)) 15 0))

/-- One written record counts toward the pair's next interrupt (R309). -/
def State.countIrq (s : State) (p : EPort) (r : Rec) : State :=
  if !bit (s.reg (oIrqVec p r.pair)) 31 then s
  else
    let pr := s.pair p r.pair
    let s := s.setPair p r.pair
      { pr with irqCount := pr.irqCount + 1, irqOldest := some (pr.irqOldest.getD s.time) }
    if r.irqNow || max 1 (fld (s.reg (oIrqMod p r.pair)) 7 0) ≤ pr.irqCount + 1 then s.sendIrq p r.pair else s

/-- The record as it is written: PHASE by its index (R293), and in a completion the pair's `SQ_HEAD` (R303). -/
def Rec.stamp (r : Rec) (phase : Bool) (sqHead : Nat) : List Word :=
  let ws := r.words.set 1 (setBit (wordAt r.words 4) 31 phase)
  if r.token || r.event then ws else ws.set 3 (BitVec.ofNat 32 sqHead)

/-- Writes one record into its ring as one aligned write (R289, R293). -/
def State.writeRecord (s : State) (p : EPort) (r : Rec) : State :=
  let pr := s.pair p r.pair
  let k := pr.prod r.token
  let n := s.ringSize p r.pair r.token
  let ws := r.stamp (k / n % 2 = 0) pr.sqHead
  let a := s.ringBase p r.pair (if r.token then 0x10 else 0x08) + (k % n) * (4 * ws.length)
  let pr := if r.token then { pr with tqProd := (k + 1) % 2 ^ 32 } else { pr with cqProd := (k + 1) % 2 ^ 32 }
  ((s.setPair p r.pair pr).emit (.hostWrite p a (bytesOf ws))).countIrq p r

/-- A record that no ring takes is counted in `EP_DROPPED` (R291, R306, R308). -/
def State.dropRecord (s : State) (p : EPort) : State := s.bump (oDropped p) 31 0 1

/-- A record may leave the port behind the records `ahead` of it: the link is up, its ring has room, no earlier
record of its ring is held, and no held token record of its commit and pair precedes a completion (R304, R307). -/
def State.mayLeave (s : State) (p : EPort) (ahead : List Rec) (r : Rec) : Bool :=
  s.linkUp p && s.hasRoom p r.pair r.token && !ahead.any fun h =>
    h.pair = r.pair && ((h.token = r.token) || (!r.token && h.token && r.commit != 0 && h.commit = r.commit))

/-- `EP_QUEUE.MAX` keeps the most records held at once. -/
def State.noteHeld (s : State) (p : EPort) : State :=
  let n := min 4096 (s.port p).held.length
  if fld (s.reg (oQueue p)) 28 16 < n then s.setRegFld (oQueue p) 28 16 n else s

/-- The most records that a port holds (R307). -/
def heldMax : Nat := 4096

/-- A record falls due: it is written, held, or discarded (R306 to R308). A port that holds as many as it can writes no further ones:
they wait behind those held, in the order in which they fell due. -/
def State.post (s : State) (p : EPort) (r : Rec) : State :=
  let po := s.port p
  if po.lost || !(s.pair p r.pair).writes then s.dropRecord p
  else if po.held.length < heldMax && s.mayLeave p po.held r then s.writeRecord p r
  else (s.setPort p { po with held := po.held ++ [r] }).noteHeld p

/-- The first held record of a pair that may leave, with the held records that stay. -/
def firstLeaving (s : State) (p : EPort) (i : Nat) : List Rec → List Rec → Option (Rec × List Rec)
  | _, [] => none
  | ahead, r :: rest =>
    if r.pair = i && s.mayLeave p ahead r then some (r, ahead ++ rest) else firstLeaving s p i (ahead ++ [r]) rest

/-! ## Draining pairs (R313) -/

/-- `RING_STAT.OPEN`: the pair's accepted descriptors not yet completed. -/
def State.openCount (s : State) (p : EPort) (i : Nat) : Nat :=
  (s.opens.filter fun d => d.port = p && d.pair = i && !d.orphan).length

/-- A draining pair goes to off once nothing is open and nothing is held for it. -/
def State.settlePair (s : State) (p : EPort) (i : Nat) : State :=
  let pr := s.pair p i
  if pr.state = .draining && s.openCount p i = 0 && !(s.port p).held.any (·.pair = i)
  then s.setPair p i { pr with state := .off } else s

/-- One held record of a pair leaves the port, and the oldest that waits is held in its place (R307). -/
def State.releaseOne (s : State) (p : EPort) (i : Nat) : State :=
  let l := (s.port p).held
  match firstLeaving s p i [] (l.take heldMax) with
  | none => s.settlePair p i
  | some (r, rest) => ((s.setPort p { s.port p with held := rest ++ l.drop heldMax }).writeRecord p r).settlePair p i

/-! ## Events (R306) -/

def State.event (s : State) (status : Nat) (ctx : Option Nat) (object result step : Nat) : State :=
  let r (p : EPort) : Rec :=
    ⟨fld (s.reg (oEvent p)) 5 0, false, true, completionWords 0xFFFFFFFF#32 status 0 ctx object s.time result step, false, 0⟩
  let send (s : State) (p : EPort) : State := if bit (s.reg (oEvent p)) 31 then s.post p (r p) else s
  send (send s .a) .b

/-! ## Completions (R303) and fences (R302) -/

/-- What a completion is formed after: the step in STEP_LO, and the number of the commit that caused it, 0 when it
was no commit (R303, R304). -/
structure Bound where
  step : Nat
  commit : Nat
  deriving DecidableEq, Repr

/-- Outside every boundary. -/
def Bound.none : Bound := ⟨0, 0⟩

def State.desc? (s : State) (id : Nat) : Option Desc := s.opens.find? (·.id = id)

/-- An open descriptor is changed; its number stays. -/
def State.modDesc (s : State) (id : Nat) (f : Desc → Desc) : State :=
  { s with opens := s.opens.map fun d => if d.id = id then { f d with id := d.id } else d }

/-- The context that a completion names: none for CONTEXT 0xFFFF, and none where CONTEXT is no context's number
(R301 check 3). -/
def Desc.ctx? (d : Desc) : Option Nat := if 63 < hContext d.words then none else some (hContext d.words)

/-- The completion of a descriptor, formed now. -/
def State.finishDesc (s : State) (d : Desc) (status result : Nat) (b : Bound) : State :=
  let s := { s with opens := s.opens.filter (·.id != d.id) }
  if d.orphan then s.dropRecord d.port
  else
    let ws := completionWords (hTag d.words) status (hOpcode d.words) d.ctx? (hObject d.words) s.time result b.step
    (s.post d.port ⟨d.pair, false, false, ws, hIrqNow d.words, b.commit⟩).settlePair d.port d.pair

/-- A generating descriptor has taken effect once it runs (R302). -/
def Desc.effective (d : Desc) : Bool := generates d.words && d.phase = .running

def Desc.isFence (d : Desc) : Bool := hOpcode d.words = opFence

/-- Every descriptor in a fence's scope that was accepted before it has taken effect (R302). -/
def State.fenceMet (s : State) (f : Desc) : Bool :=
  s.opens.all fun d =>
    !(d.id < f.id && (bit (wordAt f.words 0x10) 0 || (d.port = f.port && d.pair = f.pair)) &&
      (hContext f.words = 0xFFFF || hContext d.words = hContext f.words)) || d.effective

def settleFencesAux (b : Bound) : Nat → State → State
  | 0, s => s
  | n + 1, s =>
    match s.opens.find? fun d => d.isFence && s.fenceMet d with
    | none => s
    | some f => settleFencesAux b n (s.finishDesc f stOk 0 b)

/-- Completes every fence whose condition holds. -/
def State.settleFences (s : State) (b : Bound) : State := settleFencesAux b s.opens.length s

/-- A descriptor completes once, and fences follow. -/
def State.complete (s : State) (id status result : Nat) (b : Bound) : State :=
  match s.desc? id with
  | none => s
  | some d => (s.finishDesc d status result b).settleFences b

/-- A waiting fence holds its pair (R302). -/
def State.heldByFence (s : State) (p : EPort) (i : Nat) : Bool :=
  s.opens.any fun d => d.isFence && bit (wordAt d.words 0x10) 1 && d.port = p && d.pair = i && !d.orphan

/-- A token record of a descriptor falls due. -/
def State.postToken (s : State) (id : Nat) (r : Rec) : State :=
  match s.desc? id with
  | none => s
  | some d => if d.orphan then s.dropRecord d.port else s.post d.port r

end Sys2Proof.Machine
end

