-- ==== Sys2Proof/Machine/Memory.lean ====
section
/-! DEFINITION. HBM by line: decode, poison, injection and write-back (R163 to R174); context memory through the page
map (R155 to R160). Memories are canonical lists: keys strictly rising, no entry equal to what an unlisted byte reads
as, which is 0 (DESIGN CHOICE, log entry 10). -/

namespace Sys2Proof.Machine

/-! ## Keys -/

/-- Lines of a die (R163). -/
def linesPerDie : Nat := 429496320

def hbmKey (die line off : Nat) : Nat := die * 2 ^ 36 + line * 128 + off
def lineKey (die line : Nat) : Nat := die * 2 ^ 29 + line

/-- The pseudo-channel of a die line (R174). -/
def pseudoChannel (line : Nat) : Nat :=
  let i := line / 64
  (line % 64) ^^^ (i % 64) ^^^ (i / 64 % 64) ^^^ (i / 4096 % 64) ^^^ (i / 262144 % 32)

/-- The die line at within-pseudo-channel index `i` of pseudo-channel `p`: the hash is one-to-one (R174). -/
def lineAt (p i : Nat) : Nat := 64 * i + (p ^^^ pseudoChannel (64 * i))

/-- The canonical form of a byte memory. -/
def Memory.wf (m : List (Nat × Byte)) : Bool := canon 0#8 m

/-! ## Lines -/

/-- The 128 data bytes of a line as written. -/
def State.lineBytes (s : State) (die line : Nat) : List Byte :=
  (List.range 128).map fun i => peek 0#8 s.hbm (hbmKey die line i)

def pokeBytes (m : List (Nat × Byte)) (k : Nat) : List Byte → List (Nat × Byte)
  | [] => m
  | b :: bs => pokeBytes (poke 0#8 m k b) (k + 1) bs

/-- Bits in error of word 0. -/
def flipCount (m : Nat) : Nat := m % 2 + m / 2 % 2 + m / 4 % 2

/-- A full-line write (R167, R169): data with fresh check bits, poison as the data's, and the armed injection when
the line lies in its pseudo-channel (`MEM_INJECT`; a set POISON marks word 0 poisoned, DEDUCED, log entry 11). -/
def State.writeLine (s : State) (die line : Nat) (bytes : List Byte) (poison : Bool) : State :=
  let k := lineKey die line
  let r := s.reg oInject
  let hit := bit r 31 && fld r 10 8 = die && fld r 5 0 = pseudoChannel line
  let flips := if hit then (match fld r 13 12 with | 1 => 1 | 2 => 3 | 3 => 7 | _ => 0) else 0
  let poison := poison || (hit && bit r 14)
  let s := { s with
    hbm := pokeBytes s.hbm (hbmKey die line 0) bytes
    hbmPoison := if poison then addKey k s.hbmPoison else s.hbmPoison.filter (· != k)
    hbmFlips := poke 0 s.hbmFlips k flips }
  if hit then s.setRegBit oInject 31 false else s

/-- The unit that a pseudo-channel is in the fault history. -/
def pcUnit (die : Nat) (line : Nat) : UnitName := ⟨Fin.ofNat 8 die, 3, pseudoChannel line⟩

/-- A correction (R166): counted, written back, and a corrected event when the line was already corrected within the
same 24 hours (R367). -/
def State.correctLine (s : State) (die line : Nat) : State :=
  let k := lineKey die line
  let again := match assoc k s.corrected with | some t => decide (s.time < t + dayNs) | none => false
  let s := s.bump (oMemErr die) 15 0 1
  let s := { s with corrected := enlist k s.time s.corrected, hbmFlips := poke 0 s.hbmFlips k 0 }
  let s := s.writeLine die line (s.lineBytes die line) (s.hbmPoison.contains k)
  if again then s.correctedEvent (pcUnit die line) s.stepNow else s

/-- The stored data of a line whose word 0 carries bits in error. -/
def State.flippedBytes (s : State) (die line m : Nat) : List Byte :=
  match s.lineBytes die line with
  | [] => []
  | b :: bs => (b ^^^ BitVec.ofNat 8 m) :: bs

/-- An uncorrectable word (R166, R168): counted, recorded in `MEM_UE` and in the fault history, and written back
poisoned while the package is in service. `source` is that of `MEM_UE_HI`. -/
def State.poisonLine (s : State) (die line source : Nat) : State :=
  let s := s.bump (oMemErr die) 31 16 1
  let s := s.setReg oUeLo (BitVec.ofNat 32 (die * 2 ^ 29 + line))
  let s := s.setReg oUeHi (BitVec.ofNat 32 (2 ^ 31 + source * 2 ^ 8 + pseudoChannel line))
  let s := s.logFault (pcUnit die line) 3 s.stepNow
  if s.service then
    s.writeLine die line (s.flippedBytes die line (peek 0 s.hbmFlips (lineKey die line))) true
  else s

/-- A read of a line (R166): its bytes, its poison and the state after correction or write-back. -/
def State.readLine (s : State) (die line source : Nat) : List Byte × Bool × State :=
  let k := lineKey die line
  let m := peek 0 s.hbmFlips k
  let n := flipCount m
  if n = 0 then (s.lineBytes die line, s.hbmPoison.contains k, s)
  else if n < 3 then
    let s := s.correctLine die line
    (s.lineBytes die line, s.hbmPoison.contains k, s)
  else
    let bs := s.flippedBytes die line m
    (bs, true, s.poisonLine die line source)

/-- A list with a piece replaced from an index on. -/
def splice {α : Type} (l : List α) (i : Nat) (piece : List α) : List α := l.take i ++ piece ++ l.drop (i + piece.length)

/-- A write of fewer than 128 bytes: a read, a merge and a write of the whole line (R167, R169). -/
def State.writePart (s : State) (die line off : Nat) (bytes : List Byte) (poison : Bool) : State :=
  if off = 0 ∧ bytes.length = 128 then s.writeLine die line bytes poison
  else
    let r := s.readLine die line 2
    r.2.2.writeLine die line (splice r.1 off bytes) (r.2.1 || poison)

/-! ## The page map (R160) -/

def entryValid (e : Nat) : Bool := e % 2 = 1
def entryTier (e : Nat) : Nat := e / 2 % 4
def entryHbm (e : Nat) : Bool := entryTier e = 1
def entryFabric (e : Nat) : Bool := entryTier e = 2
def entryWritable (e : Nat) : Bool := e / 8 % 2 = 1
def entryMigrating (e : Nat) : Bool := e / 16 % 2 = 1
def entryDie (e : Nat) : Nat := e / 2 ^ 8 % 8
def entryFrame (e : Nat) : Nat := e / 2 ^ 16 % 2 ^ 15
def entryNode (e : Nat) : Nat := e / 2 ^ 32 % 2 ^ 12
def entryKey (e : Nat) : Nat := frameKey (entryDie e) (entryFrame e)

def hbmEntry (key : Nat) (writable : Bool) : Nat :=
  1 + 2 + (if writable then 8 else 0) + (key / 2 ^ 15) * 2 ^ 8 + (key % 2 ^ 15) * 2 ^ 16

/-- A fabric entry: the lender's node and its frame number, which here is the page number (R389). -/
def fabricEntry (node page : Nat) : Nat := 1 + 4 + node * 2 ^ 32 + (page % 2 ^ 19) * 2 ^ 44

def setMigrating (e : Nat) (b : Bool) : Nat := e - (e / 16 % 2) * 16 + (if b then 16 else 0)
def setWritable (e : Nat) (b : Bool) : Nat := e - (e / 8 % 2) * 8 + (if b then 8 else 0)

/-- The page map entry of a page; an unlisted one is not valid. -/
def Ctx.page (x : Ctx) (p : Nat) : Nat := peek 0 x.pages p

def Ctx.setPage (x : Ctx) (p e : Nat) : Ctx := { x with pages := poke 0 x.pages p e }

/-- The page of a context address. -/
def pageOf (a : Nat) : Nat := a / 2 ^ 21

/-- Die and die line of a context address on an HBM page (R160). -/
def lineOf (e a : Nat) : Nat × Nat := (entryDie e, entryFrame e * 16384 + a / 128 % 16384)

/-- A page of the lend window (R388). -/
def Ctx.lent (x : Ctx) (p : Nat) : Bool := x.lendJob != 0 && x.lendFirst ≤ p && p < x.lendFirst + x.lendCount

/-- The first status that forbids a read of `n` bytes at `a`: a page beyond the range or not valid (R158). -/
def Ctx.readFault (x : Ctx) (a n : Nat) : Option Nat :=
  let first := pageOf a
  let last := pageOf (a + n - 1)
  if (List.range (last + 1 - first)).any fun i => x.range ≤ first + i || !entryValid (x.page (first + i))
  then some stPage else none

/-- The first status that forbids a write (R157, R158, R388); `load` writes read-only HBM pages too. -/
def Ctx.writeFault (x : Ctx) (a n : Nat) (load : Bool) : Option Nat :=
  match x.readFault a n with
  | some st => some st
  | none =>
    let first := pageOf a
    let last := pageOf (a + n - 1)
    if (List.range (last + 1 - first)).any fun i =>
      let e := x.page (first + i)
      entryFabric e || (!load && (!entryWritable e || x.lent (first + i)))
    then some stTier else none

/-- The 2 MiB frame within the lender's window (R160). -/
def entryRframe (e : Nat) : Nat := e / 2 ^ 44 % 2 ^ 19

/-- Free bytes: what the manual leaves open, or what a lender holds (log entry 3). -/
def freeBytes : Nat → State → List Byte × State
  | 0, s => ([], s)
  | n + 1, s =>
    let r := s.free
    let q := freeBytes n r.2
    (BitVec.ofNat 8 r.1.toNat :: q.1, q.2)

/-- A line of a lender that was read for a command of a job (R389). -/
def State.lentLine (s : State) (job l : Nat) : Option (List Byte × Bool) :=
  (s.lent.find? fun e => e.1 = job && e.2.1 = l).map (·.2.2)

/-- The line of context address `a`, by the page map (R19, R155). Outside a step one on a fabric-tier page is the line that the lender
sent for the command that reads it; until then it is wanted, and what the reader makes of it is discarded. -/
def State.readAt (s : State) (x : Ctx) (a source : Nat) : List Byte × Bool × State :=
  let e := x.page (pageOf a)
  if entryFabric e then
    match s.lentLine x.job (a / 128) with
    | some r => (r.1, r.2, s)
    | none => (List.replicate 128 0#8, false, { s with wants := s.wants ++ [(x.job, a / 128)] })
  else s.readLine (lineOf e a).1 (lineOf e a).2 source

def readLines (x : Ctx) (source : Nat) : Nat → Nat → State → List Byte × Bool × State
  | 0, _, s => ([], false, s)
  | n + 1, a, s =>
    let r := s.readAt x a source
    let q := readLines x source n (a + 128) r.2.2
    (r.1 ++ q.1, r.2.1 || q.2.1, q.2.2)

/-- A read of `n` bytes of context memory: a status, or the bytes with their poison and the state after it. -/
def State.readCtx (s : State) (x : Ctx) (a n source : Nat) : Except Nat (List Byte × Bool × State) :=
  if n = 0 then .ok ([], false, s)
  else match x.readFault a n with
    | some st => .error st
    | none =>
      let first := a / 128 * 128
      let r := readLines x source ((a + n - 1) / 128 + 1 - a / 128) first s
      .ok (window (a - first) n r.1, r.2.1, r.2.2)

def writeBytesAux (x : Ctx) (poison : Bool) : Nat → Nat → List Byte → State → State
  | 0, _, _, s => s
  | n + 1, a, bs, s =>
    let k := min bs.length (128 - a % 128)
    let e := x.page (pageOf a)
    let s := s.writePart (lineOf e a).1 (lineOf e a).2 (a % 128) (bs.take k) poison
    writeBytesAux x poison n (a + k) (bs.drop k) s

/-- The bytes of a write placed line by line, in ascending order. -/
def State.placeBytes (s : State) (x : Ctx) (a : Nat) (bs : List Byte) (poison : Bool) : State :=
  writeBytesAux x poison (cdiv (a % 128 + bs.length) 128) a bs s

/-- A write to context memory: a status, or the state after it. -/
def State.writeCtx (s : State) (x : Ctx) (a : Nat) (bs : List Byte) (poison load : Bool) : Except Nat State :=
  if bs.isEmpty then .ok s
  else match x.writeFault a bs.length load with
    | some st => .error st
    | none => .ok (s.placeBytes x a bs poison)

end Sys2Proof.Machine
end

