-- ==== Sys2Proof/Machine/Fabric.lean ====
section
/-! DEFINITION. Sending requests over the fabric: tags, the path hash, and what is outstanding (R321, R323, R326,
R329). -/

namespace Sys2Proof.Machine

/-- The planes of the partition's mask in force, and those of them whose port is up here. -/
def State.maskedPlanes (s : State) : List Nat := (List.range 32).filter fun p => bit (s.reg oPlanes) p
def State.upHere (s : State) : List Nat := s.maskedPlanes.filter fun p => fld (s.reg (oPortStat p)) 1 0 = 2

/-- The next plane after one that failed or is down (R320): of the mask, and up here; the same one where it alone is up, none where none
is. -/
def State.planeAfter (s : State) (p : Nat) : Option Nat :=
  let up := s.upHere.filter (· != p)
  ((up.find? fun q => p < q).orElse fun _ => up.head?).orElse fun _ => s.upHere.head?

/-- The plane of the path hash: the up planes of the partition's mask, taken at the hash (R329). -/
def State.hashPlane (s : State) (dst offset : Nat) : Option Nat :=
  let g := (offset / 2 ^ 7 % 64) ^^^ (offset / 2 ^ 13 % 64) ^^^ (offset / 2 ^ 19 % 64) ^^^ (dst % 64) ^^^ (dst / 64 % 64)
  s.maskedPlanes[g % max 1 s.maskedPlanes.length]?

/-- The plane of a request or control message (R329). One whose port is down here, as it is while its die is in reset, moves to the next;
none while no port of the mask is up here (R17, R320). -/
def State.planeFor (s : State) (dst offset : Nat) : Option Nat :=
  (s.hashPlane dst offset).bind fun p => if s.upHere.contains p then some p else s.planeAfter p

/-- STEP and ATTEMPT of a message of context `c`: those of its step in flight, 0 outside a step. -/
def State.stepTag (s : State) (c : Nat) : Nat × Nat :=
  match s.attempt with
  | some a => if a.ctx = c then (a.plan.step, a.plan.attempt) else (0, 0)
  | none => (0, 0)

/-- The transfers of a collective stream, which the jig places (R331). -/
def FabOp.placed : FabOp → Bool
  | .acc _ | .group _ _ _ _ | .mcast _ _ _ _ => true
  | _ => false

/-- The plane of a request: a transfer that the jig places takes the plane that Daxorn named, while the mask holds it and its port is up
here (R329, R331; log entry 16), and every other one that of the hash. -/
def State.requestPlane (s : State) (dst : Nat) (h : MsgHdr) (op : FabOp) : Option Nat :=
  match s.attempt with
  | none => s.planeFor dst h.offset
  | some a =>
    let p := Config.namedPlane a.img dst h.offset
    if h.step != 0 && op.placed && s.upHere.contains p then some p else s.planeFor dst h.offset

/-- A request leaves on its plane, or waits until a port of the mask is up here (R17, R320). -/
def State.issue (s : State) (o : Outst) : State :=
  let s := { s with outst := s.outst ++ [o] }
  match o.plane with
  | none => s
  | some p => s.emit (.request o.dst p o.req)

/-- A request with a new tag. -/
def State.issueNew (s : State) (c dst : Nat) (h : MsgHdr) (op : FabOp) (why : Purpose) : State :=
  { s with nextTag := (s.nextTag + 1) % 2 ^ 32 }.issue ⟨s.nextTag, dst, s.requestPlane dst h op, c, ⟨h, op⟩, why, s.time, false⟩

/-- A request leaves for another package. -/
def State.sendRequest (s : State) (c job dst offset : Nat) (op : FabOp) (poison : Bool) (why : Purpose) : State :=
  let st := match why with | .step | .line _ _ => s.stepTag c | _ => (0, 0)
  s.issueNew c dst ⟨s.node, job, s.partition, s.nextTag, offset % 2 ^ 40, st.1, st.2, poison⟩ op why

/-- A port of the mask is up again, or the mask has changed: what waited leaves, in its order (R320). -/
def State.sendWaiting (s : State) : State :=
  s.outst.foldl (fun s o =>
    if o.plane.isSome then s
    else match s.requestPlane o.dst o.req.hdr o.req.op with
      | none => s
      | some p => { s with outst := s.outst.map fun (q : Outst) => if q = o then { q with plane := some p, issued := s.time } else q }.emit
          (.request o.dst p o.req)) s

/-- The mask in force (R330). -/
def State.setPlanes (s : State) (mask : Nat) : State := (s.setReg oPlanes (BitVec.ofNat 32 mask)).sendWaiting

/-- What the seal of the step in flight waits for: a request that this package issued in it is not yet acknowledged (R326), or a change
of what its buddy mirrors (R371). -/
def State.stepOutstanding (s : State) : Bool :=
  s.outst.any fun o => o.req.hdr.step != 0 || match o.purpose with | .mirror _ => true | _ => false

end Sys2Proof.Machine
end

