-- ==== Sys2Proof/Machine/KvPages.lean ====
section
/-! DEFINITION. The KV page manager: placement, page tables and descriptors in context memory, maps, releases, copies,
quarantine, tentative pages and reservations (R187 to R206). -/

namespace Sys2Proof.Machine

/-! ## The layout record (R190) -/

def Ctx.kvFmt (x : Ctx) : Fmt :=
  match fieldAt x.kv 0 2 0 with
  | 0 => .e2m1
  | 1 => .int4 true
  | 2 => .e4m3
  | _ => .e5m2
def Ctx.runLog2 (x : Ctx) : Nat := fieldAt x.kv 0 11 8
def Ctx.hg (x : Ctx) : Nat := fieldAt x.kv 0 22 16
def Ctx.layers (x : Ctx) : Nat := fieldAt x.kv 4 15 0
def Ctx.qpg (x : Ctx) : Nat := fieldAt x.kv 4 21 16
def Ctx.poolBase (x : Ctx) : Nat := addr48 x.kv 0x08 0x0C
def Ctx.poolPages (x : Ctx) : Nat := (wordAt x.kv 0x10).toNat
def Ctx.tableBase (x : Ctx) : Nat := addr48 x.kv 0x18 0x1C
def Ctx.attnBase (x : Ctx) : Nat := addr48 x.kv 0x20 0x24
/-- The page size B (R191). -/
def Ctx.pageSize (x : Ctx) : Nat := if x.kvFmt.is8 then 67584 else 34816
/-- Pool pages that sequences of this member may use: half of the pool in book-match mode (R371). -/
def Ctx.usablePool (x : Ctx) : Nat := if x.bookMatch then x.poolPages / 2 else x.poolPages
def Ctx.pageAddr (x : Ctx) (p : Nat) : Nat := x.poolBase + p * x.pageSize
/-- Pool pages of one logical page: one for each layer and head group. -/
def Ctx.perPage (x : Ctx) : Nat := x.layers * x.hg

/-! ## Placement (R188) -/

/-- The member index that holds logical page `j` of a sequence whose home has index `h`, of `n` members. -/
def memberOf (run h n j : Nat) : Nat := (h + j / 2 ^ run) % max 1 n

/-- The local index of a logical page on its member. -/
def localIndex (run n j : Nat) : Nat := j / (2 ^ run * max 1 n) * 2 ^ run + j % 2 ^ run

/-- The logical page of local index `u` on the member with index `me`. -/
def logicalOf (run h n me u : Nat) : Nat :=
  let m := max 1 n
  ((u / 2 ^ run) * m + (me + m - h % m) % m) * 2 ^ run + u % 2 ^ run

/-- Logical pages below `count` that lie on the member with index `me`. -/
def pagesOn (run h n me count : Nat) : List Nat := (List.range count).filter fun j => memberOf run h n j = me

/-- This package's member index, and that of a sequence's home. -/
def State.me (s : State) : Nat := s.memberIndex s.node
def State.homeIdx (s : State) (handle : Nat) : Nat := homeIndex s.members.length handle

/-- Logical page `j` of a sequence lies here. -/
def State.holds (s : State) (x : Ctx) (handle j : Nat) : Bool :=
  memberOf x.runLog2 (s.homeIdx handle) s.members.length j = s.me

/-! ## The manager's reads and writes of its tables

Before it works at a boundary or takes a snapshot, the manager reads its tables' lines under R166 (`State.readArea`), once each:
what is corrected is written back, so that the reads after it show the data as stored. Its writes are partial-line writes under
R167, and one that a page forbids raises `TIER_WRITE` or `PAGE_FAULT` (R157, R158; log entry 14). -/

/-- The HBM byte of a context address; none off HBM. -/
def Ctx.hbmByte (x : Ctx) (a : Nat) : Option Nat :=
  let e := x.page (pageOf a)
  if entryValid e && entryHbm e then some (hbmKey (lineOf e a).1 (lineOf e a).2 (a % 128)) else none

/-- Bytes of context memory as the manager has read them: HBM, or the lines that a lender sent it. -/
def State.peekCtx (s : State) (x : Ctx) (a n : Nat) : List Byte :=
  (List.range n).map fun i => match x.hbmByte (a + i) with
    | some k => peek 0#8 s.hbm k
    | none => match s.lentLine x.job ((a + i) / 128) with
      | some r => r.1.getD ((a + i) % 128) 0#8
      | none => 0#8

def State.tableFault (s : State) (x : Ctx) (st : Nat) : State := { s with tableFaults := s.tableFaults ++ [(x.job, st)] }

/-- A write of the page manager with its data's poison; one that a page forbids is not made, and is noted (R157, R158). -/
def State.pokeData (s : State) (x : Ctx) (a : Nat) (bs : List Byte) (poison : Bool) : State :=
  match x.writeFault a bs.length false with
  | some st => s.tableFault x st
  | none => s.placeBytes x a bs poison

def State.pokeCtx (s : State) (x : Ctx) (a : Nat) (bs : List Byte) : State := s.pokeData x a bs false

/-- A read by the page manager, for its tables or for a page that it copies or ships. Lines on a fabric-tier page are read from their
lender: what it holds, its poison included, is free (log entry 3), and a READ goes out for each, whose refusal faults the context
(R155, R327). -/
def State.managerRead (s : State) (c : Nat) (x : Ctx) (a n : Nat) : Except Nat (List Byte × Bool × State) :=
  let ls := ((List.range (cdiv (a % 128 + n) 128)).map (a / 128 + ·)).filter fun l =>
    entryFabric (x.page (pageOf (128 * l))) && (s.lentLine x.job l).isNone
  let s := ls.foldl (fun s l =>
    let e := x.page (pageOf (128 * l))
    let r := freeBytes 128 s
    let p := r.2.free
    ({ p.2 with lent := p.2.lent ++ [(x.job, l, r.1, bit p.1 0)] } : State).sendRequest c x.job (entryNode e)
      (entryRframe e * 2 ^ 21 + 128 * l % 2 ^ 21) (.read 1) false (.manager c)) s
  s.readCtx x a n 0

/-- Lines of context memory are read for what their reading does (R166); a poisoned line makes the context consume poison
(R170). -/
def State.readArea (s : State) (c : Nat) (x : Ctx) (a n : Nat) : State :=
  if n = 0 then s
  else match s.managerRead c x a n with
    | .error st => s.tableFault x st
    | .ok r => if r.2.1 then r.2.2.tableFault x stPoisoned else r.2.2

/-- The lines that lenders sent for a job are dropped once what needed them is done, but not under a descriptor that still waits. -/
def State.dropLent (s : State) (job : Nat) : State :=
  if s.stalled.isEmpty then { s with lent := s.lent.filter fun e => e.1 != job } else s

/-! ## Page descriptors (R195) -/

inductive PageState where
  | free | allocated | tentative | quarantined | held
  deriving DecidableEq, Repr

def PageState.code : PageState → Nat
  | .free => 0
  | .allocated => 1
  | .tentative => 2
  | .quarantined => 3
  | .held => 4

def PageState.of : Nat → PageState
  | 1 => .allocated
  | 2 => .tentative
  | 3 => .quarantined
  | 4 => .held
  | _ => .free

structure PageDesc where
  refs : Nat
  gen : Nat
  state : PageState
  owner : Nat
  qstep : Nat
  deriving DecidableEq, Repr

/-- OWNER of a page without an owner. -/
def noOwner : Nat := 0xFFFFFFFF

def PageDesc.ofBytes (bs : List Byte) : PageDesc :=
  let ws := wordsOf bs
  ⟨fieldAt ws 0 15 0, fieldAt ws 0 23 16, .of (fieldAt ws 0 26 24), (wordAt ws 4).toNat, addr48 ws 8 12⟩

def PageDesc.bytes (d : PageDesc) : List Byte :=
  leBytes 4 (d.refs + d.gen * 2 ^ 16 + d.state.code * 2 ^ 24) ++ leBytes 4 d.owner ++ leBytes 8 (d.qstep % 2 ^ 48)

def State.pageDesc (s : State) (x : Ctx) (p : Nat) : PageDesc := .ofBytes (s.peekCtx x (x.tableBase + 16 * p) 16)

def State.setPageDesc (s : State) (x : Ctx) (p : Nat) (d : PageDesc) : State :=
  s.pokeCtx x (x.tableBase + 16 * p) d.bytes

def State.modPageDesc (s : State) (x : Ctx) (p : Nat) (f : PageDesc → PageDesc) : State :=
  s.setPageDesc x p (f (s.pageDesc x p))

/-! ## Page-table entries (R193, R194) -/

structure PtEntry where
  page : Nat
  gen : Nat
  valid : Bool
  shared : Bool
  cow : Bool
  tentative : Bool
  deriving DecidableEq, Repr

def PtEntry.none : PtEntry := ⟨0, 0, false, false, false, false⟩

def PtEntry.ofBytes (bs : List Byte) : PtEntry :=
  let ws := wordsOf bs
  ⟨(wordAt ws 0).toNat, fieldAt ws 4 7 0, bit (wordAt ws 4) 8, bit (wordAt ws 4) 9, bit (wordAt ws 4) 10, bit (wordAt ws 4) 11⟩

def PtEntry.bytes (e : PtEntry) : List Byte :=
  let b (x : Bool) (i : Nat) : Nat := if x then 2 ^ i else 0
  leBytes 4 e.page ++ leBytes 4 (e.gen + b e.valid 8 + b e.shared 9 + b e.cow 10 + b e.tentative 11)

/-- The address of the entry for local page `u`, layer `l` and head group `h`. -/
def Table.entryAddr (t : Table) (x : Ctx) (u l h : Nat) : Nat := t.base + 8 * ((u * x.layers + l) * x.hg + h)

def State.ptEntry (s : State) (x : Ctx) (t : Table) (u l h : Nat) : PtEntry := .ofBytes (s.peekCtx x (t.entryAddr x u l h) 8)

def State.setPtEntry (s : State) (x : Ctx) (t : Table) (u l h : Nat) (e : PtEntry) : State :=
  s.pokeCtx x (t.entryAddr x u l h) e.bytes

/-- Every layer and head group of the context, in the order of R204. -/
def Ctx.planes (x : Ctx) : List (Nat × Nat) := (List.range x.layers).flatMap fun l => (List.range x.hg).map fun h => (l, h)

/-- Folds over the entries of one local page. -/
def State.eachEntry (s : State) (x : Ctx) (f : State → Nat → Nat → State) : State :=
  x.planes.foldl (fun s lh => f s lh.1 lh.2) s

/-! ## Counting pages -/

def State.countPages (s : State) (x : Ctx) (st : PageState) : Nat :=
  ((List.range x.usablePool).filter fun p => (s.pageDesc x p).state = st).length

/-- The reservations of a context's tables (R203). -/
def Ctx.reserved (x : Ctx) : Nat := x.tables.foldl (fun n t => n + t.resv) 0

/-- The pool page lies wholly within writable HBM pages (R190). -/
def Ctx.poolOk (x : Ctx) (p : Nat) : Bool :=
  let first := pageOf (x.pageAddr p)
  let last := pageOf (x.pageAddr p + x.pageSize - 1)
  (List.range (last + 1 - first)).all fun i =>
    let e := x.page (first + i)
    entryValid e && entryHbm e && entryWritable e && !x.lent (first + i)

/-- The lowest free pool page (which free page is taken is left open: DESIGN CHOICE, log entry 9). -/
def State.freePage (s : State) (x : Ctx) : Option Nat :=
  (List.range x.usablePool).find? fun p => (s.pageDesc x p).state = .free && x.poolOk p

/-- The end of the table area that the manager works on: page descriptors and page tables (R190). -/
def Ctx.tableEnd (x : Ctx) : Nat :=
  x.tables.foldl (fun n t => max n (t.base + cdiv (8 * t.pages * x.perPage) 128 * 128)) (x.tableBase + 16 * x.poolPages)

/-- The manager reads the tables that it works on. -/
def State.readTables (s : State) (c : Nat) (x : Ctx) : State :=
  if x.poolPages = 0 then s else s.readArea c x x.tableBase (x.tableEnd - x.tableBase)

/-- Free pool pages that can be allocated. -/
def State.freePages (s : State) (x : Ctx) : Nat :=
  ((List.range x.usablePool).filter fun p => (s.pageDesc x p).state = .free && x.poolOk p).length

/-- The registers of R206's section show the pool as it stood at the last boundary. -/
def State.noteKv (s : State) (c : Nat) : State :=
  match s.ctx c with
  | none => s
  | some x =>
    let s := s.setReg (oKvFree c) (BitVec.ofNat 32 (s.countPages x .free))
    let s := s.setReg (oKvFree c + 4) (BitVec.ofNat 32 (s.countPages x .quarantined))
    let s := s.setReg (oKvFree c + 8) (BitVec.ofNat 32 x.reserved)
    let waiting := (x.tables.filter fun t => t.waiting || x.copies.any fun k => k.handle = t.handle && !k.abandoned).length
    s.setRegFld (oKvFree c + 12) 31 16 (min 0xFFFF waiting)

/-! ## Reference counts (R199) -/

/-- Maps a page into an entry. A full count stays as it is, and nothing is mapped (R199, R205). -/
def State.mapPage (s : State) (x : Ctx) (t : Table) (u l h page : Nat) (shared : Bool) : State :=
  let d := s.pageDesc x page
  if 65535 ≤ d.refs then s
  else (s.setPageDesc x page { d with refs := d.refs + 1 }).setPtEntry x t u l h ⟨page, d.gen, true, shared, false, false⟩

/-- Releases an entry; the page is quarantined with `qstep` when nothing maps it any more. -/
def State.releaseEntry (s : State) (x : Ctx) (t : Table) (qstep u l h : Nat) : State :=
  let e := s.ptEntry x t u l h
  if !e.valid then s
  else
    let s := if e.page < x.poolPages then s.modPageDesc x e.page fun d =>
        let d := { d with refs := d.refs - 1, owner := if d.owner = t.handle then noOwner else d.owner }
        if d.refs = 0 then { d with state := .quarantined, gen := (d.gen + 1) % 256, qstep := qstep } else d
      else s
    s.setPtEntry x t u l h { e with valid := false }

/-- A tentative page, or a page of an abandoned copy, returns directly to free with GEN increased (R200, R202). -/
def State.freeDirect (s : State) (x : Ctx) (page : Nat) : State :=
  s.modPageDesc x page fun d => { d with refs := 0, gen := (d.gen + 1) % 256, state := .free, owner := noOwner }

/-- A held page returns to free; it never carried a committed slot, and R195 raises its generation at no such step. -/
def State.unhold (s : State) (x : Ctx) (page : Nat) : State :=
  s.modPageDesc x page fun d => { d with refs := 0, state := .free, owner := noOwner }

/-- The local pages of a table with their logical pages. -/
def State.localPages (s : State) (x : Ctx) (t : Table) : List (Nat × Nat) :=
  (List.range t.pages).map fun u =>
    (u, logicalOf x.runLog2 (s.homeIdx t.handle) s.members.length s.me u)

/-- Releases the entries of logical pages `first` and above (R206), and abandons their copies (R200). -/
def State.releaseFrom (s : State) (c handle first qstep : Nat) : State :=
  match s.ctx c with
  | none => s
  | some x => match x.table? handle with
    | none => s
    | some t =>
      let s := (s.localPages x t).foldl (fun s uj =>
        if uj.2 < first then s else s.eachEntry x fun s l h => s.releaseEntry x t qstep uj.1 l h) s
      s.modCtx c fun x => { x with copies := x.copies.map fun k =>
        if k.handle = handle && first ≤ k.page then { k with abandoned := true } else k }

/-- The boundary's QSTEP (R201). -/
def qstepOf (commit retract : Option Nat) (last : Nat) : Nat :=
  match commit, retract with
  | some n, _ => n + 1
  | none, some n => n
  | none, none => last + 1

/-! ## Tables -/

/-- Local pages that a table needs for `maxLen` slots on the member with index `m`. -/
def State.tablePagesOn (s : State) (x : Ctx) (handle maxLen m : Nat) : Nat :=
  ((pagesOn x.runLog2 (s.homeIdx handle) s.members.length m (cdiv maxLen 256)).map fun j =>
    localIndex x.runLog2 s.members.length j + 1).foldl max 0

/-- Those of this member. -/
def State.tablePages (s : State) (x : Ctx) (handle maxLen : Nat) : Nat := s.tablePagesOn x handle maxLen s.me

def tableBytes (x : Ctx) (pages : Nat) : Nat := cdiv (8 * pages * x.perPage) 128 * 128

/-- The bytes of a penalty table (R270): 4,096 entries of eight bytes. The manual gives the table's capacity and place, and
no layout of an entry: token in the first word, ALL and GEN in the second (DESIGN CHOICE, log entry 9). -/
def penBytes : Nat := 4096 * 8

/-- The bytes that a sequence takes in the table area: its page table, and at its home its penalty table (R190). -/
def State.areaBytes (s : State) (x : Ctx) (handle pages : Nat) : Nat :=
  tableBytes x pages + (if s.isHome handle then penBytes else 0)

/-- The place of a new table: the lowest 128-byte aligned gap above the page descriptor table (R194 leaves the place
to the manager: DESIGN CHOICE, log entry 9). None when the table area has no room. -/
def State.tablePlace (s : State) (x : Ctx) (bytes : Nat) : Option Nat :=
  let start := cdiv (x.tableBase + 16 * x.poolPages) 128 * 128
  let used := x.tables.map fun t => (t.base, t.base + s.areaBytes x t.handle t.pages)
  let ok (a : Nat) : Bool := a + bytes ≤ x.range * 2 ^ 21 && used.all fun u => a + bytes ≤ u.1 || u.2 ≤ a
  ((start :: used.map (·.2)).filter ok).foldl (fun m a => some (match m with | none => a | some b => min a b)) none

/-- Pool pages that a sequence of `maxLen` slots needs on the member with index `me`. -/
def State.poolNeed (s : State) (x : Ctx) (handle maxLen me : Nat) : Nat :=
  (pagesOn x.runLog2 (s.homeIdx handle) s.members.length me (cdiv maxLen 256)).length * x.perPage

/-- Opens a table for a sequence on this member (R194). -/
def State.openTable (s : State) (c handle home maxLen : Nat) : State :=
  match s.ctx c with
  | none => s
  | some x =>
    let n := s.tablePages x handle maxLen
    match s.tablePlace x (s.areaBytes x handle n) with
    | none => s
    | some a =>
      let t : Table := ⟨handle, home, a, n, 0, 0, false, 0, false, .default, .default⟩
      let s := s.setCtx c (x.setTable t)
      (List.range n).foldl (fun s u => s.eachEntry x fun s l h => s.setPtEntry x t u l h .none) s

/-! ## Maps (R204, R205) -/

/-- Shares logical pages `first` to `first + count - 1` of `src` with `dst` (mode 0b00), and sets the destination's
length. -/
def State.sharePages (s : State) (c dst src first count length : Nat) : State :=
  match s.ctx c with
  | none => s
  | some x => match x.table? dst, x.table? src with
    | some td, some ts =>
      let js := (List.range count).map (first + ·)
      let s := js.foldl (fun s j =>
        if !s.holds x dst j then s
        else
          let u := localIndex x.runLog2 s.members.length j
          s.eachEntry x fun s l h =>
            let e := s.ptEntry x ts u l h
            if !e.valid then s
            else (s.setPtEntry x ts u l h { e with shared := true }).mapPage x td u l h e.page true) s
      s.setCtx c (x.setTable { td with committed := length })
    | _, _ => s

/-- The pages of `dst` on this member from a list of held pages (mode 0b01): each becomes allocated, owned by the
destination, with SHARED 0. -/
def State.mapHeld (s : State) (c dst first count length : Nat) (list : List Nat) : State :=
  match s.ctx c with
  | none => s
  | some x => match x.table? dst with
    | none => s
    | some t =>
      let js := ((List.range count).map (first + ·)).filter fun j => s.holds x dst j
      let slots := js.flatMap fun j => x.planes.map fun lh => (localIndex x.runLog2 s.members.length j, lh.1, lh.2)
      let s := (slots.zip list).foldl (fun s q =>
        let s := s.modPageDesc x q.2 fun d => { d with state := .allocated, owner := dst }
        s.mapPage x t q.1.1 q.1.2.1 q.1.2.2 q.2 false) s
      s.setCtx c (x.setTable { t with committed := length })

/-- The penalty table of a sequence homed here as it lies in the table area, above the page table (R190, R270). -/
def Table.penBase (t : Table) (x : Ctx) : Nat := t.base + tableBytes x t.pages
def penWords (tbl : List PenEntry) : List Byte := tbl.flatMap fun e => leBytes 4 e.token ++ leBytes 4 (e.all + 2 ^ 16 * e.gen)

/-- The penalty tables that a commit changed are written to the table area, with an entry of zeros after the last. -/
def State.writePen (s : State) (c : Nat) (q : Seq) : State :=
  match s.ctx c with
  | none => s
  | some x => match x.table? q.handle with
    | none => s
    | some t => s.pokeCtx x (t.penBase x) ((penWords q.pen ++ List.replicate 8 0#8).take penBytes)

/-- Takes free pages into the held state for an incoming ship (R265 order 4); none when they do not suffice. -/
def holdPages : Nat → State → Ctx → Option (List Nat × State)
  | 0, s, _ => some ([], s)
  | n + 1, s, x =>
    match s.freePage x with
    | none => none
    | some p =>
      let s := s.modPageDesc x p fun d => { d with state := .held, owner := noOwner, refs := 0 }
      (holdPages n s x).map fun r => (p :: r.1, r.2)

/-! ## Copies (R200) -/

/-- A logical page takes pages of its sequence's reservation, and then those held in no reservation (R203). -/
def State.canTake (s : State) (x : Ctx) (t : Table) : Bool := x.perPage ≤ t.resv + (s.freePages x - x.reserved)

/-- Gives a copy its pages: a new page for each layer and head group, from the sharer's reservation first (R203). While the
pool cannot cover them, the copy waits without pages, and its map does not complete (DESIGN CHOICE, log entry 15). -/
def State.feedCopy (s : State) (c : Nat) (k : Copy) : State :=
  match s.ctx c with
  | none => s
  | some x => match x.table? k.handle with
    | none => s
    | some t =>
      match if s.canTake x t then holdPages x.perPage s x else none with
      | none => s
      | some (ps, s) =>
        let s := ps.foldl (fun s p => s.modPageDesc x p fun d => { d with state := .allocated, owner := k.handle }) s
        let x := x.setTable { t with resv := t.resv - ps.length }
        s.setCtx c { x with copies := x.copies.map fun r => if r = k then { r with new := ps } else r }

/-- Starts the private copy of logical page `j` for `handle`: COW_PENDING set, and its pages taken. -/
def State.startCopy (s : State) (c handle j : Nat) (desc : Option Nat) : State :=
  match s.ctx c with
  | none => s
  | some x => match x.table? handle with
    | none => s
    | some t =>
      let u := localIndex x.runLog2 s.members.length j
      let s := s.eachEntry x fun s l h =>
        let e := s.ptEntry x t u l h
        s.setPtEntry x t u l h { e with cow := true }
      let k : Copy := ⟨handle, j, [], desc, false, false⟩
      (s.modCtx c fun x => { x with copies := x.copies ++ [k] }).feedCopy c k

/-- Copies that still wait for their pages (item 5 of R198). -/
def State.feedCopies (s : State) (c : Nat) : State :=
  match s.ctx c with
  | none => s
  | some x => (x.copies.filter fun k => k.new.isEmpty && !k.abandoned && !k.done).foldl (fun s k => s.feedCopy c k) s

/-- The copy's data moves: every new page takes its old page's bytes, line by line. -/
def State.copyData (s : State) (c : Nat) (x : Ctx) (k : Copy) : State :=
  match x.table? k.handle with
  | none => s
  | some t =>
    let u := localIndex x.runLog2 s.members.length k.page
    let s := s.readTables c x
    (x.planes.zip k.new).foldl (fun s q =>
      let e := s.ptEntry x t u q.1.1 q.1.2
      (List.range (x.pageSize / 128)).foldl (fun s i =>
        match s.managerRead c x (x.pageAddr e.page + 128 * i) 128 with
        | .error st => s.tableFault x st
        | .ok (bs, po, s) => s.pokeData x (x.pageAddr q.2 + 128 * i) bs po) s) s

/-- Item 2 of R198: the entries of a finished copy swap to the new pages, and the old pages are released. -/
def State.swapCopy (s : State) (c qstep : Nat) (k : Copy) : State :=
  match s.ctx c with
  | none => s
  | some x =>
    if k.abandoned then k.new.foldl (fun s p => s.freeDirect x p) s
    else match x.table? k.handle with
      | none => k.new.foldl (fun s p => s.freeDirect x p) s
      | some t =>
        let u := localIndex x.runLog2 s.members.length k.page
        (x.planes.zip k.new).foldl (fun s q =>
          let s := s.releaseEntry x t qstep u q.1.1 q.1.2
          s.mapPage x t u q.1.1 q.1.2 q.2 false) s

/-- A copy is settled at the boundary after its data has moved, or after the writes of an abandoned one have ended; one that never took
pages writes nothing (R200). -/
def Copy.settled (k : Copy) : Bool := k.done || (k.abandoned && k.new.isEmpty)

/-- Settled copies swap their entries or give their pages back; the others stay. -/
def State.swapCopies (s : State) (c qstep : Nat) : State :=
  match s.ctx c with
  | none => s
  | some x =>
    let done := x.copies.filter (·.settled)
    let s := done.foldl (fun s k => s.swapCopy c qstep k) s
    s.modCtx c fun x => { x with copies := x.copies.filter fun k => !k.settled }

/-! ## Quarantine (R201) -/

/-- A read of pool page `p` is in flight (R201): a migration copies a context page that holds a part of it, or a ship reads the
page at its source. Reads of other packages and of the ports are performed at once, and none is in flight between commands. -/
def State.pageRead (s : State) (c : Nat) (x : Ctx) (p : Nat) : Bool :=
  s.places.any (fun q => q.ctx = c && q.copying.isSome && pageOf (x.pageAddr p) ≤ q.next &&
    q.next ≤ pageOf (x.pageAddr p + x.pageSize - 1)) ||
  s.ships.any fun h => h.out && h.ctx = c && h.offered && h.ended.isNone &&
    match x.table? h.name.srcHandle with
    | none => false
    | some t => (List.range t.pages).any fun u => x.planes.any fun lh =>
        let e := s.ptEntry x t u lh.1 lh.2
        e.valid && e.page = p

/-- Quarantined pages that `due` picks, and that nothing reads, return to free. -/
def State.releaseQuarantined (s : State) (c : Nat) (due : PageDesc → Bool) : State :=
  match s.ctx c with
  | none => s
  | some x => (List.range x.poolPages).foldl (fun s p =>
      let d := s.pageDesc x p
      if d.state = .quarantined && due d && !s.pageRead c x p then s.setPageDesc x p { d with state := .free, owner := noOwner }
      else s) s

/-- Item 6 of R198: quarantined pages whose QSTEP has committed return to free. -/
def State.releaseQuarantine (s : State) (c last : Nat) : State := s.releaseQuarantined c fun d => d.qstep ≤ last

/-- While idle, every quarantined page returns to free (R201). -/
def State.releaseQuarantineIdle (s : State) (c : Nat) : State := s.releaseQuarantined c fun _ => true

/-! ## Tentative pages and reservations (R202, R203) -/

/-- Logical pages of a sequence that slots `c` to `c + n - 1` reach, that hold no committed slot and lie here. -/
def State.newPages (s : State) (x : Ctx) (handle committed n : Nat) : List Nat :=
  if n = 0 then [] else
  let first := cdiv committed 256
  let last := (committed + n - 1) / 256
  ((List.range (last + 1 - first)).map (first + ·)).filter fun j => s.holds x handle j

/-- Slots that a sequence's next step may add: a chunk, or a decode row with its nodes. A member that does not home
the sequence knows it as running from the rows of its last plans (DESIGN CHOICE, log entry 15). -/
def Ctx.nextSlots (x : Ctx) (rows : List LenRow) (t : Table) : Nat :=
  let nodes := fieldAt x.spec 0 13 8
  match x.seq? t.handle with
  | some q => match q.state with
    | .prefill => min x.policy.chunk (q.queue.length - 1)
    | .decode => 1 + min (min q.draw.treeMax nodes) (q.maxLen - q.committed - 1)
    | _ => 0
  | none => match rows.find? fun r => r.handle = t.handle with
    | some r => if r.kind = .prefill then x.policy.chunk else 1 + nodes
    | none => if t.running then 1 + nodes else 0

/-- A sequence runs once a plan has admitted it, until it leaves both running states (R203, R256; DEDUCED, log
entry 15). -/
def Ctx.runs (x : Ctx) (rows : List LenRow) (t : Table) : Bool :=
  let row := rows.any fun r => r.handle = t.handle
  match x.seq? t.handle with
  | some q => (q.state = .prefill || q.state = .decode) && (t.running || row)
  | none => if rows.isEmpty then t.running else row

/-- Item 7: tops up the reservation of a running sequence; one that cannot be topped up waits. The pages that are tentative for the
published plan's row are counted again in the need (DESIGN CHOICE, log entry 15). -/
def State.topUp (s : State) (c : Nat) (rows : List LenRow) (t : Table) : State :=
  match s.ctx c with
  | none => s
  | some x =>
    let t := { t with running := x.runs rows t }
    let need := if !t.running then 0 else (s.newPages x t.handle t.committed (x.nextSlots rows t)).length * x.perPage
    let spare := s.freePages x - (x.reserved - t.resv)
    if need ≤ spare then s.setCtx c (x.setTable { t with resv := need, waiting := false })
    else s.setCtx c (x.setTable { t with waiting := true })

def State.topUps (s : State) (c : Nat) (rows : List LenRow) : State :=
  match s.ctx c with
  | none => s
  | some x => x.tables.foldl (fun s t => s.topUp c rows t) s

/-- Allocates the pages of one logical page as tentative (R202). -/
def State.allocLogical (s : State) (c handle j : Nat) : State :=
  match s.ctx c with
  | none => s
  | some x => match x.table? handle with
    | none => s
    | some t =>
      let u := localIndex x.runLog2 s.members.length j
      match holdPages x.perPage s x with
      | none => s
      | some (ps, s) =>
        let s := (x.planes.zip ps).foldl (fun s q =>
          let s := s.modPageDesc x q.2 fun d => { d with state := .tentative, owner := handle, refs := 1 }
          let d := s.pageDesc x q.2
          s.setPtEntry x t u q.1.1 q.1.2 ⟨q.2, d.gen, true, false, false, true⟩) s
        s.setCtx c (x.setTable { t with resv := t.resv - ps.length })

/-- The logical pages that a row of the next plan writes and that no entry covers yet. -/
def State.uncovered (s : State) (c : Nat) (handle committed new : Nat) : List Nat :=
  match s.ctx c with
  | none => []
  | some x => match x.table? handle with
    | none => []
    | some t => (s.newPages x handle committed new).filter fun j =>
        !(s.ptEntry x t (localIndex x.runLog2 s.members.length j) 0 0).valid

/-- Item 7 for one logical page of a row: it takes pages of the row's reservation, and then those held in no reservation; what
these do not cover stays unallocated (R203). -/
def State.allocPage (s : State) (c handle j : Nat) : State :=
  match s.ctx c with
  | none => s
  | some x => match x.table? handle with
    | none => s
    | some t =>
      if s.canTake x t then s.allocLogical c handle j else s

/-- Item 7 for one row of the next plan, in ascending page order. -/
def State.allocRow (s : State) (c : Nat) (r : LenRow) (committed : Nat) : State :=
  (s.uncovered c r.handle committed r.new).foldl (fun s j => s.allocPage c r.handle j) s

/-- After a commit: tentative pages of a sequence below its new length become allocated, the others return to free;
after a retraction or a discard, every tentative page returns to free (R202). -/
def State.resolveTentative (s : State) (c handle committed : Nat) : State :=
  match s.ctx c with
  | none => s
  | some x => match x.table? handle with
    | none => s
    | some t =>
      (s.localPages x t).foldl (fun s uj => s.eachEntry x fun s l h =>
        let e := s.ptEntry x t uj.1 l h
        if !(e.valid && e.tentative) then s
        else if 256 * uj.2 < committed then
          (s.setPtEntry x t uj.1 l h { e with tentative := false }).modPageDesc x e.page fun d =>
            { d with state := .allocated }
        else (s.freeDirect x e.page).setPtEntry x t uj.1 l h .none) s

/-! ## Layer records (R210, R220) -/

/-- The layer record of an attention layer as it stands in context memory. -/
def State.layerRec (s : State) (x : Ctx) (l : Nat) : LayerRec := .ofBytes (s.peekCtx x (x.attnBase + 640 * l) 640) false

/-- The records that a step loaded, or those that stand (R210). -/
def State.layerRecs (s : State) (x : Ctx) (loaded : List LayerRec) (l : Nat) : LayerRec :=
  match loaded[l]? with
  | some r => r
  | none => s.layerRec x l

/-- Every slot of logical page `j` is masked for rows from position `c` on. -/
def LayerRec.masksPage (r : LayerRec) (c j : Nat) : Bool := r.sliding && 256 * j + 255 + r.window ≤ c

/-- The pages of a window-release layer whose last slot lies at or below the new length less WINDOW (R220). -/
def State.windowRelease (s : State) (c handle qstep : Nat) (loaded : List LayerRec) : State :=
  match s.ctx c with
  | none => s
  | some x => match x.table? handle with
    | none => s
    | some t =>
      let ls := (List.range x.layers).filter fun l => (s.layerRecs x loaded l).windowRelease
      ls.foldl (fun s l =>
        let w := (s.layerRecs x loaded l).window
        (s.localPages x t).foldl (fun s uj =>
          if 256 * uj.2 + 255 + w ≤ t.committed then
            (List.range x.hg).foldl (fun s h => s.releaseEntry x t qstep uj.1 l h) s
          else s) s) s

/-! ## The generation check (R196) -/

/-- An entry passes against its page's descriptor. -/
def entryPasses (x : Ctx) (handle : Nat) (e : PtEntry) (d : PageDesc) : Bool :=
  e.valid && decide (e.page < x.poolPages) && e.gen == d.gen &&
    (d.state == .allocated || d.state == .tentative) &&
    (if e.shared then decide (1 ≤ d.refs) else d.owner == handle && d.refs == 1)

/-- The logical pages of a plan row on this member that the step reads or writes. -/
def State.rowPages (s : State) (x : Ctx) (r : LenRow) : List Nat :=
  (List.range (cdiv (r.committed + r.new) 256)).filter fun j => s.holds x r.handle j

/-- The entries of a row that fail the check, as logical page, layer and head group; pages that no row of the sequence sees
are not fetched (R196, R220). -/
def State.failingEntries (s : State) (x : Ctx) (recs : List LayerRec) (t : Table) (r : LenRow) : List (Nat × Nat × Nat) :=
  (s.rowPages x r).flatMap fun j =>
    let u := localIndex x.runLog2 s.members.length j
    (x.planes.filter fun lh => !(s.layerRecs x recs lh.1).masksPage r.committed j &&
      (let e := s.ptEntry x t u lh.1 lh.2
       !entryPasses x r.handle e (s.pageDesc x e.page))).map fun lh => (j, lh.1, lh.2)

/-- A sequence whose entry failed: its passing entries are released, its failing entries discarded without touching a
descriptor (R197). -/
def State.dropTable (s : State) (c handle qstep : Nat) : State :=
  match s.ctx c with
  | none => s
  | some x => match x.table? handle with
    | none => s
    | some t =>
      let s := (s.localPages x t).foldl (fun s uj => s.eachEntry x fun s l h =>
        let e := s.ptEntry x t uj.1 l h
        if !e.valid then s
        else if entryPasses x handle e (s.pageDesc x e.page) then s.releaseEntry x t qstep uj.1 l h
        else s.setPtEntry x t uj.1 l h { e with valid := false }) s
      s.modCtx c fun x => { x.dropTable handle with copies := x.copies.map fun k =>
        if k.handle = handle then { k with abandoned := true } else k }

/-- A closed sequence's pages, reservation and table are released (R199, R255, R261). -/
def State.closeTable (s : State) (c handle qstep : Nat) : State :=
  (s.releaseFrom c handle 0 qstep).modCtx c fun x => x.dropTable handle

end Sys2Proof.Machine
end

