-- ==== Sys2Proof/Machine/Place.lean ====
section
/-! DEFINITION. Placement and migration of pages (R183, R184, R389). A context counts as resident in R184's sense while
a step of it is in flight or a plan for it is published (DEDUCED, log entry 23). -/

namespace Sys2Proof.Machine

/-- A command ends with a status, and its copy's frame becomes free. -/
def State.endPlace (s : State) (p : Place) (status : Nat) : State :=
  let s := s.setReg (oPlace p.path + 0x10) (BitVec.ofNat 32 (status * 2 ^ 8 + (if status = stOk then 2 else 3)))
  let s := { s with places := s.places.filter fun q => q.path != p.path }
  match p.copying with
  | none => s
  | some k => (s.modCtx p.ctx fun x => x.setPage p.next (setMigrating (x.page p.next) false)).giveFrame k

def State.setPlace (s : State) (p : Place) : State :=
  { s with places := s.places.map fun q => if q.path = p.path then p else q }

/-- One more page completed by a path's command. -/
def State.placeDone (s : State) (path : Path) (n : Nat) : State := s.bump (oPlace path + 0x14) 26 0 n

/-- The pages of a command. -/
def Place.pages (p : Place) : List Nat := (List.range (p.last - p.first)).map (p.first + ·)

/-- What a change makes of the entry of page `g`; WRITABLE goes with a page that moves to another frame. -/
def SwapTo.entry (t : SwapTo) (g e : Nat) : Nat :=
  match t with
  | .hbm k => hbmEntry k (entryWritable e)
  | .fabric node => fabricEntry node g
  | .writable b => setWritable e b

/-- The entry of a page once the changes that wait have been made. -/
def State.entryDue (s : State) (c : Nat) (x : Ctx) (g : Nat) : Nat :=
  (s.swaps.filter fun w => w.ctx = c && w.page = g).foldl (fun e w => w.dest.entry g e) (x.page g)

/-- R183: why a command ends with `DENIED` when its turn comes; whether NODE lends is known by asking it (R389). A faulted
context has no page with VALID = 1. -/
def State.placeRefused (s : State) (p : Place) : Bool :=
  match s.ctx p.ctx with
  | none => true
  | some x =>
    p.last ≤ p.first || x.range < p.last || 3 ≤ p.op ||
    p.pages.any (fun g => !entryValid (x.page g)) ||
    (p.op = 0 && p.pages.any fun g => entryWritable (s.entryDue p.ctx x g)) ||
    (p.op = 2 && p.pages.any fun g => entryFabric (s.entryDue p.ctx x g)) ||
    (p.op = 0 && !p.fabric && !p.anyDie && !s.stacks.contains p.die)

/-- Frames that pages have left are free once no step is in flight (R184 step 5). -/
def State.freeLeaving (s : State) : State := if s.attempt.isNone then { s.giveFrames s.leaving with leaving := [] } else s

/-- A unit's translation cache holds a page-map entry; the oldest of a full cache makes room. -/
def State.cacheEntry (s : State) (unit size c page entry : Nat) : State :=
  if s.xlate.any fun e => e.1 = unit && e.2.1 = c && e.2.2.1 = page then s
  else
    let mine := s.xlate.filter fun e => e.1 = unit
    let rest := if mine.length < size then s.xlate else s.xlate.erase (mine.headD (0, 0, 0, 0))
    { s with xlate := rest ++ [(unit, c, page, entry)] }

/-- Entries that have changed leave the caches (R161, R328). -/
def State.freshXlate (s : State) : State :=
  { s with xlate := s.xlate.filter fun e => ((s.ctx e.2.1).map fun x => x.page e.2.2.1) = some e.2.2.2 }

/-- An entry changes now, as it stands at this moment: it points at its new place, and the frame that it leaves becomes free with the
step in flight. -/
def State.applySwap (s : State) (w : Swap) : State :=
  match s.ctx w.ctx with
  | none => s
  | some x =>
    let e := x.page w.page
    let y := w.dest.entry w.page e
    let s := (s.setCtx w.ctx (x.setPage w.page y)).freshXlate
    let s := match w.path with | some p => s.placeDone p 1 | none => s
    if entryHbm e && !(entryHbm y && entryKey y = entryKey e) then { s with leaving := s.leaving ++ [entryKey e] }.freeLeaving else s

/-- A change of an entry, at the next boundary or at once (R184 step 4). -/
def State.swapEntry (s : State) (w : Swap) : State :=
  match s.ctx w.ctx with
  | none => s
  | some x => if s.planned x.job then { s with swaps := s.swaps ++ [w] } else s.applySwap w

/-- The boundary of context `c`: its entries change; frames whose steps have ended become free. -/
def State.applySwaps (s : State) (c : Nat) : State :=
  ((s.swaps.filter fun w => w.ctx = c).foldl State.applySwap { s with swaps := s.swaps.filter fun w => w.ctx != c }).freeLeaving

/-- The page is already where the move takes it. -/
def Place.there (p : Place) (e : Nat) : Bool :=
  if p.fabric then entryFabric e && entryNode e = p.node else entryHbm e && (p.anyDie || entryDie e = p.die)

/-- A command takes its turn: its DONE counts from 0, and changes of an earlier command of its path that still wait count no
more. -/
def State.startPlace (s : State) (p : Place) : State :=
  { (s.setReg (oPlace p.path + 0x14) 0#32).setPlace { p with started := true } with
    swaps := s.swaps.map fun w => if w.path = some p.path then { w with path := none } else w }

/-- The pages of a make-read-only or make-writable command change at the next boundary (R184). -/
def State.markPages (s : State) (p : Place) : State :=
  p.pages.foldl (fun s g => match s.ctx p.ctx with
    | none => s
    | some _ => s.swapEntry ⟨some p.path, p.ctx, g, .writable (p.op = 2)⟩)
    (s.setPlace { p with started := true, next := p.last })

/-- The lender is asked for a page that moves back: the lines of a READ, 64 at a time (R184, R323, R389). -/
def State.askPage (s : State) (p : Place) (job e : Nat) : State :=
  (List.range 256).foldl (fun s i =>
    s.sendRequest p.ctx job (entryNode e) (entryRframe e * 2 ^ 21 + 8192 * i) (.read 64) false (.copy p.path p.ctx (p.next * 16384 + 64 * i))) s

/-- Lines of a page that moves back are still under way. -/
def State.copyWaits (s : State) (path : Path) : Bool :=
  s.outst.any fun o => match o.purpose with | .copy q _ _ => decide (q = path) | _ => false

/-- The command at the front starts, moves on page by page, and ends; then the next one takes its turn. A move to HBM
stops at each copy, and a command with TIER fabric at each confirmation (R183, R389). A command ends with `CANCELLED` where
its context is torn down and not yet released (R184). One that ends `DENIED` leaves `MEM_PLACE_DONE` as the path's last command
left it (DESIGN CHOICE, log entry 23). -/
def runPlacesAux : Nat → State → State
  | 0, s => s
  | n + 1, s =>
    match s.places with
    | [] => s
    | p :: _ =>
      if !p.started then
        if s.placeRefused p then runPlacesAux n (s.endPlace p stDenied)
        else if ((s.ctx p.ctx).map fun x => x.teardown.isSome) = some true then runPlacesAux n (s.endPlace p stCancelled)
        else if p.op != 0 && !p.fabric then runPlacesAux n ((s.startPlace p).markPages p)
        else runPlacesAux n (s.startPlace p)
      else if p.copying.isSome then s
      else if p.last ≤ p.next then
        if s.swaps.any fun w => w.ctx = p.ctx && w.path = some p.path then s else runPlacesAux n (s.endPlace p stOk)
      else match s.ctx p.ctx with
        | none => s.endPlace p stCancelled
        | some x =>
          let e := s.entryDue p.ctx x p.next
          if p.fabric then
            if s.outst.any fun o => match o.purpose with | .lend q _ _ => decide (q = p.path) | _ => false then s
            else s.sendRequest p.ctx x.job p.node (p.next * 2 ^ 21) (.read 1) false (.lend p.path p.ctx p.next)
          else if p.there e then runPlacesAux n ((s.setPlace { p with next := p.next + 1 }).placeDone p.path 1)
          else match (if p.anyDie then s.frameFrom 0 else s.freeFrame p.die) with
            | none => runPlacesAux n (s.endPlace p stNoPages)
            | some k =>
              let f := x.page p.next
              let s := ((s.takeFrame k).setCtx p.ctx (x.setPage p.next (setMigrating f true))).setPlace { p with copying := some k }
              if entryFabric f then s.askPage p x.job f else s

/-- Every command that can run does. -/
def State.runPlaces (s : State) : State :=
  runPlacesAux ((s.places.map fun p => p.last - p.first + 4).foldl (· + ·) 4) s

/-- The lender has confirmed a page: once every page is confirmed, all of them move or change (R183 changes nothing before). -/
def State.lendConfirmed (s : State) (path : Path) (page : Nat) : State :=
  match s.places.find? fun p => p.path = path && p.next = page && p.fabric with
  | none => s
  | some p =>
    let s := s.setPlace { p with next := p.next + 1 }
    if p.next + 1 < p.last then s.runPlaces
    else if p.op != 0 then (s.markPages p).runPlaces
    else
      (p.pages.foldl (fun s g => match s.ctx p.ctx with
        | none => s
        | some x =>
          if p.there (s.entryDue p.ctx x g) then s.placeDone p.path 1 else s.swapEntry ⟨some p.path, p.ctx, g, .fabric p.node⟩) s).runPlaces

/-- The lender refused: the command ends with `DENIED`. -/
def State.lendRefused (s : State) (path : Path) : State :=
  match s.places.find? fun p => p.path = path with
  | none => s
  | some p => (s.endPlace p stDenied).runPlaces

/-- Lines of a page copied to a frame, poison as it stands (R184 step 3). -/
def copyPage (x : Ctx) (page key : Nat) : Nat → State → State
  | 0, s => s
  | n + 1, s =>
    let s := copyPage x page key n s
    let r := s.readLine (lineOf (x.page page) 0).1 ((lineOf (x.page page) 0).2 + n) 3
    r.2.2.writeLine (key / 2 ^ 15) ((key % 2 ^ 15) * 16384 + n) r.1 r.2.1

/-- Lines of a lender for a page that moves back reach their place in the new frame, with their poison (R169, R389). -/
def State.copyLanded (s : State) (path : Path) (c line : Nat) (bytes : List Byte) (poison : Bool) : State :=
  match s.places.find? fun p => p.path = path && p.ctx = c && p.next = line / 16384 with
  | none => s
  | some p => match p.copying with
    | none => s
    | some k =>
      (indexed (chunks 128 ((bytes ++ List.replicate (8192 - bytes.length) 0#8).take 8192))).foldl (fun s ib =>
        s.writeLine (k / 2 ^ 15) ((k % 2 ^ 15) * 16384 + line % 16384 + ib.1) ib.2 poison) s

/-- The copy of a page ends (R184 steps 4 and 5); one from a lender has ended once every line of it is here. -/
def State.copyEnds (s : State) (p : Place) : State :=
  match s.ctx p.ctx, p.copying with
  | some x, some k =>
    let e := x.page p.next
    if entryFabric e && s.copyWaits p.path then s
    else
      let s := if entryHbm e then copyPage x p.next k 16384 s else s
      let s := s.setPlace { p with next := p.next + 1, copying := none }
      (s.swapEntry ⟨some p.path, p.ctx, p.next, .hbm k⟩).runPlaces
  | _, _ => s

/-- `MEM_PLACE_CMD.GO` of a path: the command in its registers is queued; without effect while one is (R183). The reserved
TIER codes 0b00 and 0b11 are taken as HBM (DESIGN CHOICE, log entry 23). -/
def State.placeGo (s : State) (path : Path) : State :=
  if s.places.any fun p => p.path = path then s
  else
    let t := s.reg (oPlace path)
    let first := fld (s.reg (oPlace path + 4)) 26 0
    let p : Place := ⟨path, fld t 5 0, fld t 15 14, fld t 13 12 = 2, fld t 27 16, bit t 11, fld t 10 8, false, first, first,
      first + fld (s.reg (oPlace path + 8)) 26 0, none⟩
    ({ s with places := s.places ++ [p] }.setReg (oPlace path + 0x10) 1#32).runPlaces

end Sys2Proof.Machine
end

