-- ==== Sys2Proof/Machine/Contexts.lean ====
section
/-! DEFINITION. Contexts: creation and its record, faults, teardown and release, preserved regions (R160, R190, R282,
R376 to R380, R439, R440). -/

namespace Sys2Proof.Machine

/-! ## Defaults (R258, R262) -/

def policyDefault : Policy := ⟨8192, 16384, 8192, 8192, 0, 0⟩
def benchDefault : Bench := ⟨0, 4, 0, List.replicate 4 0xFFFFFFFF, List.replicate 4 0⟩

/-! ## The context record (R190, R282, R377) -/

/-- Every bit of the word at an offset outside `m` is 0. -/
def clearOutside (ws : List Word) (off : Nat) (m : Word) : Bool := wordAt ws off &&& ~~~ m = 0#32

/-- Two byte ranges, each a start and a length, share a byte. -/
def overlaps (a b : Nat × Nat) : Bool := decide (0 < a.2 ∧ 0 < b.2 ∧ a.1 < b.1 + b.2 ∧ b.1 < a.1 + a.2)

/-- The fields of the KV layout record are in range (R190). With no pool, nothing is judged. -/
def kvRecordOk (k : List Word) : Bool :=
  let c (o : Nat) (m : Word) := clearOutside k o m
  wordAt k 0x10 = 0#32 ||
  (c 0 0x007F0F07#32 && c 4 0x003FFFFF#32 && c 0x0C 0xFFFF#32 && c 0x14 0#32 && c 0x1C 0xFFFF#32 && c 0x24 0xFFFF#32 &&
   c 0x28 0#32 && c 0x2C 0#32 && fieldAt k 0 2 0 ≤ 3 && fieldAt k 0 11 8 ≤ 8 && 1 ≤ fieldAt k 0 22 16 &&
   fieldAt k 0 22 16 ≤ 64 && 1 ≤ fieldAt k 4 15 0 && fieldAt k 4 15 0 ≤ 1024 && 1 ≤ fieldAt k 4 21 16 &&
   fieldAt k 4 21 16 ≤ 32 && fieldAt k 8 6 0 = 0 && fieldAt k 0x18 6 0 = 0 && fieldAt k 0x20 6 0 = 0)

/-- The speculation table obeys R282. -/
def specOk (t : List Word) : Bool :=
  let heads := fieldAt t 0 3 0
  let nodes := fieldAt t 0 13 8
  let parents := (List.range nodes).map fun k => fieldAt t (0x90 + 4 * k) 5 0
  let depth (k : Nat) := depthOf parents (nodes + 1) k
  clearOutside t 0 0x3F0F#32 && clearOutside t 4 0#32 && clearOutside t 8 0#32 && clearOutside t 12 0#32 &&
  heads ≤ 8 && nodes ≤ 32 &&
  ((List.range 8).all fun h =>
    let b := 0x10 + 16 * h
    clearOutside t b 0xFFFF#32 && clearOutside t (b + 4) 0xFFFF#32 && clearOutside t (b + 12) 0xFFFF#32 &&
    (heads ≤ h || (1 ≤ fieldAt t (b + 4) 15 0 && fieldAt t (b + 4) 15 0 ≤ 32768))) &&
  ((List.range 32).all fun k => clearOutside t (0x90 + 4 * k) 0x0F3F#32) &&
  ((List.range nodes).all fun k => parents.getD k 0 ≤ k && depth (k + 1) ≤ heads &&
    (List.range k).all fun j => !(parents.getD j 0 == parents.getD k 0 &&
      fieldAt t (0x90 + 4 * j) 11 8 == fieldAt t (0x90 + 4 * k) 11 8))

/-- The whole record, beside the body's range and lend window (R190, R378). -/
def recordOk (r : List Word) (kind range lendFirst lendCount : Nat) : Bool :=
  let k := r.take 12
  let t := window 16 68 r
  let sFirst := fieldAt r 0x150 26 0
  let sCount := fieldAt r 0x154 26 0
  let pg := 2 ^ 21
  let pool := (addr48 k 0x08 0x0C, (wordAt k 0x10).toNat * (if 2 ≤ fieldAt k 0 2 0 then 67584 else 34816))
  let attn := (addr48 k 0x20 0x24, 640 * fieldAt k 4 15 0)
  let tb := addr48 k 0x18 0x1C
  let area := (tb, range * pg - tb)
  let zeros (a n : Nat) := (List.range n).all fun i => wordAt r (a + 4 * i) = 0#32
  zeros 0x30 4 && zeros 0x158 10 && clearOutside r 0x150 0x7FFFFFF#32 && clearOutside r 0x154 0x7FFFFFF#32 &&
  (sCount = 0 || kind = 1) && (sCount != 0 || sFirst = 0) && sFirst + 2 * sCount ≤ range && kvRecordOk k && specOk t &&
  (wordAt k 0x10 = 0#32 ||
    (pool.1 + pool.2 ≤ range * pg && attn.1 + attn.2 ≤ range * pg && tb + 16 * (wordAt k 0x10).toNat ≤ range * pg &&
     !overlaps pool attn && !overlaps pool area && !overlaps attn area &&
     !overlaps (lendFirst * pg, lendCount * pg) area && !overlaps (sFirst * pg, 2 * sCount * pg) area))

/-! ## Preserved regions (R439, R440) -/

def State.presValid (s : State) (k : Nat) : Bool := bit (s.reg (oPres k)) 31
def State.presJob (s : State) (k : Nat) : Nat := fld (s.reg (oPres k)) 15 0
def State.presHeld (s : State) (k : Nat) : Bool := s.preserved.any fun e => e.1 = k

/-- The frames of the valid regions of a job are recorded, each frame once. -/
def State.recordRegions (s : State) (x : Ctx) : State :=
  (List.range 8).foldl (fun s k =>
    if s.presValid k && s.presJob k = x.job && !s.presHeld k then
      let first := fld (s.reg (oPres k + 4)) 26 0
      let count := fld (s.reg (oPres k + 8)) 26 0
      let es := x.pages.filter fun e => first ≤ e.1 && e.1 < first + count && entryValid e.2 && entryHbm e.2 &&
        !s.preserved.any fun q => entryKey q.2.2 = entryKey e.2
      { s with preserved := s.preserved ++ es.map fun e => (k, e.1, e.2) }
    else s) s

/-- The frames that preserved regions hold. -/
def State.heldFrames (s : State) : List Nat := s.preserved.map fun e => entryKey e.2.2

/-- A region's held frames become free (R440). -/
def State.freeRegion (s : State) (k : Nat) : State :=
  let gone := (s.preserved.filter fun e => e.1 = k).map fun e => entryKey e.2.2
  { s.giveFrames gone with preserved := s.preserved.filter fun e => e.1 != k }

/-! ## Creation (R378) -/

/-- Pages of the range that held regions of the job map back, and the frames beyond the range that become free. -/
def State.heldFor (s : State) (job range : Nat) : List (Nat × Nat) × List Nat :=
  let es := s.preserved.filter fun e => s.presJob e.1 = job
  let es := es.map fun e => e.2
  (es.filter (fun e => e.1 < range), (es.filter fun e => range ≤ e.1).map fun e => entryKey e.2)

/-- The pages of the range, each on its die in turn (R378), or on its recorded frame (R440). -/
def mapRange (held : List (Nat × Nat)) : Nat → State × List (Nat × Nat) → State × List (Nat × Nat)
  | 0, r => r
  | n + 1, r =>
    let r := mapRange held n r
    match held.find? fun e => e.1 = n with
    | some e => (r.1, r.2 ++ [(n, e.2)])
    | none =>
      match r.1.frameFrom n with
      | none => r
      | some k => (r.1.takeFrame k, r.2 ++ [(n, hbmEntry k true)])

/-- The jig area's frames, on the lowest-numbered die that has one (DESIGN CHOICE, log entry 9). -/
def takeFrames : Nat → State × List Nat → State × List Nat
  | 0, r => r
  | n + 1, r =>
    match r.1.frameFrom 0 with
    | none => r
    | some k => takeFrames n (r.1.takeFrame k, r.2 ++ [k])

/-- Every frame that a context's pages may take. -/
def State.freeTotal (s : State) : Nat := (s.stacks.map s.freeCount).foldl (· + ·) 0

/-- A created context, its pages and frames taken, its counters cleared and its pool's descriptors written. No ratio
change precedes its first plan, so no minimum hold runs (R153). -/
def State.createCtx (s : State) (ws : List Word) (record : List Word) : State :=
  let c := hContext ws
  let range := fieldAt ws 0x1C 26 0
  let job := fieldAt ws 0x18 15 0
  let held := s.heldFor job range
  let s := { s.giveFrames held.2 with preserved := s.preserved.filter fun e => s.presJob e.1 != job }
  let m := mapRange held.1 range (s, [])
  let j := takeFrames (fieldAt ws 0x20 31 16) (m.1, [])
  let x : Ctx :=
    { job := job, kind := fieldAt ws 0x18 17 16, priority := fieldAt ws 0x18 19 18, range := range,
      quantum := max 1 (fieldAt ws 0x20 15 0), jigFrames := j.2, lendJob := fieldAt ws 0x24 15 0,
      lendFirst := fieldAt ws 0x28 26 0, lendCount := fieldAt ws 0x2C 26 0, state := .active, fault := 0,
      pages := m.2, jigs := [], jigPlaces := [], oldJigs := [], buckets := [], kv := record.take 12, spec := window 16 68 record,
      stateFirst := fieldAt record 0x150 26 0, stateCount := fieldAt record 0x154 26 0, step := 0, seqs := [],
      tables := [], copies := [], policy := policyDefault, groupMax := [], bench := benchDefault, ratio := 0, sinceRatio := 65535,
      bookMatch := bit (s.reg oIntCtl) 16, teardown := none, teardownStep := 0, teardownNode := 0,
      destroyDesc := none, holdDesc := none }
  let s := { j.1 with shadowMarks := j.1.shadowMarks.map fun (m : ShadowMark) => if m.ctx = c then { m with clean := 0 } else m }
  let s := (s.setCtx c x).qstatReset c
  let s := s.countersReset c
  let s := (List.range 4).foldl (fun s i => s.setReg (oKvFree c + 4 * i) 0#32) s
  (List.range x.poolPages).foldl (fun s p => s.setPageDesc x p ⟨0, 0, .free, noOwner, 0⟩) s

/-! ## Teardown (R379, R380) -/

/-- RESULT of a descriptor that a teardown completes: a generating one counts its tokens under `CANCELLED` (R305). -/
def Ctx.tornResult (x : Ctx) (status d : Nat) : Nat :=
  if status = stCancelled then ((x.seqs.find? fun q => q.gen = some d).map (·.published)).getD 0 else 0

/-- Plans are discarded unused (R27). What the lead kept of one that has not started is undone. -/
def State.discardPlans (s : State) (gone : Plan → Bool) : State :=
  let t := { s with plans := s.plans.filter fun p => !gone p }
  match s.lead.saved with
  | none => t
  | some m =>
    if !s.plans.any fun p => gone p && p.job = m.job && p.step = m.step then t
    else
      let l := t.lead
      let t := { t with lead := { l with
        cur := m.cur, run := m.run, saved := none
        admitted := l.admitted.filter fun a => !(a.1 = m.job && m.news.contains a.2)
        lastQuota := match m.lastQuota with | some q => enlist m.job q l.lastQuota | none => unlist m.job l.lastQuota
        trains := m.train.toList ++ l.trains } }
      match t.ctxOfJob m.job with
      | none => t
      | some (c, x) => t.setCtx c { x with ratio := m.ratio, sinceRatio := m.sinceRatio }

/-- What the package holds of a job beside its context goes with it: a job that is created again numbers its steps from 1 (R381). -/
def State.forgetJob (s : State) (job : Nat) : State :=
  { s with
    forwards := s.forwards.filter fun f => f.job != job
    lead := { s.lead with
      trains := s.lead.trains.filter fun f => f.job != job
      admitted := s.lead.admitted.filter fun a => a.1 != job
      listed := s.lead.listed.filter fun q => q.1 != job
      reports := s.lead.reports.filter fun r => r.job != job
      incoming := s.lead.incoming.filter fun r => r.job != job }
    retracted := unlist job s.retracted
    stopped := s.stopped.filter fun p => p.job != job
    sealsHeld := s.sealsHeld.filter fun m => m.job != job
    retractsHeld := s.retractsHeld.filter fun m => m.job != job
    replansDue := s.replansDue.filter (· != job)
    told := s.told.filter fun e => e.1 != job
    telling := s.telling.filter fun e => e.1 != job
    lent := s.lent.filter fun e => e.1 != job }

/-- Step 1 and the closing of R379: accepted descriptors of the context complete once, fences among them (R305), its sequences close
without further records, its moves end, and a tentative plan that names it is discarded unused, for it has no active context to
run in (R378; DEDUCED, log entry 27). The release follows (R379 step 2). -/
def State.teardown (s : State) (c status : Nat) (b : Bound) (node : Nat) : State :=
  match s.ctx c with
  | none => s
  | some x =>
    if x.teardown.isSome then s
    else
      let ds := s.opens.filter fun d => hContext d.words = c && hOpcode d.words != opCtxDestroy
      let s := (s.discardPlans fun p => p.job = x.job).forgetJob x.job
      let s := { s with
        strict := s.strict.filter fun r => r.ctx != c
        past := s.past.filter fun r => r.ctx != c
        ships := s.ships.filter fun h => h.ctx != c
        dueFaults := s.dueFaults.filter fun f => f.1 != c
        stalled := s.stalled.filter fun q => !ds.any fun d => d.id = q.1
        loads := s.loads.filter fun l => l.ctx != c
        joins := s.joins.filter fun j => j.ctx != c
        stor := s.stor.filter fun j => j.ctx != c }
      let s := (ds.foldl (fun s d => match s.desc? d.id with
        | some d => s.finishDesc d status (x.tornResult status d.id) b
        | none => s) s).settleFences b
      let s := s.setCtx c { x with
        seqs := [], tables := [], copies := [], teardown := some status, teardownStep := b.step, teardownNode := node,
        holdDesc := none, buckets := x.buckets }
      ((s.places.filter fun p => p.ctx = c).foldl (fun s p => s.endPlace p stCancelled) s).runPlaces

/-- Shadow replays that have not compared; the self-check of a controller is none (R354). -/
def State.replaysOpen (s : State) : List ShadowOpen := s.shadowOpen.filter fun o => o.unit.kind = 1 || o.unit.unit != 6

/-- Nothing uses a torn-down context any more (R379 step 2). -/
def State.canRelease (s : State) (c : Nat) (x : Ctx) : Bool :=
  !s.planned x.job && !(s.replaysOpen.any fun o => o.ctx = c) && !(s.places.any fun p => p.ctx = c && p.copying.isSome) &&
    !(s.ships.any fun h => h.out && h.ctx = c && h.offered && h.ended.isNone)

/-- The frames that a context holds: its HBM pages, jig area, strict hold area, and the copies that wait to take a page's place. -/
def State.ctxFrames (s : State) (c : Nat) (x : Ctx) : List Nat :=
  ((x.pages.filter fun e => entryValid e.2 && entryHbm e.2).map fun e => entryKey e.2) ++ x.jigFrames ++ (assoc c s.strictAreas).getD [] ++
    (s.swaps.filter fun w => w.ctx = c).filterMap fun w => match w.dest with | .hbm k => some k | _ => none

/-- Step 2 and 3 of R379, and the end of R380: everything the context holds is released; a fault writes its event and
leaves the context faulted, a destroy frees the number and completes, after the boundary `b` where one released it. -/
def State.releaseCtx (s : State) (c : Nat) (b : Bound) : State :=
  match s.ctx c with
  | none => s
  | some x => match x.teardown with
    | none => s
    | some st =>
      if !s.canRelease c x then s
      else
        let s := if x.destroyDesc.isSome then s.recordRegions x else s
        let kept := s.heldFrames
        let s := s.giveFrames ((s.ctxFrames c x).filter fun k => !kept.contains k)
        let s := { s with
          swaps := s.swaps.filter fun w => w.ctx != c
          heldInputs := s.heldInputs.filter fun h => h.ctx != c
          strictAreas := unlist c s.strictAreas }
        let first := x.state = .active || x.state = .destroying && x.fault = 0
        let s := s.setCtx c { x with
          state := if x.destroyDesc.isSome then .destroying else .faulted
          fault := if st = stCancelled then x.fault else st
          pages := [], jigFrames := [], jigs := [], jigPlaces := [], oldJigs := [], lendJob := 0, lendFirst := 0, lendCount := 0 }
        let s := if st != stCancelled && first then s.event st (some c) x.job x.teardownNode x.teardownStep else s
        match x.destroyDesc with
        | none => s
        | some id => (s.dropCtx c).complete id stOk 0 b

/-- A context faults: outside any step at once on this member, or at the boundary `b` (R365, R379); `node` is the member where the fault
arose. -/
def State.faultAt (s : State) (c status : Nat) (b : Bound) (node : Nat) : State := (s.teardown c status b node).releaseCtx c b

/-- A fault outside every boundary. -/
def State.faultNow (s : State) (c status : Nat) : State := s.faultAt c status .none s.node

/-! ## Faults in a step (R159, R170, R337) -/

/-- The step in flight names its context in the seal with a cause, once. -/
def State.stepFault (s : State) (handle cause : Nat) : State :=
  s.modAttempt fun a =>
    let f : SealFault := ⟨handle, a.ctx, cause⟩
    if a.faults.contains f then a else { a with faults := a.faults ++ [f] }

/-- HANDLE of an entry that names the whole context. -/
def wholeCtx : Nat := 0xFFFFFFFF

/-- A fault that a command raised: at once outside any step of the context. While one is in flight, or planned again, the next seal of the
context names it, so that every member tears the context down at one commit (R379; DEDUCED, log entry 27). -/
def State.faultCtx (s : State) (c status : Nat) : State :=
  match s.ctx c with
  | none => s
  | some x =>
    if s.planned x.job || s.replansDue.contains x.job then
      if s.dueFaults.contains (c, status) then s else { s with dueFaults := s.dueFaults ++ [(c, status)] }
    else s.faultNow c status

/-- Faults of a context that no seal has named, once no step of it is in flight, planned, or to be planned again. -/
def State.raiseDue (s : State) (c : Nat) : State :=
  match s.dueFaults.find? fun f => f.1 = c with
  | none => s
  | some f => s.faultCtx c f.2

end Sys2Proof.Machine
end

