-- ==== Sys2Proof/Machine/Jigs.lean ====
section
/-! DEFINITION. Jig images: their sections, the checks of `JIG_LOAD`, installation, and the bucket table (R132 to
R143, R147, R148, R161, R178, R227, R282). -/

namespace Sys2Proof.Machine

/-! ## Reading an image (R133) -/

/-- The little-endian word at a byte offset of an image or section. -/
def word (bs : List Byte) (o : Nat) : Word := BitVec.ofNat 32 (leNat (window o 4 bs))
def imgFld (bs : List Byte) (o msb lsb : Nat) : Nat := fld (word bs o) msb lsb
def imgNat (bs : List Byte) (o : Nat) : Nat := (word bs o).toNat

def jigDigest (bs : List Byte) : Nat := join64 (word bs 0x08) (word bs 0x0C)
def jigBench (bs : List Byte) : Nat := imgFld bs 0x04 20 18
def jigSeed (bs : List Byte) : Nat := beNat (window 0x10 16 bs)
def jigMembers (bs : List Byte) : Nat := imgFld bs 0x20 12 0
def jigStages (bs : List Byte) : Nat := imgFld bs 0x24 15 0
def jigKerf (bs : List Byte) : Nat := imgFld bs 0x24 23 16
def jigCycles (bs : List Byte) : Nat := imgNat bs 0x28
def jigNomNs (bs : List Byte) : Nat := imgNat bs 0x2C
def jigWcA (bs : List Byte) : Nat := imgNat bs 0x30
def jigWcB (bs : List Byte) : Nat := imgNat bs 0x34
def jigPlanPoint (bs : List Byte) : Nat := imgNat bs 0x38
def jigPlanLead (bs : List Byte) : Nat := imgNat bs 0x3C
def secOffset (bs : List Byte) (i : Nat) : Nat := imgNat bs (0x40 + 8 * i)
def secLength (bs : List Byte) (i : Nat) : Nat := imgNat bs (0x44 + 8 * i)
def jigSec (bs : List Byte) (i : Nat) : List Byte := window (secOffset bs i) (secLength bs i) bs
/-- The entries of a section of entry size `n`. -/
def jigEntries (bs : List Byte) (i n : Nat) : List (List Byte) := chunks n (jigSec bs i)

/-! ## Operand descriptors (R134) -/

/-- The operand descriptor of an index; none beyond the section. -/
def jigOperand (bs : List Byte) (i : Nat) : Option (List Byte) := (jigEntries bs 1 48)[i]?

/-- An element format by its code; none for BF16 and for a reserved code. -/
def fmtOf (code : Nat) (clamp : Bool) : Option Fmt :=
  match code with
  | 0 => some .e2m1
  | 1 => some (.int4 clamp)
  | 2 => some .e4m3
  | 3 => some .e5m2
  | _ => none
def outFmtOf (code : Nat) : OutFmt :=
  match code with
  | 0 => .bf16
  | 1 => .fp16
  | 2 => .fp32
  | 3 => .e4m3
  | _ => .e5m2

def opAFmt (d : List Byte) : Nat := imgFld d 0 3 0
def opWFmt (d : List Byte) : Nat := imgFld d 0 11 8
def opA (d : List Byte) : Fmt := (fmtOf (opAFmt d) (imgFld d 0 4 4 = 1)).getD .e2m1
def opW (d : List Byte) : Fmt := (fmtOf (opWFmt d) (imgFld d 0 12 12 = 1)).getD .e2m1
def opOut (d : List Byte) : Nat := imgFld d 0 7 5
def opSigma (d : List Byte) : Word := word d 4
def opK (d : List Byte) : Nat := imgFld d 8 20 0
def opN (d : List Byte) : Nat := imgFld d 12 23 0
def opWBase (d : List Byte) : Nat := imgNat d 0x10 + 2 ^ 32 * imgFld d 0x14 15 0
def opOutBase (d : List Byte) : Nat := imgNat d 0x18 + 2 ^ 32 * imgFld d 0x1C 15 0
def opRot (d : List Byte) : RotSpec := ⟨word d 0x20, word d 0x24, word d 0x28, word d 0x2C⟩
def isFour (f : Nat) : Bool := f ≤ 1
def isEight (f : Nat) : Bool := f = 2 || f = 3

/-- One descriptor by itself: reserved bits and codes, K, the format pairs of R45 and R76, W_BASE (R178) and the
rules of R91 for its spec. The K of an expert's down product is the member's slice width, and the field is ignored (R226). -/
def operandOk (d : List Byte) (down : Option Nat) : Bool :=
  let r := opRot d
  let k := down.getD (opK d)
  imgFld d 0 31 13 = 0 && imgFld d 8 31 21 = 0 && imgFld d 12 31 24 = 0 && imgFld d 0x14 31 16 = 0 && imgFld d 0x1C 31 16 = 0 &&
  opAFmt d ≤ 4 && opWFmt d ≤ 4 && opOut d ≤ 4 && 1 ≤ k && ((opAFmt d == 4) == (opWFmt d == 4)) &&
  !(isFour (opAFmt d) && isEight (opWFmt d)) && !(isEight (opAFmt d) && isFour (opWFmt d)) &&
  opWBase d % 128 = 0 && r.ok k && (opAFmt d != 4 || (r.w0 = 0#32 && r.w1 = 0#32 && r.w2 = 0#32 && r.w3 = 0#32))

/-- Two specs in use share no LAYER and SITE pair (R91). -/
def specsApart (ds : List (List Byte)) : Bool :=
  decide (((ds.map opRot).filter (·.inUse)).Pairwise fun a b => ¬ (a.layer = b.layer ∧ a.site = b.site))

/-! ## Stages and windows (R135, R136, R140, R148) -/

def stKind (e : List Byte) : Nat := imgFld e 0 3 0
def stLayer (e : List Byte) : Nat := imgFld e 0 31 16
def stCycles (e : List Byte) : Nat := imgNat e 4
def stCore (e : List Byte) : Nat := imgNat e 8
def stFirst (e : List Byte) : Nat := imgFld e 12 15 0
def stWindows (e : List Byte) : Nat := imgFld e 12 31 16
def jigStageTable (bs : List Byte) : List (List Byte) := jigEntries bs 2 16
def jigWindows (bs : List Byte) : List (List Byte) := jigEntries bs 3 16

def wEngine (w : List Byte) : Nat := imgFld w 0 3 0
def wSite (w : List Byte) : Nat := imgFld w 0 6 4
def wUnit (w : List Byte) : Nat := imgFld w 0 15 8
def wDie (w : List Byte) : Nat := imgFld w 0 18 16
def wStart (w : List Byte) : Nat := imgNat w 4
def wLength (w : List Byte) : Nat := imgNat w 8
def wBound (w : List Byte) : Nat := imgNat w 12

/-- The window entries of a stage. -/
def stageWindows (bs : List Byte) (e : List Byte) : List (List Byte) := window (stFirst e) (stWindows e) (jigWindows bs)

/-- A window entry by itself, whether or not a stage names it: reserved bits, unit, and SITE (R136, R140). -/
def windowForm (dies : Nat) (w : List Byte) : Bool :=
  imgFld w 0 7 7 = 0 && imgFld w 0 31 19 = 0 && wEngine w ≤ 7 && wDie w < dies &&
  (if [0, 1, 3].contains (wEngine w) then wUnit w < 48 else wUnit w = 0xFF) && (wEngine w = 3 || wSite w = 0)

/-- A window within its stage: its end, and the rules of ENGINE 0x3 (R136, R140). -/
def windowOk (ds : List (List Byte)) (stage w : List Byte) : Bool :=
  wStart w + wLength w ≤ stCycles stage &&
  (wEngine w != 3 || ds.any fun d =>
    (opRot d).wide && (opRot d).layer = stLayer stage && (opRot d).site = wSite w && (opRot d).budget = wBound w)

def stageOk (bs : List Byte) (ds : List (List Byte)) (e : List Byte) : Bool :=
  stKind e ≤ 6 && imgFld e 0 15 4 = 0 && ([1, 5].contains (stKind e) || stLayer e = 0) &&
  stFirst e + stWindows e ≤ (jigWindows bs).length && (stageWindows bs e).all (windowOk ds e)

/-- The figures of R148: CYCLES, NOM_NS, WC_A_NS, WC_B_NS. -/
def figures (bs : List Byte) : Nat × Nat × Nat × Nat :=
  let st := jigStageTable bs
  let x := st.foldl (fun n e => n + stCycles e) 0
  let w := st.foldl (fun n e => n + max (stCycles e) (stCore e)) 0
  (x, cdiv (x * 10) 21, cdiv (w * (1000 + jigKerf bs)) 1600 + 18000, cdiv (w * (1000 + jigKerf bs)) 1200 + 18000)

/-! ## The schedule (R122, R137, R138, R147, R161) -/

def seSlot (e : List Byte) : Nat := imgFld e 0 7 0
def seSrc (e : List Byte) : Nat := imgFld e 0 15 8
def seDst (e : List Byte) : Nat := imgFld e 0 23 16
def seDstDie (e : List Byte) : Nat := imgFld e 0 26 24
def seFirst (e : List Byte) : Nat := imgFld e 4 23 0
def seCount (e : List Byte) : Nat := imgFld e 0x10 15 0
def seSrcLine (e : List Byte) (k : Nat) : Nat := imgNat e 8 + k * imgFld e 0x10 31 16
def seDstLine (e : List Byte) (k : Nat) : Nat := imgNat e 12 + k * imgFld e 0x14 15 0

/-- The segment's row of R120 lists the port index (R138): Etcen and Ethernet bridges on dies 0 and 1 only, dovetail
ports as far as the die has links (R14, R121). -/
def portOk (dies die p : Nat) : Bool :=
  let seg := p / 32
  let i := p % 32
  i ≤ 14 && (i != 14 || seg != 1) || (i = 15 && seg ≤ 1 && die ≤ 1) || ((i = 16 || i = 17) && 6 ≤ seg) || (18 ≤ i && i < 18 + 2 * (neighbours dies die).length)

/-- The slot belongs to a service class (R124). -/
def serviceSlot (n : Nat) : Bool := n % 16 = 15

/-- Two bursts share a frame and a slot. -/
def sharedSlot (a b : List Byte) : Bool :=
  seSlot a = seSlot b && seFirst a < seFirst b + seCount b && seFirst b < seFirst a + seCount a

/-- Two bursts use one port direction or one channel direction in one slot; `da`, `db` are their source dies. A burst to another
die counts the channel from its source to its destination segment on the source die, and no dovetail port (DESIGN CHOICE, log
entry 16: the manual does not say which channel it takes; the hops on other dies stand in entries of their own). -/
def burstsTwice (da db : Nat) (a b : List Byte) : Bool :=
  sharedSlot a b &&
    ((da = db && seSrc a = seSrc b) || (seDstDie a = seDstDie b && seDst a = seDst b) ||
     (da = db && seSrc a / 32 != seDst a / 32 && seSrc a / 32 = seSrc b / 32 && seDst a / 32 = seDst b / 32))

/-- The schedule entries with their source dies. -/
def jigSchedule (bs : List Byte) : List (Nat × List Byte) :=
  let es := jigEntries bs 4 24
  (List.range es.length).zip es |>.map fun p => (Config.entryDie (jigSec bs 4) p.1 % 8, p.2)

def entryOk (dies : Nat) (e : Nat × List Byte) : Bool :=
  imgFld e.2 0 31 27 = 0 && imgFld e.2 4 31 24 = 0 && imgFld e.2 0x14 31 16 = 0 && 1 ≤ seCount e.2 &&
  !serviceSlot (seSlot e.2) && seDstDie e.2 < dies && portOk dies e.1 (seSrc e.2) && portOk dies (seDstDie e.2) (seDst e.2)

/-- The crossbar cycles before each stage, and its own. -/
def stageSpans (bs : List Byte) : List (Nat × Nat) :=
  (jigStageTable bs).foldl (fun l e => l ++ [((l.getLast?.map fun p => p.1 + p.2).getD 0, stCycles e)]) []

/-- The transfers of a burst that fall in a stage's span: indices of frames. -/
def burstIn (span : Nat × Nat) (e : List Byte) : List Nat :=
  (List.range (seCount e)).filter fun k =>
    let c := 256 * (seFirst e + k) + seSlot e
    span.1 ≤ c && c < span.1 + span.2

/-- The port is an HBM controller port. -/
def hbmPort (p : Nat) : Bool := p % 32 = 10 || p % 32 = 11

/-- The pages that a stage names on a die. -/
def stagePages (bs : List Byte) (span : Nat × Nat) (die : Nat) : List Nat :=
  distinct ((jigSchedule bs).flatMap fun e =>
    (burstIn span e.2).flatMap fun k =>
      (if hbmPort (seSrc e.2) && e.1 = die then [seSrcLine e.2 k / 16384] else []) ++
      (if hbmPort (seDst e.2) && seDstDie e.2 = die then [seDstLine e.2 k / 16384] else []))

/-- The bytes of the jig store that a stage takes on a die (R147). -/
def stageStore (bs : List Byte) (i : Nat) (span : Nat × Nat) (die : Nat) : Nat :=
  24 * ((jigSchedule bs).filter fun e => e.1 = die && !(burstIn span e.2).isEmpty).length +
    (Config.corePrograms (jigSec bs 5) i die).length

def scheduleOk (bs : List Byte) (dies : Nat) : Bool :=
  let es := jigSchedule bs
  es.all (entryOk dies) && decide (es.Pairwise fun a b => ¬ burstsTwice a.1 b.1 a.2 b.2 = true) &&
  ((List.range (stageSpans bs).length).zip (stageSpans bs)).all fun p =>
    (List.range dies).all fun d => (stagePages bs p.2 d).length ≤ 1024 && stageStore bs p.1 p.2 d ≤ 2 ^ 21

/-! ## Expert parameters (R225, R227) and heads (R282) -/

def jigExperts (bs : List Byte) : List ExpertRec := (jigEntries bs 6 32).map fun e => .ofWords (wordsOf e)

/-- The causes of R227 that concern one entry. -/
def expertOk (bs : List Byte) (dies : Nat) (r : ExpertRec) : Bool :=
  bit r.w0 31 = false && r.reserved.all (· = 0#32) && r.experts ≤ 1024 && r.act ≤ 1 && r.exit ≤ 4 &&
  1 ≤ r.cap && r.cap ≤ 4096 && r.width % 32 = 0 && jigMembers bs ≤ r.width / 32 && r.experts * r.width ≤ 2 ^ 20 &&
  (jigStageTable bs).all fun st =>
    !([1, 5].contains (stKind st) && stLayer st = r.layer) || (stageWindows bs st).all fun w =>
      (wEngine w != 1 || r.cap ≤ wBound w) &&
      (wEngine w != 5 ||
        cdiv (cdiv r.experts dies * wBound w) 256 + 64 * cdiv r.experts dies + 256 ≤ wLength w)

def expertsOk (bs : List Byte) (dies : Nat) : Bool :=
  let es := jigExperts bs
  es.all (expertOk bs dies) && decide (es.Pairwise fun a b => a.layer < b.layer) &&
  decide ((es.filter (·.exit != 0)).Pairwise fun a b => a.exit < b.exit)

/-- Every head of the context's speculation table has its FP32 descriptor (R282). -/
def headsOk (bs : List Byte) (spec : List Word) : Bool :=
  (List.range (fieldAt spec 0 3 0)).all fun h =>
    match jigOperand bs (fieldAt spec (0x10 + 16 * h) 15 0) with
    | none => false
    | some d => opOut d = 2 && opN d = fieldAt spec (0x14 + 16 * h) 15 0

/-! ## The image as a whole (R140) -/

def memberCode (dies : Nat) : Nat := if dies = 2 then 0 else if dies = 4 then 1 else 2

/-- DIGEST matches the content (R133). -/
def digestOk (bs : List Byte) : Bool :=
  jigDigest bs = leNat ((sm3 (splice bs 0x08 (List.replicate 8 0#8))).take 8)

/-- Section `i` lies within the image and holds whole entries. -/
def sectionOk (bs : List Byte) (i n : Nat) : Bool :=
  secLength bs i = 0 || (secOffset bs i + secLength bs i ≤ bs.length && secLength bs i % n = 0)

/-- The retirement mask names no core that is retired, nor one of a die that the member does not carry. -/
def maskOk (s : State) (bs : List Byte) : Bool :=
  (List.range 8).all fun d => (List.range 48).all fun c =>
    !((leNat (window (8 * d) 8 (jigSec bs 0))).testBit c) || (d < s.fuses.dies && !s.coreRetired d c)

/-- The slice width of an expert layer on this member: the K of its down product (R223, R226). -/
def State.sliceWidth (s : State) (bs : List Byte) (e : ExpertRec) : Nat :=
  32 * sliceBlocks (e.width / 32) (jigMembers bs) (s.memberIndex s.node)

/-- The descriptors hold, the K of a down product being every slice width that names it. -/
def State.operandsOk (s : State) (bs : List Byte) (ds : List (List Byte)) : Bool :=
  ((List.range ds.length).zip ds).all fun id =>
    let ks := ((jigExperts bs).filter fun e => e.experts != 0 && e.downDesc = id.1).map (s.sliceWidth bs)
    if ks.isEmpty then operandOk id.2 none else ks.all fun k => operandOk id.2 (some k)

/-- No cause of R140 holds; reserved bits of the image are 0 (DEDUCED from R9 and R301, log entry 16). -/
def imageOk (s : State) (x : Ctx) (bs : List Byte) : Bool :=
  let ds := jigEntries bs 1 48
  let f := figures bs
  128 ≤ bs.length && imgNat bs 0 = 0x4A494701 && imgFld bs 4 15 0 = 1 && imgFld bs 4 17 16 = memberCode s.fuses.dies &&
  jigBench bs ≤ 4 && imgFld bs 4 31 21 = 0 && 1 ≤ jigMembers bs && jigMembers bs ≤ 4096 && imgFld bs 0x20 15 13 = 0 &&
  imgFld bs 0x24 31 24 = 0 && jigKerf bs ≤ 100 && secLength bs 7 = 0 && (secLength bs 0 = 0 || secLength bs 0 = 64) &&
  [(0, 8), (1, 48), (2, 16), (3, 16), (4, 24), (5, 1), (6, 32)].all (fun p => sectionOk bs p.1 p.2) &&
  jigStages bs = (jigStageTable bs).length && digestOk bs && maskOk s bs && s.operandsOk bs ds && specsApart ds &&
  (jigWindows bs).all (windowForm s.fuses.dies) && (jigStageTable bs).all (stageOk bs ds) && f.1 = jigCycles bs && f.2.1 = jigNomNs bs && f.2.2.1 = jigWcA bs &&
  f.2.2.2 = jigWcB bs && scheduleOk bs s.fuses.dies && Config.coreProgramsOk (jigSec bs 5) && expertsOk bs s.fuses.dies &&
  headsOk bs x.spec

/-! ## The bucket table (R142) -/

structure Bucket where
  index : Nat
  ratio : Nat
  valid : Bool
  jig : Nat
  seqs : Nat
  tokens : Nat
  prefill : Nat
  kv : Nat
  deriving DecidableEq, Repr

def bucketTable (bs : List Byte) : List Bucket :=
  (List.range 32).filterMap fun i =>
    let e := window (16 * i) 16 bs
    if e.length < 16 then none
    else some ⟨i, imgFld e 0 2 0, imgFld e 0 7 7 = 1, imgFld e 0 15 8, imgFld e 0 31 16, imgFld e 4 15 0, imgFld e 4 31 16, imgNat e 8⟩

/-- The table obeys R142: reserved bits 0, valid entries in range and in non-decreasing MAX_TOKENS within a ratio. -/
def bucketsOk (bs : List Byte) : Bool :=
  bs.length = 512 && ((List.range 32).all fun i => imgFld bs (16 * i) 6 3 = 0 && imgNat bs (16 * i + 12) = 0) &&
  let vs := (bucketTable bs).filter (·.valid)
  (vs.all fun b => b.ratio ≤ 4 && 1 ≤ b.seqs && b.seqs ≤ 8192 && 1 ≤ b.tokens && b.tokens ≤ 16384 && b.prefill ≤ 16384) &&
  decide (vs.Pairwise fun a b => a.ratio = b.ratio → a.tokens ≤ b.tokens)

/-- The slot of the bucket table in OBJECT (R139). -/
def bucketSlot : Nat := 0x100

/-! ## `JIG_LOAD` (R139 to R141) -/

/-- The installed image of a slot. -/
def Ctx.jig? (x : Ctx) (slot : Nat) : Option (List Byte) := assoc slot x.jigs

/-- The image that a plan names, with its first line in the jig area: the slot's, or a replaced one that is kept for the plans
that named it (R141). -/
def Ctx.jigAt (x : Ctx) (slot digest : Nat) : Option (Nat × List Byte) :=
  ((x.jig? slot).toList.map (fun b => ((assoc slot x.jigPlaces).getD 0, b)) ++ x.oldJigs).find? fun b => jigDigest b.2 = digest

def Ctx.jigNamed (x : Ctx) (slot digest : Nat) : Option (List Byte) := (x.jigAt slot digest).map (·.2)

/-- The descriptor's slot is occupied and REPLACE is 0. -/
def Ctx.jigRefused (x : Ctx) (ws : List Word) : Bool :=
  let occupied := if hObject ws = bucketSlot then !x.buckets.isEmpty else (x.jig? (hObject ws)).isSome
  occupied && !bit (wordAt ws 0x20) 0

/-- The bytes copied at acceptance. -/
def Desc.image (d : Desc) : List Byte := (bytesOf d.buf).take (hLength d.words)

/-- The faults of the image or table by RESULT, none when it may be installed (R140, R490). -/
def imageFault (s : State) (x : Ctx) (ws : List Word) (bs : List Byte) : Option Nat :=
  let want := addrAt ws 0x18 0x1C
  if hObject ws = bucketSlot then
    if want != 0 then some 0x18 else if !bucketsOk bs then some 0x40 else none
  else if 128 ≤ bs.length && jigDigest bs != want then some 0x18
  else if !imageOk s x bs then some 0x40 else none

/-- The lines of the jig area in use, as first line and end: every installed image and the bucket table, but for that of slot `but`, and
the replaced images. -/
def Ctx.jigUsed (x : Ctx) (but : Option Nat) : List (Nat × Nat) :=
  (((if x.buckets.isEmpty then x.jigs else x.jigs ++ [(bucketSlot, x.buckets)]).filter fun e => some e.1 != but).map fun e =>
    let p := (assoc e.1 x.jigPlaces).getD 0
    (p, p + cdiv e.2.length 128)) ++ x.oldJigs.map fun o => (o.1, o.1 + cdiv o.2.length 128)

/-- The lowest place in the jig area for an image; none when the area cannot hold it (R140; which place: DESIGN CHOICE, log entry
16). -/
def Ctx.jigRoom (x : Ctx) (but : Option Nat) (len : Nat) : Option Nat :=
  let used := x.jigUsed but
  let ok (a : Nat) : Bool := a + cdiv len 128 ≤ x.jigFrames.length * 16384 && used.all fun u => a + cdiv len 128 ≤ u.1 || u.2 ≤ a
  ((0 :: used.map (·.2)).filter ok).foldl (fun m a => some (match m with | none => a | some b => min a b)) none

/-- Die and die line of a line of the jig area. -/
def Ctx.jigLine (x : Ctx) (l : Nat) : Nat × Nat :=
  let k := x.jigFrames.getD (l / 16384) 0
  (k / 2 ^ 15, k % 2 ^ 15 * 16384 + l % 16384)

/-- An image is copied into the jig area (R140), and read from it (R147, R166). -/
def State.putImage (s : State) (x : Ctx) (first : Nat) (bs : List Byte) : State :=
  let ls := chunks 128 bs
  ((List.range ls.length).zip ls).foldl (fun s il =>
    let d := x.jigLine (first + il.1)
    s.writeLine d.1 d.2 (il.2 ++ List.replicate (128 - il.2.length) 0#8) false) s

def imageLines (x : Ctx) : Nat → Nat → State → List Byte × Bool × State
  | 0, _, s => ([], false, s)
  | n + 1, l, s =>
    let r := s.readLine (x.jigLine l).1 (x.jigLine l).2 0
    let q := imageLines x n (l + 1) r.2.2
    (r.1 ++ q.1, r.2.1 || q.2.1, q.2.2)

def State.readImage (s : State) (x : Ctx) (first len : Nat) : List Byte × Bool × State :=
  let r := imageLines x (cdiv len 128) first s
  (r.1.take len, r.2.1, r.2.2)

/-- The lead reads the bucket table from the jig area before it plans (R142, R166); a poisoned line makes the context consume poison
(R170). -/
def State.readBuckets (s : State) (c : Nat) : State :=
  match s.ctx c with
  | none => s
  | some x =>
    if x.buckets.isEmpty || x.kind != 0 then s
    else
      let r := s.readImage x ((assoc bucketSlot x.jigPlaces).getD 0) x.buckets.length
      if r.2.1 then r.2.2.faultCtx c stPoisoned else r.2.2

/-- An image is still named by a published plan or by the step in flight (R141). -/
def State.jigInUse (s : State) (job digest : Nat) : Bool :=
  (s.plans.any fun p => p.job = job && p.digest = digest) ||
    match s.attempt with | some a => a.plan.job = job && a.plan.digest = digest | none => false

/-- Replaced images that nothing names any more leave the jig area. -/
def State.dropJigs (s : State) : State :=
  { s with ctxs := s.ctxs.map fun cx => (cx.1, { cx.2 with oldJigs := cx.2.oldJigs.filter fun o => s.jigInUse cx.2.job (jigDigest o.2) }) }

/-- The installation, judged when it takes effect (R141). -/
def State.jigInstall (s : State) (d : Desc) (b : Bound) : State :=
  let c := hContext d.words
  match s.ctx c with
  | none => s.complete d.id stDenied 0 b
  | some x =>
    let bs := d.image
    let slot := hObject d.words
    if x.jigRefused d.words then s.complete d.id stDenied 0 b
    else if slot = bucketSlot then
      match x.jigRoom (some slot) bs.length with
      | none => s.complete d.id stNoPages 0 b
      | some p =>
        let x := { x with buckets := bs, jigPlaces := enlist slot p x.jigPlaces }
        ((s.setCtx c x).putImage x p bs).complete d.id stOk 0 b
    else
      let old := (x.jig? slot).toList.map fun b => ((assoc slot x.jigPlaces).getD 0, b)
      let kept := old.filter fun o => s.jigInUse x.job (jigDigest o.2)
      match x.jigRoom (if kept.isEmpty then some slot else none) bs.length with
      | none => s.complete d.id stNoPages 0 b
      | some p =>
        let x := { x with jigs := enlist slot bs x.jigs, jigPlaces := enlist slot p x.jigPlaces, oldJigs := x.oldJigs ++ kept }
        ((s.setCtx c x).putImage x p bs).complete d.id stOk 0 b

end Sys2Proof.Machine
end

