-- ==== Sys2Proof/Machine/Planner.lean ====
section
/-! DEFINITION. The lead's planning: rows, admission, bucket and bench ratio, the choice of context, and the plan
that is published (R143, R144, R146, R150, R153, R253 to R258, R263, R330, R336, R361, R381 to R383). -/

namespace Sys2Proof.Machine

/-! ## Reports -/

/-- The latest reports about a job from members in service. -/
def State.jobReports (s : State) (job : Nat) : List Report :=
  s.lead.reports.filter fun r => r.job = job && s.inService.contains r.node

/-- The latest entry of each sequence: a new one takes the place of an older one, and a closed sequence's leaves (R338). -/
def putEntries (old new : List SeqReport) : List SeqReport :=
  (old.filter fun e => !new.any fun f => f.handle = e.handle) ++ new.filter fun f => f.state.isSome

/-- A newer report takes the place of a member's older one about the job, and keeps the entries that it does not bring (R338). -/
def putReport (l : List Report) (r : Report) : List Report :=
  let old := (l.filter fun q => q.node = r.node && q.job = r.job).flatMap (·.seqs)
  (l.filter fun q => !(q.node = r.node && q.job = r.job)) ++ [{ r with seqs := putEntries old r.seqs }]

/-- The rows of the step in flight, or published, for a job (R143). -/
def State.flightRow (s : State) (job handle : Nat) : Option LenRow :=
  let ps := (s.attempt.map (·.plan)).toList ++ s.plans
  ((ps.filter fun p => p.job = job).flatMap (·.rows)).find? fun r => r.handle = handle

/-! ## Rows (R143, R256, R284) -/

/-- A row that the lead may put into a plan, with its home, its place in admission order, whether it is a new
admission, its quota group, and the most that the step in flight can advance the length. -/
structure Cand where
  row : LenRow
  home : Nat
  ord : Nat
  isNew : Bool
  quota : Nat
  adv : Nat
  deriving DecidableEq, Repr

/-- The tree template's parents (R282). -/
def Ctx.template (x : Ctx) : List Nat := (List.range (fieldAt x.spec 0 13 8)).map fun k => fieldAt x.spec (0x90 + 4 * k) 5 0

/-- The row of a sequence: a decode row with its nodes, or the next chunk of the queue that the step in flight leaves
(DEDUCED, log entry 17); none when no chunk is left. -/
def State.rowFor (s : State) (x : Ctx) (e : SeqReport) : Option (LenRow × Nat) :=
  let fl := s.flightRow x.job e.handle
  let adv := (fl.map (·.new)).getD 0
  if e.state = some .decode then
    let ps := x.template.take e.nodes
    some (⟨e.handle, e.committed, .decode, 1 + ps.length, ps, e.prefixGroup, e.prefixLen⟩, adv)
  else
    let left := e.queued - (match fl with | some r => if r.kind = .prefill then r.new else 0 | none => 0)
    if left ≤ 1 then none
    else some (⟨e.handle, e.committed, .prefill, min x.policy.chunk (left - 1), [], e.prefixGroup, e.prefixLen⟩, adv)

/-- Rows and tokens that a plan holds so far. -/
structure Tally where
  seqs : Nat
  tokens : Nat
  prefill : Nat
  deriving DecidableEq, Repr

def Tally.add (t : Tally) (r : LenRow) : Tally :=
  ⟨t.seqs + 1, t.tokens + r.new, t.prefill + if r.kind = .prefill then r.new else 0⟩

/-- The limits of the policy, 8,192 sequences and 16,384 tokens (R256). -/
def Tally.fits (t : Tally) (p : Policy) : Bool :=
  t.seqs ≤ min p.seqCap 8192 && t.tokens ≤ min p.tokenCap 16384 && t.prefill ≤ p.prefillCap

/-- Rows are added in order until a limit would be passed. -/
def addRows (p : Policy) : List Cand → Tally → List Cand → List Cand × Tally
  | [], t, acc => (acc, t)
  | c :: cs, t, acc => if (t.add c.row).fits p then addRows p cs (t.add c.row) (acc ++ [c]) else (acc, t)

/-- The admitted sequences of a job in admission order. -/
def Lead.admittedOf (l : Lead) (job : Nat) : List Nat := (l.admitted.filter fun a => a.1 = job).map (·.2)

/-- The latest entry of a sequence. -/
def seqEntry (rs : List Report) (handle : Nat) : Option SeqReport := (rs.flatMap (·.seqs)).find? fun e => e.handle = handle

/-- The member whose pool cannot top up a sequence (R203). -/
def waitsPages (rs : List Report) (handle : Nat) : Bool := rs.any fun r => r.waits.contains handle

/-- Strict space at the home covers a decode row: 1 + NODES token records and one completion (R361). -/
def strictOk (rs : List Report) (home : Nat) (used : Nat × Nat) (r : LenRow) : Bool :=
  match (rs.find? fun q => q.node = home).bind (·.strictSpace) with
  | none => true
  | some free => r.kind = .prefill || (used.1 + r.new ≤ free.1 && used.2 + 1 ≤ free.2)

/-- Decode rows are kept while their home's strict space covers them. -/
def strictKept (rs : List Report) : List Cand → List (Nat × Nat × Nat) → List Cand
  | [], _ => []
  | c :: cs, used =>
    let u := peek (0, 0) used c.home
    if strictOk rs c.home u c.row then
      c :: strictKept rs cs (if c.row.kind = .prefill then used else poke (0, 0) used c.home (u.1 + c.row.new, u.2 + 1))
    else strictKept rs cs used

/-- Passes 1 and 2 of R256: the candidates of the admitted sequences of one kind, in admission order. -/
def State.admittedCands (s : State) (x : Ctx) (rs : List Report) (decode : Bool) : List Cand :=
  let as := s.lead.admittedOf x.job
  ((List.range as.length).zip as).filterMap fun a =>
    match seqEntry rs a.2 with
    | none => none
    | some e =>
      if e.state != some (if decode then .decode else .prefill) || e.held || waitsPages rs e.handle then none
      else (s.rowFor x e).map fun r => ⟨r.1, e.home, a.1, false, e.quota, r.2⟩

/-! ## Admission (R256 pass 3) -/

/-- The step that listed a candidate first. -/
def Lead.listedAt (l : Lead) (job handle step : Nat) : Nat :=
  ((l.listed.find? fun e => e.1 = job && e.2.1 = handle).map (·.2.2)).getD step

/-- The next quota group in ascending order after the one that last admitted. -/
def nextGroup (last : Nat) (gs : List Nat) : Option Nat :=
  match lowest (gs.filter fun g => last < g) with
  | some g => some g
  | none => lowest gs

/-- The candidates of a job in rank order: by the step that first listed them, home node and acceptance order. -/
def State.ranked (s : State) (x : Ctx) (rs : List Report) (step : Nat) : List SeqReport :=
  let l := s.lead
  let es := (rs.flatMap (·.seqs)).filter fun e =>
    e.runs && !e.held && !(l.admittedOf x.job).contains e.handle && !waitsPages rs e.handle
  let before (a b : SeqReport) : Bool :=
    let la := l.listedAt x.job a.handle step
    let lb := l.listedAt x.job b.handle step
    la < lb || (la = lb && (a.home < b.home || (a.home = b.home && a.order < b.order)))
  sortBy before es

/-- The effective class of a candidate for the plan of a step: the steps it has waited are those after the one that listed it
first and before this one (DEDUCED, log entry 17). -/
def State.effClass (s : State) (x : Ctx) (step : Nat) (e : SeqReport) : Nat :=
  if x.policy.aging != 0 && x.policy.aging ≤ step - 1 - s.lead.listedAt x.job e.handle step then 0 else e.cls

/-- The candidate that admission tries next: of the lowest class, the first of the group whose turn it is. -/
def nextCand (cls : SeqReport → Nat) (last : Nat) (es : List SeqReport) : Option SeqReport :=
  match lowest (es.map cls) with
  | none => none
  | some k =>
    let l := es.filter fun e => cls e = k
    (nextGroup last (l.map (·.quota))).bind fun g => l.find? fun e => e.quota = g

/-- Pool pages that the new slots of a first step reach on the member with index `m` (R256). -/
def firstPages (x : Ctx) (h members m c new : Nat) : Nat :=
  let first := cdiv c 256
  let js := (List.range ((c + new - 1) / 256 + 1 - first)).map (first + ·)
  (js.filter fun j => memberOf x.runLog2 h members j = m).length * x.perPage

/-- What admission has used so far: the rows, the tally, the running sequences by group, and pages by member. -/
structure Admit where
  cands : List Cand
  tally : Tally
  running : List (Nat × Nat)
  pages : List (Nat × Nat)
  deriving DecidableEq, Repr

/-- Admits candidates in turn, until one fails a limit or HEADROOM; one of a full group is skipped. `last` is the group that
last admitted a sequence. -/
def admitRows (s : State) (x : Ctx) (rs : List Report) (step : Nat) : Nat → List SeqReport → Nat → Nat → Admit → Admit
  | 0, _, _, _, a => a
  | n + 1, es, last, ord, a =>
    match nextCand (s.effClass x step) last es with
    | none => a
    | some e =>
      let rest := es.filter fun q => q.handle != e.handle
      let top := peek 0 x.groupMax e.quota
      if top != 0 && top ≤ peek 0 a.running e.quota then admitRows s x rs step n rest last ord a
      else match s.rowFor x e with
        | none => admitRows s x rs step n rest last ord a
        | some r =>
          let t := a.tally.add r.1
          let need (node : Nat) := firstPages x (s.homeIdx e.handle) s.members.length (s.memberIndex node) e.committed r.1.new
          let short := rs.any fun q =>
            q.free < q.resv + peek 0 a.pages q.node + x.policy.headroom + need q.node
          if !t.fits x.policy || short then a
          else admitRows s x rs step n rest e.quota (ord + 1)
            { cands := a.cands ++ [⟨r.1, e.home, ord, true, e.quota, r.2⟩], tally := t
              running := poke 0 a.running e.quota (peek 0 a.running e.quota + 1)
              pages := rs.foldl (fun ps q => poke 0 ps q.node (peek 0 ps q.node + need q.node)) a.pages }

/-- The batch before a bucket is chosen (R256). -/
def State.batch (s : State) (x : Ctx) (step : Nat) : List Cand :=
  let rs := s.jobReports x.job
  let p1 := addRows x.policy (strictKept rs (s.admittedCands x rs true) []) ⟨0, 0, 0⟩ []
  let p2 := addRows x.policy (s.admittedCands x rs false) p1.2 p1.1
  let adm := (s.lead.admittedOf x.job).filterMap (seqEntry rs)
  if adm.any fun e => waitsPages rs e.handle then p2.1
  else
    let running := adm.foldl (fun l e => poke 0 l e.quota (peek 0 l e.quota + 1)) []
    let es := s.ranked x rs step
    let a := admitRows s x rs step es.length es ((assoc x.job s.lead.lastQuota).getD 0xFFFF) (s.lead.admittedOf x.job).length
      ⟨p2.1, p2.2, running, []⟩
    strictKept rs a.cands []

/-! ## Bucket and trimming (R143, R144, R146) -/

/-- The entry's slot holds a jig. -/
def Ctx.usable (x : Ctx) (b : Bucket) : Bool := b.valid && (x.jig? b.jig).isSome

/-- T, S, P and V of a batch (R143). -/
def bucketFits (b : Bucket) (cs : List Cand) : Bool :=
  let t := cs.foldl (fun (t : Tally) c => t.add c.row) ⟨0, 0, 0⟩
  let v := cs.foldl (fun n c => n + c.row.committed + c.adv + c.row.new) 0
  t.tokens ≤ b.tokens && t.seqs ≤ b.seqs && t.prefill ≤ b.prefill && cdiv v 256 ≤ b.kv

def Ctx.pickBucket (x : Ctx) (ratio : Nat) (cs : List Cand) : Option Bucket :=
  (bucketTable x.buckets).find? fun b => x.usable b && b.ratio = ratio && bucketFits b cs

/-- The candidate that trimming takes out: the last chunk by admission order, or else the last decode row. -/
def trimOne (cs : List Cand) : List Cand :=
  let chunks := cs.filter fun c => c.row.kind = .prefill
  let pool := if chunks.isEmpty then cs else chunks
  let last := pool.foldl (fun n c => max n c.ord) 0
  cs.filter fun c => !(c.ord = last && pool.any fun p => p.row.handle = c.row.handle)

/-- The batch trimmed until an entry fits; none when no row is left. -/
def Ctx.trim (x : Ctx) (ratio : Nat) : Nat → List Cand → Option (List Cand × Bucket)
  | 0, _ => none
  | n + 1, cs =>
    if cs.isEmpty then none
    else match x.pickBucket ratio cs with
      | some b => some (cs, b)
      | none => x.trim ratio n (trimOne cs)

/-- The next larger entry after a window overrun (R146). -/
def Ctx.largerBucket (x : Ctx) (failed : Nat) : Option Bucket :=
  match (bucketTable x.buckets)[failed]? with
  | none => none
  | some f => (bucketTable x.buckets).find? fun b =>
      f.index < b.index && x.usable b && b.ratio = f.ratio && f.seqs ≤ b.seqs && f.tokens ≤ b.tokens && f.prefill ≤ b.prefill &&
      f.kv ≤ b.kv && (f.seqs < b.seqs || f.tokens < b.tokens || f.prefill < b.prefill || f.kv < b.kv)

/-! ## Bench ratio (R153, R263) -/

def Ctx.ratioUsable (x : Ctx) (r : Nat) : Bool := (bucketTable x.buckets).any fun b => x.usable b && b.ratio = r

/-- The ratio that R263 forces: none when no allowed ratio holds a usable entry. -/
def Ctx.forcedRatio (x : Ctx) : Option Nat :=
  let ok := ((List.range (x.bench.maxRatio + 1)).filter fun r => x.bench.minRatio ≤ r && x.ratioUsable r)
  let dist (r : Nat) := (r - x.ratio) + (x.ratio - r)
  (sortBy (fun a b => dist a < dist b) ok).head?

/-- The ratio of the next plan for a batch, with waiting prefill tokens `q`. -/
def Ctx.nextRatio (x : Ctx) (q : Nat) (cs : List Cand) : Option Nat :=
  let r := x.ratio
  let b := x.bench
  if !(b.minRatio ≤ r && r ≤ b.maxRatio && x.ratioUsable r) then x.forcedRatio
  else if x.sinceRatio < b.minHold then some r
  else
    let fits (k : Nat) : Bool := (x.trim k (cs.length + 1) cs).isSome
    if r < 4 && (b.up.getD r 0) < q && r + 1 ≤ b.maxRatio && fits (r + 1) then some (r + 1)
    else if 0 < r && q < b.down.getD (r - 1) 0 && b.minRatio ≤ r - 1 && fits (r - 1) then some (r - 1)
    else some r

/-! ## Publishing (R150, R330, R336, R382) -/

/-- The planes whose port is up and not excluded. -/
def State.upPlanes (s : State) : Nat :=
  (List.range 32).foldl (fun m p => if fld (s.reg (oPortStat p)) 1 0 = 2 then m + 2 ^ p else m) 0

/-- The AND of every member's report (R330). -/
def State.planeMask (s : State) : Nat :=
  s.peers.foldl (fun m n => m &&& peek (2 ^ 32 - 1) s.lead.planes n) s.upPlanes

/-- The indices below a node of the tree of R333. -/
def children (n i : Nat) : List Nat := ((List.range 4).map fun k => 4 * i + 1 + k).filter (· < n)

/-- The plan tree: the members in service in ascending order with the lead, which is the lowest, at index 0. -/
def State.planChildren (s : State) : List Nat :=
  (children s.inService.length (s.inService.idxOf s.node)).filterMap fun i => s.inService[i]?

/-- A plan takes the package out of IDLE or NAP (R393, R394). -/
def State.wake (s : State) : State := if s.pkg = .idle || s.pkg = .nap then { s with pkg := .on } else s

/-- The plan goes to the children in the tree, and waits here for its start. -/
def State.publish (s : State) (p : Plan) : State :=
  let s := { s.wake with plans := s.plans ++ [p], replansDue := s.replansDue.filter (· != p.job) }
  s.emits (s.planChildren.map fun n => .plan n p)

/-- The job of the step in flight or just planned (R381's cur). -/
def State.curJob (s : State) : Nat := s.lead.cur

/-- A plan for context `x` with its rows, jig slot and image. Its start is PLAN_LEAD_NS of its own jig after publication; R150 does
not say whether that jig or the one of the step in flight gives the figure (DESIGN CHOICE, log entry 17). -/
def State.makePlan (s : State) (x : Ctx) (step attempt : Nat) (rows : List LenRow) (slot ratio bucket : Nat)
    (train : Option (Nat × List Word)) : Plan :=
  let img := (x.jig? slot).getD []
  let switch := decide (s.curJob ≠ 0 ∧ s.curJob ≠ x.job)
  { job := x.job, step := step, attempt := attempt, pred := (s.attempt.map fun a => a.plan.step).getD x.step
    start := s.time + jigPlanLead img + (if switch then 18000 + (s.reg oSwitchNs).toNat else 0)
    slot := slot, digest := jigDigest img, ratio := ratio, mask := s.planeMask, rows := rows, policy := x.policy,
    groups := x.groupMax, bench := x.bench, bucket := bucket, train := train }

/-- The step number after what is in flight or published for a job. -/
def State.nextStep (s : State) (x : Ctx) : Nat :=
  let ps := ((s.attempt.map (·.plan)).toList ++ s.plans).filter fun p => p.job = x.job
  1 + ps.foldl (fun n p => max n p.step) x.step

/-- The lead's memory after a plan of context `x` (R381), with what it was before (R27): the run of its job grows, or starts. -/
def State.notePlan (s : State) (x : Ctx) (step : Nat) (news : List Cand) (train : Option Forwarded) : State :=
  let l := s.lead
  let mark : PlanMark := ⟨x.job, step, l.cur, l.run, news.map fun k => k.row.handle, assoc x.job l.lastQuota, x.ratio, x.sinceRatio, train⟩
  { s with lead := { l with
    admitted := l.admitted ++ news.map fun k => (x.job, k.row.handle)
    lastQuota := match news.getLast? with | some k => enlist x.job k.quota l.lastQuota | none => l.lastQuota
    trains := match train with | some f => l.trains.erase f | none => l.trains
    run := if l.cur = x.job then l.run + 1 else 1, cur := x.job, saved := some mark } }

/-- The ratio of a serving plan, and the steps since it last changed (R153). -/
def Ctx.takeRatio (x : Ctx) (ratio : Nat) : Ctx :=
  { x with ratio := ratio, sinceRatio := if ratio = x.ratio then min 65535 (x.sinceRatio + 1) else 1 }

/-- Any home holds strict records of the context's job, as its report's space shows (R361). -/
def State.strictHeld (s : State) (job : Nat) : Bool :=
  (s.jobReports job).any fun r => match r.strictSpace with | some f => decide (f ≠ (262144, 131072)) | none => false

/-- A plan for a serving context: its rows, bucket and ratio; with no rows while strict records are held (R361). -/
def State.servingPlan (s : State) (x : Ctx) : Option (List Cand × Nat × Bucket) :=
  let cs := s.batch x (s.nextStep x)
  let q := (s.jobReports x.job).foldl (fun n r => n + r.waiting) 0
  match x.nextRatio q cs with
  | none => none
  | some ratio =>
    match x.trim ratio (cs.length + 1) cs with
    | some r => some (r.1, ratio, r.2)
    | none =>
      if s.strictHeld x.job then (x.pickBucket ratio []).map fun b => ([], ratio, b) else none

/-- The waiting training step of a context. -/
def State.trainOf (s : State) (x : Ctx) : Option Forwarded := s.lead.trains.find? fun f => f.job = x.job

/-- The context is ready (R381), and no member, this one included, holds it (R387). -/
def State.ready (s : State) (x : Ctx) : Bool :=
  x.state = .active && x.teardown.isNone && x.holdDesc.isNone && !((s.jobReports x.job).any (·.held)) &&
    match x.kind with
    | 0 => (s.servingPlan x).isSome
    | 1 => (s.trainOf x).isSome
    | _ => false

/-- The first of some jobs in ascending tag after `cur`, wrapping, with `cur` last. -/
def afterCur (cur : Nat) (js : List Nat) : Option Nat :=
  match lowest (js.filter fun j => cur < j) with
  | some j => some j
  | none => lowest js

/-- The choice of R381 among the ready contexts. -/
def State.chooseCtx (s : State) : Option (Nat × Ctx) :=
  let rs := s.ctxs.filter fun e => s.ready e.2
  let cur := rs.find? fun e => e.2.job = s.curJob
  let curPrio := ((s.ctxs.find? fun e => e.2.job = s.curJob).map fun e => e.2.priority).getD 4
  let best := (lowest (rs.map fun e => e.2.priority)).getD 4
  let pick : Option Nat := afterCur s.curJob ((rs.filter fun e => e.2.priority = best).map fun e => e.2.job)
  let job : Option Nat := match cur with
    | some e => if best < curPrio then pick else if s.lead.run < e.2.quantum then some e.2.job else pick
    | none => pick
  match job with
  | none => none
  | some j => rs.find? fun e => e.2.job = j

/-- The attempt number of a new plan: one above the last retracted attempt of the same step (R363). -/
def State.nextAttempt (s : State) (job step : Nat) : Nat :=
  match assoc job s.retracted with
  | some k => if k / 256 = step then k % 256 + 1 else 0
  | none => 0

/-- The step that a lost member stopped, planned again once DEGRADED is left (R374): with the rows whose sequences still
run with their lengths as they were. None when its context or image is gone, or no row is left. -/
def State.refreshPlan (s : State) (p : Plan) : Option Plan :=
  match s.ctxs.find? fun e => e.2.job = p.job && e.2.state = .active && e.2.teardown.isNone with
  | none => none
  | some (_, x) =>
    let rs := s.jobReports x.job
    let rows := p.rows.filter fun r =>
      (seqEntry rs r.handle).isSome && (match x.table? r.handle with | some t => t.committed = r.committed | none => false)
    if p.step != x.step + 1 || (x.jigNamed p.slot p.digest).isNone || (rows.isEmpty && p.train.isNone) then none
    else some { s.makePlan x p.step p.attempt rows p.slot p.ratio p.bucket p.train with pred := x.step }

/-- The lead plans its next step (R150, R254, R381, R383). -/
def State.planFresh (s : State) : State :=
  match s.chooseCtx with
  | none => s
  | some (c, x) =>
    let n := s.nextStep x
    if x.kind = 1 then
      match s.trainOf x with
      | none => s
      | some f => match f.what with
        | .train body =>
          let p := s.makePlan x n (s.nextAttempt x.job n) [] (fieldAt body 0x10 7 0) x.ratio 0 (some (f.node, body))
          (s.notePlan x n [] (some f)).publish p
        | _ => s
    else match s.servingPlan x with
      | none => s
      | some (cs, ratio, b) =>
        let p := s.makePlan x n (s.nextAttempt x.job n) (cs.map (·.row)) b.jig ratio b.index none
        ((s.notePlan x n (cs.filter (·.isNew)) none).setCtx c (x.takeRatio ratio)).publish p

/-- The lead's next plan: a step that waits to run again comes first (R374). -/
def State.planNext (s : State) : State :=
  let s := s.ctxs.foldl (fun s e => s.readBuckets e.1) s
  match s.lead.replan with
  | none => s.planFresh
  | some p =>
    let s := { s with lead := { s.lead with replan := none }, replansDue := s.replansDue.filter (· != p.job) }
    match s.refreshPlan p with
    | some p => s.publish p
    | none => s.planFresh

/-! ## Receiving reports and policies (R253, R258) -/

/-- The lead applies a forwarded policy to its context (R258, R262, R383). -/
def State.applyForward (s : State) (f : Forwarded) : State :=
  match s.ctxOfJob f.job with
  | none => s
  | some (c, x) =>
    match f.what with
    | .limits p => s.setCtx c { x with policy := p }
    | .quota g m => s.setCtx c { x with groupMax := poke 0 x.groupMax g m }
    | .bench b => s.setCtx c { x with bench := b }
    | .train _ => { s with lead := { s.lead with trains := s.lead.trains ++ [f] } }

/-- The policies of one batch of reports apply by node, then by acceptance (R258). -/
def State.applyForwards (s : State) (fs : List Forwarded) : State :=
  (sortBy (fun a b : Forwarded => a.node < b.node || (a.node = b.node && a.order < b.order)) fs).foldl State.applyForward s

/-- Sequences that left both running states lose their admission, and new candidates are listed at a step (R256). One that left and
entered again between two reports was never seen to leave: it keeps its place (DESIGN CHOICE, log entry 17). -/
def Lead.settle (l : Lead) (job step : Nat) (rs : List Report) : Lead :=
  let known (h : Nat) : Bool := (seqEntry rs h).any (·.runs)
  let fresh := ((rs.flatMap (·.seqs)).filter fun e => e.runs && !l.listed.any fun q => q.1 = job && q.2.1 = e.handle).map fun e =>
    (job, e.handle, step)
  { l with
    admitted := l.admitted.filter fun a => a.1 != job || known a.2
    listed := (l.listed.filter fun q => q.1 != job || known q.2.1) ++ fresh }

/-- The lead takes the reports into use, for the plans that follow; each job's candidates are listed under its own last committed step,
for each context numbers its own (R381; DEDUCED, log entry 17). -/
def State.takeReports (s : State) (rs : List Report) : State :=
  let s := { s with lead := { s.lead with reports := rs.foldl putReport s.lead.reports } }
  let s := (distinct (rs.map (·.job))).foldl (fun s j =>
    { s with lead := s.lead.settle j (((s.ctxOfJob j).map (·.2.step)).getD 0) (s.jobReports j) }) s
  s.applyForwards (rs.flatMap (·.forwards))

end Sys2Proof.Machine
end

