-- ==== Sys2Proof/Machine/Ships.lean ====
section
/-! DEFINITION. Shipping a sequence: what each member and home does (R264 to R266, R281). -/

namespace Sys2Proof.Machine

/-- The ship of a name that has not ended. -/
def State.ship? (s : State) (n : ShipName) (out : Bool) : Option Ship :=
  s.ships.find? fun h => h.name = n && h.out = out && h.ended.isNone

def State.modShip (s : State) (n : ShipName) (out : Bool) (f : Ship → Ship) : State :=
  { s with ships := s.ships.map fun h => if h.name = n && h.out = out && h.ended.isNone then f h else h }

def State.dropShip (s : State) (n : ShipName) (out : Bool) : State :=
  { s with ships := s.ships.filter fun h => !(h.name = n && h.out = out) }

/-- A ship that a package takes part in under its context number, before anything has happened. -/
def Ship.fresh (n : ShipName) (c : Nat) (out : Bool) (desc : Nat) : Ship :=
  ⟨n, c, out, desc, 0, none, false, 0, [], false, [], [], [], false, false, none, [], [], 0⟩

/-- A home has heard of its ship: what follows waits for the boundary of R253. -/
def State.shipNews (s : State) (n : ShipName) (out : Bool) (k : ShipNews) : State :=
  s.modShip n out fun h => { h with news := h.news ++ [(k, s.sealSent)] }

/-- What came in time for this boundary, and what waits for the next one. -/
def Ship.due (h : Ship) : List ShipNews := (h.news.filter fun k => !k.2).map (·.1)

/-! ## Destination -/

/-- The source member that holds logical page `j` (R188, over the source's own members and run length). -/
def Ship.sourceOf (h : Ship) (j : Nat) : Nat :=
  (h.members[memberOf h.run (homeIndex h.members.length h.name.srcHandle) h.members.length j]?).getD 0xFFF

/-- Order 4 and 5 on this member: held pages for the logical pages that it will hold, and a grant to each source
member. None when it cannot take them. -/
def State.holdShip (s : State) (c : Nat) (h : Ship) : Option State :=
  match s.ctx c with
  | none => none
  | some x => match x.table? h.name.dstHandle with
    | none => none
    | some t =>
      let js := pagesOn x.runLog2 (s.homeIdx h.name.dstHandle) s.members.length s.me (cdiv h.committed 256)
      if js.any fun j => t.pages ≤ localIndex x.runLog2 s.members.length j then none
      else (holdPages (js.length * x.perPage) s x).map fun r =>
        let held := (js.flatMap fun j => List.replicate x.perPage j).zip r.1
        let s := r.2.modShip h.name false fun g => { g with heldPages := held, granted := js }
        s.emits ((distinct (js.map h.sourceOf)).map fun node =>
          let mine := held.filter fun e => h.sourceOf e.1 = node
          .shipGrant node h.name (distinct (mine.map (·.1))) (mine.map fun e => x.pageAddr e.2))

/-- The held pages of a ship that did not complete become free at the boundary (R266). -/
def State.freeHeld (s : State) (c : Nat) (h : Ship) : State :=
  match s.ctx c with
  | none => s
  | some x => h.heldPages.foldl (fun s e => s.unhold x e.2) s

/-- Order 8 on this member: held pages become the destination's, at length c. -/
def State.mapShip (s : State) (c : Nat) (h : Ship) : State :=
  s.mapHeld c h.name.dstHandle 0 (cdiv h.committed 256) h.committed (h.heldPages.map (·.2))

/-! ## Source -/

/-- Logical pages that this source member holds of a shipped sequence. -/
def State.shipPages (s : State) (x : Ctx) (n : ShipName) (committed : Nat) : List Nat :=
  pagesOn x.runLog2 (s.homeIdx n.srcHandle) s.members.length s.me (cdiv committed 256)

/-- Pages that the members of the source hold, by member index, where a member holds any. -/
def State.sourceMembers (s : State) (x : Ctx) (n : ShipName) (committed : Nat) : List Nat :=
  (List.range s.members.length).filter fun m =>
    !(pagesOn x.runLog2 (s.homeIdx n.srcHandle) s.members.length m (cdiv committed 256)).isEmpty

/-- Order 7: every source member is done, and the source home says so once. -/
def State.shipDoneIf (s : State) (n : ShipName) : State :=
  match s.ship? n true with
  | none => s
  | some h => match s.ctx h.ctx with
    | none => s
    | some x =>
      let need := s.sourceMembers x n h.committed
      if h.desc != 0 && h.offered && !h.arrived && need.all fun m => h.done.any (·.1 = m) then
        (s.modShip n true fun g => { g with arrived := true }).emit (.shipDone n (h.done.foldl (fun k d => k + d.2) 0))
      else s

/-- WRITES_DONE of a source member at the source home. -/
def State.noteWrites (s : State) (n : ShipName) (member pages : Nat) : State :=
  (s.modShip n true fun g => if g.done.any (·.1 = member) then g else { g with done := g.done ++ [(member, pages)] }).shipDoneIf n

/-- A source member has every write acknowledged for every page that it holds. -/
def State.writesDoneIf (s : State) (n : ShipName) : State :=
  match s.ship? n true with
  | none => s
  | some h => match s.ctx h.ctx with
    | none => s
    | some x => match x.table? n.srcHandle with
      | none => s
      | some t =>
        let js := s.shipPages x n t.committed
        if js.isEmpty || !js.all h.granted.contains || s.outst.any fun o => decide (o.purpose = .ship n) then s
        else if n.srcNode = s.node then s.noteWrites n s.me (js.length * x.perPage)
        else s.emit (.writesDone n.srcNode n s.me (js.length * x.perPage))

/-- What the manager could not read or write outside a boundary faults its context (R157, R158, R170; log entry 14). -/
def State.raiseTables (s : State) : State :=
  s.tableFaults.foldl (fun s f => match s.ctxOfJob f.1 with
    | none => s
    | some (c, _) => s.faultCtx c f.2) { s with tableFaults := [] }

/-- One page of a ship in requests of at most 8,192 bytes, each with the poison of its own lines (R169); `a` is its address here and
`b` the one at the destination. -/
def sendPage (c : Nat) (x : Ctx) (n : ShipName) (node b a : Nat) : Nat → State → State
  | 0, s => s
  | k + 1, s =>
    let s := sendPage c x n node b a k s
    let o := 8192 * k
    if x.pageSize ≤ o then s
    else match s.managerRead c x (a + o) (min 8192 (x.pageSize - o)) with
      | .error st => s.tableFault x st
      | .ok (bs, po, s) => s.sendRequest c x.job node (b + o) (.write bs) po (.ship n)

/-- Order 6: the granted pages are written to the destination. The grant names them by their context addresses there, for its pool may
stand elsewhere than the source's (R323 names no form of them: DESIGN CHOICE, log entry 21). -/
def State.writeShip (s : State) (n : ShipName) (node : Nat) (logical pages : List Nat) : State :=
  match s.ctxOfJob n.job with
  | none => s
  | some (c, x) => match x.table? n.srcHandle with
    | none => s
    | some t =>
      let s := if (s.ship? n true).isNone
        then { s with ships := s.ships ++ [{ Ship.fresh n c true 0 with committed := t.committed, offered := true }] } else s
      let s := (s.modShip n true fun g => { g with granted := g.granted ++ logical }).readTables c x
      let slots := logical.flatMap fun j => x.planes.map fun lh => (localIndex x.runLog2 s.members.length j, lh.1, lh.2)
      let s := (slots.zip pages).foldl (fun s q =>
        let e := s.ptEntry x t q.1.1 q.1.2.1 q.1.2.2
        sendPage c x n node q.2 (x.pageAddr e.page) (cdiv x.pageSize 8192) s) s
      ((s.dropLent x.job).raiseTables).writesDoneIf n

end Sys2Proof.Machine
end

