-- ==== Sys2Proof/Machine/Sequences.lean ====
section
/-! DEFINITION. Sequences at their home: opening, appending, ends of generation, cancels and closes, parameters, maps
and ships, as they take effect at a boundary (R243 to R252, R258 to R262, R270, R272, R279, R280, R285, R286). -/

namespace Sys2Proof.Machine

/-- An edit that every member applies to its context of the job. -/
def State.edit (s : State) (c : Nat) (e : Edit) : State :=
  match s.ctx c with
  | none => s
  | some x => { s with edits := s.edits ++ [(x.job, e)] }

/-- The sequence is open, or was closed by this very boundary (R261). -/
def Seq.present (q : Seq) (b : Bound) : Bool := q.closing.isNone || (b.commit != 0 && q.closedIn = b.commit)

/-- The sequence is open. -/
def Seq.isOpen (q : Seq) : Bool := q.closing.isNone

/-! ## STRICT_COMMIT (R360) -/

/-- `INT_STRICT` names the context, on its home. -/
def State.strictOn (s : State) (c : Nat) : Bool := bit (s.reg (if c < 32 then oStrictLo else oStrictHi)) (c % 32)

/-- A token record of a generation falls due, or waits in the strict hold area. -/
def State.publish1 (s : State) (c handle desc : Nat) (words : List Word) (b : Bound) : State :=
  match s.desc? desc with
  | none => s
  | some d =>
    let r : Rec := ⟨d.pair, true, false, words, false, b.commit⟩
    if s.strictOn c then { s with strict := s.strict ++ [⟨c, handle, b.step, .token desc r⟩] } else s.postToken desc r

/-- The last step whose token records of a descriptor wait in the strict hold area. -/
def State.strictLast (s : State) (desc : Nat) : Option Nat :=
  (s.strict.filterMap fun r => match r.what with | .token d _ => if d = desc then some r.step else none | _ => none).max?

/-- A generating descriptor completes, or waits with its records: it follows the last of them (R304, R360). -/
def State.finishGen (s : State) (c handle desc status result : Nat) (b : Bound) : State :=
  match if s.strictOn c && b.commit != 0 then some b.step else s.strictLast desc with
  | some n => { s with strict := s.strict ++ [⟨c, handle, n, .finish desc status result⟩] }
  | none => s.complete desc status result b

/-! ## Ends (R246, R252, R259) -/

/-- A sequence leaves PREFILL or DECODE: its kept proposals go (R284), and the plans published with rows of it are noted, whose effects
for it are discarded (R255). -/
def State.leaves (s : State) (c : Nat) (q : Seq) : Seq :=
  match s.ctx c with
  | none => q
  | some x => { q with
    state := .ready, gen := none, pre := none, cands := [], candsPo := false
    left := (q.left.filter (x.step < ·)) ++
      (s.plans.filter fun p => p.job = x.job && p.rows.any fun r => r.handle = q.handle).map (·.step) }

/-- The sequence is closed; its release follows (R255, R260). `ended` says that AUTO_CLOSE closes it at the end of a generation
or prefill that this commit brings. -/
def State.closeSeq (s : State) (c : Nat) (q : Seq) (desc : Nat) (ended : Bool) (b : Bound) : State :=
  (s.setSeq c { s.leaves c q with closing := some desc, closedIn := b.commit }).edit c (.close q.handle ended)

/-- The state after a generation or a prefill ended: READY, or closed under AUTO_CLOSE. -/
def State.settleSeq (s : State) (c : Nat) (q : Seq) (ended : Bool) (b : Bound) : State :=
  if q.autoClose then s.closeSeq c q 0 ended b else s.setSeq c (s.leaves c q)

/-- Generation ends with a status. -/
def State.endGen (s : State) (c : Nat) (q : Seq) (status : Nat) (ended : Bool) (b : Bound) : State :=
  let s := match q.gen with
    | none => s
    | some id => s.finishGen c q.handle id status q.published b
  s.settleSeq c q ended b

/-- A prefill that its descriptor started ends with a status: a prefilling descriptor's, or the generating one's. -/
def State.endPre (s : State) (c : Nat) (q : Seq) (status : Nat) (ended : Bool) (b : Bound) : State :=
  match q.gen with
  | some _ => s.endGen c q status ended b
  | none =>
    let s := match q.pre with
      | none => s
      | some id => s.complete id status 0 b
    s.settleSeq c q ended b

/-- What a cancel ends (R259): a generation, or a prefill whose first token becomes pending. A chunk that a published plan holds keeps
its tokens (R255). -/
def State.cancelSeq (s : State) (c : Nat) (q : Seq) (b : Bound) : State :=
  match q.state with
  | .decode => s.endGen c q stCancelled false b
  | .prefill => s.endPre c { q with queue := q.queue.take 1, kept := q.queue } stCancelled false b
  | _ => s

/-! ## Starting (R250) -/

/-- The state that a queue gives after a descriptor takes effect. -/
def startState (generate : Bool) (queued : Nat) : SeqState :=
  if 1 < queued then .prefill else if generate then .decode else .ready

/-- The opening or appending descriptor takes effect on `q`, whose queue already holds its tokens. -/
def State.startSeq (s : State) (c : Nat) (q : Seq) (d : Desc) (f : OpenFields) (b : Bound) : State :=
  let st := startState f.generate q.queue.length
  let q := { q with
    state := st, gen := if f.generate then some d.id else none, pre := if !f.generate && st = .prefill then some d.id else none
    maxNew := if f.generate then f.maxNew else q.maxNew, published := 0
    autoClose := st != .ready && f.autoClose }
  let s := s.setSeq c q
  if st = .ready then s.complete d.id stOk 0 b else s.modDesc d.id fun d => { d with phase := .running }

/-! ## `SEQ_OPEN`, `KV_ACCEPT`, `SEQ_APPEND` (R247, R248) -/

/-- Sequences that the package homes. -/
def State.homed (s : State) : Nat := (s.ctxs.map fun e => e.2.seqs.length).foldl (· + ·) 0

/-- Tokens queued at this home for a context. -/
def Ctx.queued (x : Ctx) : Nat := (x.seqs.map fun q => q.queue.length).foldl (· + ·) 0

/-- The pools and the table area cover a sequence of `maxLen` slots (R248). -/
def State.poolCovers (s : State) (x : Ctx) (handle maxLen : Nat) : Bool :=
  x.poolPages != 0 && (s.tablePlace x (s.areaBytes x handle (s.tablePages x handle maxLen))).isSome &&
    (List.range s.members.length).all fun m => s.poolNeed x handle maxLen m + x.policy.headroom ≤ x.usablePool

/-- A sequence as its opening sets it (R247, R280). Its place in the home's acceptance order (R256) is that of the descriptor that
opens it, not of the SEQ_APPEND that makes it a candidate (DESIGN CHOICE, log entry 17). -/
def Seq.opened (handle : Nat) (f : OpenFields) (queue : List Nat) (order : Nat) : Seq :=
  { handle := handle, state := .ready, committed := 0, queue := queue, rootPublished := false, maxLen := f.maxLen,
    cls := f.cls, stops := f.stops, quota := f.quota, prefixGroup := f.prefixGroup, prefixLen := f.prefixLen, gen := none,
    pre := none, maxNew := f.maxNew, published := 0, autoClose := f.autoClose, paramsFollow := f.paramsFollow,
    draw := .default, con := .default, auto := 0, pen := [], cands := [], candsPo := false, order := order, mapping := false,
    closing := none, closedIn := 0, roots := [], left := [], kept := [] }

/-- Where NTOK and MAX_LEN break R248 against a length already committed or queued: RESULT names NTOK. -/
def tooLong (maxLen committed queued : Nat) : Bool := maxLen < committed + queued

/-- `SEQ_OPEN` takes effect. -/
def State.applyOpen (s : State) (c : Nat) (x : Ctx) (d : Desc) (b : Bound) : State :=
  let h := hObject d.words
  let f := d.fields
  let toks := d.buf.map (·.toNat)
  if tooLong f.maxLen 0 toks.length then s.complete d.id stBad 0x18 b
  else if h = 0 || h = 0xFFFFFFFF || (x.seq? h).isSome || 65536 ≤ s.homed || (f.generate && toks.isEmpty)
  then s.complete d.id stDenied 0 b
  else if !s.poolCovers x h f.maxLen || 16777216 < x.queued + toks.length then s.complete d.id stNoPages 0 b
  else
    let q := Seq.opened h f toks d.id
    (((s.setSeq c q).openTable c h s.node f.maxLen).edit c (.openSeq h s.node f.maxLen)).startSeq c q d f b

/-- `KV_ACCEPT` takes effect: the destination opens in RECEIVING (R265 order 1), which is the state that its boundary gives it (R302). -/
def State.applyAccept (s : State) (c : Nat) (x : Ctx) (d : Desc) (b : Bound) : State :=
  let h := hObject d.words
  let f := d.fields
  if h = 0 || h = 0xFFFFFFFF || (x.seq? h).isSome || 65536 ≤ s.homed then s.complete d.id stDenied 0 b
  else if !s.poolCovers x h f.maxLen then s.complete d.id stNoPages 0 b
  else
    let q := { Seq.opened h f [] d.id with
      state := .receiving, gen := if f.generate then some d.id else none, pre := if f.generate then none else some d.id }
    let n : ShipName := ⟨x.job, fieldAt d.words 0x10 11 0, fieldAt d.words 0x10 21 16, (wordAt d.words 0x14).toNat, s.node, c, h⟩
    let s := ((s.setSeq c q).openTable c h s.node f.maxLen).edit c (.openSeq h s.node f.maxLen)
    -- a ship of the same name that never held pages leaves the list
    let old := s.ships.filter fun h => !(h.name = n && !h.out && h.heldPages.isEmpty)
    let s := { s with ships := old ++ [{ Ship.fresh n c false d.id with offerTime := s.time }] }
    s.modDesc d.id fun d => { d with phase := if f.generate then .running else .waiting }

/-- `SEQ_APPEND` takes effect. -/
def State.applyAppend (s : State) (c : Nat) (x : Ctx) (d : Desc) (b : Bound) : State :=
  let f := d.fields
  let toks := d.buf.map (·.toNat)
  match x.seq? (hObject d.words) with
  | none => s.complete d.id stDenied 0 b
  | some q =>
    let all := q.queue ++ toks
    if q.isOpen && q.state = .ready && tooLong q.maxLen q.committed all.length then s.complete d.id stBad 0x18 b
    else if !q.isOpen || q.state != .ready || (f.generate && all.isEmpty) then s.complete d.id stDenied 0 b
    else if 16777216 < x.queued + toks.length then s.complete d.id stNoPages 0 b
    else s.startSeq c { q with queue := all, rootPublished := q.rootPublished && !q.queue.isEmpty, autoClose := f.autoClose } d f b

/-! ## `SEQ_CANCEL`, `SEQ_CLOSE` (R259 to R261) -/

def State.applyCancel (s : State) (c : Nat) (x : Ctx) (d : Desc) (b : Bound) : State :=
  match x.seq? (hObject d.words) with
  | none => s.complete d.id stDenied 0 b
  | some q =>
    if !q.present b then s.complete d.id stDenied 0 b
    else match q.state with
      | .shipping | .receiving => s.complete d.id stDenied 0 b
      | .ready => s.complete d.id stFinished 0 b
      | _ => (s.cancelSeq c q b).complete d.id stOk 0 b

/-- A ship of a destination that closes is refused, and its held pages become free at the boundary (R260, R266). -/
def State.refuseShip (s : State) (c handle status : Nat) : State :=
  (s.ships.filter fun h => !h.out && h.ctx = c && h.name.dstHandle = handle && h.ended.isNone).foldl (fun s h =>
    let s := if h.offered then s.emit (.shipRefused h.name.srcNode h.name status) else s
    if h.offered then (s.edit c (.dropShip h.name)).modShip h.name false fun g => { g with ended := some status }
    else s.dropShip h.name false) s

def State.applyClose (s : State) (c : Nat) (x : Ctx) (d : Desc) (b : Bound) : State :=
  match x.seq? (hObject d.words) with
  | none => s.complete d.id stDenied 0 b
  | some q =>
    if !q.present b || q.state = .shipping || (q.closing.getD 0) != 0 then s.complete d.id stDenied 0 b
    else
      let s := match q.state with
        | .decode | .prefill => s.cancelSeq c q b
        | .receiving =>
          let s := s.refuseShip c q.handle stDenied
          match q.gen.orElse fun _ => q.pre with
          | none => s
          | some id => s.complete id stCancelled 0 b
        | _ => s
      let q := (s.seq? c q.handle).getD q
      (s.closeSeq c q d.id false b).modDesc d.id fun d => { d with phase := .waiting }

/-! ## `SEQ_PARAMS` (R279, R280) -/

def drawOf (ws : List Word) : DrawParams :=
  { topK := fieldAt ws 0x10 12 2, treeMax := fieldAt ws 0x10 18 13, scopeAll := bit (wordAt ws 0x10) 19, temp := wordAt ws 0x14,
    topP := wordAt ws 0x18, minP := wordAt ws 0x1C, repPen := wordAt ws 0x20, presPen := wordAt ws 0x24,
    freqPen := wordAt ws 0x28, seed := beNat (bytesOf (window 11 4 ws)) }

/-- The bias entries read at acceptance, as pairs of words. -/
def biasPairs : List Word → List (Nat × Word)
  | t :: v :: l => (fld t 19 0, v) :: biasPairs l
  | _ => []

def conOf (ws buf : List Word) (poison : Bool) : ConParams :=
  { constraint := fieldAt ws 0x10 3 2, biases := biasPairs buf, conAddr := addr48 ws 0x1C 0x20,
    startState := (wordAt ws 0x24).toNat, theta := (List.range 4).map fun i => wordAt ws (0x28 + 4 * i), poison := poison }

def State.applyParams (s : State) (c : Nat) (x : Ctx) (d : Desc) (b : Bound) : State :=
  match x.seq? (hObject d.words) with
  | none => s.complete d.id stDenied 0 b
  | some q =>
    if !q.isOpen || q.state = .shipping then s.complete d.id stDenied 0 b
    else if fieldAt d.words 0x10 1 0 = 0 then
      let draw := drawOf d.words
      ((s.setSeq c { q with draw := draw, paramsFollow := false }).edit c (.params q.handle draw q.con)).complete d.id stOk 0 b
    else
      let con := conOf d.words d.buf d.bufPo
      ((s.setSeq c { q with con := con, auto := con.startState }).edit c (.params q.handle q.draw con)).complete d.id stOk 0 b

/-! ## `PAGE_MAP`, `PAGE_UNMAP` (R204 to R206) -/

/-- New local pages that a map puts into a sequence's table here. -/
def State.mapNeed (s : State) (x : Ctx) (handle first count : Nat) : List Nat :=
  ((List.range count).map (first + ·)).filter fun j => s.holds x handle j

/-- The page numbers of a list read at acceptance pass R205: each below POOL_PAGES, held, and named once. -/
def State.listOk (s : State) (x : Ctx) (ps : List Nat) : Bool :=
  ps.all (fun p => p < x.poolPages && (s.pageDesc x p).state = .held) && distinct ps = ps

/-- The map leaves a copy to be made here (R200): the length ends strictly inside a page that lies here, whose OWNER is
another sequence. -/
def State.copies (s : State) (x : Ctx) (dst src len : Nat) : Bool :=
  len % 256 != 0 && s.holds x dst (len / 256) &&
    match x.table? src with
    | none => false
    | some ts =>
      let e := s.ptEntry x ts (localIndex x.runLog2 s.members.length (len / 256)) 0 0
      e.valid && (s.pageDesc x e.page).owner != dst

/-- The sequence whose page a logical page of `q` is, by acceptance order, as its home knows it: only sequences of one home share pages
(R204), so that the home counts the entries that map a page on any member (R199). -/
def Seq.rootAt (q : Seq) (j : Nat) : Nat := (assoc j q.roots).getD q.order

/-- The sequences homed here that map a page. -/
def Ctx.mappers (x : Ctx) (j root : Nat) : Nat := (x.seqs.filter fun q => q.rootAt j = root && decide (256 * j < q.committed)).length

/-- On every member the destination's table holds an entry for each page of a map (R194, R205). -/
def State.tablesCover (s : State) (x : Ctx) (q : Seq) (first count : Nat) : Bool :=
  (List.range count).all fun i =>
    localIndex x.runLog2 s.members.length (first + i) <
      s.tablePagesOn x q.handle q.maxLen (memberOf x.runLog2 (s.homeIdx q.handle) s.members.length (first + i))

/-- A map that every member applies when its own tables allow it: the destination's length ends the pages that lie below the map,
and the source has LENGTH committed slots (R205). The home judges the same, on the same lengths. -/
def Ctx.mapFits (x : Ctx) (dst src first len : Nat) : Bool :=
  match x.table? dst, x.table? src with
  | some td, some ts => td.committed = 256 * first && len ≤ ts.committed
  | _, _ => false

/-- `PAGE_MAP` takes effect at its place in the page manager's list (R198 item 4), or is refused. It waits as `running` while
another member may copy its last page. -/
def State.applyMap (s : State) (c : Nat) (x : Ctx) (d : Desc) (b : Bound) : State :=
  let ws := d.words
  let dst := hObject ws
  let src := (wordAt ws 0x10).toNat
  let first := fieldAt ws 0x18 15 0
  let count := fieldAt ws 0x18 31 16
  let len := fieldAt ws 0x1C 22 0
  match x.table? dst with
  | none => s.complete d.id stDenied 0 b
  | some t =>
    let open? (h : Nat) : Bool := match x.table? h with | some t => t.closing = 0 | none => false
    let js := s.mapNeed x dst first count
    if t.committed != 256 * first then s.complete d.id stBad 0x18 b
    else if fieldAt ws 0x14 1 0 = 0 then
      match x.table? src, x.seq? src, x.seq? dst with
      | some ts, some qs, some qd =>
        let full := js.any fun j => x.planes.any fun lh =>
          let e := s.ptEntry x ts (localIndex x.runLog2 s.members.length j) lh.1 lh.2
          e.valid && (s.pageDesc x e.page).refs = 65535
        let full := full || (List.range count).any fun i => 65535 ≤ x.mappers (first + i) (qs.rootAt (first + i))
        if !open? dst || !open? src || ts.committed < len || (s.homeIdx src != s.homeIdx dst && s.members.length != 1) || full
        then s.complete d.id stDenied 0 b
        else if !s.tablesCover x qd first count || (s.copies x dst src len && !s.canTake x t)
        then s.complete d.id stNoPages 0 b
        else
          let s := { s.sharePages c dst src first count len with unsent := s.unsent ++ [(x.job, Edit.share dst src first count len)] }
          let roots := qd.roots.filter (·.1 < first) ++ (List.range count).map fun i => (first + i, qs.rootAt (first + i))
          let s := s.setSeq c { qd with committed := len, mapping := true, roots := roots }
          let there := s.members.length != 1 && len % 256 != 0 && !s.holds x dst (len / 256)
          s.modDesc d.id fun d => { d with phase := if there then .running else .waiting }
      | _, _, _ => s.complete d.id stDenied 0 b
    else
      let ps := d.buf.map (·.toNat)
      if !open? dst || !s.listOk x ps then s.complete d.id stDenied 0 b
      else if js.any fun j => t.pages ≤ localIndex x.runLog2 s.members.length j then s.complete d.id stNoPages 0 b
      else
        let s := s.mapHeld c dst first count len ps
        let s := match s.seq? c dst with
          | none => s
          | some q => s.setSeq c { q with committed := len }
        s.complete d.id stOk 0 b

def State.applyUnmap (s : State) (c : Nat) (x : Ctx) (d : Desc) (b : Bound) : State :=
  let first := fieldAt d.words 0x10 15 0
  match x.seq? (hObject d.words) with
  | none => s.complete d.id stDenied 0 b
  | some q =>
    if !q.isOpen then s.complete d.id stDenied 0 b
    else ((s.setSeq c { q with committed := min q.committed (256 * first), roots := q.roots.filter (·.1 < first) }).edit c (.unmap q.handle first)).complete d.id stOk 0 b

/-! ## `KV_SHIP` (R264, R265) -/

def State.applyShip (s : State) (c : Nat) (x : Ctx) (d : Desc) (b : Bound) : State :=
  match x.seq? (hObject d.words) with
  | none => s.complete d.id stDenied 0 b
  | some q =>
    if !q.isOpen || q.state != .ready then s.complete d.id stDenied 0 b
    else
      let n : ShipName := ⟨x.job, s.node, c, q.handle, fieldAt d.words 0x10 11 0, fieldAt d.words 0x10 21 16, (wordAt d.words 0x14).toNat⟩
      let s := s.setSeq c { q with state := .shipping }
      let h := { Ship.fresh n c true d.id with
        committed := q.committed, pending := q.queue.head?, published := q.rootPublished, offered := true, offerTime := s.time }
      let s := { s with ships := s.ships ++ [h] }
      let s := s.modDesc d.id fun d => { d with phase := .waiting }
      (s.emit (.shipOffer n q.committed (q.queue.head?.map fun t => (t, q.rootPublished)) x.kv q.pen s.members)).shipDoneIf n

/-! ## Commit of a row (R249, R252, R270, R273, R286) -/

/-- Where a walk's publication ends: the tokens published, the pending token after it, the nodes that commit, the
committed length, the status that ends generation, and whether a dead end ends it. -/
structure Pub where
  toks : List Nat
  nodes : List Nat
  committed : Nat
  status : Option Nat
  dead : Bool
  deriving DecidableEq, Repr

def pubOf (q : Seq) (c : Nat) (r : Result) : Pub :=
  let ends (j : Nat) : Option Nat :=
    if q.stops.contains (r.draws.getD j 0) then some stEos
    else if q.maxNew ≤ q.published + j + 1 || q.maxLen < c + (j + 1) + 1 then some stLimit else none
  match (List.range r.draws.length).find? fun j => (ends j).isSome with
  | some j => ⟨r.draws.take (j + 1), r.accepted.take j, c + j + 1, ends j, false⟩
  | none =>
    if r.deadEnd then ⟨r.draws, r.accepted.take (r.draws.length - 1), c + r.draws.length, some stEos, true⟩
    else ⟨r.draws, r.accepted, c + r.draws.length, none, false⟩

/-- The token records of a publication, in position order. -/
def State.publishToks (s : State) (c : Nat) (q : Seq) (c0 : Nat) (r : Result) (p : Pub) (b : Bound) : State :=
  let n := p.toks.length
  let acc := if r.deadEnd then r.accepted.length - 1 else r.accepted.length
  let s := (List.range n).foldl (fun s j =>
    s.publish1 c q.handle (q.gen.getD 0)
      (tokenWords q.handle (p.toks.getD j 0) (p.status.isSome && !p.dead && j + 1 = n) (j < acc) false r.exit
        (c0 + j + 1) b.step) b) s
  if p.dead then s.publish1 c q.handle (q.gen.getD 0) (tokenWords q.handle 0 true false true r.exit (c0 + n + 1) b.step) b else s

/-- What a sequence was before a step that held rows of it (R359, R360). -/
def State.notePast (s : State) (c : Nat) (q : Seq) (before : Nat) (b : Bound) : State :=
  { s with past := s.past ++ [(⟨c, q.handle, b.step, before, q.queue, q.published⟩ : SeqPast)] }

/-- A decode row commits at its home, after the commit's token records (R304). -/
def State.commitDecode (s : State) (c : Nat) (q : Seq) (row : LenRow) (r : Result) (b : Bound) : State :=
  let c0 := row.committed
  let p := pubOf q c0 r
  let s := s.notePast c q c0 b
  let k := oSpec c
  let s := (((s.bump64 k r.proposed).bump64 (k + 8) p.nodes.length).bump64 (k + 0x10) p.toks.length).bump64 (k + 0x18)
    (if p.dead then 1 else 0)
  let pen := if !q.rootPublished && c0 < p.committed then penAdd q.pen (q.queue.headD 0) false else q.pen
  let q := { q with
    committed := p.committed, pen := p.toks.foldl (fun t k => penAdd t k true) pen
    queue := match p.toks.getLast? with | some t => [t] | none => q.queue
    rootPublished := q.rootPublished || !p.toks.isEmpty, published := q.published + p.toks.length
    auto := if p.toks.isEmpty then q.auto else r.auto
    cands := r.cands, candsPo := r.candsPo }
  let s := ((s.setSeq c q).writePen c q).edit c (.advance q.handle p.nodes.length p.committed p.nodes)
  match p.status with
  | none => s
  | some st => s.endGen c q st true b

/-- A prefill chunk commits at its home. A cancel that acts at this boundary ends the prefill itself (R259). -/
def State.commitChunk (s : State) (c : Nat) (q : Seq) (row : LenRow) (r : Option Result) (cancelled : Bool) (b : Bound) :
    State :=
  let toks := q.queue.take row.new
  let s := s.notePast c q row.committed b
  let pen := ((toks.zip (List.range toks.length)).filter fun t => !(q.rootPublished && t.2 = 0)).foldl (fun l t => penAdd l t.1 false) q.pen
  let q : Seq := { q with
    committed := row.committed + toks.length, queue := q.queue.drop row.new, pen := pen, rootPublished := false,
    cands := (r.map (·.cands)).getD [], candsPo := (r.map (·.candsPo)).getD false }
  let s := ((s.setSeq c q).writePen c q).edit c (.advance q.handle 0 q.committed [])
  if 1 < q.queue.length || cancelled then s
  else match q.gen with
    | some _ => s.setSeq c { q with state := .decode }
    | none => s.endPre c q stOk true b

/-- A planned row of a step commits at its home, unless the sequence left its state since the plan was published, or its effects are
discarded (R255, R259). -/
def Seq.commits (q : Seq) (a : Attempt) (discards : List Nat) (row : LenRow) : Bool :=
  q.isOpen && !discards.contains row.handle && !q.left.contains a.plan.step &&
    match row.kind, q.state with
    | .decode, .decode => a.results.any fun r => r.handle = row.handle
    | .prefill, .prefill => true
    | _, _ => false

/-- The token records of a row that commits (R304: before every completion of the commit). -/
def State.publishRow (s : State) (c : Nat) (a : Attempt) (discards : List Nat) (row : LenRow) (b : Bound) : State :=
  match s.seq? c row.handle, a.results.find? fun r => r.handle = row.handle with
  | some q, some r =>
    if q.commits a discards row && row.kind = .decode then s.publishToks c q row.committed r (pubOf q row.committed r) b else s
  | _, _ => s

/-- A planned row's other effects; a row whose effects are discarded was still a row of the step (R359). -/
def State.commitRow (s : State) (c : Nat) (a : Attempt) (discards cancels : List Nat) (row : LenRow) (b : Bound) :
    State :=
  match s.seq? c row.handle with
  | none => s
  | some q =>
    if !q.commits a discards row then s.notePast c q q.committed b
    else match row.kind, a.results.find? fun r => r.handle = row.handle with
      | .decode, some r => s.commitDecode c q row r b
      | .prefill, r => s.commitChunk c q row r (cancels.contains row.handle) b
      | _, _ => s

/-! ## Policies (R258, R262, R383) -/

/-- What a policy descriptor forwards to the lead. -/
def Desc.forward (d : Desc) (node job : Nat) : Option Forwarded :=
  let ws := d.words
  let op := hOpcode ws
  let w : Option Forward :=
    if op = opStepPolicy then
      if fieldAt ws 0x10 1 0 = 0 then
        some (.limits ⟨fieldAt ws 0x14 13 0, fieldAt ws 0x14 30 16, fieldAt ws 0x18 13 0, fieldAt ws 0x18 30 16,
          fieldAt ws 0x1C 15 0, (wordAt ws 0x20).toNat⟩)
      else some (.quota (fieldAt ws 0x14 9 0) (fieldAt ws 0x18 13 0))
    else if op = opBenchSplit then
      some (.bench ⟨fieldAt ws 0x10 2 0, fieldAt ws 0x10 5 3, fieldAt ws 0x10 31 16,
        (List.range 4).map (fun r => (wordAt ws (0x14 + 4 * r)).toNat), (List.range 4).map fun r => (wordAt ws (0x24 + 4 * r)).toNat⟩)
    else if op = opTrainStep then some (.train ws)
    else none
  w.map fun w => ⟨node, job, d.id, w⟩

/-- The policy descriptor completes after the boundary; a training step waits for its own commit (R383). -/
def State.applyPolicy (s : State) (d : Desc) (b : Bound) : State :=
  if hOpcode d.words = opTrainStep then s.modDesc d.id fun d => { d with phase := .waiting } else s.complete d.id stOk 0 b

/-! ## One descriptor at its boundary -/

/-- An accepted descriptor that waits for a boundary takes effect. -/
def State.applyDesc (s : State) (d : Desc) (b : Bound) : State :=
  let c := hContext d.words
  let op := hOpcode d.words
  match s.ctx c with
  | none => s.complete d.id stDenied 0 b
  | some x =>
    if op = opSeqOpen then s.applyOpen c x d b
    else if op = opSeqAppend then s.applyAppend c x d b
    else if op = opSeqCancel then s.applyCancel c x d b
    else if op = opSeqClose then s.applyClose c x d b
    else if op = opSeqParams then s.applyParams c x d b
    else if op = opPageUnmap then s.applyUnmap c x d b
    else if op = opKvShip then s.applyShip c x d b
    else if op = opKvAccept then s.applyAccept c x d b
    else if op = opJigLoad then s.jigInstall d b
    else if op = opStepPolicy || op = opBenchSplit || op = opTrainStep then s.applyPolicy d b
    else s

end Sys2Proof.Machine
end

