-- ==== Sys2Proof/Machine/Reports.lean ====
section
/-! DEFINITION. What members report to the lead (R253, R254, R338, R361, R387). -/

namespace Sys2Proof.Machine

/-- The space that a home reports for its strict hold area (R361). -/
def State.strictSpace (s : State) (c : Nat) (x : Ctx) : Option (Nat × Nat) :=
  if !s.strictOn c then none
  else
    let mine := s.strict.filter fun r => r.ctx = c
    let toks := (mine.filter fun r => match r.what with | .token _ _ => true | _ => false).length
    let rows := ((s.plans.filter fun p => p.job = x.job).flatMap (·.rows)).filter fun r => r.kind = .decode && s.isHome r.handle
    some (262144 - toks - (rows.map (·.new)).foldl (· + ·) 0, 131072 - (mine.length - toks) - rows.length)

/-- The entry of a homed sequence as it stands: its state and queue (R253), and what the lead plans it by. -/
def State.seqReport (s : State) (x : Ctx) (q : Seq) : SeqReport :=
  { handle := q.handle, home := s.node, state := if q.isOpen then some q.state else none, held := q.mapping || q.paramsFollow,
    cls := q.cls, queued := q.queue.length, committed := q.committed, quota := q.quota, order := q.order,
    nodes := min (min q.draw.treeMax (fieldAt x.spec 0 13 8)) (q.maxLen - q.committed - 1),
    prefixGroup := q.prefixGroup, prefixLen := q.prefixLen }

/-- The entries of every sequence that a context homes here. -/
def State.seqEntries (s : State) (x : Ctx) : List SeqReport := x.seqs.map (s.seqReport x)

/-- The entries of a job that the lead has from this home. -/
def State.toldOf (s : State) (job : Nat) : List SeqReport := (s.told.filter fun e => e.1 = job).map (·.2)

/-- The entries that changed since the last report that counted (R338); a sequence that is here no more has left. -/
def State.seqChanges (s : State) (x : Ctx) : List SeqReport :=
  let now := s.seqEntries x
  let old := s.toldOf x.job
  (now.filter fun e => !old.contains e) ++
    (old.filter fun e => e.state.isSome && !now.any fun f => f.handle = e.handle).map fun e => { e with state := none }

/-- A report that carries a republished plane mask alone (R330). -/
def maskReport (node mask : Nat) : Report :=
  { node := node, job := 0, free := 0, resv := 0, waiting := 0, strictSpace := none, held := false, waits := [], seqs := [], forwards := []
    edits := [], copying := none, mask := some mask }

/-- The report about a context as it stands. -/
def State.makeReport (s : State) (c : Nat) (x : Ctx) (edits : List (Nat × Edit)) : Report :=
  { node := s.node, job := x.job, free := s.freePages x, resv := x.reserved,
    waiting := ((x.seqs.filter fun q => q.isOpen && q.state = .prefill).map fun q => q.queue.length - 1).foldl (· + ·) 0,
    strictSpace := s.strictSpace c x, held := x.holdDesc.isSome, waits := (x.tables.filter (·.waiting)).map (·.handle),
    seqs := s.seqChanges x, forwards := s.forwards.filter fun f => f.job = x.job, edits := edits, copying := none, mask := none }

/-- What the lead has been told of a job's sequences, once a report of them counts. -/
def State.tellJob (s : State) (x : Ctx) : State :=
  { s with told := (s.told.filter fun e => e.1 != x.job) ++ (s.seqEntries x).map fun e => (x.job, e) }

/-- A member holds a context from when it says so (R387), whatever else waits for a commit. -/
def Lead.noteHeld (l : Lead) (r : Report) : Lead :=
  if l.reports.any fun q => q.node = r.node && q.job = r.job then
    { l with reports := l.reports.map fun q => if q.node = r.node && q.job = r.job then { q with held := r.held } else q }
  else { l with reports := l.reports ++ [{ r with seqs := [], forwards := [], edits := [], copying := none }] }

/-- A report reaches the lead: taken in while a step is in flight, or into use at once. Whether the member holds the context counts at
once. -/
def State.giveReport (s : State) (r : Report) : State :=
  if s.isLead then
    let s := { s with lead := s.lead.noteHeld r }
    if s.idle then s.takeReports [r] else { s with lead := { s.lead with incoming := s.lead.incoming ++ [r] } }
  else match s.leadNode with
    | none => s
    | some n => s.emit (.report n r)

/-- A hold begins or ends: the member says so (R387). -/
def State.tellHold (s : State) (c : Nat) : State :=
  match s.ctx c with
  | none => s
  | some x => s.giveReport { s.makeReport c x [] with seqs := [], forwards := [] }

end Sys2Proof.Machine
end

