-- ==== Sys2Proof/Machine/Storage.lean ====
section
/-! DEFINITION. The storage path: `LOAD`, `CHECKPOINT` and `RESTORE`, their completions, and the Ethernet ports
(R157, R158, R333 to R335, R344 to R347, R386, R387). -/

namespace Sys2Proof.Machine

/-! ## Targets -/

/-- `ETH_TGT_STAT.CONN` of a target. -/
def State.conn (s : State) (t : Nat) : Nat := fld (s.reg oTgtStat) (2 * t + 1) (2 * t)
def State.setConn (s : State) (t v : Nat) : State := s.setRegFld oTgtStat (2 * t + 1) (2 * t) v
def State.connected (s : State) (t : Nat) : Bool := s.conn t = 2

/-! ## The RDMA engine (R345, R346) -/

/-- The queue pairs of a target: its admin queue, then its eight I/O queues (R346; their numbers are a DESIGN CHOICE, log entry 22). -/
def adminPair (target : Nat) : Nat := 9 * target
def ioPair (target queue : Nat) : Nat := 9 * target + 1 + queue

/-- The Ethernet port over which a target is reached, by the setup record (R347). -/
def tgtAt (t : Nat) : Nat := 0x100 + 0x40 * t
def State.tgtPort (s : State) (t : Nat) : Nat := fieldAt s.eth.setup (tgtAt t) 1 1

/-- RoCE traffic of a target is paused (R345). -/
def State.tgtPaused (s : State) (t : Nat) : Bool := s.eth.paused.any fun e => e.1 = s.tgtPort t && s.time < e.2.2

/-- What a command has still to send. -/
def StorJob.sends (j : StorJob) : Bool := j.queue.isSome && (!j.told || !j.left.isEmpty)

/-- The queue pairs with something to send, unless their target's traffic is paused. -/
def State.pairsDue (s : State) : List Nat :=
  ((s.eth.alive.filter fun t => !s.tgtPaused t).map adminPair) ++
    (s.stor.filter fun j => j.sends && !s.tgtPaused j.target).map fun j => ioPair j.target (j.queue.getD 0)

/-- One turn of a queue pair: a keep-alive, a command, or up to 4 KiB of a command's payload (R345). -/
def State.pairTurn (s : State) (q : Nat) : State :=
  let s := { s with eth := { s.eth with turn := q } }
  if s.eth.alive.any fun t => adminPair t = q then
    { s with eth := { s.eth with alive := s.eth.alive.filter fun t => adminPair t != q } }.emit (.keepAlive (q / 9))
  else match s.stor.find? fun j => j.sends && ioPair j.target (j.queue.getD 0) = q with
    | none => s
    | some j =>
      let put (k : StorJob) : State := { s with stor := s.stor.map fun i => if i.id = j.id then k else i }
      if !j.told then (put { j with told := true }).emit (.nvme j.target q j.read j.nsid j.lba j.addr j.len)
      else (put { j with left := j.left.drop 4096 }).emit (.rdma q (j.left.take 4096))

/-- The rotation over the queue pairs goes on until none has anything to send. -/
def runPairs : Nat → State → State
  | 0, s => s
  | n + 1, s =>
    let qs := s.pairsDue
    match (lowest (qs.filter (s.eth.turn < ·))).orElse fun _ => lowest qs with
    | none => s
    | some q => runPairs n (s.pairTurn q)

/-- The first I/O queue of a target with fewer than its 128 commands (R346; which one is a DESIGN CHOICE, log entry 22). -/
def freeQueue (js : List StorJob) (target : Nat) : Option Nat :=
  (List.range 8).find? fun q => (js.filter fun j => j.target = target && j.queue = some q).length < 128

/-- Commands that wait for a queue enter the first that has room, oldest first. -/
def State.queueJobs (s : State) : State :=
  s.stor.foldl (fun s j =>
    if j.queue.isSome then s
    else match freeQueue s.stor j.target with
      | none => s
      | some q => { s with stor := s.stor.map fun i => if i.id = j.id then { i with queue := some q } else i }) s

/-- The engine sends what it can. -/
def State.runStor (s : State) : State :=
  let s := s.queueJobs
  runPairs ((s.stor.map fun j => j.left.length / 4096 + 2).foldl (· + ·) s.eth.alive.length) s

def State.storJob (s : State) (id : Nat) : Option StorJob := s.stor.find? (·.id = id)

/-- A command has ended: its place in its queue is free. -/
def State.dropStor (s : State) (id : Nat) : State := { s with stor := s.stor.filter (·.id != id) }.runStor

/-- The NVMe command of a job, with the payload of a Write. A descriptor has at most one, so that its number is the descriptor's. -/
def State.issueNvme (s : State) (j : StorJob) (data : List Byte) : State := { s with stor := s.stor ++ [{ j with left := data }] }.runStor

/-! ## `LOAD` (R335) -/

/-- The order of R490 among the statuses of a `LOAD`. -/
def loadRank (st : Nat) : Nat :=
  if st = stOk then 9 else if st = stDenied then 1 else if st = stBad then 2 else if st = stPage then 3
  else if st = stTier then 4 else if st = stTimeout then 6 else 5

def State.load? (s : State) (id : Nat) : Option LoadJob := s.loads.find? (·.desc = id)

def State.modLoad (s : State) (id : Nat) (f : LoadJob → LoadJob) : State :=
  { s with loads := s.loads.map fun l => if l.desc = id then f l else l }

/-- A line failed: the status that ranks first decides, and the lowest address among faults of one rank. -/
def LoadJob.note (l : LoadJob) (st addr fault : Nat) : LoadJob :=
  if loadRank st < loadRank l.status || (loadRank st = loadRank l.status && addr < l.addr)
  then { l with status := st, addr := addr, fault := fault } else l

/-- The content of lines from one on becomes undefined: free bytes in each that lies on an HBM page. -/
def State.undefine (s : State) (x : Ctx) (a n : Nat) : State :=
  (List.range (cdiv n 128)).foldl (fun s i =>
    let e := x.page (pageOf (a + 128 * i))
    if pageOf (a + 128 * i) < x.range && entryValid e && entryHbm e then
      let r := freeBytes 128 s
      r.2.placeBytes x (a + 128 * i) r.1 false
    else s) s

/-- The context address of the destination of a `LOAD`. -/
def loadDst (ws : List Word) : Nat := addr48 ws 0x20 0x24

/-- After a `LOAD` that does not end with `OK`, the content of its whole destination is undefined (R335). -/
def State.undefineLoad (s : State) (ws : List Word) : State :=
  match s.ctx (hContext ws) with
  | none => s
  | some x => s.undefine x (loadDst ws / 128 * 128) (hLength ws)

/-- Every node has answered every line: the descriptor completes, and a fault tears the context down. -/
def State.finishLoad (s : State) (id : Nat) : State :=
  match s.load? id with
  | none => s
  | some l =>
    if !l.hostDone || l.waiting != 0 then s
    else
      let s := { s with loads := s.loads.filter (·.desc != id) }
      let s := match s.desc? id with
        | some d => if l.status = stOk then s else s.undefineLoad d.words
        | none => s
      let s := s.complete id l.status 0 .none
      if l.fault = 0 then s else s.faultCtx l.ctx l.fault

/-- A `LOAD` ends without its data: with a status, and its destination is undefined (R335). -/
def State.failLoad (s : State) (d : Desc) (status result : Nat) : State :=
  (({ s with loads := s.loads.filter (·.desc != d.id) } : State).undefineLoad d.words).complete d.id status result .none

/-- The lines of a `LOAD` written on this member, with the status that they give. -/
def State.loadHere (s : State) (x : Ctx) (a : Nat) (bs : List Byte) : State × Nat :=
  match s.writeCtx x a bs false true with
  | .ok s => (s, stOk)
  | .error st => (s, st)

/-- The lines of a `LOAD` sent to the children of index 0 in its list (R333). -/
def State.loadCast (s : State) (c job : Nat) (d : Desc) (dests : List Nat) : Nat → Nat → List Byte → State
  | 0, _, _ => s
  | n + 1, a, bs =>
    let s := (children dests.length 0).foldl (fun s i =>
      (s.sendRequest c job ((dests[i]?).getD 0) a (.mcast true dests i (bs.take 128)) false (.load d.id)).modLoad d.id fun l =>
        { l with waiting := l.waiting + 1 }) s
    s.loadCast c job d dests n (a + 128) (bs.drop 128)

/-- The node list of a broadcast, read at acceptance, with this package at index 0; a status where the list reaches an unmapped page or
is poisoned (R158, R170). -/
def State.loadList (s : State) (x : Ctx) (ws : List Word) : Except Nat (List Nat) × State :=
  let n := fieldAt ws 0x24 31 16
  if n = 0 then (.ok [], s)
  else match s.readCtx x (addr48 ws 0x28 0x2C) (4 * n) 0 with
    | .error st => (.error st, s)
    | .ok (bs, po, s) =>
      (if po then .error stPoisoned else .ok (s.node :: (wordsOf bs).map fun w => fld w 11 0), s)

/-- All data of a `LOAD` is here: it is written, and broadcast, and completes when every node has answered. -/
def State.loadData (s : State) (d : Desc) (bs : List Byte) : State :=
  let c := hContext d.words
  match s.ctx c with
  | none => s
  | some x =>
    let a := loadDst d.words
    let r := s.loadHere x a bs
    let s := if r.2 = stOk then r.1 else r.1.modLoad d.id fun l => l.note r.2 a r.2
    let s := match s.load? d.id with
      | some l => s.loadCast c x.job d l.dests (bs.length / 128) a bs
      | none => s
    (s.modLoad d.id fun l => { l with hostDone := true }).finishLoad d.id

/-- An accepted `LOAD` starts: the host's data is read through the port that carried it, or the target is asked, with the destination
lines registered as an RDMA memory region (R346). -/
def State.startLoad (s : State) (d : Desc) (x : Ctx) (h : HostView) : State :=
  let ws := d.words
  let c := hContext ws
  let n := hLength ws
  let t := fieldAt ws 0x10 5 2
  let host : Bool := fieldAt ws 0x10 1 0 = 0
  let data := if host then hostRead h (addrAt ws 0x14 0x18) n else some []
  if !host && !s.connected t then s.failLoad d stDenied 0
  else match data with
    | none => s.failLoad d stBad 0x40
    | some bs =>
      let r := s.loadList x ws
      match r.1 with
      | .error st => (r.2.failLoad d st 0).faultCtx c st
      | .ok dests =>
        let s := { r.2 with loads := r.2.loads ++ [(⟨d.id, c, dests, false, 0, stOk, 0, 0⟩ : LoadJob)] }
        let s := s.modDesc d.id fun d => { d with buf := wordsOf bs, phase := .running }
        if host then s
        else s.issueNvme ⟨d.id, d.id, c, true, t, (wordAt ws 0x1C).toNat, addrAt ws 0x14 0x18, loadDst ws, n, true, none, false, []⟩ []

/-! ## `CHECKPOINT` and `RESTORE` (R387) -/

def xferFirst (ws : List Word) : Nat := fieldAt ws 0x20 26 0
def xferPages (ws : List Word) : Nat := fieldAt ws 0x24 26 0

/-- The command of a transfer. -/
def transferJob (d : Desc) : StorJob :=
  let ws := d.words
  ⟨d.id, d.id, hContext ws, hOpcode ws = opRestore, fieldAt ws 0x10 3 0, (wordAt ws 0x14).toNat, addrAt ws 0x18 0x1C,
    xferFirst ws * 2 ^ 21, xferPages ws * 2 ^ 21, false, none, false, []⟩

/-- A hold ends with its descriptor, and the lead learns of it (R387). -/
def State.endHold (s : State) (c id : Nat) : State :=
  match s.ctx c with
  | none => s
  | some x => if x.holdDesc = some id then (s.setCtx c { x with holdDesc := none }).tellHold c else s

/-- Lines of lenders that a descriptor's reads found wanting are asked for, and it waits for them (R155, R389). -/
def State.stallDesc (s : State) (c : Nat) (x : Ctx) (d : Desc) (h : HostView) (wants : List (Nat × Nat)) : State :=
  (distinct (wants.map (·.2))).foldl (fun s l =>
    let e := x.page (pageOf (128 * l))
    s.sendRequest c x.job (entryNode e) (entryRframe e * 2 ^ 21 + 128 * l % 2 ^ 21) (.read 1) false (.fetch d.id x.job l))
    { s with stalled := s.stalled ++ [(d.id, h)], wants := [] }

/-- The committed content of the pages goes to the target once it is all here; poison is consumed (R170, R387). -/
def State.sendCheckpointData (s : State) (c : Nat) (x : Ctx) (d : Desc) (b : Bound) (j : StorJob) (r : Except Nat (List Byte × Bool × State)) :
    State :=
  match r with
  | .error st => ((s.complete d.id st 0 b).endHold c d.id).faultCtx c st
  | .ok (bs, po, t) =>
    if !t.wants.isEmpty then s.stallDesc c x d ⟨[], [], 0⟩ t.wants
    else
      let t := t.dropLent x.job
      if po then ((t.complete d.id stPoisoned 0 b).endHold c d.id).faultCtx c stPoisoned else t.issueNvme j bs

/-- The pages of a `CHECKPOINT` are read. -/
def State.sendCheckpoint (s : State) (c : Nat) (x : Ctx) (d : Desc) (b : Bound) : State :=
  let j := transferJob d
  s.sendCheckpointData c x d b j (({ s with wants := [] } : State).readCtx x j.addr j.len 0)

/-- The transfer starts once the context is held: the target, then the pages, are judged, and the command is issued.
An unmapped page, or a fabric page under `RESTORE`, faults the context too (R157, R158; DEDUCED, log entry 22). After a `RESTORE` that
does not end with `OK` the content of its pages is undefined (R387). -/
def State.startTransfer (s : State) (c : Nat) (x : Ctx) (d : Desc) (b : Bound) : State :=
  let j := transferJob d
  let t := if j.read then s.undefine x j.addr j.len else s
  if !s.connected j.target then t.complete d.id stDenied 0 b
  else match (if j.read then x.writeFault j.addr j.len true else x.readFault j.addr j.len) with
    | some st => (t.complete d.id st 0 b).faultCtx c st
    | none =>
      let x := { x with holdDesc := some d.id }
      let s := ((s.setCtx c x).modDesc d.id fun d => { d with phase := .running }).tellHold c
      if j.read then s.issueNvme j [] else s.sendCheckpoint c x d b

/-- A `CHECKPOINT` or `RESTORE` that waits for its hold takes it once no published plan names the context and no other
one holds it. -/
def State.startHold (s : State) (c : Nat) (b : Bound) : State :=
  match s.ctx c with
  | none => s
  | some x =>
    if s.planned x.job || x.holdDesc.isSome || x.state != .active || x.teardown.isSome then s
    else match s.opens.find? fun d =>
        (hOpcode d.words = opCheckpoint || hOpcode d.words = opRestore) && hContext d.words = c &&
          (match d.phase with | .boundary _ => true | _ => false) with
      | none => s
      | some d => s.startTransfer c x d b

/-- Those that can, in acceptance order. -/
def State.startHolds (s : State) (c : Nat) (b : Bound) : State := s.opens.foldl (fun s _ => s.startHold c b) s

/-- The job's descriptor completes and its hold ends. -/
def State.endTransfer (s : State) (j : StorJob) (status result : Nat) : State :=
  ((s.complete j.desc status result .none).endHold j.ctx j.desc).startHolds j.ctx .none

/-- The content of the pages after a `RESTORE` that did not end with `OK` is undefined (R387). -/
def State.undefinePages (s : State) (j : StorJob) : State :=
  match s.ctx j.ctx with
  | none => s
  | some x => s.undefine x j.addr j.len

/-! ## Completions -/

/-- An NVMe command completes with a status field, 0 for success, and for a Read with its data. -/
def execStorageCompletion (id status : Nat) (data : List Byte) (s : State) : Host.Outcome State Fault Refusal :=
  .next <| match s.storJob id with
  | none => s
  | some j =>
    let s := s.dropStor id
    match s.desc? j.desc with
    | none => s
    | some d =>
      let bs := (data ++ List.replicate (j.len - data.length) 0#8).take j.len
      if j.load then
        if status != 0 then s.failLoad d stDenied status else s.loadData d bs
      else if status != 0 then
        (if j.read then s.undefinePages j else s).endTransfer j stDenied status
      else if j.read then
        match s.ctx j.ctx with
        | none => s
        | some x => match s.writeCtx x j.addr bs false true with
          | .ok s => s.endTransfer j stOk 0
          | .error st => ((s.undefinePages j).endTransfer j st 0).faultCtx j.ctx st
      else s.endTransfer j stOk 0

/-- A target does not answer within t_stor_to. -/
def execStorageTimeout (id : Nat) (s : State) : Host.Outcome State Fault Refusal :=
  .next <| match s.storJob id with
  | none => s
  | some j =>
    let s := s.dropStor id
    if j.load then match s.desc? j.desc with
      | some d => s.failLoad d stTimeout 0
      | none => s
    else (if j.read then s.undefinePages j else s).endTransfer j stTimeout 0

/-- The last line of a `LOAD` from host memory has been read and written. -/
def execLoadLastLineWritten (id : Nat) (s : State) : Host.Outcome State Fault Refusal :=
  .next <| match s.desc? id, s.load? id with
  | some d, some l =>
    if l.hostDone || fieldAt d.words 0x10 1 0 != 0 then s else s.loadData d ((bytesOf d.buf).take (hLength d.words))
  | _, _ => s

/-! ## Ethernet (R344 to R347) -/

/-- The setup record is applied: port speeds, then every target in use is connected, with its admin queue and its I/O queues. -/
def State.applySetup (s : State) (r : List Word) : State :=
  let s := (List.range 16).foldl (fun s t => if s.conn t = 2 then s.emit (.disconnect t) else s) s
  let s := { s with eth := { s.eth with setup := r } }
  let s := (List.range 2).foldl (fun s p =>
    s.setReg (oEthStat p) (setFld (s.reg (oEthStat p)) 2 0 (let v := fieldAt r (0x40 * p) 2 0; if v ≤ 4 then v else 0))) s
  (List.range 16).foldl (fun s t =>
    if bit (wordAt r (tgtAt t)) 0 then (s.setConn t 1).emit (.connect t) else s.setConn t 0) s

/-- A link change of an Ethernet port: when it comes up, the targets reached over it are connected and the others of
the port have failed; when it goes down, its targets have failed. -/
def State.ethLink (s : State) (port : Nat) (up : Bool) (targets : List (Fin 16)) : State :=
  (List.range 16).foldl (fun s t =>
    let w := wordAt s.eth.setup (tgtAt t)
    if !bit w 0 || s.tgtPort t != port then s
    else s.setConn t (if up && targets.any (·.val = t) then 2 else 3)) (s.setRegBit (oEthStat port) 3 up)

/-- An Ethernet port can run: its domain is on, and it is clocked (R393, R421). -/
def State.ethRuns (s : State) (port : Nat) : Bool := s.domainOn .ethernet && bit (s.reg oClkEnPkg) port

def execEthernetLinkChange (port : Fin 2) (up : Bool) (targets : List (Fin 16)) (s : State) :
    Host.Outcome State Fault Refusal :=
  .next (s.ethLink port.val (up && s.ethRuns port.val) targets)

/-- A congestion notification lowers the queue pair's rate; by how much is left open (log entry 3). -/
def execCongestionNotification (qp : Fin 1024) (s : State) : Host.Outcome State Fault Refusal :=
  .next <|
    let r := s.free
    let old := peek 100 r.2.eth.rates qp.val
    { r.2 with eth := { r.2.eth with rates := poke 100 r.2.eth.rates qp.val (r.1.toNat % max 1 old) } }

/-- The keep-alive of a connected target is due: it goes out in the turn of the target's admin queue. -/
def execKeepAlive (target : Fin 16) (s : State) : Host.Outcome State Fault Refusal :=
  .next (if s.connected target.val then { s with eth := { s.eth with alive := addKey target.val s.eth.alive } }.runStor else s)

/-- The length of a pause in ns: IEEE 802.1Qbb counts in quanta of 512 bit times, at the speed in use (R344). -/
def State.pauseNs (s : State) (port quanta : Nat) : Nat :=
  cdiv (512 * quanta) (200 * 2 ^ (fld (s.reg (oEthStat port)) 2 0 - 1))

/-- A priority flow control frame pauses RoCE traffic on its priority for its quanta, 0 ending the pause. Only the
priority that the setup record names is honoured. -/
def execPriorityFlowControl (port : Fin 2) (priority : Fin 8) (quanta : Nat) (s : State) : Host.Outcome State Fault Refusal :=
  .next <|
    let mine := fieldAt s.eth.setup (0x40 * port.val) 6 4
    if mine != priority.val then s
    else
      let l := s.eth.paused.filter fun e => !(e.1 = port.val && e.2.1 = priority.val)
      let l := if quanta = 0 then l else l ++ [(port.val, priority.val, s.time + s.pauseNs port.val quanta)]
      ({ s with eth := { s.eth with paused := l } } : State).runStor

end Sys2Proof.Machine
end

