-- ==== Sys2Proof/Machine/Bodies.lean ====
section
/-! DEFINITION. The bodies of accepted descriptors that read context memory, and how they wait for the lines of lenders (R155, R170,
R205, R251, R253, R280, R297, R334, R375, R389). -/

namespace Sys2Proof.Machine

/-! ## Waiting for a boundary (R251, R253) -/

/-- The descriptor waits for the boundary of R253, with a buffer copied at acceptance and its poison. -/
def State.awaitWith (s : State) (d : Desc) (buf : List Word) (poison : Bool) : State :=
  s.modDesc d.id fun d => { d with phase := .boundary s.sealSent, buf := buf, bufPo := poison }

def State.await (s : State) (d : Desc) (buf : List Word) : State := s.awaitWith d buf false

/-! ## Bodies -/

/-- Descriptors that name an open sequence and no buffer (R244). -/
def State.takeHomed (s : State) (d : Desc) : State :=
  if s.isHome (hObject d.words) then s.await d [] else s.complete d.id stDenied 0 .none

/-- `JIG_LOAD` is validated at acceptance and installed at its boundary (R139 to R141). -/
def State.takeJig (s : State) (d : Desc) (c : Nat) (x : Ctx) : State :=
  let ws := d.words
  match s.readCtx x (addr48 ws 0x10 0x14) (hLength ws) 0 with
  | .error st => if x.jigRefused ws then s.complete d.id stDenied 0 .none else (s.complete d.id st 0 .none).faultCtx c st
  | .ok (bs, po, s) =>
    match imageFault s x ws bs with
    | some 0x40 => s.complete d.id (if x.jigRefused ws then stDenied else stBad) (if x.jigRefused ws then 0 else 0x40) .none
    | some r => s.complete d.id stBad r .none
    | none =>
      if x.jigRefused ws then s.complete d.id stDenied 0 .none
      else if po then (s.complete d.id stPoisoned 0 .none).faultCtx c stPoisoned
      else s.await d (wordsOf bs)

/-- `SEQ_PARAMS`: bias entries and automaton header are read and judged here (R280). Poison in them is consumed by the draws that they
reach (R170). -/
def State.takeParams (s : State) (d : Desc) (x : Ctx) : State :=
  let ws := d.words
  if !s.isHome (hObject ws) then s.complete d.id stDenied 0 .none
  else if fieldAt ws 0x10 1 0 = 0 then s.await d []
  else
    let b := s.readCtx x (addr48 ws 0x14 0x18) (8 * fieldAt ws 0x10 26 16) 0
    let auto := fieldAt ws 0x10 3 2 = 2
    let ba : Bool := match b with | .ok (bs, _, _) => (biasPairs (wordsOf bs)).any fun e => !finite32 e.2 | .error _ => false
    let s1 := match b with | .ok (_, _, s) => s | .error _ => s
    let a := if auto then s1.readCtx x (addr48 ws 0x1C 0x20) 16 0 else .ok ([], false, s1)
    let aa : Bool := match a with
      | .ok (bs, _, _) => auto && imgFld bs 4 20 0 != Config.vocab x.job
      | .error _ => false
    if ba || aa then s1.complete d.id stBad 0x40 .none
    else match b, a with
      | .ok (bs, po, _), .ok (_, pa, s) => s.awaitWith d (wordsOf bs) (po || pa)
      | _, _ => s1.complete d.id stPage 0 .none

/-- `PAGE_MAP`: the list of a map of held pages is read here (R204, R205). Poison in it would reach a page table (R170; DEDUCED, log
entry 14). -/
def State.takeMap (s : State) (d : Desc) (x : Ctx) : State :=
  let ws := d.words
  if fieldAt ws 0x14 1 0 = 0 then s.takeHomed d
  else
    let n := (s.mapNeed x (hObject ws) (fieldAt ws 0x18 15 0) (fieldAt ws 0x18 31 16)).length * x.perPage
    match s.readCtx x (addr48 ws 0x20 0x24) (4 * n) 0 with
    | .error st => s.complete d.id st 0 .none
    | .ok (bs, po, s) =>
      if po then (s.complete d.id stPoisoned 0 .none).faultCtx (hContext ws) stPoisoned else s.await d (wordsOf bs)

def diagMax (ws : List Word) : Nat := (wordAt ws 0x18).toNat

/-- TABLE_READ: entries of the table that this member keeps; none for a sequence it knows no table of (log entry 33). -/
def State.diagTable (s : State) (d : Desc) (c : Nat) (x : Ctx) : State :=
  match x.table? (wordAt d.words 0x1C).toNat with
  | none => s.complete d.id stOk 0 .none
  | some t =>
    let first := (wordAt d.words 0x20).toNat
    let n := min (t.pages * x.perPage - first) (diagMax d.words / 8)
    if n = 0 then s.complete d.id stOk 0 .none
    else match s.readCtx x (t.base + 8 * first) (8 * n) 0 with
      | .error st => (s.complete d.id st 0 .none).faultCtx c st
      | .ok (bs, po, s) =>
        if po then (s.complete d.id stPoisoned 0 .none).faultCtx c stPoisoned
        else (s.emit (.hostWrite d.port (addrAt d.words 0x10 0x14) bs)).complete d.id stOk n .none

/-! ## Reading -/

/-- The body of a descriptor that reads context memory. -/
def State.readBody (s : State) (d : Desc) (c : Nat) (x : Ctx) (h : HostView) : State :=
  let op := hOpcode d.words
  if op = opLoad then s.startLoad d x h
  else if op = opJigLoad then s.takeJig d c x
  else if op = opSeqParams then s.takeParams d x
  else if op = opPageMap then s.takeMap d x
  else if op = opCheckpoint then s.sendCheckpoint c x d .none
  else s.diagTable d c x

/-- The body runs once every line that it reads from lenders is here; until then nothing of it has happened (R155, R389). -/
def State.takeReading (s : State) (d : Desc) (c : Nat) (x : Ctx) (h : HostView) : State :=
  let t := ({ s with wants := [] } : State).readBody d c x h
  if t.wants.isEmpty then t.dropLent x.job else s.stallDesc c x d h t.wants

/-- Lines that a descriptor asked for are still under way. -/
def State.fetching (s : State) (id : Nat) : Bool := s.outst.any fun o => match o.purpose with | .fetch d _ _ => decide (d = id) | _ => false

/-- A line of a lender is here for a descriptor, with its poison; the last one lets the body run. -/
def State.fetchLanded (s : State) (id job line : Nat) (bytes : List Byte) (poison : Bool) : State :=
  let s : State := { s with lent := (s.lent.filter fun e => !(e.1 = job && e.2.1 = line)) ++ [(job, line, bytes, poison)] }
  if s.fetching id then s
  else match s.stalled.find? fun q => q.1 = id with
    | none => s
    | some q =>
      let s := { s with stalled := s.stalled.filter fun q => q.1 != id }
      match s.desc? id with
      | none => s
      | some d => match s.ctx (hContext d.words) with
        | none => s
        | some x => s.takeReading d (hContext d.words) x q.2

/-- A lender does not give a line that a descriptor reads: the descriptor completes with the status, and where the lender refused its
context faults with it (R320, R327). -/
def State.fetchFailed (s : State) (id status : Nat) (refused : Bool) : State :=
  match s.stalled.find? fun q => q.1 = id with
  | none => s
  | some _ =>
    let s := { s with stalled := s.stalled.filter fun q => q.1 != id }
    match s.desc? id with
    | none => s
    | some d =>
      let c := hContext d.words
      let s := if hOpcode d.words = opLoad then s.failLoad d status 0 else s.complete id status 0 .none
      if refused then (s.endHold c id).faultCtx c status else s.endHold c id

end Sys2Proof.Machine
end

