-- ==== Sys2Proof/Machine/Mirror.lean ====
section
/-! DEFINITION. Book-match mode: what a member mirrors to its buddy, and how a standby takes it back (R371, R373; log entry 33). -/

namespace Sys2Proof.Machine

/-! ## The record of a home (R371, R372)

The manual names no layout for the record of a sequence. Here it is a list of groups of numbers, each number in 16 bytes and each group
behind its length (DESIGN CHOICE, log entry 33). -/

def flag (b : Bool) : Nat := if b then 1 else 0

def optNums : Option Nat → List Nat
  | none => []
  | some n => [n]

def pairNums (l : List (Nat × Nat)) : List Nat := l.flatMap fun e => [e.1, e.2]

def numPairs : List Nat → List (Nat × Nat)
  | a :: b :: l => (a, b) :: numPairs l
  | _ => []

def stateCode : SeqState → Nat
  | .prefill => 0
  | .decode => 1
  | .ready => 2
  | .shipping => 3
  | .receiving => 4

def codeState : Nat → SeqState
  | 0 => .prefill
  | 1 => .decode
  | 3 => .shipping
  | 4 => .receiving
  | _ => .ready

/-- The parameters of a sequence as groups. -/
def paramGroups (d : DrawParams) (k : ConParams) : List (List Nat) :=
  [[d.topK, d.treeMax, flag d.scopeAll, d.temp.toNat, d.topP.toNat, d.minP.toNat, d.repPen.toNat, d.presPen.toNat, d.freqPen.toNat, d.seed],
   [k.constraint, k.conAddr, k.startState, flag k.poison], pairNums (k.biases.map fun e => (e.1, e.2.toNat)), k.theta.map (·.toNat)]

/-- A number of a group. -/
def numAt (gs : List (List Nat)) (i j : Nat) : Nat := (gs.getD i []).getD j 0
def bitAt (gs : List (List Nat)) (i j : Nat) : Bool := numAt gs i j = 1

def paramsOf (gs : List (List Nat)) : DrawParams × ConParams :=
  let w (j : Nat) : Word := BitVec.ofNat 32 (numAt gs 0 j)
  (⟨numAt gs 0 0, numAt gs 0 1, bitAt gs 0 2, w 3, w 4, w 5, w 6, w 7, w 8, numAt gs 0 9⟩,
   ⟨numAt gs 1 0, (numPairs (gs.getD 2 [])).map fun e => (e.1, BitVec.ofNat 32 e.2), numAt gs 1 1, numAt gs 1 2,
    (gs.getD 3 []).map (BitVec.ofNat 32), bitAt gs 1 3⟩)

def Seq.groups (q : Seq) : List (List Nat) :=
  [[q.handle, stateCode q.state, q.committed, flag q.rootPublished, q.maxLen, q.cls, q.quota, q.prefixGroup, q.prefixLen, q.maxNew,
    q.published, flag q.autoClose, flag q.paramsFollow, q.auto, flag q.candsPo, q.order, flag q.mapping, q.closedIn],
   q.queue, q.stops, optNums q.gen, optNums q.pre, optNums q.closing, pairNums q.roots, q.left, q.kept,
   q.pen.flatMap fun e => [e.token, e.all, e.gen], q.cands.map (·.length), q.cands.flatten] ++ paramGroups q.draw q.con

def penOf : List Nat → List PenEntry
  | a :: b :: c :: l => ⟨a, b, c⟩ :: penOf l
  | _ => []

/-- A list cut at lengths. -/
def cutAt : List Nat → List Nat → List (List Nat)
  | [], _ => []
  | n :: ns, l => l.take n :: cutAt ns (l.drop n)

def Seq.ofGroups (gs : List (List Nat)) : Seq :=
  let n (j : Nat) : Nat := numAt gs 0 j
  let b (j : Nat) : Bool := bitAt gs 0 j
  let g (i : Nat) : List Nat := gs.getD i []
  let p := paramsOf (gs.drop 12)
  { handle := n 0, state := codeState (n 1), committed := n 2, queue := g 1, rootPublished := b 3, maxLen := n 4, cls := n 5, stops := g 2,
    quota := n 6, prefixGroup := n 7, prefixLen := n 8, gen := (g 3).head?, pre := (g 4).head?, maxNew := n 9, published := n 10,
    autoClose := b 11, paramsFollow := b 12, draw := p.1, con := p.2, auto := n 13, pen := penOf (g 9), cands := cutAt (g 10) (g 11),
    candsPo := b 14, order := n 15, mapping := b 16, closing := (g 5).head?, closedIn := n 17, roots := numPairs (g 6), left := g 7,
    kept := g 8 }

def Table.groups (t : Table) : List (List Nat) :=
  [t.handle, t.home, t.base, t.pages, t.committed, t.resv, flag t.waiting, t.closing, flag t.running] :: paramGroups t.draw t.con

def Table.ofGroups (gs : List (List Nat)) : Table :=
  let p := paramsOf (gs.drop 1)
  ⟨numAt gs 0 0, numAt gs 0 1, numAt gs 0 2, numAt gs 0 3, numAt gs 0 4, numAt gs 0 5, bitAt gs 0 6, numAt gs 0 7, bitAt gs 0 8, p.1, p.2⟩

def seqSize : Nat := 16
def tableSize : Nat := 5

/-- The records of a context: its sequences and tables. -/
def Ctx.recordNums (x : Ctx) : List Nat :=
  ([x.seqs.length, x.tables.length, x.step] :: x.seqs.flatMap Seq.groups ++ x.tables.flatMap Table.groups).flatMap fun g => g.length :: g

/-- Groups behind their lengths. -/
def groupsOf : Nat → List Nat → List (List Nat)
  | 0, _ => []
  | _, [] => []
  | n + 1, k :: l => l.take k :: groupsOf n (l.drop k)

/-- A context with the records that numbers hold. -/
def Ctx.withRecords (x : Ctx) (ns : List Nat) : Ctx :=
  let gs := groupsOf ns.length ns
  let m := numAt gs 0 0
  let k := numAt gs 0 1
  { x with
    seqs := (List.range m).map fun i => .ofGroups (window (1 + seqSize * i) seqSize gs)
    tables := (List.range k).map fun i => .ofGroups (window (1 + seqSize * m + tableSize * i) tableSize gs)
    step := numAt gs 0 2 }

/-- The lines of a context's records. -/
def Ctx.recordBytes (x : Ctx) : List Byte :=
  let bs := x.recordNums.flatMap (leBytes 16)
  let n := 128 * Config.recordLines x.job
  (bs ++ List.replicate (n - bs.length) 0#8).take n

/-! ## The buddy (R371) -/

/-- The node that mirrors this member: index (i + ⌈P/2⌉) mod P. -/
def State.buddyNode (s : State) : Nat := (s.members[(s.me + cdiv s.members.length 2) % max 1 s.members.length]?).getD 0xFFF

/-- Where the buddy keeps a context address: pool page p at pool page POOL_PAGES/2 + p, the table area where the model's constant says. -/
def Ctx.mirrorAt (x : Ctx) (a : Nat) : Nat :=
  if x.poolBase ≤ a && a < x.poolBase + x.usablePool * x.pageSize then a + x.usablePool * x.pageSize else Config.mirrorPlace x.job a

/-- The lines that are mirrored: the pages that sequences use, and the table area with its descriptors and tables. -/
def Ctx.mirrored (x : Ctx) : List Nat :=
  let span (a n : Nat) : List Nat := if n = 0 then [] else (List.range (cdiv (a % 128 + n) 128)).map (a / 128 + ·)
  span x.poolBase (x.usablePool * x.pageSize) ++
    span x.tableBase (x.tables.foldl (fun n t => max n (t.penBase x + penBytes)) x.tableEnd - x.tableBase)

/-- A line with its poison as it stands. -/
def State.lineNow (s : State) (x : Ctx) (l : Nat) : List Byte × Bool :=
  let e := x.page (pageOf (128 * l))
  (s.peekCtx x (128 * l) 128, entryHbm e && s.hbmPoison.contains (lineKey (lineOf e (128 * l)).1 (lineOf e (128 * l)).2))

/-- A context is mirrored while its buddy serves. -/
def State.mirrors (s : State) (x : Ctx) : Bool :=
  x.bookMatch && x.poolPages != 0 && s.buddyNode != s.node && s.inService.contains s.buddyNode

/-- Lines of a context, and lines of its records, are written to the buddy. -/
def State.mirrorOut (s : State) (c : Nat) (x : Ctx) (ls rs : List Nat) : State :=
  let s := ls.foldl (fun s l =>
    let r := s.lineNow x l
    s.sendRequest c x.job s.buddyNode (x.mirrorAt (128 * l)) (.write r.1) r.2 (.mirror c)) s
  rs.foldl (fun s i =>
    s.sendRequest c x.job s.buddyNode (Config.recordPlace x.job + 128 * i) (.write (window (128 * i) 128 x.recordBytes)) false (.mirror c)) s

/-- What has changed in a context since `old` goes to the buddy. -/
def State.mirrorCtx (old s : State) (c : Nat) : State :=
  match s.ctx c with
  | none => s
  | some x =>
    if !s.mirrors x then s
    else match old.ctx c with
      | none => s
      | some y => s.mirrorOut c x (x.mirrored.filter fun l => !decide (old.lineNow y l = s.lineNow x l))
          ((List.range (Config.recordLines x.job)).filter fun i => window (128 * i) 128 y.recordBytes != window (128 * i) 128 x.recordBytes)

/-- What has changed in every context goes to the buddies. -/
def State.mirrorAll (old s : State) : State := s.ctxs.foldl (fun s cx => State.mirrorCtx old s cx.1) s

/-- A buddy that was lost is back: everything is written to it again (R373). -/
def State.mirrorAgain (s : State) (back : List Nat) : State :=
  s.ctxs.foldl (fun s cx =>
    if s.mirrors cx.2 && back.contains s.buddyNode then
      s.mirrorOut cx.1 cx.2 cx.2.mirrored (List.range (Config.recordLines cx.2.job))
    else s) s

/-! ## JOIN (R373) -/

/-- The package can join: the partition is DEGRADED as seen here, or this is a standby, which has run no step since its reset
(DEDUCED, log entry 33). -/
def State.mayJoin (s : State) : Bool := s.degraded || (s.attempt.isNone && s.lastJob = 0)

/-- READs of lines from one on at the buddy, 64 at a time. -/
def State.joinReads (s : State) (c job : Nat) (lines at_ : Nat) (why : Nat → Purpose) : State :=
  (List.range (cdiv lines 64)).foldl (fun s i =>
    s.sendRequest c job s.buddyNode (at_ + 8192 * i) (.read (min 64 (lines - 64 * i))) false (why (64 * i))) s

/-- The lines that a JOIN reads of context memory: consecutive ones of one area at a time. -/
def State.joinMemory (s : State) (c id : Nat) (x : Ctx) : State :=
  x.mirrored.foldl (fun s l => s.sendRequest c x.job s.buddyNode (x.mirrorAt (128 * l)) (.read 1) false (.joinMem id (128 * l))) s

/-- A JOIN waits for no line any more. -/
def State.joining (s : State) (id : Nat) : Bool :=
  s.outst.any fun o => match o.purpose with | .joinRecord d _ => decide (d = id) | .joinMem d _ => decide (d = id) | _ => false

/-- Every line is here: the JOIN completes with the pages copied. -/
def State.joinDone (s : State) (id pages : Nat) : State :=
  if s.joining id then s else ({ s with joins := s.joins.filter fun j => j.desc != id } : State).complete id stOk pages .none

/-- The records are here: the context takes them, and its memory follows. -/
def State.joinRecords (s : State) (j : Join) : State :=
  if s.joining j.desc then s
  else match s.ctx j.ctx with
    | none => s
    | some x =>
      let bs := (List.range (Config.recordLines x.job)).flatMap fun i => (assoc i j.lines).getD (List.replicate 128 0#8)
      let y := if bs.isEmpty then x else x.withRecords ((chunks 16 bs).map leNat)
      ((s.setCtx j.ctx y).joinMemory j.ctx j.desc y).joinDone j.desc y.usablePool

/-- JOIN. A context that is not in book-match mode has no mirror: nothing is copied (DEDUCED, log entry 33). -/
def State.diagJoin (s : State) (d : Desc) (c : Nat) (x : Ctx) : State :=
  if !s.mayJoin then s.complete d.id stDenied 0 .none
  else if !s.mirrors x then s.complete d.id stOk 0 .none
  else
    let j : Join := ⟨d.id, c, []⟩
    (({ s with joins := s.joins ++ [j] } : State).joinReads c x.job (Config.recordLines x.job) (Config.recordPlace x.job)
      (.joinRecord d.id)).joinRecords j

/-- Lines of the records have come. -/
def State.joinRecordLanded (s : State) (id line : Nat) (bytes : List Byte) : State :=
  match s.joins.find? fun j => j.desc = id with
  | none => s
  | some j =>
    let k := { j with lines := (indexed (chunks 128 bytes)).foldl (fun l ib => enlist (line + ib.1) ib.2 l) j.lines }
    ({ s with joins := s.joins.map fun i => if i.desc = id then k else i } : State).joinRecords k

/-- A line of context memory has come, with its poison (R169). -/
def State.joinMemLanded (s : State) (id addr : Nat) (bytes : List Byte) (poison : Bool) : State :=
  match s.joins.find? fun j => j.desc = id with
  | none => s
  | some j => match s.ctx j.ctx with
    | none => s
    | some x => (s.pokeData x addr (bytes.take 128) poison).joinDone id x.usablePool

/-- The buddy does not give its mirror: the JOIN completes with the status, and where the buddy refused its context faults with it. -/
def State.joinFailed (s : State) (id status : Nat) (refused : Bool) : State :=
  match s.joins.find? fun j => j.desc = id with
  | none => s
  | some j =>
    let s := ({ s with joins := s.joins.filter fun j => j.desc != id } : State).complete id status 0 .none
    if refused then s.faultCtx j.ctx status else s

end Sys2Proof.Machine
end

