-- ==== Sys2Proof/Machine/StepMem.lean ====
section
/-! DEFINITION. Context memory as the step in flight sees it: its tentative writes lie over the committed lines until
commit (R25, R26, R155 to R159, R167, R169). -/

namespace Sys2Proof.Machine

/-- The bytes of a line that a step has written. -/
def Attempt.lineWrites (a : Attempt) (l : Nat) : List (Option Byte) := (List.range 128).map fun i => assoc (128 * l + i) a.writes

/-- A step has written the whole of a line: what stood there before no longer counts. -/
def Attempt.fullLine (a : Attempt) (l : Nat) : Bool := (a.lineWrites l).all (·.isSome)

/-- A line with the bytes written into it (R167). -/
def mixLine (ws : List (Option Byte)) (base : List Byte) : List Byte := (ws.zip base).map fun p => p.1.getD p.2

/-- What the step of context `c` has written into line `l`, with the poison that came with it. -/
def State.overlay (s : State) (c l : Nat) : Option (List (Option Byte) × Bool) :=
  match s.attempt with
  | none => none
  | some a => if a.ctx = c && a.writes.any fun w => w.1 / 128 = l then some (a.lineWrites l, a.wpoison.contains l) else none

/-- Line `l` as it stands committed. One on a fabric-tier page is the line that the lender sent for this attempt; until
then it is wanted (R181), and what the reader makes of it is discarded. -/
def State.baseLine (s : State) (c : Nat) (x : Ctx) (l source : Nat) : List Byte × Bool × State :=
  if entryFabric (x.page (pageOf (128 * l))) && s.stepOf c then
    match s.attempt.bind fun a => assoc l a.lent with
    | some r => (r.1, r.2, s)
    | none => (List.replicate 128 0#8, false, s.modAttempt fun a => { a with wants := addKey l a.wants })
  else s.readAt x (128 * l) source

/-- Line `l` of context memory for the step: the step's own bytes over the line as it stands, with the poison of both (R167, R169). -/
def State.stepLine (s : State) (c : Nat) (x : Ctx) (l source : Nat) : List Byte × Bool × State :=
  match s.overlay c l with
  | some w =>
    if w.1.all (·.isSome) then (mixLine w.1 (List.replicate 128 0#8), w.2, s)
    else
      let r := s.baseLine c x l source
      (mixLine w.1 r.1, r.2.1 || w.2, r.2.2)
  | none => s.baseLine c x l source

def stepLines (c : Nat) (x : Ctx) (source : Nat) : Nat → Nat → State → List Byte × Bool × State
  | 0, _, s => ([], false, s)
  | n + 1, l, s =>
    let r := s.stepLine c x l source
    let q := stepLines c x source n (l + 1) r.2.2
    (r.1 ++ q.1, r.2.1 || q.2.1, q.2.2)

/-- A read of `n` bytes by the step: a status, or the bytes with their poison and the state after it. -/
def State.stepRead (s : State) (c : Nat) (x : Ctx) (a n : Nat) : Except Nat (List Byte × Bool × State) :=
  if n = 0 then .ok ([], false, s)
  else match x.readFault a n with
    | some st => .error st
    | none =>
      let r := stepLines c x 0 ((a + n - 1) / 128 + 1 - a / 128) (a / 128) s
      .ok (window (a % 128) n r.1, r.2.1, r.2.2)

/-- Bytes into the tentative writes from key `k` on. -/
def listBytes (m : List (Nat × Byte)) (k : Nat) : List Byte → List (Nat × Byte)
  | [] => m
  | b :: bs => listBytes (enlist k b m) (k + 1) bs

/-- One tentative line: a full-line write takes the data's poison, and a part keeps the line's (R169). A part is merged with the line as
it stands when the step commits, so that no write that came in between is lost (R167); the read that goes with it is made here too. -/
def State.stepPutLine (s : State) (c : Nat) (x : Ctx) (l off : Nat) (bs : List Byte) (poison : Bool) : State :=
  let full : Bool := off = 0 && bs.length = 128
  let s := if full then s else (s.stepLine c x l 2).2.2
  s.modAttempt fun a => { a with
    writes := listBytes a.writes (128 * l + off) bs
    wpoison := if poison then addKey l a.wpoison else if full then a.wpoison.filter (· != l) else a.wpoison }

def stepPut (c : Nat) (x : Ctx) (poison : Bool) : Nat → Nat → List Byte → State → State
  | 0, _, _, s => s
  | n + 1, a, bs, s =>
    let k := min bs.length (128 - a % 128)
    stepPut c x poison n (a + k) (bs.drop k) (s.stepPutLine c x (a / 128) (a % 128) (bs.take k) poison)

/-- A tentative write by the step: a status, or the state after it. -/
def State.stepWrite (s : State) (c : Nat) (x : Ctx) (a : Nat) (bs : List Byte) (poison : Bool) : Except Nat State :=
  if bs.isEmpty then .ok s
  else match x.writeFault a bs.length false with
    | some st => .error st
    | none => .ok (stepPut c x poison (cdiv (a % 128 + bs.length) 128) a bs s)

end Sys2Proof.Machine
end

