-- ==== Sys2Proof/Machine/Boundary.lean ====
section
/-! DEFINITION. Step boundaries: the page manager's list, what homes do, reports and seals, commits and retractions
(R25 to R29, R57, R141, R149, R196 to R206, R242, R251 to R261, R265, R337, R338, R351 to R365, R374, R379 to R384). -/

namespace Sys2Proof.Machine

/-- A boundary: the context whose step forms it, that step, whether it committed, what completions carry, the rows of its plan,
the layer records that the step loaded (R210), and the slots of tree nodes that other members sent with their seals (R202). -/
structure Edge where
  ctx : Option Nat
  step : Nat
  commit : Bool
  b : Bound
  rows : List LenRow
  layers : List LayerRec
  slots : List SlotMsg
  deriving DecidableEq, Repr

/-- The boundary of an idle context (R251). -/
def Edge.idle : Edge := ⟨none, 0, true, .none, [], [], []⟩

/-- QSTEP for a context's releases at this boundary (R201). -/
def Edge.qstep (e : Edge) (c last : Nat) : Nat :=
  if e.ctx = some c then qstepOf (if e.commit then some e.step else none) (some e.step) last else qstepOf none none last

/-! ## Item 1: commit effects on page tables (R202) -/

/-- Where the parts of slot `t` lie in a page, with their sizes (R191). -/
def slotParts (f : Fmt) (t : Nat) : List (Nat × Nat) :=
  if f.is8 then [(128 * t, 128), (32768 + 4 * t, 4), (33792 + 128 * t, 128), (66560 + 4 * t, 4)]
  else [(64 * t, 64), (16384 + 4 * t, 4), (17408 + 64 * t, 64), (33792 + 4 * t, 4)]

/-- A slot is copied to a lower one, in every layer and head group (R202). A slot of another member's page is what that member sent with
its seal. -/
def State.copySlot (s : State) (c handle src dst : Nat) (slots : List SlotMsg) : State :=
  match s.ctx c with
  | none => s
  | some x => match x.table? handle with
    | none => s
    | some t =>
      if !s.holds x handle (dst / 256) then s
      else
        let u (slot : Nat) : Nat := localIndex x.runLog2 s.members.length (slot / 256)
        let here := s.holds x handle (src / 256)
        let sent := ((slots.find? fun m => m.handle = handle && m.slot = src).map (·.parts)).getD []
        (indexed x.planes).foldl (fun s ip =>
          let ed := s.ptEntry x t (u dst) ip.2.1 ip.2.2
          let es := s.ptEntry x t (u src) ip.2.1 ip.2.2
          (indexed ((slotParts x.kvFmt (src % 256)).zip (slotParts x.kvFmt (dst % 256)))).foldl (fun s kp =>
            let a := x.pageAddr ed.page + kp.2.2.1
            if here then
              match s.managerRead c x (x.pageAddr es.page + kp.2.1.1) kp.2.1.2 with
              | .error st => s.tableFault x st
              | .ok (bs, po, s) => s.pokeData x a bs po
            else match (sent.getD ip.1 [])[kp.1]? with
              | some r => s.pokeData x a r.1 r.2
              | none => s) s) s

/-- The slots of tree nodes that this member's share wrote, where the place that R202 would move them to lies on another member. -/
def State.slotsOf (s : State) (a : Attempt) : List SlotMsg :=
  match s.ctx a.ctx with
  | none => []
  | some x => (a.plan.rows.filter (·.kind = .decode)).flatMap fun r => match x.table? r.handle with
    | none => []
    | some t => (List.range r.nodes).filterMap fun i =>
        let src := r.committed + i + 1
        let dst := r.committed + r.depth (i + 1)
        if src = dst || !s.holds x r.handle (src / 256) || s.holds x r.handle (dst / 256) then none
        else some ⟨r.handle, src, x.planes.map fun lh =>
          let e := s.ptEntry x t (localIndex x.runLog2 s.members.length (src / 256)) lh.1 lh.2
          (slotParts x.kvFmt (src % 256)).map fun p => match s.stepRead a.ctx x (x.pageAddr e.page + p.1) p.2 with
            | .ok r => (r.1, r.2.1)
            | .error _ => ([], false)⟩

/-- Accepted nodes move down in ascending depth, and the length advances. -/
def State.advance (s : State) (c handle accepted committed : Nat) (path : List Nat) (slots : List SlotMsg) : State :=
  let c0 := committed - accepted - 1
  let s := (List.range path.length).foldl (fun s i =>
    let k := path.getD i 0
    if k = i + 1 then s else s.copySlot c handle (c0 + k) (c0 + i + 1) slots) s
  s.modCtx c fun x => match x.table? handle with
    | none => x
    | some t => x.setTable { t with committed := committed }

/-! ## Edits on this member -/

/-- A sequence of another home gets its table; one that was closed before gives its table up first. -/
def State.editOpen (s : State) (c : Nat) (before : List Edit) (handle home maxLen qstep : Nat) : State :=
  let closed := before.any fun e => match e with | .close h _ => h = handle | _ => false
  let s := if closed && home != s.node then s.closeTable c handle qstep else s
  match (s.ctx c).bind fun x => x.table? handle with
  | some _ => s
  | none => s.openTable c handle home maxLen

/-- A member's copy of a sequence's parameters (R280). -/
def State.editParams (s : State) (c handle : Nat) (draw : DrawParams) (con : ConParams) : State :=
  s.modCtx c fun x => match x.table? handle with
    | none => x
    | some t => x.setTable { t with draw := draw, con := con }

def State.markClosing (s : State) (c handle k : Nat) : State :=
  s.modCtx c fun x =>
    match x.table? handle with
    | none => x
    | some t => { x.setTable { t with closing := max t.closing k } with copies := x.copies.map fun k =>
        if k.handle = handle then { k with abandoned := true } else k }

def State.cutTable (s : State) (c handle len : Nat) : State :=
  s.modCtx c fun x => match x.table? handle with
    | none => x
    | some t => x.setTable { t with committed := min t.committed len }

/-- Item 3 of one edit. -/
def State.editRelease (s : State) (c qstep : Nat) (after : List Edit) : Edit → State
  | .unmap h first => (s.releaseFrom c h first qstep).cutTable c h (256 * first)
  | .setLen h n => (s.releaseFrom c h (cdiv n 256) qstep).cutTable c h n
  | .close h _ =>
    if after.any fun e => match e with | .openSeq g _ _ => g = h | _ => false then s else s.markClosing c h 1
  | _ => s

/-- A sequence is in no published plan and in no step in flight (R255). -/
def State.inPlan (s : State) (job handle : Nat) : Bool := (s.flightRow job handle).isSome

/-- A closed sequence leaves: its table is released, what this member kept of its ship goes, its handle is free, and the descriptor that
waits completes. -/
def State.releaseSeq (s : State) (c handle qstep : Nat) (b : Bound) : State :=
  match s.ctx c with
  | none => s
  | some x =>
    let s := match x.table? handle with
      | none => s
      | some t => if t.closing = 2 then s.dropTable c handle qstep else s.closeTable c handle qstep
    let s := { s with ships := s.ships.filter fun h => !(h.out && h.desc = 0 && h.ctx = c && h.name.srcHandle = handle) }
    match x.seq? handle with
    | none => s
    | some q =>
      let s := { s.modCtx c (fun x => x.dropSeq handle) with
        past := s.past.filter fun p => !(p.ctx = c && p.handle = handle) }
      match q.closing with
      | some id => if id = 0 then s else s.complete id stOk 0 b
      | none => s

/-- Every closed sequence that no plan includes any more (R255, R261). -/
def State.releaseClosed (s : State) (c qstep : Nat) (b : Bound) : State :=
  match s.ctx c with
  | none => s
  | some x =>
    let hs := distinct (((x.tables.filter (·.closing != 0)).map (·.handle)) ++ (x.seqs.filter (·.closing.isSome)).map (·.handle))
    (hs.filter fun h => !s.inPlan x.job h).foldl (fun s h => s.releaseSeq c h qstep b) s

/-- A `KV_ACCEPT` ends without its ship: its descriptor completes, its sequence closes, its held pages become free at
the next boundary, and the source is told (R266). -/
def State.failAccept (s : State) (n : ShipName) (tell status result : Nat) (b : Bound) : State :=
  match s.ship? n false with
  | none => s
  | some h =>
    let s := s.refuseShip h.ctx n.dstHandle tell
    match s.seq? h.ctx n.dstHandle with
    | none => s
    | some q =>
      let s := match q.gen.orElse fun _ => q.pre with
        | none => s
        | some id => s.complete id status result b
      s.closeSeq h.ctx q 0 false b

/-- Order 4 on this member: the pages of a ship are held, and a member that cannot take them says so. -/
def State.editHold (s : State) (c : Nat) (n : ShipName) (committed run : Nat) (members : List Nat) (b : Bound) : State :=
  let s := if (s.ship? n false).isNone then { s with ships := s.ships ++ [Ship.fresh n c false 0] } else s
  let s := s.modShip n false fun h => { h with committed := committed, run := run, members := members }
  match s.ship? n false with
  | none => s
  | some h => match s.holdShip c h with
    | some s => s
    | none => if n.dstNode = s.node then s.failAccept n stNoPages stNoPages 0 b else (s.dropShip n false).emit (.shipRefused n.dstNode n stNoPages)

/-- Item 4 of one edit. A shipped sequence's pages, and those of a ship that was given up, are looked up among the ships of the
name, ended ones included. -/
def State.editMap (s : State) (c : Nat) (b : Bound) : Edit → State
  | .share dst src first count len => match s.ctx c with
    | none => s
    | some x => if x.mapFits dst src first len then s.sharePages c dst src first count len else s
  | .hold n committed run members => s.editHold c n committed run members b
  | .mapShip n => match s.ship? n false with
    | none => s
    | some h => (s.mapShip c h).dropShip n false
  | .dropShip n =>
    let gone := s.ships.filter fun h => h.name = n && !h.out && (h.ended.isSome || h.desc = 0)
    { gone.foldl (fun s h => s.freeHeld c h) s with
      ships := s.ships.filter fun h => !(h.name = n && (h.desc = 0 || h.ended.isSome)) }
  | _ => s

/-- Item 5 of one edit (R200): the copy of a page that the map of item 4 shared. -/
def State.editCopy (s : State) (c : Nat) : Edit → State
  | .share dst src _ _ len =>
    match s.ctx c with
    | none => s
    | some x => match x.table? dst with
      | none => s
      | some t =>
        let e := s.ptEntry x t (localIndex x.runLog2 s.members.length (len / 256)) 0 0
        if t.committed = len && s.copies x dst src len && e.valid && e.shared && !e.cow then s.startCopy c dst (len / 256) none else s
  | _ => s

/-- Accepted `PAGE_MAP`s of a context that take effect at a boundary, in acceptance order (R198 item 4). -/
def State.mapsDue (s : State) (c : Nat) (e : Edge) : List Desc :=
  if !e.commit then []
  else s.opens.filter fun d => hOpcode d.words = opPageMap && hContext d.words = c &&
    (match d.phase with | .boundary late => !late || e.ctx.isNone | _ => false)

/-- What the page manager could not read or write faults its context (R157, R158, R170; log entry 14). -/
def State.faultTables (s : State) (b : Bound) : State :=
  s.tableFaults.foldl (fun s f => match s.ctxOfJob f.1 with
    | none => s
    | some (c, _) => s.teardown c f.2 b s.node) { s with tableFaults := [] }

/-- The edits before and after each place of a list. -/
def around (es : List Edit) : List (List Edit × Edit × List Edit) :=
  (List.range es.length).filterMap fun i => (es[i]?).map fun e => (es.take i, e, es.drop (i + 1))

/-- Item 1: the tables follow openings, parameters, commits and the release of tentative pages. -/
def State.pageItem1 (s : State) (c q : Nat) (e : Edge) (es : List Edit) : State :=
  let s := (around es).foldl (fun s t => match t.2.1 with
    | .openSeq h home maxLen => s.editOpen c t.1 h home maxLen q
    | .params h draw con => s.editParams c h draw con
    | _ => s) s
  let s := es.foldl (fun s t => match t with
    | .advance h a n path => (s.advance c h a n path e.slots).windowRelease c h q e.layers
    | _ => s) s
  match s.ctx c with
  | none => s
  | some x => if e.ctx = some c then x.tables.foldl (fun s t => s.resolveTentative c t.handle t.committed) s else s

/-- Items 4 and 5: maps, the home's own in acceptance order, and the copies that they start or that still wait for pages. -/
def State.pageMaps (s : State) (c : Nat) (e : Edge) (es : List Edit) : State :=
  let old := s.unsent.length
  let s := es.foldl (fun s t => s.editMap c e.b t) s
  let s := (s.mapsDue c e).foldl (fun s d => match s.ctx c with | some x => s.applyMap c x d e.b | none => s) s
  let s := (es ++ (s.unsent.drop old).map (·.2)).foldl (fun s t => s.editCopy c t) s
  s.feedCopies c

/-- Item 7: the rows of the plan that is published for the context's next step take their pages, and reservations are topped
up. -/
def State.pageItem7 (s : State) (c : Nat) (e : Edge) : State :=
  match s.ctx c with
  | none => s
  | some x =>
    let next := s.plans.filter fun p => p.job = x.job
    let s := ((next.head?.map (·.rows)).getD []).foldl (fun s r =>
      s.allocRow c r (((x.table? r.handle).map (·.committed)).getD r.committed)) s
    s.topUps c (e.rows ++ next.flatMap (·.rows))

/-- The page manager's list of R198 for one context. -/
def State.pageManager (s : State) (c : Nat) (e : Edge) (es : List Edit) : State :=
  match s.ctx c with
  | none => s
  | some x =>
    let q := e.qstep c x.step
    let s := ((s.readTables c x).pageItem1 c q e es).swapCopies c q
    let s := ((around es).foldl (fun s t => s.editRelease c q t.2.2 t.2.1) s).releaseClosed c q e.b
    ((((s.pageMaps c e es).releaseQuarantine c x.step).pageItem7 c e).noteKv c).dropLent x.job

/-- The page manager for every context. -/
def State.pageManagers (s : State) (e : Edge) (es : List (Nat × Edit)) : State :=
  (s.ctxs.foldl (fun s cx => s.pageManager cx.1 e ((es.filter fun t => t.1 = cx.2.job).map (·.2))) s).faultTables e.b

/-! ## Ships at a home (R246, R265, R266) -/

/-- Order 8 and 9: the destination takes over. -/
def State.arriveShip (s : State) (h : Ship) (b : Bound) : State :=
  match s.seq? h.ctx h.name.dstHandle with
  | none => s
  | some q =>
    if q.closing.isSome then s
    else if q.gen.isSome && h.pending.isNone then s.failAccept h.name stDenied stDenied 0 b
    else
      let st := if q.gen.isSome then .decode else .ready
      let q1 := { q with
        committed := h.committed, queue := h.pending.toList, rootPublished := h.published, pen := h.pen, state := st, pre := none }
      let s := (((s.setSeq h.ctx q1).writePen h.ctx q1).edit h.ctx (.mapShip h.name)).emit (.shipAccepted h.name)
      match q.gen, q.pre with
      | some id, _ => s.modDesc id fun d => { d with phase := .running }
      | none, some id => s.complete id stOk 0 b
      | none, none => s

/-- A ship has failed: the source returns to READY, its KV and pending token as they were (R246, R266). -/
def State.endShip (s : State) (h : Ship) (status result : Nat) (b : Bound) : State :=
  let s := match s.seq? h.ctx h.name.srcHandle with
    | none => s
    | some q => s.setSeq h.ctx { q with state := .ready }
  (s.complete h.desc status result b).dropShip h.name true

/-- What a home has heard of its ship takes effect. -/
def State.shipNewsAt (s : State) (h : Ship) (k : ShipNews) (b : Bound) : State :=
  match h.out, k with
  | true, .accepted =>
    (match s.seq? h.ctx h.name.srcHandle with
      | none => s
      | some q => s.closeSeq h.ctx q h.desc false b).dropShip h.name true
  | true, .ends _ status result => s.endShip h status result b
  | false, .offer =>
    (s.edit h.ctx (.hold h.name h.committed h.run h.members)).modShip h.name false fun g => { g with accepted := true }
  | false, .arrived => if h.accepted then s.arriveShip h b else s
  | false, .ends tell status result => s.failAccept h.name tell status result b
  | _, _ => s

/-- What a boundary does for one ship of a home: what was heard in time, and while the context is idle all of it (R251, R253). -/
def State.shipAt (s : State) (h : Ship) (b : Bound) (all : Bool) : State :=
  if h.desc = 0 || h.ended.isSome then s
  else (h.news.filter fun k => all || !k.2).foldl (fun s k => match s.ship? h.name h.out with
      | some g => s.shipNewsAt g k.1 b
      | none => s)
    (s.modShip h.name h.out fun g => { g with news := if all then [] else g.news.filter (·.2) })

def State.shipsAt (s : State) (b : Bound) (only : Nat → Bool) (all : Bool) : State :=
  (s.ships.filter fun h => only h.ctx).foldl (fun s h => s.shipAt h b all) s

/-- What came after the seal is in time for the next boundary. -/
def Ship.early (h : Ship) : Ship := { h with news := h.news.map fun k => (k.1, false) }

/-! ## Descriptors at a boundary (R29, R253) -/

/-- Opcodes that wait for another moment than the boundary of R253. -/
def waitsElsewhere (op : Nat) : Bool :=
  op = opCtxDestroy || op = opCheckpoint || op = opRestore || op = opDiag || op = opFence

/-- An accepted descriptor that takes effect at this boundary. A `JIG_LOAD` waits for a commit of its own context, and
then takes effect whenever it was validated; while its context has no step and no plan it is due at once, but not between a retraction
and the replan (R141). -/
def State.due (s : State) (e : Edge) (d : Desc) : Bool :=
  let c := hContext d.words
  !waitsElsewhere (hOpcode d.words) &&
    if hOpcode d.words = opJigLoad then
      (match d.phase with | .boundary _ => true | _ => false) &&
        (e.ctx = some c || (match s.ctx c with | some x => !s.planned x.job && !s.replansDue.contains x.job | none => true))
    else d.phase = .boundary false

/-- Due descriptors take effect in acceptance order. -/
def State.applyDue (s : State) (e : Edge) : State :=
  (s.opens.filter fun d => s.due e d).foldl (fun s d => match s.desc? d.id with | some d => s.applyDesc d e.b | none => s) s

/-- The first cancel or close of a sequence that acts at this boundary, and whether it discards (R259, R260). -/
def State.cancelOf (s : State) (c handle : Nat) : Option Bool :=
  (s.opens.find? fun d => d.phase = .boundary false && hContext d.words = c && hObject d.words = handle &&
      (hOpcode d.words = opSeqCancel || hOpcode d.words = opSeqClose)).map fun d =>
    hOpcode d.words = opSeqClose || bit (wordAt d.words 0x10) 0

/-- Homed sequences with rows in the step that a cancel or close acts on, by whether it discards. -/
def State.cancelled (s : State) (a : Attempt) (discard : Bool) : List Nat :=
  (a.plan.rows.map (·.handle)).filter fun h => match s.seq? a.ctx h with
    | none => false
    | some q => q.isOpen && (q.state = .decode || q.state = .prefill) && s.cancelOf a.ctx h = some discard

/-! ## `PAGE_MAP` completions (R205) -/

/-- The member that holds the page of a map's last slot, where that page can be copied. -/
def State.copyNode (s : State) (x : Ctx) (dst len : Nat) : Option Nat :=
  if len % 256 = 0 then none else s.members[memberOf x.runLog2 (s.homeIdx dst) s.members.length (len / 256)]?

/-- A map that has been applied, with every copy finished: the last page, where the length ends inside it, is now the destination's own.
`copying` gives the copies that a member has in progress, where it is
known. The pages of a lost member are copied no more. A map whose copy was abandoned before its swap, because the destination closed or
was cut back, completes with OK (DESIGN CHOICE, log entry 15: R200 and R205 give it no status of its own). -/
def State.finishMaps (s : State) (copying : Nat → Option (List (Nat × Nat))) (b : Bound) : State :=
  (s.opens.filter fun d => hOpcode d.words = opPageMap).foldl (fun s d =>
    match s.ctx (hContext d.words) with
    | none => s
    | some x =>
      let dst := hObject d.words
      let ready := match s.copyNode x dst (fieldAt d.words 0x1C 22 0) with
        | none => true
        | some n =>
          if n = s.node then !x.copies.any fun k => k.handle = dst && !k.abandoned
          else !s.inService.contains n || match copying n with | none => false | some l => !l.contains (x.job, dst)
      match d.phase with
      | .waiting =>
        if ready then
          (s.modCtx (hContext d.words) fun x => match x.seq? dst with
            | none => x
            | some q => x.setSeq { q with
                mapping := false, roots := q.roots.filter fun r => fieldAt d.words 0x1C 22 0 % 256 = 0 || r.1 != fieldAt d.words 0x1C 22 0 / 256 }).complete d.id stOk 0 b
        else s
      | .running => s.modDesc d.id fun d => { d with phase := .waiting }
      | _ => s) s

/-- The copies that the members in progress have, by the seals. -/
def sealCopies (seals : List SealMsg) (n : Nat) : Option (List (Nat × Nat)) := (seals.find? fun m => m.node = n).map (·.copying)

/-! ## Commit of the step's own context -/

/-- Tentative writes of context memory become part of it, line by line: a part of a line is merged with the line as it stands (R167,
R169). -/
def State.mergeWrites (s : State) (c : Nat) (a : Attempt) : State :=
  match s.ctx c with
  | none => s
  | some x =>
    (distinct (a.writes.map fun w => w.1 / 128)).foldl (fun s l =>
      let at_ := lineOf (x.page (pageOf (128 * l))) (128 * l)
      let po := a.wpoison.contains l
      if a.fullLine l then s.writeLine at_.1 at_.2 (mixLine (a.lineWrites l) (List.replicate 128 0#8)) po
      else
        let r := s.readLine at_.1 at_.2 2
        r.2.2.writeLine at_.1 at_.2 (mixLine (a.lineWrites l) r.1) (r.2.1 || po)) s

/-- The routing and exit counters (R242). -/
def State.routeCommit (s : State) (c : Nat) (r : RouteEv) : State :=
  let k := oRoute c
  let s := ((s.bump64 k r.unpicked).bump64 (k + 8) r.nullE).bump64 (k + 0x30) r.kvFill
  (List.range 4).foldl (fun s i => s.bump64 (k + 0x10 + 8 * i) (r.exits.getD i 0)) s

/-- The views of a training context are exchanged (R384). -/
def Ctx.exchange (x : Ctx) : Ctx :=
  (List.range x.stateCount).foldl (fun y i =>
    let p := x.stateFirst + i
    let q := x.stateFirst + x.stateCount + i
    (y.setPage p (x.page q)).setPage q (x.page p)) x

/-- Where a context address of the views lies before the exchange that brings it there (R384). -/
def Ctx.beforeExchange (x : Ctx) (a : Nat) : Nat :=
  let g := pageOf a
  if x.stateFirst ≤ g && g < x.stateFirst + x.stateCount then a + x.stateCount * 2 ^ 21
  else if x.stateFirst + x.stateCount ≤ g && g < x.stateFirst + 2 * x.stateCount then a - x.stateCount * 2 ^ 21
  else a

/-- The word at LOSS_ADDR as it will stand after the commit, with its poison, on the lead of a training step; a status where the page
is not mapped (R158, R383). -/
def State.lossWord (s : State) (a : Attempt) : Except Nat (Nat × Bool) :=
  match a.plan.train, s.ctx a.ctx with
  | some (_, body), some x =>
    if !s.isLead then .ok (0, false)
    else match s.stepRead a.ctx x (x.beforeExchange (addr48 body 0x34 0x38)) 4 with
      | .error st => .error st
      | .ok r => .ok (leNat r.1, r.2.1)
  | _, _ => .ok (0, false)

/-- A training step's descriptor completes at the member that submitted it, the oldest of that body there, with the loss word that the
lead's seal gave (R383). -/
def State.trainDone (s : State) (c : Nat) (t : Nat × List Word) (loss : Nat) (b : Bound) : State :=
  if t.1 != s.node then s
  else match s.opens.find? fun d => d.words = t.2 && d.phase = .waiting && hContext d.words = c with
    | none => s
    | some d => s.complete d.id stOk loss b

/-- A sequence whose entry failed closes at its home with `PAGE_TABLE_CHANGED` (R197). -/
def State.failSeq (s : State) (c handle : Nat) (b : Bound) : State :=
  let s := match s.seq? c handle with
    | none => s
    | some q =>
      if !q.isOpen then s
      else
        let s := s.bump (oKvFree c + 12) 15 0 1
        let s := match q.gen, q.pre with
          | some id, _ => s.finishGen c handle id stTable q.published b
          | none, some id => s.complete id stTable 0 b
          | none, none => s
        s.setSeq c { s.leaves c q with closing := some 0, closedIn := b.commit }
  s.markClosing c handle 2

/-- What a commit does for the step's context, when the context survives it, after the token records of its rows. -/
def State.commitCtx (s : State) (a : Attempt) (discards failed : List Nat) (loss : Nat) (b : Bound) : State :=
  let c := a.ctx
  let n := a.plan.step
  let cancels := s.cancelled a false
  let s := s.mergeWrites c a
  let s := s.modCtx c fun x => { (if a.plan.train.isSome then x.exchange else x) with step := n }
  let s := ((s.qstatCommit c n a.events).routeCommit c a.route)
  let s := a.plan.rows.foldl (fun s r => s.commitRow c a discards cancels r b) s
  let s := failed.foldl (fun s h => s.failSeq c h b) s
  match a.plan.train with
  | none => s
  | some t => s.trainDone c t loss b

/-! ## STRICT_COMMIT (R360, R361) -/

def StrictRec.isToken (r : StrictRec) : Bool := match r.what with | .token _ _ => true | .finish _ _ _ => false

def State.releaseStrict (s : State) (r : StrictRec) (b : Bound) : State :=
  match r.what with
  | .token desc t => s.postToken desc { t with commit := b.commit }
  | .finish desc status result => s.complete desc status result ⟨r.step, b.commit⟩

/-- The frames of a strict hold area are freed once it is empty and its bit is clear. -/
def State.freeAreas (s : State) : State :=
  s.strictAreas.foldl (fun s e =>
    if s.strictOn e.1 || s.strict.any (·.ctx = e.1) then s
    else { s.giveFrames e.2 with strictAreas := unlist e.1 s.strictAreas }) s

/-- A record leaves the strict hold area at its release commit, or at the next one after the bit is cleared. -/
def State.strictDue (s : State) (c n : Nat) (r : StrictRec) : Bool :=
  !s.strictOn r.ctx || (r.ctx = c && r.step + s.period ≤ n)

/-- Records of one kind that are due leave, in commit order. -/
def State.strictLeave (s : State) (c n : Nat) (tokens : Bool) (b : Bound) : State :=
  let due (r : StrictRec) : Bool := s.strictDue c n r && r.isToken == tokens
  (s.strict.filter due).foldl (fun s r => s.releaseStrict r b) { s with strict := s.strict.filter fun r => !due r }

/-! ## Seals (R253, R337) -/

/-- Copies whose data has not moved yet, by job and sequence (R205). -/
def State.copying (s : State) : List (Nat × Nat) :=
  s.ctxs.flatMap fun cx => (cx.2.copies.filter fun k => !k.done && !k.abandoned).map fun k => (cx.2.job, k.handle)

/-- Whether a fault entry names a whole context (R352, R159, R170). -/
def wholeFault (f : SealFault) : Bool := f.handle = wholeCtx || f.cause = stPoisoned

/-- Sequences of the step whose effects every member discards (R197, R203, R259). -/
def discardsOf (fs : List SealFault) : List Nat := distinct ((fs.filter fun f => !wholeFault f).map (·.handle))

def failedOf (fs : List SealFault) : List Nat :=
  distinct ((fs.filter fun f => f.handle != wholeCtx && f.cause = stTable).map (·.handle))

/-- What an edit of another home means once this commit's discards are known: an advance, or a close by AUTO_CLOSE at the end of a
generation or prefill of this step, that was discarded does not happen. A cancel or close that discards stands (R259, R261). -/
def keptEdit (job : Nat) (discards : List Nat) (dead : Bool) (t : Nat × Edit) : Bool :=
  t.1 != job || (!dead && match t.2 with
    | .advance h _ _ _ => !discards.contains h
    | .close h ended => !(ended && discards.contains h)
    | _ => true)

/-- The first entry of some seals that names the context as a whole, with its member: the lowest. -/
def wholeOf (seals : List SealMsg) : Option (Nat × Nat) :=
  (seals.flatMap fun m => (m.faults.filter wholeFault).map fun f => (m.node, f.cause)).head?

/-- The context that seals name as a whole is torn down, by the entry of the lowest member. -/
def State.faultWhole (s : State) (c : Nat) (seals : List SealMsg) (b : Bound) : State :=
  match wholeOf seals with
  | none => s
  | some w => s.teardown c w.2 b w.1

/-- The commit of a step, up to the page manager's list: what this package's homes do, with the seals given. Token records leave before
any completion (R304): those that STRICT_COMMIT held, then those of the step's rows; then come the completions of a context that the
seals tear down, those that STRICT_COMMIT held, those of the rows, and those of due descriptors. -/
def State.commitHome (s : State) (a : Attempt) (seals : List SealMsg) (e : Edge) : State :=
  let fs := seals.flatMap (·.faults)
  let dead := (wholeOf seals).isSome || match s.ctx a.ctx with | none => true | some x => x.teardown.isSome
  let s := if dead then { s with strict := s.strict.filter fun r => r.ctx != a.ctx } else s
  let s := s.strictLeave a.ctx e.step true e.b
  let s := if dead then s else a.plan.rows.foldl (fun s r => s.publishRow a.ctx a (discardsOf fs) r e.b) s
  let s := (s.faultWhole a.ctx seals e.b).strictLeave a.ctx e.step false e.b
  let s := if dead then s else s.commitCtx a (discardsOf fs) (failedOf fs) ((seals.map (·.loss)).foldl max 0) e.b
  (s.freeAreas.applyDue e).shipsAt e.b (fun _ => true) false

/-- The edits applied here, the other members' among them. -/
def State.commitPages (s : State) (a : Attempt) (seals : List SealMsg) (others : List (Nat × Edit)) (e : Edge) : State :=
  let fs := seals.flatMap (·.faults)
  let dead := match s.ctx a.ctx with | none => true | some x => x.teardown.isSome
  let kept := others.filter (keptEdit a.plan.job (discardsOf fs) dead)
  let mine := s.edits
  let s := { s with edits := [], unsent := s.unsent ++ mine }
  let s := if dead then s else (failedOf fs).foldl (fun s h => s.markClosing a.ctx h 2) s
  let s := s.ctxs.foldl (fun s cx => s.applySwaps cx.1) s
  s.pageManagers e (kept ++ mine)

def commitEdge (a : Attempt) (seals : List SealMsg) (b : Bound) : Edge :=
  ⟨some a.ctx, a.plan.step, true, b, a.plan.rows, a.layers, seals.flatMap (·.slots)⟩

/-- The fault entries of this member's seal: those found in the step, those that commands raised while it ran (R379), a loss word that
cannot be given to the host (R170, R383), then the discards of R259. -/
def State.sealFaults (s : State) (a : Attempt) : List SealFault :=
  a.faults ++ ((s.dueFaults.filter fun f => f.1 = a.ctx).map fun f => ⟨wholeCtx, a.ctx, f.2⟩) ++
    (match s.lossWord a with
      | .error st => [⟨wholeCtx, a.ctx, st⟩]
      | .ok r => if r.2 then [⟨wholeCtx, a.ctx, stPoisoned⟩] else []) ++
    (s.cancelled a true).map fun h => ⟨h, a.ctx, stCancelled⟩

/-- The seal of this member, but for what follows from the commit that it brings. One with PASS = 0 names no sequence and carries no
edit, for nothing of its attempt stands (DESIGN CHOICE, log entry 18). -/
def State.sealCore (s : State) (a : Attempt) (pass : Bool) : SealMsg :=
  { node := s.node, job := a.plan.job, step := a.plan.step, attempt := a.plan.attempt, pass := pass, planes := s.upPlanes,
    sig := a.sig, faults := if pass then s.sealFaults a else [], edits := [], copying := s.copying
    slots := if pass then s.slotsOf a else []
    loss := if pass then (match s.lossWord a with | .ok r => r.1 | .error _ => 0) else 0 }

/-- The state that this package's homes expect after the commit, for its report and its edits (R253). -/
def State.expected (s : State) (a : Attempt) : State :=
  let seals := [s.sealCore a true]
  let e := commitEdge a seals ⟨a.plan.step, s.commits + 1⟩
  let s := { s with attempt := none }
  ((s.commitHome a seals e).commitPages a seals [] e).finishMaps (sealCopies a.seals) e.b

def State.sealMsg (s : State) (a : Attempt) (pass : Bool) : SealMsg :=
  { s.sealCore a pass with edits := if pass then (s.expected a).unsent else [] }

/-- The seal goes to every member, and this package keeps its own; a late one is counted by the caller. -/
def State.sendSeal (s : State) (a : Attempt) (pass : Bool) : State :=
  let m := s.sealMsg a pass
  let s := s.modAttempt fun a => { a with sealed := true, seals := a.seals ++ [m] }
  s.toPeers fun n => .seal n m

/-- The reports that go with a seal, and what the lead will have been told once the step commits (R338). -/
def State.sendReports (s : State) (a : Attempt) : State :=
  let t := s.expected a
  let cs := t.ctxs.filter fun cx => cx.2.state = .active
  let s := cs.foldl (fun s cx => s.giveReport (t.makeReport cx.1 cx.2 [])) s
  { s with telling := cs.flatMap fun cx => (t.seqEntries cx.2).map fun e => (cx.2.job, e) }

/-! ## After a boundary -/

/-- A context that waits for its destruction, a checkpoint or a restore takes its turn, and a torn-down one is released
once nothing uses it. -/
def State.settleCtx (s : State) (c : Nat) (b : Bound) : State :=
  match s.ctx c with
  | none => s
  | some x =>
    let s := if x.state = .destroying && x.teardown.isNone && !s.planned x.job then s.teardown c stCancelled b s.node else s
    ((s.releaseCtx c b).startHolds c b).raiseDue c

def State.settleCtxs (s : State) (b : Bound) : State := s.ctxs.foldl (fun s cx => s.settleCtx cx.1 b) s

/-! ## Late seals and the seal agent (R21, R151) -/

/-- The image that a plan names. -/
def State.planImage (s : State) (p : Plan) : List Byte := ((s.ctxOfJob p.job).bind fun cx => cx.2.jigNamed p.slot p.digest).getD []

/-- The seal deadline of a plan (R151). -/
def State.sealDeadline (s : State) (p : Plan) : Nat :=
  let img := s.planImage p
  p.start + jigNomNs img * (1000 + jigKerf img) / 1000

/-- An excess over the deadline counts (R151). -/
def State.noteLate (s : State) (p : Plan) (o : Nat) : State :=
  let dl := s.sealDeadline p
  if s.time ≤ dl then s
  else
    let s := s.bump o 31 0 1
    let excess := min 0xFFFFFFFF (s.time - dl)
    if (s.reg oLateMax).toNat < excess then s.setReg oLateMax (BitVec.ofNat 32 excess) else s

/-- The die whose step sequencer slice is the seal agent: the lowest in service (R21). -/
def State.sealAgent (s : State) : Option Nat := s.diesInService.head?

/-- The package can seal: its agent's die is not in reset. -/
def State.canSeal (s : State) : Bool := match s.sealAgent with | none => false | some d => !s.dieInReset d

/-- The Limfele ports that are up. -/
def State.portsUp (s : State) : List Nat := (List.range 32).filter fun p => fld (s.reg (oPortStat p)) 1 0 = 2

/-- The ports that a DEPART leaves on: for want of power every one that is up (R390, R407), and for a drain the one of the path hash. -/
def State.departPorts (s : State) (cause : Nat) : List (Option Nat) := if cause = 0 then [none] else s.portsUp.map some

/-- This package sends DEPART to every peer and takes no further part (R374). -/
def State.departNow (s : State) (cause step : Nat) : State :=
  let s := s.emits ((s.departPorts cause).flatMap fun p => s.peers.map fun n => .depart n p cause step)
  { s.setRegFld oIntStat 1 0 3 with departed := true, plans := [], attempt := none }

/-- `DIAG` DEPART at a commit, or while idle. -/
def State.departDue (s : State) (step : Nat) (b : Bound) : State :=
  match s.opens.find? fun d => hOpcode d.words = opDiag && hObject d.words = 4 && (match d.phase with | .boundary _ => true | _ => false) with
  | none => s
  | some d => (s.departNow 0 step).complete d.id stOk 0 b

/-- Descriptors accepted after the seal are in time for the next boundary. -/
def Desc.early (d : Desc) : Desc := if d.phase = .boundary true then { d with phase := .boundary false } else d

/-- Forwarded policies whose report has gone. -/
def State.keepForwards (s : State) : List Forwarded :=
  s.forwards.filter fun f => match s.desc? f.order with | some d => d.phase = .boundary true | none => false

/-- `INT_SIG` shows the step signature of the last commit (R353). -/
def State.noteSig (s : State) (a : Attempt) : State := (s.setReg64 oSigLo a.sig).setReg64 oSigStepLo (a.plan.step % 2 ^ 48)

/-- The parameters in force for the sequences of a context. -/
def State.paramsInForce (s : State) (c : Nat) : List (Nat × DrawParams × ConParams) :=
  match s.ctx c with
  | none => []
  | some x => x.tables.map fun t => (t.handle, t.draw, t.con)

/-- The held inputs of a context's last two steps (R364); the next step fills the other half of the shadow log (R355). -/
def State.holdInputs (s : State) (a : Attempt) (params : List (Nat × DrawParams × ConParams)) (descs : List Nat) : State :=
  let h : HeldInputs := ⟨a.ctx, a.plan, a.snapshot, params, descs, a.shadowed, a.half, a.logged⟩
  { s with heldInputs := (s.heldInputs.filter fun k => !(k.ctx = a.ctx && k.plan.step + 2 ≤ a.plan.step)) ++ [h], logHalf := 1 - a.half }

/-- The seals of the other members. -/
def State.othersOf (s : State) (seals : List SealMsg) : List SealMsg := seals.filter fun m => m.node != s.node

/-- The edits that this home's seal carried are told, its report took the policies but for those of `keep`, descriptors
accepted after the seal are early, and the step's shadowed units replay it. -/
def State.commitTold (s : State) (a : Attempt) (keep : List Forwarded) : State :=
  { s with
    unsent := if s.members.length ≤ 1 then []
      else s.unsent.filter fun t => !((a.seals.filter fun m => m.node = s.node).flatMap (·.edits)).contains t
    forwards := keep, opens := s.opens.map Desc.early, ships := s.ships.map Ship.early, told := s.telling, telling := []
    shadowOpen := s.replaysOpen ++ a.shadowed.map fun u => (⟨u, a.ctx, a.plan.step⟩ : ShadowOpen) }

/-- What SUSPECT and STRICT_COMMIT need no longer of a context's steps is dropped. -/
def State.dropPast (s : State) (c n : Nat) : State :=
  { s with past := s.past.filter fun p => p.ctx != c || n < p.step + 2 * s.period + 2 }

/-- The lead takes the planes and the reports of the step into use. -/
def State.commitLead (s : State) (seals : List SealMsg) : State :=
  let t := { s with lead := { s.lead with
    incoming := [], retracted := 0
    planes := seals.foldl (fun ps (m : SealMsg) => poke (2 ^ 32 - 1) ps m.node m.planes) s.lead.planes } }
  if t.isLead then t.takeReports s.lead.incoming else t

/-- What a commit does to contexts, page tables and descriptors. -/
def State.commitBody (s : State) (a : Attempt) (seals : List SealMsg) (b : Bound) : State :=
  let e := commitEdge a seals b
  let t := (({ s with heldEdits := [] } : State).commitHome a seals e).commitPages a seals
    (s.heldEdits ++ (s.othersOf seals).flatMap (·.edits)) e
  (((t.finishMaps (sealCopies seals) b).commitTold a s.keepForwards).noteSig a).holdInputs a (s.paramsInForce a.ctx)
    ((s.opens.filter fun d => s.due e d).map (·.id))

/-- The commit of the step in flight, once a passing seal of every member is here (R25). What it changes of what the buddies mirror goes
to them, beside the writes of the step itself, which they have (R371). -/
def State.commitStep (s : State) (a : Attempt) : State :=
  let n := a.plan.step
  let b : Bound := ⟨n, s.commits + 1⟩
  let seals := sortBy (fun m k : SealMsg => m.node < k.node) a.seals
  let s := { s with
    attempt := none, commits := s.commits + 1, stopped := s.stopped.filter fun (p : Plan) => p.job != a.plan.job
    sealsHeld := s.sealsHeld.filter fun m => m.job != a.plan.job || n < m.step
    retractsHeld := s.retractsHeld.filter fun m => m.job != a.plan.job || n < m.step }
  let old := s.mergeWrites a.ctx a
  let s := (((State.mirrorAll old (s.commitBody a seals b)).dropPast a.ctx n).commitLead seals).freshXlate
  ((((s.dropJigs.atBoundary).settleCtxs b).runPlaces).departDue n b).settleFences b

/-! ## Retraction (R362, R363, R365) -/

def attemptKey (step attempt : Nat) : Nat := step * 256 + attempt

/-- The attempts of a job below this key are over. -/
def State.attemptFloor (s : State) (job : Nat) : Nat :=
  let r := match assoc job s.retracted with | some k => k + 1 | none => 0
  match s.ctxOfJob job with
  | some e => max r (attemptKey (e.2.step + 1) 0)
  | none => r

/-- The seal that refuses a plan: PASS = 0, and the whole context named (R141, R337). A member refuses a plan that it cannot run,
and the lead the attempt that it does not publish when it faults the context on every member (R146, R365; DESIGN CHOICE, log
entry 18). -/
def State.refusalOf (s : State) (job step attempt : Nat) : SealMsg :=
  { node := s.node, job := job, step := step, attempt := attempt, pass := false, planes := s.upPlanes, sig := 0
    faults := [⟨wholeCtx, ((s.ctxOfJob job).map (·.1)).getD 0, stFault⟩], edits := [], copying := [], slots := [], loss := 0 }

/-- A seal that refuses its plan: no other seal with PASS = 0 names anything. -/
def isRefusal (m : SealMsg) : Bool := !m.pass && m.faults.any fun f => f.handle = wholeCtx && f.cause = stFault

/-- The bucket entry of the lead's table under which a step whose window overran runs again, none when no larger one exists
(R141, R146). -/
def Ctx.overrunBucket (x : Ctx) (a : Attempt) : Option Bucket := x.largerBucket a.plan.bucket

/-- The lead plans a retracted step again, with the rows whose sequences still run, and after a window overrun under a larger
bucket entry (R146; log entry 18). A training step has no bucket entry (R383), and runs again under its own slot (DESIGN CHOICE, log
entry 18). None when no such entry exists, or when the context has faulted here. -/
def State.replanOf (s : State) (a : Attempt) : Option Plan :=
  match (s.ctx a.ctx).filter fun x => x.teardown.isNone with
  | none => none
  | some x =>
    let rows := (a.plan.rows.filter fun r => (x.table? r.handle).isSome).map fun r =>
      { r with committed := ((x.table? r.handle).map (·.committed)).getD r.committed }
    let p (slot ratio bucket : Nat) : Plan :=
      { s.makePlan x a.plan.step (a.plan.attempt + 1) rows slot ratio bucket a.plan.train with pred := x.step }
    if a.overran && a.plan.train.isNone then
      (x.overrunBucket a).map fun b => p b.jig b.ratio b.index
    else some (p a.plan.slot a.plan.ratio a.plan.bucket)

/-- A refusal goes to every member; while the seal agent's die is in reset the package cannot seal, and it goes when the die is back
(R21). -/
def State.sendRefusal (s : State) (m : SealMsg) : State :=
  if s.canSeal then s.toPeers fun n => .seal n m else { s with owed := s.owed ++ [m] }

/-- The lead faults a context on every member: it refuses the attempt that would have been next (log entry 18). -/
def State.faultEverywhere (s : State) (a : Attempt) (b : Bound) : State :=
  (s.sendRefusal (s.refusalOf a.plan.job a.plan.step (a.plan.attempt + 1))).faultAt a.ctx stFault b s.node

/-- Retracted attempts in a row of one step (R365). -/
def Lead.retractedIn (l : Lead) (a : Attempt) : Nat := if l.retractedOf = (a.plan.job, a.plan.step) then l.retracted else 0

/-- What follows a retraction. The lead faults the context on every member after four in a row, or after an overrun that no larger
entry answers, and plans the step again otherwise; until it does, the other members keep the step's images (R141). Every member counts,
so that a new lead knows the count; a lost member's attempts do not count (R365; DEDUCED, log entry 27). A member to which the lead's
refusal of the next attempt came first faults the context here. -/
def State.afterRetract (s : State) (a : Attempt) (lost : Bool) (b : Bound) : State :=
  let k := if lost then s.lead.retractedIn a else s.lead.retractedIn a + 1
  let s := { s with
    lead := { s.lead with retracted := if 4 ≤ k then 0 else k, retractedOf := (a.plan.job, a.plan.step) }
    replansDue := addKey a.plan.job s.replansDue }
  if !s.isLead then
    match s.sealsHeld.find? fun m => isRefusal m && m.job = a.plan.job && m.step = a.plan.step && a.plan.attempt < m.attempt with
    | some m => s.faultAt a.ctx stFault b m.node
    | none => s
  else if 4 ≤ k then s.faultEverywhere a b
  else match s.replanOf a with
    | none => s.faultEverywhere a b
    | some p => if s.degraded then { s with lead := { s.lead with replan := some p } } else s.publish p

/-- The attempt in flight is stopped and discarded, with every tentative plan and the reports of its seals. -/
def State.stopAttempt (s : State) (a : Attempt) (b : Bound) : State :=
  let old := s
  let s := s.discardPlans fun _ => true
  let s := { s with
    attempt := none, lead := { s.lead with incoming := [] }, telling := []
    retracted := enlist a.plan.job (attemptKey a.plan.step a.plan.attempt) s.retracted
    stopped := (s.stopped.filter fun (p : Plan) => p.job != a.plan.job || p.step = a.plan.step) ++ [a.plan]
    sealsHeld := s.sealsHeld.filter fun m => m.job != a.plan.job || attemptKey a.plan.step a.plan.attempt < attemptKey m.step m.attempt
    retractsHeld := s.retractsHeld.filter fun m => m.job != a.plan.job || attemptKey a.plan.step a.plan.attempt < attemptKey m.step m.attempt
    outst := s.outst.filter (·.req.hdr.step = 0), forwarding := s.forwarding.filter (·.hdr.step = 0) }
  let e : Edge := ⟨some a.ctx, a.plan.step, false, b, a.plan.rows, a.layers, []⟩
  let s := s.ctxs.foldl (fun s cx => s.applySwaps cx.1) s
  let s := { s.pageManagers e s.heldEdits with heldEdits := [] }
  State.mirrorAll old { s.dropJigs.atBoundary with opens := s.opens.map Desc.early, ships := s.ships.map Ship.early }

/-- A retraction on this member: completions that it forms carry its step (R303). -/
def State.retractAttempt (s : State) (a : Attempt) (node cause : Nat) (lost : Bool) : State :=
  let b : Bound := ⟨a.plan.step, 0⟩
  let s := (s.stopAttempt a b).event stRetracted (some a.ctx) node cause a.plan.step
  (((s.afterRetract a lost b).settleCtxs b).runPlaces).settleFences b

/-- RETRACT to every member, counted (R362). -/
def State.sendRetract (s : State) (job step attempt cause first : Nat) (overran : Bool) : State :=
  (s.toPeers fun n => .retract n ⟨job, step, attempt, s.node, cause, first, overran⟩).bump oRetractSent 31 0 1

/-- This member's share of the step has failed (R362): RETRACT at once, then its seal with PASS = 0, and the attempt
ends here. While the seal agent's die is in reset nothing is sent: the failure is kept until the die is back or a peer's seal
timeout has expired (R21). -/
def State.failShare (s : State) (cause : Nat) : State :=
  match s.attempt with
  | none => s
  | some a =>
    if !s.canSeal then { s with attempt := some { a with failed := some (a.failed.getD cause) } }
    else
    let s := s.sendRetract a.plan.job a.plan.step a.plan.attempt cause 0 a.overran
    let s := if a.sealed then s else (s.noteLate a.plan oLateSeal).sendSeal { a with failed := some cause } false
    s.retractAttempt a s.node cause false

/-- What the seal agent could not tell is told. -/
def State.tellFailure (s : State) : State :=
  let s := if s.canSeal then s.owed.foldl (fun s m => s.toPeers fun n => .seal n m) { s with owed := [] } else s
  match s.attempt.bind (·.failed) with
  | none => s
  | some cause => if s.canSeal then s.failShare cause else s

/-! ## Idle (R251, R254) -/

/-- A context is idle in R251's sense: no step of it is in flight, and no plan is published. -/
def State.idleCtx (s : State) (c : Nat) : Bool := s.plans.isEmpty && !s.stepOf c

/-- Outside a step the home reports what changed of its sequences, its policies and the copies that ended, and tells every member the
edits that have just applied (R253, R338). -/
def State.tellIdle (s : State) (c : Nat) (y : Ctx) (sent : List (Nat × Edit)) (ended : Bool) : State :=
  let full := s.makeReport c y []
  let r := if s.idle then full else { full with seqs := [], forwards := [] }
  let tell := 1 < s.members.length && (!sent.isEmpty || ended)
  let s := if s.idle then { s.tellJob y with forwards := s.forwards.filter fun f => f.job != y.job } else s
  let s := if !tell then s
    else s.toPeers fun n => .report n { r with
      edits := sent, copying := if ended then some s.copying else none
      seqs := if s.leadNode = some n then r.seqs else [], forwards := if s.leadNode = some n then r.forwards else [] }
  if s.isLead || !tell then s.giveReport r else s

/-- The boundary of R251 for one idle context: what has been accepted for it takes effect and the page manager works; while no step is
in flight the home reports at once (R254), and otherwise with its next seal. -/
def State.idleBoundary (s : State) (c : Nat) : State :=
  if !s.idleCtx c then s
  else
    let old := s
    let e := Edge.idle
    let jobOf (c : Nat) : Nat := ((s.ctx c).map (·.job)).getD 0
    let ds := s.opens.filter fun d => hContext d.words = c && !waitsElsewhere (hOpcode d.words) &&
      !(hOpcode d.words = opJigLoad && s.replansDue.contains (jobOf c)) && (match d.phase with | .boundary _ => true | _ => false)
    let s := ds.foldl (fun s d => match s.desc? d.id with | some d => s.applyDesc d .none | none => s) s
    let s := s.shipsAt .none (fun k => k = c) true
    match s.ctx c with
    | none => s
    | some x =>
      let mine := (s.edits.filter fun t => t.1 = x.job)
      let s := { s with edits := s.edits.filter (fun t => t.1 != x.job), unsent := s.unsent ++ mine }
      let s := ((s.applySwaps c).pageManager c e (mine.map (·.2))).faultTables .none
      let s := State.mirrorAll old (s.finishMaps (fun _ => none) .none)
      let sent := s.unsent.filter fun t => t.1 = x.job
      let s := { s with unsent := s.unsent.filter fun t => t.1 != x.job }
      let s := match s.ctx c with
        | none => s
        | some y => s.tellIdle c y sent (x.copies != y.copies)
      ((s.settleCtx c .none).runPlaces).settleFences .none

/-- Everything that is idle takes effect; a DEPART names the last committed step (R374). -/
def State.idleApply (s : State) : State :=
  let s := s.ctxs.foldl (fun s cx => s.idleBoundary cx.1) s
  if s.idle then s.dropJigs.atBoundary.departDue (s.reg64 oSigStepLo) .none else s

end Sys2Proof.Machine
end

