-- ==== Sys2Proof/Machine/Wire.lean ====
section
/-! DEFINITION. Messages as bytes, and flits: the header, the bodies, the parts of a long control message, and the flit with its CRC-32
(R207, R317, R321 to R324, R336 to R338, R341). Where the manual names the fields of a body and not their places, they stand in the
order named, in words (DESIGN CHOICE, log entry 26). -/

namespace Sys2Proof.Machine

/-! ## The header (R321) -/

structure WireHdr where
  dst : Nat
  src : Nat
  op : Nat
  poison : Bool
  job : Nat
  part : Nat
  arg : Nat
  tag : Nat
  offset : Nat
  step : Nat
  attempt : Nat
  deriving DecidableEq, Repr

/-- The 32 bytes of a header before a body of `len` bytes. -/
def WireHdr.bytes (h : WireHdr) (len : Nat) : List Byte :=
  leBytes 4 (h.dst + 2 ^ 12 * h.src + 2 ^ 24 * h.op + 2 ^ 30 * flag h.poison) ++ leBytes 4 (h.job + 2 ^ 16 * h.part) ++
    leBytes 4 (len + 2 ^ 14 * h.arg) ++ leBytes 4 h.tag ++ leBytes 8 h.offset ++ leBytes 8 (h.step + 2 ^ 48 * h.attempt)

/-- A message as it is handed to a port: its virtual channel, the plane where it is settled, destination and offset for the path hash
otherwise, and the bytes of its parts. -/
structure Wire where
  vc : Nat
  plane : Option Nat
  dst : Nat
  offset : Nat
  parts : List (List Byte)
  deriving DecidableEq, Repr

/-- The bodies of the parts of a control message: 8,192 bytes in every one but the last (R322). -/
def bodyParts (body : List Byte) : List (List Byte) := if body.isEmpty then [[]] else chunks 8192 body

/-- A control message: its parts differ in LEN and ARG alone, and all take one plane (R322). -/
def control (h : WireHdr) (body : List Byte) : Wire :=
  let ps := bodyParts body
  ⟨2, none, h.dst, 0, (indexed ps).map fun ip =>
    { h with arg := ip.1 + 2 ^ 16 * flag (ip.1 + 1 = ps.length) }.bytes ip.2.length ++ ip.2⟩

/-! ## Requests (R323, R324) -/

/-- OP, ARG and body of a request. GROUP_END packs its fields from bit 0 on. The destination list of an MCAST_WRITE has no field
(R323, R333): the members' order and the LOAD's list give it. -/
def FabOp.wire : FabOp → Nat × Nat × List Byte
  | .read n => (0x01, n, [])
  | .write bs => (0x02, 0, bs)
  | .add v => (0x03, 0, leBytes 8 v)
  | .swap v => (0x03, 1, leBytes 8 v)
  | .cas c n => (0x03, 2, leBytes 8 c ++ leBytes 8 n)
  | .acc states => (0x04, 0, states.flatten)
  | .mcast load _ _ bs => (0x05, flag load, bs)
  | .group layer expert member adds => (0x06, 0, leBytes 9 (layer + 2 ^ 16 * expert + 2 ^ 26 * member + 2 ^ 38 * adds))

def FabReq.wire (r : FabReq) (dst : Nat) (plane : Option Nat) : Wire :=
  let w := r.op.wire
  let h := r.hdr
  ⟨0, plane, dst, h.offset, [(⟨dst, h.src, w.1, h.poison, h.job, h.part, w.2.1, h.tag, h.offset, h.step, h.attempt⟩ : WireHdr).bytes
    w.2.2.length ++ w.2.2]⟩

/-! ## Control bodies -/

/-- KIND of a length-table row (R207, R240). -/
def RowKind.code : RowKind → Nat
  | .decode => 0
  | .prefill => 1
  | .kvFill => 2

/-- A length-table row as its 64 bytes. -/
def LenRow.bytes (r : LenRow) : List Byte :=
  let head := leBytes 4 r.handle ++ leBytes 4 (r.committed + 2 ^ 29 * r.kind.code) ++ leBytes 4 (r.new + 2 ^ 16 * r.nodes) ++
    leBytes 4 r.prefixGroup ++ leBytes 4 r.prefixLen ++ List.replicate 12 0#8 ++ r.parents.map (BitVec.ofNat 8)
  head ++ List.replicate (64 - head.length) 0#8

/-- The PLAN body (R336): the plan header's 64 bytes, which the manual lays out nowhere, and the length table. -/
def planBody (p : Plan) : List Byte :=
  ((List.range 64).map (Config.planHeader p.job (attemptKey p.step p.attempt))) ++ p.rows.flatMap LenRow.bytes

/-- The SEAL body (R337). -/
def sealBody (m : SealMsg) : List Byte :=
  leBytes 4 (flag m.pass + 2 ^ 8 * m.faults.length) ++ leBytes 4 m.planes ++ leBytes 8 m.sig ++
    m.faults.flatMap fun f => leBytes 4 f.handle ++ leBytes 4 (f.context + 2 ^ 8 * f.cause)

/-- The state of a reported sequence in three bits; 7 is closed. -/
def reportState : Option SeqState → Nat
  | none => 7
  | some q => stateCode q

/-- The REPORT body (R338): the entry of the report's context, under the number `c` that it has at the sender, and those of its
sequences. -/
def reportBody (c : Nat) (r : Report) : List Byte :=
  leBytes 4 c ++ leBytes 4 r.free ++ leBytes 4 r.resv ++ leBytes 4 r.waiting ++
    r.seqs.flatMap fun e => leBytes 4 e.handle ++ leBytes 4 (reportState e.state + 2 ^ 3 * e.cls + 2 ^ 6 * e.queued) ++
      leBytes 4 e.committed ++ leBytes 4 e.quota ++ leBytes 8 e.order

/-- A 64-bit two's complement number. -/
def i64 (n : Int) : List Byte := leBytes 8 (n % 2 ^ 64).toNat

/-- The TIME body (R341). -/
def timeBody (reply : Bool) (t1 t2 t3 : Nat) (correction reqCorrection : Int) : List Byte :=
  leBytes 8 (flag reply) ++ leBytes 8 t1 ++ leBytes 8 t2 ++ leBytes 8 t3 ++ i64 correction ++ i64 reqCorrection

def retractBody (m : RetractMsg) : List Byte :=
  leBytes 8 (m.step + 2 ^ 48 * m.attempt) ++ leBytes 4 m.node ++ leBytes 4 m.cause

/-- The names that every SHIP message begins with (R323). -/
def shipNames (n : ShipName) : List Byte :=
  leBytes 4 n.srcHandle ++ leBytes 4 n.dstHandle ++ leBytes 4 n.srcCtx ++ leBytes 4 n.dstCtx

def wordBytes (ws : List Nat) : List Byte := ws.flatMap (leBytes 4)

def shipOfferBody (n : ShipName) (committed : Nat) (pending : Option (Nat × Bool)) (layout : List Word) (pen : List PenEntry)
    (members : List Nat) : List Byte :=
  shipNames n ++ wordBytes ([committed, (pending.map (·.1)).getD 0, flag pending.isSome + 2 * flag (pending.any (·.2))] ++
    layout.map (·.toNat)) ++ wordBytes ((penWords pen).map (·.toNat)) ++ wordBytes members

def shipGrantBody (n : ShipName) (logical pages : List Nat) : List Byte :=
  shipNames n ++ wordBytes (logical.length :: logical) ++ pages.flatMap (leBytes 8)

/-! ## What leaves the package -/

/-- A control message of this package. -/
def State.ctl (s : State) (dst op job step attempt : Nat) (body : List Byte) : Wire :=
  control ⟨dst, s.node, op, false, job, s.partition, 0, 0, 0, step, attempt⟩ body

/-- A response: what its request's header said beside the tag is not repeated (DESIGN CHOICE, log entry 26). -/
def State.response (s : State) (dst op arg tag : Nat) (poison : Bool) (body : List Byte) : Wire :=
  ⟨1, none, dst, 0, [(⟨dst, s.node, op, poison, 0, s.partition, arg, tag, 0, 0, 0⟩ : WireHdr).bytes body.length ++ body]⟩

/-- A message of the package as its ports carry it; none for what goes elsewhere, and for the inputs, candidates, head outputs and parts
of a step, whose operation the manual does not name (log entry 26). A response, which echoes the tag, takes the plane of OFFSET 0
(DESIGN CHOICE), and so does every control message but TIME and a DEPART for power, which name their port (R329, R341, R390, R407). -/
def State.wire (s : State) : Out → Option Wire
  | .request dst plane r => some (r.wire dst (some plane))
  | .ack dst tag => some (s.response dst 0x20 0 tag false [])
  | .data dst tag bs po => some (s.response dst 0x21 0 tag po bs)
  | .nack dst tag reason => some (s.response dst 0x22 reason tag false [])
  | .plan dst p => some (s.ctl dst 0x10 p.job p.step p.attempt (planBody p))
  | .seal dst m => some (s.ctl dst 0x11 m.job m.step m.attempt (sealBody m))
  | .retract dst m => some (s.ctl dst 0x12 m.job m.step m.attempt (retractBody m))
  | .depart node port cause step => some { s.ctl node 0x13 0 step 0 (wordBytes [s.node, cause]) with plane := port }
  | .time dst plane reply t1 t2 t3 rc =>
    some { s.ctl dst 0x14 0 0 0 (timeBody reply t1 t2 t3 0 rc) with plane := some plane }
  | .report dst r => some (s.ctl dst 0x15 r.job 0 0 (reportBody (((s.ctxOfJob r.job).map (·.1)).getD 0) r))
  | .pendingMsg dst kind step attempt => some (s.ctl dst 0x16 0 step attempt (wordBytes [kind]))
  | .shipOffer n c p l pen ms => some (s.ctl n.dstNode 0x18 n.job 0 0 (shipOfferBody n c p l pen ms))
  | .shipGrant dst n l ps => some (s.ctl dst 0x19 n.job 0 0 (shipGrantBody n l ps))
  | .writesDone dst n m k => some (s.ctl dst 0x1A n.job 0 0 (shipNames n ++ wordBytes [m, k]))
  | .shipDone n k => some (s.ctl n.dstNode 0x1B n.job 0 0 (shipNames n ++ wordBytes [k]))
  | .shipAccepted n => some (s.ctl n.srcNode 0x1C n.job 0 0 (shipNames n))
  | .shipRefused dst n st => some (s.ctl dst 0x1D n.job 0 0 (shipNames n ++ wordBytes [st]))
  | _ => none

/-! ## Flits (R317) -/

/-- KIND of a flit. -/
def flitMessage : Nat := 0
def flitNak : Nat := 1
def flitCredit : Nat := 2
def flitLinkId : Nat := 4

/-- A flit's 256 bytes. -/
def flit (seq ack vc kind : Nat) (first last : Bool) (payload : List Byte) : List Byte :=
  let b := leBytes 4 (seq % 4096 + 2 ^ 12 * (ack % 4096) + 2 ^ 24 * vc + 2 ^ 26 * flag first + 2 ^ 27 * flag last + 2 ^ 28 * kind) ++
    payload.take 248 ++ List.replicate (248 - payload.length) 0#8
  b ++ leBytes 4 (crc32 b).toNat

/-- The flits of a message with a body of `len` bytes (R321). -/
def flitCount (len : Nat) : Nat := cdiv (32 + len) 248

/-- The flits of all parts of a control message (R322). -/
def ctlFlits (len : Nat) : Nat := (max 1 (cdiv len 8192) - 1) * flitCount 8192 + flitCount (len - (max 1 (cdiv len 8192) - 1) * 8192)

end Sys2Proof.Machine
end

