-- ==== Sys2Proof/Machine/Flits.lean ====
section
/-! DEFINITION. The link layer of a Limfele port: sequence numbers, credits, the queues of the virtual channels and the replay buffer
(R317 to R320), and the receive translation cache of a die (R328). Messages are formed whole in `State.out`; a tick cuts those that are
new into flits (DESIGN CHOICE, log entry 26). -/

namespace Sys2Proof.Machine

/-! ## Ports -/

def FabLink.fresh : FabLink := ⟨0, 0, [], [], []⟩

def State.link (s : State) (p : Nat) : FabLink := peek .fresh s.links p

def State.modLink (s : State) (p : Nat) (f : FabLink → FabLink) : State := { s with links := poke .fresh s.links p (f (s.link p)) }

/-- The link whose queue waits for a port of the mask to come up (R17, R320): no port has this number. -/
def noPort : Nat := 32

def State.portIsUp (s : State) (p : Nat) : Bool := fld (s.reg (oPortStat p)) 1 0 = 2

/-! ## Receiving -/

/-- Flits of a message have come in order: the next one that is expected follows them (R317). -/
def State.heard (s : State) (p : Option Nat) (n : Nat) : State :=
  match p with
  | none => s
  | some p => s.modLink p fun l => { l with expect := (l.expect + n) % 4096 }

/-- There is room again for flits of a virtual channel: their credits go back (R318). -/
def State.room (s : State) (p : Option Nat) (vc n : Nat) : State :=
  match p with
  | none => s
  | some p => s.modLink p fun l => { l with back := poke 0 l.back vc (peek 0 l.back vc + n) }

/-- The plane on which a request for this package comes: that of the path hash, or the one that the jig names (R329; DEDUCED, log entry
26: the mask is the same on every member). -/
def State.arrival (s : State) (h : MsgHdr) (op : FabOp) : Option Nat :=
  match s.attempt with
  | none => s.hashPlane s.node h.offset
  | some a =>
    let p := Config.namedPlane a.img s.node h.offset
    if h.step != 0 && op.placed && s.maskedPlanes.contains p then some p else s.hashPlane s.node h.offset

/-- A control message or a response has come, on the plane of OFFSET 0, and is taken at once. -/
def State.heardOn (s : State) (p : Option Nat) (vc n : Nat) : State := (s.heard p n).room p vc n

def State.heardCtl (s : State) (len : Nat) : State := s.heardOn (s.hashPlane s.node 0) 2 (ctlFlits len)

def State.heardRsp (s : State) (len : Nat) : State := s.heardOn (s.hashPlane s.node 0) 1 (flitCount len)

/-! ## Translation of what is received (R328) -/

/-- The receive cache of the die of a port takes the entries of the pages that a request reaches; a walk ends within the command that
brings the request (DESIGN CHOICE, log entry 26). -/
def State.walkIn (s : State) (plane : Option Nat) (c : Nat) (x : Ctx) (ps : List Nat) : State :=
  match plane with
  | none => s
  | some p => ps.foldl (fun s g => s.cacheEntry (p / 4) 4096 c g (x.page g)) s

/-! ## Sending -/

/-- A message joins the queue of its port, or waits for one to come up. -/
def State.queueMsg (s : State) (plane : Option Nat) (m : Queued) : State :=
  s.modLink (plane.getD noPort) fun l => { l with queue := l.queue ++ [m] }

/-- Messages of a queue go to other ports, whole (R320). A request for which no port is up waits to be formed anew (`State.sendWaiting`). -/
def State.requeue (s : State) (ms : List Queued) (from_ : Option Nat) : State :=
  ms.foldl (fun s m =>
    let p := match from_ with | none => s.planeFor m.dst m.offset | some q => s.planeAfter q
    let s := { s with outst := s.outst.map fun (o : Outst) => if m.tag = some o.tag then { o with plane := p } else o }
    if m.tag.isSome && p.isNone then s else s.queueMsg p { m with sent := 0 }) s

/-- A message that the package has formed goes to its port, part by part; a request whose port is down by then moves on (R320). -/
def State.takeOut (s : State) (o : Out) : State :=
  match s.wire o with
  | none => s
  | some w =>
    let p := w.plane.orElse fun _ => s.planeFor w.dst w.offset
    let tag := match o with | .request _ _ r => some r.hdr.tag | _ => none
    let ms := w.parts.map fun bs => (⟨w.vc, w.dst, w.offset, tag, bs, 0⟩ : Queued)
    if tag.isSome && !p.any s.portIsUp then s.requeue ms p else ms.foldl (fun s m => s.queueMsg p m) s

/-- What has been formed since the last tick, oldest first. -/
def State.takeOuts (s : State) : State :=
  let new := (s.out.take (s.out.length - s.drained)).reverse
  new.foldl (fun s o => s.takeOut o) { s with drained := s.out.length }


/-- A port is down: the requests that wait for it move to the next plane; responses and control messages wait. -/
def State.leavePort (s : State) (p : Nat) : State :=
  let ms := (s.link p).queue.filter fun m => m.vc = 0
  (s.modLink p fun l => { l with queue := l.queue.filter fun m => m.vc != 0 }).requeue ms (some p)

/-- What waits for a port is placed again once one is up. -/
def State.joinPort (s : State) : State :=
  if s.upHere.isEmpty then s
  else
    let ms := (s.link noPort).queue
    (s.modLink noPort fun l => { l with queue := [] }).requeue ms none

/-- Credits that the other end of a port has given (R318). -/
def State.credit (s : State) (p vc : Nat) : Nat := peek 0 s.credits (p * 4 + vc)

/-- The message that sends its next flit: of the virtual channels with a credit, control before response and response before request
(R318); one channel's messages in their order. -/
def State.readyMsg (s : State) (p : Nat) : Option Queued :=
  [2, 1, 0].findSome? fun vc => if s.credit p vc = 0 then none else (s.link p).queue.find? fun m => m.vc = vc

def Queued.flits (m : Queued) : Nat := cdiv m.bytes.length 248

/-- A flit leaves, and stays in the replay buffer, which holds the latest 512 (R317). -/
def State.sendFlit (s : State) (p : Nat) (m : Queued) : State :=
  let l := s.link p
  let last := m.sent + 1 = m.flits
  let b := flit l.next (l.expect + 4095) m.vc flitMessage (m.sent = 0) last (window (248 * m.sent) 248 m.bytes)
  let queue := if last then l.queue.erase m else l.queue.map fun k => if k = m then { m with sent := m.sent + 1 } else k
  let s := s.modLink p fun l => { l with next := (l.next + 1) % 4096, queue := queue, sent := (l.sent ++ [(l.next, b)]).drop (l.sent.length - 511) }
  { s with credits := poke 0 s.credits (p * 4 + m.vc) (s.credit p m.vc - 1) }.emit (.flit p b)

def sendFlits (p : Nat) : Nat → State → State
  | 0, s => s
  | n + 1, s => match s.readyMsg p with
    | none => s
    | some m => sendFlits p n (s.sendFlit p m)

/-- Credits go back to the other end of a port in one flit for each virtual channel (R318): its payload names their number (DESIGN
CHOICE, log entry 26). -/
def State.giveBack (s : State) (p : Nat) : State :=
  let l := s.link p
  (s.modLink p fun l => { l with back := [] }).emits (l.back.map fun e =>
    .flit p (flit l.next (l.expect + 4095) e.1 flitCredit true true (leBytes 4 e.2)))

/-- The link layer at a tick: new messages join their queues, and each port that is up sends as far as its credits go. -/
def State.runLinks (s : State) : State :=
  let s := s.takeOuts.joinPort
  let s := s.links.foldl (fun s e =>
    if s.portIsUp e.1 then sendFlits e.1 ((e.2.queue.map fun m => m.flits - m.sent).foldl (· + ·) 0) (s.giveBack e.1) else s) s
  { s with drained := s.out.length }

end Sys2Proof.Machine
end

