-- ==== Sys2Proof/Machine/Receive.lean ====
section
/-! DEFINITION. Requests and responses of the fabric as they are received: the checks, what each request does, the
multicast tree, held requests and timeouts (R72, R73, R233, R234, R265, R320 to R335, R388, R389). -/

namespace Sys2Proof.Machine

/-! ## When a request is performed (R320, R326) -/

inductive Moment where
  /-- At once: outside a step, or in the attempt in flight. -/
  | now
  /-- It names a plan that this package has not started: held in its credits. -/
  | held
  /-- It names a retracted or committed attempt: discarded and acknowledged. -/
  | dead
  deriving DecidableEq, Repr

def State.moment (s : State) (h : MsgHdr) : Moment :=
  if h.step = 0 || (s.ctxOfJob h.job).isNone then .now
  else
    let k := attemptKey h.step h.attempt
    match s.attempt with
    | some a =>
      if a.plan.job = h.job then
        let j := attemptKey a.plan.step a.plan.attempt
        if k = j then .now else if k < j then .dead else .held
      else if k < s.attemptFloor h.job then .dead else .held
    | none => if k < s.attemptFloor h.job then .dead else .held

/-! ## Receive checks (R327, R332, R388) -/

def FabOp.isRead : FabOp → Bool
  | .read _ => true
  | _ => false

/-- The operation names an accumulator region, whose OFFSET is not translated (R332). -/
def FabOp.isRegion : FabOp → Bool
  | .acc _ | .group _ _ _ _ => true
  | _ => false

/-- The bytes that a request reaches. -/
def FabOp.span : FabOp → Nat
  | .read n => 128 * n
  | .write bs => bs.length
  | .mcast _ _ _ bs => bs.length
  | _ => 8

/-- MCAST_WRITE with LOAD set. -/
def FabOp.isLoad : FabOp → Bool
  | .mcast l _ _ _ => l
  | _ => false

/-- The regions that a jig's core programs declare beside its combines: none where it has no core programs (log entry 16). -/
def accRegions (img : List Byte) : List (Nat × Nat × Nat) := if (jigSec img 5).isEmpty then [] else Config.regions img

/-- The jig of the plan in flight declares a region: a stage names the layer whose combine it is, or it declares the region for a
reduction (DESIGN CHOICE, log entry 16: what declares a region is not described). -/
def State.regionDeclared (s : State) (job region : Nat) : Bool :=
  match s.attempt with
  | none => false
  | some a => a.plan.job = job &&
      ((jigStageTable (s.planImage a.plan)).any (fun st => stKind st = 1 && stLayer st = region) ||
        (accRegions (s.planImage a.plan)).any fun r => r.1 = region)

/-- The pages that a request reaches. -/
def reach (offset len : Nat) : List Nat :=
  (List.range (pageOf (offset + len - 1) + 1 - pageOf offset)).map (pageOf offset + ·)

/-- A context's lend window is open: it closes when the context faults or is destroyed (R388). -/
def Ctx.lends (x : Ctx) : Bool := x.lendJob != 0 && x.lendCount != 0 && x.state = .active && x.teardown.isNone

/-- The context that a request acts on, and whether a lend window of it serves the request. -/
def State.fabTarget (s : State) (r : FabReq) : Option (Nat × Ctx × Bool) :=
  match s.ctxOfJob r.hdr.job with
  | some e => some (e.1, e.2, false)
  | none =>
    let ls := s.ctxs.filter fun e => e.2.lends && e.2.lendJob = r.hdr.job
    ((ls.find? fun e => (reach r.hdr.offset r.op.span).all e.2.lent).orElse fun _ => ls.head?).map fun e => (e.1, e.2, true)

/-- The refusal reason of R327, in the order of its table; none when the request is performed. A page of the lending context outside its
window is not mapped for the borrower (DEDUCED, log entry 26). -/
def State.fabRefusal (s : State) (r : FabReq) : Option Nat :=
  match s.fabTarget r with
  | none => some 1
  | some (_, x, lent) =>
    let ps := reach r.hdr.offset r.op.span
    if !lent && r.hdr.part != s.partition && !r.op.isLoad then some 2
    else if lent && !r.op.isRead then some 6
    else if r.op.isRegion then (if s.regionDeclared r.hdr.job (r.hdr.offset % 2 ^ 16) then none else some 6)
    else if x.range * 2 ^ 21 < r.hdr.offset + r.op.span || 2 ^ 40 < r.hdr.offset + r.op.span then some 3
    else if ps.any fun p => !entryValid (x.page p) || (lent && !x.lent p) then some 4
    else if !r.op.isRead && ps.any fun p =>
        entryFabric (x.page p) || (!r.op.isLoad && (!entryWritable (x.page p) || x.lent p)) then some 5
    else if r.op.isRead && ps.any fun p => entryFabric (x.page p) then some 6
    else none

/-- The status with which the sender of a refused request faults its context. Reason 0x06 of an add or marker is that of check 4 from a
member of the partition, which carries JOB, and of check 3 from another node (DEDUCED, log entry 26). -/
def nackStatus (op : FabOp) (reason : Nat) (member : Bool) : Nat :=
  if reason = 3 || reason = 4 then stPage
  else if reason = 5 then stTier
  else if reason = 6 && !op.isRead && !(op.isRegion && member) then stTier
  else stFault

/-! ## Performing a request -/

/-- The request belongs to the attempt in flight, so that its effect is tentative (R26). -/
def State.inStep (s : State) (h : MsgHdr) : Bool :=
  h.step != 0 && match s.attempt with
    | some a => a.plan.job = h.job && a.plan.step = h.step && a.plan.attempt = h.attempt
    | none => false

def State.fabRead (s : State) (h : MsgHdr) (c : Nat) (x : Ctx) (n : Nat) : List Byte × Bool × State :=
  match (if s.inStep h then s.stepRead c x h.offset n else s.readCtx x h.offset n 0) with
  | .ok r => r
  | .error _ => ([], false, s)

def State.fabWrite (s : State) (h : MsgHdr) (c : Nat) (x : Ctx) (bs : List Byte) (load : Bool) : State :=
  match (if s.inStep h then s.stepWrite c x h.offset bs h.poison else s.writeCtx x h.offset bs h.poison load) with
  | .ok s => s
  | .error _ => s

/-- The atomic operations on eight bytes (R323). -/
def FabOp.atomic (op : FabOp) (old : Nat) : Option Nat :=
  match op with
  | .add v => some ((old + v) % 2 ^ 64)
  | .swap v => some v
  | .cas compare new => some (if old = compare then new else old)
  | _ => none

def combineOf (a : Attempt) (layer : Nat) : Combine :=
  (a.combines.find? (·.layer = layer)).getD ⟨layer, [], 0, 0, 0, false⟩

def Attempt.setCombine (a : Attempt) (k : Combine) : Attempt :=
  { a with combines := (a.combines.filter (·.layer != k.layer)) ++ [k] }

/-- An exact-accumulate add of one message, from accumulator `first` of a layer's region on (R72, R332). One that comes
after the rounding fails the share (R73). -/
def State.accAdd (s : State) (layer first : Nat) (states : List Acc) : State :=
  match s.attempt with
  | none => s
  | some a =>
    let k := combineOf a layer
    if k.rounded then s.failShare stFault
    else
      let accs := ((List.range states.length).zip states).foldl (fun l p =>
        enlist (first + p.1) ((peek Acc.empty l (first + p.1)).add p.2) l) k.accs
      s.modAttempt fun a => a.setCombine { k with accs := accs, adds := k.adds + 1 }

/-- A group-end marker (R234). -/
def State.groupMarker (s : State) (layer adds : Nat) : State :=
  s.modAttempt fun a =>
    let k := combineOf a layer
    a.setCombine { k with markers := k.markers + 1, due := k.due + adds }

/-- A forwarded MCAST_WRITE, which keeps the header's step, attempt and poison. -/
def State.forwardMcast (s : State) (c : Nat) (h : MsgHdr) (load : Bool) (dests : List Nat) (i : Nat) (bs : List Byte) : State :=
  s.issueNew c (dests.getD i 0xFFF) { h with src := s.node, part := s.partition, tag := s.nextTag } (.mcast load dests i bs) (.mcast h.src h.tag)

/-- The tags that the next `n` requests take. -/
def State.nextTags (s : State) (n : Nat) : List Nat := (List.range n).map fun k => (s.nextTag + k) % 2 ^ 32

/-- A request that passes its checks is performed, and answered once its effect stands (R325, R333). -/
def State.fabPerform (s : State) (r : FabReq) (c : Nat) (x : Ctx) : State :=
  let h := r.hdr
  match r.op with
  | .read n =>
    let d := s.fabRead h c x (128 * n)
    d.2.2.emit (.data h.src h.tag d.1 d.2.1)
  | .write bs => (s.fabWrite h c x bs false).emit (.ack h.src h.tag)
  | .add _ | .swap _ | .cas _ _ =>
    let d := s.fabRead h c x 8
    let s := match r.op.atomic (leNat d.1) with
      | some v => d.2.2.fabWrite h c x (leBytes 8 v) false
      | none => d.2.2
    s.emit (.data h.src h.tag d.1 d.2.1)
  | .acc states => (s.accAdd (h.offset % 2 ^ 16) (h.offset / 2 ^ 16) (states.map Acc.ofWire)).emit (.ack h.src h.tag)
  | .group _ _ _ adds => (s.groupMarker (h.offset % 2 ^ 16) adds).emit (.ack h.src h.tag)
  | .mcast load dests i bs =>
    let s := s.fabWrite h c x bs load
    let kids := children dests.length i
    if kids.isEmpty then s.emit (.ack h.src h.tag)
    else
      let tags := s.nextTags kids.length
      let s := kids.foldl (fun s k => s.forwardMcast c h load dests k bs) s
      { s with forwarding := s.forwarding ++ [⟨h, tags⟩] }

/-- A request is refused (R327). The tree below a refused MCAST_WRITE still gets it (R333). -/
def State.fabRefuse (s : State) (r : FabReq) (reason : Nat) : State :=
  let s := (s.bump oRxRefused 31 0 1).emit (.nack r.hdr.src r.hdr.tag reason)
  match r.op with
  | .mcast load dests i bs => (children dests.length i).foldl (fun s k => s.forwardMcast 64 r.hdr load dests k bs) s
  | _ => s

/-- The pages that a request reaches are translated by the receive cache of the port's die (R328). -/
def State.translate (s : State) (r : FabReq) (plane : Option Nat) : State :=
  match s.fabTarget r with
  | some (c, x, _) => if r.op.isRegion then s else s.walkIn plane c x ((reach r.hdr.offset r.op.span).filter (· < x.range))
  | none => s

/-- A request is checked, and performed or refused. What it writes outside a step goes to the buddy too (R371). -/
def State.fabDo (s : State) (r : FabReq) : State :=
  match s.fabRefusal r, s.fabTarget r with
  | none, some (c, x, _) =>
    let t := s.fabPerform r c x
    if s.inStep r.hdr || r.op.isRead then t else State.mirrorAll s t
  | some reason, _ => s.fabRefuse r reason
  | none, none => s

/-- The flits of a request (R321). -/
def FabReq.flits (r : FabReq) : Nat := flitCount r.op.wire.2.2.length

/-- A request that came on a plane (R326): one that is held keeps its credits, and any other gives them back. -/
def State.receive (s : State) (plane : Option Nat) (r : FabReq) : State :=
  match s.moment r.hdr with
  | .now => ((s.translate r plane).fabDo r).room plane 0 r.flits
  | .held => { s with parked := s.parked ++ [(plane, r)] }
  | .dead => (s.emit (.ack r.hdr.src r.hdr.tag)).room plane 0 r.flits

/-- Held requests are looked at again once a plan has started, or once attempts have been retracted. -/
def State.unpark (s : State) : State :=
  s.parked.foldl (fun s pr => s.receive pr.1 pr.2) { s with parked := [] }

/-- A request arrives. -/
def State.request (s : State) (r : FabReq) : State :=
  let p := s.arrival r.hdr r.op
  (s.heard p r.flits).receive p r

/-! ## Responses (R323, R327, R333, R335) -/

def State.takeOutst (s : State) (src tag : Nat) : Option (Outst × State) :=
  (s.outst.find? fun o => o.tag = tag && o.dst = src).map fun o =>
    (o, { s with outst := s.outst.filter fun p => !(p.tag = tag && p.dst = src) })

/-- A child of a forwarded MCAST_WRITE has acknowledged. -/
def State.childAcked (s : State) (src ptag tag : Nat) : State :=
  match s.forwarding.find? fun f => f.hdr.src = src && f.hdr.tag = ptag with
  | none => s
  | some f =>
    let left := f.children.filter (· != tag)
    let rest := s.forwarding.filter fun g => !(g.hdr.src = src && g.hdr.tag = ptag)
    if left.isEmpty then { s with forwarding := rest }.emit (.ack src ptag)
    else { s with forwarding := rest ++ [{ f with children := left }] }

/-- A child refused: the refusal travels up. -/
def State.childRefused (s : State) (src ptag reason : Nat) : State :=
  if s.forwarding.any fun f => f.hdr.src = src && f.hdr.tag = ptag then
    { s with forwarding := s.forwarding.filter fun g => !(g.hdr.src = src && g.hdr.tag = ptag) }.emit (.nack src ptag reason)
  else s

def State.loadAnswered (s : State) (d : Nat) : State := (s.modLoad d fun l => { l with waiting := l.waiting - 1 }).finishLoad d

/-- A response that acknowledges one request. -/
def execAck (src tag : Nat) (s : State) : Host.Outcome State Fault Refusal :=
  .next <|
    let s := s.heardRsp 0
    match s.takeOutst src tag with
    | none => s
    | some (o, s) => match o.purpose with
      | .load d => s.loadAnswered d
      | .ship n => s.writesDoneIf n
      | .mcast p t => s.childAcked p t tag
      | .step | .lend _ _ _ | .line _ _ | .fetch _ _ _ | .manager _ | .copy _ _ _ | .mirror _ | .joinRecord _ _ | .joinMem _ _ => s

/-- The lines of a page that a placement command moves back are asked for no more. -/
def State.dropCopy (s : State) (path : Path) : State :=
  { s with outst := s.outst.filter fun o => match o.purpose with | .copy q _ _ => decide (q != path) | _ => true }

/-- A refusal faults the sender's context (R327); that of a `LOAD` decides its status too (R335), and that of a move to
the fabric tier only ends the move (R389). -/
def execNack (src tag reason : Nat) (s : State) : Host.Outcome State Fault Refusal :=
  .next <|
    let s := s.heardRsp 0
    match s.takeOutst src tag with
    | none => s
    | some (o, s) =>
      let st := nackStatus o.req.op reason (s.members.contains src)
      match o.purpose with
      | .load d =>
        let shown := if reason = 1 || reason = 2 then stDenied else st
        (s.modLoad d fun l => l.note shown o.req.hdr.offset st).loadAnswered d
      | .mcast p t => s.childRefused p t reason
      | .lend path _ _ => s.lendRefused path
      | .fetch d _ _ => s.fetchFailed d st true
      | .joinRecord d _ | .joinMem d _ => s.joinFailed d st true
      | .copy path c _ => (s.dropCopy path).faultCtx c st
      | .manager c | .mirror c => s.faultCtx c st
      | .step | .ship _ | .line _ _ => s.faultCtx o.ctx st

/-! ## Timers (R320) -/

/-- A placement command of a path ends with a status, and the next one takes its turn. -/
def State.endPath (s : State) (path : Path) (status : Nat) : State :=
  match s.places.find? fun p => p.path = path with
  | none => s
  | some p => (s.endPlace p status).runPlaces

/-- A member below does not answer: the parent gets its one response (R323), with a reason that R327 does not give (a free value: DESIGN
CHOICE, log entry 26). -/
def State.childLost (s : State) (src ptag : Nat) : State :=
  let r := s.free
  r.2.childRefused src ptag (1 + r.1.toNat % 6)

/-- A request that has left a port has no response within t_req_to: the share of the step fails; outside a step the request is issued
once more on another
plane, and then fails its descriptor. A move to the fabric tier whose lender never answers has no descriptor: it ends with
`TIMEOUT` in `MEM_PLACE_STAT.STATUS`, a value that the register's list does not hold (DESIGN CHOICE, log entry 23). -/
def execRequestTimeout (tag : Nat) (s : State) : Host.Outcome State Fault Refusal :=
  .next <| match s.outst.find? fun o => o.tag = tag && o.plane.isSome with
  | none => s
  | some o =>
    if o.req.hdr.step != 0 then s.failShare stTimeout
    else if !o.reissued then
      let rest := s.outst.filter (·.tag != tag)
      { s with outst := rest }.issue { o with reissued := true, plane := o.plane.bind s.planeAfter, issued := s.time }
    else
      let s := { s with outst := s.outst.filter (·.tag != tag) }
      match o.purpose with
      | .load d => (s.modLoad d fun l => l.note stTimeout o.req.hdr.offset 0).loadAnswered d
      | .ship n => s.shipNews n true (.ends stTimeout stTimeout 0)
      | .lend path _ _ => s.endPath path stTimeout
      | .copy path _ _ => (s.dropCopy path).endPath path stTimeout
      | .mcast p t => s.childLost p t
      | .fetch d _ _ => s.fetchFailed d stTimeout false
      | .joinRecord d _ | .joinMem d _ => s.joinFailed d stTimeout false
      | .step | .line _ _ | .manager _ | .mirror _ => s

/-- While requests from a source are held, it is told every t_req_to / 2. -/
def execRequestPendingSend (node : Nat) (s : State) : Host.Outcome State Fault Refusal :=
  .next <| match s.parked.find? fun r => r.2.hdr.src = node with
  | none => s
  | some r => s.emit (.pendingMsg node 0 r.2.hdr.step r.2.hdr.attempt)

/-- PENDING restarts the request timers toward its sender, or the seal timer for it (R320, R356). -/
def execPendingMsg (src kind step attempt : Nat) (s : State) : Host.Outcome State Fault Refusal :=
  .next <|
    let s := s.heardCtl 4
    if kind = 0 then { s with outst := s.outst.map fun o => if o.dst = src then { o with issued := s.time } else o }
    else if kind = 1 then s.modAttempt fun a =>
      if a.plan.step = step && a.plan.attempt = attempt then { a with sealTimers := enlist src s.time a.sealTimers } else a
    else s

/-! ## The requests (R323) -/

def execRead (m : MsgHdr) (lines : Nat) (s : State) : Host.Outcome State Fault Refusal :=
  .next (s.request ⟨m, .read lines⟩)

def execWrite (m : MsgHdr) (data : List Byte) (s : State) : Host.Outcome State Fault Refusal :=
  .next (s.request ⟨m, .write data⟩)

def execAtomicAdd (m : MsgHdr) (operand : Nat) (s : State) : Host.Outcome State Fault Refusal :=
  .next (s.request ⟨m, .add operand⟩)

def execAtomicSwap (m : MsgHdr) (operand : Nat) (s : State) : Host.Outcome State Fault Refusal :=
  .next (s.request ⟨m, .swap operand⟩)

def execAtomicCompareAndSwap (m : MsgHdr) (compare new : Nat) (s : State) : Host.Outcome State Fault Refusal :=
  .next (s.request ⟨m, .cas compare new⟩)

def execAccAdd (m : MsgHdr) (states : List (List Byte)) (s : State) : Host.Outcome State Fault Refusal :=
  .next (s.request ⟨m, .acc states⟩)

def execMcastWrite (m : MsgHdr) (loadSet : Bool) (dests : List Nat) (index : Nat) (data : List Byte) (s : State) :
    Host.Outcome State Fault Refusal :=
  .next (s.request ⟨m, .mcast loadSet dests index data⟩)

def execGroupEnd (m : MsgHdr) (layer expert member adds : Nat) (s : State) : Host.Outcome State Fault Refusal :=
  .next (s.request ⟨m, .group layer expert member adds⟩)

/-! ## Ship messages (R265, R266) -/

/-- Two layouts that R264 lets a ship join: KV_FMT, LAYERS, HG and QPG agree. -/
def sameLayout (a b : List Word) : Bool :=
  fieldAt a 0 2 0 = fieldAt b 0 2 0 && fieldAt a 0 22 16 = fieldAt b 0 22 16 && fieldAt a 4 15 0 = fieldAt b 4 15 0 &&
    fieldAt a 4 21 16 = fieldAt b 4 21 16

/-- The `KV_ACCEPT` in RECEIVING that an offer matches: its source node, context and handle, the layout and the job tag. -/
def State.acceptFor (s : State) (n : ShipName) (layout : List Word) (job : Nat) : Option Ship :=
  match s.ship? n false, (s.ship? n false).bind fun h => s.ctx h.ctx with
  | some h, some x =>
    let waiting := match x.seq? n.dstHandle with | some q => q.state = .receiving && q.isOpen | none => false
    if h.desc != 0 && !h.offered && h.ended.isNone && waiting && sameLayout x.kv layout && x.job = job then some h else none
  | _, _ => none

/-- SHIP_OFFER, with the pending token and whether it was published. The destination acts on it at a boundary (R265). A shipped length
with its pending token above the destination's MAX_LEN ends `KV_ACCEPT` with `BAD_DESCRIPTOR`
(R248); the source is then refused with `DENIED` (DESIGN CHOICE, log entry 21). -/
def execShipOffer (n : ShipName) (committed : Nat) (pending : Option (Nat × Bool)) (layout : List Word) (job : Nat)
    (pen : List PenEntry) (members : List Nat) (s : State) : Host.Outcome State Fault Refusal :=
  .next <|
    let s := s.heardCtl (shipOfferBody n committed pending layout pen members).length
    match s.acceptFor n layout job with
    | none => s.emit (.shipRefused n.srcNode n stDenied)
    | some h =>
      let s := s.modShip n false fun h => { h with
        offered := true, committed := committed, pending := pending.map (·.1), published := pending.any (·.2), pen := pen, members := members,
        run := fieldAt layout 0 11 8, offerTime := s.time }
      let long := (s.seq? h.ctx n.dstHandle).any fun q => tooLong q.maxLen committed pending.toList.length
      s.shipNews n false (if long then .ends stDenied stBad 0x18 else .offer)

/-- A grant names the destination member and its held pages; the source member writes the pages there. -/
def execShipGrant (n : ShipName) (node : Nat) (logical pages : List Nat) (s : State) : Host.Outcome State Fault Refusal :=
  .next ((s.heardCtl (shipGrantBody n logical pages).length).writeShip n node logical pages)

def execWritesDone (n : ShipName) (member pages : Nat) (s : State) : Host.Outcome State Fault Refusal :=
  .next ((s.heardCtl 24).noteWrites n member pages)

/-- SHIP_DONE at the destination home. -/
def execShipDone (n : ShipName) (pages : Nat) (s : State) : Host.Outcome State Fault Refusal :=
  .next (((s.heardCtl 20).modShip n false fun h => { h with arrived := true, done := [(0, pages)] }).shipNews n false .arrived)

def execShipAccepted (n : ShipName) (s : State) : Host.Outcome State Fault Refusal :=
  .next ((s.heardCtl 16).shipNews n true .accepted)

/-- At the source the ship ends with the status; at the destination home, a member of its own cannot hold the pages. -/
def execShipRefused (n : ShipName) (status : Nat) (s : State) : Host.Outcome State Fault Refusal :=
  .next <|
    let s := s.heardCtl 20
    s.shipNews n (s.ship? n true).isSome (.ends status status 0)

/-- t_ship_to after the offer: both sides that have not seen SHIP_DONE end the ship. -/
def execShipTimeout (n : ShipName) (s : State) : Host.Outcome State Fault Refusal :=
  .next <|
    let open_ (out : Bool) : Bool := (s.ship? n out).any fun h => h.offered && !h.arrived
    let end_ (out : Bool) (s : State) : State := if open_ out then s.shipNews n out (.ends stTimeout stTimeout 0) else s
    end_ false (end_ true s)

def execAcceptTimeout (ctx : Fin 64) (handle : Nat) (s : State) : Host.Outcome State Fault Refusal :=
  .next <| match s.ships.find? fun h => !h.out && h.desc != 0 && !h.offered && h.ctx = ctx.val && h.name.dstHandle = handle with
  | none => s
  | some h => s.shipNews h.name false (.ends stTimeout stTimeout 0)

end Sys2Proof.Machine
end

