-- ==== Sys2Proof/Machine/Sram.lean ====
section
/-! DEFINITION. Local SRAM and shared slices by line: banks and rows, SEC-DED, poison, the jig's regions and service accesses
(R16, R114 to R119, R124, R130). -/

namespace Sys2Proof.Machine

/-! ## Lines, banks and rows (R114, R117) -/

/-- A line of a core's local SRAM or of a die's slice space. -/
inductive Sram where
  | core (die core line : Nat)
  | slice (die line : Nat)
  deriving DecidableEq, Repr

/-- The lines of a core's 2 MiB, of a slice's 6 MiB, and of a die's slice space of 192 MiB. -/
def localLines : Nat := 16384
def sliceLines : Nat := 49152
def dieSliceLines : Nat := 32 * sliceLines

/-- The slice of a slice-space line, and its slice group and crossbar segment (R117). -/
def sliceOf (line : Nat) : Nat := line / sliceLines
def sliceGroup (line : Nat) : Nat := sliceOf line / 4

/-- Bank and row of a line: bits 10:7 and the bits above them of its offset in the core or slice (R114, R117). -/
def Sram.bank : Sram → Nat
  | .core _ _ l => l % 16
  | .slice _ l => l % sliceLines % 16
def Sram.row : Sram → Nat
  | .core _ _ l => l / 16
  | .slice _ l => l % sliceLines / 16

/-- The line exists. -/
def Sram.ok (dies : Nat) : Sram → Bool
  | .core d c l => decide (d < dies ∧ c < 48 ∧ l < localLines)
  | .slice d l => decide (d < dies ∧ l < dieSliceLines)

/-- The key of a line's first byte: die, core or slice, bank and row. -/
def Sram.key : Sram → Nat
  | .core d c l => (((d * 48 + c) * 16 + (Sram.core d c l).bank) * 1024 + (Sram.core d c l).row) * 128
  | .slice d l => (((d * 32 + sliceOf l) * 16 + (Sram.slice d l).bank) * 3072 + (Sram.slice d l).row) * 128

def Sram.die : Sram → Nat
  | .core d _ _ => d
  | .slice d _ => d

/-- The core or slice in the fault history (R130, R366). -/
def Sram.unit : Sram → UnitName
  | .core d c _ => ⟨Fin.ofNat 8 d, 1, c⟩
  | .slice d l => ⟨Fin.ofNat 8 d, 2, sliceOf l⟩

/-! ## Reads and writes of a line (R116) -/

def State.sramBytes (s : State) (m : Sram) : List Byte :=
  let mem := match m with | .core _ _ _ => s.locals | .slice _ _ => s.slices
  (List.range 128).map fun i => peek 0#8 mem (m.key + i)

def State.sramPoison (s : State) : Sram → List Nat
  | .core _ _ _ => s.localPoison
  | .slice _ _ => s.slicePoison

/-- The bits in error of word `w` of a line, as a mask of 72 bits. -/
def State.sramMask (s : State) (m : Sram) (w : Nat) : Nat :=
  match m with
  | .core _ _ _ => peek 0 s.localFlips (m.key / 8 + w)
  | .slice _ _ => peek 0 s.sliceFlips (m.key / 8 + w)

def State.setSramMask (s : State) (m : Sram) (w n : Nat) : State :=
  match m with
  | .core _ _ _ => { s with localFlips := poke 0 s.localFlips (m.key / 8 + w) n }
  | .slice _ _ => { s with sliceFlips := poke 0 s.sliceFlips (m.key / 8 + w) n }

/-- The bits of a mask that are set. -/
def popcount (n : Nat) : Nat := ((List.range 72).filter n.testBit).length

/-- SEC-DED of sixteen words with their bits in error (R116): the words whose single error is corrected, and whether an error
cannot be corrected. Three errors or more in a word are uncorrectable too (DESIGN CHOICE, log entry 24). -/
def secded (masks : List Nat) : Nat × Bool :=
  ((masks.filter fun m => popcount m = 1).length, masks.any fun m => 1 < popcount m)

/-- The bytes of a line as they are delivered: a word that cannot be corrected keeps its data bits in error. -/
def damaged (masks : List Nat) (bs : List Byte) : List Byte :=
  ((List.range bs.length).zip bs).map fun ib =>
    let m := masks.getD (ib.1 / 8) 0
    if 1 < popcount m then ib.2 ^^^ BitVec.ofNat 8 (m / 2 ^ (8 * (ib.1 % 8))) else ib.2

/-- The masks of a line's sixteen words with the bits in error cleared. -/
def clearMasks (m : List (Nat × Nat)) (k : Nat) : List (Nat × Nat) := m.filter fun e => e.1 / 16 != k / 16

/-- A set of keys with one of them in or out. -/
def setKey (k : Nat) (b : Bool) (l : List Nat) : List Nat := if b then addKey k l else l.filter (· != k)

def State.setSramPoison (s : State) (m : Sram) (b : Bool) : State :=
  match m with
  | .core _ _ _ => { s with localPoison := setKey m.key b s.localPoison }
  | .slice _ _ => { s with slicePoison := setKey m.key b s.slicePoison }

/-- A line is written whole, with fresh check bits (R116, R169). A line that does not exist is not written (R114, R117). -/
def State.sramPut (s : State) (m : Sram) (bs : List Byte) (poison : Bool) : State :=
  let ok := m.ok s.fuses.dies
  match m with
  | .core _ _ _ => { s with
      locals := if ok then pokeBytes s.locals m.key (bs.take 128) else s.locals
      localPoison := if ok then setKey m.key poison s.localPoison else s.localPoison
      localFlips := if ok then clearMasks s.localFlips (m.key / 8) else s.localFlips }
  | .slice _ _ => { s with
      slices := if ok then pokeBytes s.slices m.key (bs.take 128) else s.slices
      slicePoison := if ok then setKey m.key poison s.slicePoison else s.slicePoison
      sliceFlips := if ok then clearMasks s.sliceFlips (m.key / 8) else s.sliceFlips }

/-- An error found on read counts and enters the fault history against its core or slice; a corrected one of a slice is a
corrected event of the slice (R116, R130, R367). -/
def State.sramError (s : State) (m : Sram) (corrected : Bool) : State :=
  let step := match s.attempt with | some a => a.plan.step | none => 0
  if corrected then
    let s := s.bump (oSramErr m.die) 15 0 1
    match m with
    | .slice _ _ => s.correctedEvent m.unit step
    | .core _ _ _ => s.logEntry m.unit 1 step true
  else (s.bump (oSramErr m.die) 31 16 1).logFault m.unit 3 step

/-- The errors that SEC-DED finds in a line are counted: one for each corrected word, and one for a line that cannot be
corrected (R116, R130). -/
def State.sramErrors (s : State) (m : Sram) (e : Nat × Bool) : State :=
  let s := (List.range e.1).foldl (fun s _ => s.sramError m true) s
  if e.2 then s.sramError m false else s

/-- A line is read: its bytes, its poison and the state after it (R116). A single-bit error is corrected in what is
delivered; the stored line keeps it until it is written (DESIGN CHOICE, log entry 24). A line that does not exist gives
nothing. -/
def State.sramRead (s : State) (m : Sram) : Option (List Byte × Bool) × State :=
  if !m.ok s.fuses.dies then (none, s)
  else
    let masks := (List.range 16).map (s.sramMask m)
    let e := secded masks
    let t := if e.2 then s.setSramPoison m true else s
    (some (damaged masks (s.sramBytes m), (t.sramPoison m).contains m.key), t.sramErrors m e)

/-- Consecutive lines, for a reader that needs whole rows: the bytes and the OR of their poison. -/
def sramReads (f : Nat → Sram) : Nat → Nat → State → List Byte × Bool × State
  | 0, _, s => ([], false, s)
  | n + 1, l, s =>
    let r := s.sramRead (f l)
    let q := sramReads f n (l + 1) r.2
    let v := r.1.getD (List.replicate 128 0#8, false)
    (v.1 ++ q.1, v.2 || q.2.1, q.2.2)

/-- Bytes from a line on, in whole lines. -/
def State.sramWrites (s : State) (f : Nat → Sram) (line : Nat) (bs : List Byte) (poison : Bool) : State :=
  let ls := chunks 128 bs
  ((List.range ls.length).zip ls).foldl (fun s il =>
    s.sramPut (f (line + il.1)) (il.2 ++ List.replicate (128 - il.2.length) 0#8) poison) s

end Sys2Proof.Machine
end

