-- ==== Sys2Proof/Machine/StepRun.lean ====
section
/-! DEFINITION. The load stage of a step and the batch: nodes, inputs of the rows, page-table snapshot, image, layer records,
bitmaps, the batch table in slices, the shadowed units (R25, R135, R147, R189, R196, R203, R207, R210, R244, R255, R271, R284,
R354), and buffers of a step's work. -/

namespace Sys2Proof.Machine

/-! ## Rows of the plan -/

/-- The tokens that a home keeps for the nodes of a template: head depth(k)'s candidate of rank RANK (R282, R283). -/
def nodeToken (spec : List Word) (cands : List (List Nat)) (k : Nat) : Option Nat :=
  let nodes := fieldAt spec 0 13 8
  let ps := (List.range nodes).map fun j => fieldAt spec (0x90 + 4 * j) 5 0
  (cands.getD (depthOf ps (nodes + 1) k - 1) [])[fieldAt spec (0x90 + 4 * (k - 1)) 11 8]?

/-- A decode row homed here takes its nodes: the tree is cut before the first node without a kept candidate, and at
MAX_LEN (R284). A chunk runs in full, whatever has become of its sequence (R255). -/
def Ctx.cutRow (x : Ctx) (r : LenRow) : LenRow :=
  match x.seq? r.handle with
  | none => r
  | some q =>
    if r.kind = .decode then
      let n := min r.parents.length (q.maxLen - r.committed - 1)
      let n := ((List.range n).find? fun k => (nodeToken x.spec q.cands (k + 1)).isNone).getD n
      { r with parents := r.parents.take n, new := 1 + n }
    else r

/-- The committed lengths come from the page tables (R196). -/
def Ctx.tableRow (x : Ctx) (r : LenRow) : LenRow :=
  match x.table? r.handle with
  | none => r
  | some t => { r with committed := t.committed }

/-- Some penalty parameter differs from its default (R270). -/
def DrawParams.penalises (d : DrawParams) : Bool := d.repPen != one32 || d.presPen != 0#32 || d.freqPen != 0#32

/-- The tokens that a home gives the rows of a plan row: the pending token and the nodes', or the next of the queue. A chunk that a
cancel has overtaken runs with the tokens that it was planned for (R255). -/
def Ctx.rowTokens (x : Ctx) (step : Nat) (q : Seq) (r : LenRow) : List Nat :=
  if r.kind = .decode then
    q.queue.headD 0 :: (List.range r.nodes).map fun k => (nodeToken x.spec q.cands (k + 1)).getD 0
  else if q.left.contains step then q.kept.take r.new else q.queue.take r.new

/-- What this home sends a member with a vocabulary slice, given by its first token and length, about one of its rows: the nodes
and tokens of the row, the penalty entries of the member's slice while a penalty is in force (R270), and the automaton's state. The
manual names the entries; the rest goes with them, since each member forms its rows and counts from them (DESIGN CHOICE, log
entry 24). -/
def Ctx.rowInput (x : Ctx) (step : Nat) (slice : Nat × Nat) (r : LenRow) : Option RowInput :=
  (x.seq? r.handle).map fun q =>
    { handle := r.handle, parents := r.parents, tokens := x.rowTokens step q r
      pen := if q.draw.penalises then q.pen.filter fun e => slice.1 ≤ e.token && e.token < slice.1 + slice.2 else []
      rootPublished := q.rootPublished, auto := q.auto, poison := r.nodes != 0 && q.candsPo }

/-- The parameters of a sequence as this member holds them: a home its own, another member its copy (R279, R280). -/
def Ctx.params (x : Ctx) (handle : Nat) : DrawParams × ConParams :=
  match x.seq? handle, x.table? handle with
  | some q, _ => (q.draw, q.con)
  | none, some t => (t.draw, t.con)
  | none, none => (.default, .default)

/-- A snapshot entry's key: row, logical page, layer and head group. -/
def snapKey (i j l h : Nat) : Nat := ((i * 2 ^ 14 + j) * 2 ^ 10 + l) * 2 ^ 6 + h

/-- The page-table snapshot of the load stage: the pages of every row on this member (R25). -/
def State.snapshotOf (s : State) (x : Ctx) (rows : List LenRow) : List (Nat × Nat) :=
  ((List.range rows.length).zip rows).flatMap fun ir =>
    match x.table? ir.2.handle with
    | none => []
    | some t => (s.rowPages x ir.2).flatMap fun j =>
        x.planes.map fun lh =>
          (snapKey ir.1 j lh.1 lh.2, (s.ptEntry x t (localIndex x.runLog2 s.members.length j) lh.1 lh.2).page)

/-- What the check of R196 finds in one row: the entries that fail, as layer-wise pages, which are masked in the step (R197), and
whether one of them is a page that R203 left unallocated, and whether another one is not. -/
def State.checkRow (s : State) (c : Nat) (x : Ctx) (recs : List LayerRec) (i : Nat) (r : LenRow) : List Nat × Bool × Bool :=
  match x.table? r.handle with
  | none => ([], false, false)
  | some t =>
    let fs := s.failingEntries x recs t r
    let un := s.uncovered c r.handle r.committed r.new
    (fs.map fun f => snapKey i f.1 f.2.1 f.2.2, fs.any (fun f => un.contains f.1), fs.any fun f => !un.contains f.1)

/-! ## Shadowed units -/

/-- The units of a die in rank order: running cores, then the shared engines (R354). -/
def State.unitsRanked (s : State) (d : Fin 8) : List UnitName :=
  ((List.range 48).filter fun n => s.coreRuns d.val n).map (fun n => (⟨d, 1, n⟩ : UnitName)) ++
    (List.range 6).map fun k => ⟨d, 5, k⟩

/-- The units shadowed in a step, and the controllers that check themselves in it (R354). -/
def State.shadowedIn (s : State) (step : Nat) : List UnitName :=
  (s.diesInService.filter fun d => !s.dieInReset d).flatMap fun d =>
    let us := s.unitsRanked (Fin.ofNat 8 d)
    let own : List UnitName := if step % s.period = 0 then [⟨Fin.ofNat 8 d, 5, 6⟩] else []
    (((List.range us.length).zip us).filter fun ku => ku.1 % s.period = step % s.period).map (·.2) ++ own

/-! ## The attempt -/

/-- The attempt of a plan before any work: the load stage waits. -/
def Attempt.fresh (p : Plan) (c started : Nat) : Attempt :=
  { plan := p, ctx := c, started := started, img := [], layers := [], stage := 0, cycle := 0, phase := 0, todo := [.load],
    ending := false, wants := [], waits := false, lent := [], claims := [], lags := [], upsets := [], windows := [], masked := [],
    snapshot := [], bufs := [], formed := [], writes := [], wpoison := [], tiles := [], held := [], spills := [], granted := [],
    scores := [], sends := [], combines := [], bitmaps := [], loaded := false, walks := [], parts := [], inputs := [], gathered := [],
    heads := [], exits := [], states := [], tainted := [], rowsRead := [], results := [], events := .none, route := .none, sig := 0, half := 0, logged := [],
    shadowed := [], faults := [], failed := none, overran := false, sealed := false, seals := [], sealTimers := [] }

/-- The switch plan at the front waits for every die's weight window (R382). -/
def State.switchPending (s : State) (p : Plan) : Bool :=
  s.lastJob != 0 && p.job != s.lastJob && s.diesInService.any fun d => !s.switchWait.contains d

/-- The package may start the plan at the front: its predecessor has committed, no step is in flight, and the package is
on, every die in service is out of reset (R434), and every record of the last commit is written or held (R307; R150, R373,
R393). -/
def State.mayStart (s : State) (p : Plan) (x : Ctx) : Bool :=
  s.attempt.isNone && s.pkg = .on && !s.departed && !s.degraded &&
    !(s.diesInService.any fun d => s.dieInReset d) && s.portA.held.length ≤ 4096 && s.portB.held.length ≤ 4096 && p.start ≤ s.time && !s.switchPending p &&
    attemptKey p.step p.attempt ≥ s.attemptFloor p.job && p.step = x.step + 1

/-- The vocabulary slice of the member with an index: its first token and its length (R268). -/
def State.sliceOfMember (s : State) (v idx : Nat) : Nat × Nat :=
  let p := max 1 s.members.length
  (idx * v / p, (idx + 1) * v / p - idx * v / p)

/-- The vocabulary slice of this member. -/
def State.vocabSlice (s : State) (v : Nat) : Nat × Nat := s.sliceOfMember v s.me

/-- A step starts: policies and values of the plan come into force (the lead may hold newer ones, for its next plan: R258), rows
take their lengths and nodes, a plan that came after the boundary takes its pages (R203), and each home sends every member its
rows' inputs. -/
def State.loadStage (s : State) (c : Nat) (x : Ctx) (p : Plan) : State :=
  let x := if s.isLead then x else { x with policy := p.policy, groupMax := p.groups, bench := p.bench, ratio := p.ratio }
  let rows := p.rows.map fun r => x.cutRow (x.tableRow r)
  let p := { p with rows := rows }
  let s := ({ s with resting := [] }.setCtx c x).setPlanes p.mask
  let s := rows.foldl (fun s r => s.allocRow c r r.committed) s
  let v := Config.vocab x.job
  let a := { Attempt.fresh p c s.time with
    shadowed := s.shadowedIn p.step, inputs := rows.filterMap (x.rowInput p.step (s.vocabSlice v)), half := s.logHalf }
  ({ s with attempt := some a } : State).emits (rows.flatMap fun r => s.peers.filterMap fun n =>
    (x.rowInput p.step (s.sliceOfMember v (s.memberIndex n)) r).map (.rowInput n))

/-- The first batch-table row of a sequence of the plan: rows run on from sequence to sequence. -/
def planBase (p : Plan) (seq : Nat) : Nat := ((p.rows.take seq).map (·.new)).foldl (· + ·) 0

/-- The batch-table row of row `i` of a sequence. -/
def planRow (p : Plan) (seq i : Nat) : Nat := planBase p seq + i

/-- The sequence index and row of every batch-table row. -/
def planBatch (p : Plan) : List (Nat × Nat) :=
  ((List.range p.rows.length).zip p.rows).flatMap fun r => (List.range r.2.new).map fun i => (r.1, i)

/-- The layer after which a sequence exits, where it does (R239). -/
def Attempt.exitLayer (a : Attempt) (seq : Nat) : Option Nat := (a.exits.find? fun e => e.1 = seq).map (·.2.2)

/-- The sequence's rows run as KV-fill rows in a layer (R240). -/
def Attempt.kvFillAt (a : Attempt) (seq layer : Nat) : Bool :=
  match a.exitLayer seq with
  | some l => l < layer
  | none => false

def Attempt.input? (a : Attempt) (handle : Nat) : Option RowInput := a.inputs.find? fun r => r.handle = handle

/-! ## Buffers -/

def State.buf (s : State) (b : Nat) : Option Buf := s.attempt.bind fun a => assoc b a.bufs

def State.setBuf (s : State) (b : Nat) (v : Buf) : State := s.modAttempt fun a => { a with bufs := enlist b v a.bufs }

/-- A buffer and the operand descriptor that its rows were formed under. -/
def State.setFormed (s : State) (b desc : Nat) : State := s.modAttempt fun a => { a with formed := enlist b desc a.formed }

def State.bufRows (s : State) (b : Nat) : List FRow :=
  match s.buf b with
  | some (.rows r) => r
  | _ => []

def State.bufPlane (s : State) (b : Nat) : List PlaneRow × Fmt × Bool :=
  match s.buf b with
  | some (.plane r f wide) => (r, f, wide)
  | _ => ([], .e2m1, false)

def FRow.empty : FRow := ⟨[]⟩

def rowAt (rs : List FRow) (i : Nat) : FRow := rs.getD i FRow.empty

/-- A list with an element at an index, filled up with `d`. -/
def putAt {α : Type} (d : α) (l : List α) (i : Nat) (v : α) : List α :=
  (l ++ List.replicate (i + 1 - l.length) d).set i v

def State.putRow (s : State) (b i : Nat) (r : FRow) : State := s.setBuf b (.rows (putAt FRow.empty (s.bufRows b) i r))

/-- Part of a row, from column `k` on, each value with its poison. -/
def State.putCols (s : State) (b i k : Nat) (vs : List (Word × Bool)) : State :=
  let r := rowAt (s.bufRows b) i
  s.putRow b i ⟨splice (r.cells ++ List.replicate (k + vs.length - r.cells.length) (0#32, false)) k vs⟩

def State.addEvents (s : State) (e : QEvents) : State := s.modAttempt fun a => { a with events := a.events.add e }

/-! ## Memory and signature -/

/-- A line that a share writes adds to the step signature (R353). -/
def State.sign (s : State) (line : Nat) (bs : List Byte) : State :=
  s.modAttempt fun a => { a with sig := (a.sig + lineSig line bs) % 2 ^ 64 }

/-- The lines of a tentative write add to the signature as they stand after it. -/
def State.signWrite (s : State) (c : Nat) (x : Ctx) (a n : Nat) : State :=
  (List.range ((a + n - 1) / 128 + 1 - a / 128)).foldl (fun s k =>
    let l := a / 128 + k
    s.sign l (s.stepLine c x l 0).1) s

/-- A write of the step: an access fault is named in the seal (R157 to R159). -/
def State.workWrite (s : State) (c : Nat) (x : Ctx) (a : Nat) (bs : List Byte) (poison : Bool) : State :=
  match s.stepWrite c x a bs poison with
  | .ok s => if bs.isEmpty then s else s.signWrite c x a bs.length
  | .error st => s.stepFault wholeCtx st

/-- A read of the step: an access fault is named in the seal, and gives nothing. -/
def State.workRead (s : State) (c : Nat) (x : Ctx) (a n : Nat) : Option (List Byte × Bool) × State :=
  match s.stepRead c x a n with
  | .ok r => (some (r.1, r.2.1), r.2.2)
  | .error st => (none, s.stepFault wholeCtx st)

/-- A read of the step line by line, from a line's start on: each line keeps its own poison. -/
def workLines (c : Nat) (x : Ctx) : Nat → Nat → State → Option (List (List Byte × Bool)) × State
  | 0, _, s => (some [], s)
  | n + 1, a, s =>
    match s.workRead c x a 128 with
    | (none, s) => (none, s)
    | (some r, s) => match workLines c x n (a + 128) s with
      | (some l, s) => (some (r :: l), s)
      | (none, s) => (none, s)

/-- A read for the sampler (R271, R272): any fault is `PAGE_FAULT`, and poison is consumed (R170). -/
def State.workTable (s : State) (c : Nat) (x : Ctx) (a n : Nat) : Option (List Byte) × State :=
  match s.stepRead c x a n with
  | .ok r => (some r.1, if r.2.1 then r.2.2.stepFault wholeCtx stPoisoned else r.2.2)
  | .error _ => (none, s.stepFault wholeCtx stPage)

/-- Poisoned data reaches a consumer of R170. -/
def State.consumes (s : State) (poison : Bool) : State := if poison then s.stepFault wholeCtx stPoisoned else s

/-- The work cannot go on until something has come. -/
def State.wait (s : State) : State := s.modAttempt fun a => { a with waits := true }

/-! ## The batch table in slices (R25, R207) -/

/-- The rows of the attempt with the kinds that they run as now: an exiting sequence's are KV-fill rows (R240). -/
def Attempt.tableRows (a : Attempt) : List LenRow :=
  ((List.range a.plan.rows.length).zip a.plan.rows).map fun ir =>
    if (a.exitLayer ir.1).isSome then { ir.2 with kind := .kvFill } else ir.2

/-- The length table stands in the shared slices of every die, two rows to a line, where the jig places it (log entry 16). -/
def State.putTable (s : State) : State :=
  match s.attempt with
  | none => s
  | some a =>
    let bs := if a.img.isEmpty then [] else a.tableRows.flatMap LenRow.bytes
    (s.diesInService.filter fun d => !s.dieInReset d).foldl (fun s d => s.sramWrites (Sram.slice d) (Config.tableLine a.img) bs false) s

/-- The page-table snapshot stands in the shared slices of every die beside the length table, eight bytes to an entry in the order
of rows, pages, layers and head groups (R25, R113; log entry 16). -/
def State.putSnapshot (s : State) : State :=
  match s.attempt with
  | none => s
  | some a =>
    let bs := if a.img.isEmpty then [] else a.snapshot.flatMap fun e => leBytes 8 e.2
    (s.diesInService.filter fun d => !s.dieInReset d).foldl (fun s d => s.sramWrites (Sram.slice d) (Config.snapshotLine a.img) bs false) s

/-- An engine of a die reads a line of the batch table from slices: poison there is consumed (R116, R170). -/
def State.readBatch (s : State) (die line : Nat) : State :=
  match s.sramRead (.slice die line) with
  | (some r, s) => s.consumes r.2
  | (none, s) => s

/-- The length-table row of a sequence of the plan. -/
def State.readLenRow (s : State) (a : Attempt) (die seq : Nat) : State := s.readBatch die (Config.tableLine a.img + seq / 2)

/-- The snapshot entry of a key. -/
def State.readSnapshot (s : State) (a : Attempt) (die key : Nat) : State :=
  match a.snapshot.findIdx? (·.1 = key) with
  | none => s
  | some k => s.readBatch die (Config.snapshotLine a.img + k / 16)

/-- The bits of a bitmap for `n` tokens from `first` on (R271). -/
def bitsFrom (first n : Nat) (bs : List Byte) : List Bool :=
  (List.range n).map fun k => ((bs[(first + k) / 8 - first / 8]?).getD 0#8).getLsbD ((first + k) % 8)

/-- The bytes of a bitmap that cover `n` tokens from `first` on. -/
def bitmapSpan (first n : Nat) : Nat := if n = 0 then 0 else (first + n - 1) / 8 + 1 - first / 8

/-- Allowed tokens of this member's slice by a bitmap; none where its read faults. -/
def State.readBitmap (s : State) (c : Nat) (x : Ctx) (addr : Nat) : Option (List Bool) × State :=
  let v := s.vocabSlice (Config.vocab x.job)
  let r := s.workTable c x (addr + v.1 / 8) (bitmapSpan v.1 v.2)
  (r.1.map (bitsFrom v.1 v.2), r.2)

/-- The load stage reads the bitmap of every sequence whose constraint is one (R271). -/
def State.loadBitmaps (s : State) (c : Nat) (x : Ctx) (rows : List LenRow) : State :=
  ((List.range rows.length).zip rows).foldl (fun s ir =>
    let con := (x.params ir.2.handle).2
    if con.constraint != 1 then s
    else match s.readBitmap c x con.conAddr with
      | (some l, s) => s.modAttempt fun a => { a with bitmaps := enlist ir.1 l a.bitmaps }
      | (none, s) => s) s

/-- A decode row with the nodes that its home sent. -/
def Attempt.withInput (a : Attempt) (r : LenRow) : LenRow :=
  match a.input? r.handle with
  | some i => if r.kind = .decode then { r with parents := i.parents, new := 1 + i.parents.length } else r
  | none => r

/-- The image of the plan as it is read from the jig area; poison is consumed (R141, R170). -/
def State.loadImage (s : State) (x : Ctx) (p : Plan) : List Byte × State :=
  match x.jigAt p.slot p.digest with
  | none => ([], s)
  | some (first, bs) =>
    let r := s.readImage x first bs.length
    (r.1, r.2.2.consumes r.2.1)

/-- What the manager's tables show when they are read for a step is named in the seal (R157, R158, R170). -/
def State.loadTables (s : State) (c : Nat) (x : Ctx) : State :=
  let t := ({ s with tableFaults := [] } : State).readTables c x
  t.tableFaults.foldl (fun s f => s.stepFault wholeCtx f.2) { t with tableFaults := s.tableFaults }

/-- Records of 640 bytes one after another, each with the poison of its own lines. -/
def readRecs (c : Nat) (x : Ctx) : Nat → Nat → State → List LayerRec × State
  | 0, _, s => ([], s)
  | n + 1, a, s =>
    match s.workRead c x a 640 with
    | (none, s) => ([], s)
    | (some r, s) =>
      let q := readRecs c x n (a + 640) s
      (.ofBytes r.1 r.2 :: q.1, q.2)

/-- The layer records as they stand (R210). -/
def State.loadLayers (s : State) (c : Nat) (x : Ctx) : List LayerRec × State := readRecs c x x.layers x.attnBase s

/-- The stages of the attempt's jig. -/
def Attempt.stages (a : Attempt) : List (List Byte) := jigStageTable a.img
def Attempt.stageCount (a : Attempt) : Nat := a.stages.length

/-- Each die's translation cache takes the entries of the pages that its schedule entries of the next stage name, one stage ahead of
their use (R161). -/
def State.streamPages (s : State) (a : Attempt) : State :=
  match s.ctx a.ctx, (stageSpans a.img)[a.stage + 1]? with
  | some x, some span => s.diesCarried.foldl (fun s d =>
      (stagePages a.img span d).foldl (fun s g => s.cacheEntry (8 + d) 2048 a.ctx g (x.page g)) s) s
  | _, _ => s

/-- The jig store of each die holds the schedule entries and core programs of the current stage and of the next (R147). -/
def State.streamJig (s : State) : State :=
  match s.attempt with
  | none => s
  | some a =>
    let spans := stageSpans a.img
    let es := jigSchedule a.img
    let s := s.streamPages a
    { s with jigStore := s.diesCarried.flatMap fun d => ([a.stage, a.stage + 1].filter (· < a.stageCount)).map fun i =>
        (d, i, (es.filter fun e => e.1 = d && !(burstIn (spans.getD i (0, 0)) e.2).isEmpty).map (·.2),
          Config.corePrograms (jigSec a.img 5) i d) }

/-- The load stage (R25): it waits for the inputs that other homes send. A page left unallocated is named with `NO_PAGES`, and one
whose entry fails its check with `PAGE_TABLE_CHANGED` (R197, R203). -/
def State.workLoad (s : State) (a : Attempt) (x : Ctx) : State :=
  if a.plan.rows.any fun r => !s.isHome r.handle && s.peers.contains (s.homeNode r.handle) && (a.input? r.handle).isNone then s.wait
  else
    let rows := a.plan.rows.map a.withInput
    let s := s.loadTables a.ctx x
    let l := s.loadLayers a.ctx x
    let found := ((List.range rows.length).zip rows).map fun ir => (ir.2.handle, l.2.checkRow a.ctx x l.1 ir.1 ir.2)
    let s := found.foldl (fun s f =>
      let s := if f.2.2.2 then s.stepFault f.1 stTable else s
      if f.2.2.1 then s.stepFault f.1 stNoPages else s) l.2
    let m := s.loadImage x a.plan
    let snap := m.2.snapshotOf x rows
    let s := m.2.modAttempt fun a => { a with
      plan := { a.plan with rows := rows }, layers := l.1, img := m.1, masked := found.flatMap (·.2.1), snapshot := snap, loaded := true }
    (((s.loadBitmaps a.ctx x rows).putTable).putSnapshot).streamJig

end Sys2Proof.Machine
end

