-- ==== Sys2Proof/Machine/Lines.lean ====
section
/-! DEFINITION. Lines that move inside the package: service accesses to slices, ports and their buffer lines, and the crossbar's
schedule (R16, R103, R115, R117 to R124, R128, R137, R138). -/

namespace Sys2Proof.Machine

/-! ## Service accesses (R16, R119, R124) -/

/-- The slice group of a line is clock-gated or powered down: its domain, the gating of IDLE, the die's service and reset, and the
enable in `CLK_EN_BLK_d` (R393, R421). -/
def State.groupGated (s : State) (die line : Nat) : Bool :=
  s.dieOut die || s.dieInReset die || !bit (s.reg (oClkEnBlk die)) (sliceGroup line) || s.pkg = .idle ||
    !s.domainOn (.sliceGroup die (sliceGroup line))

/-- The line lies in a slice region that a jig of a resident context declares (R119). A context is resident while frames belong to
it, which is as long as it exists (R186). -/
def State.declaredHere (s : State) (die line : Nat) : Bool :=
  s.ctxs.any fun cx => (cx.2.jigs.map (·.2) ++ cx.2.oldJigs.map (·.2)).any fun img =>
    (Config.jigRegions img die).any fun r => r.1 ≤ line && line < r.1 + r.2

/-- A service access is turned away: the die does not exist or the offset lies beyond the slice space (`DENIED`), the group is gated
or powered down, as all are on a die out of service (`GATED`), or no route leads there (`DENIED`). -/
def State.serviceFault (s : State) (src die off : Nat) : Option Nat :=
  if s.fuses.dies ≤ die || 0x0C00_0000 ≤ off then some stDenied
  else if s.groupGated die (off / 128) then some stGated
  else if (s.route src die).isNone then some stDenied
  else none

def State.serviceOut (s : State) (src die off status : Nat) (bs : List Byte) (poison : Bool) : State :=
  s.emit (.service die off ((s.route src die).getD []) status bs poison)

/-- A service read returns the line as it stands, in a declared region too (R119). -/
def State.serviceRead (s : State) (src die off : Nat) : State :=
  match s.serviceFault src die off with
  | some st => s.serviceOut src die off st [] false
  | none => match s.sramRead (.slice die (off / 128)) with
    | (some r, s) => s.serviceOut src die off stOk r.1 r.2
    | (none, s) => s.serviceOut src die off stDenied [] false

/-- A service write into a declared region completes with `DENIED` and changes nothing (R119). -/
def State.serviceWrite (s : State) (src die off : Nat) (bs : List Byte) (poison : Bool) : State :=
  match s.serviceFault src die off with
  | some st => s.serviceOut src die off st [] false
  | none =>
    if s.declaredHere die (off / 128) then s.serviceOut src die off stDenied [] false
    else (s.sramPut (.slice die (off / 128)) bs poison).serviceOut src die off stOk [] false


/-! ## Ports (R137, R138) -/

/-- The core of a core port, and the slice of a slice port. -/
def portCore (p : Nat) : Nat := p / 32 * 6 + p % 32
def portSlice (p : Nat) : Nat := p / 32 * 4 + (p % 32 - 6)

/-- What a port's line is: a line of a local SRAM or of the slice behind the port, a line of the context range, or a buffer line
of the engine, bridge or link at the port. A core that does not run, and an island without a clock (R421, R425), holds nothing and
takes nothing; a line of another slice is none of the port's. -/
inductive PortLine where
  | sram (m : Sram)
  | hbm (addr : Nat)
  | buffer (key : Nat)
  | stopped
  | none
  deriving DecidableEq, Repr

/-- The key of a buffer line's first byte. -/
def bufferKey (die p line : Nat) : Nat := ((die * 256 + p) * 2 ^ 32 + line) * 128

def State.lineAt (s : State) (die p line : Nat) : PortLine :=
  let i := p % 32
  if i ≤ 5 then if s.coreWorks die (portCore p) then .sram (.core die (portCore p) line) else .stopped
  else if i ≤ 9 then
    if sliceOf line != portSlice p then .none
    else if s.clocked die (48 + sliceGroup line) then .sram (.slice die line) else .stopped
  else if i ≤ 11 then if s.clocked die 71 then .hbm (128 * line) else .stopped
  else .buffer (bufferKey die p line)

/-- A line as the port that owns it reads it. -/
def State.portLine (s : State) (c : Nat) (x : Ctx) (die p line : Nat) : Option (List Byte × Bool) × State :=
  match s.lineAt die p line with
  | .sram m => s.sramRead m
  | .hbm a => s.workRead c x a 128
  | .buffer k => (some ((List.range 128).map fun i => peek 0#8 s.lines (k + i), s.linePoison.contains k), s)
  | .stopped | .none => (none, s)

def State.putBuffer (s : State) (k : Nat) (bs : List Byte) (poison : Bool) : State :=
  { s with
    lines := pokeBytes s.lines k (bs.take 128)
    linePoison := setKey k poison s.linePoison }

/-- The port at the other end of a dovetail port's link, on the neighbour's die; none for any other port, and for a neighbour out
of service. -/
def State.farPort (s : State) (die p : Nat) : Option (Nat × Nat) :=
  let i := p % 32
  if i < 18 || 24 ≤ i then none
  else match linkDie s.fuses.dies die ((i - 18) / 2) with
    | none => none
    | some e => if s.dieOut e then none
      else (linkTo s.fuses.dies e die).map fun l => (e, p / 32 * 32 + 18 + 2 * l + (i - 18) % 2)

/-- A line arrives at a port. What goes into a dovetail port stands in the buffer of the port at the link's other end, for the
next hop's own entry (R16, R137). -/
def State.putPortLine (s : State) (c : Nat) (x : Ctx) (die p line : Nat) (bs : List Byte) (poison : Bool) : State :=
  match s.lineAt die p line with
  | .sram m => s.sramPut m bs poison
  | .hbm a => s.workWrite c x a bs poison
  | .buffer k => match s.farPort die p with
    | some (e, q) => s.putBuffer (bufferKey e q line) bs poison
    | none => if 18 ≤ p % 32 then s else s.putBuffer k bs poison
  | .stopped | .none => s

/-- A line that leaves a core or a shared engine belongs to its share (R353). -/
def unitPort (p : Nat) : Bool := p % 32 ≤ 5 || (12 ≤ p % 32 && p % 32 ≤ 14)

/-! ## The schedule (R122, R128, R137) -/

/-- One transfer: its crossbar cycle of the step, the die of its source, its entry and its frame within the burst. -/
structure Move where
  cycle : Nat
  die : Nat
  entry : List Byte
  frame : Nat
  deriving DecidableEq, Repr

/-- A port direction carries one transfer in a slot, so cycle, die and source port name a transfer. -/
def Move.key (m : Move) : Nat := (m.cycle * 8 + m.die) * 256 + seSrc m.entry
def Move.srcLine (m : Move) : Nat := seSrcLine m.entry m.frame
def Move.dstLine (m : Move) : Nat := seDstLine m.entry m.frame

/-- The segments that a transfer takes part in, as die * 8 + segment: those of its two ports (R120, R123, R128). -/
def Move.segs (m : Move) : List Nat := [m.die * 8 + seSrc m.entry / 32, seDstDie m.entry * 8 + seDst m.entry / 32]

/-- The transfers of a stage in a span of cycles, from the entries that stand in the jig stores. -/
def State.movesIn (s : State) (stage : Nat) (span : Nat × Nat) : List Move :=
  (s.jigStore.filter (·.2.1 = stage)).flatMap fun d => d.2.2.1.flatMap fun e =>
    (burstIn span e).map fun k => ⟨256 * (seFirst e + k) + seSlot e, d.1, e, k⟩

/-- The stage's first crossbar cycle in the step, and its length. -/
def Attempt.span (a : Attempt) : Nat × Nat := (stageSpans a.img).getD a.stage (0, 0)

/-! ### Transfers that engines take (R103, R113, R231) -/

/-- The window entries of the attempt's stage with their indices. -/
def Attempt.windowsNow (a : Attempt) : List (Nat × List Byte) :=
  match a.stages[a.stage]? with
  | none => []
  | some st => ((List.range (stWindows st)).map (· + stFirst st)).filterMap fun i => ((jigWindows a.img)[i]?).map fun w => (i, w)

/-- The window holds a crossbar cycle of the stage. -/
def windowHolds (w : List Byte) (cycle : Nat) : Bool := wStart w ≤ cycle && cycle < wStart w + wLength w

/-- A window of an engine is open at a crossbar cycle of the stage: of a core's engine, or of a site's recompute. -/
def Attempt.openWindow (a : Attempt) (engine die cycle : Nat) (which : List Byte → Bool) : Bool :=
  a.windowsNow.any fun iw => wEngine iw.2 = engine && wDie iw.2 = die && which iw.2 && windowHolds iw.2 cycle

/-- The transfer is a slot whose address is formed at run time: from an HBM port to a core in a window of its attention walker
(R113), or from a slice port to a core in a window of its expert tile group (R231). The schedule moves nothing in it. -/
def Attempt.reserved (a : Attempt) (m : Move) : Bool :=
  let d := seDst m.entry
  d % 32 ≤ 5 &&
    ((hbmPort (seSrc m.entry) && a.openWindow 0 (seDstDie m.entry) (m.cycle - a.span.1) fun w => wUnit w = portCore d) ||
     (6 ≤ seSrc m.entry % 32 && seSrc m.entry % 32 ≤ 9 &&
       a.openWindow 1 (seDstDie m.entry) (m.cycle - a.span.1) fun w => wUnit w = portCore d))

/-- The transfers of the stage that have not fired and that no engine has taken. -/
def State.openMoves (s : State) (a : Attempt) : List Move :=
  (s.movesIn a.stage (a.span.1 + a.cycle, a.span.2 - a.cycle)).filter fun m => !a.claims.contains m.key

/-- The ports of a unit, on its die (R120, R138). -/
structure Unit1 where
  die : Nat
  ports : List Nat
  deriving DecidableEq, Repr

def corePort (core : Nat) : Nat := core / 6 * 32 + core % 6
def coreUnit1 (die core : Nat) : Unit1 := ⟨die, [corePort core]⟩
def planeUnit1 (die : Nat) : Unit1 := ⟨die, (List.range 8).flatMap fun g => [32 * g + 12, 32 * g + 13]⟩
/-- The shared engine of a segment. -/
def engineUnit1 (die seg : Nat) : Unit1 := ⟨die, [32 * seg + 14]⟩

/-- A unit receives, or sends, in a transfer. -/
def Unit1.takes (u : Unit1) (m : Move) : Bool := seDstDie m.entry = u.die && u.ports.contains (seDst m.entry)
def Unit1.gives (u : Unit1) (m : Move) : Bool := m.die = u.die && u.ports.contains (seSrc m.entry)

/-- A slice port of the slice that holds a line. -/
def slicePort (p line : Nat) : Bool := 6 ≤ p % 32 && p % 32 ≤ 9 && portSlice p = sliceOf line

/-- The transfers that the schedule makes of a line: read from HBM or written there, read from a slice or written there. -/
def Unit1.fromHbm (u : Unit1) (l : Nat) (m : Move) : Bool := u.takes m && hbmPort (seSrc m.entry) && m.srcLine = l
def Unit1.toHbm (u : Unit1) (l : Nat) (m : Move) : Bool := u.gives m && hbmPort (seDst m.entry) && m.dstLine = l
def Unit1.fromSlice (u : Unit1) (die l : Nat) (m : Move) : Bool :=
  u.takes m && m.die = die && slicePort (seSrc m.entry) l && m.srcLine = l
def Unit1.toSlice (u : Unit1) (die l : Nat) (m : Move) : Bool :=
  u.gives m && seDstDie m.entry = die && slicePort (seDst m.entry) l && m.dstLine = l

/-- An engine takes a transfer of its stage, once (R103): none where the jig has planned none for it. -/
def State.claim (s : State) (want : Attempt → Move → Bool) : Option State :=
  match s.attempt with
  | none => none
  | some a => ((s.openMoves a).find? (want a)).map fun m => s.modAttempt fun a => { a with claims := m.key :: a.claims }

/-- A fixed transfer: none of those whose address is formed at run time. -/
def fixed (want : Move → Bool) (a : Attempt) (m : Move) : Bool := !a.reserved m && want m

/-- Lines of context memory for an engine, from line `l` on, each in a slot of the schedule. -/
def hbmLines (c : Nat) (x : Ctx) (want : Nat → Attempt → Move → Bool) : Nat → Nat → State → Option (List (List Byte × Bool)) × State
  | 0, _, s => (some [], s)
  | n + 1, l, s =>
    match s.claim (want l) with
    | none => (none, s)
    | some s => match s.workRead c x (128 * l) 128 with
      | (none, s) => (none, s)
      | (some r, s) => match hbmLines c x want n (l + 1) s with
        | (some q, s) => (some (r :: q), s)
        | (none, s) => (none, s)

/-- Lines of a core's local SRAM. -/
def coreLines (die core : Nat) : Nat → Nat → State → Option (List (List Byte × Bool)) × State
  | 0, _, s => (some [], s)
  | n + 1, l, s =>
    match s.sramRead (.core die core l) with
    | (none, s) => (none, s)
    | (some r, s) => match coreLines die core n (l + 1) s with
      | (some q, s) => (some (r :: q), s)
      | (none, s) => (none, s)

/-- Lines of a die's slice space for an engine. -/
def sliceLinesFor (die : Nat) (want : Nat → Attempt → Move → Bool) : Nat → Nat → State → Option (List (List Byte × Bool)) × State
  | 0, _, s => (some [], s)
  | n + 1, l, s =>
    match s.claim (want l) with
    | none => (none, s)
    | some s => match s.sramRead (.slice die l) with
      | (none, s) => (none, s)
      | (some r, s) => match sliceLinesFor die want n (l + 1) s with
        | (some q, s) => (some (r :: q), s)
        | (none, s) => (none, s)

/-- The bytes of lines, each with the poison of its line. -/
def cellsOf (ls : List (List Byte × Bool)) : List (Byte × Bool) := ls.flatMap fun l => l.1.map fun b => (b, l.2)

/-- How many lines `n` bytes at a byte address touch. -/
def lineSpan (a n : Nat) : Nat := if n = 0 then 0 else (a + n - 1) / 128 + 1 - a / 128

/-- Bytes of context memory for a unit, each with the poison of its line. -/
def State.unitRead (s : State) (c : Nat) (x : Ctx) (u : Unit1) (a n : Nat) : Option (List (Byte × Bool)) × State :=
  let r := hbmLines c x (fun l => fixed (u.fromHbm l)) (lineSpan a n) (a / 128) s
  (r.1.map fun ls => window (a % 128) n (cellsOf ls), r.2)

/-- Bytes with their poison cut at line boundaries, the first at byte address `a`. -/
def cutLines : Nat → Nat → List (Byte × Bool) → List (Nat × List Byte × Bool)
  | 0, _, _ => []
  | n + 1, a, bs =>
    if bs.isEmpty then []
    else
      let k := min bs.length (128 - a % 128)
      let p := bs.take k
      (a, p.map (·.1), p.any (·.2)) :: cutLines n (a + k) (bs.drop k)

/-- Bytes that a unit writes to context memory: each line in a slot of the schedule, with the poison of its own bytes (R169). A line
that the jig has planned no transfer for does not leave the unit. -/
def State.unitWrite (s : State) (c : Nat) (x : Ctx) (want : Nat → Attempt → Move → Bool) (a : Nat) (bs : List (Byte × Bool)) : State :=
  (cutLines (lineSpan a bs.length) a bs).foldl (fun s p =>
    match s.claim (want (p.1 / 128)) with
    | none => s
    | some s => s.workWrite c x p.1 p.2.1 p.2.2) s

/-- Bytes into one SRAM line from an offset on: the line is read, merged and written. -/
def State.sramPart (s : State) (m : Sram) (off : Nat) (bs : List Byte) (poison : Bool) : State :=
  if off = 0 && bs.length = 128 then s.sramPut m bs poison
  else match s.sramRead m with
    | (some r, s) => s.sramPut m (splice r.1 off bs) (r.2 || poison)
    | (none, s) => s

/-- A slice line that a share writes adds to the step signature as it stands then (R353). -/
def State.signSlice (s : State) (die line : Nat) : State := s.sign line (s.sramBytes (.slice die line))

/-- Bytes that a unit writes to slices from a line on, in the same way. -/
def State.sliceWrite (s : State) (u : Unit1) (die line off : Nat) (bs : List (Byte × Bool)) : State :=
  (cutLines (lineSpan off bs.length) (128 * line + off) bs).foldl (fun s p =>
    let l := p.1 / 128
    match s.claim (fun a m => fixed (u.toSlice die l) a m) with
    | none => s
    | some s => (s.sramPart (.slice die l) (p.1 % 128) p.2.1 p.2.2).signSlice die l) s

/-- `n` transfers of one kind, all or none. -/
def claims (want : Attempt → Move → Bool) : Nat → State → Option State
  | 0, s => some s
  | n + 1, s => (s.claim want).bind (claims want n)

/-- Lines that a unit sends over the fabric to an address add to the step signature (R353). -/
def State.signLines (s : State) (addr : Nat) (bs : List Byte) : State :=
  let ls := chunks 128 bs
  ((List.range ls.length).zip ls).foldl (fun s kl => s.sign (addr / 128 + kl.1) (kl.2 ++ List.replicate (128 - kl.2.length) 0#8)) s

/-- Data of the step goes to the members of a list, of which the first is this package, in requests of at most 8,192 bytes
(R322, R333). -/
def State.multicast (s : State) (a : Attempt) (x : Ctx) (dests : List Nat) (offset : Nat) (bs : List (Byte × Bool)) : State :=
  if dests.length ≤ 1 then s
  else
    let cs := chunks 8192 bs
    ((List.range cs.length).zip cs).foldl (fun s kc =>
      let data := kc.2.map (·.1)
      ((children dests.length 0).foldl (fun s i =>
        s.sendRequest a.ctx x.job (dests.getD i 0xFFF) (offset + 8192 * kc.1) (.mcast false dests i data) (kc.2.any (·.2)) .step) s).signLines
          (offset + 8192 * kc.1) data) s

/-! ### Transfers that the schedule makes -/

/-- A line of context memory is on a fabric-tier page and the lender has not sent it (R181). -/
def State.lentMissing (s : State) (a : Attempt) (x : Ctx) (l : Nat) : Bool :=
  entryFabric (x.page (pageOf (128 * l))) && (s.overlay a.ctx l).isNone && (assoc l a.lent).isNone

/-- The source buffer holds its line and the destination has room (R128): a core that does not run has neither, and a lender's line
is there once it has come. A segment without a clock holds (R425). -/
def State.canFire (s : State) (a : Attempt) (x : Ctx) (m : Move) : Bool :=
  m.segs.all (fun g => s.clocked (g / 8) (56 + g % 8)) && (a.reserved m ||
    ((match s.lineAt m.die (seSrc m.entry) m.srcLine with
      | .stopped => false
      | .hbm ad => !s.lentMissing a x (ad / 128)
      | _ => true) &&
     s.lineAt (seDstDie m.entry) (seDst m.entry) m.dstLine != .stopped))

/-- Every source line of one cycle is read before any is written (R115, R118). -/
def readMoves (c : Nat) (x : Ctx) : List Move → State → List (Move × List Byte × Bool) × State
  | [], s => ([], s)
  | m :: ms, s =>
    match s.portLine c x m.die (seSrc m.entry) m.srcLine with
    | (none, s) => readMoves c x ms s
    | (some r, s) =>
      let q := readMoves c x ms s
      ((m, r) :: q.1, q.2)

/-- The destination checks the line that arrives: bits that turned over under way are corrected, or poison it (R116, R348). What is
found is counted against the SRAM line that it was meant for, where there is one (DEDUCED, log entry 24). -/
def State.checkMove (s : State) (m : Move) (bs : List Byte) (poison : Bool) : List Byte × Bool × State :=
  match s.attempt with
  | none => (bs, poison, s)
  | some a =>
    let k := (m.die * 256 + seSrc m.entry) * 16
    let masks := (List.range 16).map fun w => peek 0 a.upsets (k + w)
    if masks.all (· = 0) then (bs, poison, s)
    else
      let e := secded masks
      let s := s.modAttempt fun a => { a with upsets := a.upsets.filter fun u => u.1 / 16 != k / 16 }
      let s := match s.lineAt (seDstDie m.entry) (seDst m.entry) m.dstLine with
        | .sram d => s.sramErrors d e
        | _ => s
      (damaged masks bs, poison || e.2, s)

/-- The unit of a port in the shadow ranking (R354). -/
def portUnit (die p : Nat) : Option UnitName :=
  let d := Fin.ofNat 8 die
  let i := p % 32
  if i ≤ 5 then some ⟨d, 1, portCore p⟩
  else if i = 12 || i = 13 then some ⟨d, 5, 0⟩
  else if i = 14 then ((([(2, 1), (3, 2), (4, 3), (5, 4), (0, 5)] : List (Nat × Nat)).find? fun e => e.1 = p / 32).map fun e => ⟨d, 5, e.2⟩)
  else none

/-- A line that enters a shadowed unit, other than one read from HBM, is copied into the step's half of its die's shadow log while
the half has room (R355). -/
def State.logLine (s : State) (m : Move) (bs : List Byte) (poison : Bool) : State :=
  match s.attempt, portUnit (seDstDie m.entry) (seDst m.entry) with
  | some a, some u =>
    let die := seDstDie m.entry
    let r := Config.shadowLog a.img die
    let n := peek 0 a.logged die
    if hbmPort (seSrc m.entry) || !a.shadowed.contains u || r.2 / 2 ≤ n then s
    else (s.sramPut (.slice die (r.1 + a.half * (r.2 / 2) + n)) bs poison).modAttempt fun a => { a with logged := poke 0 a.logged die (n + 1) }
  | _, _ => s

/-- The transfer is refused on its way: no route leads to its die, or the link's other end is out of service (R16, R362). -/
def State.refusedMove (s : State) (m : Move) : Bool :=
  (s.route m.die (seDstDie m.entry)).isNone ||
    (18 ≤ seDst m.entry % 32 && seDst m.entry % 32 < 24 && (s.farPort (seDstDie m.entry) (seDst m.entry)).isNone)

/-- A line reaches its destination. A refused dovetail transfer fails the share (R362). -/
def State.landMove (s : State) (c : Nat) (x : Ctx) (m : Move) (bs : List Byte) (poison : Bool) : State :=
  let e := m.entry
  if s.attempt.isNone then s
  else if s.refusedMove m then s.failShare stFault
  else
    let r := s.checkMove m bs poison
    let s := if unitPort (seSrc e) && !hbmPort (seDst e) then r.2.2.sign m.dstLine r.1 else r.2.2
    (s.logLine m r.1 r.2.1).putPortLine c x (seDstDie e) (seDst e) m.dstLine r.1 r.2.1

/-- The segments that hold in a cycle (R128): one of which a transfer cannot fire, and one whose transfer waits for such a
segment. -/
def spreadHold (ms : List Move) : Nat → List Nat → List Nat
  | 0, held => held
  | n + 1, held =>
    let more := (ms.filter fun m => m.segs.any held.contains).flatMap Move.segs
    spreadHold ms n (distinct (held ++ more))

/-- One crossbar cycle: the transfers of the segments that do not hold take place; the others' segments stand at this cycle. -/
def State.moveCycle (s : State) (x : Ctx) (t : Nat) (ms : List Move) : State :=
  match s.attempt with
  | none => s
  | some a =>
    let stuck := (ms.filter fun m => !s.canFire a x m).flatMap Move.segs
    let held := spreadHold ms ms.length (distinct (a.lags.map (·.1) ++ stuck))
    let go := ms.filter fun m => !m.segs.any held.contains
    let s := s.modAttempt fun a => { a with
      lags := a.lags ++ (held.filter fun g => !(a.lags.map (·.1)).contains g).map fun g => (g, t)
      wants := (ms.filter fun m => hbmPort (seSrc m.entry) && s.lentMissing a x m.srcLine && !a.reserved m).foldl
        (fun l m => addKey m.srcLine l) a.wants }
    let r := readMoves a.ctx x (go.filter fun m => !a.reserved m) s
    r.1.foldl (fun s m => s.landMove a.ctx x m.1 m.2.1 m.2.2) r.2

/-- The crossbar runs on to `target` of the stage: each segment from where it stands, every transfer of the schedule in the order of
its cycles (R103, R128). A segment that has to hold stands at its cycle, and its slot counter goes on from there. -/
def State.runMoves (s : State) (a : Attempt) (x : Ctx) (target : Nat) : State :=
  let pos (g : Nat) : Nat := (assoc g a.lags).getD (a.span.1 + a.cycle)
  let ms := (s.movesIn a.stage (a.span.1, target)).filter fun m => !a.claims.contains m.key && m.segs.any fun g => pos g ≤ m.cycle
  let s := s.modAttempt fun a => { a with lags := [], cycle := target }
  (sortBy (fun a b => decide (a < b)) (distinct (ms.map (·.cycle)))).foldl (fun s t => s.moveCycle x t (ms.filter (·.cycle = t))) s

/-- The next cycles of the stage. -/
def State.workCrossbar (s : State) (a : Attempt) (x : Ctx) (n : Nat) : State := s.runMoves a x (min (a.cycle + n) a.span.2)

/-! ## Where a core program's rows lie -/

/-- Bytes from a spot on, for a program of a core: context memory and slices in slots of the schedule, local SRAM directly. -/
def State.spotRead (s : State) (c : Nat) (x : Ctx) (die core : Nat) (p : Spot) (off n : Nat) : Option (List (Byte × Bool)) × State :=
  let u := coreUnit1 die core
  match p with
  | .ctx a => s.unitRead c x u (a + off) n
  | .sram l =>
    let r := coreLines die core (lineSpan off n) (l + off / 128) s
    (r.1.map fun ls => window (off % 128) n (cellsOf ls), r.2)
  | .slice l =>
    let r := sliceLinesFor die (fun l => fixed (u.fromSlice die l)) (lineSpan off n) (l + off / 128) s
    (r.1.map fun ls => window (off % 128) n (cellsOf ls), r.2)

def State.spotWrite (s : State) (c : Nat) (x : Ctx) (die core : Nat) (p : Spot) (off : Nat) (bs : List (Byte × Bool)) : State :=
  let u := coreUnit1 die core
  match p with
  | .ctx a => s.unitWrite c x (fun l => fixed (u.toHbm l)) (a + off) bs
  | .sram l => (cutLines (lineSpan off bs.length) (128 * l + off) bs).foldl (fun s q =>
      s.sramPart (.core die core (q.1 / 128)) (q.1 % 128) q.2.1 q.2.2) s
  | .slice l => s.sliceWrite u die l off bs

end Sys2Proof.Machine
end

