-- ==== Sys2Proof/Machine/Product.lean ====
section
/-! DEFINITION. Product tiles and operands: which cores and rows work, veneers, slots, tiles in banks, the plane unit with its
grants, and recomputes (R24, R47, R76, R82, R89, R95, R98 to R109, R115, R152, R175 to R179, R240, R257, R385). Layouts that the
manual leaves to the jig are those of log entry 24. -/

namespace Sys2Proof.Machine

/-! ## Codes and rows -/

/-- The bytes of one element of a stored format. -/
def outBytes : OutFmt → Nat
  | .fp32 => 4
  | .bf16 | .fp16 => 2
  | .e4m3 | .e5m2 => 1

/-- A stored code as FP32, exactly: infinities, NaN and the sign of zero included (R44, R47, R48). -/
def widenOut (f : OutFmt) (v : Nat) : Word :=
  match f with
  | .fp32 => BitVec.ofNat 32 v
  | .bf16 => widen bf16 v
  | .fp16 => widen fp16 v
  | .e4m3 => if v % 128 = 127 then nan32 else round32 (elemInt .e4m3 v) (elemExp .e4m3 v) (decide (128 ≤ v % 256))
  | .e5m2 => widen e5m2 (v % 256)

/-- The elements of packed bytes. -/
def elemsOf (f : OutFmt) (bs : List Byte) : List Word := (chunks (outBytes f) bs).map fun b => widenOut f (leNat b)

/-! ## Cores and rows (R24, R131, R133, R152, R257) -/

/-- A core that the step's work runs on: it runs and has a clock (R421, R425), no core reset ended while the step was in flight, and the jig uses it. An image
without a retirement mask uses every core (log entry 16). -/
def State.coreOk (s : State) (a : Attempt) (die core : Nat) : Bool :=
  s.coreWorks die core && !s.resting.contains (die * 48 + core) &&
    (secLength a.img 0 = 0 || (leNat (window (8 * die) 8 (jigSec a.img 0))).testBit core)

/-- The bench of a core runs rows of a kind: at ratios 1 to 3 the first 12 times the ratio cores run the chunks, and the others
the decode rows; at ratios 0 and 4 one bench runs both (R152, R257). -/
def benchRuns (ratio : Nat) (k : RowKind) (core : Nat) : Bool :=
  ratio = 0 || 4 ≤ ratio || ((k = .prefill) == decide (core < 12 * ratio))

/-- The layer of the attempt's stage, where it is a layer stage. -/
def Attempt.layerNow (a : Attempt) : Option Nat :=
  match a.stages[a.stage]? with
  | none => none
  | some st => if [1, 5].contains (stKind st) then some (stLayer st) else none

/-- A KV-fill row after the K and V projections of its layer: the hidden state stays as it is, and the row takes part in no
product and no update (R240). -/
def Attempt.heldRow (a : Attempt) (row : Nat) : Bool :=
  match a.layerNow, (planBatch a.plan)[row]? with
  | some l, some b => 4 ≤ a.phase && a.kvFillAt b.1 l
  | _, _ => false

/-- A row of the batch runs on a core: its bench is the row's. A row beyond the batch belongs to no sequence. -/
def Attempt.rowOn (a : Attempt) (core row : Nat) : Bool :=
  match (planBatch a.plan)[row]? with
  | none => true
  | some b => match a.plan.rows[b.1]? with
    | none => true
    | some r => benchRuns (jigBench a.img) r.kind core

/-- A bank holds a tile whose outputs have not left it (R105). -/
def Attempt.bankBusy (a : Attempt) (die core : Nat) (bank : Bool) : Bool :=
  a.tiles.any fun t => t.die = die && t.core = core && t.bank = bank

/-- The buffers of a layer's residual and of the rows rounded from a region, which a combine's is too (log entry 24). -/
def residualBuf (layer : Nat) : Nat := 2 ^ 17 + layer
def resultBuf (layer : Nat) : Nat := 2 ^ 16 + layer

/-- A region that the jig declares, the combine of an expert layer among them, has not been rounded: what reads its rows holds (R72,
R236). -/
def Attempt.regionOpen (a : Attempt) (region : Nat) : Bool :=
  (((jigExperts a.img).any fun e => e.experts != 0 && e.layer = region) || (accRegions a.img).any fun r => r.1 = region) &&
    !a.combines.any fun k => k.layer = region && k.rounded

/-- Rows of a buffer are still withheld, in a bank, or in an accumulator region. -/
def Attempt.unready (a : Attempt) (b : Nat) : Bool :=
  (a.tiles.any fun t => match t.release with | .rows d => d = b | _ => false) ||
    (a.held.any fun h => match h.goal with | .row d _ => d = b | .reg _ => false) ||
    (2 ^ 16 ≤ b && b < 2 ^ 17 && a.regionOpen (b - 2 ^ 16))

/-- A vector register waits for a withheld result (R112). -/
def Attempt.unreadyReg (a : Attempt) (k : Nat) : Bool :=
  a.held.any fun h => match h.goal with | .row _ _ => false | .reg g => g = k

/-! ## Veneers (R175 to R178) -/

/-- One weight veneer as it lies in memory: the blocks of its 256 columns and its 32 trailer entries. -/
structure Veneer where
  cols : List Block
  trailers : List Trailer
  deriving DecidableEq, Repr

def veneerBytes (f : Fmt) : Nat := if f.is8 then 8960 else 4608

/-- A veneer from its lines: an element and a scale are as poisoned as the line that holds them (R169). -/
def veneerOf (f : Fmt) (ls : List (List Byte × Bool)) : Veneer :=
  let bs := ls.flatMap (·.1)
  let po (o : Nat) : Bool := ((ls[o / 128]?).map (·.2)).getD false
  let eb := if f.is8 then 32 else 16
  let sb := 256 * eb
  let tb := sb + 256
  { cols := (List.range 256).map fun c =>
      ⟨leNat (window (sb + c) 1 bs),
        if f.is8 then (window (eb * c) eb bs).map (·.toNat) else unpack4 (window (eb * c) eb bs), po (eb * c), po (sb + c)⟩
    trailers := (List.range 32).map fun k =>
      if f.is8 then .of128 (leNat (window (tb + 16 * k) 16 bs)) else .of64 (leNat (window (tb + 8 * k) 8 bs)) }

/-- Veneers one after another: from context memory at `addr` in slots of the schedule, or from the core's SRAM at line `line`. -/
def readVeneers (c : Nat) (x : Ctx) (f : Fmt) (at_ : TileAt) : Nat → Nat → Nat → State → Option (List Veneer) × State
  | 0, _, _, s => (some [], s)
  | n + 1, addr, line, s =>
    let k := veneerBytes f / 128
    match (match at_.veneers with
      | none => hbmLines c x (fun l => fixed ((coreUnit1 at_.die.val at_.core.val).fromHbm l)) k (addr / 128) s
      | some _ => coreLines at_.die.val at_.core.val k line s) with
    | (none, s) => (none, s)
    | (some ls, s) => match readVeneers c x f at_ n (addr + veneerBytes f) (line + k) s with
      | (some vs, s) => (some (veneerOf f ls :: vs), s)
      | (none, s) => (none, s)

/-- The veneer of the FP8 path of a recompute: elements widened, scales and trailers unchanged (R100). -/
def Veneer.widened (f : Fmt) (v : Veneer) : Veneer := { v with cols := v.cols.map (Block.widened f) }

/-! ## Slots (R95, R179) -/

/-- Where an operand's rows are numbered from in its slot array: a product's are batch-table rows; those of expert `e` stand from
`e` times C on, so that the experts of a layer have rows of their own (DESIGN CHOICE, log entry 24). -/
def slotRow (operand cap i : Nat) : Nat := if operand = 0 then i else (operand - 1) * cap + i

/-- The slots of one row by group as a unit reads them, with the poison of each group's line. -/
def State.readSlots (s : State) (c : Nat) (x : Ctx) (u : Unit1) (rot : RotSpec) (k row : Nat) : List (List Slot × Bool) × State :=
  if rot.slots = 0 then ([], s)
  else match hbmLines c x (fun l => fixed (u.fromHbm l)) (rot.rowBytes k / 128) (rot.rowBase k row / 128) s with
    | (none, s) => ([], s)
    | (some ls, s) =>
      ((indexed (slotsOfBytes rot.slots (window 0 (4 * rot.slots * cdiv k 256) (ls.flatMap (·.1))))).map fun g =>
        (g.2, ((ls[4 * rot.slots * g.1 / 128]?).map (·.2)).getD false), s)

/-- The slots that fall in blocks `first` to `first + count - 1`, by group of the reduction that begins there. -/
def slotsIn (first count : Nat) (gs : List (List Slot × Bool)) : List (List Slot × Bool) :=
  let all := (indexed gs).flatMap fun g => g.2.1.filterMap fun w =>
    let b := 8 * g.1 + w.index / 32
    if first ≤ b && b < first + count then
      let o := 32 * (b - first) + w.index % 32
      some (o / 256, (⟨w.value, o % 256⟩ : Slot), g.2.2)
    else none
  (List.range (cdiv count 8)).map fun g =>
    let mine := all.filter fun e => e.1 = g
    (mine.map (·.2.1), mine.any (·.2.2))

/-! ## Tiles (R104 to R109) -/

/-- One tile: the accumulators of up to 32 rows against one column range, their checkers and their invalid marks. A row without
blocks takes no part. -/
def tileOf (fa fw : Fmt) (rows : List (PlaneRow × List (List Slot × Bool))) (vs : List Veneer) (ncols : Nat) :
    List (List Acc) × List ChkAcc × List (List Bool) :=
  let cs := (List.range 256).map fun c => vs.map fun v => (v.cols[c]?).getD Block.zero
  let one (r : PlaneRow × List (List Slot × Bool)) : List Acc × ChkAcc × List Bool :=
    if r.1.blocks.isEmpty then ([], ⟨0#176, false, 0⟩, [])
    else
      (cs.map fun k => accumulate fa fw r.1.blocks k r.2, checkRow fa r.1.blocks (vs.map (·.trailers)) r.2,
        cs.map fun k => consumesInvalid fa fw r.1.blocks k)
  let os := rows.map one
  (os.map (·.1), os.map (·.2.1), os.map fun o => o.2.2.take ncols)

/-- What a tile is formed of: the operand descriptor by number and bytes, whether its rows are those of a wide recompute and in
which format, W_BASE of the operand, the reduction length and the columns, the group's first row, and its rows, each with the row
of the slot array that is its own and its batch-table row. -/
structure Operand where
  desc : Nat
  bytes : List Byte
  wide : Bool
  fa : Fmt
  base : Nat
  k : Nat
  n : Nat
  row : Nat
  rows : List (Nat × Nat × PlaneRow)
  deriving DecidableEq, Repr

/-! ### Grants of a site (R99 to R102) -/

def RotSpec.siteKey (r : RotSpec) : Nat := r.layer * 8 + r.site

/-- A batch-table row has been granted a wide recompute at a site. -/
def Attempt.grantedAt (a : Attempt) (site row : Nat) : Bool := ((assoc site a.granted).getD []).contains row

/-- The rows of a tile that take part in it, by index and batch-table row. -/
def Tile.taking (t : Tile) : List (Nat × Nat) :=
  ((List.range t.batch.length).zip (t.batch.zip t.outs)).filterMap fun ib => if ib.2.2.isEmpty then none else some (ib.1, ib.2.1)

/-- The rotation spec of a tile's operand. -/
def Attempt.tileRot (a : Attempt) (t : Tile) : RotSpec := opRot ((jigOperand a.img t.desc).getD [])

/-- An original tile under RECOMPUTE_WIDE. -/
def Attempt.fourBit (a : Attempt) (t : Tile) : Bool := !t.wide && (jigOperand a.img t.desc).isSome && (a.tileRot t).wide

/-- The rows of a tile whose 4-bit outputs are discarded for a wide recompute's (R100). -/
def Attempt.skips (a : Attempt) (t : Tile) : List Nat :=
  if !a.fourBit t then []
  else (t.taking.filter fun ib => a.grantedAt (a.tileRot t).siteKey ib.2).map (·.1)

/-- The tile holds overflowing rows of a site whose grants have not been made. -/
def Attempt.undecided (a : Attempt) (t : Tile) : Bool :=
  a.fourBit t && (assoc (a.tileRot t).siteKey a.granted).isNone && t.taking.any fun ib => a.spills.contains ((a.tileRot t).siteKey, ib.2)

/-- The counts of R101 of one tile, over the rows that take part in it. -/
def Attempt.tileEvents (a : Attempt) (t : Tile) : QEvents :=
  if !a.fourBit t then QEvents.none
  else
    let site := (a.tileRot t).siteKey
    { QEvents.none with
      wideRecomp := if (a.skips t).isEmpty then 0 else 1
      budgetExh := if t.taking.any fun ib => a.spills.contains (site, ib.2) && !a.grantedAt site ib.2 then 1 else 0 }

/-- The slots of every row of a tile. -/
def readRows (c : Nat) (x : Ctx) (u : Unit1) (rot : RotSpec) (k first count : Nat) :
    List (Nat × Nat × PlaneRow) → State → List (PlaneRow × List (List Slot × Bool)) × State
  | [], s => ([], s)
  | r :: rs, s =>
    let g := if r.2.2.blocks.isEmpty then ([], s) else s.readSlots c x u rot k r.1
    let q := readRows c x u rot k first count rs g.2
    (({ r.2.2 with blocks := window first count r.2.2.blocks }, slotsIn first count g.1) :: q.1, q.2)

/-- A tile is formed over blocks `first` to `first + count - 1` and stands in its bank; while the bank holds another tile, it
waits (R105). -/
def State.formTile (s : State) (a : Attempt) (x : Ctx) (o : Operand) (at_ : TileAt) (first count : Nat) (fmt : OutFmt)
    (release : Release) (due : Nat) : State :=
  let kb := cdiv o.k 32
  let count := min count (kb - first)
  let fw := opW o.bytes
  if !s.coreOk a at_.die.val at_.core.val || count = 0 || cdiv o.n 256 ≤ at_.col || o.rows.isEmpty then s
  else if a.bankBusy at_.die.val at_.core.val at_.bank then s.wait
  else
    match readVeneers a.ctx x fw at_ count (o.base + (at_.col * kb + first) * veneerBytes fw) (at_.veneers.getD 0) s with
    | (none, s) => s
    | (some vs, s) =>
      let r := readRows a.ctx x (coreUnit1 at_.die.val at_.core.val) (opRot o.bytes) o.k first count o.rows s
      let vs := if o.wide then vs.map (Veneer.widened fw) else vs
      let w : Fmt := if o.wide && !fw.is8 then .e4m3 else fw
      let t := tileOf o.fa w r.1 vs (min 256 (o.n - 256 * at_.col))
      let tile : Tile :=
        { die := at_.die.val, core := at_.core.val, bank := at_.bank, desc := o.desc, row := o.row, col := at_.col
          batch := o.rows.map (·.2.1), wide := o.wide, outs := t.1, chk := t.2.1, invalid := t.2.2, fmt := fmt, release := release
          failed := false, passed := false, due := due, replays := [] }
      r.2.modAttempt fun a => { a with tiles := a.tiles ++ [tile] }

/-- The place of a row among the rows of its home (R230). -/
def State.slotAt (s : State) (a : Attempt) (row : Nat) : Nat × Nat :=
  let b := planBatch a.plan
  let home (i : Nat) : Nat := s.homeNode (((a.plan.rows[((b[i]?).getD (0, 0)).1]?).map (·.handle)).getD 0)
  (home row, ((List.range row).filter fun k => home k = home row).length)

/-- A tile of a product of the rows of a plane buffer. A row of the other bench, and a KV-fill row after its projections, takes no
part. The partials of a cross-package reduction go to a region here or at each row's home (R72; DESIGN CHOICE, log entry 24: the
jig decides to which package, and the pieces of work name these). -/
def State.workProduct (s : State) (a : Attempt) (x : Ctx) (src desc : Nat) (at_ : TileAt) (first count : Nat) (into : TileInto)
    (adds : Nat) : State :=
  match jigOperand a.img desc with
  | none => s
  | some d =>
    let p := s.bufPlane src
    let row := 32 * at_.group
    let rows := (indexed (window row 32 p.1)).map fun ir =>
      let b := row + ir.1
      (b, b, if a.rowOn at_.core.val b && !a.heldRow b then ir.2 else PlaneRow.none)
    let o : Operand := ⟨desc, d, p.2.2, p.2.1, opWBase d, opK d, opN d, row, rows⟩
    s.formTile a x o at_ first count (outFmtOf (opOut d)) (match into with
      | .rows dst => .rows dst
      | .here r => .here r
      | .home r => .home r (rows.map fun q => s.slotAt a q.2.1)
      | .bank die core bank => .bank die.val core.val bank) adds

/-! ## The plane unit (R82, R89, R95, R98 to R102) -/

/-- The shared slice lines that hold a row's rotated values for a recompute (R89; where: log entry 16). -/
def heldSpot (img : List Byte) (desc operand row : Nat) : Nat × Nat :=
  (Config.heldDie img (desc + 2 ^ 16 * operand) row % 8, Config.heldLine img (desc + 2 ^ 16 * operand) row)

/-- Values as bytes, each with its poison, and back. -/
def wordCells (vs : List (Word × Bool)) : List (Byte × Bool) := vs.flatMap fun v => (leBytes 4 v.1.toNat).map fun b => (b, v.2)
def cellWords (bs : List (Byte × Bool)) : List (Word × Bool) :=
  (chunks 4 bs).map fun c => (BitVec.ofNat 32 (leNat (c.map (·.1))), c.any (·.2))

/-- What the plane unit of a die keeps of one row beside its blocks: its slots in context memory, its values in slices. -/
def State.keepRow (s : State) (a : Attempt) (x : Ctx) (rot : RotSpec) (die desc operand cap k i : Nat) (r : PlaneOut) : State :=
  let u := planeUnit1 die
  let s := s.unitWrite a.ctx x (fun l => fixed (u.toHbm l)) (rot.rowBase k (slotRow operand cap i))
    (r.slots.flatMap fun g => (slotBytesOf [g.1]).map fun b => (b, g.2))
  let h := heldSpot a.img desc operand i
  s.sliceWrite u h.1 h.2 0 (wordCells r.held)

/-- The 24-bit draw of element `i` of a tensor (R385). -/
def srDraw (seed step desc i : Nat) : Nat :=
  let t := sm4Enc seed (beNat (beBytes 6 step ++ beBytes 2 desc ++ beBytes 8 (i / 4)))
  beNat (window (4 * (i % 4)) 3 (beBytes 16 t))

def trainSeed (body : List Word) : Nat := beNat (bytesOf (window 9 4 body))

/-- The kind of the attempt's stage. -/
def Attempt.kindNow (a : Attempt) : Option Nat := (a.stages[a.stage]?).map stKind

/-- The draws of the elements of row `i` of a tensor with rows of `n` elements, in a stage of KIND 0x5 (R385): the draws of a
row-major tensor run on from row to row. -/
def Attempt.draws (a : Attempt) (desc i n : Nat) : Option (Nat → Nat) :=
  match a.plan.train with
  | some (_, body) => if a.kindNow = some 5 then some fun e => srDraw (trainSeed body) a.plan.step desc (i * n + e) else none
  | none => none

/-- The rows of an operand are rotated, extracted and quantised on a die; a row without values has no blocks. `batch` names the
batch-table row of each, and overflowing rows of a site under RECOMPUTE_WIDE are noted (R98, R99). -/
def State.formPlane (s : State) (a : Attempt) (x : Ctx) (dst desc operand cap k die : Nat) (d : List Byte) (rows : List (Nat × FRow)) :
    State :=
  let rot := opRot d
  let os := (indexed rows).map fun ir =>
    if ir.2.2.cells.isEmpty then (⟨PlaneRow.none, [], [], QEvents.none⟩ : PlaneOut)
    else planeRow (jigSeed a.img) rot (opA d) (a.draws desc ir.1 ir.2.2.cells.length) ir.2.2.cells
  let s := ((s.setBuf dst (.plane (os.map (·.row)) (opA d) false)).setFormed dst desc).addEvents
    (os.foldl (fun e r => e.add r.events) QEvents.none)
  let s := (indexed os).foldl (fun s ir => s.keepRow a x rot die desc operand cap k ir.1 ir.2) s
  if !rot.wide then s
  else s.modAttempt fun a => { a with
    spills := (os.zip rows).foldl (fun l r =>
      if r.1.row.overflow && !l.contains (rot.siteKey, r.2.1) then l ++ [(rot.siteKey, r.2.1)] else l) a.spills }

def State.workPlane (s : State) (a : Attempt) (x : Ctx) (dst src desc die : Nat) : State :=
  match jigOperand a.img desc with
  | none => s
  | some d => s.formPlane a x dst desc 0 0 (opK d) die d (indexed (s.bufRows src))

/-- The wide recompute budget of a site: WIDE_BUDGET of the spec of that layer and site. -/
def siteBudget (img : List Byte) (layer site : Nat) : Option Nat :=
  (((jigEntries img 1 48).map opRot).find? fun r => r.wide && r.layer = layer && r.site = site).map RotSpec.budget

/-- The grants of a site are made, once in a step: its overflowing rows in ascending batch-table order, up to its budget (R99). A
batch-table row counts once, whichever operands of the site it overflows in, and is granted for all of them: R99 counts rows
(DEDUCED, log entry 24). -/
def State.grantSite (s : State) (layer site : Nat) : State :=
  s.modAttempt fun a =>
    let key := layer * 8 + site
    match siteBudget a.img layer site with
    | none => a
    | some n =>
      if (assoc key a.granted).isSome then a
      else { a with granted := enlist key (grants n ((a.spills.filter fun o => o.1 = key).map (·.2))) a.granted }

/-- The grants come inside the site's recompute window (R99). -/
def State.workGrant (s : State) (a : Attempt) (layer site : Nat) : State :=
  if a.windowsNow.any fun iw => wEngine iw.2 = 3 && wSite iw.2 = site && windowHolds iw.2 a.cycle then s.grantSite layer site else s

/-- The granted rows of an operand are quantised again from their held values, padding included; the other rows hold no block
(R100). `batch` gives the batch-table row of each. -/
def State.workRecompute (s : State) (a : Attempt) (dst desc operand k die : Nat) (d : List Byte) (batch : List Nat) : State :=
  let rot := opRot d
  let n := 4 * (32 * cdiv k 32)
  let u := planeUnit1 die
  let r := (indexed batch).foldl (fun (acc : List PlaneRow × QEvents × State) ib =>
    if !a.grantedAt rot.siteKey ib.2 then (acc.1 ++ [PlaneRow.none], acc.2.1, acc.2.2)
    else
      let h := heldSpot a.img desc operand ib.1
      match sliceLinesFor h.1 (fun l => fixed (u.fromSlice h.1 l)) (cdiv n 128) h.2 acc.2.2 with
      | (none, s) => (acc.1 ++ [PlaneRow.none], acc.2.1, s)
      | (some ls, s) =>
        let q := recomputeRow rot (a.draws desc ib.1 (32 * cdiv k 32)) (cellWords ((cellsOf ls).take n))
        (acc.1 ++ [q.1], acc.2.1.add q.2, s)) ([], QEvents.none, s)
  ((r.2.2.setBuf dst (.plane r.1 rot.recompFmt true)).setFormed dst desc).addEvents r.2.1

/-- A BF16 wide reference product; a column's K weights lie one after another (log entry 24). -/
def State.workWide (s : State) (a : Attempt) (x : Ctx) (dst src desc die core : Nat) : State :=
  match jigOperand a.img desc with
  | none => s
  | some d =>
    let rs := (indexed (s.bufRows src)).filter fun ir => a.rowOn core ir.1 && !a.heldRow ir.1
    ((List.range (opN d)).foldl (fun s n =>
      match s.unitRead a.ctx x (coreUnit1 die core) (opWBase d + 2 * (n * opK d)) (2 * opK d) with
      | (none, s) => s
      | (some cs, s) =>
        let ws := (chunks 2 (cs.map (·.1))).map fun b => widen bf16 (leNat b)
        let po := cs.any (·.2)
        rs.foldl (fun s ir =>
          let acc := wideSum ir.2.vals ws (ir.2.poison || po)
          let out := outFmtOf (opOut d)
          s.putCols dst ir.1 n [(widenOut out (wideOutput (opSigma d) out acc), acc.poison)]) s) s).setFormed dst desc

end Sys2Proof.Machine
end

