-- ==== Sys2Proof/Machine/Work.lean ====
section
/-! DEFINITION. What each piece of a stage's work does (R25, R47, R110 to R113, R156, R189, R192, R208 to R218, R225 to R240,
R268 to R285, R371). Layouts that the manual leaves to the jig are those of log entry 24. -/

namespace Sys2Proof.Machine

/-! ## Rows in memory -/

/-- The elements of packed bytes, each with its poison. -/
def elemCells (f : OutFmt) (bs : List (Byte × Bool)) : List (Word × Bool) :=
  (chunks (outBytes f) bs).map fun c => (widenOut f (leNat (c.map (·.1))), c.any (·.2))

def State.workFetch (s : State) (a : Attempt) (x : Ctx) (dst : Nat) (p : Spot) (rows cols : Nat) (f : OutFmt) (die core : Nat) : State :=
  if !s.coreOk a die core then s
  else
    let n := cols * outBytes f
    (List.range rows).foldl (fun s i =>
      match s.spotRead a.ctx x die core p (i * n) n with
      | (some bs, s) => s.putRow dst i ⟨elemCells f bs⟩
      | (none, s) => s) s

/-- Values as a store writes them: the bytes with their poison, and how many saturated (R49). -/
def storeCells (f : OutFmt) (vs : List (Word × Bool)) : List (Byte × Bool) × Nat :=
  let cs := vs.map fun v => (convert f v.1, v.2)
  (cs.flatMap fun c => (leBytes (outBytes f) c.1.1).map fun b => (b, c.2), (cs.filter (·.1.2)).length)

/-- Rows stored by a core. In a training plan a store to context memory is part of the update, which consumes poison (R170). -/
def State.workStore (s : State) (a : Attempt) (x : Ctx) (src : Nat) (p : Spot) (f : OutFmt) (die core : Nat) : State :=
  if !s.coreOk a die core then s
  else
    let update := a.plan.train.isSome && match p with | .ctx _ => true | _ => false
    (indexed (s.bufRows src)).foldl (fun s ir =>
      let r := storeCells f ir.2.cells
      let s := s.addEvents { QEvents.none with fp8OutSat := r.2 }
      let s := if update then s.consumes ir.2.poison else s
      s.spotWrite a.ctx x die core p (ir.1 * (ir.2.cells.length * outBytes f)) r.1) s

/-! ## Vector unit (R110 to R112) -/

/-- A floating-point operation. A comparison gives 1.0 or +0 and a NaN compares false, and a selection takes `b` where the
condition `c` is the word of +0 and `a` elsewhere: R110 names neither (DESIGN CHOICE, log entry 12). An integer is a 32-bit two's
complement number. -/
def floatEval (op : FloatOp) (a b c : Word) : Word :=
  match op with
  | .add => fadd a b
  | .sub => fsub a b
  | .mul => fmul a b
  | .fma => ffma a b c
  | .exp2 => fexp2 a
  | .exp => fexp a
  | .recip => frecip a
  | .sqrt => fsqrt a
  | .rsqrt => frsqrt a
  | .max => fmax a b
  | .min => fmin a b
  | .select => if c = 0#32 then b else a
  | .lt => if flt a b then one32 else 0#32
  | .le => if fle a b then one32 else 0#32
  | .eq => if feq a b then one32 else 0#32
  | .toFmt f => BitVec.ofNat 32 (convert f a).1
  | .ofFmt f => widenOut f (a.toNat % 2 ^ (8 * outBytes f))
  | .toInt => toInt32 (Config.nanInt a) a
  | .ofInt => ofInt32 a.toInt

def logicEval (op : LogicOp) (a b : Word) : Word :=
  match op with
  | .and => a &&& b
  | .or => a ||| b
  | .xor => a ^^^ b
  | .not => ~~~ a

/-- A conversion to FP8 saturates a finite value (R49, R110). -/
def opSaturates (op : VecOp) (a : Word) : Bool :=
  match op with
  | .float (.toFmt f) => (convert f a).2
  | _ => false

/-- One lane: the result as the unit formed it, the right result, and whether the residue check passes (R112). -/
def laneOf (op : VecOp) (a b c : Word) : Word × Word × Bool :=
  match op with
  | .float f => let r := floatEval f a b c; (r, r, true)
  | .logic l => let r := logicEval l a b; (r, r, true)
  | .int i upset => let r := i.eval a b ^^^ upset; (r, i.eval a b, i.residueOk a b r)

/-- A row of results, each lane poisoned where an operand of it is (R169). -/
structure VecRow where
  formed : FRow
  right : FRow
  ok : Bool
  events : QEvents
  deriving DecidableEq, Repr

/-- The operation on every lane: the results as formed and as they should be, whether every residue check passes, and the
conversions to FP8 that saturate (R49, R110, R112). -/
def rowOf (op : VecOp) (a b c : FRow) : VecRow :=
  let ls := (indexed a.cells).map fun kv =>
    let y := b.cells.getD kv.1 (0#32, false)
    let z := c.cells.getD kv.1 (0#32, false)
    (laneOf op kv.2.1 y.1 z.1, kv.2.2 || y.2 || z.2)
  { formed := ⟨ls.map fun l => (l.1.1, l.2)⟩, right := ⟨ls.map fun l => (l.1.2.1, l.2)⟩, ok := ls.all (·.1.2.2)
    events := { QEvents.none with fp8OutSat := (a.vals.filter (opSaturates op)).length } }

/-- A result whose residue check failed is withheld and waits for its replay (R112). -/
def State.withhold (s : State) (die core : Nat) (goal : HeldFor) (r : FRow) : State :=
  (s.modAttempt fun a => { a with held := a.held ++ [⟨die, core, goal, r, []⟩] }).setRegBit (oCoreState die core) 3 true

/-- The hidden state that a KV-fill row holds: its state after the layer at which its sequence exited (R240). -/
def Attempt.heldState (a : Attempt) (row : Nat) : FRow := (assoc row a.states).getD FRow.empty

/-- An operation over the rows of buffers on a core: rows of the other bench stay as they are, and a KV-fill row after its
projections keeps its held state, wherever the result goes (R152, R240). -/
def State.workVec (s : State) (a : Attempt) (op : VecOp) (dst p q r die core : Nat) : State :=
  if !s.coreOk a die core then s
  else
    let ra := s.bufRows p
    let rb := s.bufRows q
    let rc := s.bufRows r
    (indexed ra).foldl (fun s ir =>
      if a.heldRow ir.1 then s.putRow dst ir.1 (a.heldState ir.1)
      else if !a.rowOn core ir.1 then s
      else
        let o := rowOf op ir.2 (rowAt rb ir.1) (rowAt rc ir.1)
        let s := s.addEvents o.events
        if o.ok then s.putRow dst ir.1 o.formed else s.withhold die core (.row dst ir.1) o.right) s

/-- The key of a vector register, and its 64 lanes. -/
def vregKey (die core reg : Nat) : Nat := (die * 48 + core) * 64 + reg

def State.vreg (s : State) (k : Nat) : FRow :=
  ⟨(List.range 64).map fun i => (peek 0#32 s.vregs (64 * k + i), s.vregPoison.contains (64 * k + i))⟩

def State.setVreg (s : State) (k : Nat) (r : FRow) : State :=
  { s with
    vregs := (List.range 64).foldl (fun m i => poke 0#32 m (64 * k + i) (r.vals.getD i 0#32)) s.vregs
    vregPoison := (List.range 64).foldl (fun m i => setKey (64 * k + i) (r.po.getD i false) m) s.vregPoison }

def State.workVload (s : State) (a : Attempt) (die core reg src row col : Nat) : State :=
  if !s.coreOk a die core || !a.rowOn core row then s
  else s.setVreg (vregKey die core reg) ⟨window col 64 (rowAt (s.bufRows src) row).cells⟩

def State.workVreg (s : State) (a : Attempt) (op : VecOp) (die core d p q r : Nat) : State :=
  if !s.coreOk a die core then s
  else
    let k (n : Nat) : Nat := vregKey die core n
    let o := rowOf op (s.vreg (k p)) (s.vreg (k q)) (s.vreg (k r))
    let s := s.addEvents o.events
    if o.ok then s.setVreg (k d) o.formed else s.withhold die core (.reg (k d)) o.right

def State.workVstore (s : State) (a : Attempt) (die core reg dst row col : Nat) : State :=
  if !s.coreOk a die core || !a.rowOn core row then s
  else if a.heldRow row then s.putRow dst row (a.heldState row)
  else s.putCols dst row col (s.vreg (vregKey die core reg)).cells

/-! ## KV writes and attention (R189, R192, R208 to R218, R371) -/

/-- The pool page that holds logical page `j` of row `seq` in the snapshot; none where the entry is masked, uncovered or
elsewhere (R196, R197, R203). -/
def Attempt.snapPage (a : Attempt) (seq j l h : Nat) : Option Nat :=
  if a.masked.contains (snapKey seq j l h) then none else assoc (snapKey seq j l h) a.snapshot

/-- The four parts of a slot, each with the poison of what it is made of: key elements, key scales, value elements, value
scales. -/
def slotBytes (f : Fmt) (key value : List Block) : List (List (Byte × Bool)) :=
  let es (bs : List Block) : List (Byte × Bool) := bs.flatMap fun b => (b.bytes f).map fun e => (e, b.poison)
  let ss (bs : List Block) : List (Byte × Bool) := bs.map fun b => (BitVec.ofNat 8 b.scale, b.sPoison)
  [es key, ss key, es value, ss value]

/-- The mirror of a slot's lines on the buddy (R371): whole lines to pool page POOL_PAGES/2 + p. They leave the unit that writes them,
and add to the step signature (R353). -/
def State.mirrorLines (s : State) (a : Attempt) (x : Ctx) (addr n : Nat) : State :=
  let buddy := (s.members[(s.me + cdiv s.members.length 2) % max 1 s.members.length]?).getD 0xFFF
  if !x.bookMatch || buddy = s.node then s
  else (List.range (lineSpan addr n)).foldl (fun s k =>
    let l := addr / 128 + k
    let r := s.stepLine a.ctx x l 0
    let off := 128 * l + x.usablePool * x.pageSize
    (r.2.2.sendRequest a.ctx x.job buddy off (.write r.1) r.2.1 .step).sign (off / 128) r.1) s

/-- The KV write path for one row of one layer and head group (R192): each part of the slot is a partial-line write, in a slot of the
schedule from the plane unit to HBM whose address is the slot's place in the snapshot (DEDUCED, log entry 24). A key or value that
is poisoned is consumed (R170). -/
def State.workKv (s : State) (a : Attempt) (x : Ctx) (seq i layer hg key value : Nat) : State :=
  match a.plan.rows[seq]? with
  | none => s
  | some r =>
    let t := r.slot i
    let kr := window (128 * hg) 128 (rowAt (s.bufRows key) (planRow a.plan seq i)).cells
    let vr := window (128 * hg) 128 (rowAt (s.bufRows value) (planRow a.plan seq i)).cells
    match a.snapPage seq (t / 256) layer hg with
    | none => s
    | some p =>
      let s := (s.readLenRow a 0 seq).readSnapshot a 0 (snapKey seq (t / 256) layer hg)
      let k := quantiseRow x.kvFmt none kr
      let v := quantiseRow x.kvFmt none vr
      let s := (s.addEvents (k.2.add v.2)).consumes (kr.any (·.2) || vr.any (·.2) || a.tainted.contains seq)
      let want (_ : Nat) (a : Attempt) (m : Move) : Bool :=
        fixed (fun m => [12, 13].contains (seSrc m.entry % 32) && hbmPort (seDst m.entry)) a m
      ((slotParts x.kvFmt (t % 256)).zip (slotBytes x.kvFmt k.1 v.1)).foldl (fun s q =>
        (s.unitWrite a.ctx x want (x.pageAddr p + q.1.1) q.2).mirrorLines a x (x.pageAddr p + q.1.1) q.2.length) s

/-- Four blocks from a slot's elements and scales, each with the poison of its own lines. -/
def slotBlocks (f : Fmt) (es sc : List (Byte × Bool)) : List Block :=
  (List.range 4).map fun b =>
    let e := if f.is8 then window (32 * b) 32 es else window (16 * b) 16 es
    let q := window b 1 sc
    ⟨leNat (q.map (·.1)), if f.is8 then e.map (·.1.toNat) else unpack4 (e.map (·.1)), e.any (·.2), q.any (·.2)⟩

/-- One stored slot of a page, as a core's walker reads it in the slots reserved for its window (R113); none where they do not
suffice. -/
def State.readSlot (s : State) (a : Attempt) (x : Ctx) (die core page t : Nat) : Option KvSlot × State :=
  let f := x.kvFmt
  let want (_ : Nat) (a : Attempt) (m : Move) : Bool :=
    a.reserved m && hbmPort (seSrc m.entry) && (coreUnit1 die core).takes m
  let rs := (slotParts f t).foldl (fun (acc : Option (List (List (Byte × Bool))) × State) p =>
    match acc.1 with
    | none => acc
    | some l =>
      let ad := x.pageAddr page + p.1
      match hbmLines a.ctx x want (lineSpan ad p.2) (ad / 128) acc.2 with
      | (none, s) => (none, s)
      | (some ls, s) => (some (l ++ [window (ad % 128) p.2 (cellsOf ls)]), s)) (some [], s)
  (rs.1.map fun l => ⟨slotBlocks f (l.getD 0 []) (l.getD 1 []), slotBlocks f (l.getD 2 []) (l.getD 3 [])⟩, rs.2)

/-- The slots `n` to 31 of a block. -/
def readBlock (a : Attempt) (x : Ctx) (die core page : Nat) : Nat → Nat → State → Option (List KvSlot) × State
  | 0, _, s => (some [], s)
  | n + 1, t, s =>
    match s.readSlot a x die core page t with
    | (none, s) => (none, s)
    | (some v, s) => match readBlock a x die core page n (t + 1) s with
      | (some l, s) => (some (v :: l), s)
      | (none, s) => (none, s)

/-- What a walker has made of a row of blocks: the states, the events, and the tiles as the checker sees them. -/
structure Walk1 where
  states : List (Option AState)
  events : QEvents
  outs : List (List Acc)
  chk : List ChkAcc
  deriving DecidableEq, Repr

def Walk1.empty : Walk1 := ⟨[], QEvents.none, [], []⟩
def Walk1.step (w : Walk1) (b : BlockOut) : Walk1 := ⟨w.states ++ [b.state], w.events.add b.events, w.outs ++ b.outs, w.chk ++ b.chk⟩

/-- Score blocks of one page for a query row, from block `b` on, as a core's walker finds them; slots that no page holds are masked,
and a block without a visible slot is not read. None where the window's slots do not suffice. -/
def walkBlocks (a : Attempt) (x : Ctx) (lr : LayerRec) (r : LenRow) (i die core j page : Nat) (q : List Block) :
    Nat → Nat → Walk1 → State → Option Walk1 × State
  | 0, _, w, s => (some w, s)
  | n + 1, b, w, s =>
    let first := 256 * j + 32 * b
    if !(List.range 32).any fun t => r.visible lr i (first + t) then walkBlocks a x lr r i die core j page q n (b + 1) (w.step BlockOut.null) s
    else match readBlock a x die core page 32 (32 * b) s with
      | (none, s) => (none, s)
      | (some l, s) => walkBlocks a x lr r i die core j page q n (b + 1) (w.step (blockState x.kvFmt lr r i first q l)) s

/-- PART_LOG2 of the jig (R189). -/
def jigPartLog2 (img : List Byte) : Nat := imgFld img 0x20 19 16

/-- A part of a row's pages (R189): the index of the member that holds it, its index there, and its logical pages. -/
structure Part where
  member : Nat
  index : Nat
  pages : List Nat
  deriving DecidableEq, Repr

/-- The parts of the first `count` logical pages, ordered by first logical page (R189, R217). -/
def partsOf (run h n pl count : Nat) : List Part :=
  let key (j : Nat) : Nat × Nat := (memberOf run h n j, localIndex run n j / 2 ^ pl)
  let ks := (List.range count).foldl (fun (acc : List (Nat × Nat)) j => if acc.contains (key j) then acc else acc ++ [key j]) []
  ks.map fun k => ⟨k.1, k.2, (List.range count).filter fun j => key j = k⟩

/-- A page that a layer under WINDOW_RELEASE has released is held by no member (R220). -/
def LayerRec.freed (r : LayerRec) (c j : Nat) : Bool := r.windowRelease && 256 * j + 255 + r.window ≤ c

/-- The parts of the pages that members hold for a row in a layer. -/
def State.rowParts (s : State) (a : Attempt) (x : Ctx) (r : LenRow) (layer : Nat) : List Part :=
  let lr := s.layerRecs x a.layers layer
  let ps := (partsOf x.runLog2 (s.homeIdx r.handle) s.members.length (jigPartLog2 a.img) (cdiv (r.committed + r.new) 256)).map fun p =>
    { p with pages := p.pages.filter fun j => !lr.freed r.committed j }
  ps.filter fun p => !p.pages.isEmpty

/-- The row is a query row in a layer: KV-fill rows are not (R208, R240). -/
def Attempt.queryRow (a : Attempt) (seq i layer : Nat) : Option LenRow :=
  match a.plan.rows[seq]? with
  | none => none
  | some r => if i < r.new && !a.kvFillAt seq layer then some r else none

/-- A home multicasts a new query row to every member that holds pages of its sequence, at a place that the jig names (R189; log
entry 24). The line leaves its unit, and adds to the step signature (R353). -/
def State.workQuery (s : State) (a : Attempt) (x : Ctx) (q seq i layer : Nat) : State :=
  match a.queryRow seq i layer with
  | none => s
  | some r =>
    if !s.isHome r.handle then s
    else
      let b := planRow a.plan seq i
      let row := rowAt (s.bufRows q) b
      let holders := distinct ((s.rowParts a x r layer).map (·.member))
      let dests := s.node :: s.peers.filter fun n => holders.contains (s.memberIndex n)
      s.multicast a x dests (Config.queryPlace a.img layer b) (wordCells row.cells)

def samePart (p q : PartMsg) : Bool :=
  p.seq = q.seq && p.i = q.i && p.layer = q.layer && p.hg = q.hg && p.qh = q.qh && p.member = q.member && p.index = q.index

/-- Two half pages belong to one row and head. -/
def sameRow (v w : HalfWalk) : Bool := v.seq = w.seq && v.i = w.i && v.layer = w.layer && v.hg = w.hg && v.qh = w.qh

/-- The half pages of a row's tiles that stand in banks. -/
def Attempt.walksInBanks (a : Attempt) : List HalfWalk :=
  a.tiles.filterMap fun t => match t.release with | .walk w _ => some w | _ => none

/-- The window of a core's attention walker is open (R113). -/
def Attempt.walkerOpen (a : Attempt) (die core : Nat) : Bool := a.openWindow 0 die a.cycle fun w => wUnit w = core

/-- Half a page of a query row on a core's walker, in the walker's window (R113); its tiles stand in a bank until the checker has
passed them (R213): four blocks fill 640 of a bank's accumulators and 20 of its checkers (R105). One walker takes a part (R189).
The query's own quantisation counts with the first half page of the row here. -/
def State.workAttend (s : State) (a : Attempt) (x : Ctx) (q seq i layer hg qh page : Nat) (upper : Bool) (die core : Nat) (bank : Bool) :
    State :=
  match a.queryRow seq i layer with
  | none => s
  | some r =>
    let b := planRow a.plan seq i
    if !s.coreOk a die core || !a.rowOn core b || !a.walkerOpen die core then s
    else if a.bankBusy die core bank then s.wait
    else
      let mine := (s.rowParts a x r layer).filter fun p => p.member = s.me
      match mine.find? fun p => p.pages.contains page with
      | none => s
      | some p =>
        let me : HalfWalk := ⟨seq, i, layer, hg, qh, page, upper, die * 48 + core, []⟩
        let there := (a.walks ++ a.walksInBanks).filter (sameRow me)
        if there.any fun w => (w.page = page && w.upper = upper) || (p.pages.contains w.page && w.core != me.core) then s
        else
          let s := s.readLenRow a die seq
          let lr := s.layerRecs x a.layers layer
          let row := window (128 * (hg * x.qpg + qh)) 128 (rowAt (s.bufRows q) b).cells
          let qb := quantHead (rotaryCells lr (r.pos i) row)
          let w := match a.snapPage seq page layer hg with
            | none => (some Walk1.empty, s)
            | some pg => walkBlocks a x lr r i die core page pg qb.1 4 (if upper then 4 else 0) Walk1.empty
                (s.readSnapshot a die (snapKey seq page layer hg))
          match w with
          | (none, s) => s
          | (some w, s) =>
            let first : Bool := !upper && (mine.head?.bind fun p => p.pages.head?) = some page
            let tile : Tile :=
              { die := die, core := core, bank := bank, desc := 2 ^ 16, row := b, col := 0, batch := [], wide := false, outs := w.outs
                chk := w.chk, invalid := [], fmt := .fp32
                release := .walk { me with states := w.states } (if first then qb.2.add w.events else w.events)
                failed := false, passed := false, due := 0, replays := [] }
            s.modAttempt fun a => { a with tiles := a.tiles ++ [tile] }

/-- The parts of a row here whose half pages have all passed: their blocks combine in ascending slot order (R216). -/
def State.partDone (s : State) (a : Attempt) (x : Ctx) (w : HalfWalk) : Option PartMsg :=
  match a.plan.rows[w.seq]? with
  | none => none
  | some r => match ((s.rowParts a x r w.layer).filter fun p => p.member = s.me).find? fun p => p.pages.contains w.page with
    | none => none
    | some p =>
      let half (j : Nat) (u : Bool) : Option HalfWalk := a.walks.find? fun v => sameRow v w && v.page = j && v.upper = u
      let hs := p.pages.flatMap fun j => [half j false, half j true]
      if hs.all Option.isSome then
        some ⟨w.seq, w.i, w.layer, w.hg, w.qh, s.me, p.index, partState (hs.flatMap fun h => (h.map (·.states)).getD [])⟩
      else none

/-- The merge of a row's parts at its home, once every member's part is here (R189, R217, R218). -/
def State.workMerge (s : State) (a : Attempt) (x : Ctx) (dst seq i layer hg qh : Nat) : State :=
  match a.queryRow seq i layer with
  | none => s
  | some r =>
    if !s.isHome r.handle then s
    else
      let want := (s.rowParts a x r layer).map fun p => (⟨seq, i, layer, hg, qh, p.member, p.index, none⟩ : PartMsg)
      let got := want.map fun p => a.parts.find? fun m => samePart m p
      if got.all Option.isSome then
        let m := mitre (got.map fun g => g.bind (·.state))
        let po := match m with | some st => st.poison | none => false
        s.putCols dst (planRow a.plan seq i) (128 * (hg * x.qpg + qh)) ((attnOut m).map fun v => (v, po))
      else if ((want.zip got).any fun wg => wg.2.isNone && wg.1.member = s.me) &&
          !a.walksInBanks.any fun w => sameRow w ⟨seq, i, layer, hg, qh, 0, false, 0, []⟩ then s
      else s.wait

/-! ## Experts and exits (R225 to R241) -/

def expertRec (img : List Byte) (layer : Nat) : Option ExpertRec := (jigExperts img).find? (·.layer = layer)

/-- The buffer holds outputs of a product under the descriptor. -/
def Attempt.formedUnder (a : Attempt) (b desc : Nat) : Bool := assoc b a.formed = some desc

/-- The key of a row's scores in a layer. -/
def scoreKey (layer row : Nat) : Nat := layer * 2 ^ 14 + row

/-- Router outputs become scores, a poisoned row's poisoned. -/
def State.workRouter (s : State) (a : Attempt) (src layer : Nat) : State :=
  match expertRec a.img layer with
  | none => s
  | some e =>
    if !a.formedUnder src e.routerDesc then s
    else (indexed (s.bufRows src)).foldl (fun s ir =>
      let z := ir.2.vals.take e.experts
      if z.isEmpty then s
      else s.modAttempt fun a => { a with scores := enlist (scoreKey layer ir.1) (scores e z, ir.2.poison) a.scores }) s

/-- The rows of the batch table that are eligible in a layer, with their sequences (R229). -/
def Attempt.eligible (a : Attempt) (layer : Nat) : List (Nat × Nat) :=
  ((indexed (planBatch a.plan)).filter fun r => !a.kvFillAt r.2.1 layer).map fun r => (r.1, r.2.1)

/-- The send list of one expert. -/
def State.sendList (s : State) (a : Attempt) (e : ExpertRec) (layer k : Nat) : List SendEntry :=
  (chooseRows e ((a.eligible layer).map fun r =>
    (r.1, (((assoc (scoreKey layer r.1) a.scores).map (·.1)).getD []).getD k nan32))).map fun p =>
      let h := s.slotAt a p.1
      ⟨p.1, h.1, h.2, fmul p.2 e.gateScale⟩

/-- The choice of every expert, its send list in slice space on its die, and the counts of R242. A poisoned score of an eligible
row reaches every list, and an engine that reads a poisoned list makes its context consume poison (R169, R170). What follows the
last entry in a list's last line is written as 0 (DESIGN CHOICE, log entry 24: R230 lays out the header and the entries only). -/
def State.workChoose (s : State) (a : Attempt) (layer : Nat) : State :=
  match expertRec a.img layer with
  | none => s
  | some e =>
    let lists := (List.range e.experts).map fun k => s.sendList a e layer k
    let po := (a.eligible layer).any fun r => ((assoc (scoreKey layer r.1) a.scores).map (·.2)).getD false
    let picked := lists.flatMap fun l => l.map (·.row)
    let unpicked := ((a.eligible layer).filter fun r => !picked.contains r.1).length
    let s := s.modAttempt fun a => { a with
      sends := enlist layer lists a.sends
      route := { a.route with
        unpicked := a.route.unpicked + unpicked, nullE := a.route.nullE + (lists.filter (·.isEmpty)).length } }
    (indexed lists).foldl (fun s kl =>
      let die := kl.1 % max 1 s.fuses.dies
      let bs := bytesOf (sendWords layer kl.1 kl.2)
      (s.readBatch die (Config.tableLine a.img)).sliceWrite (engineUnit1 die 2) die (Config.sendListLine a.img layer kl.1) 0
        ((bs ++ List.replicate ((128 - bs.length % 128) % 128) 0#8).map fun b => (b, po))) s

/-- Every second of a list: the poison of pairs of columns. -/
def halves : List Bool → List Bool
  | a :: _ :: l => a :: halves l
  | l => l

/-- What a tile group works on: the expert's entry and list, its slice width, and the bytes of its two operands (R175, R223). -/
structure Group where
  rec_ : ExpertRec
  list : List SendEntry
  width : Nat
  gateUp : List Byte
  down : List Byte
  deriving DecidableEq, Repr

def State.group (s : State) (a : Attempt) (layer expert : Nat) : Option Group :=
  match expertRec a.img layer with
  | none => none
  | some e => match jigOperand a.img e.gateUpDesc, jigOperand a.img e.downDesc with
    | some g, some d =>
      let list := ((assoc layer a.sends).getD []).getD expert []
      if e.experts ≤ expert || list.isEmpty then none
      else some ⟨e, list, 32 * sliceBlocks (e.width / 32) s.members.length s.me, g, d⟩
    | _, _ => none

/-- A core of the group reads its send list from slices; poison there is consumed (R116, R170). None where the schedule moves no
such line to the core. -/
def State.readList (s : State) (a : Attempt) (layer expert die core : Nat) (list : List SendEntry) : Option State :=
  match sliceLinesFor die (fun l => fixed ((coreUnit1 die core).fromSlice die l)) (cdiv (16 + 16 * list.length) 128)
      (Config.sendListLine a.img layer expert) s with
  | (none, _) => none
  | (some ls, s) => some (s.consumes (ls.any (·.2)))

/-- The chosen rows' quantised inputs come to a core of the group by their ROW index, in slots that its window reserves, once for
each group of 32 rows (R231). -/
def State.readRowsFor (s : State) (a : Attempt) (layer expert : Nat) (at_ : TileAt) (f : Fmt) (k rows : Nat) : Option State :=
  let key := (((layer * 1024 + expert) * 128 + at_.group) * 8 + at_.die.val) * 48 + at_.core.val
  if a.rowsRead.contains key then some s
  else
    let n := rows * cdiv (cdiv k 32 * (if f.is8 then 33 else 17)) 128
    (claims (fun a m => a.reserved m && !hbmPort (seSrc m.entry) && (coreUnit1 at_.die.val at_.core.val).takes m) n s).map fun s =>
      s.modAttempt fun a => { a with rowsRead := key :: a.rowsRead }

/-- The group runs on a core of the expert's die (R224). -/
def State.groupDie (s : State) (expert : Nat) (at_ : TileAt) : Bool := at_.die.val = expert % max 1 s.fuses.dies

/-- A tile of the gate and up product over the chosen rows, with output in FP32 (R231, R232). The group's rows are not split by
bench (DEDUCED, log entry 24). -/
def State.workGateUp (s : State) (a : Attempt) (x : Ctx) (layer expert dst src : Nat) (at_ : TileAt) : State :=
  match s.group a layer expert with
  | none => s
  | some g =>
    if !s.groupDie expert at_ then s
    else if a.bankBusy at_.die.val at_.core.val at_.bank then s.wait
    else
      let p := s.bufPlane src
      let row := 32 * at_.group
      let rows := (window row 32 g.list).map fun l => (l.row, l.row, p.1.getD l.row PlaneRow.none)
      let n := 2 * g.width
      let k := opK g.gateUp
      let bytes := cdiv k 32 * cdiv n 256 * veneerBytes (opW g.gateUp)
      let o : Operand := ⟨g.rec_.gateUpDesc, g.gateUp, p.2.2, p.2.1, opWBase g.gateUp + expert * bytes, k, n, row, rows⟩
      match (s.readList a layer expert at_.die.val at_.core.val g.list).bind fun s => s.readRowsFor a layer expert at_ p.2.1 k rows.length with
      | none => s
      | some s => s.formTile a x o at_ 0 (cdiv k 32) .fp32 (.rows dst) 0

/-- The gated rows of an expert become the down product's operand, on the plane unit of its die (R232). -/
def State.workHidden (s : State) (a : Attempt) (x : Ctx) (layer expert dst src : Nat) : State :=
  match s.group a layer expert with
  | none => s
  | some g =>
    let rs := s.bufRows src
    let hs := (indexed g.list).map fun il =>
      let r := rowAt rs il.1
      (il.2.row, (⟨(gated g.rec_.act il.2.gate r.vals).zip (halves (spreadPo 2 r.po))⟩ : FRow))
    s.formPlane a x dst g.rec_.downDesc (expert + 1) g.rec_.cap g.width (expert % max 1 s.fuses.dies) g.down hs

/-- A tile of the down product; its accumulators leave as one exact add for each row to its home (R232). -/
def State.workDown (s : State) (a : Attempt) (x : Ctx) (layer expert src : Nat) (at_ : TileAt) : State :=
  match s.group a layer expert with
  | none => s
  | some g =>
    if !s.groupDie expert at_ then s
    else
      let p := s.bufPlane src
      let row := 32 * at_.group
      let ls := window row 32 g.list
      let rows := (indexed ls).map fun il =>
        (slotRow (expert + 1) g.rec_.cap (row + il.1), il.2.row, p.1.getD (row + il.1) PlaneRow.none)
      let bytes := cdiv g.width 32 * cdiv (opN g.down) 256 * veneerBytes (opW g.down)
      let o : Operand := ⟨g.rec_.downDesc, g.down, p.2.2, p.2.1, opWBase g.down + expert * bytes, g.width, opN g.down, row, rows⟩
      s.formTile a x o at_ 0 (cdiv g.width 32) .fp32 (.home layer (ls.map fun l => (l.home, l.slot))) 0

/-- The batch-table rows of an operand's rows: those of the batch, or of an expert's send list. -/
def Attempt.batchOf (a : Attempt) (desc operand rows : Nat) : List Nat :=
  if operand = 0 then List.range rows
  else match (jigExperts a.img).find? fun e => e.downDesc = desc with
    | some e => ((((assoc e.layer a.sends).getD []).getD (operand - 1) []).map (·.row)).take rows
    | none => []

/-- The reduction length of an operand: the descriptor's K, or an expert's slice width (R226). -/
def State.operandLen (s : State) (a : Attempt) (desc operand : Nat) (d : List Byte) : Nat :=
  if operand = 0 then opK d
  else match (jigExperts a.img).find? fun e => e.downDesc = desc with
    | some e => 32 * sliceBlocks (e.width / 32) s.members.length s.me
    | none => opK d

/-- The layers after an exit's (R242). -/
def layersAfter (img : List Byte) (layer : Nat) : Nat :=
  (distinct (((jigStageTable img).filter fun st => stKind st = 1 && layer < stLayer st).map stLayer)).length

/-- The exit test of every decode row that has not exited, on column 0 of the exit head's outputs (R238, R239). A sequence that
exits has KIND 0b010 in the length table from here on, and its rows keep the hidden states that `state` holds (R240). A test that
read poison leaves its outcome poisoned: what the sequence commits of the step consumes it (R169, R170). -/
def State.workExit (s : State) (a : Attempt) (x : Ctx) (layer src state : Nat) : State :=
  match expertRec a.img layer with
  | none => s
  | some e =>
    if e.exit = 0 || !a.formedUnder src e.exitDesc then s
    else
      let rs := s.bufRows src
      let hidden := s.bufRows state
      ((indexed a.plan.rows).foldl (fun s sr =>
        if sr.2.kind != .decode || (a.exitLayer sr.1).isSome then s
        else
          let th := (x.params sr.2.handle).2.theta.getD (e.exit - 1) one32
          let rows := (List.range sr.2.new).map fun i => planRow a.plan sr.1 i
          let all := rows.all fun b => match (rowAt rs b).vals.head? with
            | some z => exits th z
            | none => false
          let s := if rows.any fun b => (rowAt rs b).po.headD false then s.modAttempt fun a => { a with tainted := addKey sr.1 a.tainted } else s
          if !all then s
          else s.modAttempt fun a => { a with
            exits := a.exits ++ [(sr.1, e.exit, layer)]
            states := rows.foldl (fun l b => enlist b (rowAt hidden b) l) a.states
            route := { a.route with
              kvFill := a.route.kvFill + layersAfter a.img layer * sr.2.new
              exits := a.route.exits.set (e.exit - 1) (a.route.exits.getD (e.exit - 1) 0 + 1) } }) s).putTable

/-! ## Sampling (R267 to R285) -/

/-- The rows on the path from the root to row `k` of a decode row. -/
def pathRows (parents : List Nat) : Nat → Nat → List Nat
  | 0, _ => []
  | f + 1, k => if k = 0 then [0] else pathRows parents f (parents.getD (k - 1) 0) ++ [k]

/-- One step of a token automaton; none where the image faults the context (R272). -/
def State.autoNext (s : State) (c : Nat) (x : Ctx) (base st tok : Nat) : Option Nat × State :=
  if st = 0xFFFFFFFF then (some st, s)
  else match s.workTable c x base 16 with
    | (none, s) => (none, s)
    | (some h, s) => match s.workTable c x (base + 16 + 32 * st) 32 with
      | (none, s) => (none, s)
      | (some r, s) =>
        let ws := wordsOf r
        match s.workTable c x (addr48 ws 0x08 0x0C) (8 * (wordAt ws 0x10).toNat) with
        | (none, s) => (none, s)
        | (some es, s) =>
          let nx := match (chunks 8 es).find? fun e => leNat (e.take 4) % 2 ^ 20 = tok with
            | some e => leNat (window 4 4 e)
            | none => (wordAt ws 0x14).toNat
          if nx = 0xFFFFFFFF || nx < leNat (h.take 4) then (some nx, s) else (none, s.stepFault wholeCtx stPage)

/-- The state after tokens. -/
def autoRun (c : Nat) (x : Ctx) (base : Nat) : List Nat → Nat → State → Option Nat × State
  | [], st, s => (some st, s)
  | t :: ts, st, s =>
    match s.autoNext c x base st t with
    | (none, s) => (none, s)
    | (some n, s) => autoRun c x base ts n s

/-- Which tokens of this member's slice the constraint of a row allows; none where a read faults (R271, R272). -/
def State.allowed (s : State) (a : Attempt) (x : Ctx) (seq : Nat) (con : ConParams) (auto : Nat) (path : List Nat) :
    Option (List Bool) × State :=
  let n := (s.vocabSlice (Config.vocab x.job)).2
  if con.constraint = 1 then (assoc seq a.bitmaps, s)
  else if con.constraint = 2 then
    match autoRun a.ctx x con.conAddr path auto s with
    | (none, s) => (none, s)
    | (some st, s) =>
      if st = 0xFFFFFFFF then (some (List.replicate n false), s)
      else match s.workTable a.ctx x (con.conAddr + 16 + 32 * st) 32 with
        | (none, s) => (none, s)
        | (some r, s) => s.readBitmap a.ctx x (addr48 (wordsOf r) 0 4)
  else (some (List.replicate n true), s)

/-- A decode row's candidates are kept at its home, or sent there. -/
def State.giveCands (s : State) (handle seq i : Nat) (g : SliceSend) : State :=
  if s.isHome handle then s.modAttempt fun a => { a with gathered := a.gathered ++ [⟨seq, i, s.me, g⟩] }
  else s.emit (.cands (s.homeNode handle) seq i g)

/-- Stages 1 to 4 of one row on this member's vocabulary slice: the buffer's row begins with the slice's logits (R268). -/
def State.workSlice (s : State) (a : Attempt) (x : Ctx) (seq i src : Nat) : State :=
  match a.plan.rows[seq]? with
  | none => s
  | some r =>
    let row := rowAt (s.bufRows src) (planRow a.plan seq i)
    let v := s.vocabSlice (Config.vocab x.job)
    match a.input? r.handle with
    | none => s
    | some inp =>
      if r.kind != .decode || r.new ≤ i || row.vals.length < v.2 then s
      else
        let s := (s.readLenRow a 0 seq).consumes (row.poison || inp.poison || a.tainted.contains seq || (x.params r.handle).2.poison)
        let d := (x.params r.handle).1
        let con := (x.params r.handle).2
        let toks := (pathRows r.parents (r.nodes + 1) i).map fun k => inp.tokens.getD k 0
        -- the root's token is not yet in the table only when it was not published (R270)
        let extra := if d.scopeAll && !inp.rootPublished then toks else toks.tail
        match s.allowed a x seq con inp.auto toks.tail with
        | (none, s) => s
        | (some ok, s) =>
          let ys := (indexed (row.vals.take v.2)).map fun tz =>
            stage3 d (ok.getD tz.1 false)
              (stage1 d (con.bias (v.1 + tz.1)) (penCount inp.pen d.scopeAll extra (v.1 + tz.1)) tz.2)
          s.giveCands r.handle seq i (stage4 d v.1 ys)

/-- Heads of the context's speculation table, and a head's descriptor. -/
def Ctx.heads (x : Ctx) : Nat := fieldAt x.spec 0 3 0
def Ctx.headDesc (x : Ctx) (h : Nat) : Nat := fieldAt x.spec (0x10 + 16 * (h - 1)) 15 0

def State.giveHeads (s : State) (handle seq i h : Nat) (l : List (Nat × Word)) (poison : Bool) : State :=
  if s.isHome handle then s.modAttempt fun a => { a with heads := a.heads ++ [⟨seq, i, h, s.me, l, poison⟩] }
  else s.emit (.headCands (s.homeNode handle) seq i h l poison)

/-- One head's outputs on one row: this member's slice of the draft vocabulary gives its sixteen highest, each a token by the
head's map (R283), poisoned where an output or the map is (R169). -/
def State.workHead (s : State) (a : Attempt) (x : Ctx) (seq i h src : Nat) : State :=
  match a.plan.rows[seq]? with
  | none => s
  | some r =>
    if h = 0 || x.heads < h || r.new ≤ i || (r.kind = .prefill && i + 1 != r.new) || !a.formedUnder src (x.headDesc h) then s
    else
      let b := 0x10 + 16 * (h - 1)
      let v := s.vocabSlice (fieldAt x.spec (b + 4) 15 0)
      let m := addr48 x.spec (b + 8) (b + 12)
      match s.workRead a.ctx x (m + 4 * v.1) (4 * v.2) with
      | (none, s) => s
      | (some (bs, po), s) =>
        let zs := window v.1 v.2 (rowAt (s.bufRows src) (planRow a.plan seq i)).cells
        let outs := (indexed zs).map fun kz => (leNat (window (4 * kz.1) 4 bs) % 2 ^ 20, kz.2.1)
        s.giveHeads r.handle seq i h ((sortBy candAbove outs).take 16) (po || zs.any (·.2))

/-- The candidates that a sequence keeps from a row, by head. -/
def Attempt.keptCands (a : Attempt) (x : Ctx) (seq row : Nat) : List (List Nat) :=
  (List.range x.heads).map fun h =>
    ((sortBy candAbove ((a.heads.filter fun e => e.seq = seq && e.i = row && e.h = h + 1).flatMap (·.outs))).take 16).map (·.1)

/-- Some of a row's head outputs were poisoned. -/
def Attempt.keptPo (a : Attempt) (seq row : Nat) : Bool := a.heads.any fun e => e.seq = seq && e.i = row && e.poison

/-- The sends of a row here by member, and the head outputs. -/
def Attempt.hasCands (a : Attempt) (seq i member : Nat) : Bool :=
  a.gathered.any fun g => g.seq = seq && g.i = i && g.member = member
def Attempt.hasHeads (a : Attempt) (x : Ctx) (seq i member : Nat) : Bool :=
  (List.range x.heads).all fun h => a.heads.any fun e => e.seq = seq && e.i = i && e.h = h + 1 && e.member = member

/-- The state of the automaton after what a walk publishes. -/
def State.drawAuto (s : State) (a : Attempt) (x : Ctx) (q : Seq) (toks : List Nat) : Nat × State :=
  if q.con.constraint != 2 then (q.auto, s)
  else match autoRun a.ctx x q.con.conAddr toks q.auto s with
    | (some st, s) => (st, s)
    | (none, s) => (q.auto, s)

/-- Stages 5 to 8 for a sequence homed here, on die HANDLE mod D (R267), once every member's candidates are here. A prefill chunk
that leaves only the pending token keeps the candidates of its last row; a walk those of the row that drew the new pending token
(R283). -/
def State.workDraw (s : State) (a : Attempt) (x : Ctx) (seq : Nat) : State :=
  match a.plan.rows[seq]? with
  | none => s
  | some r => match x.seq? r.handle, a.input? r.handle with
    | some q, some inp =>
      let decode : Bool := r.kind = .decode
      let rows := if decode then List.range r.new else [r.new - 1]
      let has (m : Nat) : Bool := rows.all fun i => (!decode || a.hasCands seq i m) && a.hasHeads x seq i m
      if !decode && q.queue.length != r.new + 1 then s
      else if !has s.me then s
      else if !s.inService.all fun n => has (s.memberIndex n) then s.wait
      else
        let die := r.handle % max 1 s.fuses.dies
        if !decode then
          s.modAttempt fun a => { a with results := (a.results.filter (·.handle != r.handle)) ++
            [⟨r.handle, [], [], 0, r.new - 1, false, 0, a.keptCands x seq (r.new - 1), a.keptPo seq (r.new - 1), q.auto, die⟩] }
        else
          let sends (i : Nat) : List SliceSend :=
            (sortBy (fun (a b : RowCands) => a.member < b.member) (a.gathered.filter fun g => g.seq = seq && g.i = i)).map (·.send)
          let exit := ((a.exits.find? fun e => e.1 = seq).map (·.2.1)).getD 0
          let w := walk r.parents (fun k => inp.tokens.getD k 0) fun k => drawRow q.draw (r.pos k) (sends k)
          let res : Result := ⟨r.handle, w.draws, w.accepted, r.nodes, w.last, w.deadEnd, exit, [], false, q.auto, die⟩
          let p := pubOf q r.committed res
          let last := (0 :: w.accepted).getD (p.toks.length - 1) 0
          let kept := if p.toks.isEmpty then [] else a.keptCands x seq last
          let au := s.drawAuto a x q p.toks
          au.2.modAttempt fun a => { a with
            results := (a.results.filter (·.handle != r.handle)) ++ [{ res with cands := kept, candsPo := a.keptPo seq last, auto := au.1 }] }
    | _, _ => s

/-! ## What comes from other members, and events -/

/-- Contributions and events take effect as they come. -/
def workArrives : Work → Bool
  | .rowInput _ | .cands _ _ _ _ | .headCands _ _ _ _ _ _ | .part _ | .remoteWait _ | .sramUpset _ _ _ _ _ | .moveUpset _ _ _ _
  | .serviceRead _ _ _ | .serviceWrite _ _ _ _ _ => true
  | _ => false

/-- Bits of a word of a line turn over; a line that does not exist has none. -/
def State.upset (s : State) (m : Sram) (word bits : Nat) : State :=
  if m.ok s.fuses.dies then s.setSramMask m word (s.sramMask m word ^^^ bits % 2 ^ 72) else s

/-- The message comes from another member, about a sequence that is homed here. -/
def State.forHome (s : State) (a : Attempt) (seq member : Nat) : Bool :=
  member != s.me && member < s.members.length && match a.plan.rows[seq]? with | some r => s.isHome r.handle | none => false

/-- What concerns the package alone comes whether or not a step is in flight (R116, R119); the rest is the step's. -/
def State.arrive (s : State) (w : Work) : State :=
  match w with
  | .sramUpset die core line word bits =>
    s.upset (match core with | some c => .core die.val c.val line | none => .slice die.val line) word.val bits
  | .serviceRead src die off => s.serviceRead src.val die.val off
  | .serviceWrite src die off bs po => s.serviceWrite src.val die.val off bs po
  | _ => match s.attempt with
    | none => s
    | some a => if a.sealed then s else match w with
      | .rowInput r =>
        if a.loaded || s.isHome r.handle || (a.input? r.handle).isSome then s
        else s.modAttempt fun a => { a with inputs := a.inputs ++ [r] }
      | .cands seq i m g =>
        if !s.forHome a seq m || a.hasCands seq i m then s
        else s.modAttempt fun a => { a with gathered := a.gathered ++ [⟨seq, i, m, g⟩] }
      | .headCands seq i h m l po =>
        if !s.forHome a seq m || (a.heads.any fun e => e.seq = seq && e.i = i && e.h = h && e.member = m) then s
        else s.modAttempt fun a => { a with heads := a.heads ++ [⟨seq, i, h, m, l, po⟩] }
      | .part p =>
        if !s.forHome a p.seq p.member || (a.parts.any fun q => samePart p q) then s
        else s.modAttempt fun a => { a with parts := a.parts ++ [p] }
      | .remoteWait ns => s.bump64 oRemoteLo ns
      | .moveUpset die port word bits => s.modAttempt fun a =>
        let k := (die.val * 256 + port) * 16 + word.val
        { a with upsets := poke 0 a.upsets k (peek 0 a.upsets k ^^^ bits % 2 ^ 72) }
      | _ => s

/-! ## One piece of work -/

/-- The first place at or after the phase that the order of R25 gives pieces of one kind. -/
def firstPlace (phase : Nat) (places : List Nat) : Nat := (places.find? (phase ≤ ·)).getD 0

/-- The places of an operand's rotation and product in a layer (R25): an expert's, a router's and an exit head's have their own;
any other operand's belong to the projections before attention or to the output projection after it, whose partials the
cross-package reduction takes. -/
def operandPlaces (img : List Byte) (layer desc : Nat) (before : Nat) : List Nat :=
  match expertRec img layer with
  | some e =>
    if desc = e.routerDesc then [7]
    else if desc = e.gateUpDesc || desc = e.downDesc then [8]
    else if e.exit != 0 && desc = e.exitDesc then [10]
    else [before, 5, 6]
  | none => [before, 5, 6]

/-- The layer of a piece and its place in R25's order within a layer; none for a piece of no fixed place. Places: 1 the norm, 2
rotation, 3 the projections, 4 attention, 5 the output projection, 6 the reduction, 7 the choice, 8 the expert slices, 9 the
combine, 10 the exit test. Place 0 has passed. -/
def Attempt.place (a : Attempt) (w : Work) : Option (Nat × Nat) :=
  match w with
  | .kvWrite _ _ l _ _ _ | .query _ _ _ l | .attend _ _ _ l _ _ _ _ _ _ _ | .merge _ _ _ l _ _ => some (l, 4)
  | .router _ l | .choose l => some (l, 7)
  | .gateUp l _ _ _ _ | .hidden l _ _ _ | .down l _ _ _ => some (l, 8)
  | .exitPoint l _ _ => some (l, 10)
  | .plane _ _ desc _ | .recompute _ desc _ _ _ => a.layerNow.map fun l => (l, firstPlace a.phase (operandPlaces a.img l desc 2))
  | .product _ desc _ _ _ _ _ | .wideProduct _ _ desc _ _ => a.layerNow.map fun l => (l, firstPlace a.phase (operandPlaces a.img l desc 3))
  | _ => none

/-- The stage kinds in which a piece may come (R25, R135): nothing but transfers and what the load stage does in stages 0x0 and
0x4, attention and the experts in a forward layer, sampling in the head and sample stages. -/
def workKinds : Work → List Nat
  | .load => [0]
  | .crossbar _ => [0, 1, 2, 3, 4, 5, 6]
  | .kvWrite _ _ _ _ _ _ | .query _ _ _ _ | .attend _ _ _ _ _ _ _ _ _ _ _ | .merge _ _ _ _ _ _ | .router _ _ | .choose _
  | .gateUp _ _ _ _ _ | .hidden _ _ _ _ | .down _ _ _ _ | .exitPoint _ _ _ => [1]
  | .slice _ _ _ | .head _ _ _ _ | .draw _ => [2, 3]
  | _ => [1, 2, 3, 5, 6]

/-- The piece belongs to the stage by its kind and layer, and comes in its place in the layer's order (R25, R135). A piece that
does not has no effect (log entry 24). An image without stages gives no kind. -/
def Attempt.fits (a : Attempt) (w : Work) : Bool :=
  (match a.kindNow with
    | some k => (workKinds w).contains k
    | none => a.stageCount = 0 && a.place w = none) &&
  match a.place w with
  | some p => a.layerNow = some p.1 && p.2 != 0 && a.phase ≤ p.2
  | none => true

/-- The buffers whose rows a piece reads. -/
def workSources : Work → List Nat
  | .store b _ _ _ _ | .plane _ b _ _ | .wideProduct _ b _ _ _ | .vload _ _ _ b _ _ | .attend b _ _ _ _ _ _ _ _ _ _ | .query b _ _ _
  | .router b _ | .hidden _ _ _ b | .slice _ _ b | .head _ _ _ b => [b]
  | .exitPoint _ b c => [b, c]
  | .vec _ _ a b c _ _ => [a, b, c]
  | .kvWrite _ _ _ _ k v => [k, v]
  | _ => []

/-- The vector registers that a piece reads or writes. -/
def workRegs : Work → List Nat
  | .vload d c r _ _ _ | .vstore d c r _ _ _ => [vregKey d.val c.val r.val]
  | .vreg _ d c p q r t => [p, q, r, t].map fun n => vregKey d.val c.val n.val
  | _ => []

def State.workIn (s : State) (a : Attempt) (x : Ctx) (w : Work) : State :=
  match w with
  | .load => s.workLoad a x
  | .input dst rows => s.setBuf dst (.rows (rows.map fun r => .of r false))
  | .fetch dst p rows cols f die core => s.workFetch a x dst p rows cols f die.val core.val
  | .store src p f die core => s.workStore a x src p f die.val core.val
  | .crossbar n => s.workCrossbar a x n
  | .plane dst src desc die => if s.clocked die.val 64 then s.workPlane a x dst src desc die.val else s
  | .grant layer site => s.workGrant a layer site
  | .recompute dst desc operand rows die => match jigOperand a.img desc with
    | none => s
    | some d => if !s.clocked die.val 64 then s else s.workRecompute a dst desc operand (s.operandLen a desc operand d) die.val d (a.batchOf desc operand rows)
  | .product src desc at_ first count into adds => s.workProduct a x src desc at_ first count into adds
  | .wideProduct dst src desc die core => if s.coreOk a die.val core.val then s.workWide a x dst src desc die.val core.val else s
  | .vec op dst p q r die core => s.workVec a op dst p q r die.val core.val
  | .vload die core reg src row col => s.workVload a die.val core.val reg.val src row col
  | .vreg op die core d p q r => s.workVreg a op die.val core.val d.val p.val q.val r.val
  | .vstore die core reg dst row col => s.workVstore a die.val core.val reg.val dst row col
  | .kvWrite seq i layer hg k v => s.workKv a x seq i layer hg k v
  | .query q seq i layer => s.workQuery a x q seq i layer
  | .attend q seq i layer hg qh page upper die core bank => s.workAttend a x q seq i layer hg qh page upper die.val core.val bank
  | .merge dst seq i layer hg qh => s.workMerge a x dst seq i layer hg qh
  | .router src layer => s.workRouter a src layer
  | .choose layer => s.workChoose a layer
  | .gateUp layer e dst src at_ => s.workGateUp a x layer e dst src at_
  | .hidden layer e dst src => s.workHidden a x layer e dst src
  | .down layer e src at_ => s.workDown a x layer e src at_
  | .exitPoint layer src state => s.workExit a x layer src state
  | .slice seq i src => s.workSlice a x seq i src
  | .head seq i h src => s.workHead a x seq i h src
  | .draw seq => s.workDraw a x seq
  | .rowInput _ | .cands _ _ _ _ | .headCands _ _ _ _ _ _ | .part _ | .remoteWait _ | .sramUpset _ _ _ _ _ | .moveUpset _ _ _ _
  | .serviceRead _ _ _ | .serviceWrite _ _ _ _ _ => s.arrive w

/-- A piece of work of the step in flight, on the state as it stands; one whose rows or registers are still withheld or in a bank
waits. -/
def State.doPiece (s : State) (w : Work) : State :=
  match s.attempt with
  | none => s
  | some a => match s.ctx a.ctx with
    | none => s
    | some x =>
      if !a.fits w then s
      else if (workSources w).any a.unready || (workRegs w).any a.unreadyReg then s.wait
      else
        let t := s.workIn a x w
        match a.place w with
        | none => t
        | some p => t.modAttempt fun a => { a with phase := p.2 }

end Sys2Proof.Machine
end

