-- ==== Sys2Proof/Machine/StepFlow.lean ====
section
/-! DEFINITION. The commands of planning, steps, seals and commit (R25 to R29, R109, R129, R135, R141, R145 to R151, R233
to R235, R251, R253, R254, R326, R336 to R338, R350, R351, R356, R362, R363, R370, R372, R382). -/

namespace Sys2Proof.Machine

/-! ## Planning -/

/-- The slot counter of a crossbar segment, counted from the step's start (R128, R150): where a segment that holds stands. After the
last stage every segment has run all cycles of the jig. -/
def Attempt.counter (a : Attempt) (die seg : Nat) : Nat :=
  (assoc (die * 8 + seg) a.lags).getD (if a.stage < a.stageCount then a.span.1 + a.cycle else jigCycles a.img)

/-- The lead's progress through its step has reached PLAN_POINT: the slot counter of segment 0 on the die of its seal agent
(R21, R150). -/
def State.atPlanPoint (s : State) (a : Attempt) : Bool :=
  a.loaded && match s.sealAgent with
  | none => false
  | some d => jigPlanPoint a.img ≤ a.counter d 0

/-- The lead publishes its next plan when its progress reaches PLAN_POINT (R150). -/
def execPlanPointReached (s : State) : Host.Outcome State Fault Refusal :=
  .next <| match s.attempt with
  | none => s
  | some a => if s.isLead && s.atPlanPoint a && s.plans.isEmpty && !s.degraded then s.planNext else s

/-- While no step is in flight, the lead publishes a plan from the reports that homes sent (R254). -/
def execIdlePlan (s : State) : Host.Outcome State Fault Refusal :=
  .next (if s.isLead && s.idle && !s.degraded then s.planNext else s)

/-- What has been accepted takes effect while the context is idle (R251). -/
def execIdleApply (s : State) : Host.Outcome State Fault Refusal := .next s.idleApply

/-- DEGRADED ends (R373): by RESUME on the lead, and elsewhere with the first plan after it. A member whose buddy is back writes its
mirror again. -/
def State.leaveDegraded (s : State) : State :=
  if !s.degraded then s
  else
    let back := s.lostNodes
    let s := ({ s with lostNodes := [] } : State).mirrorAgain back
    let s := if fld (s.reg oIntStat) 1 0 = 1 then s.setRegFld oIntStat 1 0 0 else s
    s.event stDegraded none (fld (s.reg oIntStat) 27 16) 0 (s.reg64 oSigStepLo)

/-- A refused plan faults the context, on every member, from the node that refused it (R141, R378): no attempt of it goes on. -/
def State.planRefused (s : State) (c node : Nat) : State :=
  let s := match s.attempt with
    | some a => if a.ctx = c then s.stopAttempt a .none else s
    | none => s
  ((s.faultAt c stFault .none node).settleCtxs .none).runPlaces

/-- A refusal is known here. While an earlier step of the context is in flight it waits for the step that it names. -/
def State.takeRefusal (s : State) (m : SealMsg) : State :=
  match s.activeOfJob m.job with
  | none => s
  | some (c, _) => match s.attempt with
    | some a =>
      if a.ctx = c && !(a.plan.step = m.step && a.plan.attempt = m.attempt) then { s with sealsHeld := s.sealsHeld ++ [m] }
      else s.planRefused c m.node
    | none => s.planRefused c m.node

/-- A plan of one step replaces what was published for that step before. A plan that follows a retraction replaces every plan that
came before it: those were published while the retracted attempt ran, and are discarded unused (R27; DEDUCED, log entry 18: plans
come down the tree in the order of their publication). -/
def State.keepPlan (s : State) (pl : Plan) : State :=
  { s with plans := (if pl.attempt = 0 then s.plans.filter fun p => !(p.job = pl.job && p.step = pl.step) else []) ++ [pl] }

/-- The plan that may start next: the first whose predecessor in its context has committed here, and that has not been
retracted (R27). -/
def State.nextPlan (s : State) : Option Plan :=
  s.plans.find? fun p => (match s.ctxOfJob p.job with | some e => p.step = e.2.step + 1 | none => false) &&
    s.attemptFloor p.job ≤ attemptKey p.step p.attempt

/-- A standby that has joined takes the partition's last committed step from the first plan (R373; DEDUCED, log entry 33). -/
def State.adoptStep (s : State) (c : Nat) (pl : Plan) : State :=
  if s.lastJob = 0 && s.attempt.isNone && s.plans.isEmpty then
    s.modCtx c fun x => if x.step = 0 then { x with step := pl.pred } else x
  else s

/-- A plan comes down the tree and goes on to this member's children (R336). A member without an active context of the
job, or without the named image in its slot as it stands, refuses it (R141, R378); one that has been retracted, or that a later attempt
has replaced, is not kept (R363). -/
def execPlan (pl : Plan) (s : State) : Host.Outcome State Fault Refusal :=
  .next <|
    let s := (s.heardCtl (planBody pl).length).emits (s.planChildren.map fun n => .plan n pl)
    if attemptKey pl.step pl.attempt < s.attemptFloor pl.job || s.departed then s
    else
      let s := { s with replansDue := s.replansDue.filter (· != pl.job) }
      match (s.activeOfJob pl.job).filter fun cx => ((cx.2.jig? pl.slot).map jigDigest) = some pl.digest with
      | some (c, _) => ((s.wake.leaveDegraded).adoptStep c pl).keepPlan pl
      | none =>
        let m := s.refusalOf pl.job pl.step pl.attempt
        let s := if (s.activeOfJob pl.job).isSome then s.keepPlan pl else s
        (s.sendRefusal m).takeRefusal m

/-! ## Work in stages (R25, R135) -/

/-- What a piece of work found missing is asked of its lenders, each line once (R181). -/
def State.stallOn (s : State) (a : Attempt) (ls : List Nat) : State :=
  match s.ctx a.ctx with
  | none => s
  | some x => ls.foldl (fun s l =>
      let e := x.page (pageOf (128 * l))
      if s.outst.any fun o => o.purpose = .line a.ctx l then s
      else s.sendRequest a.ctx x.job (entryNode e) (entryRframe e * 2 ^ 21 + 128 * l % 2 ^ 21) (.read 1) false (.line a.ctx l)) s

def isCrossbar : Work → Bool
  | .crossbar _ => true
  | _ => false

/-- Pieces of work in turn. A piece that finds something missing has no effect: it and those after it wait (R128, R181). Where a
segment of the crossbar has to hold, what has fired stays, and the work after it waits until the segment has gone on. -/
def runList : List Work → State → State
  | [], s => s.modAttempt fun a => { a with todo := [] }
  | w :: ws, s =>
    let t := s.doPiece w
    match t.attempt with
    | none => t
    | some b =>
      if isCrossbar w && !b.waits then
        if b.lags.isEmpty then runList ws (t.modAttempt fun a => { a with wants := [] })
        else (t.modAttempt fun a => { a with todo := .crossbar 0 :: ws, wants := [] }).stallOn b b.wants
      else if b.waits || !b.wants.isEmpty then (s.modAttempt fun a => { a with todo := w :: ws }).stallOn b b.wants
      else runList ws t

/-- The next stage begins; the order of R25 runs on from stage to stage of one layer. -/
def State.nextStage (s : State) : State :=
  (s.modAttempt fun a =>
    let b := { a with stage := min (a.stage + 1) a.stageCount, cycle := 0, ending := false, claims := [] }
    { b with phase := if b.layerNow.isSome && b.layerNow = a.layerNow then a.phase else 0 }).streamJig

/-- Every window of the stage has ended: each lasts its full length (R145). -/
def Attempt.windowsDone (a : Attempt) : Bool := a.windowsNow.all fun iw => a.windows.contains iw.1

/-- The stage's work goes on, as far as what it needs is here; after the last piece, and the last window, the stage ends. -/
def State.runTodo (s : State) : State :=
  match s.attempt with
  | none => s
  | some a =>
    let t := runList a.todo s
    match t.attempt with
    | none => t
    | some b => if b.ending && b.todo.isEmpty && b.windowsDone then t.nextStage else t

/-- A stage's work comes, and the stage ends once it is done, the crossbar has run the rest of the stage's cycles, and its windows have
ended. What other members sent, and events, take effect at once, those of the package's own lines whether or not a step is in
flight; a list of nothing else ends no stage. Work that comes while a stage waits to end
belongs to it too. The count stops at the last stage (log entry 24). -/
def execStageEnd (work : List Work) (s : State) : Host.Outcome State Fault Refusal :=
  let s := (work.filter workArrives).foldl (fun s w => s.arrive w) s
  .next <| match s.attempt with
  | none => s
  | some a =>
    if a.sealed then s
    else
      let rest := work.filter fun w => !workArrives w
      let s :=
        if rest.isEmpty && !work.isEmpty then s
        else s.modAttempt fun a =>
          if a.ending then { a with todo := a.todo.dropLast ++ rest ++ a.todo.drop (a.todo.length - 1) }
          else { a with todo := a.todo ++ rest ++ [.crossbar (2 ^ 32)], ending := true }
      s.runTodo

/-- A lender's lines, its confirmation of a page, or a buddy's mirror (R155, R181, R373, R389). What comes for an attempt that is over is
dropped. -/
def execData (src tag : Nat) (bytes : List Byte) (poison : Bool) (s : State) : Host.Outcome State Fault Refusal :=
  .next <|
    let s := s.heardRsp bytes.length
    match s.takeOutst src tag with
    | none => s
    | some (o, s) => match o.purpose with
      | .lend path _ page => s.lendConfirmed path page
      | .line c l =>
        if s.stepOf c then
          (s.modAttempt fun a => { a with lent := enlist l (bytes.take 128 ++ List.replicate (128 - bytes.length) 0#8, poison) a.lent }).runTodo
        else s
      | .fetch id job line => s.fetchLanded id job line bytes poison
      | .copy path c line => s.copyLanded path c line bytes poison
      | .joinRecord id line => s.joinRecordLanded id line bytes
      | .joinMem id a => s.joinMemLanded id a bytes poison
      | .step | .load _ | .ship _ | .manager _ | .mirror _ | .mcast _ _ => s

/-! ## Starting -/

/-- The step starts when common time reaches its start, or on the latest of R150's moments (R25, R28, R382): at the first 10 ns tick whose
count is not below the planned start, and late where that count lies above it (DESIGN CHOICE, log entry 8). A peer's refusal, its failed
share, or a RETRACT may be here already (R26). -/
def execStepStart (s : State) : Host.Outcome State Fault Refusal :=
  .next <| match s.nextPlan with
  | none => s
  | some p => match s.ctxOfJob p.job with
    | none => s
    | some (c, x) =>
      if !s.mayStart p x then s
      else
        let seals := s.sealsHeld.filter fun m => m.job = p.job && m.step = p.step && m.attempt = p.attempt
        let rs := s.retractsHeld.filter fun m => m.job = p.job && m.step = p.step && m.attempt = p.attempt
        let s := { s with
          plans := s.plans.filter (· != p), lead := { s.lead with saved := s.lead.saved.filter fun k => !(k.job = p.job && k.step = p.step) }
          sealsHeld := s.sealsHeld.filter fun m => !seals.contains m, retractsHeld := s.retractsHeld.filter fun m => !rs.contains m }
        match seals.find? isRefusal with
        | some m => s.planRefused c m.node
        | none =>
          let s := if p.start < s.time then s.bump oLateStart 31 0 1 else s
          let s := if s.lastJob != 0 && s.lastJob != p.job then s.bump oSwitches 31 0 1 else s
          let s := { s with lastJob := p.job, switchWait := [], lead := { s.lead with cur := p.job } }
          let s := (s.loadStage c x p).modAttempt fun a => { a with seals := seals, overran := rs.any (·.overran) }
          match rs, seals.find? (fun m => !m.pass), s.attempt with
          | r :: _, _, some a => (s.bump oRetractRcvd 31 0 1).retractAttempt a r.node r.cause false
          | [], some m, some a => s.retractAttempt a m.node stFault false
          | _, _, _ => s.runTodo.unpark

/-! ## Tiles -/

/-- One exact-accumulate add of a tile's row into a region, here or at another member (R72, R232, R332). What leaves for another member
adds to the step signature, under the message's OFFSET as its line number (R353; DESIGN CHOICE, log entry 31). -/
def State.addOut (s : State) (c job node region first : Nat) (states : List Acc) : State :=
  if s.attempt.isNone then s
  else if node = s.node then s.accAdd region first states
  else
    let off := region + 2 ^ 16 * first
    (s.sendRequest c job node off (.acc (states.map Acc.wire)) (states.any (·.poison)) .step).signLines (128 * off) (states.flatMap Acc.wire)

/-- The rows of a tile whose outputs leave it: index, accumulators of its columns and their invalid marks. A granted row's 4-bit
outputs are discarded, and a row that takes no part has none (R100). -/
def Tile.rowsOut (t : Tile) (skip : List Nat) : List (Nat × List (Acc × Bool)) :=
  (indexed (t.outs.zip t.invalid)).filterMap fun io =>
    if io.2.1.isEmpty || skip.contains io.1 then none else some (io.1, io.2.1.zip io.2.2)

/-- A row whose accumulators go to a region: consuming an invalid value is sticky, and the rest is counted where it is rounded. -/
def State.regionRow (s : State) (c job : Nat) (t : Tile) (n region node slot : Nat) (row : List (Acc × Bool)) : State :=
  let s := if row.any (·.2) then s.addEvents { QEvents.none with invalid := true } else s
  s.addOut c job node region (slot * n + 256 * t.col) (row.map (·.1))

/-- A rounded row of a product: into the buffer, and to context memory at OUT_BASE, row by row of the batch, where the schedule carries
its lines (R75, R103, R134; the layout at OUT_BASE: log entry 24). -/
def State.productRow (s : State) (a : Attempt) (x : Ctx) (t : Tile) (d : List Byte) (dst i : Nat) (row : List (Acc × Bool)) : State :=
  let os := row.map fun ai => roundOutput (opSigma d) t.fmt ai.2 ai.1
  let s := s.addEvents (os.foldl (fun e o => e.add o.events) QEvents.none)
  let s := s.putCols dst (t.row + i) (256 * t.col) (os.map fun o => (widenOut t.fmt o.code, o.poison))
  let n := outBytes t.fmt
  s.unitWrite a.ctx x (fun l => fixed ((coreUnit1 t.die t.core).toHbm l)) (opOutBase d + (t.batch.getD i 0 * opN d + 256 * t.col) * n)
    (os.flatMap fun o => (leBytes n o.code).map fun b => (b, o.poison))

/-- One add into the tile that stands in a bank (R72, R105): row by row, column by column. -/
def Tile.addRows (t : Tile) (rows : List (Nat × List (Acc × Bool))) : Tile :=
  { t with
    due := t.due - 1
    outs := rows.foldl (fun os r => os.set r.1
      (if (os.getD r.1 []).isEmpty then r.2.map (·.1) else ((os.getD r.1 []).zip r.2).map fun p => p.1.add p.2.1)) t.outs
    invalid := rows.foldl (fun iv r => iv.set r.1
      (if (iv.getD r.1 []).isEmpty then r.2.map (·.2) else ((iv.getD r.1 []).zip r.2).map fun p => p.1 || p.2.2)) t.invalid }

/-- The tile in a bank. -/
def Attempt.bankTile (a : Attempt) (die core : Nat) (bank : Bool) : Option Nat :=
  a.tiles.findIdx? fun t => t.die = die && t.core = core && t.bank = bank

/-- The outputs of a tile that passed leave the core (R75, R109): rounded, as exact-accumulate adds, or as blocks of an attention part,
which goes to its home when it is whole (R189, R232). The counts of R101 are made here. -/
def State.releaseTile (s : State) (t : Tile) : State :=
  match s.attempt with
  | none => s
  | some a => match s.ctx a.ctx with
    | none => s
    | some x =>
      let d := (jigOperand a.img t.desc).getD []
      let rows := t.rowsOut (a.skips t)
      let s := s.addEvents (a.tileEvents t)
      match t.release with
      | .rows dst => rows.foldl (fun s r => s.productRow a x t d dst r.1 r.2) (s.setFormed dst t.desc)
      | .here region => rows.foldl (fun s r => s.regionRow a.ctx x.job t (opN d) region s.node (t.row + r.1) r.2) s
      | .home region dsts => rows.foldl (fun s r =>
          let h := dsts.getD r.1 (s.node, 0)
          s.regionRow a.ctx x.job t (opN d) region h.1 h.2 r.2) s
      | .bank die core bank => s.modAttempt fun a =>
          match a.bankTile die core bank with
          | none => a
          | some k => { a with tiles := (a.tiles[k]?.map fun u => a.tiles.set k (u.addRows rows)).getD a.tiles }
      | .walk w ev =>
        let s := (s.addEvents ev).modAttempt fun a => { a with walks := a.walks ++ [w] }
        match s.attempt.bind fun a => s.partDone a x w, a.plan.rows[w.seq]? with
        | some p, some r => if s.isHome r.handle then s.modAttempt fun a => { a with parts := a.parts ++ [p] } else s.emit (.part (s.homeNode r.handle) p)
        | _, _ => s

/-- A tile may leave its bank: it has passed, the adds from outside that it waits for are in, the grants of its site are made, and the
bank that it goes to holds a tile that has passed too (R99, R105, R107). -/
def Attempt.mayLeave (a : Attempt) (t : Tile) : Bool :=
  t.passed && t.due = 0 && !a.undecided t && match t.release with
  | .bank die core bank => match (a.bankTile die core bank).bind fun k => a.tiles[k]? with
    | some u => u.passed && u.due != 0
    | none => false
  | _ => true

/-- Every tile that may leave its bank does, in the order in which they were formed. -/
def drainTiles : Nat → State → State
  | 0, s => s
  | n + 1, s => match s.attempt with
    | none => s
    | some a => match a.tiles.findIdx? a.mayLeave with
      | none => s
      | some k => match a.tiles[k]? with
        | none => s
        | some t => drainTiles n ({ s with attempt := some { a with tiles := a.tiles.eraseIdx k } }.releaseTile t)

/-- The banks are emptied as far as they can be, and the stage's work goes on. -/
def State.drain (s : State) : State := (drainTiles ((s.attempt.map (·.tiles.length)).getD 0) s).runTodo

def Tile.on (t : Tile) (die : Fin 8) (core : Fin 48) : Bool := t.die = die.val && t.core = core.val

/-- The rows of a tile as the checker sees them: `upset` lists outputs by row and column with the bits in error. -/
def Tile.seen (t : Tile) (upset : List (Nat × Nat × Nat)) : List (List Acc) :=
  upset.foldl (fun os u =>
    os.set u.1 (let r := os.getD u.1 []; r.set u.2.1 (let v := r.getD u.2.1 Acc.empty; { v with value := v.value ^^^ BitVec.ofNat 168 u.2.2 })))
    t.outs

/-- The comparison of the oldest unchecked tile of a core (R108, R109). -/
def execTileCheck (die : Fin 8) (core : Fin 48) (upset : List (Nat × Nat × Nat)) (s : State) : Host.Outcome State Fault Refusal :=
  .next <| match s.attempt with
  | none => s
  | some a => match a.tiles.findIdx? fun t => t.on die core && !t.failed && !t.passed with
    | none => s
    | some k => match a.tiles[k]? with
      | none => s
      | some t =>
        let ok := ((t.seen upset).zip t.chk).all fun r => r.1.isEmpty || rowPasses r.1 r.2
        if ok then ({ s with attempt := some { a with tiles := a.tiles.set k { t with passed := true } } } : State).drain
        else { s with attempt := some { a with tiles := a.tiles.set k { t with failed := true } } }.setRegBit (oCoreState die.val core.val) 3 true

/-- The next running core above a core, in its segment and then in its die (R350). -/
def State.nextCore (s : State) (d n : Nat) : Nat :=
  let run (l : List Nat) : Option Nat := l.find? fun m => m != n && s.coreWorks d m
  let seg := n / 6 * 6
  let inSeg := (List.range 6).map fun k => seg + (n - seg + 1 + k) % 6
  let inDie := (List.range 48).map fun k => (n + 1 + k) % 48
  ((run inSeg).orElse fun _ => run inDie).getD n

def coreUnit (die : Fin 8) (n : Nat) : UnitName := ⟨die, 1, n⟩

/-- One replay ends: what it replaced (R351). -/
def State.replayPassed (s : State) (die : Fin 8) (core : Nat) (replays : List Nat) (step : Nat) : State :=
  let s := (s.bump oImmTransient 31 0 1).correctedEvent (coreUnit die core) step
  match replays with
  | [] => s
  | r1 :: _ => s.correctedEvent (coreUnit die r1) step

/-- Both replays failed: the step is unrecoverable for the context (R351, R352). -/
def State.unrecoverable (s : State) (die : Fin 8) (core step : Nat) : State :=
  ((s.bump oImmUnrecov 31 0 1).logFault (coreUnit die core) 4 step).stepFault wholeCtx stFault

/-- The core that runs the next replay: the next running core after the failed one, or after the first replay core
(R350, R351). -/
def State.replayCore (s : State) (die core : Nat) (replays : List Nat) : Nat := s.nextCore die (replays.headD core)

/-- A failed replay is a mismatch of the checker, or of the residue, on the core that ran it (`CORE_STATE.CHK_FAIL`). -/
def State.replayFailed (s : State) (die core : Nat) (replays : List Nat) : State :=
  s.setRegBit (oCoreState die (s.replayCore die core replays)) 3 true

/-- A withheld result reaches its place. -/
def State.putHeld (s : State) (h : Held) : State :=
  match h.goal with
  | .row dst i => s.putRow dst i h.row
  | .reg k => s.setVreg k h.row

/-- A replay of the failed tile or withheld result of a core ends (R350, R351). -/
def execReplayDone (die : Fin 8) (core : Fin 48) (pass : Bool) (s : State) : Host.Outcome State Fault Refusal :=
  .next <| match s.attempt with
  | none => s
  | some a =>
    let n := a.plan.step
    match a.tiles.findIdx? fun t => t.on die core && t.failed with
    | some k => match a.tiles[k]? with
      | none => s
      | some t =>
        let without := { s with attempt := some { a with tiles := a.tiles.eraseIdx k } }
        if pass then
          (({ s with attempt := some { a with tiles := a.tiles.set k { t with failed := false, passed := true } } } : State).replayPassed
            die core.val t.replays n).drain
        else if t.replays.isEmpty then
          let t := { t with replays := [s.replayCore die.val core.val []] }
          ({ s with attempt := some { a with tiles := a.tiles.set k t } } : State).replayFailed die.val core.val []
        else ((without.replayFailed die.val core.val t.replays).unrecoverable die core.val n).runTodo
    | none => match a.held.findIdx? fun h => h.die = die.val && h.core = core.val with
      | none => s
      | some k => match a.held[k]? with
        | none => s
        | some h =>
          let without := { s with attempt := some { a with held := a.held.eraseIdx k } }
          if pass then ((without.putHeld h).replayPassed die core.val h.replays n).runTodo
          else if h.replays.isEmpty then
            let h := { h with replays := [s.replayCore die.val core.val []] }
            ({ s with attempt := some { a with held := a.held.set k h } } : State).replayFailed die.val core.val []
          else ((without.replayFailed die.val core.val h.replays).unrecoverable die core.val n).runTodo

/-! ## Windows and the combine -/

/-- The indices of the windows of a forward layer, over all its stages in table order. -/
def layerWindows (img : List Byte) (layer : Nat) : List Nat :=
  ((jigStageTable img).filter fun st => stKind st = 1 && stLayer st = layer).flatMap fun st =>
    (List.range (stWindows st)).map (· + stFirst st)

/-- The expert whose tile group has a window: the k-th expert window of a die in a layer, over all its stages, is that of expert
die + D·k (R224; log entry 24). -/
def windowExpert (img : List Byte) (dies layer index : Nat) : Option Nat :=
  let ws := jigWindows img
  match ws[index]? with
  | none => none
  | some w =>
    if wEngine w != 1 then none
    else
      let before := ((layerWindows img layer).takeWhile (· != index)).filter fun i =>
        match ws[i]? with | some v => wEngine v = 1 && wDie v = wDie w | none => false
      some (wDie w + dies * before.length)

/-- The segment that holds a window's unit (R120, R136): a core's, or that of the shared engine; segment 0 stands for the plane unit,
which has ports in every segment. -/
def windowSeg (w : List Byte) : Nat :=
  if wUnit w < 48 then wUnit w / 6 else match wEngine w with | 2 => 3 | 5 => 2 | 6 => 4 | 7 => 5 | _ => 0

/-- A window of the attempt's stage has run its full length, in cycles of its segment (R136, R145). -/
def Attempt.windowOver (a : Attempt) (w : List Byte) : Bool := a.span.1 + wStart w + wLength w ≤ a.counter (wDie w) (windowSeg w)

/-- The group-end markers of an expert tile group: one to every home package, with the adds sent to it (R234). -/
def State.sendMarkers (s : State) (a : Attempt) (layer expert : Nat) : State :=
  match s.ctx a.ctx with
  | none => s
  | some x =>
    let img := a.img
    let nb := match (expertRec img layer).bind fun e => jigOperand img e.downDesc with
      | some d => cdiv (opN d) 256
      | none => 0
    let list := ((assoc layer a.sends).getD []).getD expert []
    s.inService.foldl (fun s node =>
      let adds := nb * (list.filter fun l => l.home = node).length
      if node = s.node then s.groupMarker layer adds
      else s.sendRequest a.ctx x.job node layer (.group layer expert s.me adds) false .step) s

/-- What the end of a window brings: the grants of a recompute window's site, where they were not made, and the markers of an expert
tile group (R99, R234). -/
def State.closeWindow (s : State) (a : Attempt) (index : Nat) (w : List Byte) : State :=
  match a.layerNow with
  | none => s
  | some layer =>
    if wEngine w = 3 then s.grantSite layer (wSite w)
    else match windowExpert a.img s.fuses.dies layer index, expertRec a.img layer with
      | some expert, some e => if a.kindNow = some 1 && expert < e.experts then s.sendMarkers a layer expert else s
      | _, _ => s

/-- A window of the stage reaches its end, after its full length (R145). With work outstanding it fails the share (R146). -/
def execWindowEnd (index : Nat) (outstanding : Bool) (s : State) : Host.Outcome State Fault Refusal :=
  .next <| match s.attempt with
  | none => s
  | some a => match a.windowsNow.find? fun iw => iw.1 = index with
    | none => s
    | some iw =>
      if a.windows.contains index || a.sealed || !a.windowOver iw.2 then s
      else if outstanding then (s.modAttempt fun a => { a with overran := true }).failShare stTimeout
      else ((s.modAttempt fun a => { a with windows := a.windows ++ [index] }).closeWindow a index iw.2).drain

/-- The combine of a layer is complete: every marker, and as many adds as the markers sum to (R235). -/
def Combine.complete (k : Combine) (members experts : Nat) : Bool := k.markers = experts * members && k.adds = k.due

/-- The rows homed here with their sequence index, in batch-table order (R230). -/
def State.homedRows (s : State) (a : Attempt) : List (Nat × Nat) :=
  let b := planBatch a.plan
  ((List.range b.length).zip b).filterMap fun r =>
    match a.plan.rows[r.2.1]? with
    | some q => if s.isHome q.handle then some (r.1, r.2.1) else none
    | none => none

/-- One row of a region, rounded under a descriptor's σ (R75). -/
def State.roundRow (s : State) (k : Combine) (d : List Byte) (f : OutFmt) (slot : Nat) : FRow × State :=
  let os := (List.range (opN d)).map fun c => roundOutput (opSigma d) f false (peek Acc.empty k.accs (slot * opN d + c))
  (⟨os.map fun o => (widenOut f o.code, o.poison)⟩, s.addEvents (os.foldl (fun e o => e.add o.events) QEvents.none))

/-- A home rounds its combine accumulators, adds the residual, and multicasts the rows to every member, at a place that the jig names
(R235; log entry 24). KV-fill rows keep their held state (R240). -/
def State.roundCombine (s : State) (a : Attempt) (x : Ctx) (layer : Nat) (d : List Byte) (k : Combine) : State :=
  ((indexed (s.homedRows a)).foldl (fun s ir =>
    let res := rowAt (s.bufRows (residualBuf layer)) ir.2.1
    if a.kvFillAt ir.2.2 layer then s.putRow (resultBuf layer) ir.2.1 (a.heldState ir.2.1)
    else
      let y := s.roundRow k d .fp32 ir.1
      let row : FRow := ⟨(indexed y.1.cells).map fun cy =>
        let r := res.cells.getD cy.1 (0#32, false)
        (fadd r.1 cy.2.1, r.2 || cy.2.2)⟩
      (y.2.putRow (resultBuf layer) ir.2.1 row).multicast a x (s.node :: s.peers) (Config.rowPlace a.img layer ir.2.1) (wordCells row.cells)) s).modAttempt fun a =>
        a.setCombine { combineOf a layer with rounded := true }

/-- A region that the jig declares for a reduction is complete on its static count of adds, and is rounded row by row under its
descriptor (R72, R332). -/
def State.roundRegion (s : State) (a : Attempt) (region : Nat) : State :=
  match (accRegions a.img).find? fun r => r.1 = region with
  | none => s
  | some r => match jigOperand a.img r.2.1 with
    | none => s
    | some d =>
      let k := combineOf a region
      if k.rounded || k.adds != r.2.2 then s
      else
        let slots := distinct (k.accs.map fun e => e.1 / max 1 (opN d))
        let s := slots.foldl (fun s i =>
          let y := s.roundRow k d (outFmtOf (opOut d)) i
          y.2.putRow (resultBuf region) i y.1) s
        (s.setFormed (resultBuf region) r.2.1).modAttempt fun a => a.setCombine { k with rounded := true }

/-- A region is rounded once it is complete: the combine of an expert layer, or a region of a reduction. -/
def execCombineRound (layer : Nat) (s : State) : Host.Outcome State Fault Refusal :=
  .next <| match s.attempt with
  | none => s
  | some a => match s.ctx a.ctx with
    | none => s
    | some x => match expertRec a.img layer with
      | none => (s.roundRegion a layer).runTodo
      | some e => match jigOperand a.img e.downDesc with
        | none => s
        | some d =>
          let k := combineOf a layer
          if k.rounded || !k.complete s.members.length e.experts then s
          else ((s.roundCombine a x layer d k).modAttempt fun a =>
            { a with phase := if a.layerNow = some layer then max a.phase 9 else a.phase }).runTodo

/-- A hold of a segment's slot counter (R129). One that waits for another package counts as remote wait, in ns that the
segment's clock decides (log entry 24); any other that passes the limit trips the watchdog. -/
def execStallWatchdog (die seg : Fin 8) (cycles : Nat) (remote : Bool) (s : State) : Host.Outcome State Fault Refusal :=
  .next <|
    let d := die.val
    let top := min 0xFFFFFF cycles
    let s := if fld (s.reg (oStallMax d)) 23 0 < top then s.setRegFld (oStallMax d) 23 0 top else s
    if remote then
      let r := s.free
      r.2.bump64 oRemoteLo r.1.toNat
    else if fld (s.reg (oStallLimit d)) 23 0 < cycles then
      ((s.setRegBit (oStallStat d) seg.val true).bump (oStallStat d) 31 16 1).failShare stTimeout
    else s

/-! ## Seals and commit (R25, R151, R326, R356, R362) -/

/-- Every member in service has sent a passing seal. -/
def State.allPassed (s : State) (a : Attempt) : Bool :=
  a.sealed && s.inService.all fun n => a.seals.any fun m => m.node = n && m.pass

/-- The step commits once every passing seal is here. -/
def State.commitIf (s : State) : State :=
  match s.attempt with
  | none => s
  | some a => if s.allPassed a then s.commitStep a else s

/-- Every combine and region that the jig declares has been rounded. -/
def Attempt.combinesDone (a : Attempt) : Bool :=
  let rounded (r : Nat) : Bool := a.combines.any fun k => k.layer = r && k.rounded
  ((jigExperts a.img).all fun e => e.experts = 0 || rounded e.layer) && (accRegions a.img).all fun r => rounded r.1

/-- This member's share is done: it has been loaded, no work waits, every stage has ended, every tile has passed, every region
is rounded, and every request is acknowledged (R326). -/
def State.shareDone (s : State) (a : Attempt) : Bool :=
  a.loaded && a.todo.isEmpty && a.stage = a.stageCount && a.tiles.isEmpty && a.held.isEmpty && a.combinesDone && !s.stepOutstanding

/-- Some shadow replay of the step before has not compared (R356). -/
def State.shadowPending (s : State) : Bool := !s.replaysOpen.isEmpty

/-- The seal is held for a shadow replay: the share is done, and the seal waits for the comparison alone (R356). -/
def State.sealHeld (s : State) (a : Attempt) : Bool := !a.sealed && s.shareDone a && s.shadowPending

/-- The seal agent sends the package's seal and its reports, unless a shadow replay of the step before has not compared (R21,
R356). -/
def execSealSend (s : State) : Host.Outcome State Fault Refusal :=
  .next <| match s.attempt with
  | none => s
  | some a =>
    if a.sealed || !s.shareDone a || s.shadowPending || !s.canSeal || a.failed.isSome then s
    else
      let s := ((s.noteLate a.plan oLateSeal).sendSeal a true).sendReports a
      let s := s.modAttempt fun a => { a with sealTimers := s.peers.map fun n => (n, s.time) }
      s.commitIf

/-- The plan that a seal speaks of, as far as it is known here. -/
def State.planOf (s : State) (m : SealMsg) : Option Plan :=
  ((s.attempt.map (·.plan)).toList ++ s.plans ++ s.stopped).find? fun p => p.job = m.job && p.step = m.step && p.attempt = m.attempt

/-- A peer's seal counts when it comes after its deadline (R151). -/
def State.notePeer (s : State) (m : SealMsg) : State :=
  match s.planOf m with
  | some p => s.noteLate p oLatePeer
  | none => s

/-- A seal of the attempt in flight: the first of a member counts. One with PASS = 0 retracts the attempt, where the RETRACT that
precedes it has not come (R26, R362; log entry 18). -/
def State.takeSeal (s : State) (a : Attempt) (m : SealMsg) : State :=
  if a.seals.any (·.node = m.node) then s
  else if m.pass then ((s.notePeer m).modAttempt fun a => { a with seals := a.seals ++ [m] }).commitIf
  else (s.notePeer m).retractAttempt a m.node stFault false

/-- A seal arrives (R326). One for a plan that this package has not started is held. -/
def execSealMessage (m : SealMsg) (s : State) : Host.Outcome State Fault Refusal :=
  .next <|
    let s := s.heardCtl (sealBody m).length
    if !s.inService.contains m.node then s
    else if attemptKey m.step m.attempt < s.attemptFloor m.job then s.notePeer m
    else if isRefusal m then (s.notePeer m).takeRefusal m
    else match s.attempt.filter fun a => a.plan.job = m.job && a.plan.step = m.step && a.plan.attempt = m.attempt with
    | some a => s.takeSeal a m
    | none =>
      if s.sealsHeld.any fun k => k.node = m.node && k.job = m.job && k.step = m.step && k.attempt = m.attempt then s
      else { s.notePeer m with sealsHeld := s.sealsHeld ++ [m] }

/-- What a member answers to page-table edits of an idle home: the copies that it has in progress (R205; log entry 19). -/
def State.answerEdits (s : State) (node c : Nat) : State :=
  match s.ctx c with
  | none => s
  | some x => if node = s.node then s
    else s.emit (.report node { s.makeReport c x [] with copying := some s.copying, seqs := [], forwards := [] })

/-- The edits of an idle report: applied at once, or at the next boundary when a plan of their job is published here. -/
def State.takeEdits (s : State) (r : Report) : State :=
  if r.edits.isEmpty then s
  else match s.ctxOfJob r.job with
    | none => s
    | some (c, _) =>
      if s.planned r.job then { s with heldEdits := s.heldEdits ++ r.edits }
      else (State.mirrorAll s ((s.pageManager c .idle (r.edits.map (·.2))).faultTables .none)).answerEdits r.node c

/-- While idle, a member takes the mask that the lead republishes (R330). -/
def State.takeMask (s : State) (r : Report) : State :=
  match r.mask with
  | none => s
  | some m => if s.idle && s.leadNode = some r.node then s.setPlanes m else s

/-- A report arrives (R253, R254, R330, R338): a mask, its edits, what it says of copies, and what the lead plans from (log entry
19). -/
def execReport (r : Report) (s : State) : Host.Outcome State Fault Refusal :=
  .next <|
    let s := s.heardCtl (reportBody 0 r).length
    if r.mask.isSome then s.takeMask r
    else
      let s := s.takeEdits r
      let s := match r.copying with
        | none => s
        | some l => s.finishMaps (fun n => if n = r.node then some l else none) .none
      if s.isLead then s.giveReport { r with edits := [], copying := none } else s

/-- The seal agent announces that a shadow replay holds the seal, at least every t_seal_to / 2 (R356); while its die is in reset it
sends nothing (R21). -/
def execSealPendingSend (s : State) : Host.Outcome State Fault Refusal :=
  .next <| match s.attempt with
  | none => s
  | some a =>
    if !s.sealHeld a || !s.canSeal then s
    else s.toPeers fun n => .pendingMsg n 1 a.plan.step a.plan.attempt

/-- The time up to which a seal may be held has passed: the seal goes out with PASS = 0 (R356). -/
def execSealDeadlineExpired (s : State) : Host.Outcome State Fault Refusal :=
  .next <| match s.attempt with
  | none => s
  | some a => if s.sealHeld a then s.failShare stFault else s

/-- The seal timeout for a peer expires (R362). -/
def execSealTimeout (node : Nat) (s : State) : Host.Outcome State Fault Refusal :=
  .next <| match s.attempt with
  | none => s
  | some a =>
    if !a.sealed || !s.peers.contains node || a.seals.any (·.node = node) then s
    else
      let s := s.sendRetract a.plan.job a.plan.step a.plan.attempt stTimeout 0 false
      s.retractAttempt a s.node stTimeout false

/-! ## SUSPECT at a home (R358 to R360) -/

/-- The sequences homed here that had rows in a step of the range, those whose effects were discarded among them. -/
def State.suspects (s : State) (c first last : Nat) : List Nat :=
  distinct ((s.past.filter fun p => p.ctx = c && first ≤ p.step && p.step ≤ last).map (·.handle))

/-- Under STRICT_COMMIT nothing of the range is published: the length is cut back, and the descriptor completes with `SUSPECT` (R360). Its
completion follows the token records of earlier steps that are still held (R304, R361). -/
def State.strictSuspect (s : State) (c first handle : Nat) : State :=
  match s.seq? c handle, s.past.find? fun p => p.ctx = c && p.handle = handle && first ≤ p.step with
  | some q, some p =>
    let held := s.strict.filter fun r => r.ctx = c && r.handle = handle
    let gen := q.gen.orElse fun _ => (held.filter fun r => first ≤ r.step).findSome? fun r => match r.what with
      | .finish d _ _ => some d
      | .token d _ => some d
    let s := { s with
      strict := s.strict.filter fun r => !(r.ctx = c && r.handle = handle && first ≤ r.step)
      past := s.past.filter fun r => !(r.ctx = c && r.handle = handle && first ≤ r.step) }
    let s := match gen with
      | some id => match (held.filter fun r => r.step < first).getLast? with
        | some r => { s with strict := s.strict ++ [{ r with what := .finish id stSuspect p.published }] }
        | none => s.complete id stSuspect p.published .none
      | none => match q.pre with
        | some id => s.complete id stSuspect 0 .none
        | none => s
    if !q.isOpen then s
    else (s.setSeq c { s.leaves c q with
      state := .ready, committed := p.before, queue := p.pending.take 1, published := p.published }).edit c (.setLen handle p.before)
  | _, _ => s

/-- A SUSPECT notice at this home: one event for each sequence with rows in the range. -/
def State.suspectNotice (s : State) (job first last : Nat) : State :=
  match s.ctxOfJob job with
  | none => s
  | some (c, _) =>
    (s.suspects c first last).foldl (fun s h =>
      let s := (s.event stSuspect (some c) h (first % 2 ^ 32) last).bump oSuspect 31 0 1
      if s.strictOn c then s.strictSuspect c first h else s) s

/-! ## Retractions and lost members -/

/-- The attempt that a RETRACT names: the one in flight, or one whose plan has not started here. -/
def State.namedAttempt (s : State) (m : RetractMsg) : Option Attempt :=
  let same (p : Plan) : Bool := p.job = m.job && p.step = m.step && p.attempt = m.attempt
  let mark (a : Attempt) : Attempt := { a with overran := a.overran || m.overran }
  match s.attempt.filter fun a => same a.plan with
  | some a => some (mark a)
  | none => match s.plans.find? same, s.ctxOfJob m.job with
    | some p, some (c, _) => if s.attempt.isNone then some (mark (Attempt.fresh p c s.time)) else none
    | _, _ => none

/-- A RETRACT arrives (R358, R363). One of a plan that this package cannot retract yet, because an earlier step is in flight or the plan
has not come, is held, and retracts the attempt when it starts (DESIGN CHOICE, log entry 18). -/
def execRetract (m : RetractMsg) (s : State) : Host.Outcome State Fault Refusal :=
  .next <|
    let s := s.heardCtl (retractBody m).length
    if m.cause = stSuspect then s.suspectNotice m.job m.first m.step
    else if attemptKey m.step m.attempt < s.attemptFloor m.job then s
    else match s.namedAttempt m with
      | none => { s with retractsHeld := s.retractsHeld ++ [m] }
      | some a => (s.bump oRetractRcvd 31 0 1).retractAttempt a m.node m.cause false

/-- The first logical page of a sequence that lies on a lost member; none when no committed page does. -/
def State.lostPage (s : State) (x : Ctx) (node handle committed : Nat) : Option Nat :=
  (List.range (cdiv committed 256)).find? fun j =>
    memberOf x.runLog2 (s.homeIdx handle) s.members.length j = s.memberIndex node

/-- Without book-match, what a home does with one of its sequences when a member is lost (R372). -/
def State.cutLost (s : State) (c : Nat) (x : Ctx) (node : Nat) (q : Seq) : State :=
  match s.lostPage x node q.handle q.committed with
  | none => s
  | some j =>
    let s := match q.gen.orElse fun _ => q.pre with
      | some id => s.complete id stDegraded (256 * j) .none
      | none => s
    (s.setSeq c { s.leaves c q with committed := 256 * j, queue := [], state := .ready }).edit c (.setLen q.handle (256 * j))

/-- Every sequence of a context when a member is lost: those of the lost home close, the others are cut. -/
def State.degradeCtx (s : State) (node c : Nat) : State :=
  match s.ctx c with
  | none => s
  | some x =>
    if x.bookMatch then s
    else
      let s := x.tables.foldl (fun s t => if t.home = node then s.markClosing c t.handle 1 else s) s
      x.seqs.foldl (fun s q => if q.isOpen then s.cutLost c x node q else s) s

/-- A member is lost, or has departed (R370): the attempt in flight and every plan are stopped without a RETRACT, and the
partition is DEGRADED. A new lead has been told nothing yet. -/
def State.loseMember (s : State) (node : Nat) : State :=
  if !s.peers.contains node then s
  else
    let lead := s.leadNode
    let s := { s with lostNodes := s.lostNodes ++ [node] }
    let b : Bound := match s.attempt with | none => .none | some a => ⟨a.plan.step, 0⟩
    let s := match s.attempt with
      | none => s.discardPlans fun _ => true
      | some a =>
        let s := s.stopAttempt a b
        let replan := if s.isLead then s.replanOf { a with overran := false } else none
        { s with lead := { s.lead with replan := replan }, replansDue := addKey a.plan.job s.replansDue }
    let s := if s.leadNode = lead then s else { s with told := [], telling := [] }
    let s := (s.setRegFld oIntStat 1 0 1).setRegFld oIntStat 27 16 node
    let s := s.event stDegraded none node 1 (s.reg64 oSigStepLo)
    let s := s.ctxs.foldl (fun s cx => s.degradeCtx node cx.1) s
    ((s.settleCtxs b).runPlaces).settleFences b

/-- DEPART from a member (R370, R374). -/
def execDepartMessage (node _cause : Nat) (s : State) : Host.Outcome State Fault Refusal := .next ((s.heardCtl 8).loseMember node)

/-- No message from a member on any plane for t_lost (R365, R370). -/
def execMemberLost (node : Nat) (s : State) : Host.Outcome State Fault Refusal := .next (s.loseMember node)

/-! ## Context switches (R382) -/

/-- A die has completed its shadow replays and filled the incoming jig's weight window. -/
def execSwitchReady (die : Fin 8) (s : State) : Host.Outcome State Fault Refusal :=
  .next <| match s.nextPlan with
  | none => s
  | some p =>
    if s.attempt.isSome || s.lastJob = 0 || s.lastJob = p.job || (s.replaysOpen.any fun o => o.unit.die = die) then s
    else { s with switchWait := addKey die.val s.switchWait }

end Sys2Proof.Machine
end

