-- ==== Sys2Proof/Machine/Links.lean ====
section
/-! DEFINITION. Limfele ports, the cable plan, the plane mask and common time (R315 to R320, R330, R339 to R342). -/

namespace Sys2Proof.Machine

/-! ## Port states (R316, R339, R368, R369) -/

/-- `FAB_PORT_STAT_p.STATE`. -/
def portDown : Nat := 0
def portTraining : Nat := 1
def portUp : Nat := 2
def portExcluded : Nat := 3

def State.limState (s : State) (p : Nat) : Nat := fld (s.reg (oPortStat p)) 1 0
def State.setLimState (s : State) (p v : Nat) : State := s.setRegFld (oPortStat p) 1 0 v

/-- A lane of the port is retired, which keeps the port down. -/
def State.laneRetired (s : State) (p : Nat) : Bool :=
  (List.range 4).any fun k => s.isRetired 4 (p / 4) (p % 4 * 4 + k)

/-- The port may train: the member carries it, its domain is on and clocked (R421), its die is out of reset, `FAB_CTL.PORTS_EN` is 1 and the
package has a node number and is not in SLEEP. -/
def State.limReady (s : State) (p : Nat) : Bool :=
  decide (p < 4 * s.fuses.dies) && s.domainOn (.limfele (p / 4)) && bit (s.reg (oClkEnBlk (p / 4))) 18 && bit (s.reg oFabCtl) 0 && s.node != 0xFFF && !s.dieInReset (p / 4) && !s.portInReset (16 + p) &&
    !s.laneRetired p

/-- The cable state of a port: 0 no LINK_ID, 1 match, 2 swapped, 3 wrong, 4 unplanned. -/
def State.cableState (s : State) (p : Nat) : Nat := fld (s.reg (oCableStat p)) 31 29

/-- The state of a port whose link is up: excluded when the cable plan is enforced and its cable is not as planned. -/
def State.upState (s : State) (p : Nat) : Nat :=
  if bit (s.reg oFabCtl) 3 && s.cableState p != 1 && s.cableState p != 4 then portExcluded else portUp

/-- What LINK_ID showed, compared with the plan: state and PEER. `seen` is SW_PORT and SW_ID. -/
def State.cableOf (s : State) (p seen : Nat) : Nat × Nat :=
  let planned (q : Nat) : Bool := bit (s.reg (oCable q)) 31 && fld (s.reg (oCable q)) 23 0 = seen
  if !bit (s.reg (oCable p)) 31 then (4, 0)
  else if planned p then (1, 0)
  else match (List.range (4 * s.fuses.dies)).find? planned with
    | some q => (2, q)
    | none => (3, 0)

/-- `FAB_CABLE_STAT_p` for a LINK_ID seen, and the port's state in the plane mask. -/
def State.compareCable (s : State) (p seen : Nat) : State :=
  let r := s.cableOf p seen
  let s := s.setReg (oCableStat p) (BitVec.ofNat 32 (r.1 * 2 ^ 29 + r.2 * 2 ^ 24 + seen % 2 ^ 24))
  if s.limState p = portUp || s.limState p = portExcluded then (s.setLimState p (s.upState p)).sendWaiting else s

/-- Every port is compared again, after the plan or its enforcement changed. -/
def State.compareCables (s : State) : State :=
  (List.range 32).foldl (fun s p =>
    if s.cableState p = 0 then
      (if s.limState p = portUp || s.limState p = portExcluded then (s.setLimState p (s.upState p)).sendWaiting else s)
    else s.compareCable p (fld (s.reg (oCableStat p)) 23 0)) s

/-- A port starts to train, and sends its LINK_ID: node number and port number (R339). -/
def State.startLimfele (s : State) (p : Nat) : State :=
  (s.setLimState p portTraining).emit (.flit p (flit 0 4095 0 flitLinkId true true (wordBytes [s.node, p])))

/-- A port goes down, and what waits for it moves on (R320). -/
def State.stopPort (s : State) (p : Nat) : State := (s.setLimState p portDown).leavePort p

/-- Ports that may train start to, after `FAB_CTL.PORTS_EN` is set or their reset ends. -/
def State.trainPorts (s : State) : State :=
  (List.range 32).foldl (fun s p => if s.limReady p && s.limState p = portDown then s.startLimfele p else s) s

/-- A link begins: its sequence numbers count from 0, its replay buffer is empty, and it has no credit until the other end gives some;
what waits for the port is sent anew (DESIGN CHOICE, log entry 26). -/
def State.openLink (s : State) (p : Nat) : State :=
  { s.modLink p fun l => { FabLink.fresh with queue := l.queue.map fun m => { m with sent := 0 } } with
    credits := s.credits.filter fun e => e.1 / 4 != p }

/-! ## Link layer commands -/

/-- A port finishes training: at the highest version that both ends offer and all four lanes pass. -/
def execLimfelePortTrained (port : Fin 32) (partnerV2 lanesPassV2 lanesPassV1 : Bool) (s : State) :
    Host.Outcome State Fault Refusal :=
  .next <|
    let p := port.val
    if !s.limReady p || s.limState p != portTraining then s
    else
      let v2 := bit (s.reg oFabCtl) 1 && partnerV2 && lanesPassV2
      if !v2 && !lanesPassV1 then s.setLimState p portDown
      else (((s.setRegBit (oPortStat p) 2 v2).setLimState p (s.upState p)).openLink p).sendWaiting

/-- A port loses its link, or has run more than 4,096 replays within 1 ms: it retrains. A lane that caused it is charged
with a corrected event (R367). -/
def execLimfelePortDown (port : Fin 32) (lane : Option (Fin 4)) (s : State) : Host.Outcome State Fault Refusal :=
  .next <|
    let p := port.val
    if s.limState p != portUp && s.limState p != portExcluded then s
    else
      let s := (s.startLimfele p).leavePort p
      match lane with
      | none => s
      | some k => s.correctedEvent ⟨Fin.ofNat 8 (p / 4), 4, p % 4 * 4 + k.val⟩ ((s.attempt.map fun a => a.plan.step).getD 0)

/-- A port that failed to train starts again. -/
def execLimfeleTrainRetry (port : Fin 32) (s : State) : Host.Outcome State Fault Refusal :=
  .next (if s.limReady port.val && s.limState port.val = portDown then s.startLimfele port.val else s)

/-- LINK_ID flits of the switch: the port's plane, and the cable plan's comparison. -/
def execLinkId (port : Fin 32) (swId swPort plane : Nat) (s : State) : Host.Outcome State Fault Refusal :=
  .next <|
    if s.limState port.val = portDown then s
    else (s.setRegFld (oPortStat port.val) 12 8 plane).compareCable port.val (swPort % 2 ^ 8 * 2 ^ 16 + swId % 2 ^ 16)

/-- A NAK: the port replays from the named flit, out of its replay buffer (R317). -/
def execNak (port : Fin 32) (seq : Nat) (s : State) : Host.Outcome State Fault Refusal :=
  .next <|
    let again := (s.link port.val).sent.dropWhile fun e => e.1 != seq % 4096
    (s.bump (oPortStat port.val) 31 16 again.length).emits (again.map fun e => .flit port.val e.2)

/-- A flit whose CRC fails, or that arrives out of sequence, is discarded; the NAK names the sequence number expected (R317), in its
payload (DESIGN CHOICE, log entry 26). -/
def execFlitCrcFail (port : Fin 32) (s : State) : Host.Outcome State Fault Refusal :=
  .next <|
    let l := s.link port.val
    s.emit (.flit port.val (flit l.next (l.expect + 4095) 0 flitNak true true (leBytes 4 l.expect)))

/-- Credits come back for one virtual channel. -/
def execCreditReturn (port : Fin 32) (vc : Fin 3) (n : Nat) (s : State) : Host.Outcome State Fault Refusal :=
  .next <|
    let k := port.val * 4 + vc.val
    { s with credits := poke 0 s.credits k (peek 0 s.credits k + n) }

/-- While the partition is idle, the lead takes a changed mask into force and tells the members (R330), in a report that says nothing
else (DESIGN CHOICE, log entry 18). -/
def execPlaneMaskRepublish (s : State) : Host.Outcome State Fault Refusal :=
  .next <|
    if !s.isLead || !s.idle then s
    else
      let m := s.planeMask
      if (s.reg oPlanes).toNat = m then s
      else (s.setPlanes m).toPeers fun n => .report n (maskReport s.node m)

/-! ## Common time (R340 to R342) -/

/-- A TIME message has come on a plane. -/
def State.heardTime (s : State) (plane : Nat) : State := s.heardOn (some plane) 2 (ctlFlits 48)

def timeState (s : State) : Nat := fld (s.reg oTimeStat) 1 0

/-- The root answers a request with its stamps. -/
def execTimeRequest (src plane t1 : Nat) (correction : Int) (s : State) : Host.Outcome State Fault Refusal :=
  .next <|
    let s := s.heardTime plane
    if s.isLead then s.emit (.time src plane true t1 s.time s.time correction) else s

/-- Every t_time a member asks the root on every plane of the mask. -/
def execTimeExchangeTick (s : State) : Host.Outcome State Fault Refusal :=
  .next <| match s.leadNode with
  | none => s
  | some root =>
    if s.isLead || s.departed then s
    else { s with offsets := [] }.emits (s.maskedPlanes.map fun p => .time root p false s.time 0 0 0)

/-- The offset on one plane, in units of 2^-17 ns: CORRECTION counts in 2^-16 ns. -/
def timeOffset (t1 t2 t3 t4 : Nat) (creq crep : Int) : Int :=
  ((t2 : Int) - t1) * 2 ^ 16 - creq - (((t4 : Int) - t3) * 2 ^ 16 - crep)

/-- The median; of an even number of values, the mean of the two in the middle (PRESUMED, log entry 25). -/
def median (l : List Int) : Int :=
  let l := sortBy (fun a b => decide (a < b)) l
  let n := l.length
  if n % 2 = 1 then l.getD (n / 2) 0 else (l.getD (n / 2 - 1) 0 + l.getD (n / 2) 0) / 2

/-- The signed 16-bit field OFFSET of a median in ns, saturating. -/
def offsetField (m : Int) : Nat := (max (-32768) (min 32767 (m / 2 ^ 17)) % 65536).toNat

/-- LOCKED after 16 exchanges in a row within 2 ns; a wider one starts the count again (log entry 25). -/
def State.noteExchange (s : State) (m : Int) : State :=
  let n := if m.natAbs ≤ 2 * 2 ^ 17 then min 16 (s.timeLocks + 1) else 0
  let s := { s with timeLocks := n, offsets := [] }
  (s.setRegFld oTimeStat 31 16 (offsetField m)).setRegFld oTimeStat 1 0 (if n = 16 then 2 else 1)

/-- The member steers by the median offset: a step forward, a hold, or a slew of a free amount up to 1,000 ppm toward the
root (log entry 25). -/
def State.steer (s : State) (m : Int) : State :=
  if s.attempt.isNone && decide (1000 * 2 ^ 17 < m) then
    let n := s.timeFrac + m.natAbs * 2 ^ 15
    { s with time := (s.time + n / 2 ^ 32) % 2 ^ 64, timeFrac := n % 2 ^ 32, slew := 0 }
  else if s.attempt.isNone && decide (m < -(1000 * 2 ^ 17)) then
    { s with timeHold := cdiv m.natAbs (2 ^ 17), slew := 0 }
  else
    let r := s.free
    let v : Int := (r.1.toNat % 42949673 : Nat)
    { r.2 with slew := if 0 < m then v else if m < 0 then -v else 0 }

/-- A reply of the root; the exchange completes when every plane of the mask has answered. -/
def execTimeReply (plane t1 t2 t3 : Nat) (reqCorrection correction : Int) (s : State) : Host.Outcome State Fault Refusal :=
  .next <|
    let s := s.heardTime plane
    if s.isLead || !s.maskedPlanes.contains plane || (assoc plane s.offsets).isSome then s
    else
      let s := { s with offsets := enlist plane (timeOffset t1 t2 t3 s.time reqCorrection correction) s.offsets }
      if !s.maskedPlanes.all fun p => (assoc p s.offsets).isSome then s
      else
        let m := median (s.offsets.map (·.2))
        (s.noteExchange m).steer m

/-- No exchange for 5 ms, and for 50 ms. -/
def execTimeHoldover (s : State) : Host.Outcome State Fault Refusal :=
  .next <|
    if s.isLead || timeState s = 0 then s
    else { s with timeLocks := 0 }.setRegFld oTimeStat 1 0 (if timeState s = 3 then 0 else 3)

end Sys2Proof.Machine
end

