-- ==== Sys2Proof/Machine/Boot.lean ====
section
/-! DEFINITION. The firmware image and its authentication, the board configuration block, the identity keys, and
events of the management interface (R396, R414, R446 to R452, R459, R466, R468). -/

namespace Sys2Proof.Machine

/-! ## The firmware image (R449, R450) -/

def imgComponents (bs : List Byte) : Nat := imgFld bs 0x004 15 0
def imgLen (bs : List Byte) : Nat := imgNat bs 0x008
def imgSvn (bs : List Byte) : Nat := imgFld bs 0x00C 7 0
def imgKeyIndex (bs : List Byte) : Nat := imgFld bs 0x00C 11 8
def imgVersion (bs : List Byte) : Word := word bs 0x010

/-- A public key: x, then y. A signature: r, then s. -/
def pairAt (bs : List Byte) (o : Nat) : Nat × Nat := (beNat (window o 32 bs), beNat (window (o + 32) 32 bs))

def imgRootKey (bs : List Byte) : List Byte := window 0x020 64 bs
def imgOwnerKey (bs : List Byte) : List Byte := window 0x120 64 bs

/-- The component entries. -/
def imgEntries (bs : List Byte) : List (List Byte) :=
  (List.range (imgComponents bs)).map fun i => window (0x200 + 64 * i) 64 bs

/-- The largest image. -/
def maxImage : Nat := 64 * 2 ^ 20

/-- Check 1: MAGIC, COMPONENTS and IMAGE_LEN are valid, and every component lies within IMAGE_LEN. -/
def imgFormOk (bs : List Byte) : Bool :=
  word bs 0 = 0x485A4601#32 && decide (1 ≤ imgComponents bs ∧ imgComponents bs ≤ 64) && decide (imgLen bs ≤ maxImage) &&
    (imgEntries bs).all fun e => decide (imgNat e 4 + imgNat e 8 ≤ imgLen bs)

/-- The image digest D: SM3 of bytes 0x000 to 0x0DF, then the component table. -/
def imgDigest (bs : List Byte) : List Byte := sm3 (window 0 0xE0 bs ++ window 0x200 (64 * imgComponents bs) bs)

def verifyAt (key : Nat × Nat) (msg bs : List Byte) (o : Nat) : Bool :=
  sm2Verify key msg (pairAt bs o).1 (pairAt bs o).2

/-- The owner key's SM3 is the hash, and the owner's signature over D verifies. -/
def imgOwned (bs hash : List Byte) : Bool :=
  sm3 (imgOwnerKey bs) = hash && verifyAt (pairAt bs 0x120) (imgDigest bs) bs 0x160

/-- Checks 1 to 7, which need the header and the component table only: the first that fails, or 0. -/
def authHeader (f : Fuses) (bs : List Byte) : Nat :=
  if !imgFormOk bs then 1
  else if sm3 (imgRootKey bs) != f.rootHash then 2
  else if f.revoked / 2 ^ imgKeyIndex bs % 2 = 1 then 3
  else if !verifyAt (pairAt bs 0x020) (BitVec.ofNat 8 (imgKeyIndex bs) :: window 0x060 64 bs) bs 0x0A0 then 4
  else if !verifyAt (pairAt bs 0x060) (imgDigest bs) bs 0x0E0 then 5
  else if f.ownerEn && !imgOwned bs f.ownerHash then 6
  else if imgSvn bs < f.svn then 7
  else 0

/-- Check 8 of one component. -/
def componentOk (bs e : List Byte) : Bool := sm3 (window (imgNat e 4) (imgNat e 8) bs) = window 0x20 32 e

/-- All eight checks: the first that fails, or 0. -/
def authImage (f : Fuses) (bs : List Byte) : Nat :=
  if authHeader f bs != 0 then authHeader f bs else if (imgEntries bs).all (componentOk bs) then 0 else 8

/-! ## The board configuration block (R448) -/

/-- The block as the flash holds it, 512 bytes; what was never written reads 0. -/
def State.bcbBytes (s : State) : List Byte := (s.flash.bcb ++ List.replicate (512 - s.flash.bcb.length) 0#8).take 512

def bcbCrc (b : List Byte) : Word := crc32 (window 0 0x1FC b)

/-- MAGIC, LENGTH and CRC match. -/
def bcbValid (b : List Byte) : Bool :=
  word b 0 = 0x42434601#32 && imgFld b 4 15 0 = 512 && word b 0x1FC = bcbCrc b

/-- The block with fresh CRC. -/
def bcbSealed (b : List Byte) : List Byte := splice b 0x1FC (leBytes 4 (bcbCrc b).toNat)

/-- A field of the block as read at boot, or 0, which is the Default of every field that changes the state. -/
def State.bcbFld (s : State) (o msb lsb : Nat) : Nat := if bcbValid s.boot.bcb then imgFld s.boot.bcb o msb lsb else 0

/-- The management bus is SMBus. -/
def State.smbus (s : State) : Bool := s.bcbFld 0x00C 0 0 = 1

/-- A user offset of a die lies outside −25 to +15 mV, that is −10 to +6 steps of 2.5 mV (R396). -/
def calOut (b : Nat) : Bool := decide (signed 8 b < -10 ∨ 6 < signed 8 b)

/-- An offset as it is applied, clamped to the nearer bound. -/
def calSteps (b : Nat) : Int := max (-10) (min 6 (signed 8 b))

/-- The voltage in units of 0.5 mV at a point of a die: the factory point and the user's offset (R395, R396). -/
def State.pointVolts (s : State) (d j : Nat) : Int :=
  2 * ((s.fuses.volts.getD d []).getD j 0 : Nat) + 5 * calSteps (s.bcbFld (0x010 + (16 * d + j) / 4 * 4) (8 * (j % 4) + 7) (8 * (j % 4)))

/-- Any offset of a die that the member carries is clamped. -/
def State.calClamped (s : State) : Bool :=
  (List.range (16 * s.fuses.dies)).any fun i => calOut (s.bcbFld (0x010 + i / 4 * 4) (8 * (i % 4) + 7) (8 * (i % 4)))

/-- XB_MODE: 0 none (3 reads as none), 1 monitored only, 2 reference; a reference of another frequency than 100 or
156.25 MHz is monitored only (R412, R448). -/
def State.xbMode (s : State) : Nat :=
  let m := s.bcbFld 0x008 1 0
  let f := s.bcbFld 0x008 15 8
  if m = 3 then 0 else if m = 2 && f != 100 && f != 0x9C then 1 else m

/-- An entry of the cable plan is written into the block (R447); a valid block stays valid (log entry 29). -/
def State.storeCable (s : State) (p : Nat) (v : Word) : State :=
  let b := splice s.bcbBytes (0x090 + 4 * p) (leBytes 4 v.toNat)
  { s with flash := { s.flash with bcb := if bcbValid s.bcbBytes then bcbSealed b else b } }

/-! ## Identity (R459) -/

def asciiDevid : List Byte := [0x44#8, 0x45#8, 0x56#8, 0x49#8, 0x44#8]
def asciiAlias : List Byte := [0x41#8, 0x4C#8, 0x49#8, 0x41#8, 0x53#8]

def State.primaryDie (s : State) : Nat := fld (s.reg oBootStat) 10 8

/-- The device secret of the primary's die as bytes (log entry 4). -/
def State.secret (s : State) : List Byte := beBytes 32 (Config.deviceSecret s.primaryDie)

def scalarOf (k : Nat) : Nat := 1 + k % (sm2N - 1)

def State.deviceKey (s : State) : Nat := scalarOf (sm3Kdf (s.secret ++ asciiDevid))

/-- The compound secret is HMAC-SM3, keyed with the device secret, over D. -/
def State.aliasKey (s : State) : Nat := scalarOf (sm3Kdf (hmacSm3 s.secret s.boot.digest ++ asciiAlias))

/-! ## Pins and events of the management interface (R443, R466, R468) -/

def State.setFaultPin (s : State) : State := s.setRegBit oPinOut 0 true

/-- `ALERT_N` is asserted while `RST_CAUSE.PARTITION` is 1, and on SMBus while an event is unread. -/
def State.refreshAlert (s : State) : State :=
  s.setRegBit oPinOut 1 (bit (s.reg oRstCause) 7 || (s.smbus && s.boot.unread != 0))

/-- A PLDM event, sent once the tray controller is the event receiver; the value is kept as the sensor's last. -/
def State.pldmEvent (s : State) (sensor value : Nat) : State :=
  let s := { s with boot := { s.boot with sensors := enlist sensor value s.boot.sensors } }
  if !s.boot.receiver then s
  else ({ s with boot := { s.boot with unread := if s.smbus then s.boot.unread + 1 else 0 } }.emit (.event sensor value)).refreshAlert

end Sys2Proof.Machine
end

