-- ==== Sys2Proof/Machine/Reset.lean ====
section
/-! DEFINITION. The reset controller and the boot: levels, sources, what each reset reaches and keeps, release, boot
steps, the ready report and recovery (R18, R131, R171, R291, R349, R368, R369, R427 to R444, R451 to R456). -/

namespace Sys2Proof.Machine

/-! ## Registers (R8 to R11, R442) -/

/-- The reach of a reset. -/
inductive Reach where
  | port | die | warm | cold
  deriving DecidableEq, Repr

def RegInfo.kept (i : RegInfo) : Reach → Word
  | .port => i.keepPort
  | .die => i.keepDie
  | .warm => i.keepWarm
  | .cold => i.keepCold

/-- The value of a register after a reset that reaches it. -/
def State.resetValue (s : State) (r : Reach) (o : Nat) (v : Word) : Word :=
  let k := ((regInfo o).map fun i => i.kept r).getD 0#32
  (v &&& k) ||| (resetWord s.fuses.dies o &&& ~~~ k)

/-- The selected registers return to their Reset values, but for what the reset keeps. -/
def State.resetRegs (s : State) (r : Reach) (sel : Nat → Bool) : State :=
  { s with regs := s.regs.foldl (fun l e =>
      if sel e.1 then poke (resetWord s.fuses.dies e.1) l e.1 (s.resetValue r e.1 (s.reg e.1)) else l) s.regs }

def inSpan (o base len : Nat) : Bool := decide (base ≤ o ∧ o < base + len)

/-- The registers of an Etcen port: its block, its ring sets and its doorbell setup. -/
def etcenReg (p : EPort) (o : Nat) : Bool :=
  inSpan o (oPortBlk p) 0x1_0000 || inSpan o (oRing p 0) 0x4000 || inSpan o (oDbLo p) 0x100

/-- The registers that a die reset reaches: the die's window, the clocks of its islands and, on dies 0 and 1, the
registers of its Etcen port (R10: a field kept through a port reset alone does not survive a die reset). -/
def dieReg (d o : Nat) : Bool :=
  (d = 0 && etcenReg .a o) || (d = 1 && etcenReg .b o) || inSpan o (oDieWin d) 0x10_0000 || o = oClkPll d || inSpan o (oClkEnBlk d) 0x10 || inSpan o (oMuxStat d) 8

/-! ## Port resets (R291, R434) -/

/-- Records held for a port are discarded, and those of its accepted descriptors will be (R291, R308). -/
def State.orphanPort (s : State) (p : EPort) : State :=
  let po := s.port p
  let s := s.bump (oDropped p) 31 0 po.held.length
  { s.setPort p { po with held := [], pairs := [] } with opens := s.opens.map fun d => if d.port = p then { d with orphan := true } else d }

/-- An Etcen port's reset. The `_HI` shadows and staged `_LO` values of its path stay, and only the package's resets empty them:
R6 and R7 do not say (DESIGN CHOICE, log entry 29). -/
def State.resetEtcen (s : State) (p : EPort) : State :=
  let s := (s.orphanPort p).resetRegs .port (etcenReg p)
  s.setPort p { Port.reset with trained := (s.port p).trained }

/-- The targets of an Ethernet port. -/
def State.targetsOf (s : State) (p : Nat) : List Nat :=
  (List.range 16).filter fun t =>
    let w := wordAt s.eth.setup (tgtAt t)
    bit w 0 && (if bit w 1 then 1 else 0) = p

/-- An Ethernet port and its connections go off. -/
def State.stopEthernet (s : State) (p : Nat) : State :=
  (s.targetsOf p).foldl (fun s t => s.setConn t 0) (s.setReg (oEthStat p) 0#32)

/-- A reset of the port also drops its part of the setup (R442). -/
def State.resetEthernet (s : State) (p : Nat) : State :=
  let ts := s.targetsOf p
  let gone (k : Nat) : Bool := k / 16 = p || ts.any fun t => k / 16 = 4 + t
  { s.stopEthernet p with eth := { s.eth with
      setup := ((List.range s.eth.setup.length).zip s.eth.setup).map fun e => if gone e.1 then 0#32 else e.2 } }

def State.resetLimfele (s : State) (p : Nat) : State := ((s.setReg (oPortStat p) 0#32).setReg (oCableStat p) 0#32).leavePort p

/-- A port reset by its number in `RST_CMD.UNIT`. -/
def State.resetPort (s : State) (u : Nat) : State :=
  if u = 0 then s.resetEtcen .a else if u = 1 then s.resetEtcen .b
  else if u = 2 || u = 3 then s.resetEthernet (u - 2)
  else if 16 ≤ u then s.resetLimfele (u - 16) else s

/-- An Etcen port starts to train (R288), unless it is held down or its die is out or in reset. -/
def State.trainEtcen (s : State) (p : EPort) : State :=
  let d := portNo p
  if s.dieInReset d || s.dieOut d || s.portInReset d || fld (s.reg (oLinkCtl p)) 1 0 = 0 || s.linkUp p then s
  else s.setRegFld (oLinkStat p) 1 0 1

/-- An Ethernet port comes back with its setup and connects its targets again, as after SLEEP (R442). -/
def State.startEthernet (s : State) (p : Nat) : State :=
  if s.dieInReset p || s.dieOut p || s.portInReset (2 + p) || s.eth.setup.isEmpty then s
  else
    let v := fieldAt s.eth.setup (0x40 * p) 2 0
    let s := s.setReg (oEthStat p) (BitVec.ofNat 32 (if v ≤ 4 then v else 0))
    (s.targetsOf p).foldl (fun s t => (s.setConn t 1).emit (.connect t)) s

/-- Every port of the dies starts again; an Ethernet port waits for a setup record. -/
def State.startPorts (s : State) : State := ((s.trainEtcen .a).trainEtcen .b).trainPorts

/-! ## Package states -/

/-- The frame of an HBM byte, or of an HBM line. -/
def frameOfByte (k : Nat) : Nat := frameKey (k / 2 ^ 36) (k % 2 ^ 36 / 2 ^ 21)
def frameOfLine (k : Nat) : Nat := frameKey (k / 2 ^ 29) (k % 2 ^ 29 / 2 ^ 14)

/-- What leaves the package, its waiting commands and the model's own counters go on through every reset. -/
def State.carried (s t : State) : State :=
  { t with fuses := s.fuses, flash := s.flash, out := s.out, fresh := s.fresh, pending := s.pending,
           nextDesc := s.nextDesc, commits := s.commits, drained := s.out.length }

/-- The pins of power, and the conditions of the input, the coolant and heat, which no reset ends. -/
def Power.after (p : Power) (dies : Nat) : Power :=
  { Power.reset with
    cap := minCap dies, vinLow := p.vinLow, vinFailing := p.vinFailing, leak := p.leak, cool := p.cool,
    thermal := p.thermal, hard := p.hard }

/-- A cold reset (R428, R442): flash, fuses and the trip pin are all that is kept. -/
def State.coldState (s : State) : State :=
  let t := { s.carried State.reset with
    regs := (s.resetRegs .cold fun _ => true).regs, mregs := []
    power := { s.power.after s.fuses.dies with vinFailing := false }
    rst := { s.rst with active := [(.cold, 0)], cmdHold := none, clockHold := [] } }
  t.refreshPower

/-- A source with a bit in `RST_CAUSE` is recorded. -/
def State.causeIf (s : State) (i : Nat) : State := if i < 9 then s.cause i else s

/-- A package warm reset (R434 to R442): preserved regions are recorded, and with the always-on domain they are all that
is kept beside flash and fuses. -/
def State.warmState (s : State) : State :=
  let s := s.ctxs.foldl (fun s cx => s.recordRegions cx.2) s
  let held := s.heldFrames
  let t := { s.carried State.reset with
    regs := (s.resetRegs .warm fun _ => true).regs
    mregs := s.mregs.filter fun e => e.1 = mCap || e.1 = mSafe
    retained := s.retained, retainedBad := s.retainedBad, preserved := s.preserved
    frames := s.frames.filter held.contains
    hbm := s.hbm.filter fun e => held.contains (frameOfByte e.1)
    hbmPoison := s.hbmPoison.filter fun k => held.contains (frameOfLine k)
    hbmFlips := s.hbmFlips.filter fun e => held.contains (frameOfLine e.1)
    departed := s.power.vinFailing
    power := { s.power.after s.fuses.dies with
      cap := s.power.cap, classB := s.power.classB, order := s.power.order, phaseLearned := s.power.phaseLearned }
    rst := s.rst }
  t.refreshPower

/-! ## Assertion (R427 to R432) -/

def State.setActive (s : State) (l : List (RstLevel × Nat)) : State := { s with rst := { s.rst with active := l } }

/-- A narrower source that is active during a package warm reset is recorded in `RST_CAUSE` too. -/
def State.recordActive (s : State) : State :=
  s.rst.active.foldl (fun s e => if e.2 < 8 then s.cause e.2 else s) s

/-- The mark of a package warm reset that no Gwynmi controller can end (R18). -/
def noController : Nat := 14

/-- A package warm reset from a source, by its bit in `RST_CAUSE` (15: recorded already). Under a cold reset nothing but
`POWER_ON` stays recorded (R432). A new source makes every controller run its self-test again (R18). -/
def State.assertWarm (s : State) (bit : Nat) : State :=
  if s.dead || s.inReset .cold then s
  else
    let s := s.causeIf bit
    if s.inReset .warm then s.setActive (s.rst.active.map fun e => if e = (.warm, noController) then (.warm, 15) else e)
    else
      let s := s.recordActive.warmState
      s.setActive ((.warm, 15) :: match s.rst.cmdHold with | some l => [(l, 2)] | none => [])

/-- A held level of `RST_CMD`, the only one at a time. -/
def State.holdIf (s : State) (l : RstLevel) (hold : Bool) : State :=
  if hold then { s with rst := { s.rst with cmdHold := some l } } else s

/-- The level enters reset, or its count starts again. -/
def State.enter (s : State) (l : RstLevel) (src : Nat) : State :=
  s.setActive ((s.rst.active.filter fun e => e.1 != l) ++ [(l, src)])

/-- The die of a slice key, the core of a local SRAM key, and the die of a buffer line's (log entry 24). -/
def sliceKeyDie (k : Nat) : Nat := k / (32 * 16 * 3072 * 128)
def localKeyCore (k : Nat) : Nat := k / (16 * 1024 * 128)
def lineKeyDie (k : Nat) : Nat := k / (256 * 2 ^ 32 * 128)

/-- The local SRAM and vector registers of the cores that `gone` names lose their contents (log entry 10). -/
def State.dropCores (s : State) (gone : Nat → Bool) : State :=
  { s with
    locals := s.locals.filter fun e => !gone (localKeyCore e.1), localPoison := s.localPoison.filter fun k => !gone (localKeyCore k)
    localFlips := s.localFlips.filter fun e => !gone (localKeyCore (8 * e.1))
    vregs := s.vregs.filter fun e => !gone (e.1 / 4096), vregPoison := s.vregPoison.filter fun k => !gone (k / 4096) }

/-- Slices, local SRAM, vector registers, port buffers, translation caches and jig store of a die lose their contents (log entry 10). -/
def State.dropSram (s : State) (d : Nat) : State :=
  { s.dropCores fun c => c / 48 = d with
    slices := s.slices.filter fun e => sliceKeyDie e.1 != d, slicePoison := s.slicePoison.filter fun k => sliceKeyDie k != d
    sliceFlips := s.sliceFlips.filter fun e => sliceKeyDie (8 * e.1) != d
    lines := s.lines.filter fun e => lineKeyDie e.1 != d, linePoison := s.linePoison.filter fun k => lineKeyDie k != d
    jigStore := s.jigStore.filter fun e => e.1 != d, xlate := s.xlate.filter fun e => e.1 % 8 != d }

def State.dropLocal (s : State) (d c : Nat) : State := s.dropCores fun k => k = d * 48 + c

/-- `CLK_MUX_STAT_d` shows the first hung island of the die (R425). -/
def State.refreshMux (s : State) (d : Nat) : State :=
  let w := s.reg (oMuxStat d) &&& 0x0000FF00#32
  s.setReg (oMuxStat d) (match s.hung.find? fun k => k / 128 = d with
    | none => w
    | some k => w ||| BitVec.ofNat 32 (3 * 2 ^ 30 + k % 128))

/-- An island's reset releases a hung multiplexer (R425). -/
def State.unhang (s : State) (d : Nat) (sel : Nat → Bool) : State :=
  { s with hung := s.hung.filter fun k => !(k / 128 = d && sel (k % 128)) }.refreshMux d

/-- The ports of a die. -/
def diePorts (d : Nat) : List Nat := (if d < 2 then [d, 2 + d] else []) ++ (List.range 4).map fun k => 16 + 4 * d + k

/-- A die reset from a source with its bit in `RST_DIE_CAUSE_d` and in `RST_CAUSE`. The die's share of the step in
flight fails (R349); the package tells it, unless the die is that of its seal agent (R21). -/
def State.assertDie (s : State) (d : Fin 8) (dieBit pkgBit : Nat) : State :=
  if s.dead || s.inReset .cold || s.fuses.dies ≤ d.val then s
  else
    let s := s.dieCause d.val dieBit
    if s.inReset .warm then (s.causeIf pkgBit).enter (.die d) pkgBit
    else
      let again := s.dieInReset d.val
      let s := if again then s else s.bump (oDieCause d.val) 23 16 1
      let s := (s.dropSram d.val).unhang d.val fun _ => true
      let s := ((diePorts d.val).foldl State.resetPort s).resetRegs .die (dieReg d.val)
      let s := s.enter (.die d) pkgBit
      if again then s else s.failShare stFault

def State.assertCore (s : State) (d : Fin 8) (c : Fin 48) (dieBit pkgBit : Nat) : State :=
  if s.dead || s.inReset .cold || s.fuses.dies ≤ d.val then s
  else
    let s := s.dieCause d.val dieBit
    let s := if s.inReset .warm then s.causeIf pkgBit else s
    ((s.dropLocal d.val c.val).unhang d.val fun n => n = c.val).enter (.core d c) pkgBit

/-- A unit number that names a port of the member. -/
def State.isPort (s : State) (u : Nat) : Bool := u < 4 || (16 ≤ u && decide (u < 16 + 4 * s.fuses.dies))

def State.assertPort (s : State) (u : Fin 48) (pkgBit : Nat) : State :=
  if s.dead || s.inReset .cold || !s.isPort u.val then s
  else
    let s := if s.inReset .warm then s.causeIf pkgBit else s
    (s.resetPort u.val).enter (.port u) pkgBit

/-! ## Boot (R18, R434, R450, R453 to R455) -/

def State.modBoot (s : State) (f : Boot → Boot) : State := { s with boot := f s.boot }
def State.setBoot (s : State) (v : Nat) : State := s.setRegFld oBootStat 31 29 v
def State.bootState (s : State) : Nat := fld (s.reg oBootStat) 31 29

/-- Units classed permanently faulty are retired (R368). -/
def State.retireUnits (s : State) : State :=
  let us := (s.flash.history.filter fun e => e.event = 6).map fun e => (⟨Fin.ofNat 8 e.die, e.kind, e.unit⟩ : UnitName)
  { s with flash := { s.flash with
      retired := us.foldl (fun l u => if l.contains u then l else l ++ [u]) s.flash.retired } }

/-- Held frames on some stacks are freed, and the loss is recorded when any was (R369, R441). -/
def State.loseFrames (s : State) (dies : List Nat) : State :=
  let gone := s.preserved.filter fun e => dies.contains (entryDie e.2.2)
  if gone.isEmpty then s
  else
    let keys := gone.map fun e => entryKey e.2.2
    ({ s.giveFrames keys with
      preserved := s.preserved.filter fun e => !dies.contains (entryDie e.2.2)
      hbm := s.hbm.filter fun e => !keys.contains (frameOfByte e.1)
      hbmPoison := s.hbmPoison.filter fun k => !keys.contains (frameOfLine k)
      hbmFlips := s.hbmFlips.filter fun e => !keys.contains (frameOfLine e.1) }).cause 31

/-- The block is read: cable plan, XB frequency and clamped offsets. -/
def State.readBcb (s : State) : State :=
  let s := s.modBoot fun b => { b with bcb := s.bcbBytes }
  let s := s.setRegBit oBootStat 19 (!bcbValid s.boot.bcb)
  let s := (List.range 32).foldl (fun s p => s.setReg (oCable p) (BitVec.ofNat 32 (s.bcbFld (0x090 + 4 * p) 31 0) &&& 0x80FFFFFF#32)) s
  let s := s.setRegFld oClkSrc 7 0 (s.bcbFld 0x008 15 8)
  s.setMregFld mStat 23 23 (if s.calClamped then 1 else 0)

/-- The PLLs of a die lock: the last one feeds ports of dies 0 and 1 only (R411). -/
def State.lockPlls (s : State) (d : Nat) : State :=
  if s.dieOut d || s.dieInReset d then s else s.setRegFld (oClkPll d) 3 0 (if d < 2 then 15 else 7)

/-- The staged effecters take the values of the registers (R467). -/
def State.stageEffecters (s : State) : State :=
  let w := s.mreg mCap
  s.modBoot fun b => { b with
    staged := [(classOf w).toNat, orderOf w, (phaseOf w).toNat, (classOf (s.mreg mSafe)).toNat] }

/-- Authentication and what follows it: the image runs, or recovery mode. The management domain runs in both. -/
def State.bootImage (s : State) : State :=
  let s := (s.diesCarried.foldl State.lockPlls s).reloadCap.stageEffecters
  let im := s.flash.image
  let r := authImage s.fuses im
  let s := s.modBoot fun b => { b with mgmtUp := true }
  if r != 0 then
    (((s.setRegFld oBootStat 23 20 r).setRegBit oClkSrc 8 false).setBoot 5).pldmEvent 33 5
  else
    let s := s.modBoot fun b => { b with
      digest := imgDigest im
      ownerKey := imgOwnerKey im
      ownerOk := verifyAt (pairAt im 0x120) (imgDigest im) im 0x160 }
    let s := (s.setReg oFwVer (imgVersion im)).setRegFld oSvn 15 8 (imgSvn im)
    let s := s.modPower fun p => { p with clocks := [topMhz, topMhz, topMhz] }
    let s := if s.power.hard then s.modPower fun p => { p with clocks := [800, 800, 800] } else s
    s.refreshPower.setBoot 3

/-- Steps 2 and 3 of the boot: the board block and XB. With XB enabled, the boot waits for its start-up delay (R414). -/
def State.bootStart (s : State) : State :=
  let s := s.readBcb
  s.modBoot fun b => { b with xbWait := s.xbMode != 0 }

/-- The boot ROM goes on by itself: what it authenticates is judged when the block idles (R453; DESIGN CHOICE, log
entry 30). Until then host software may set up ring pairs (R454). -/
def State.bootTick (s : State) : State :=
  if s.bootState = 1 && !s.boot.xbWait && !s.pkgInReset && !s.dead then s.bootImage else s

/-- The dies whose Gwynmi controller passes its self-test and may be primary (R18, R369). -/
def State.passing (s : State) (selfTest : List Bool) : List Nat := s.diesInService.filter fun d => selfTest.getD d false

/-- Every source of cold and package warm level is over: the package's units are released (R434). -/
def State.releasePackage (s : State) (selfTest : List Bool) (slotId : Nat) (parityOk : Bool) : State :=
  let s := (s.retireUnits)
  let s := s.loseFrames (s.diesCarried.filter fun d => s.stackOut d)
  let s := { s with rst := { s.rst with slotId := slotId % 16 } }
  match s.passing selfTest with
  | [] => s.setFaultPin.setActive [(.warm, noController)]
  | p :: _ =>
    if !parityOk then (s.cause 4).setActive [(.warm, 15)]
    else
      let s := s.setActive (match s.rst.cmdHold with | some l => [(l, 2)] | none => [])
      let s := if s.diesCarried.any fun d => s.dieInReset d && !s.dieOut d then s.cause 8 else s
      let s := (s.setReg oBootStat 0#32).setRegFld oBootStat 10 8 p
      let s := (s.setRegBit oBootStat 17 (p != 0)).setBoot 1
      (s.startPorts).bootStart

/-- A level that a wider one covers. -/
def covers (w l : RstLevel) : Bool :=
  match w, l with
  | .die d, .core e _ => d = e
  | .die d, .port u => portDie u.val = d.val
  | _, _ => false

/-- The level leaves reset; what it covers leaves with it, but for what `RST_CMD` holds (R432). -/
def State.leave (s : State) (l : RstLevel) : State :=
  let s := s.setActive (s.rst.active.filter fun e => e.1 != l && !(covers l e.1 && s.rst.cmdHold != some e.1))
  match s.rst.cmdHold with
  | some h => if covers l h && !s.inReset h then s.enter h 2 else s
  | none => s

/-- A wider level than this one is in reset. -/
def State.covered (s : State) (l : RstLevel) : Bool :=
  match l with
  | .cold => false
  | .warm => s.inReset .cold
  | .die _ => s.pkgInReset
  | .core d _ => s.dieInReset d.val
  | .port u => s.dieInReset (portDie u.val)

/-- The release of a level that nothing holds and no wider level covers. A core that leaves its reset while a step is in flight rests
until the die's next step begins, and that step includes it (R131; DEDUCED, log entry 30). -/
def State.released (s : State) (l : RstLevel) : State :=
  let s := s.leave l
  match l with
  | .die d => ((s.lockPlls d.val).startPorts).tellFailure
  | .core d c =>
    if s.attempt.isNone then s
    else
      let s := s.failShare stTimeout
      { s with resting := s.resting ++ [d.val * 48 + c.val] }
  | .port u =>
    if u.val = 0 then s.trainEtcen .a else if u.val = 1 then s.trainEtcen .b
    else if u.val < 4 then s else s.trainPorts
  | _ => s

/-- A source of the level is still active. -/
def State.heldLevel (s : State) (l : RstLevel) : Bool :=
  match l with
  | .cold => !s.rst.pwrOk || s.dead
  | .warm => s.rst.rstN || !s.rst.clockHold.isEmpty || s.rst.active.contains (.warm, noController)
  | _ => s.rst.cmdHold = some l

/-- A level's minimum length has elapsed (R428, R430): it is released once no source holds it and no wider level is in
reset. After a cold reset, `RST_N` low from outside or a lost clock goes on as a package warm reset (R433). -/
def execResetRelease (l : RstLevel) (selfTest : List Bool) (slotId : Nat) (parityOk : Bool) (s : State) :
    Host.Outcome State Fault Refusal :=
  .next <|
    if !s.inReset l || s.heldLevel l then s
    else match l with
      | .cold =>
        if s.rst.rstN || !s.rst.clockHold.isEmpty then
          let s := if s.rst.rstN then s.cause 1 else s
          (if s.rst.clockHold.isEmpty then s else s.cause 5).setActive [(.warm, 15)]
        else s.releasePackage selfTest slotId parityOk
      | .warm => if s.covered l then s else s.releasePackage selfTest slotId parityOk
      | _ => if s.covered l then s.setActive (s.rst.active.filter fun e => e.1 != l) else s.released l

/-! ## Sources from pins and power (R390, R407, R429, R433) -/

/-- `PWR_OK` rises: the cold reset runs for its minimum length. A tripped package does not restart (R407). -/
def execPwrOkRise (s : State) : Host.Outcome State Fault Refusal :=
  .next <|
    let s := { s with rst := { s.rst with pwrOk := true } }
    if !s.rst.powered || bit (s.reg oPinOut) 2 then s else { s.coldState with pkg := .on }

/-- `PWR_OK` falls: cold governs, and every recorded cause but `POWER_ON` is cleared. -/
def execPwrOkFall (s : State) : Host.Outcome State Fault Refusal :=
  .next <|
    let s := { s with rst := { s.rst with pwrOk := false } }
    if !s.rst.powered then s else { s.coldState with pkg := s.pkg }

/-- 48 V is applied: a cold reset is held while `PWR_OK` is low. -/
def execPowerApplied (s : State) : Host.Outcome State Fault Refusal :=
  .next <|
    if s.rst.powered then s
    else
      let s := { s with rst := { s.rst with powered := true, pwrOk := false }, power := Power.reset, pkg := .on }
      s.coldState

/-- V_in below 36 V: the package is off, and the trip pin is released (R390, R407). -/
def execInputLost (s : State) : Host.Outcome State Fault Refusal :=
  .next <|
    let s := (s.setRegBit oPinOut 2 false).coldState
    { s with pkg := .off, rst := { s.rst with powered := false }, power := Power.reset }

/-- `RST_N` is low from outside for 2 SIO cycles. -/
def execRstNAssert (s : State) : Host.Outcome State Fault Refusal :=
  .next ({ s with rst := { s.rst with rstN := true } }.assertWarm 1)

def execRstNRelease (s : State) : Host.Outcome State Fault Refusal :=
  .next { s with rst := { s.rst with rstN := false } }

/-- The management watchdog expires. -/
def execMgmtWatchdog (s : State) : Host.Outcome State Fault Refusal := .next (s.assertWarm 3)

/-- A clock-loss reset has been held for more than 100 ms (R431). -/
def execClockLossFaultN (s : State) : Host.Outcome State Fault Refusal :=
  .next (if s.inReset .warm && !s.rst.clockHold.isEmpty then s.setFaultPin else s)

/-! ## Boot events -/

/-- XB's start-up delay ends and its gauge judges it (R414). -/
def execXbStartDelayEnd (gaugePass : Bool) (s : State) : Host.Outcome State Fault Refusal :=
  .next <|
    if !s.boot.xbWait then s
    else
      let s := s.modBoot fun b => { b with xbWait := false }
      if gaugePass then s.setRegBit oClkSrc 8 (s.xbMode = 2) else s.setRegBit oClkSrc 9 true

/-- Every enable of a block that is not retired (R422). -/
def State.setEnables (s : State) : State :=
  let s := s.setReg oClkEnPkg (BitVec.ofNat 32 (4 + (if s.dieOut 0 then 0 else 1) + (if s.dieOut 1 then 0 else 2)))
  s.diesInService.foldl (fun s d =>
    let m := (List.range 48).foldl (fun m n => if s.coreRetired d n then m else m + 2 ^ n) 0
    ((s.setReg (oClkEnBlk d) 0x03FFFFFF#32).setReg (oClkEnCoreLo d) (lo32 m)).setReg (oClkEnCoreHi d) (hi32 m)) s

/-- The ready report (R369, R451, R454): once every die in service is out of reset. -/
def execReadyReport (s : State) : Host.Outcome State Fault Refusal :=
  .next <|
    if s.bootState != 3 || s.pkgInReset || s.dead || s.diesInService.any fun d => s.dieInReset d then s
    else if s.dieOut 0 && s.dieOut 1 then s.setFaultPin
    else
      let s := s.setEnables.setBoot 4
      let svn := min 64 (max s.fuses.svn (fld (s.reg oSvn) 15 8))
      let s := { s with fuses := { s.fuses with svn := svn } }.modBoot fun b => { b with ready := true }
      s.pldmEvent 33 4

/-- In recovery mode, 10 ms after a valid image was written, the package resets itself (R456). -/
def execRecoverySelfReset (s : State) : Host.Outcome State Fault Refusal :=
  .next (if s.recovery && s.boot.recoverAt then s.assertWarm 15 else s)

end Sys2Proof.Machine
end

