-- ==== Sys2Proof/Machine/Firmware.lean ====
section
/-! DEFINITION. Firmware updates and attestation (R456 to R461). -/

namespace Sys2Proof.Machine

/-! ## Updates (R457, R458) -/

def State.setUpdate (s : State) (u : Option Update) : State := s.modBoot fun b => { b with update := u }

/-- The management domain answers. -/
def State.mgmtOn (s : State) : Bool := s.boot.mgmtUp && !s.dead && !s.pkgInReset

/-- A path holds the slot: its header has passed. -/
def State.slotHeld (s : State) : Bool := match s.boot.update with | some u => u.started | none => false

/-- Step 2 begins: the slot is erased, and no image waits in it any more. -/
def State.beginWrite (s : State) (u : Update) : State :=
  let s := { s with flash := { s.flash with image := [] } }.setUpdate (some { u with started := true })
  s.setRegBit oBootStat 18 false

/-- `DIAG` IMAGE_PUSH: the whole image is read from host memory, and the header judged. -/
def State.pushImage (s : State) (d : Desc) (h : HostView) : State :=
  let n := min (wordAt d.words 0x18).toNat maxImage
  let held := s.dowels.getD 6 0 = (match d.port with | .a => 1 | .b => 2)
  if (s.service && !held) || s.slotHeld then s.complete d.id stDenied 0 .none
  else match hostRead h (addrAt d.words 0x10 0x14) n with
    | none => s.complete d.id stBad 0x40 .none
    | some bs =>
      if authHeader s.fuses bs != 0 then s.complete d.id stBad (authHeader s.fuses bs) .none
      else s.beginWrite ⟨some d.port, some d.id, n, bs, true, false⟩

/-- Header and component table have arrived. -/
def headerIn (bs : List Byte) : Bool := 0x200 ≤ bs.length && 0x200 + 64 * imgComponents bs ≤ bs.length

/-- PLDM RequestUpdate. -/
def execRequestUpdate (s : State) : Host.Outcome State Fault Refusal :=
  .next <|
    if !s.mgmtOn then s
    else if s.boot.update.isSome then s.emit (.pldm .alreadyInUpdateMode)
    else (s.setUpdate (some ⟨none, none, 0, [], false, false⟩)).emit (.pldm .success)

/-- PLDM image data, in ascending order: judged once the header and the component table are there, written after that. -/
def execPldmImageData (offset : Nat) (bytes : List Byte) (s : State) : Host.Outcome State Fault Refusal :=
  .next <| match s.boot.update with
  | none => s
  | some u =>
    if !s.mgmtOn || u.byPort.isSome || u.bytes.length < offset || maxImage < offset + bytes.length then s
    else
      let u := { u with bytes := splice u.bytes offset bytes }
      if u.started || !headerIn u.bytes then s.setUpdate (some u)
      else if authHeader s.fuses u.bytes != 0 then s.setUpdate none
      else s.beginWrite { u with len := imgLen u.bytes }

/-- PLDM ActivateFirmware: activation waits for a package warm reset. -/
def execActivateFirmware (s : State) : Host.Outcome State Fault Refusal :=
  .next (if s.mgmtOn && bit (s.reg oBootStat) 18 then s.emit (.pldm .activationWaits) else s)

/-- The write of the slot ends. `ok` says whether the flash took it; a component that fails check 8 ends it badly too.
The status of a push whose flash write fails is not stated: a free value (log entry 32). -/
def execUpdateWriteDone (ok : Bool) (s : State) : Host.Outcome State Fault Refusal :=
  .next <| match s.boot.update with
  | none => s
  | some u =>
    if !u.started || u.bytes.length < u.len then s
    else
      let s := s.setUpdate none
      let good := (imgEntries u.bytes).all (componentOk u.bytes)
      if good && ok then
        let s := { s with flash := { s.flash with image := u.bytes } }
        let s := if s.recovery then s.modBoot fun b => { b with recoverAt := authImage s.fuses u.bytes = 0 }
          else s.setRegBit oBootStat 18 true
        match u.desc with
        | none => s
        | some id => s.complete id stOk u.bytes.length .none
      else match u.desc with
        | none => s
        | some id =>
          if !good then s.complete id stBad 8 .none
          else
            let r := s.free
            r.2.complete id (r.1.toNat % 256) 0 .none

/-! ## Attestation (R460, R461) -/

def State.spdmConn (s : State) (p : Path) : SpdmConn :=
  match s.boot.spdm.find? fun e => e.1 = p with | some e => e.2 | none => .fresh

def State.setSpdm (s : State) (p : Path) (c : SpdmConn) : State :=
  s.modBoot fun b => { b with spdm := (b.spdm.filter fun e => e.1 != p) ++ [(p, c)] }

/-- The responder runs, and the path reaches it: the I3C path over MCTP, an Etcen port through `DIAG` while its link is up. -/
def State.spdmOn (s : State) (p : Path) : Bool :=
  s.mgmtOn && match pathPort p with | some e => s.linkUp e | none => true

def State.respond (s : State) (p : Path) (r : SpdmRsp) : State := s.emit (.spdm p r)

/-- The signing key: the Alias key, and the DeviceID key in recovery mode. -/
def State.signKey (s : State) : Nat := if s.recovery then s.deviceKey else s.aliasKey

/-- A signature over what a response carries. -/
def State.signed (s : State) (content : List Byte) : (Nat × Nat) × State :=
  (sm2Sign s.signKey (scalarOf (Config.signNonce s.fresh)) (Config.transcript content), { s with fresh := s.fresh + 1 })

def pubKey (d : Nat) : Nat × Nat := (sm2Times d sm2G).getD (0, 0)

/-- The Alias certificate of the running image, signed by the DeviceID key at boot. -/
def State.aliasCert (s : State) : List Byte :=
  let key := pubKey s.aliasKey
  Config.aliasCertificate s.boot.digest (fld (s.reg oSvn) 15 8) (s.reg oFwVer).toNat key
    (sm2Sign s.deviceKey (scalarOf (Config.signNonce 0)) (Config.transcript (beBytes 32 key.1 ++ beBytes 32 key.2)))

/-- The chain of slot 0: root CA, manufacturing CA, the DeviceID certificate of the primary's die, and the Alias
certificate, which recovery mode has none of (log entry 32). -/
def State.certChain (s : State) : List Byte :=
  s.flash.certs.getD 0 [] ++ s.flash.certs.getD 1 [] ++ s.flash.certs.getD (2 + s.primaryDie) [] ++
    (if s.recovery then [] else s.aliasCert)

/-- The retirement mask: one bit a core, six bytes a die. -/
def State.retireMask (s : State) : List Byte :=
  (List.range 8).flatMap fun d =>
    leBytes 6 ((List.range 48).foldl (fun m n => if s.coreRetired d n then m + 2 ^ n else m) 0)

/-- A measurement block; the order of the items in a raw block is not stated (log entry 32). -/
def State.measurement (s : State) (i : Nat) : Option (List Byte) :=
  match i with
  | 1 => some s.fuses.romDigest
  | 2 => some (if s.recovery then List.replicate 32 0#8 else s.boot.digest)
  | 3 => some (sm3 s.boot.bcb)
  | 4 => some (s.fuses.rootHash ++ s.fuses.ownerHash ++
      [BitVec.ofNat 8 s.fuses.ownerEn.toNat] ++ leBytes 2 s.fuses.revoked ++
      [BitVec.ofNat 8 s.fuses.svn, BitVec.ofNat 8 s.fuses.jtagLock.toNat])
  | 5 => some ([BitVec.ofNat 8 (fld (s.reg oSvn) 15 8)] ++ leBytes 4 (s.reg oFwVer).toNat ++
      [BitVec.ofNat 8 (bit (s.reg oBootStat) 18).toNat])
  | 6 => some (BitVec.ofNat 8 s.primaryDie :: s.retireMask)
  | _ => none

/-- The requests, by what they ask. -/
inductive SpdmReq where
  | getVersion | getCapabilities
  | negotiate (sm2 sm3 : Bool)
  | getDigests
  | getCertificate (slot offset length : Nat)
  | challenge (nonce : List Byte)
  | getMeasurements (index : Nat) (nonce : List Byte)
  | session
  deriving DecidableEq, Repr

/-- The answer to a request on a path, with its effect on the path's connection. A request before the ones it builds on is
answered as unexpected (log entry 32). -/
def State.spdmAnswer (s : State) (p : Path) (r : SpdmReq) : SpdmRsp × State :=
  let c := s.spdmConn p
  match r with
  | .getVersion => (.version 1 3, s.setSpdm p ⟨true, false, false⟩)
  | .getCapabilities =>
    if c.version then (.capabilities true true true false, s.setSpdm p { c with caps := true }) else (.unexpected, s)
  | .negotiate sm2 sm3 =>
    if c.caps then (.algorithms sm2 sm3, s.setSpdm p { c with algs := sm2 && sm3 }) else (.unexpected, s)
  | .getDigests => if c.algs then (.digests (sm3 s.certChain), s) else (.unexpected, s)
  | .getCertificate slot off len =>
    if c.algs && slot = 0 then
      let bs := s.certChain
      (.certificate (window off len bs) (bs.length - (off + len)), s)
    else (.unexpected, s)
  | .challenge nonce =>
    if c.algs then
      let g := s.signed (sm3 s.certChain ++ nonce)
      (.challengeAuth nonce g.1, g.2)
    else (.unexpected, s)
  | .getMeasurements i nonce =>
    let is := if i = 0xFF then [1, 2, 3, 4, 5, 6] else [i]
    let bs := is.filterMap fun i => (s.measurement i).map fun b => (i, b)
    if c.algs && !bs.isEmpty then
      let g := s.signed ((bs.flatMap fun b => BitVec.ofNat 8 b.1 :: b.2) ++ nonce)
      (.measurements bs nonce g.1, g.2)
    else (.unexpected, s)
  | .session => (.unsupported, s)

/-- A request arrives on a path. -/
def State.spdmRequest (s : State) (p : Path) (r : SpdmReq) : State :=
  if !s.spdmOn p then s
  else
    let a := s.spdmAnswer p r
    a.2.respond p a.1

def execGetVersion (p : Path) (s : State) : Host.Outcome State Fault Refusal := .next (s.spdmRequest p .getVersion)

def execGetCapabilities (p : Path) (s : State) : Host.Outcome State Fault Refusal := .next (s.spdmRequest p .getCapabilities)

def execNegotiateAlgorithms (p : Path) (sm2 sm3 : Bool) (s : State) : Host.Outcome State Fault Refusal :=
  .next (s.spdmRequest p (.negotiate sm2 sm3))

def execGetDigests (p : Path) (s : State) : Host.Outcome State Fault Refusal := .next (s.spdmRequest p .getDigests)

def execGetCertificate (p : Path) (slot offset length : Nat) (s : State) : Host.Outcome State Fault Refusal :=
  .next (s.spdmRequest p (.getCertificate slot offset length))

def execChallenge (p : Path) (nonce : List Byte) (s : State) : Host.Outcome State Fault Refusal :=
  .next (s.spdmRequest p (.challenge nonce))

def execGetMeasurements (p : Path) (index : Nat) (nonce : List Byte) (s : State) : Host.Outcome State Fault Refusal :=
  .next (s.spdmRequest p (.getMeasurements index nonce))

def execKeyExchange (p : Path) (s : State) : Host.Outcome State Fault Refusal := .next (s.spdmRequest p .session)

/-- `PSK_EXCHANGE` is answered as `KEY_EXCHANGE` is. -/
def execPskExchange (p : Path) (s : State) : Host.Outcome State Fault Refusal := .next (s.spdmRequest p .session)

/-- A request read through `DIAG` as bytes, by the request code of its second byte (DSP0274's codes: PRESUMED, log entry
32). What else the message carries is free to the reader of its bytes: operands are taken where DSP0274 puts them. -/
def spdmParse (bs : List Byte) : Option SpdmReq :=
  let b (i : Nat) : Nat := (bs.getD i 0#8).toNat
  match b 1 with
  | 0x84 => some .getVersion
  | 0xE1 => some .getCapabilities
  | 0xE3 => some (.negotiate (b 9 / 2 % 2 = 1) (b 12 / 64 % 2 = 1))
  | 0x81 => some .getDigests
  | 0x82 => some (.getCertificate (b 2 % 16) (leNat (window 4 2 bs)) (leNat (window 6 2 bs)))
  | 0x83 => some (.challenge (window 4 32 bs))
  | 0xE0 => some (.getMeasurements (b 3) (window 4 32 bs))
  | 0xE4 => some .session
  | 0xE6 => some .session
  | _ => none

/-- `DIAG` SPDM (R458): the request record is read from host memory, and the response written to the response buffer, whose
bytes are DSP0274's: free values of a free number up to its size (log entry 32). -/
def State.diagSpdm (s : State) (d : Desc) (h : HostView) : State :=
  let a := addrAt d.words 0x1C 0x20
  match (hostRead h a 4).bind fun bs => hostRead h (a + 4) (min (leNat bs) (2 ^ 20)) with
  | none => s.complete d.id stBad 0x40 .none
  | some bs =>
    let r := match spdmParse bs with
      | some q => s.spdmAnswer (portPath d.port) q
      | none => (.unsupported, s)
    let s := r.2.respond (portPath d.port) r.1
    let n := s.free
    let len := n.1.toNat % ((wordAt d.words 0x18).toNat + 1)
    let out := freeBytes len n.2
    (out.2.emit (.hostWrite d.port (addrAt d.words 0x10 0x14) out.1)).complete d.id stOk len .none

end Sys2Proof.Machine
end

