-- ==== Sys2Proof/Machine/Integrity.lean ====
section
/-! DEFINITION. Shadow replay, copies and releases of the page manager, scrub and critical-state errors (R170 to R174,
R200, R201, R349, R354 to R358, R366, R367, R379, R444). -/

namespace Sys2Proof.Machine

/-! ## Shadow comparisons -/

/-- The committed step that a replay belongs to. -/
def State.heldInput (s : State) (c step : Nat) : Option HeldInputs :=
  s.heldInputs.find? fun h => h.ctx = c && h.plan.step = step

/-- The last step of a context at which a unit compared clean; 0 when none did. -/
def State.lastClean (s : State) (u : UnitName) (c : Nat) : Nat :=
  match s.shadowMarks.find? fun m => m.unit = u && m.ctx = c with | some m => m.clean | none => 0

/-- The unit's last comparison failed, in whatever context. -/
def State.lastFailed (s : State) (u : UnitName) : Bool := s.shadowMarks.any fun m => m.unit = u && m.failed

/-- The outcome of a comparison is kept: `clean` is the step of the context that the unit is now clean at. -/
def State.markUnit (s : State) (u : UnitName) (c clean : Nat) (failed : Bool) : State :=
  let others := (s.shadowMarks.filter fun m => !(m.unit = u && m.ctx = c)).map fun (m : ShadowMark) =>
    if m.unit = u then { m with failed := false } else m
  { s with shadowMarks := others ++ [⟨u, c, clean, failed⟩] }

/-- SUSPECT (R358): the members are told the range, and this home acts on it as they do. -/
def State.suspect (s : State) (c step first : Nat) : State :=
  match s.heldInput c step with
  | none => s
  | some h => (s.sendRetract h.plan.job step h.plan.attempt stSuspect first false).suspectNotice h.plan.job first step

/-- A failed replay charged to a unit (R357, R367): two in a row class it. -/
def State.charge (s : State) (u : UnitName) (c step : Nat) : State :=
  let clean := s.lastClean u c
  let again := s.lastFailed u
  let s := ((s.logFault u 2 step).classIf u step again).markUnit u c clean true
  s.suspect c step (clean + 1)

/-- Those that performed the outvoted first replay are charged with a corrected event (R357): the cores of the die that
replayed a tile of a core's share, or the same engine of the next die. -/
def State.outvoted (s : State) (u : UnitName) (step : Nat) (first : List UnitName) : State :=
  if u.kind = 1 then
    (first.filter fun v => v.kind = 1 && v.die = u.die && v != u).foldl (fun s v => s.correctedEvent v step) s
  else s.correctedEvent { u with die := Fin.ofNat 8 ((u.die.val + 1) % max 1 s.fuses.dies) } step

/-- A replay, or a controller's self-check, has compared (R354, R357). -/
def execShadowCompare (u : UnitName) (step : Nat) (matches_ : Bool) (third : Third) (first : List UnitName) (s : State) :
    Host.Outcome State Fault Refusal :=
  .next <|
    match s.shadowOpen.find? fun o => o.unit = u && o.step = step with
    | none => s
    | some o =>
      let s := { s with shadowOpen := s.shadowOpen.erase o }
      let s :=
        if u.kind = 5 && u.unit = 6 then
          if matches_ then s.markUnit u o.ctx step false else s.charge u o.ctx step
        else if matches_ then (s.bump oShadowCmp 31 0 1).markUnit u o.ctx step false
        else
          let s := s.bump oShadowCmp 31 0 2
          match third with
          | .original => ((s.bump oShadowMis 31 0 1).outvoted u step first).markUnit u o.ctx step false
          | _ => (s.bump oShadowMis 31 0 2).charge u o.ctx step
      ((s.settleCtxs .none).runPlaces).settleFences .none

/-! ## Copies, releases, quarantine -/

/-- The data of a copy that has its pages has moved, or the writes of an abandoned one have ended (R200): the next boundary swaps it. What
the copy writes is mirrored (R371). -/
def execCowCopyDone (ctx : Fin 64) (handle page : Nat) (s : State) : Host.Outcome State Fault Refusal :=
  .next <| match s.ctx ctx.val with
  | none => s
  | some x => match x.copies.find? fun k => k.handle = handle && k.page = page && !k.done && !k.new.isEmpty with
    | none => s
    | some k =>
      let t := if k.abandoned then s else ((s.copyData ctx.val x k).dropLent x.job).raiseTables
      State.mirrorAll s (t.modCtx ctx.val fun x => { x with copies := x.copies.map fun (r : Copy) => if r = k then { r with done := true } else r })

/-- Nothing uses a torn-down context any more (R379, R380). -/
def execContextRelease (ctx : Fin 64) (s : State) : Host.Outcome State Fault Refusal :=
  .next (((s.releaseCtx ctx.val .none).runPlaces).settleFences .none)

/-- While no step of the context runs and no plan for it is published, its quarantined pages return to free once every
replay of its steps has compared (R201). What was short of pages is topped up from them, and the lead hears of it
(R203, R254). -/
def State.idleFrees (s : State) (c : Nat) (x : Ctx) : State :=
  let t := State.mirrorAll s (((((s.readTables c x).releaseQuarantineIdle c).topUps c []).noteKv c).dropLent x.job).raiseTables
  match t.ctx c with
  | none => t
  | some y =>
    let r := t.makeReport c y []
    if s.makeReport c x [] = r then t
    else if t.idle then (t.tellJob y).giveReport r
    else t.giveReport { r with seqs := [], forwards := [] }

/-- QUARANTINE_IDLE_RELEASE (R201). -/
def execQuarantineIdleRelease (ctx : Fin 64) (s : State) : Host.Outcome State Fault Refusal :=
  .next <| match s.ctx ctx.val with
  | none => s
  | some x =>
    if s.planned x.job || s.replaysOpen.any (fun o => o.ctx = ctx.val) then s
    else s.idleFrees ctx.val x

/-! ## Scrub (R171, R173) -/

/-- A package resets its partition (R171, R444). -/
def State.partitionReset (s : State) : State := (s.cause 7).refreshAlert.assertWarm 7

/-- The HBM of a die is read: its stack is in service and active, its controller clocked. -/
def State.scrubs (s : State) (d : Nat) : Bool :=
  decide (d < s.fuses.dies) && !s.stackOut d && !s.dieInReset d && !s.dead && s.pkg != .sleep &&
    fld (s.reg oScrub) 7 0 != 0 && bit (s.reg (oClkEnBlk d)) 16

/-- One line of every pseudo-channel is read; an uncorrectable word outside service asks for a partition reset. -/
def execScrubLine (die : Fin 8) (s : State) : Host.Outcome State Fault Refusal :=
  .next <|
    let d := die.val
    if !s.scrubs d then s
    else
      let i := peek 0 s.scrub d
      let lines := (List.range 64).map fun p => lineAt p i
      let bad := lines.any fun l => flipCount (peek 0 s.hbmFlips (lineKey d l)) = 3
      let s := lines.foldl (fun s l => (s.readLine d l 1).2.2) s
      let s := { s with scrub := poke 0 s.scrub d ((i + 1) % (linesPerDie / 64)) }
      if bad && !s.service then s.partitionReset else s

/-! ## Critical state (R349) -/

/-- A critical-state error: a die reset, or a package warm reset. The unit of the history entry is not stated
(log entry 31). -/
def execCriticalStateError (u : CritUnit) (s : State) : Host.Outcome State Fault Refusal :=
  .next <| match u with
  | .package => s.assertWarm 4
  | .die d =>
    if s.fuses.dies ≤ d.val || s.dead then s
    else
      let r := s.free
      let step := match s.attempt with | some a => a.plan.step | none => 0
      (r.2.logFault ⟨d, 5, r.1.toNat % 7⟩ 5 step).assertDie d 1 4

end Sys2Proof.Machine
end

