-- ==== Sys2Proof/Machine/Accept.lean ====
section
/-! DEFINITION. Acceptance of descriptors (R297 to R302, R455, R490): the common checks, and what each opcode does when its
descriptor is accepted. The meanings of the 25 descriptor rows stand at the end. -/

namespace Sys2Proof.Machine

/-! ## Common checks (R301) -/

/-- The first common check that fails, from 1 to 5: its RESULT. -/
def State.headerFault (s : State) (p : EPort) (i : Nat) (ws : List Word) : Option Nat :=
  let op := hOpcode ws
  if !opcodes.contains op then some 0
  else if fieldAt ws 0 15 9 != 0 then some 1
  else if 64 ≤ hContext ws && !(hContext ws = 0xFFFF && (op = opFence || op = opDiag)) then some 2
  else if objectReserved op && hObject ws != 0 then some 0x08
  else if lengthReserved op && hLength ws != 0 then some 0x0C
  else if generates ws && !bit (s.reg (oRingCtl p i)) 1 then some (generateByte ws)
  else none

/-- In recovery mode, the descriptors that are taken at all (R455). -/
def recoveryTakes (ws : List Word) : Bool := hOpcode ws = opDiag && (hObject ws = 0x10 || hObject ws = 0x11)

/-- The status that the context's state gives any descriptor that names it (check 6, R379). -/
def State.contextStatus (s : State) (ws : List Word) : Option Nat :=
  let op := hOpcode ws
  let c := hContext ws
  if c = 0xFFFF then none
  else match s.ctx c with
    | none => if op = opCtxCreate then none else some stDenied
    | some x =>
      if op = opCtxCreate || op = opCtxDestroy || x.state = .destroying then none
      else if x.state = .faulted then some x.fault
      else x.teardown

/-- A policy or training step goes to the lead with the next report (R258, R383). -/
def State.forwardDesc (s : State) (d : Desc) (job : Nat) : State :=
  match d.forward s.node job with
  | none => s
  | some f => { s with forwards := s.forwards ++ [f] }.await d []

/-! ## Bodies -/

/-- `CTX_CREATE` (R377, R378, R440). -/
def State.takeCreate (s : State) (d : Desc) (h : HostView) : State :=
  let ws := d.words
  let job := fieldAt ws 0x18 15 0
  let kind := fieldAt ws 0x18 17 16
  let range := fieldAt ws 0x1C 26 0
  let lend := fieldAt ws 0x24 15 0
  let lendN := fieldAt ws 0x2C 26 0
  let taken := (s.ctx (hContext ws)).isSome || s.ctxs.any fun e => e.2.job = job || (e.2.lendJob = job && e.2.lendCount != 0)
  if taken || job = 0 || (kind = 2 && (lend = 0 || lendN = 0)) then s.complete d.id stDenied 0 .none
  else
    let rec? := if kind = 2 then some (List.replicate 96 0#32) else hostWords h (addrAt ws 0x10 0x14) 96
    match rec? with
    | none => s.complete d.id stBad 0x40 .none
    | some r =>
      if !recordOk r kind range (fieldAt ws 0x28 26 0) lendN then s.complete d.id stBad 0x40 .none
      else
        let held := s.heldFor job range
        if s.freeTotal + held.1.length + held.2.length < range + fieldAt ws 0x20 31 16 then s.complete d.id stNoPages 0 .none
        else (s.createCtx ws r).complete d.id stOk 0 .none

/-- `CTX_DESTROY` (R380). -/
def State.takeDestroy (s : State) (d : Desc) : State :=
  let c := hContext d.words
  let s := (s.modCtx c fun x => { x with state := .destroying, destroyDesc := some d.id }).modDesc d.id fun d => { d with phase := .waiting }
  ((s.settleCtx c .none).runPlaces).settleFences .none

/-- `SEQ_OPEN` and `SEQ_APPEND`: the token array is copied (R247, R248). -/
def State.takeTokens (s : State) (d : Desc) (x : Ctx) (h : HostView) : State :=
  let ws := d.words
  let hd := hObject ws
  let n := fieldAt ws 0x18 22 0
  let opening := hOpcode ws = opSeqOpen
  if !s.isHome hd || (opening && (hd = 0 || hd = 0xFFFFFFFF || (generates ws && n = 0))) then s.complete d.id stDenied 0 .none
  else match (if n = 0 then some [] else hostWords h (addrAt ws 0x10 0x14) n) with
    | none => s.complete d.id stBad 0x40 .none
    | some ts =>
      if ts.any fun t => Config.vocab x.job ≤ t.toNat then s.complete d.id stBad 0x40 .none
      else s.await d ts

/-- `KV_ACCEPT` opens a sequence as `SEQ_OPEN` does. -/
def State.takeAccept (s : State) (d : Desc) : State :=
  let hd := hObject d.words
  if !s.isHome hd || hd = 0 || hd = 0xFFFFFFFF then s.complete d.id stDenied 0 .none else s.await d []

/-- `TRAIN_STEP` (R383). -/
def State.takeTrain (s : State) (d : Desc) (x : Ctx) : State :=
  let ok : Bool := match x.jig? (fieldAt d.words 0x10 7 0) with
    | none => false
    | some bs => (jigStageTable bs).any fun e => stKind e = 5 || stKind e = 6
  if !ok then s.complete d.id stBad 0x10 .none
  else if x.kind != 1 then s.complete d.id stDenied 0 .none
  else s.forwardDesc d x.job

/-! ## `DIAG` (R366, R373 to R375, R458) -/

/-- A fault history entry as 16 bytes (R366). -/
def FaultEntry.bytes (e : FaultEntry) : List Byte :=
  leBytes 4 (e.kind % 16 + e.die % 8 * 2 ^ 4 + e.unit % 256 * 2 ^ 8 + e.event % 16 * 2 ^ 16) ++ leBytes 4 e.step ++ leBytes 8 e.time

/-- FAULT_READ. -/
def State.diagFaults (s : State) (d : Desc) : State :=
  let es := window (wordAt d.words 0x1C).toNat (diagMax d.words / 16) s.flash.history
  let s := if es.isEmpty then s else s.emit (.hostWrite d.port (addrAt d.words 0x10 0x14) (es.flatMap (·.bytes)))
  s.complete d.id stOk es.length .none

/-- DEPART waits for the next commit, or for the idle boundary (R374). -/
def State.diagDepart (s : State) (d : Desc) : State := s.modDesc d.id fun d => { d with phase := .boundary false }

def State.takeDiag (s : State) (d : Desc) (h : HostView) : State :=
  let f := hObject d.words
  match s.ctx (hContext d.words) with
  | none =>
    if f = 1 then s.diagFaults d else if f = 4 then s.diagDepart d else if f = 0x10 then s.diagSpdm d h
    else if f = 0x11 then s.pushImage d h else s.complete d.id stDenied 0 .none
  | some x =>
    if f = 1 then s.diagFaults d else if f = 4 then s.diagDepart d else if f = 0x10 then s.diagSpdm d h
    else if f = 0x11 then s.pushImage d h else if f = 2 then s.takeReading d (hContext d.words) x h
    else s.diagJoin d (hContext d.words) x

/-! ## One descriptor -/

/-- The body of an accepted descriptor whose own bytes are in order. -/
def State.takeBody (s : State) (d : Desc) (h : HostView) : State :=
  let op := hOpcode d.words
  let c := hContext d.words
  if op = opCtxCreate then s.takeCreate d h
  else if op = opDiag then s.takeDiag d h
  else if op = opFence then (s.modDesc d.id fun d => { d with phase := .waiting }).settleFences .none
  else match s.ctx c with
    | none => s.complete d.id stDenied 0 .none
    | some x =>
      if op = opCtxDestroy then s.takeDestroy d
      else if op = opLoad || op = opJigLoad || op = opSeqParams || op = opPageMap then s.takeReading d c x h
      else if op = opSeqOpen || op = opSeqAppend then s.takeTokens d x h
      else if op = opKvAccept then s.takeAccept d
      else if op = opStepPolicy || op = opBenchSplit then s.forwardDesc d x.job
      else if op = opTrainStep then s.takeTrain d x
      else if op = opCheckpoint || op = opRestore then
        (s.modDesc d.id fun d => { d with phase := .boundary false }).startHolds c .none
      else s.takeHomed d

/-- A descriptor completes without having begun; a `LOAD` leaves its destination undefined under every status but `OK` (R335). -/
def State.turnAway (s : State) (d : Desc) (status result : Nat) : State :=
  (if hOpcode d.words = opLoad then s.undefineLoad d.words else s).complete d.id status result .none

/-- A context that is being destroyed takes no descriptor (R380). -/
def State.destroying (s : State) (ws : List Word) : Bool :=
  match s.ctx (hContext ws) with
  | some x => x.state = .destroying
  | none => false

/-- Step 4 of R297, and what the checks and the body give: one descriptor of a pair is accepted. -/
def State.accept (s : State) (p : EPort) (i : Nat) (ws : List Word) (h : HostView) : State :=
  let pr := s.pair p i
  let d : Desc := { id := s.nextDesc, port := p, pair := i, words := ws, buf := [], bufPo := false, phase := .running, orphan := false }
  let s := s.setPair p i { pr with sqHead := (pr.sqHead + 1) % 2 ^ 32 }
  let s := { s with opens := s.opens ++ [d], nextDesc := s.nextDesc + 1 }
  match s.headerFault p i ws with
  | some r => s.turnAway d stBad r
  | none =>
    if s.recovery && !recoveryTakes ws then s.turnAway d stDenied 0
    else match if s.recovery then none else s.contextStatus ws with
      | some st => s.turnAway d st 0
      | none => match ownFault ws with
        | some r => s.turnAway d stBad r
        | none => if !s.recovery && s.destroying ws then s.turnAway d stDenied 0 else s.takeBody d h

/-- The port takes descriptors: its link is up, and the firmware is ready or in recovery mode (R455). -/
def State.portServes (s : State) (p : EPort) : Bool := s.linkUp p && (s.service || s.recovery)

/-- The pair is served: it runs, and no fence holds it. -/
def State.pairServed (s : State) (p : EPort) (i : Nat) : Bool := (s.pair p i).state = .running && !s.heldByFence p i

/-- Sixteen words with the opcode of a row, and for a `DIAG` row its function. -/
def rowWords (op : Nat) (function : Option Nat) (ws : List Word) : List Word :=
  let ws := (List.range 16).map fun i => ws.getD i 0#32
  let ws := ws.set 0 (setFld (ws.getD 0 0#32) 7 0 op)
  match function with | some f => ws.set 2 (BitVec.ofNat 32 f) | none => ws

/-- Link-level retries of a port count (R288). -/
def State.linkRetries (s : State) (p : EPort) (h : HostView) : State := s.bump (oEpErr p) 15 0 h.retries

/-- A descriptor of a row, taken from a pair that the port serves; a tail not read yet is at least one ahead. -/
def State.submit (s : State) (u : Submission) (op : Nat) (function : Option Nat) : State :=
  if s.portServes u.port && s.pairServed u.port u.pair.val then
    let pr := s.pair u.port u.pair.val
    let s := if pr.sqTail = pr.sqHead then s.setPair u.port u.pair.val { pr with sqTail := (pr.sqHead + 1) % 2 ^ 32 } else s
    (s.linkRetries u.port u.host).accept u.port u.pair.val (rowWords op function u.words) u.host
  else s

/-! ## The rows -/

def execCtxCreate (u : Submission) (s : State) : Host.Outcome State Fault Refusal := .next (s.submit u opCtxCreate none)
def execCtxDestroy (u : Submission) (s : State) : Host.Outcome State Fault Refusal := .next (s.submit u opCtxDestroy none)
def execLoad (u : Submission) (s : State) : Host.Outcome State Fault Refusal := .next (s.submit u opLoad none)
def execJigLoad (u : Submission) (s : State) : Host.Outcome State Fault Refusal := .next (s.submit u opJigLoad none)
def execSeqOpen (u : Submission) (s : State) : Host.Outcome State Fault Refusal := .next (s.submit u opSeqOpen none)
def execSeqAppend (u : Submission) (s : State) : Host.Outcome State Fault Refusal := .next (s.submit u opSeqAppend none)
def execSeqCancel (u : Submission) (s : State) : Host.Outcome State Fault Refusal := .next (s.submit u opSeqCancel none)
def execSeqClose (u : Submission) (s : State) : Host.Outcome State Fault Refusal := .next (s.submit u opSeqClose none)
def execSeqParams (u : Submission) (s : State) : Host.Outcome State Fault Refusal := .next (s.submit u opSeqParams none)
def execPageMap (u : Submission) (s : State) : Host.Outcome State Fault Refusal := .next (s.submit u opPageMap none)
def execPageUnmap (u : Submission) (s : State) : Host.Outcome State Fault Refusal := .next (s.submit u opPageUnmap none)
def execKvShip (u : Submission) (s : State) : Host.Outcome State Fault Refusal := .next (s.submit u opKvShip none)
def execKvAccept (u : Submission) (s : State) : Host.Outcome State Fault Refusal := .next (s.submit u opKvAccept none)
def execStepPolicy (u : Submission) (s : State) : Host.Outcome State Fault Refusal := .next (s.submit u opStepPolicy none)
def execBenchSplit (u : Submission) (s : State) : Host.Outcome State Fault Refusal := .next (s.submit u opBenchSplit none)
def execFence (u : Submission) (s : State) : Host.Outcome State Fault Refusal := .next (s.submit u opFence none)
def execCheckpoint (u : Submission) (s : State) : Host.Outcome State Fault Refusal := .next (s.submit u opCheckpoint none)
def execRestore (u : Submission) (s : State) : Host.Outcome State Fault Refusal := .next (s.submit u opRestore none)
def execTrainStep (u : Submission) (s : State) : Host.Outcome State Fault Refusal := .next (s.submit u opTrainStep none)
def execFaultRead (u : Submission) (s : State) : Host.Outcome State Fault Refusal := .next (s.submit u opDiag (some 1))
def execTableRead (u : Submission) (s : State) : Host.Outcome State Fault Refusal := .next (s.submit u opDiag (some 2))
def execJoin (u : Submission) (s : State) : Host.Outcome State Fault Refusal := .next (s.submit u opDiag (some 3))
def execDepart (u : Submission) (s : State) : Host.Outcome State Fault Refusal := .next (s.submit u opDiag (some 4))
def execSpdm (u : Submission) (s : State) : Host.Outcome State Fault Refusal := .next (s.submit u opDiag (some 0x10))
def execImagePush (u : Submission) (s : State) : Host.Outcome State Fault Refusal := .next (s.submit u opDiag (some 0x11))

end Sys2Proof.Machine
end

