-- ==== Sys2Proof/Machine/Etcen.lean ====
section
/-! DEFINITION. The Etcen ports: training, doorbell pages, fetching, held records, interrupts, hot resets and a lost port
(R288 to R298, R307 to R313). -/

namespace Sys2Proof.Machine

/-! ## Doorbell page (R294 to R296, R298) -/

/-- The page is read for these pairs: their three index words. -/
def pageWords (h : HostView) (page : Nat) : List Nat → Option (List (Nat × List Word))
  | [] => some []
  | i :: is =>
    match hostWords h (page + 16 * i) 3, pageWords h page is with
    | some ws, some l => some ((i, ws) :: l)
    | _, _ => none

def Pair.active (pr : Pair) : Bool := pr.state = .running || pr.state = .draining

def State.activePairs (s : State) (p : EPort) : List Nat := (List.range 64).filter fun i => (s.pair p i).active

/-- A pair goes to error. -/
def State.pairError (s : State) (p : EPort) (i cause : Nat) : State :=
  s.setPair p i { s.pair p i with state := .error, cause := cause }

/-- A failed read of the page: every running and draining pair goes to error. -/
def State.pageFailed (s : State) (p : EPort) : State := (s.activePairs p).foldl (fun s i => s.pairError p i 3) s

/-- One pair takes its words; a tail too far ahead is an overrun, of a draining pair too (R295, R298). -/
def State.takeIndexes (s : State) (p : EPort) (i : Nat) (ws : List Word) : State :=
  let pr := { s.pair p i with cqHead := (wordAt ws 4).toNat, tqHead := (wordAt ws 8).toNat }
  let tail := (wordAt ws 0).toNat
  if s.sqSize p i < (tail + 2 ^ 32 - pr.sqHead) % 2 ^ 32 then s.setPair p i { pr with state := .error, cause := 1 }
  else s.setPair p i { pr with sqTail := tail }

/-- Some pair that the port reads has a new tail. -/
def State.newTail (s : State) (p : EPort) (l : List (Nat × List Word)) : Bool :=
  l.any fun e => (s.pair p e.1).active && (wordAt e.2 0).toNat != (s.pair p e.1).sqTail

/-! ## Fetching (R297, R298) -/

/-- A pair with unfetched work that is served. -/
def State.hasWork (s : State) (p : EPort) (i : Nat) : Bool :=
  s.pairServed p i && (s.pair p i).sqTail != (s.pair p i).sqHead

/-- One descriptor is fetched and accepted; a failed fetch puts the pair into error. -/
def State.fetch (s : State) (p : EPort) (h : HostView) (i : Nat) : State :=
  let s := s.setPort p { s.port p with next := (i + 1) % 64 }
  match hostWords h (s.ringBase p i 0 + 64 * ((s.pair p i).sqHead % s.sqSize p i)) 16 with
  | none => s.pairError p i 3
  | some ws => s.accept p i ws h

/-- The pairs in rotation, until none has work that is served. -/
def fetchAll (p : EPort) (h : HostView) : Nat → State → State
  | 0, s => s
  | n + 1, s =>
    match ((List.range 64).map fun k => ((s.port p).next + k) % 64).find? fun i => s.hasWork p i with
    | none => s
    | some i => fetchAll p h n (s.fetch p h i)

/-- Descriptors that the page shows and that are not fetched. -/
def State.unfetched (s : State) (p : EPort) : Nat :=
  ((List.range 64).map fun i =>
    let pr := s.pair p i
    if pr.state = .running then (pr.sqTail + 2 ^ 32 - pr.sqHead) % 2 ^ 32 else 0).foldl (· + ·) 0

/-! ## Polling (R295) -/

def State.pollMax (s : State) (p : EPort) : Nat := 1000 * max 1 (min 48 (fld (s.reg (oPollCtl p)) 13 8))
def State.busyHold (s : State) (p : EPort) : Nat := 1000 * max 1 (fld (s.reg (oPollCtl p)) 31 16)
def State.polls (s : State) (p : EPort) : Bool := bit (s.reg (oPollCtl p)) 0 && s.portServes p

/-- The interval after a read. -/
def Port.after (po : Port) (time hold top : Nat) (found : Bool) : Port :=
  if found then { po with interval := 500, busyUntil := time + hold }
  else if time < po.busyUntil then { po with interval := 500 }
  else { po with interval := min top (max 1000 (2 * po.interval)) }

/-- The interval after a read of the page, which found a new tail or did not, and which a nudge may have asked for (R295, R296). -/
def State.pace (s : State) (p : EPort) (found nudged : Bool) : State :=
  let po := (s.port p).after s.time (s.busyHold p) (s.pollMax p) found
  s.setPort p (if nudged then { po with interval := 500 } else po)

/-- One read of the page and the fetches that follow it. -/
def State.readPage (s : State) (p : EPort) (h : HostView) (pairs : List Nat) (nudged : Bool) : State :=
  let s := s.linkRetries p h
  match pageWords h (s.reg64 (oDbLo p)) pairs with
  | none => (s.pace p false nudged).pageFailed p
  | some l =>
    let l := l.filter fun e => (s.pair p e.1).active
    let s := s.pace p (s.newTail p l) nudged
    let s := l.foldl (fun s e => s.takeIndexes p e.1 e.2) s
    fetchAll p h (s.unfetched p) s

def execDoorbellPoll (port : EPort) (h : HostView) (s : State) : Host.Outcome State Fault Refusal :=
  .next (if s.polls port then s.readPage port h (s.activePairs port) false else s)

/-- A nudge is counted, and reads the whole page while polling is on (R296). -/
def execNudge (port : EPort) (h : HostView) (s : State) : Host.Outcome State Fault Refusal :=
  .next <|
    if !s.linkUp port then s
    else
      let s := s.bump (oNudge port) 31 0 1
      if s.polls port then s.readPage port h (List.range 64) true else s

/-! ## Held records (R307) -/

/-- The oldest held record of a pair that may leave does. -/
def execRecordRelease (port : EPort) (pair : Fin 64) (s : State) : Host.Outcome State Fault Refusal :=
  .next (s.releaseOne port pair.val)

/-- The head words of rings that have held records are read again. -/
def execHeadReread (port : EPort) (h : HostView) (s : State) : Host.Outcome State Fault Refusal :=
  .next <|
    let is := (List.range 64).filter fun i => (s.port port).held.any fun r => r.pair = i
    if !s.linkUp port || is.isEmpty then s
    else
      let s := s.linkRetries port h
      match pageWords h (s.reg64 (oDbLo port)) is with
      | none => s.pageFailed port
      | some l => l.foldl (fun s e =>
          let pr := s.pair port e.1
          let has (t : Bool) : Bool := (s.port port).held.any fun r => r.pair = e.1 && r.token = t
          s.setPair port e.1 { pr with
            cqHead := if has false then (wordAt e.2 4).toNat else pr.cqHead
            tqHead := if has true then (wordAt e.2 8).toNat else pr.tqHead }) s

/-- The oldest counted record has reached the age limit (R309). -/
def execIrqModTimeout (port : EPort) (pair : Fin 64) (s : State) : Host.Outcome State Fault Refusal :=
  .next <|
    let pr := s.pair port pair.val
    if s.linkUp port && bit (s.reg (oIrqVec port pair.val)) 31 && fld (s.reg (oIrqMod port pair.val)) 23 8 != 0 && pr.irqCount != 0
    then s.sendIrq port pair.val else s

/-! ## The link (R288, R308) -/

/-- STATE, with the generation and width of a link that is not up. -/
def State.setLink (s : State) (p : EPort) (v : Nat) : State := s.setReg (oLinkStat p) (BitVec.ofNat 32 v)

/-- The port may train: it is out of reset, its die is in service, and MAX_GEN does not hold the link down. -/
def State.etcenReady (s : State) (p : EPort) : Bool :=
  !s.dead && !s.portInReset (portNo p) && !s.dieInReset (portNo p) && !s.dieOut (portNo p) && fld (s.reg (oLinkCtl p)) 1 0 != 0

/-- Training starts, again or for the first time. -/
def State.startTraining (s : State) (p : EPort) : State := if s.etcenReady p then s.setLink p 1 else s.setLink p 0

/-- The width that a generation gives: 0 x8, 1 x4 on lanes 0 to 3, 3 x4 on lanes 4 to 7; none when it does not train. -/
def genWidth (allowX4 : Bool) (bad : List Nat) : Option Nat :=
  if bad.isEmpty then some 0
  else if !allowX4 then none
  else if !bad.any (· < 4) then some 1
  else if !bad.any (fun l => 4 ≤ l && l < 8) then some 3 else none

/-- The highest generation that trains, from `g` down, with its width. -/
def trainedAt (allowX4 : Bool) (bad : List (Nat × Nat)) : Nat → Option (Nat × Nat)
  | 0 => none
  | g + 1 =>
    match genWidth allowX4 ((bad.filter fun b => b.1 = g + 1 && b.2 < 8).map (·.2)) with
    | some w => some (g + 1, w)
    | none => trainedAt allowX4 bad g

/-- Training ends: the link is up, or no generation trains and the port is down. -/
def execEtcenLinkUp (port : EPort) (partnerGen : Fin 4) (badLanes : List (Nat × Nat)) (s : State) :
    Host.Outcome State Fault Refusal :=
  .next <|
    if fld (s.reg (oLinkStat port)) 1 0 != 1 then s
    else
      let po := s.port port
      let s := if po.trained then s.bump (oEpErr port) 31 16 1 else s
      match trainedAt (bit (s.reg (oLinkCtl port)) 2) badLanes (min (fld (s.reg (oLinkCtl port)) 1 0) partnerGen.val) with
      | none => (s.setLink port 0).setPort port { po with trained := true }
      | some (g, w) => (s.setLink port (2 + 4 * g + 16 * w)).setPort port { po with trained := true, lost := false }

/-- The link leaves the up state; the port trains again. -/
def execEtcenLinkDown (port : EPort) (s : State) : Host.Outcome State Fault Refusal :=
  .next (if s.linkUp port then s.startTraining port else s)

/-- A port that failed to train starts again. -/
def execEtcenTrainRetry (port : EPort) (s : State) : Host.Outcome State Fault Refusal :=
  .next (if fld (s.reg (oLinkStat port)) 1 0 = 0 && s.etcenReady port then s.setLink port 1 else s)

/-- Every dowel that a path holds breaks (R312). -/
def State.breakDowels (s : State) (owner : Nat) : State :=
  { s with
    broken := (s.dowels.zip s.broken).map fun e => e.2 || e.1 = owner
    dowels := s.dowels.map fun o => if o = owner then 0 else o }

/-- The owner number of a path. -/
def ownerNo (p : Path) : Nat := pathNo p + 1

/-- The link has not been up for t_port_lost (R308). -/
def execPortLost (port : EPort) (s : State) : Host.Outcome State Fault Refusal :=
  .next <|
    if s.linkUp port then s
    else
      let s := (s.orphanPort port).breakDowels (ownerNo (portPath port))
      s.setPort port { s.port port with lost := true }

/-! ## Hot resets (R291) -/

def execHotResetPort (port : EPort) (s : State) : Host.Outcome State Fault Refusal :=
  .next (if s.linkUp port then s.assertPort ⟨portNo port, by cases port <;> decide⟩ 15 else s)

def execHotResetPackage (port : EPort) (s : State) : Host.Outcome State Fault Refusal :=
  .next <|
    if !s.linkUp port then s
    else if s.dowels.getD 15 0 = ownerNo (portPath port) then s.assertWarm 6
    else s.bump (oHotRst port) 15 0 1

end Sys2Proof.Machine
end

