-- ==== Sys2Proof/Machine/Clocks.lean ====
section
/-! DEFINITION. Gauges, hung multiplexers and block enables (R419 to R426, R441). -/

namespace Sys2Proof.Machine

/-! ## Clock loss (R420, R429, R441) -/

/-- The reset controller keeps a faulty clock as a source while its gauge reports the fault. -/
def State.holdClock (s : State) (c : GaugeClock) (held : Bool) : State :=
  let others := s.rst.clockHold.filter (· != c)
  { s with rst := { s.rst with clockHold := if held then others ++ [c] else others } }

/-- A clock-loss reset, with the dies whose stacks lost their clock: PRESERVE_LOST is set, and their held frames are free (R441). -/
def State.clockLoss (s : State) (c : GaugeClock) (held : Bool) (dies : List Nat) : State :=
  let t := (s.assertWarm 5).holdClock c held
  if dies.isEmpty || s.inReset .cold then t else (t.cause 31).loseFrames dies

/-- XB is the PLL reference. -/
def State.refXb (s : State) : Bool := bit (s.reg oClkSrc) 8

/-- A fault of a crystal clock; a stopped or wrong reference resets the package. -/
def State.crystalFault (s : State) (c : GaugeClock) (b : Nat) (selected held : Bool) : State :=
  let s := s.setRegBit oClkGauge b true
  if selected then s.clockLoss c held s.diesCarried else s

/-- The ports of a SerDes PLL go down and retrain: those of SerDes A (PLL 2) are Limfele ports, those of SerDes B the Etcen
and Ethernet port of dies 0 and 1. -/
def State.serdesDown (s : State) (d k : Nat) : State :=
  if k = 2 then
    (List.range 4).foldl (fun s i =>
      let p := 4 * d + i
      if s.limState p = portUp || s.limState p = portExcluded then (s.startLimfele p).leavePort p else s) s
  else if 2 ≤ d then s
  else
    let p := if d = 0 then EPort.a else EPort.b
    let s := if s.linkUp p then s.startTraining p else s
    if bit (s.reg (oEthStat d)) 3 then s.ethLink d false [] else s

/-- A PLL fault: the island reference and the HBM PLL reset the package, a SerDes PLL takes down its ports. -/
def State.pllFault (s : State) (d : Fin 8) (k : Fin 4) (held : Bool) : State :=
  if s.fuses.dies ≤ d.val then s
  else
    let s := (s.setRegBit (oClkPll d.val) (4 + k.val) true).setRegBit (oClkPll d.val) k.val (!held)
    if k.val < 2 then s.clockLoss (.pll d k) held (if k.val = 1 then [d.val] else []) else s.serdesDown d.val k.val

/-- The last island number. -/
def lastIsland : Nat := 73

/-- The power domain of an island, numbered as in `CLK_MUX_STAT_d`: cores, slice groups, crossbar segments, engines, HBM,
dovetail, Limfele. -/
def islandDomain (d n : Nat) : Domain :=
  if n < 48 then .core d n else if n < 64 then .sliceGroup d (n % 8) else if n ≤ 70 then .engines d
  else if n = 71 then .hbm d else if n = 72 then .dovetail d else .limfele d

/-- The island is clocked by its oscillator: its domain is on, its block enabled, and it is not in reset. That of a retired core
never is (R24). -/
def State.islandRuns (s : State) (d n : Nat) : Bool :=
  decide (d < s.fuses.dies ∧ n ≤ lastIsland) && s.domainOn (islandDomain d n) && s.islandEnabled d n &&
    (if n < 48 then s.coreRuns d n else !s.dieInReset d)

/-- The core or engine of an island, whose fault history counts a stopped oscillator (R426). -/
def islandUnit (d : Fin 8) (n : Nat) : Option UnitName :=
  if n < 48 then some ⟨d, 1, n⟩ else if 64 ≤ n ∧ n ≤ 70 then some ⟨d, 5, n - 64⟩ else none

/-- A fault of an island's oscillator fails the die's share; a stopped one hangs the multiplexer. -/
def State.islandFault (s : State) (d : Fin 8) (n : Nat) (stopped : Bool) : State :=
  let step := s.stepNow
  let s := s.failShare stTimeout
  if !stopped || s.hung.contains (d.val * 128 + n) then s
  else
    let s := ({ s with hung := s.hung ++ [d.val * 128 + n] }.bump (oMuxStat d.val) 15 8 1).refreshMux d.val
    match islandUnit d n with
    | none => s
    | some u => s.correctedEvent u step

/-- A gauge reports a fault: `stopped`, or out of range. `held` says that it goes on reporting; a report with `held` false
for a clock whose loss is held ends it. FIO has one bit for both faults (log entry 34). -/
def execGaugeFault (c : GaugeClock) (stopped held : Bool) (s : State) : Host.Outcome State Fault Refusal :=
  .next <|
    if s.dead then s
    else if s.rst.clockHold.contains c && !held then s.holdClock c false
    else match c with
      | .xa => s.crystalFault c (if stopped then 1 else 2) (!s.refXb) held
      | .xb => s.crystalFault c (if stopped then 3 else 4) s.refXb held
      | .fio => s.setRegBit oClkGauge 5 true
      | .pll d k => s.pllFault d k held
      | .island d n => if s.islandRuns d.val n then s.islandFault d n stopped else s

/-- The break of a hung multiplexer: the island's reset, which clears the hang; only the island that `CLK_MUX_STAT_d`
reports is broken. -/
def State.breakMux (s : State) (d : Fin 8) (island : Nat) : State :=
  if s.hung.find? (fun k => k / 128 = d.val) != some (d.val * 128 + island) then s
  else if h : island < 48 then s.assertCore d ⟨island, h⟩ 2 15
  else s.assertDie d 2 15

/-! ## Block enables (R421, R422) -/

/-- The images of a context that a step may run: those in its slots, and replaced ones that a plan names. -/
def State.liveJigs (s : State) (x : Ctx) : List (List Byte) :=
  x.jigs.map (·.2) ++ ((x.oldJigs.map (·.2)).filter fun bs => s.jigInUse x.job (jigDigest bs))

/-- The cores that an image uses on a die: its retirement mask, and its windows of core engines (DEDUCED, log entry 34). -/
def jigCore (bs : List Byte) (d n : Nat) : Bool :=
  (leNat (window (8 * d) 8 (jigSec bs 0))).testBit n ||
    (jigWindows bs).any fun w => [0, 1, 3].contains (wEngine w) && wDie w = d && wUnit w = n

/-- The ports of a die that a schedule names. -/
def jigPorts (bs : List Byte) (d : Nat) : List Nat :=
  (jigSchedule bs).flatMap fun e => (if e.1 = d then [seSrc e.2] else []) ++ (if seDstDie e.2 = d then [seDst e.2] else [])

/-- A bit of `CLK_EN_BLK_d` as a block that the ports and windows of an image use: slice groups 0 to 7, segments 8 to 15,
HBM 16, dovetail 17, Limfele 18, engines 19 to 25. The step sequencer slice of every die runs every jig (R26). -/
def jigBlock (bs : List Byte) (d b : Nat) : Bool :=
  let ps := jigPorts bs d
  let win (e : Nat) : Bool := (jigWindows bs).any fun w => wEngine w = e && wDie w = d
  let engine (seg : Nat) : Bool := ps.contains (32 * seg + 14)
  if b < 8 then ps.any fun p => p / 32 = b && 6 ≤ p % 32 && p % 32 ≤ 9
  else if b < 16 then (ps.any fun p => p / 32 = b - 8) || (List.range 6).any fun i => jigCore bs d (6 * (b - 8) + i)
  else if b = 16 then ps.any hbmPort
  else if b = 17 then (ps.any fun p => 18 ≤ p % 32 && p % 32 ≤ 23) || (jigSchedule bs).any fun e => e.1 = d && seDstDie e.2 != d
  else if b = 18 then ps.any fun p => p % 32 = 16 || p % 32 = 17
  else if b = 19 then win 4 || ps.any fun p => p % 32 = 12 || p % 32 = 13
  else if b = 20 then win 5 || engine 2
  else if b = 21 then win 2 || engine 3
  else if b = 22 then win 6 || engine 4
  else if b = 23 then win 7 || engine 5
  else if b = 24 then true
  else engine 6

/-- The blocks that an enable register names and that jigs or connected targets use: the bits that may not be cleared. -/
def State.usedEnables (s : State) (o : Nat) : Word :=
  if o = oClkEnPkg then (if (List.range 16).any s.connected then 7#32 else 0#32)
  else
    let d := (o - 0x50_0100) / 0x10
    let images := s.ctxs.flatMap fun e => s.liveJigs e.2
    let bits (n : Nat) (f : List Byte → Nat → Bool) : Word :=
      BitVec.ofNat 32 ((List.range n).foldl (fun m i => if images.any fun bs => f bs i then m + 2 ^ i else m) 0)
    if o = oClkEnBlk d then bits 26 fun bs i => jigBlock bs d i
    else if o = oClkEnCoreLo d then bits 32 fun bs i => jigCore bs d i
    else bits 16 fun bs i => jigCore bs d (32 + i)

/-- The enables of retired cores, which read 0. -/
def State.retiredEnables (s : State) (o : Nat) : Word :=
  let d := (o - 0x50_0100) / 0x10
  let bits (first n : Nat) : Word :=
    BitVec.ofNat 32 ((List.range n).foldl (fun m i => if s.coreRetired d (first + i) then m + 2 ^ i else m) 0)
  if o = oClkEnCoreLo d then bits 0 32 else if o = oClkEnCoreHi d then bits 32 16 else 0#32

/-- The write would clear the enable of a block in use. -/
def State.enableRefused (s : State) (o : Nat) (v : Word) : Bool := s.reg o &&& ~~~ v &&& s.usedEnables o != 0#32

/-- The value that a write leaves: the enable of a retired core stays 0. -/
def State.enableValue (s : State) (o : Nat) (v : Word) : Word := v &&& ~~~ s.retiredEnables o

end Sys2Proof.Machine
end

