-- ==== Sys2Proof/Machine/Registers.lean ====
section
/-! DEFINITION. The configuration window: what an access may reach, what a read returns, what a write does, and every
command that is a register access (R5 to R9, R60, R129, R183, R186, R288, R290, R310 to R313, R339, R347, R354, R360,
R361, R373, R417, R422, R423, R426, R429, R437 to R440, R447, R452, R455, R469 to R474). -/

namespace Sys2Proof.Machine

/-! ## Access (R290, R311, R423, R455, R469 to R471) -/

/-- The path reaches the window: an Etcen port while its link is up, the I3C path while the management domain answers. -/
def State.reaches (s : State) (p : Path) : Bool :=
  match pathPort p with | some e => s.linkUp e | none => s.mgmtOn

/-- The switched domains of the dies are off. -/
def State.coresOff (s : State) : Bool := s.pkg = .nap || s.pkg = .sleep || s.pkg = .off

/-- The Limfele port logic of a die is powered and clocked. -/
def State.limfeleRuns (s : State) (d : Nat) : Bool := s.domainOn (.limfele d) && bit (s.reg (oClkEnBlk d)) 18

/-- The block whose register this is has its clock off, or its die window does not answer (DEDUCED, log entry 29). -/
def State.gatedAt (s : State) (o : Nat) : Bool :=
  if 0x80_0000 ≤ o then
    let d := (o - 0x80_0000) / 0x10_0000
    s.dieInReset d || s.dieOut d || s.coresOff || s.recovery
  else if 0x30_0000 ≤ o && o < 0x40_0000 && !s.domainOn .ethernet then true
  else if o = oEthStat 0 then !bit (s.reg oClkEnPkg) 0
  else if o = oEthStat 1 then !bit (s.reg oClkEnPkg) 1
  else if 0x30_0000 ≤ o ∧ o < 0x40_0000 then !bit (s.reg oClkEnPkg) 2
  else if inRun o 0x10_0100 4 8 4 then !bit (s.reg (oClkEnBlk ((o - 0x10_0100) / 4))) 16
  else if inRun o 0x20_0100 4 32 4 then !s.limfeleRuns ((o - 0x20_0100) / 16)
  else if inRun o 0x20_0200 4 32 4 then !s.limfeleRuns ((o - 0x20_0200) / 16)
  else false

/-- The die window of a die that the member does not carry. -/
def State.absentWindow (s : State) (o : Nat) : Bool := 0x80_0000 ≤ o && decide (s.fuses.dies ≤ (o - 0x80_0000) / 0x10_0000)

/-- The status of a read. -/
def State.accessStatus (s : State) (o : Nat) : Nat :=
  if o % 4 != 0 || !inBlock o || s.absentWindow o then stDenied else if s.gatedAt o then stGated else stOk

/-- The blocks that may be written in recovery mode (R455): dowels, and security and boot. -/
def openInRecovery (o : Nat) : Bool := inSpan o 0xC_0000 0x1_0000 || inSpan o 0x60_0000 0x10_0000

/-- The path holds the dowel that guards the offset. -/
def State.guardOk (s : State) (p : Path) (o : Nat) : Bool :=
  match guardOf o with | none => true | some n => s.dowels.getD n 0 = ownerNo p

/-- The status of a write, but for what its register refuses. -/
def State.writeAccess (s : State) (p : Path) (o : Nat) : Nat :=
  if s.accessStatus o != stOk then s.accessStatus o
  else if !s.guardOk p o || (s.recovery && !openInRecovery o) || (o = oRstCmd && p != .i3c) then stDenied
  else stOk

/-! ## Reading -/

/-- The state of a core as its register shows it (R131). -/
def State.coreState (s : State) (d n : Nat) : Nat :=
  if s.coreRetired d n || s.coresOff then 0
  else if s.coreInReset d n then 3
  else
    let on := if n < 32 then bit (s.reg (oClkEnCoreLo d)) n else bit (s.reg (oClkEnCoreHi d)) (n - 32)
    if s.pkg = .idle || !on || s.resting.contains (d * 48 + n) then 1 else 2

/-- Cores of no retirement mask, over the dies carried. -/
def State.coresLeft (s : State) : Nat :=
  (s.diesCarried.map fun d => ((List.range 48).filter fun n => !s.coreRetired d n).length).foldl (· + ·) 0

/-- One bit a die. -/
def dieBits (ds : List Nat) : Nat := (ds.map fun d => 2 ^ d).foldl (· + ·) 0

/-- The identity and capability registers (R474). -/
def State.idWord (s : State) (o : Nat) : Nat :=
  let dies := s.fuses.dies
  if o = oPart then dies * 2 ^ 28 + 0xB1 * 2 ^ 16 + 0x100 * dies
  else if o = oSerialLo then s.fuses.serial % 2 ^ 32
  else if o = oSerialHi then s.fuses.serial / 2 ^ 32
  else if o = oIana then s.fuses.iana
  else if o = oLayout then 1
  else if o = oCapPorts then 2 * 2 ^ 12 + 2 * 2 ^ 10 + 4 * dies
  else if o = oCapDies then s.coresLeft * 2 ^ 16 + dieBits s.diesInService * 2 ^ 8 + dieBits s.diesCarried
  else 0

/-- A port's registers that show its pairs and its held records (R307, R313). -/
def pairStateNo : RingState → Nat
  | .off => 0
  | .running => 1
  | .draining => 2
  | .error => 3

def State.ringWord (s : State) (o : Nat) : Word :=
  let p := if o < 0x3_4000 then EPort.a else EPort.b
  let i := o % 0x4000 / 0x100
  let pr := s.pair p i
  if o % 0x100 = 0x28 then
    let n := (s.opens.filter fun d => d.port = p && d.pair = i && !d.orphan).length
    BitVec.ofNat 32 (min 0xFFFF n * 2 ^ 16 + pr.cause * 4 + pairStateNo pr.state)
  else if o % 0x100 = 0x2C then BitVec.ofNat 32 pr.sqHead
  else s.reg o

def ctxStateNo : CtxState → Nat
  | .free => 0
  | .active => 1
  | .faulted => 2
  | .destroying => 3

/-- The registers of a context number; 0 where no context carries it. -/
def State.ctxWord (s : State) (o : Nat) : Nat :=
  match s.ctx ((o - 0xD_0000) / 0x10) with
  | none => 0
  | some x =>
    match o % 0x10 with
    | 0x0 => ctxStateNo x.state * 2 ^ 30 + x.kind * 2 ^ 28 + x.priority * 2 ^ 26 + x.fault % 256 * 2 ^ 16 + x.job
    | 0x4 => x.range
    | 0x8 => x.step % 2 ^ 32
    | _ => x.step / 2 ^ 32

/-- `MEM_INFO_d`; a die that the member does not carry has no stack (log entry 29). -/
def State.memInfo (s : State) (d : Nat) : Nat :=
  if s.fuses.dies ≤ d then 0
  else (if s.stackOut d then 2 ^ 31 else framesPerDie * 2 ^ 8) + 32 * 4 + 1

def ownerOf (s : State) (n : Nat) : Nat := s.dowels.getD n 0

/-- A dowel as a path reads it. -/
def State.dowelWord (s : State) (p : Path) (n : Nat) : Nat :=
  (if s.broken.getD n false then 8 else 0) + (if ownerOf s n = ownerNo p then 4 else 0) + ownerOf s n

def State.brokenWord (s : State) : Nat :=
  (List.range 16).foldl (fun m n => if s.broken.getD n false then m + 2 ^ n else m) 0

/-- The value that a register shows: computed where the package holds it elsewhere, stored otherwise. -/
def State.readValue (s : State) (p : Path) (o : Nat) : Word :=
  let n (v : Nat) : Word := BitVec.ofNat 32 v
  if o < 0x1_0000 then n (s.idWord o)
  else if o = oQueue .a then setFld (s.reg o) 12 0 (min 4096 s.portA.held.length)
  else if o = oQueue .b then setFld (s.reg o) 12 0 (min 4096 s.portB.held.length)
  else if inSpan o 0x3_0000 0x8000 then s.ringWord o
  else if inSpan o 0xC_0000 0x40 then n (s.dowelWord p ((o - 0xC_0000) / 4))
  else if o = oBroken then n s.brokenWord
  else if inSpan o 0xD_0000 0x400 then n (s.ctxWord o)
  else if o = oScrub then setBit (s.reg o) 8 (s.diesCarried.any s.scrubs)
  else if inSpan o 0x10_0140 0x20 then n (s.memInfo ((o - 0x10_0140) / 4))
  else if o = oFabPart then setFld (s.reg o) 28 16 s.members.length
  else if o = oTimeLo then lo32 s.time
  else if o = oTimeHi then hi32 s.time
  else if o = oTimeStat then setBit (s.reg o) 2 s.isLead
  else if inSpan o 0x20_0400 0x2000 then
    let k := (o - 0x20_0400) / 4
    n (s.members.getD (2 * k + 1) 0xFFF * 2 ^ 16 + s.members.getD (2 * k) 0xFFF)
  else if o = oRetirePending then
    n (min 255 (s.retirePending [4]) * 2 ^ 24 + min 255 (s.retirePending [3]) * 2 ^ 16 + min 255 (s.retirePending [2, 5]) * 2 ^ 8 +
      min 255 (s.retirePending [1]))
  else if inSpan o 0x58_0200 0x80 && o % 0x10 = 0 then setBit (s.reg o) 30 (s.presHeld ((o - 0x58_0200) / 0x10))
  else if inSpan o oRetained 0x4000 then peek 0#32 s.retained o
  else if o = oSvn then setFld (s.reg o) 7 0 s.fuses.svn
  else if o = oSecFuse then
    n ((if s.fuses.ownerEn then 2 ^ 31 else 0) + (if s.fuses.jtagLock then 2 ^ 30 else 0) + s.fuses.revoked % 2 ^ 16)
  else if inSpan o (oOwnerHash 0) 0x20 then n (leNat (window (o - oOwnerHash 0) 4 s.fuses.ownerHash))
  else if 0x80_0000 ≤ o && inSpan (o % 0x10_0000) 0x2_0100 0xC0 then
    let d := (o - 0x80_0000) / 0x10_0000
    let c := (o % 0x10_0000 - 0x2_0100) / 4
    setFld (setBit (s.reg o) 2 (s.coreRetired d c)) 1 0 (s.coreState d c)
  else if (regInfo o).isNone then 0#32
  else s.reg o

/-- The place of a `_HI` shadow, or of a staged `_LO` value, of a path: one for each register pair (DESIGN CHOICE, log entry 29:
R6 and R7 give each path one and do not say whether the pairs share it). -/
def pathKey (p : Path) (o : Nat) : Nat := pathNo p * 2 ^ 24 + o

/-- The data of a read that is not performed. -/
def allOnes : Word := 0xFFFFFFFF#32

/-- A read: status, data, and the state with the shadow taken or made (R6), or with what a refused access leaves. -/
def State.windowRead (s : State) (p : Path) (o : Nat) : Nat × Word × State :=
  if s.accessStatus o != stOk then (s.accessStatus o, allOnes, s.logAccess p o (s.accessStatus o) false)
  else if s.retainedBad.contains o then (stDenied, allOnes, (s.cause 30).logAccess p o stDenied false)
  else match (loOf o).bind fun _ => assoc (pathKey p o) s.shadows with
    | some v => (stOk, v, { s with shadows := unlist (pathKey p o) s.shadows })
    | none =>
      (stOk, s.readValue p o,
        match hiOf o with
        | some hi => { s with shadows := enlist (pathKey p hi) (s.readValue p hi) s.shadows }
        | none => s)

/-! ## Writing -/

/-- The fields of a register table take a written value (R8, R9). -/
def State.plainWrite (s : State) (o : Nat) (v : Word) : State :=
  match regInfo o with
  | none => s
  | some i => s.setReg o ((s.reg o &&& ~~~ i.rw &&& ~~~ (i.w1c &&& v)) ||| (v &&& i.rw))

/-- `RING_CTL` (R313): ENABLE starts an off pair or drains one that runs or failed, and TQ_EN is set while the pair is off. -/
def State.writeRingCtl (s : State) (p : EPort) (i : Nat) (v : Word) : State :=
  let pr := s.pair p i
  let off := pr.state = .off
  let s := s.setReg (oRingCtl p i) (setBit (if off then v &&& 3#32 else s.reg (oRingCtl p i)) 0 (bit v 0))
  if bit v 0 then
    if !off then s
    else
      let base (k : Nat) : Bool := s.reg (oRing p i + 8 * k) &&& 0xFFF#32 = 0#32
      let size (k : Nat) : Bool := let l := fld (s.reg (oRingSize p i)) (8 * k + 4) (8 * k); decide (6 ≤ l ∧ l ≤ 16)
      if [0, 1, 2].all base && [0, 1, 2].all size then s.setPair p i { Pair.off with state := .running }
      else s.setPair p i { Pair.off with state := .error, cause := 2 }
  else if pr.state = .running || pr.state = .error then (s.setPair p i { pr with state := .draining }).settlePair p i
  else s

/-- A dowel register (R310, R312). -/
def State.writeDowel (s : State) (p : Path) (n : Nat) (v : Word) : State :=
  let ops := fld v 10 8
  if ops != 0 && ops != 1 && ops != 2 && ops != 4 then s
  else
    let s := if bit v 3 then { s with broken := s.broken.set n false } else s
    let o := ownerOf s n
    if ops = 1 && o = 0 then { s with dowels := s.dowels.set n (ownerNo p) }
    else if ops = 2 && o = ownerNo p then { s with dowels := s.dowels.set n 0 }
    else if ops = 4 && p = .i3c && o != 0 then { s with dowels := s.dowels.set n 0, broken := s.broken.set n true }
    else s

/-- `EP_LINK_CTL`: MAX_GEN 0 holds the link down, and RETRAIN starts training again (R288). -/
def State.writeLinkCtl (s : State) (p : EPort) (v : Word) : State :=
  let down := fld (s.reg (oLinkCtl p)) 1 0 = 0
  let s := s.plainWrite (oLinkCtl p) v
  if fld v 1 0 = 0 then s.setLink p 0
  else if bit v 31 || down then s.startTraining p else s

/-- Some context is resident on the die (R186). -/
def State.residentOn (s : State) (d : Nat) : Bool := s.ctxs.any fun e => (s.ctxFrames e.1 e.2).any fun k => k / 2 ^ 15 = d

/-- Four free frames of the lowest die in service that has them, for the strict hold area of a context number (R361). -/
def State.takeArea (s : State) (c : Nat) : Option State :=
  match s.diesInService.find? fun d => 4 ≤ s.freeCount d with
  | none => none
  | some d =>
    let r := (List.range 4).foldl (fun (r : State × List Nat) _ => match r.1.freeFrame d with
      | none => r
      | some k => (r.1.takeFrame k, r.2 ++ [k])) (s, [])
    some { r.1 with strictAreas := enlist c r.2 r.1.strictAreas }

/-- A write of `INT_STRICT` (R361): an area for each bit set anew, or nothing. The frames of a bit cleared go once its area
is empty: at the next commit, or now. -/
def State.writeStrict (s : State) (lo hi : Word) : Option State :=
  let on (c : Nat) : Bool := bit (if c < 32 then lo else hi) (c % 32)
  let fresh := (List.range 64).filter fun c => on c && !s.strictOn c && (assoc c s.strictAreas).isNone
  match fresh.foldl (fun (r : Option State) c => r.bind fun s => s.takeArea c) (some s) with
  | none => none
  | some t => some ((t.setReg oStrictLo lo).setReg oStrictHi hi).freeAreas

/-- The units that `RST_CMD` names: none where LEVEL is reserved or the unit does not exist. -/
def State.cmdLevel (s : State) (v : Word) : Option RstLevel :=
  let d : Fin 8 := Fin.ofNat 8 (fld v 26 24)
  let u := fld v 23 16
  if fld v 29 27 = 1 then some .warm
  else if fld v 29 27 = 2 then (if d.val < s.fuses.dies then some (.die d) else none)
  else if fld v 29 27 = 3 then (if d.val < s.fuses.dies ∧ u < 48 then some (.core d (Fin.ofNat 48 u)) else none)
  else if fld v 29 27 = 4 then (if u < 48 ∧ s.isPort u then some (.port (Fin.ofNat 48 u)) else none)
  else none

/-- `RST_CMD` (R429): a write with GO asserts the named reset, and one without GO or HOLD ends the hold. -/
def State.writeRstCmd (s : State) (v : Word) : State :=
  let hold := bit v 30
  if !bit v 31 then
    let s := s.plainWrite oRstCmd v
    if hold then s else { s with rst := { s.rst with cmdHold := none } }
  else match s.cmdLevel v with
    | none => s
    | some .warm => (s.plainWrite oRstCmd v).assertWarm 2
    | some l =>
      let s := (s.plainWrite oRstCmd v).holdIf l hold
      match l with
      | .die d => s.assertDie d 0 2
      | .core d c => s.assertCore d c 0 2
      | .port u => s.assertPort u 2
      | _ => s

/-- `SEC_OWNER_FUSE` (R452): fused once, from the I3C path, while the running image carries the staged owner. -/
def State.writeOwnerFuse (s : State) (p : Path) (v : Word) : Option State :=
  if p != .i3c || fld v 15 0 != 0x4F57 then some s
  else
    let staged := bytesOf ((List.range 8).map fun k => s.reg (oOwnerStage k))
    if s.fuses.ownerEn || s.recovery || !s.boot.ownerOk || sm3 s.boot.ownerKey != staged then none
    else some { s with fuses := { s.fuses with ownerHash := staged, ownerEn := true } }

/-- `FAB_CTL` (R316, R339): ports train once enabled and go down when disabled (DEDUCED, log entry 29), and every cable is
compared under the enforcement in force. -/
def State.writeFabCtl (s : State) (v : Word) : State :=
  let s := s.plainWrite oFabCtl v
  if bit v 0 then s.trainPorts.compareCables
  else ((List.range 32).foldl (fun s p => s.stopPort p) s).compareCables

/-- `ETH_SETUP_CMD` (R347): the record is read from host memory and applied; a failed read applies nothing (log entry 22). -/
def State.writeEthCmd (s : State) (v : Word) (h : HostView) : State :=
  if !bit v 0 then s
  else match hostWords h (s.reg64 oEthLo) 512 with
    | none => s
    | some r => s.applySetup r

/-- A register pair takes its 64-bit value at once (R7). -/
def State.pairWrite (s : State) (o : Nat) (lo hi : Word) : Option State :=
  let plain (s : State) : State := (s.plainWrite o lo).plainWrite (o + 4) hi
  if inSpan o 0x3_0000 0x8000 then
    some (if (s.pair (if o < 0x3_4000 then .a else .b) (o % 0x4000 / 0x100)).state = .off then plain s else s)
  else if o = oDbLo .a || o = oDbLo .b then some (if bit (s.reg (o + 8)) 0 then s else plain s)
  else if o = oStrictLo then s.writeStrict lo hi
  else if isEnable o then
    if s.enableRefused o lo || s.enableRefused (o + 4) hi then none
    else some ((s.plainWrite o (s.enableValue o lo)).plainWrite (o + 4) (s.enableValue (o + 4) hi))
  else some (plain s)

/-- A spread profile with DEPTH and RATE at the nearer bound (R417). -/
def clampSsc (v : Word) : Word := setFld (setFld v 4 0 (min 20 (fld v 4 0))) 20 13 (min 200 (max 20 (fld v 20 13)))

/-- A register of its own takes a value; none when its chapter refuses the write. A pair whose IRQ_EN is written to 0 keeps no count
from then on (R309). -/
def State.wordWrite (s : State) (p : Path) (o : Nat) (v : Word) (h : HostView) : Option State :=
  if o = oLinkCtl .a then some (s.writeLinkCtl .a v)
  else if o = oLinkCtl .b then some (s.writeLinkCtl .b v)
  else if inSpan o 0x3_0000 0x8000 && o % 0x100 = 0x18 then
    some (if (s.pair (if o < 0x3_4000 then .a else .b) (o % 0x4000 / 0x100)).state = .off then s.plainWrite o v else s)
  else if inSpan o 0x3_0000 0x8000 && o % 0x100 = 0x1C then
    some (s.writeRingCtl (if o < 0x3_4000 then .a else .b) (o % 0x4000 / 0x100) v)
  else if inSpan o 0x3_0000 0x8000 && o % 0x100 = 0x24 then
    let port : EPort := if o < 0x3_4000 then .a else .b
    let i := o % 0x4000 / 0x100
    let s := s.plainWrite o v
    some (if bit v 31 then s else s.setPair port i { s.pair port i with irqCount := 0, irqOldest := none })
  else if inSpan o 0xC_0000 0x40 then some (s.writeDowel p ((o - 0xC_0000) / 4) v)
  else if o = oBroken then
    some { s with broken := (List.range 16).map fun n => s.broken.getD n false && !bit v n }
  else if o = oInject then
    if bit v 31 && s.residentOn (fld v 10 8) then none
    else some ((s.plainWrite o v).setRegBit o 31 (bit v 31 || bit (s.reg o) 31))
  else if inRun o 0x10_0200 0x20 3 0x18 && (o - 0x10_0200) % 0x20 = 0xC then
    some (if bit v 0 then s.placeGo (if o = oPlace .epA + 0xC then .epA else if o = oPlace .epB + 0xC then .epB else .i3c) else s)
  else if o = oFabNode then some (if bit (s.reg oFabCtl) 0 then s else s.plainWrite o v)
  else if o = oFabCtl then some (s.writeFabCtl v)
  else if inSpan o (oCable 0) 0x80 then
    let w := v &&& 0x80FFFFFF#32
    some (((s.setReg o w).storeCable ((o - oCable 0) / 4) w).compareCables)
  else if o = oEthCmd then some (s.writeEthCmd v h)
  else if o = oIntCtl then
    let s := s.plainWrite o (setFld v 10 0 (min 1024 (max 8 (fld v 10 0))))
    some (if s.idle then { s with period := fld (s.reg oIntCtl) 10 0 } else s)
  else if o = oIntStat then some (if bit v 31 && s.isLead then s.leaveDegraded else s)
  else if o = oClkSsc then
    let s := s.plainWrite o (clampSsc v)
    some (if s.attempt.isNone then s.takeSsc else s)
  else if isEnable o then
    if s.enableRefused o v then none else some (s.plainWrite o (s.enableValue o v))
  else if inSpan o (oMuxStat 0) 0x40 && o % 8 = 4 then
    some (if bit v 31 then s.breakMux (Fin.ofNat 8 ((o - oMuxStat 0) / 8)) (fld v 6 0) else s)
  else if o = oRstCause then some (s.plainWrite o v).refreshAlert
  else if o = oRstCmd then some (s.writeRstCmd v)
  else if inSpan o 0x58_0200 0x80 then
    let k := (o - 0x58_0200) / 0x10
    if o % 0x10 = 0 then
      let s := s.plainWrite o v
      some (if bit v 31 then s else s.freeRegion k)
    else some (if s.presHeld k then s else s.plainWrite o v)
  else if inSpan o oRetained 0x4000 then
    some { s with retained := poke 0#32 s.retained o v, retainedBad := s.retainedBad.filter (· != o) }
  else if o = oOwnerFuse then s.writeOwnerFuse p v
  else if inSpan o 0x70_0000 0x4000 && o % 0x100 = 0 then
    some ((s.plainWrite o v).setRegBit o 2 (bit v 0 || bit (s.reg o) 2))
  else if 0x80_0000 ≤ o && o % 0x10_0000 = 0x2_0000 then
    some (s.plainWrite o (setFld v 23 0 (max 0x1000 (fld v 23 0))))
  else if 0x80_0000 ≤ o && o % 0x10_0000 = 0x2_0008 then some (if bit v 31 then s.setRegFld o 23 0 0 else s)
  else some (s.plainWrite o v)

/-- A write that passes the access rules: staged, or applied, or refused by its register. A `_LO` write is staged also while writes of
its pair are ignored (a ring pair that is not off, or POLL_EN = 1), and then takes effect with a later `_HI` write that is not: R7 does
not say whether an ignored `_LO` write is held (DESIGN CHOICE, log entry 8). -/
def State.applyWrite (s : State) (p : Path) (o : Nat) (v : Word) (h : HostView) : Option State :=
  if (hiOf o).isSome then some { s with staged := enlist (pathKey p o) v s.staged }
  else match loOf o with
    | some lo =>
      { s with staged := unlist (pathKey p lo) s.staged }.pairWrite lo ((assoc (pathKey p lo) s.staged).getD (s.reg lo)) v
    | none => s.wordWrite p o v h

/-- A write from a path, with its status; `h` is host memory, which `ETH_SETUP_CMD` reads. -/
def State.windowWrite (s : State) (p : Path) (o : Nat) (v : Word) (h : HostView) : State :=
  if !s.reaches p then s
  else if s.writeAccess p o != stOk then
    (s.logAccess p o (s.writeAccess p o) true).emit (.writeStatus p (s.writeAccess p o))
  else match s.applyWrite p o v h with
    | none => (s.logAccess p o stDenied true).emit (.writeStatus p stDenied)
    | some t => t.emit (.writeStatus p stOk)

/-- No host memory is read. -/
def noHost : HostView := ⟨[], [], 0⟩

/-! ## Commands that are register accesses -/

def State.readAndAnswer (s : State) (p : Path) (o : Nat) : State :=
  if !s.reaches p then s
  else
    let r := s.windowRead p o
    r.2.2.emit (.readData p r.1 r.2.1)

def execRegisterRead (p : Path) (offset : Nat) (s : State) : Host.Outcome State Fault Refusal :=
  .next (s.readAndAnswer p offset)

/-- A read of a `_LO` register, which captures its `_HI` value (R6). -/
def execLoRead (p : Path) (offset : Nat) (s : State) : Host.Outcome State Fault Refusal :=
  .next (s.readAndAnswer p offset)

def execLoWrite (p : Path) (offset : Nat) (value : Word) (s : State) : Host.Outcome State Fault Refusal :=
  .next (s.windowWrite p offset value noHost)

def execHiWrite (p : Path) (offset : Nat) (value : Word) (s : State) : Host.Outcome State Fault Refusal :=
  .next (s.windowWrite p offset value noHost)

def execRegisterWrite (p : Path) (offset : Nat) (value : Word) (h : HostView) (s : State) : Host.Outcome State Fault Refusal :=
  .next (s.windowWrite p offset value h)

/-- A placement command: its three registers with OP, then GO. -/
def State.placeCommand (s : State) (p : Path) (op : Nat) (target first count : Word) : State :=
  (((s.windowWrite p (oPlace p) (setFld target 15 14 op) noHost).windowWrite p (oPlace p + 4) first noHost).windowWrite p
    (oPlace p + 8) count noHost).windowWrite p (oPlace p + 0xC) 1#32 noHost

def execMemPlaceMove (p : Path) (target first count : Word) (s : State) : Host.Outcome State Fault Refusal :=
  .next (s.placeCommand p 0 target first count)

def execMemPlaceMakeReadOnly (p : Path) (target first count : Word) (s : State) : Host.Outcome State Fault Refusal :=
  .next (s.placeCommand p 1 target first count)

def execMemPlaceMakeWritable (p : Path) (target first count : Word) (s : State) : Host.Outcome State Fault Refusal :=
  .next (s.placeCommand p 2 target first count)

/-- The copy of a page of the path's move ends (R184). -/
def execMigrationCopyDone (p : Path) (s : State) : Host.Outcome State Fault Refusal :=
  .next <| match s.places.head? with
  | some q => if q.path = p && q.copying.isSome then s.copyEnds q else s
  | none => s

def execEthSetupCmd (p : Path) (h : HostView) (s : State) : Host.Outcome State Fault Refusal :=
  .next (s.windowWrite p oEthCmd 1#32 h)

/-- `RST_CMD` with GO. -/
def rstWord (level die unit : Nat) (hold : Bool) : Word :=
  BitVec.ofNat 32 (2 ^ 31 + (if hold then 2 ^ 30 else 0) + level * 2 ^ 27 + die * 2 ^ 24 + unit * 2 ^ 16)

def execRstCmdPackageWarm (p : Path) (s : State) : Host.Outcome State Fault Refusal :=
  .next (s.windowWrite p oRstCmd (rstWord 1 0 0 false) noHost)

def execRstCmdDie (p : Path) (die : Fin 8) (hold : Bool) (s : State) : Host.Outcome State Fault Refusal :=
  .next (s.windowWrite p oRstCmd (rstWord 2 die.val 0 hold) noHost)

def execRstCmdCore (p : Path) (die : Fin 8) (core : Fin 48) (hold : Bool) (s : State) : Host.Outcome State Fault Refusal :=
  .next (s.windowWrite p oRstCmd (rstWord 3 die.val core.val hold) noHost)

def execRstCmdPort (p : Path) (unit : Fin 48) (hold : Bool) (s : State) : Host.Outcome State Fault Refusal :=
  .next (s.windowWrite p oRstCmd (rstWord 4 0 unit.val hold) noHost)

/-- `RST_CMD` with neither GO nor HOLD. -/
def execRstCmdReleaseHold (p : Path) (s : State) : Host.Outcome State Fault Refusal :=
  .next (s.windowWrite p oRstCmd 0#32 noHost)

/-- A clear is asked for, with FREEZE as it stands (R60). -/
def execQstatClear (p : Path) (ctx : Fin 64) (s : State) : Host.Outcome State Fault Refusal :=
  .next (s.windowWrite p (oQstat ctx.val) (s.reg (oQstat ctx.val) &&& 2#32 ||| 1#32) noHost)

def execQstatFreeze (p : Path) (ctx : Fin 64) (on : Bool) (s : State) : Host.Outcome State Fault Refusal :=
  .next (s.windowWrite p (oQstat ctx.val) (if on then 2#32 else 0#32) noHost)

def execResume (p : Path) (s : State) : Host.Outcome State Fault Refusal :=
  .next (s.windowWrite p oIntStat 0x80000000#32 noHost)

/-- RETRAIN, with the other fields as they stand. -/
def execRetrain (p : Path) (port : EPort) (s : State) : Host.Outcome State Fault Refusal :=
  .next (s.windowWrite p (oLinkCtl port) (s.reg (oLinkCtl port) &&& 7#32 ||| 0x80000000#32) noHost)

def execXbarStallMaxClear (p : Path) (die : Fin 8) (s : State) : Host.Outcome State Fault Refusal :=
  .next (s.windowWrite p (oStallMax die.val) 0x80000000#32 noHost)

def execMemInjectArm (p : Path) (value : Word) (s : State) : Host.Outcome State Fault Refusal :=
  .next (s.windowWrite p oInject (setBit value 31 true) noHost)

def execAcquire (p : Path) (n : Fin 16) (s : State) : Host.Outcome State Fault Refusal :=
  .next (s.windowWrite p (oDowel n.val) 0x100#32 noHost)

def execRelease (p : Path) (n : Fin 16) (s : State) : Host.Outcome State Fault Refusal :=
  .next (s.windowWrite p (oDowel n.val) 0x200#32 noHost)

/-- BREAK acts from the I3C path only (R312). -/
def execBreakDowel (n : Fin 16) (s : State) : Host.Outcome State Fault Refusal :=
  .next (s.windowWrite .i3c (oDowel n.val) 0x400#32 noHost)

def execRingEnable (p : Path) (port : EPort) (pair : Fin 64) (tqEn : Bool) (s : State) : Host.Outcome State Fault Refusal :=
  .next (s.windowWrite p (oRingCtl port pair.val) (if tqEn then 3#32 else 1#32) noHost)

def execRingDisable (p : Path) (port : EPort) (pair : Fin 64) (s : State) : Host.Outcome State Fault Refusal :=
  .next (s.windowWrite p (oRingCtl port pair.val) (s.reg (oRingCtl port pair.val) &&& 2#32) noHost)

def execIntStrictWrite (p : Path) (lo hi : Word) (s : State) : Host.Outcome State Fault Refusal :=
  .next ((s.windowWrite p oStrictLo lo noHost).windowWrite p oStrictHi hi noHost)

def execClkSscWrite (p : Path) (value : Word) (s : State) : Host.Outcome State Fault Refusal :=
  .next (s.windowWrite p oClkSsc value noHost)

def execClkEnWrite (p : Path) (offset : Nat) (value : Word) (s : State) : Host.Outcome State Fault Refusal :=
  .next (s.windowWrite p offset value noHost)

def execClkMuxBreak (p : Path) (die : Fin 8) (island : Fin 128) (s : State) : Host.Outcome State Fault Refusal :=
  .next (s.windowWrite p (oMuxBreak die.val) (BitVec.ofNat 32 (2 ^ 31 + island.val)) noHost)

def execFabCableWrite (p : Path) (port : Fin 32) (value : Word) (s : State) : Host.Outcome State Fault Refusal :=
  .next (s.windowWrite p (oCable port.val) value noHost)

def execSecOwnerFuse (p : Path) (value : Word) (s : State) : Host.Outcome State Fault Refusal :=
  .next (s.windowWrite p oOwnerFuse value noHost)

/-- VALID is cleared, with the job tag as it stands. -/
def execRstPresValidClear (p : Path) (k : Fin 8) (s : State) : Host.Outcome State Fault Refusal :=
  .next (s.windowWrite p (oPres k.val) (setBit (s.reg (oPres k.val)) 31 false) noHost)

end Sys2Proof.Machine
end

