-- ==== Sys2Proof/Machine/Power.lean ====
section
/-! DEFINITION. Power, droop and heat: the input, the clamp's measurements, droop, thermal actions, the coolant, ejection and
the package states (R374, R390, R393, R394, R397 to R410). -/

namespace Sys2Proof.Machine

/-- The last committed step, which events and DEPART name. -/
def State.lastCommit (s : State) : Nat := s.reg64 oSigStepLo

/-- The package is powered and not off. -/
def State.alive (s : State) : Bool := !s.dead

/-! ## Sensors of R466 that a measurement feeds -/

/-- A value falls below one of the thresholds, or rises above it. -/
def crosses (ts : List Nat) (old new : Nat) : Bool := ts.any fun t => decide (old < t) != decide (new < t)

/-- V_in in units of 10 mV, with the event of a threshold that it crosses. -/
def State.setVolts (s : State) (v : Nat) : State :=
  let old := fld (s.mreg mIn) 15 0
  let s := s.setMregFld mIn 15 0 v
  if crosses [3600, 3800, 4200] old v then s.pldmEvent 1 v else s

/-- The hottest sensor of a die, with the event of a threshold that it crosses. -/
def State.setHot (s : State) (d v : Nat) : State :=
  let old := fld (s.mreg (mTherm d)) 7 0
  let s := (s.setMregFld (mTherm d) 7 0 v).setMregFld (mTherm d) 15 8 (max v (fld (s.mreg (mTherm d)) 15 8))
  if crosses [100, 110, 115] old v then s.pldmEvent (16 + d) v else s

/-! ## The input (R390) -/

/-- V_in is below 42 V. -/
def execLowInput (centivolts : Nat) (s : State) : Host.Outcome State Fault Refusal :=
  .next <|
    if s.dead || 4200 ≤ centivolts then s
    else ((s.setVolts centivolts).modPower fun p => { p with vinLow := true }).recap

def execLowInputRelease (s : State) : Host.Outcome State Fault Refusal :=
  .next (if s.dead then s else (s.modPower fun p => { p with vinLow := false }).recap)

/-- DEPART with cause 1; the package rejoins only after a cold reset. -/
def execInputFailing (s : State) : Host.Outcome State Fault Refusal :=
  .next (if s.dead then s else (s.modPower fun p => { p with vinFailing := true }).departNow 1 s.lastCommit)

/-! ## The clamp (R399 to R405) -/

/-- One measurement: the group clocks follow the effective cap. With `millisecond` the measure is the 1 ms average, which
`PWR_IN` shows and whose excess at the floor counts. -/
def execClampTick (power : Nat) (millisecond : Bool) (s : State) : Host.Outcome State Fault Refusal :=
  .next <|
    if s.dead then s
    else
      let above := decide (10 * s.effCap < power)
      let s :=
        if !millisecond then s
        else
          let s := s.setMregFld mIn 31 16 power
          if above && s.atFloor && !s.power.hard && !s.power.phaseLearned then s.mbump mStat 31 24 1 else s
      if s.power.hard || s.power.clocks.all (· = 0) then s
      else if s.power.phaseLearned then s.learnClocks above
      else if above then s.lowerGroups else s.raiseGroups

/-- An accepted cap comes into force 100 ms after the write (R403), unless a condition holds it back. -/
def execCapEffectTimeout (s : State) : Host.Outcome State Fault Refusal := .next s.takeCap

/-- The heartbeat timeout passes without a kick (R410). -/
def execHeartbeatExpired (s : State) : Host.Outcome State Fault Refusal :=
  .next <|
    if fld (s.mreg mSafe) 23 16 = 0 || s.dead then s
    else (s.modPower fun p => { p with hbExpired := true }).recap

/-- `PWR_HB.KICK`. -/
def State.kick (s : State) : State := (s.modPower fun p => { p with hbExpired := false }).recap

/-! ## Droop (R397, R398) -/

def execDroopStretch (die : Fin 8) (s : State) : Host.Outcome State Fault Refusal :=
  .next (if s.dead || s.fuses.dies ≤ die.val then s else s.mbump (mDroop die.val) 23 0 1)

/-- The clock of an island: its group's, or what droop left. -/
def State.islandMhz (s : State) (key : Nat) : Nat :=
  match assoc key s.power.lowered with | some f => f | none => s.groupMhz (groupOf (key % 128))

/-- The next table frequency below: the table runs in steps of 0.1 GHz. -/
def lowerPoint (f : Nat) : Nat := (f - 1) / 100 * 100

/-- The supply is still low: the island drops to the next table frequency, or at the floor stretches again. -/
def execDroopPersist (die : Fin 8) (island : Nat) (s : State) : Host.Outcome State Fault Refusal :=
  .next <|
    let d := die.val
    if !s.islandRuns d island then s
    else
      let f := s.islandMhz (d * 128 + island)
      if s.lowMhz ≤ lowerPoint f then
        (s.modPower fun p => { p with lowered := enlist (d * 128 + island) (lowerPoint f) p.lowered }).mbump (mDroop d) 31 24 1
      else s.mbump (mDroop d) 23 0 1

/-! ## Heat (R406, R407) -/

/-- T_j reaches 100 °C: the thermal limit falls to `limit` W. -/
def execThrottle (limit : Nat) (s : State) : Host.Outcome State Fault Refusal :=
  .next <|
    if s.dead then s
    else (s.modPower fun p => { p with
      thermal := some (match p.thermal with | some t => min t limit | none => min limit (10 * maxCap s.fuses.dies)) }).recap

/-- The limit rises by 50 W; at the highest cap it limits nothing more. -/
def execThrottleReleaseTick (s : State) : Host.Outcome State Fault Refusal :=
  .next <| match s.power.thermal with
  | none => s
  | some t =>
    if s.dead then s
    else (s.modPower fun p => { p with
      thermal := if t + 50 < 10 * maxCap s.fuses.dies then some (t + 50) else none }).recap

/-- Every clamp-controlled island goes to 0.8 GHz. -/
def execHardThrottle (s : State) : Host.Outcome State Fault Refusal :=
  .next <|
    if s.dead then s
    else (s.modPower fun p => { p with
      hard := true, lowered := [], clocks := p.clocks.map fun f => if f = 0 then 0 else 800 }).refreshPower

def execHardThrottleRelease (s : State) : Host.Outcome State Fault Refusal :=
  .next (if s.dead then s else (s.modPower fun p => { p with hard := false }).refreshPower)

/-- The package is off until a cold reset. -/
def State.powerOff (s : State) : State := { s.coldState with pkg := .off }

/-- T_j reaches 115 °C: `THERMTRIP_N`, DEPART with cause 2, and off. -/
def execTrip (s : State) : Host.Outcome State Fault Refusal :=
  .next (if s.dead then s else ((s.departNow 2 s.lastCommit).setRegBit oPinOut 2 true).powerOff)

/-! ## The coolant (R409) -/

def execLeak (s : State) : Host.Outcome State Fault Refusal :=
  .next (if s.dead then s else (s.modPower fun p => { p with leak := true }).recap)

def execCoolFail (s : State) : Host.Outcome State Fault Refusal :=
  .next (if s.dead then s else (s.modPower fun p => { p with cool := true }).recap)

/-- One second after the release of `LEAK_N` (`leakSide`) or of `COOL_FAIL_N`. -/
def execCoolantConditionEnd (leakSide : Bool) (s : State) : Host.Outcome State Fault Refusal :=
  .next <|
    if s.dead then s
    else (s.modPower fun p => if leakSide then { p with leak := false } else { p with cool := false }).recap

/-! ## Draining and package states (R374, R393, R394) -/

/-- `EJECT_N`: draining, and an event on both ports. -/
def execEject (s : State) : Host.Outcome State Fault Refusal :=
  .next <|
    if s.dead || s.departed then s
    else (s.setRegFld oIntStat 1 0 2).event stDrain none s.node 0 s.lastCommit

/-- The cores, engines and slice groups go off, and lose what their SRAM held (R392). The registers of the die window whose Kept
column has a dash (`XBAR_STALL_LIMIT`, `XBAR_STALL_MAX`, `SRAM_ERR`) stay as they are: a dash speaks of resets, and R442 names no
class for them (DESIGN CHOICE, log entry 35). -/
def State.domainsOff (s : State) : State := s.diesCarried.foldl State.dropSram s

/-- NAP is entered. -/
def State.enterNap (s : State) : State := { s.domainsOff with pkg := .nap }

/-- SLEEP is entered: DEPART with cause 0, and the fabric and Ethernet ports go down. -/
def State.enterSleep (s : State) : State :=
  let s := if s.node != 0xFFF && !s.members.isEmpty then s.departNow 0 s.lastCommit else s
  let s := (List.range 32).foldl (fun s p => s.stopPort p) s
  { ((s.stopEthernet 0).stopEthernet 1).domainsOff with pkg := .sleep }

/-- The package is IDLE; a low-power command that was held takes effect, SLEEP only without contexts (log entry 35). -/
def State.enterIdle (s : State) : State :=
  let w := s.power.waitState
  let s := { s.modPower (fun p => { p with waitState := none }) with pkg := .idle }
  match w with
  | some .nap => s.enterNap
  | some .sleep => if s.ctxs.isEmpty then s.enterSleep else s
  | _ => s

/-- 1 ms after the last commit with no plan published. -/
def execIdleEntry (s : State) : Host.Outcome State Fault Refusal :=
  .next (if !s.dead && s.pkg = .on && s.idle then s.enterIdle else s)

/-- A management command returns the package from NAP or SLEEP. -/
def State.returnToIdle (s : State) : State :=
  match s.pkg with
  | .nap => { s with pkg := .idle }
  | .sleep =>
    let s := { s with pkg := .idle }.trainPorts
    [0, 1].foldl State.startEthernet s
  | _ => s

end Sys2Proof.Machine
end

