-- ==== Sys2Proof/Machine/Manage.lean ====
section
/-! DEFINITION. The management interface: vendor-defined commands, the power registers, effecters, sensors and events (R394,
R402, R403, R406, R410, R463 to R468, R473). -/

namespace Sys2Proof.Machine

/-- The answer to a management command, with the state it leaves. -/
def State.answer (s : State) (status : Nat) (words : List Word) : State := s.emit (.mgmt status words)

/-- A command over the management interface: nothing answers while the management domain does not run. -/
def State.managed (s : State) (f : State → State) : State := if s.mgmtOn then f s else s

/-! ## The window and the management space (R463, R473) -/

/-- Words in ascending order, up to the first whose status is not `OK`: that status, the words before it, the state. -/
def readWords (o : Nat) : Nat → State → Nat × List Word × State
  | 0, s => (stOk, [], s)
  | n + 1, s =>
    let r := s.windowRead .i3c o
    if r.1 != stOk then (r.1, [], r.2.2)
    else
      let t := readWords (o + 4) n r.2.2
      (t.1, r.2.1 :: t.2.1, t.2.2)

def execWindowRead (offset count : Nat) (s : State) : Host.Outcome State Fault Refusal :=
  .next <| s.managed fun s =>
    let r := readWords offset (min 16 count) s
    r.2.2.answer r.1 r.2.1

def execWindowWrite (offset : Nat) (value : Word) (h : HostView) (s : State) : Host.Outcome State Fault Refusal :=
  .next (s.windowWrite .i3c offset value h)

/-- A register of the management space; none where no table lists one. -/
def State.mgmtGet (s : State) (o : Nat) : Option Word := (mReset s.fuses.dies o).map fun _ => s.mreg o

/-- A write of a register of the management space: none where it is refused. -/
def State.mgmtPut (s : State) (o : Nat) (v : Word) : Option State :=
  match mReset s.fuses.dies o with
  | none => none
  | some _ =>
    if o = mCap then s.writeCap v
    else if o = mSafe then s.writeSafe v
    else if o = mHb then some (if bit v 0 then s.kick else s)
    else if 0x080 ≤ o then
      some (if bit v 31 then s.setMregFld o 15 8 (fld (s.mreg o) 7 0) else s)
    else some s

/-- A write over the management interface, with its answer. -/
def State.mgmtWrite (s : State) (o : Nat) (v : Word) : State :=
  s.managed fun s => match s.mgmtPut o v with
    | none => s.answer stDenied []
    | some t => t.answer stOk []

def execMgmtRead (offset : Nat) (s : State) : Host.Outcome State Fault Refusal :=
  .next <| s.managed fun s => match s.mgmtGet offset with
    | none => s.answer stDenied []
    | some v => s.answer stOk [v]

def execMgmtWrite (offset : Nat) (value : Word) (s : State) : Host.Outcome State Fault Refusal :=
  .next (s.mgmtWrite offset value)

def execPwrCapWrite (value : Word) (s : State) : Host.Outcome State Fault Refusal := .next (s.mgmtWrite mCap value)

def execPwrSafeWrite (value : Word) (s : State) : Host.Outcome State Fault Refusal := .next (s.mgmtWrite mSafe value)

def execKick (s : State) : Host.Outcome State Fault Refusal := .next (s.mgmtWrite mHb 1#32)

def execThermClear (die : Fin 8) (s : State) : Host.Outcome State Fault Refusal :=
  .next (s.mgmtWrite (mTherm die.val) 0x80000000#32)

/-! ## Members and faults (R464, R465) -/

/-- The list is in strictly ascending order of node numbers, holds this package's, and is not too long. -/
def State.memberListOk (s : State) (nodes : List Nat) : Bool :=
  decide (nodes.Pairwise fun a b => a < b) && nodes.contains s.node && nodes.length ≤ 4096

/-- The new list: no member of it is lost, and the package is back in the partition unless its input failed (R390). -/
def State.setMembers (s : State) (partition : Nat) (nodes : List Nat) : State :=
  let s := { s.setRegFld oFabPart 5 0 partition with
    members := nodes, lostNodes := [], lead := .empty, departed := s.power.vinFailing }
  if s.power.vinFailing then s else s.setRegFld oIntStat 1 0 0

def execMemberSet (partition : Nat) (nodes : List Nat) (s : State) : Host.Outcome State Fault Refusal :=
  .next <| s.managed fun s =>
    if !s.ctxs.isEmpty || !s.memberListOk nodes then s.answer stDenied [] else (s.setMembers partition nodes).answer stOk []

/-- Every entry of the fault history goes but the classings. -/
def execFaultClear (s : State) : Host.Outcome State Fault Refusal :=
  .next <| s.managed fun s =>
    { s with flash := { s.flash with history := s.flash.history.filter fun e => e.event = 6 } }.answer stOk []

/-! ## Low-power states (R393, R394) -/

def execStateSetIdle (s : State) : Host.Outcome State Fault Refusal :=
  .next <| s.managed fun s => ((s.modPower fun p => { p with waitState := none }).returnToIdle).answer stOk []

/-- NAP from IDLE, held while the package is ON; from SLEEP no rule leads to it (log entry 35). -/
def execStateSetNap (s : State) : Host.Outcome State Fault Refusal :=
  .next <| s.managed fun s => match s.pkg with
    | .on => (s.modPower fun p => { p with waitState := some .nap }).answer stOk []
    | .idle => s.enterNap.answer stOk []
    | .nap => s.answer stOk []
    | _ => s.answer stDenied []

/-- SLEEP from IDLE or NAP, with no context on the package. -/
def execStateSetSleep (s : State) : Host.Outcome State Fault Refusal :=
  .next <| s.managed fun s =>
    if !s.ctxs.isEmpty then s.answer stDenied []
    else match s.pkg with
      | .on => (s.modPower fun p => { p with waitState := some .sleep }).answer stOk []
      | .idle | .nap => s.enterSleep.answer stOk []
      | _ => s.answer stOk []

def execStateSetOff (s : State) : Host.Outcome State Fault Refusal :=
  .next (s.managed fun s => (s.answer stOk []).powerOff)

/-! ## The board configuration block (R448, R463) -/

/-- Bytes of the block are written and its CRC is made again; a write beyond the block is refused (log entry 35). -/
def execBcbWrite (offset : Nat) (bytes : List Byte) (s : State) : Host.Outcome State Fault Refusal :=
  .next <| s.managed fun s =>
    if 512 < offset + bytes.length then s.answer stDenied []
    else { s with flash := { s.flash with bcb := bcbSealed (splice s.bcbBytes offset bytes) } }.answer stOk []

/-! ## Effecters (R467) -/

/-- A cap in W as the registers hold it: none where it is no multiple of 10 W. -/
def State.pldmCap (s : State) (watts : Nat) (write : Nat → Option State) : State :=
  s.managed fun s =>
    if watts % 10 != 0 then s.emit (.pldm .invalidData)
    else if 0xFFF < watts / 10 then s.emit (.pldm .denied)
    else match write (watts / 10) with
      | none => s.emit (.pldm .denied)
      | some t => t.emit (.pldm .success)

def execPldmSetPowerCap (watts : Nat) (s : State) : Host.Outcome State Fault Refusal :=
  .next <| s.pldmCap watts fun c =>
    s.writeCap (BitVec.ofNat 32 (c + s.boot.staged.getD 0 0 * 2 ^ 12 + s.boot.staged.getD 1 0 * 2 ^ 28 + s.boot.staged.getD 2 0 * 2 ^ 31))

def execPldmSetSafeCap (watts : Nat) (s : State) : Host.Outcome State Fault Refusal :=
  .next <| s.pldmCap watts fun c =>
    s.writeSafe (setFld (BitVec.ofNat 32 (c + s.boot.staged.getD 3 0 * 2 ^ 12)) 23 16 (fld (s.mreg mSafe) 23 16))

/-- Effecter 7 writes `PWR_SAFE.HB_TIMEOUT`. -/
def execPldmSetHbTimeout (value : Nat) (s : State) : Host.Outcome State Fault Refusal :=
  .next <| s.managed fun s =>
    if 255 < value then s.emit (.pldm .invalidData)
    else match s.writeSafe (setFld (s.mreg mSafe) 23 16 value) with
      | none => s.emit (.pldm .denied)
      | some t => t.emit (.pldm .success)

/-- The place of a staged effecter, and its largest state. -/
def stagedPlace (id : Nat) : Option (Nat × Nat) :=
  match id with
  | 2 => some (0, 1)
  | 3 => some (1, 5)
  | 4 => some (2, 1)
  | 6 => some (3, 1)
  | _ => none

/-- A staged effecter only records its state; a state that it does not have is invalid data (PRESUMED, log entry 35). -/
def execPldmSetStagedEffecter (id value : Nat) (s : State) : Host.Outcome State Fault Refusal :=
  .next <| s.managed fun s => match stagedPlace id with
    | none => s.emit (.pldm .invalidData)
    | some (i, top) =>
      if top < value then s.emit (.pldm .invalidData)
      else (s.modBoot fun b => { b with staged := b.staged.set i value }).emit (.pldm .success)

/-! ## Sensors and events (R466, R468) -/

/-- A bit of the conditions sensor. -/
def condBits (l : List Bool) : Nat := ((List.range l.length).zip l).foldl (fun n e => if e.2 then n + 2 ^ e.1 else n) 0

def pkgNo : PkgState → Nat
  | .on => 0
  | .idle => 1
  | .nap => 2
  | .sleep => 3
  | .off => 4

/-- The value of a state sensor (the conditions one bit each, in R466's order: log entry 35). -/
def State.sensorNow (s : State) (sensor : Nat) : Option Nat :=
  match sensor with
  | 32 => some (pkgNo s.pkg)
  | 33 => some s.bootState
  | 34 => some (fld (s.reg oIntStat) 1 0)
  | 35 =>
    let w := s.mreg mStat
    some (condBits [bit w 17, bit w 20, bit w 21, bit w 22, bit w 18, bit w 19])
  | 36 => some (if bit (s.reg oRstCause) 7 then 1 else 0)
  | _ => none

/-- A sensor crosses a threshold or changes state. A measured value enters its register; a state sensor reports the value
that the package holds, once. -/
def execSensorChange (sensor value : Nat) (s : State) : Host.Outcome State Fault Refusal :=
  .next <|
    if !s.mgmtOn then s
    else if sensor = 1 then s.setVolts value
    else if sensor = 2 then s.setMregFld mIn 31 16 value
    else if 16 ≤ sensor ∧ sensor < 16 + s.fuses.dies then s.setHot (sensor - 16) value
    else match s.sensorNow sensor with
      | none => s
      | some v => if v != value || assoc sensor s.boot.sensors = some v then s else s.pldmEvent sensor v

/-- The tray controller is the event receiver: a partition reset request is told now. -/
def execSetEventReceiver (s : State) : Host.Outcome State Fault Refusal :=
  .next <| s.managed fun s =>
    let s := (s.modBoot fun b => { b with receiver := true }).emit (.pldm .success)
    if bit (s.reg oRstCause) 7 then s.pldmEvent 36 1 else s

end Sys2Proof.Machine
end

