-- ==== Sys2Proof/Machine/Dispatch.lean ====
section
/-! DEFINITION. Which meaning each command has. -/

namespace Sys2Proof.Machine

def exec (i : Instr) (s : State) : Host.Outcome State Fault Refusal :=
  match i with
  | .ctxCreate d => Sys2Proof.Machine.execCtxCreate d s
  | .ctxDestroy d => Sys2Proof.Machine.execCtxDestroy d s
  | .load d => Sys2Proof.Machine.execLoad d s
  | .jigLoad d => Sys2Proof.Machine.execJigLoad d s
  | .seqOpen d => Sys2Proof.Machine.execSeqOpen d s
  | .seqAppend d => Sys2Proof.Machine.execSeqAppend d s
  | .seqCancel d => Sys2Proof.Machine.execSeqCancel d s
  | .seqClose d => Sys2Proof.Machine.execSeqClose d s
  | .seqParams d => Sys2Proof.Machine.execSeqParams d s
  | .pageMap d => Sys2Proof.Machine.execPageMap d s
  | .pageUnmap d => Sys2Proof.Machine.execPageUnmap d s
  | .kvShip d => Sys2Proof.Machine.execKvShip d s
  | .kvAccept d => Sys2Proof.Machine.execKvAccept d s
  | .stepPolicy d => Sys2Proof.Machine.execStepPolicy d s
  | .benchSplit d => Sys2Proof.Machine.execBenchSplit d s
  | .fence d => Sys2Proof.Machine.execFence d s
  | .checkpoint d => Sys2Proof.Machine.execCheckpoint d s
  | .restore d => Sys2Proof.Machine.execRestore d s
  | .trainStep d => Sys2Proof.Machine.execTrainStep d s
  | .faultRead d => Sys2Proof.Machine.execFaultRead d s
  | .tableRead d => Sys2Proof.Machine.execTableRead d s
  | .join d => Sys2Proof.Machine.execJoin d s
  | .depart d => Sys2Proof.Machine.execDepart d s
  | .spdm d => Sys2Proof.Machine.execSpdm d s
  | .imagePush d => Sys2Proof.Machine.execImagePush d s
  | .memPlaceMove p target first count => Sys2Proof.Machine.execMemPlaceMove p target first count s
  | .memPlaceMakeReadOnly p target first count => Sys2Proof.Machine.execMemPlaceMakeReadOnly p target first count s
  | .memPlaceMakeWritable p target first count => Sys2Proof.Machine.execMemPlaceMakeWritable p target first count s
  | .migrationCopyDone p => Sys2Proof.Machine.execMigrationCopyDone p s
  | .ethSetupCmd p h => Sys2Proof.Machine.execEthSetupCmd p h s
  | .rstCmdPackageWarm p => Sys2Proof.Machine.execRstCmdPackageWarm p s
  | .rstCmdDie p die hold => Sys2Proof.Machine.execRstCmdDie p die hold s
  | .rstCmdCore p die core hold => Sys2Proof.Machine.execRstCmdCore p die core hold s
  | .rstCmdPort p unit hold => Sys2Proof.Machine.execRstCmdPort p unit hold s
  | .rstCmdReleaseHold p => Sys2Proof.Machine.execRstCmdReleaseHold p s
  | .qstatClear p ctx => Sys2Proof.Machine.execQstatClear p ctx s
  | .qstatFreeze p ctx on => Sys2Proof.Machine.execQstatFreeze p ctx on s
  | .resume p => Sys2Proof.Machine.execResume p s
  | .retrain p port => Sys2Proof.Machine.execRetrain p port s
  | .xbarStallMaxClear p die => Sys2Proof.Machine.execXbarStallMaxClear p die s
  | .thermClear die => Sys2Proof.Machine.execThermClear die s
  | .memInjectArm p value => Sys2Proof.Machine.execMemInjectArm p value s
  | .acquire p n => Sys2Proof.Machine.execAcquire p n s
  | .release p n => Sys2Proof.Machine.execRelease p n s
  | .breakDowel n => Sys2Proof.Machine.execBreakDowel n s
  | .ringEnable p port pair tqEn => Sys2Proof.Machine.execRingEnable p port pair tqEn s
  | .ringDisable p port pair => Sys2Proof.Machine.execRingDisable p port pair s
  | .intStrictWrite p lo hi => Sys2Proof.Machine.execIntStrictWrite p lo hi s
  | .clkSscWrite p value => Sys2Proof.Machine.execClkSscWrite p value s
  | .clkEnWrite p offset value => Sys2Proof.Machine.execClkEnWrite p offset value s
  | .clkMuxBreak p die island => Sys2Proof.Machine.execClkMuxBreak p die island s
  | .fabCableWrite p port value => Sys2Proof.Machine.execFabCableWrite p port value s
  | .secOwnerFuse p value => Sys2Proof.Machine.execSecOwnerFuse p value s
  | .rstPresValidClear p k => Sys2Proof.Machine.execRstPresValidClear p k s
  | .pwrCapWrite value => Sys2Proof.Machine.execPwrCapWrite value s
  | .pwrSafeWrite value => Sys2Proof.Machine.execPwrSafeWrite value s
  | .kick => Sys2Proof.Machine.execKick s
  | .loRead p offset => Sys2Proof.Machine.execLoRead p offset s
  | .loWrite p offset value => Sys2Proof.Machine.execLoWrite p offset value s
  | .hiWrite p offset value => Sys2Proof.Machine.execHiWrite p offset value s
  | .registerWrite p offset value h => Sys2Proof.Machine.execRegisterWrite p offset value h s
  | .windowRead offset count => Sys2Proof.Machine.execWindowRead offset count s
  | .windowWrite offset value h => Sys2Proof.Machine.execWindowWrite offset value h s
  | .mgmtRead offset => Sys2Proof.Machine.execMgmtRead offset s
  | .mgmtWrite offset value => Sys2Proof.Machine.execMgmtWrite offset value s
  | .memberSet partition nodes => Sys2Proof.Machine.execMemberSet partition nodes s
  | .faultClear => Sys2Proof.Machine.execFaultClear s
  | .stateSetIdle => Sys2Proof.Machine.execStateSetIdle s
  | .stateSetNap => Sys2Proof.Machine.execStateSetNap s
  | .stateSetSleep => Sys2Proof.Machine.execStateSetSleep s
  | .stateSetOff => Sys2Proof.Machine.execStateSetOff s
  | .bcbWrite offset bytes => Sys2Proof.Machine.execBcbWrite offset bytes s
  | .pldmSetPowerCap watts => Sys2Proof.Machine.execPldmSetPowerCap watts s
  | .pldmSetSafeCap watts => Sys2Proof.Machine.execPldmSetSafeCap watts s
  | .pldmSetHbTimeout value => Sys2Proof.Machine.execPldmSetHbTimeout value s
  | .pldmSetStagedEffecter id value => Sys2Proof.Machine.execPldmSetStagedEffecter id value s
  | .setEventReceiver => Sys2Proof.Machine.execSetEventReceiver s
  | .sensorChange sensor value => Sys2Proof.Machine.execSensorChange sensor value s
  | .requestUpdate => Sys2Proof.Machine.execRequestUpdate s
  | .pldmImageData offset bytes => Sys2Proof.Machine.execPldmImageData offset bytes s
  | .activateFirmware => Sys2Proof.Machine.execActivateFirmware s
  | .updateWriteDone ok => Sys2Proof.Machine.execUpdateWriteDone ok s
  | .recoverySelfReset => Sys2Proof.Machine.execRecoverySelfReset s
  | .getVersion p => Sys2Proof.Machine.execGetVersion p s
  | .getCapabilities p => Sys2Proof.Machine.execGetCapabilities p s
  | .negotiateAlgorithms p sm2 sm3 => Sys2Proof.Machine.execNegotiateAlgorithms p sm2 sm3 s
  | .getDigests p => Sys2Proof.Machine.execGetDigests p s
  | .getCertificate p slot offset length => Sys2Proof.Machine.execGetCertificate p slot offset length s
  | .challenge p nonce => Sys2Proof.Machine.execChallenge p nonce s
  | .getMeasurements p index nonce => Sys2Proof.Machine.execGetMeasurements p index nonce s
  | .keyExchange p => Sys2Proof.Machine.execKeyExchange p s
  | .pskExchange p => Sys2Proof.Machine.execPskExchange p s
  | .doorbellPoll port h => Sys2Proof.Machine.execDoorbellPoll port h s
  | .nudge port h => Sys2Proof.Machine.execNudge port h s
  | .recordRelease port pair => Sys2Proof.Machine.execRecordRelease port pair s
  | .headReread port h => Sys2Proof.Machine.execHeadReread port h s
  | .irqModTimeout port pair => Sys2Proof.Machine.execIrqModTimeout port pair s
  | .hotResetPort port => Sys2Proof.Machine.execHotResetPort port s
  | .hotResetPackage port => Sys2Proof.Machine.execHotResetPackage port s
  | .etcenLinkUp port partnerGen badLanes => Sys2Proof.Machine.execEtcenLinkUp port partnerGen badLanes s
  | .etcenLinkDown port => Sys2Proof.Machine.execEtcenLinkDown port s
  | .etcenTrainRetry port => Sys2Proof.Machine.execEtcenTrainRetry port s
  | .portLost port => Sys2Proof.Machine.execPortLost port s
  | .planPointReached => Sys2Proof.Machine.execPlanPointReached s
  | .idlePlan => Sys2Proof.Machine.execIdlePlan s
  | .idleApply => Sys2Proof.Machine.execIdleApply s
  | .plan pl => Sys2Proof.Machine.execPlan pl s
  | .stepStart => Sys2Proof.Machine.execStepStart s
  | .stageEnd work => Sys2Proof.Machine.execStageEnd work s
  | .tileCheck die core upset => Sys2Proof.Machine.execTileCheck die core upset s
  | .replayDone die core pass => Sys2Proof.Machine.execReplayDone die core pass s
  | .windowEnd index outstanding => Sys2Proof.Machine.execWindowEnd index outstanding s
  | .combineRound layer => Sys2Proof.Machine.execCombineRound layer s
  | .stallWatchdog die seg cycles remote => Sys2Proof.Machine.execStallWatchdog die seg cycles remote s
  | .sealSend => Sys2Proof.Machine.execSealSend s
  | .sealMessage m => Sys2Proof.Machine.execSealMessage m s
  | .report r => Sys2Proof.Machine.execReport r s
  | .sealTimeout node => Sys2Proof.Machine.execSealTimeout node s
  | .sealDeadlineExpired => Sys2Proof.Machine.execSealDeadlineExpired s
  | .sealPendingSend => Sys2Proof.Machine.execSealPendingSend s
  | .retract m => Sys2Proof.Machine.execRetract m s
  | .departMessage node cause => Sys2Proof.Machine.execDepartMessage node cause s
  | .memberLost node => Sys2Proof.Machine.execMemberLost node s
  | .pendingMsg src kind step attempt => Sys2Proof.Machine.execPendingMsg src kind step attempt s
  | .requestPendingSend node => Sys2Proof.Machine.execRequestPendingSend node s
  | .requestTimeout tag => Sys2Proof.Machine.execRequestTimeout tag s
  | .read m lines => Sys2Proof.Machine.execRead m lines s
  | .write m data => Sys2Proof.Machine.execWrite m data s
  | .atomicAdd m operand => Sys2Proof.Machine.execAtomicAdd m operand s
  | .atomicSwap m operand => Sys2Proof.Machine.execAtomicSwap m operand s
  | .atomicCompareAndSwap m compare new => Sys2Proof.Machine.execAtomicCompareAndSwap m compare new s
  | .accAdd m states => Sys2Proof.Machine.execAccAdd m states s
  | .mcastWrite m loadSet dests index data => Sys2Proof.Machine.execMcastWrite m loadSet dests index data s
  | .groupEnd m layer expert member adds => Sys2Proof.Machine.execGroupEnd m layer expert member adds s
  | .timeRequest src plane t1 correction => Sys2Proof.Machine.execTimeRequest src plane t1 correction s
  | .timeReply plane t1 t2 t3 reqCorrection correction => Sys2Proof.Machine.execTimeReply plane t1 t2 t3 reqCorrection correction s
  | .timeExchangeTick => Sys2Proof.Machine.execTimeExchangeTick s
  | .timeHoldover => Sys2Proof.Machine.execTimeHoldover s
  | .shipOffer n committed pending layout job pen members => Sys2Proof.Machine.execShipOffer n committed pending layout job pen members s
  | .shipGrant n node logical pages => Sys2Proof.Machine.execShipGrant n node logical pages s
  | .writesDone n member pages => Sys2Proof.Machine.execWritesDone n member pages s
  | .shipDone n pages => Sys2Proof.Machine.execShipDone n pages s
  | .shipAccepted n => Sys2Proof.Machine.execShipAccepted n s
  | .shipRefused n status => Sys2Proof.Machine.execShipRefused n status s
  | .shipTimeout n => Sys2Proof.Machine.execShipTimeout n s
  | .acceptTimeout ctx handle => Sys2Proof.Machine.execAcceptTimeout ctx handle s
  | .ack src tag => Sys2Proof.Machine.execAck src tag s
  | .data src tag bytes poison => Sys2Proof.Machine.execData src tag bytes poison s
  | .nack src tag reason => Sys2Proof.Machine.execNack src tag reason s
  | .nak port seq => Sys2Proof.Machine.execNak port seq s
  | .creditReturn port vc n => Sys2Proof.Machine.execCreditReturn port vc n s
  | .linkId port swId swPort plane => Sys2Proof.Machine.execLinkId port swId swPort plane s
  | .limfelePortTrained port partnerV2 lanesPassV2 lanesPassV1 => Sys2Proof.Machine.execLimfelePortTrained port partnerV2 lanesPassV2 lanesPassV1 s
  | .limfelePortDown port lane => Sys2Proof.Machine.execLimfelePortDown port lane s
  | .limfeleTrainRetry port => Sys2Proof.Machine.execLimfeleTrainRetry port s
  | .planeMaskRepublish => Sys2Proof.Machine.execPlaneMaskRepublish s
  | .storageCompletion id status data => Sys2Proof.Machine.execStorageCompletion id status data s
  | .storageTimeout id => Sys2Proof.Machine.execStorageTimeout id s
  | .congestionNotification qp => Sys2Proof.Machine.execCongestionNotification qp s
  | .keepAlive target => Sys2Proof.Machine.execKeepAlive target s
  | .ethernetLinkChange port up targets => Sys2Proof.Machine.execEthernetLinkChange port up targets s
  | .shadowCompare u step matches_ third first => Sys2Proof.Machine.execShadowCompare u step matches_ third first s
  | .cowCopyDone ctx handle page => Sys2Proof.Machine.execCowCopyDone ctx handle page s
  | .contextRelease ctx => Sys2Proof.Machine.execContextRelease ctx s
  | .quarantineIdleRelease ctx => Sys2Proof.Machine.execQuarantineIdleRelease ctx s
  | .switchReady die => Sys2Proof.Machine.execSwitchReady die s
  | .scrubLine die => Sys2Proof.Machine.execScrubLine die s
  | .criticalStateError u => Sys2Proof.Machine.execCriticalStateError u s
  | .gaugeFault c stopped held => Sys2Proof.Machine.execGaugeFault c stopped held s
  | .droopStretch die => Sys2Proof.Machine.execDroopStretch die s
  | .droopPersist die island => Sys2Proof.Machine.execDroopPersist die island s
  | .clampTick power millisecond => Sys2Proof.Machine.execClampTick power millisecond s
  | .capEffectTimeout => Sys2Proof.Machine.execCapEffectTimeout s
  | .heartbeatExpired => Sys2Proof.Machine.execHeartbeatExpired s
  | .lowInput centivolts => Sys2Proof.Machine.execLowInput centivolts s
  | .lowInputRelease => Sys2Proof.Machine.execLowInputRelease s
  | .inputFailing => Sys2Proof.Machine.execInputFailing s
  | .inputLost => Sys2Proof.Machine.execInputLost s
  | .throttle limit => Sys2Proof.Machine.execThrottle limit s
  | .throttleReleaseTick => Sys2Proof.Machine.execThrottleReleaseTick s
  | .hardThrottle => Sys2Proof.Machine.execHardThrottle s
  | .hardThrottleRelease => Sys2Proof.Machine.execHardThrottleRelease s
  | .trip => Sys2Proof.Machine.execTrip s
  | .leak => Sys2Proof.Machine.execLeak s
  | .coolFail => Sys2Proof.Machine.execCoolFail s
  | .coolantConditionEnd leakSide => Sys2Proof.Machine.execCoolantConditionEnd leakSide s
  | .eject => Sys2Proof.Machine.execEject s
  | .idleEntry => Sys2Proof.Machine.execIdleEntry s
  | .pwrOkRise => Sys2Proof.Machine.execPwrOkRise s
  | .pwrOkFall => Sys2Proof.Machine.execPwrOkFall s
  | .rstNAssert => Sys2Proof.Machine.execRstNAssert s
  | .rstNRelease => Sys2Proof.Machine.execRstNRelease s
  | .mgmtWatchdog => Sys2Proof.Machine.execMgmtWatchdog s
  | .clockLossFaultN => Sys2Proof.Machine.execClockLossFaultN s
  | .resetRelease l selfTest slotId parityOk => Sys2Proof.Machine.execResetRelease l selfTest slotId parityOk s
  | .xbStartDelayEnd gaugePass => Sys2Proof.Machine.execXbStartDelayEnd gaugePass s
  | .readyReport => Sys2Proof.Machine.execReadyReport s
  | .flitCrcFail port => Sys2Proof.Machine.execFlitCrcFail port s
  | .powerApplied => Sys2Proof.Machine.execPowerApplied s
  | .loadLastLineWritten id => Sys2Proof.Machine.execLoadLastLineWritten id s
  | .registerRead p offset => Sys2Proof.Machine.execRegisterRead p offset s
  | .priorityFlowControl port priority quanta => Sys2Proof.Machine.execPriorityFlowControl port priority quanta s

end Sys2Proof.Machine
end

