-- ==== Sys2Proof/Machine/Timebase.lean ====
section
/-! DEFINITION. The tick of the block: common time, the RDMA queue pairs, and the links (log entry 8). -/

namespace Sys2Proof.Machine

/-- The rate of a queue pair that a congestion notification has lowered, in percent of full, rises again; R345 says over time, and not by
how much, so the rise is free (log entry 3). -/
def State.raiseRate (s : State) (qp rate : Nat) : State :=
  let r := s.free
  { r.2 with eth := { r.2.eth with rates := poke 100 r.2.eth.rates qp (rate + r.1.toNat % (101 - min 100 rate)) } }

/-- Every lowered rate is restored over time (R345). -/
def State.restoreRates (s : State) : State := s.eth.rates.foldl (fun s e => s.raiseRate e.1 e.2) s

/-- One 10 ns cycle of the crystal XA: common time advances at its steered rate, `slew` in units of 2^-32 ns a cycle
on every member but the root, unless a correction holds the count (R340, R341; DESIGN CHOICE, log entry 8). -/
def State.tickTime (s : State) : State :=
  if 10 ≤ s.timeHold then { s with timeHold := s.timeHold - 10 }
  else
    let n := ((s.timeFrac : Int) + (if s.isLead then 0 else s.slew) + ((10 - s.timeHold) * 2 ^ 32 : Nat)).toNat
    { s with time := (s.time + n / 2 ^ 32) % 2 ^ 64, timeFrac := n % 2 ^ 32, timeHold := 0 }

/-- Pauses whose quanta have run out end, and the engine goes on (R345). -/
def State.endPauses (s : State) : State :=
  if s.eth.paused.any fun e => e.2.2 ≤ s.time then
    ({ s with eth := { s.eth with paused := s.eth.paused.filter fun e => s.time < e.2.2 } } : State).runStor
  else s

/-- One tick: time goes on, pauses end, lowered rates are restored, and the links send. -/
def tick (s : State) : State := s.tickTime.endPauses.restoreRates.runLinks

end Sys2Proof.Machine
end

