-- ==== Sys2Proof/Safety.lean ====
section
/-! DEFINITION. What claims speak of: the invariant of the package's state, what no command undoes, and what a command
leaves as it was. -/

namespace Sys2Proof.Machine

/-! ## The invariant -/

/-- Every byte memory has its canonical form: HBM, the shared slices, the cores' local memories and the ports' buffer lines (log
entry 10). -/
def State.memoryWf (s : State) : Bool := Memory.wf s.hbm && Memory.wf s.slices && Memory.wf s.locals && Memory.wf s.lines

/-- Sixteen dowels, each free or held by one of three paths, and a BROKEN bit for each (R310, R312). -/
def State.dowelsWf (s : State) : Bool := s.dowels.length = 16 && s.broken.length = 16 && s.dowels.all fun o => decide (o ≤ 3)

/-- The minimum SVN is thermometer coded in 64 fuses (R451). -/
def State.svnWf (s : State) : Bool := decide (s.fuses.svn ≤ 64)

/-- Every open descriptor's number lies below the next one to be given, so that the next one is fresh (R303). -/
def State.opensWf (s : State) : Bool := s.opens.all fun d => decide (d.id < s.nextDesc)

/-- The invariant that every step keeps. -/
def State.Inv (s : State) : Prop := s.memoryWf = true ∧ s.dowelsWf = true ∧ s.svnWf = true ∧ s.opensWf = true

/-! ## What no command undoes -/

/-- The fuses that manufacture sets: the dies carried, serial and vendor number, root key hash, JTAG lock, voltage tables
and the ROM's digest. -/
def Fuses.identity (f : Fuses) : Nat × Nat × Nat × List Byte × Bool × List (List Nat) × List Byte :=
  (f.dies, f.serial, f.iana, f.rootHash, f.jtagLock, f.volts, f.romDigest)

/-- From one state to a later one no fuse goes back: the identity stays, the minimum SVN never falls (R451), and a fused
owner stays the owner (R452). -/
def State.FusesKept (s t : State) : Prop :=
  t.fuses.identity = s.fuses.identity ∧ s.fuses.svn ≤ t.fuses.svn ∧
    (s.fuses.ownerEn = true → t.fuses.ownerEn = true ∧ t.fuses.ownerHash = s.fuses.ownerHash)

/-- Every classing in the fault history is still there (R366, R367, R465). -/
def State.ClassingsKept (s t : State) : Prop := ∀ e ∈ s.flash.history, e.event = 6 → e ∈ t.flash.history

/-! ## What a command leaves as it was -/

/-- Every byte of every memory reads as before. -/
def State.SameBytes (s t : State) : Prop :=
  (∀ k, peek 0#8 t.hbm k = peek 0#8 s.hbm k) ∧ (∀ k, peek 0#8 t.slices k = peek 0#8 s.slices k) ∧
    (∀ k, peek 0#8 t.locals k = peek 0#8 s.locals k) ∧ ∀ k, peek 0#8 t.lines k = peek 0#8 s.lines k

/-- Contexts, the step in flight, published plans and accepted descriptors are as before. -/
def State.SameWork (s t : State) : Prop :=
  t.ctxs = s.ctxs ∧ t.attempt = s.attempt ∧ t.plans = s.plans ∧ t.opens = s.opens ∧ t.lead = s.lead

/-- Fuses, flash, retained memory and preserved frames are as before. -/
def State.SameKept (s t : State) : Prop :=
  t.fuses = s.fuses ∧ t.flash = s.flash ∧ t.retained = s.retained ∧ t.preserved = s.preserved

/-- Every window register but those of a list holds what it held. -/
def State.SameRegs (s t : State) (but : List Nat) : Prop := ∀ o, o ∉ but → t.reg o = s.reg o

/-- Every register of the management space but those of a list holds what it held. -/
def State.SameMregs (s t : State) (but : List Nat) : Prop := ∀ o, o ∉ but → t.mreg o = s.mreg o

/-- The package holds all but its outputs as before. -/
def State.OnlyOut (s t : State) (os : List Out) : Prop := t = { s with out := os ++ s.out }

/-! ## When an access is let through -/

/-- A path reaches the window, and the write at the offset passes every access rule (R290, R311, R455). -/
def State.MayWrite (s : State) (p : Path) (o : Nat) : Prop := s.reaches p = true ∧ s.writeAccess p o = stOk

/-- A register whose write does what its table says and nothing more: no side effect, no other half. -/
def plainOffset (o : Nat) : Bool :=
  [oErrLog .a, oErrLog .b, oEvent .a, oEvent .b, oPollCtl .a, oPollCtl .b, oSwitchNs, oScrub, oFabPart, oClkGauge].contains o ||
    (inSpan o 0x3_0000 0x8000 && o % 0x100 = 0x20) || inRun o 0x50_0010 4 8 4 || inRun o 0x58_0010 4 8 4 ||
    inRun o (oBkup 2) 4 6 4 || inRun o (oOwnerStage 0) 4 8 4 || (inSpan o 0x70_0000 0x4000 && o % 0x100 = 4) ||
    (inSpan o 0x80_0000 0x80_0000 && (o % 0x10_0000 = 0x2_0004 || inRun (o % 0x10_0000) 0x2_0100 4 48 4))

/-- What a write leaves in a register (R8, R9): an RW bit takes the written one, a 1 clears a W1C bit, and every other bit
keeps what it held. -/
def Written (i : RegInfo) (old v new : Word) : Prop :=
  ∀ j, bit new j = if bit i.rw j then bit v j else bit old j && !(bit i.w1c j && bit v j)

/-- Over the management interface a command is answered. -/
def State.Managed (s : State) : Prop := s.mgmtOn = true

/-- The state after the first words of a read over I3C from an offset on, and the word at an index of it: status, data. -/
def State.afterReads (s : State) (o : Nat) : Nat → State
  | 0 => s
  | k + 1 => ((s.afterReads o k).windowRead .i3c (o + 4 * k)).2.2

def State.wordRead (s : State) (o k : Nat) : Nat × Word :=
  let r := (s.afterReads o k).windowRead .i3c (o + 4 * k)
  (r.1, r.2.1)

/-! ## Context memory by the byte -/

/-- Where a byte of context memory lies in HBM, by its page's entry (R160). -/
def Ctx.byteKey (x : Ctx) (a : Nat) : Nat :=
  let l := lineOf (x.page (pageOf a)) a
  hbmKey l.1 l.2 (a % 128)

def State.ctxByte (s : State) (x : Ctx) (a : Nat) : Byte := peek 0#8 s.hbm (x.byteKey a)

/-- A line of context memory is poisoned. -/
def State.ctxPoison (s : State) (x : Ctx) (a : Nat) : Bool :=
  let l := lineOf (x.page (pageOf a)) a
  s.hbmPoison.contains (lineKey l.1 l.2)

/-- The bytes lie on valid HBM pages of the context, and no two of these pages share a frame. -/
def Ctx.OnHbm (x : Ctx) (a n : Nat) : Prop :=
  a + n ≤ x.range * 2 ^ 21 ∧ a + n ≤ 2 ^ 40 ∧ (∀ p ∈ reach a n, entryValid (x.page p) = true ∧ entryHbm (x.page p) = true) ∧
    ∀ p ∈ reach a n, ∀ q ∈ reach a n, entryKey (x.page p) = entryKey (x.page q) → p = q

/-- Every page reached may be written and lies outside the lend window. -/
def Ctx.OnWritable (x : Ctx) (a n : Nat) : Prop := ∀ p ∈ reach a n, entryWritable (x.page p) = true ∧ x.lent p = false

/-- No bit of HBM is in error and no injection is armed. -/
def State.Clean (s : State) : Prop := s.hbmFlips = [] ∧ bit (s.reg oInject) 31 = false

/-- The bytes of context memory from an address on are those of a list, and every other byte of HBM is as before. -/
def State.Stored (s : State) (x : Ctx) (a : Nat) (bs : List Byte) (t : State) : Prop :=
  (∀ i, i < bs.length → bs[i]? = some (t.ctxByte x (a + i))) ∧
    ∀ k, (∀ i < bs.length, k ≠ x.byteKey (a + i)) → peek 0#8 t.hbm k = peek 0#8 s.hbm k

/-! ## Messages -/

/-- The link of a plane has heard `n` more flits in order, and gives back credits of a virtual channel for `back` of them (R317, R318).
Every other link is as it was, and so are the queue, the replay buffer and the sequence number of this one. -/
def State.Heard (s t : State) (plane : Option Nat) (vc n back : Nat) : Prop :=
  ∀ q, (plane ≠ some q → t.link q = s.link q) ∧ (plane = some q →
    t.link q = { s.link q with expect := ((s.link q).expect + n) % 4096, back := (t.link q).back } ∧
      ∀ v, peek 0 (t.link q).back v = peek 0 (s.link q).back v + if v = vc then back else 0)

/-- A control message of so many bytes was heard on the plane of OFFSET 0, and taken at once. -/
def State.HeardCtl (s t : State) (len : Nat) : Prop := s.Heard t (s.hashPlane s.node 0) 2 (ctlFlits len) (ctlFlits len)

/-- A response of so many bytes was heard. -/
def State.HeardRsp (s t : State) (len : Nat) : Prop := s.Heard t (s.hashPlane s.node 0) 1 (flitCount len) (flitCount len)

/-- No context is mirrored to a buddy (R371). -/
def State.NoMirror (s : State) : Prop := ∀ e ∈ s.ctxs, s.mirrors e.2 = false

/-- Nothing is under way on any link, no pause runs, and every message formed has been taken. -/
def State.LinksStill (s : State) : Prop := s.links = [] ∧ s.drained = s.out.length ∧ s.eth.paused = []

/-! ## Descriptors -/

/-- A pair writes a completion at once: its link is up, it runs, nothing is held for the port, its completion ring has
room and it sends no interrupt. -/
def State.Ready (s : State) (p : EPort) (i : Nat) : Prop :=
  s.linkUp p = true ∧ (s.pair p i).state = .running ∧ (s.port p).held = [] ∧ (s.port p).lost = false ∧
    s.hasRoom p i false = true ∧ bit (s.reg (oIrqVec p i)) 31 = false

/-- The write of a descriptor's completion into its ring (R293, R303): 32 bytes at the next entry, with the PHASE of the
lap, the descriptor's own fields, common time, and the pair's `SQ_HEAD`. -/
def State.completionOf (s : State) (d : Desc) (status result step : Nat) : Out :=
  let pr := s.pair d.port d.pair
  let n := 2 ^ fld (s.reg (oRingSize d.port d.pair)) 12 8
  let ctx := if hContext d.words < 64 then hContext d.words * 2 ^ 16 else 2 ^ 22
  let phase := if pr.cqProd / n % 2 = 0 then 2 ^ 31 else 0
  .hostWrite d.port (s.reg64 (oRing d.port d.pair + 8) + 32 * (pr.cqProd % n)) (bytesOf
    [hTag d.words, BitVec.ofNat 32 (status + hOpcode d.words * 2 ^ 8 + ctx + phase), BitVec.ofNat 32 (hObject d.words),
      BitVec.ofNat 32 pr.sqHead, lo32 s.time, hi32 s.time, BitVec.ofNat 32 result, BitVec.ofNat 32 step])

/-- The port takes a descriptor of the pair now: the link is up, the firmware is ready and not in recovery, and the pair
runs and no fence holds it (R297, R302, R455). -/
def State.Serves (s : State) (u : Submission) : Prop :=
  s.linkUp u.port = true ∧ s.service = true ∧ s.recovery = false ∧ s.pairServed u.port u.pair.val = true

/-- The descriptor that a submission brings, with its opcode and in `DIAG` its function. -/
def State.newDesc (s : State) (u : Submission) (op : Nat) (function : Option Nat) : Desc :=
  { id := s.nextDesc, port := u.port, pair := u.pair.val, words := rowWords op function u.words, buf := [], bufPo := false,
    phase := .running, orphan := false }

/-- The common checks of R301 and those of the descriptor's own bytes pass. -/
def State.Passes (s : State) (u : Submission) (op : Nat) (function : Option Nat) : Prop :=
  let ws := rowWords op function u.words
  s.headerFault u.port u.pair.val ws = none ∧ s.contextStatus ws = none ∧ ownFault ws = none ∧ s.destroying ws = false

/-- The state with the descriptor accepted (R297): `SQ_HEAD` has advanced, link-level retries are counted (R288), and it is the newest
one open. -/
def State.accepted (s : State) (u : Submission) (d : Desc) : State :=
  let pr := s.pair u.port u.pair.val
  { ((s.setPair u.port u.pair.val { pr with
      sqHead := (pr.sqHead + 1) % 2 ^ 32
      sqTail := if pr.sqTail = pr.sqHead then (pr.sqHead + 1) % 2 ^ 32 else pr.sqTail }).linkRetries u.port u.host) with
    opens := s.opens ++ [d], nextDesc := s.nextDesc + 1 }

/-- Every page of the context is a writable HBM page outside the lend window, and the pool, the page descriptors and the tables
lie within its range: no work of the page manager faults it. -/
def Ctx.Sound (x : Ctx) : Prop :=
  (∀ p < x.range, entryValid (x.page p) = true ∧ entryHbm (x.page p) = true ∧ entryWritable (x.page p) = true ∧ x.lent p = false) ∧
    x.poolBase + x.poolPages * x.pageSize ≤ x.range * 2 ^ 21 ∧ x.tableBase + 16 * x.poolPages ≤ x.range * 2 ^ 21 ∧
    ∀ tb ∈ x.tables, x.tableBase ≤ tb.base ∧ tb.penBase x + penBytes ≤ x.range * 2 ^ 21

/-- One active context, sound and clean, with nothing under way but one descriptor of it. -/
def State.Lone (s : State) (c : Nat) (x : Ctx) (d : Desc) : Prop :=
  x.Sound ∧ s.Clean ∧ s.hbmPoison = [] ∧ s.tableFaults = [] ∧ s.swaps = [] ∧ s.ctxs = [(c, x)] ∧ c < 64 ∧ x.state = .active ∧
    x.teardown = none ∧ s.plans = [] ∧ s.replansDue = [] ∧ s.attempt = none ∧ s.opens = [d] ∧ hContext d.words = c ∧ d.orphan = false ∧
    d.id ≠ 0 ∧ s.Ready d.port d.pair ∧ s.places = [] ∧ s.edits = [] ∧ s.unsent = [] ∧ x.copies = [] ∧
    (∀ tb ∈ x.tables, tb.closing = 0) ∧ ∀ q ∈ x.seqs, q.closing = none

/-- The lone descriptor waits for the boundary of R251. -/
def State.Quiet (s : State) (c : Nat) (x : Ctx) (d : Desc) : Prop :=
  s.Lone c x d ∧ (∃ l, d.phase = .boundary l) ∧ s.ships = [] ∧ ∀ q ∈ x.seqs, q.gen ≠ some d.id ∧ q.pre ≠ some d.id

/-- The lone descriptor waits for its ship, of which this home has heard one thing (R265, R266). -/
def State.Shipping (s : State) (c : Nat) (x : Ctx) (d : Desc) (h : Ship) (k : ShipNews) : Prop :=
  s.Lone c x d ∧ d.phase = .waiting ∧ d.isFence = false ∧ s.ships = [h] ∧ h.ctx = c ∧ h.desc = d.id ∧ h.ended = none ∧
    ∃ late, h.news = [(k, late)]

/-- No context of the job is torn down: what is remembered of the job's steps stays (R379). -/
def State.Survives (s t : State) (job : Nat) : Prop :=
  ∀ k x, s.ctx k = some x → x.job = job → ∃ y, t.ctx k = some y ∧ y.teardown = none

/-- The descriptor waits for its boundary with a buffer (R253). -/
def State.waits (s : State) (u : Submission) (d : Desc) (buf : List Word) : State :=
  s.accepted u { d with phase := .boundary s.sealSent, buf := buf }

/-- The descriptor is gone, and its completion written. -/
def State.Done (s t : State) (d : Desc) (status result : Nat) : Prop :=
  t.desc? d.id = none ∧ s.completionOf d status result 0 ∈ t.out

end Sys2Proof.Machine
end

