-- ==== Sys2Proof/Certificates/Slice0/Obligations.lean ====
section
/-! DEFINITION. The statements about the package, each from the rules that its docstring names. -/

open Sys2Proof Sys2Proof.Machine

/-- Commands are taken first in, first out: a step of a state whose queue starts with a command is that command's meaning on
the state with the queue's rest. The queue is the model's own (log entry 2). -/
def Obligations.StepRunsFront : Prop :=
  ∀ (c : Instr) (rest : List Instr) (s : State), step { s with pending := c :: rest } = exec c { s with pending := rest }

/-- The model's choice (log entries 8 and 30): with no command waiting and no boot that authenticates, a step is one cycle of
10 ns of XA. On the time root the count runs free and gains 10 ns; on any other member it gains 10 ns and the slew in units
of 2^-32 ns, and it never goes back while the steered rate is positive; a held count stands still. Nothing else changes while no queue pair's rate is
lowered and no link has anything to send; the rate of one that is lowered rises by a free amount (log entry 3) up to the full rate, and the
rest is as without it. A port that is up, with a credit, sends a queued message of one flit, which uses the credit up and enters the replay
buffer under the next sequence number (R317, R318). -/
def Obligations.IdleStepAdvancesTime : Prop :=
  ∀ s : State, s.pending = [] → fld (s.reg oBootStat) 31 29 ≠ 1 → s.timeFrac < 2 ^ 32 → s.time < 2 ^ 63 →
    (∀ (p : Fin 32) (m : Queued), s.drained = s.out.length → s.eth.paused = [] → s.eth.rates = [] → 10 ≤ s.timeHold →
      s.links = [(p.val, { s.link p.val with queue := [m], back := [] })] → (s.link p.val).sent.length < 512 → fld (s.reg (oPortStat p.val)) 1 0 = 2 → m.vc < 3 → m.sent = 0 →
      1 ≤ m.bytes.length → m.bytes.length ≤ 248 → 0 < s.credit p.val m.vc →
      let l := s.link p.val
      let b := flit l.next (l.expect + 4095) m.vc flitMessage true true m.bytes
      ∃ t, step s = .next t ∧ t.out = .flit p.val b :: s.out ∧ t.credit p.val m.vc = s.credit p.val m.vc - 1 ∧
        t.link p.val = { l with next := (l.next + 1) % 4096, queue := [], sent := l.sent ++ [(l.next, b)] } ∧
        t = { s with timeHold := s.timeHold - 10, links := t.links, credits := t.credits, out := t.out, drained := t.out.length }) ∧
    (s.LinksStill → ∀ q r, s.eth.rates = [(q, r)] → r ≤ 100 → ∃ t u, step s = .next t ∧ step { s with eth := { s.eth with rates := [] } } = .next u ∧
      r ≤ peek 100 t.eth.rates q ∧ peek 100 t.eth.rates q ≤ 100 ∧ (∀ k, k ≠ q → peek 100 t.eth.rates k = 100) ∧
      t = { u with eth := { u.eth with rates := t.eth.rates }, fresh := t.fresh }) ∧
    (s.LinksStill → s.eth.rates = [] → (10 ≤ s.timeHold → step s = .next { s with timeHold := s.timeHold - 10 }) ∧
      (s.timeHold = 0 → s.isLead = true → step s = .next { s with time := s.time + 10 }) ∧
      (s.timeHold = 0 → s.isLead = false → (-10 * 2 ^ 32 : Int) < s.slew → s.slew < 10 * 2 ^ 32 →
        ∃ t, step s = .next t ∧ t = { s with time := t.time, timeFrac := t.timeFrac } ∧ s.time ≤ t.time ∧ t.timeFrac < 2 ^ 32 ∧
          (t.time : Int) * 2 ^ 32 + t.timeFrac = (s.time : Int) * 2 ^ 32 + s.timeFrac + 10 * 2 ^ 32 + s.slew))

/-- After a cold reset every window register reads its Reset value, for which a few tables are checked by name; dowels are
free and no BROKEN bit is set, `PWR_CAP` is class B at the minimum cap, only POWER_ON is a recorded cause, and no pair, context,
descriptor, plan, attempt or memory byte is there. -/
def Obligations.ResetValues : Prop :=
  let s := State.reset
  (∀ o, s.reg o = resetWord 8 o) ∧
    (s.reg (oLinkCtl .a) = 7#32 ∧ s.reg (oRingSize .b 63) = 0x60606#32 ∧ s.reg (oIrqMod .a 0) = 1#32 ∧
      s.reg (oPollCtl .a) = 0x323000#32 ∧ s.reg oScrub = 0x18#32 ∧ s.reg oFabNode = 0xFFF#32 ∧ s.reg oFabCtl = 2#32 ∧
      s.reg oIntCtl = 0x20#32 ∧ s.reg oClkSsc = 0x3C000#32 ∧ s.reg (oStallLimit 7) = 0x10000#32 ∧ s.reg oRstCause = 1#32 ∧
      s.reg (oQstat 63) = 0#32 ∧ s.reg oClkEnPkg = 0#32 ∧ s.reg (oClkEnBlk 0) = 0#32) ∧
    (∀ n, s.dowels.getD n 0 = 0 ∧ s.broken.getD n false = false) ∧ s.mreg mCap = 0x10B4#32 ∧ s.effB = true ∧
    (∀ p i, s.pair p i = Pair.off) ∧ s.ctxs = [] ∧ s.opens = [] ∧ s.plans = [] ∧ s.attempt = none ∧ s.pending = [] ∧
    ∀ k, peek 0#8 s.hbm k = 0#8 ∧ peek 0#32 s.retained k = 0#32

/-- The invariant of `InvariantKept` holds in the state after reset. -/
def Obligations.InvariantAtReset : Prop := State.reset.Inv

/-- From every state that meets it, not only those that a run reaches: after a step the byte memories of HBM, slices and
local SRAM are in canonical form (strictly rising addresses, no entry equal to what an unlisted one reads), there are 16 dowels,
each free or held by one of the three paths, with a BROKEN bit each, the fused security version lies in 0 to 64, and every open
descriptor's number lies below the next one given. And every command's meaning answers a next state with the same queue of waiting
commands: none is lost, repeated or reordered. The queue and the numbers are the model's own (log entry 2). -/
def Obligations.InvariantKept : Prop :=
  (∀ s t : State, s.Inv → step s = .next t → t.Inv) ∧ ∀ (c : Instr) (s : State), ∃ t, exec c s = .next t ∧ t.pending = s.pending

/-- From a state that meets the invariant: the factory's fuses never change, the fused security version never falls, and an
owner hash once enabled stays enabled and the same. -/
def Obligations.FusesNeverGoBack : Prop := ∀ s t : State, s.Inv → step s = .next t → s.FusesKept t

/-- Whatever happens, FAULT_CLEAR and a full ring included, an entry with EVENT 0x6 that is in the fault history stays there,
so that no permanently faulty unit comes back into service. -/
def Obligations.ClassingsNeverLost : Prop := ∀ s t : State, step s = .next t → s.ClassingsKept t

/-- REGISTER_WRITE, and WINDOW_WRITE over I3C, to a register without side effects, where the path may write it: RW bits take
the written value, a 1 clears a W1C bit, RO and reserved bits stay, every other register stays, the answer is OK, and nothing
else of the state changes. `IRQ_VEC` written with IRQ_EN = 0 also ends the pair's count. -/
def Obligations.RegisterWriteSetsFields : Prop :=
  ∀ (p : Path) (v : Word) (h : HostView) (s : State),
    let writes (o : Nat) (i : RegInfo) (u : State) : Prop :=
      ∃ t, exec (.registerWrite p o v h) s = .next t ∧ (p = .i3c → exec (.windowWrite o v h) s = .next t) ∧
        Written i (s.reg o) v (t.reg o) ∧ s.SameRegs t [o] ∧ t = { u with regs := t.regs, out := .writeStatus p stOk :: s.out }
    (∀ (o : Nat) (i : RegInfo), plainOffset o = true → regInfo o = some i → s.MayWrite p o → writes o i s) ∧
    ∀ (port : EPort) (k : Fin 64), s.MayWrite p (oIrqVec port k.val) → writes (oIrqVec port k.val) (RegInfo.rwOf 0x8000FFFF#32 0#32)
      (if bit v 31 then s else s.setPair port k.val { s.pair port k.val with irqCount := 0, irqOldest := none })

/-- LO_READ, and REGISTER_READ of the same offset: a read of a `_LO` register returns its value and captures the value of
`_HI` into the path's shadow; other paths' shadows and all else stay. The next read of that `_HI` from the path returns the
shadow, whatever the register shows by then, and uses it up; without a shadow the current value is read. -/
def Obligations.LoReadCapturesHi : Prop :=
  ∀ (p : Path) (o hi : Nat) (s : State), hiOf o = some hi → s.reaches p = true → s.accessStatus o = stOk →
    s.accessStatus hi = stOk → o ∉ s.retainedBad → hi ∉ s.retainedBad →
      (∃ t, exec (.loRead p o) s = .next t ∧ exec (.registerRead p o) s = .next t ∧
        t = { s with shadows := t.shadows, out := .readData p stOk (s.readValue p o) :: s.out } ∧
        assoc (pathKey p hi) t.shadows = some (s.readValue p hi) ∧
        ∀ k, k ≠ pathKey p hi → assoc k t.shadows = assoc k s.shadows) ∧
      ∃ t, exec (.registerRead p hi) s = .next t ∧ assoc (pathKey p hi) t.shadows = none ∧
        (∀ k, k ≠ pathKey p hi → assoc k t.shadows = assoc k s.shadows) ∧
        t = { s with shadows := t.shadows,
                     out := .readData p stOk ((assoc (pathKey p hi) s.shadows).getD (s.readValue p hi)) :: s.out }

/-- LO_WRITE of any pair only stages the value for its path. HI_WRITE of a ring base (the pair off), of a doorbell page
(polling off) and of the Ethernet setup address then sets both halves, the low one from the staged value or, with none, from
the register, each cut to its RW bits, and uses the staged value up. A ring base of a pair that is not off, and a page with
polling on, keep what they held. -/
def Obligations.HiWriteCompletesPair : Prop :=
  (∀ (p : Path) (o hi : Nat) (v : Word) (s : State), hiOf o = some hi → s.MayWrite p o →
    ∃ t, exec (.loWrite p o v) s = .next t ∧ t = { s with staged := t.staged, out := .writeStatus p stOk :: s.out } ∧
      assoc (pathKey p o) t.staged = some v ∧ ∀ k, k ≠ pathKey p o → assoc k t.staged = assoc k s.staged) ∧
  ∀ (p : Path) (port : EPort) (i : Fin 64) (k : Fin 3) (v : Word) (s : State) (o : Nat) (takes : Bool),
    (o = oRing port i.val + 8 * k.val ∧ takes = decide ((s.pair port i.val).state = .off) ∨
      o = oDbLo port ∧ takes = !bit (s.reg (oPollCtl port)) 0 ∨ o = oEthLo ∧ takes = true) → s.MayWrite p (o + 4) →
    let low := (assoc (pathKey p o) s.staged).getD (s.reg o)
    ∃ t, exec (.hiWrite p (o + 4) v) s = .next t ∧ assoc (pathKey p o) t.staged = none ∧
      (∀ q, q ≠ pathKey p o → assoc q t.staged = assoc q s.staged) ∧ s.SameRegs t [o, o + 4] ∧
      (∀ j, bit (t.reg o) j = if takes && decide ((if o = oEthLo then 11 else 12) ≤ j) then bit low j else bit (s.reg o) j) ∧
      t.reg (o + 4) = (if takes then v else s.reg (o + 4)) ∧
      t = { s with regs := t.regs, staged := t.staged, out := .writeStatus p stOk :: s.out }

/-- REGISTER_WRITE, LO_WRITE, HI_WRITE and WINDOW_WRITE that an access rule refuses, among them a write to a guarded register
from a path without the dowel, answer with the status and change nothing but `EP_ERR_LOG` of the port and, for GATED, the count
and offset of `CLK_GATED_LOG`; a refused read answers with data 0xFFFF_FFFF. A path that does not reach the window gets no
answer and changes nothing. -/
def Obligations.RefusedAccessOnlyLogs : Prop :=
  ∀ (p : Path) (o : Nat) (v : Word) (h : HostView) (s : State) (c : Instr),
    c = .registerWrite p o v h ∨ c = .loWrite p o v ∨ c = .hiWrite p o v ∨ p = .i3c ∧ c = .windowWrite o v h →
      (s.reaches p = false → exec c s = .next s) ∧
      ((∃ n, guardOf o = some n ∧ s.dowels.getD n 0 ≠ ownerNo p) → s.accessStatus o = stOk → s.writeAccess p o = stDenied) ∧
      (s.reaches p = true → s.writeAccess p o ≠ stOk →
        ∃ t, exec c s = .next t ∧ t = { s with regs := t.regs, out := .writeStatus p (s.writeAccess p o) :: s.out } ∧
          s.SameRegs t [oErrLog .a, oErrLog .b, oGatedLog] ∧
          (s.accessStatus o ≠ stGated → t.reg oGatedLog = s.reg oGatedLog) ∧
          (s.accessStatus o = stGated → fld (t.reg oGatedLog) 23 0 = o % 2 ^ 24 ∧
            fld (t.reg oGatedLog) 31 24 = min 255 (fld (s.reg oGatedLog) 31 24 + 1)) ∧
          (∀ e, pathPort p = some e → bit (t.reg (oErrLog e)) 31 = true ∧ bit (t.reg (oErrLog e)) 26 = true ∧
            fld (t.reg (oErrLog e)) 23 0 = o % 2 ^ 24 ∧
            fld (t.reg (oErrLog e)) 25 24 = if s.accessStatus o = stGated then 1 else 2)) ∧
      (s.reaches p = true → s.accessStatus o ≠ stOk →
        ∃ t, exec (.registerRead p o) s = .next t ∧
          t = { s with regs := t.regs, out := .readData p (s.accessStatus o) 0xFFFFFFFF#32 :: s.out })

/-- ACQUIRE, RELEASE and BREAK on dowel n. Each acts only in its case: ACQUIRE on a free dowel, RELEASE from the holder,
BREAK on a held dowel, which also sets its BROKEN bit. In every other case the dowel and its BROKEN bit stay. Every other
dowel and the rest of the state stay in all cases. -/
def Obligations.DowelOperations : Prop :=
  ∀ (p : Path) (n : Fin 16) (s : State), s.MayWrite p (oDowel n.val) →
    exec (.acquire p n) s = .next { s with
        dowels := if s.dowels.getD n.val 0 = 0 then s.dowels.set n.val (ownerNo p) else s.dowels,
        out := .writeStatus p stOk :: s.out } ∧
      exec (.release p n) s = .next { s with
        dowels := if s.dowels.getD n.val 0 = ownerNo p then s.dowels.set n.val 0 else s.dowels,
        out := .writeStatus p stOk :: s.out } ∧
      (p = .i3c → exec (.breakDowel n) s = .next { s with
        dowels := if s.dowels.getD n.val 0 = 0 then s.dowels else s.dowels.set n.val 0,
        broken := if s.dowels.getD n.val 0 = 0 then s.broken else s.broken.set n.val true,
        out := .writeStatus p stOk :: s.out })

/-- QSTAT_CLEAR makes a clear pending and keeps FREEZE; QSTAT_FREEZE sets or clears FREEZE and keeps a pending clear;
XBAR_STALL_MAX.CLEAR sets MAX to 0; MEM_INJECT with ARM arms the injection with the written fields unless a context is resident
on the die, when it answers DENIED and changes no register but the port's log; clearing `RST_PRES_k.VALID` frees the region's held frames
and its record. The rest of the state stays. -/
def Obligations.ClearAndArmCommands : Prop :=
  ∀ (p : Path) (s : State),
    (∀ c : Fin 64, s.MayWrite p (oQstat c.val) →
      (∃ t, exec (.qstatClear p c) s = .next t ∧ bit (t.reg (oQstat c.val)) 2 = true ∧
        bit (t.reg (oQstat c.val)) 1 = bit (s.reg (oQstat c.val)) 1 ∧ s.SameRegs t [oQstat c.val] ∧
        t = { s with regs := t.regs, out := .writeStatus p stOk :: s.out }) ∧
      ∀ on, ∃ t, exec (.qstatFreeze p c on) s = .next t ∧ bit (t.reg (oQstat c.val)) 1 = on ∧
        bit (t.reg (oQstat c.val)) 2 = bit (s.reg (oQstat c.val)) 2 ∧ s.SameRegs t [oQstat c.val] ∧
        t = { s with regs := t.regs, out := .writeStatus p stOk :: s.out }) ∧
    (∀ d : Fin 8, s.MayWrite p (oStallMax d.val) →
      ∃ t, exec (.xbarStallMaxClear p d) s = .next t ∧ fld (t.reg (oStallMax d.val)) 23 0 = 0 ∧
        s.SameRegs t [oStallMax d.val] ∧ t = { s with regs := t.regs, out := .writeStatus p stOk :: s.out }) ∧
    (∀ v, s.MayWrite p oInject →
      (s.residentOn (fld v 10 8) = false →
        ∃ t, exec (.memInjectArm p v) s = .next t ∧ bit (t.reg oInject) 31 = true ∧
          (t.reg oInject) &&& 0x0000773F#32 = v &&& 0x0000773F#32 ∧ s.SameRegs t [oInject] ∧
          t = { s with regs := t.regs, out := .writeStatus p stOk :: s.out }) ∧
      (s.residentOn (fld v 10 8) = true →
        ∃ t, exec (.memInjectArm p v) s = .next t ∧ s.SameRegs t [oErrLog .a, oErrLog .b] ∧
          t = { s with regs := t.regs, out := .writeStatus p stDenied :: s.out })) ∧
    ∀ k : Fin 8, s.MayWrite p (oPres k.val) →
      ∃ t, exec (.rstPresValidClear p k) s = .next t ∧ bit (t.reg (oPres k.val)) 31 = false ∧ s.SameRegs t [oPres k.val] ∧
        (∀ e, e ∈ t.preserved ↔ e ∈ s.preserved ∧ e.1 ≠ k.val) ∧
        (∀ f, f ∈ t.frames ↔ f ∈ s.frames ∧ ∀ e ∈ s.preserved, e.1 = k.val → f ≠ entryKey e.2.2) ∧
        t = { s with regs := t.regs, preserved := t.preserved, frames := t.frames,
                     out := .writeStatus p stOk :: s.out }

/-- CLK_SSC_WRITE stores DEPTH and RATE at the nearer bound, in force at once when no step is in flight and otherwise later;
with it a running group clock that its lowest point would take below the floor rises, unless hard throttle holds.
CLK_EN_WRITE of a package or block enable stores the written bits unless it would clear the enable of a block in use, when it
answers DENIED and changes no register but the port's log; the two words of a core enable are staged and then applied together,
a retired core's enable staying 0. -/
def Obligations.ClockWrites : Prop :=
  (∀ (p : Path) (v : Word) (s : State), s.MayWrite p oClkSsc →
    ∃ t, exec (.clkSscWrite p v) s = .next t ∧ fld (t.reg oClkSsc) 4 0 = min 20 (fld v 4 0) ∧
      fld (t.reg oClkSsc) 20 13 = min 200 (max 20 (fld v 20 13)) ∧ bit (t.reg oClkSsc) 31 = bit v 31 ∧
      s.SameRegs t [oClkSsc] ∧ t.power.ssc = (if s.attempt.isNone then t.reg oClkSsc else s.power.ssc) ∧
      t.power.clocks = (if s.attempt.isNone && !s.power.hard then
        s.power.clocks.map fun f => if f = 0 then 0 else max f t.lowMhz else s.power.clocks) ∧
      t = { s with regs := t.regs, power := { s.power with ssc := t.power.ssc, clocks := t.power.clocks },
                   out := .writeStatus p stOk :: s.out }) ∧
  (∀ (p : Path) (o : Nat) (v : Word) (s : State), (o = oClkEnPkg ∨ ∃ d < 8, o = oClkEnBlk d) → s.MayWrite p o →
    (s.reg o &&& ~~~ v &&& s.usedEnables o = 0#32 →
      ∃ t, exec (.clkEnWrite p o v) s = .next t ∧
        (∀ j, bit (t.reg o) j = if j < (if o = oClkEnPkg then 3 else 26) then bit v j else bit (s.reg o) j) ∧
        s.SameRegs t [o] ∧ t = { s with regs := t.regs, out := .writeStatus p stOk :: s.out }) ∧
    (s.reg o &&& ~~~ v &&& s.usedEnables o ≠ 0#32 →
      ∃ t, exec (.clkEnWrite p o v) s = .next t ∧ s.SameRegs t [oErrLog .a, oErrLog .b] ∧
        t = { s with regs := t.regs, out := .writeStatus p stDenied :: s.out })) ∧
  ∀ (p : Path) (d : Fin 8) (lo hi : Word) (s : State), s.MayWrite p (oClkEnCoreLo d.val) → s.MayWrite p (oClkEnCoreHi d.val) →
    s.usedEnables (oClkEnCoreLo d.val) = 0#32 → s.usedEnables (oClkEnCoreHi d.val) = 0#32 →
    ∃ u t, exec (.clkEnWrite p (oClkEnCoreLo d.val) lo) s = .next u ∧ s.SameRegs u [] ∧
      exec (.clkEnWrite p (oClkEnCoreHi d.val) hi) u = .next t ∧ s.SameRegs t [oClkEnCoreLo d.val, oClkEnCoreHi d.val] ∧
      (∀ j < 32, bit (t.reg (oClkEnCoreLo d.val)) j = (bit lo j && !s.coreRetired d.val j)) ∧
      (∀ j < 16, bit (t.reg (oClkEnCoreHi d.val)) j = (bit hi j && !s.coreRetired d.val (32 + j))) ∧
      assoc (pathKey p (oClkEnCoreLo d.val)) t.staged = none ∧
      t = { s with regs := t.regs, staged := t.staged, out := .writeStatus p stOk :: .writeStatus p stOk :: s.out }

/-- On a die that the member carries, a break completes with OK. One that names the island that `CLK_MUX_STAT_d` reports as hung clears the
hang and asserts the island's reset: a core reset for a core, which leaves the other hung islands and every window register but the cause
and the multiplexer status as they are, and a die reset for any other island. A break of another island only answers OK. -/
def Obligations.BreakOfHungMultiplexer : Prop :=
  ∀ (p : Path) (d : Fin 8) (n : Fin 128) (s : State), s.MayWrite p (oMuxBreak d.val) → s.dead = false →
    s.pkgInReset = false → d.val < s.fuses.dies →
    let reported := s.hung.find? (fun k => k / 128 = d.val) = some (d.val * 128 + n.val)
    ∃ t, exec (.clkMuxBreak p d n) s = .next t ∧ t.out.head? = some (.writeStatus p stOk) ∧
      (¬ reported → t = { s with out := .writeStatus p stOk :: s.out }) ∧
      (reported → d.val * 128 + n.val ∉ t.hung ∧ bit (t.reg (oDieCause d.val)) 2 = true) ∧
      (reported → (h : n.val < 48) → t.inReset (.core d ⟨n.val, h⟩) = true ∧
        (∀ k, k ∈ t.hung ↔ k ∈ s.hung ∧ k ≠ d.val * 128 + n.val) ∧ s.SameRegs t [oDieCause d.val, oMuxStat d.val] ∧
        (∀ k, localKeyCore k ≠ d.val * 48 + n.val → peek 0#8 t.locals k = peek 0#8 s.locals k) ∧
        t = { s with regs := t.regs, rst := t.rst, hung := t.hung, locals := t.locals, localPoison := t.localPoison,
                     localFlips := t.localFlips, vregs := t.vregs, vregPoison := t.vregPoison,
                     out := .writeStatus p stOk :: s.out }) ∧
      (reported → 48 ≤ n.val → t.inReset (.die d) = true ∧ ∀ k ∈ t.hung, k / 128 ≠ d.val)

/-- FAB_CABLE_WRITE sets the entry (VALID, switch port, switch) at once and stores it in the board configuration block; the
other entries, and every register but the cable and port states, stay, and so does all else; but where a cable's new state brings a port
back into the mask, requests that waited for one leave. -/
def Obligations.CablePlanWrite : Prop :=
  ∀ (p : Path) (k : Fin 32) (v : Word) (s : State), s.MayWrite p (oCable k.val) →
    ∃ t, exec (.fabCableWrite p k v) s = .next t ∧ t.reg (oCable k.val) = v &&& 0x80FFFFFF#32 ∧
      (∀ o, o ≠ oCable k.val → ¬ (0x20_0100 ≤ o ∧ o < 0x20_0180) → ¬ (0x20_0200 ≤ o ∧ o < 0x20_0280) → t.reg o = s.reg o) ∧
      window (0x90 + 4 * k.val) 4 t.flash.bcb = leBytes 4 (v &&& 0x80FFFFFF#32).toNat ∧
      (∀ i, i < 0x1FC → (i < 0x90 + 4 * k.val ∨ 0x94 + 4 * k.val ≤ i) → t.flash.bcb[i]? = s.bcbBytes[i]?) ∧
      t.out.head? = some (.writeStatus p stOk) ∧
      ((∀ o ∈ s.outst, o.plane ≠ none) → t.outst = s.outst ∧ t.out = .writeStatus p stOk :: s.out) ∧
      t = { s with regs := t.regs, flash := { s.flash with bcb := t.flash.bcb }, outst := t.outst, out := t.out }

/-- RING_ENABLE of an off pair: with 4 KiB-aligned bases and sizes of 2^6 to 2^16 it runs with every index 0, and otherwise it
is in error with CAUSE bad base or size; TQ_EN is set with it. Of a pair that is not off it changes the pair's state in nothing.
RING_DISABLE makes a running or failed pair drain, with its indices kept, or stop at once when nothing is open or held. All
else stays. -/
def Obligations.RingEnableAndDisable : Prop :=
  ∀ (p : Path) (port : EPort) (i : Fin 64) (s : State), s.MayWrite p (oRingCtl port i.val) →
    let good := (∀ k < 3, s.reg (oRing port i.val + 8 * k) &&& 0xFFF#32 = 0#32) ∧
      ∀ k < 3, 6 ≤ fld (s.reg (oRingSize port i.val)) (8 * k + 4) (8 * k) ∧ fld (s.reg (oRingSize port i.val)) (8 * k + 4) (8 * k) ≤ 16
    (∀ tq, ∃ t, exec (.ringEnable p port i tq) s = .next t ∧ bit (t.reg (oRingCtl port i.val)) 0 = true ∧
      s.SameRegs t [oRingCtl port i.val] ∧
      ((s.pair port i.val).state = .off → bit (t.reg (oRingCtl port i.val)) 1 = tq ∧
        (good → t.pair port i.val = { Pair.off with state := .running }) ∧
        (¬ good → t.pair port i.val = { Pair.off with state := .error, cause := 2 })) ∧
      ((s.pair port i.val).state ≠ .off → t.pair port i.val = s.pair port i.val ∧
        bit (t.reg (oRingCtl port i.val)) 1 = bit (s.reg (oRingCtl port i.val)) 1) ∧
      (∀ q j, (q ≠ port ∨ j ≠ i.val) → t.pair q j = s.pair q j) ∧
      t = { (s.setPort port { s.port port with pairs := (t.port port).pairs }) with
              regs := t.regs, out := .writeStatus p stOk :: s.out }) ∧
    ((s.pair port i.val).state = .running ∨ (s.pair port i.val).state = .error →
      ∃ t, exec (.ringDisable p port i) s = .next t ∧ bit (t.reg (oRingCtl port i.val)) 0 = false ∧
        s.SameRegs t [oRingCtl port i.val] ∧
        (let gone := s.openCount port i.val = 0 ∧ ∀ r ∈ (s.port port).held, r.pair ≠ i.val
         (gone → t.pair port i.val = { s.pair port i.val with state := .off }) ∧
           (¬ gone → t.pair port i.val = { s.pair port i.val with state := .draining })) ∧
        (∀ q j, (q ≠ port ∨ j ≠ i.val) → t.pair q j = s.pair q j) ∧
        t = { (s.setPort port { s.port port with pairs := (t.port port).pairs }) with
                regs := t.regs, out := .writeStatus p stOk :: s.out })

/-- INT_STRICT_WRITE from a state with no bit set, setting the bit of one context: the area takes four free frames of the lowest
die in service that has them, and without such a die the write is refused and the bit stays 0. Clearing the only bit, with no
record waiting for the context, frees the frames of its area. -/
def Obligations.StrictAreaFrames : Prop :=
  ∀ (p : Path) (c : Fin 64) (s : State), s.MayWrite p oStrictLo → s.MayWrite p oStrictHi →
    let lo := if c.val < 32 then BitVec.ofNat 32 (2 ^ c.val) else 0#32
    let hi := if c.val < 32 then 0#32 else BitVec.ofNat 32 (2 ^ (c.val - 32))
    (s.reg oStrictLo = 0#32 → s.reg oStrictHi = 0#32 → s.strictAreas = [] →
      (∀ d, s.diesInService.find? (fun d => 4 ≤ s.freeCount d) = some d → ∃ t ks, exec (.intStrictWrite p lo hi) s = .next t ∧
        t.reg oStrictLo = lo ∧ t.reg oStrictHi = hi ∧ t.strictAreas = [(c.val, ks)] ∧ ks.length = 4 ∧ ks.Nodup ∧
        (∀ k ∈ ks, k ∉ s.frames ∧ k / 2 ^ 15 = d) ∧ (∀ k, k ∈ t.frames ↔ k ∈ s.frames ∨ k ∈ ks) ∧
        s.SameRegs t [oStrictLo, oStrictHi] ∧
        t = { s with regs := t.regs, staged := t.staged, strictAreas := t.strictAreas, frames := t.frames,
                     out := .writeStatus p stOk :: .writeStatus p stOk :: s.out }) ∧
      (s.diesInService.find? (fun d => 4 ≤ s.freeCount d) = none → ∃ t, exec (.intStrictWrite p lo hi) s = .next t ∧
        s.SameRegs t [oErrLog .a, oErrLog .b] ∧
        t = { s with regs := t.regs, staged := t.staged, out := .writeStatus p stDenied :: .writeStatus p stOk :: s.out })) ∧
    (∀ ks, s.reg oStrictLo = lo → s.reg oStrictHi = hi → s.strictAreas = [(c.val, ks)] → (∀ r ∈ s.strict, r.ctx ≠ c.val) →
      ∃ t, exec (.intStrictWrite p 0#32 0#32) s = .next t ∧ t.reg oStrictLo = 0#32 ∧ t.reg oStrictHi = 0#32 ∧
        t.strictAreas = [] ∧ (∀ k, k ∈ t.frames ↔ k ∈ s.frames ∧ k ∉ ks))

/-- From the I3C path with the key value: the staged hash is fused and enabled when no owner is fused, the package is not in
recovery, the running image's owner signature verifies and its key hashes to the staged value; in every other case the write
answers DENIED and no fuse changes. From another path, or without the key value, it answers OK and changes nothing. -/
def Obligations.OwnerFuse : Prop :=
  ∀ (p : Path) (v : Word) (s : State), s.MayWrite p oOwnerFuse →
    let staged := bytesOf ((List.range 8).map fun k => s.reg (oOwnerStage k))
    let fits := s.fuses.ownerEn = false ∧ s.recovery = false ∧ s.boot.ownerOk = true ∧ sm3 s.boot.ownerKey = staged
    (p = .i3c → fld v 15 0 = 0x4F57 → fits → exec (.secOwnerFuse p v) s = .next
      { s with fuses := { s.fuses with ownerHash := staged, ownerEn := true }, out := .writeStatus p stOk :: s.out }) ∧
    (p = .i3c → fld v 15 0 = 0x4F57 → ¬ fits → exec (.secOwnerFuse p v) s = .next
      { s with out := .writeStatus p stDenied :: s.out }) ∧
    (p ≠ .i3c ∨ fld v 15 0 ≠ 0x4F57 → exec (.secOwnerFuse p v) s = .next { s with out := .writeStatus p stOk :: s.out })

/-- ETH_SETUP_CMD reads the setup record from host memory and applies it: port speeds, and every target in use is connected
and every other is not. RETRAIN takes an Etcen port that may train back to training and keeps MAX_GEN and ALLOW_X4. RESUME on
the lead of a degraded partition makes every member of the list count as in service again, and a member whose buddy was lost writes its mirror
to it again. -/
def Obligations.SetupRetrainResume : Prop :=
  (∀ (p : Path) (h : HostView) (r : List Word) (s : State), s.MayWrite p oEthCmd → hostWords h (s.reg64 oEthLo) 512 = some r →
    ∃ t, exec (.ethSetupCmd p h) s = .next t ∧ t.eth = { s.eth with setup := r } ∧
      (∀ k : Fin 2, fld (t.reg (oEthStat k.val)) 2 0 = if fieldAt r (0x40 * k.val) 2 0 ≤ 4 then fieldAt r (0x40 * k.val) 2 0 else 0) ∧
      (∀ n : Fin 16, t.conn n.val = if bit (wordAt r (tgtAt n.val)) 0 then 1 else 0) ∧
      s.SameRegs t [oEthStat 0, oEthStat 1, oTgtStat] ∧ t = { s with regs := t.regs, eth := t.eth, out := t.out }) ∧
  (∀ (p : Path) (port : EPort) (s : State), s.MayWrite p (oLinkCtl port) → s.etcenReady port = true →
    ∃ t, exec (.retrain p port) s = .next t ∧ t.reg (oLinkStat port) = 1#32 ∧
      s.reg (oLinkCtl port) &&& 7#32 = t.reg (oLinkCtl port) &&& 7#32 ∧ s.SameRegs t [oLinkCtl port, oLinkStat port] ∧
      t = { s with regs := t.regs, out := .writeStatus p stOk :: s.out }) ∧
  ∀ (p : Path) (s : State), s.MayWrite p oIntStat → s.isLead = true → s.degraded = true →
    ∃ t, exec (.resume p) s = .next t ∧ t.degraded = false ∧ t.inService = t.members ∧ t.members = s.members ∧
      ((∀ e ∈ s.ctxs, e.2.bookMatch = false) ∨ s.lostNodes.contains s.buddyNode = false → t.outst = s.outst ∧ t.nextTag = s.nextTag) ∧
      t = { s with regs := t.regs, lostNodes := [], portA := t.portA, portB := t.portB, outst := t.outst, nextTag := t.nextTag, out := t.out }

/-- With no other command queued and the context's step idle, on valid pages of an active context that is not torn down:
MAKE_READ_ONLY and MAKE_WRITABLE with a TIER other than the fabric (whose lender is asked first) set WRITABLE of exactly the named pages and end with OK; MOVE of read-only pages to a die takes a free frame there
for the first page that lies elsewhere and sets MIGRATING, with reads still at the old place; and the end of the last page's copy
points the entry at the new frame, clears MIGRATING, frees the old frame and ends the command with OK. A page that moves back from the fabric
tier is asked of its lender line by line. Every page not named, and every byte outside the new frame, stays; entries that change leave the
translation caches. -/
def Obligations.PlacementCommands : Prop :=
  ∀ (p : Path) (s : State) (c : Fin 64) (x : Ctx), s.ctx c.val = some x → x.state = .active → x.teardown = none →
    s.planned x.job = false →
    (∀ (first count : Nat) (w : Bool) (target : Word), s.MayWrite p (oPlace p) → s.places = [] → s.swaps = [] →
      0 < count → count < 2 ^ 26 → first < 2 ^ 26 → first + count ≤ x.range → fld target 5 0 = c.val →
      fld target 13 12 ≠ 2 → (∀ g, first ≤ g → g < first + count → entryValid (x.page g) = true ∧ (w = true → entryFabric (x.page g) = false)) →
      ∃ t y, exec (if w then Instr.memPlaceMakeWritable p target (BitVec.ofNat 32 first) (BitVec.ofNat 32 count)
          else Instr.memPlaceMakeReadOnly p target (BitVec.ofNat 32 first) (BitVec.ofNat 32 count)) s = .next t ∧
        t.ctx c.val = some y ∧ y = { x with pages := y.pages } ∧
        (∀ g, y.page g = if first ≤ g ∧ g < first + count then setWritable (x.page g) w else x.page g) ∧
        (∀ k, k ≠ c.val → t.ctx k = s.ctx k) ∧ t.places = [] ∧ fld (t.reg (oPlace p + 0x10)) 1 0 = 2 ∧
        fld (t.reg (oPlace p + 0x14)) 26 0 = count ∧
        t = { s with regs := t.regs, ctxs := t.ctxs, xlate := t.xlate, out := t.out }) ∧
    (∀ (first count die k : Nat) (target : Word), s.MayWrite p (oPlace p) → s.places = [] → (∀ w ∈ s.swaps, w.ctx ≠ c.val) →
      0 < count → count < 2 ^ 26 → first < 2 ^ 26 → first + count ≤ x.range → fld target 5 0 = c.val →
      fld target 13 12 = 1 → bit target 11 = false → fld target 10 8 = die → s.stacks.contains die = true →
      (∀ g, first ≤ g → g < first + count → entryValid (x.page g) = true ∧ entryWritable (x.page g) = false) →
      ¬ (entryHbm (x.page first) = true ∧ entryDie (x.page first) = die) → s.freeFrame die = some k →
      ∃ t y q, exec (.memPlaceMove p target (BitVec.ofNat 32 first) (BitVec.ofNat 32 count)) s = .next t ∧
        t.ctx c.val = some y ∧ y.page first = setMigrating (x.page first) true ∧ (∀ g, g ≠ first → y.page g = x.page g) ∧
        (∀ f, f ∈ t.frames ↔ f ∈ s.frames ∨ f = k) ∧ t.places = [q] ∧ q.copying = some k ∧ q.next = first ∧
        q.last = first + count ∧ fld (t.reg (oPlace p + 0x10)) 1 0 = 1 ∧
        (entryFabric (x.page first) = false → t.outst = s.outst ∧ t.nextTag = s.nextTag) ∧
        (entryFabric (x.page first) = true → ∃ new, t.outst = s.outst ++ new ∧ new.length = 256 ∧
          ∀ o ∈ new, o.dst = entryNode (x.page first) ∧ o.req.op = .read 64) ∧
        t = { s with regs := t.regs, ctxs := t.ctxs, frames := t.frames, places := t.places, out := t.out, outst := t.outst, nextTag := t.nextTag,
                     swaps := s.swaps.map fun w => if w.path = some p then { w with path := none } else w }) ∧
    ∀ (q : Place) (k : Nat), s.places = [q] → q.path = p → q.ctx = c.val → q.started = true → q.fabric = false →
      q.copying = some k → q.next + 1 = q.last → s.swaps = [] → s.hbmFlips = [] → bit (s.reg oInject) 31 = false →
      s.attempt = none → entryHbm (x.page q.next) = true → entryKey (x.page q.next) ≠ k →
      ∃ t y, exec (.migrationCopyDone p) s = .next t ∧ t.ctx c.val = some y ∧ y.page q.next = hbmEntry k (entryWritable (x.page q.next)) ∧
        (∀ g, g ≠ q.next → y.page g = x.page g) ∧ t.places = [] ∧ fld (t.reg (oPlace p + 0x10)) 1 0 = 2 ∧
        (∀ f, f ∈ t.frames ↔ f ∈ s.frames ∧ f ∉ s.leaving ∧ f ≠ entryKey (x.page q.next)) ∧
        (∀ a, frameOfByte a ≠ k → peek 0#8 t.hbm a = peek 0#8 s.hbm a)

/-- RST_CMD with LEVEL package warm, a package-scope hot reset from the holder of dowel 15, the management watchdog, `RST_N`
driven low, a critical-state error of the package and the recovery reset each put the package into package warm reset and record
their cause. Every context, descriptor, plan and attempt is gone without completions, every dowel is free with BROKEN at 0, every
register but `RST_CAUSE` and `RST_CMD` keeps exactly its fields kept through a package warm reset, and fuses, flash, retained
memory, `PWR_CAP`, `PWR_SAFE` and the waiting commands survive. -/
def Obligations.WarmResetSources : Prop :=
  ∀ (c : Instr) (src : Nat) (s : State), s.dead = false → s.pkgInReset = false →
    ((∃ p, c = .rstCmdPackageWarm p ∧ src = 2 ∧ s.MayWrite p oRstCmd) ∨
      (∃ port, c = .hotResetPackage port ∧ src = 6 ∧ s.linkUp port = true ∧ s.dowels.getD 15 0 = ownerNo (portPath port)) ∨
      c = .mgmtWatchdog ∧ src = 3 ∨ c = .rstNAssert ∧ src = 1 ∨ c = .criticalStateError .package ∧ src = 4 ∨
      c = .recoverySelfReset ∧ src = 15 ∧ s.recovery = true ∧ s.boot.recoverAt = true) →
    ∃ t, exec c s = .next t ∧ t.inReset .warm = true ∧ (src < 9 → bit (t.reg oRstCause) src = true) ∧
      t.ctxs = [] ∧ t.attempt = none ∧ t.plans = [] ∧ t.opens = [] ∧ t.ships = [] ∧ t.outst = [] ∧
      (∀ n, t.dowels.getD n 0 = 0 ∧ t.broken.getD n false = false) ∧
      (∀ o, o ≠ oRstCause → o ≠ oRstCmd → t.reg o = s.resetValue .warm o (s.reg o)) ∧
      t.mreg mCap = s.mreg mCap ∧ t.mreg mSafe = s.mreg mSafe ∧ s.fuses = t.fuses ∧ s.flash = t.flash ∧
      (∀ k, peek 0#32 t.retained k = peek 0#32 s.retained k) ∧ t.pending = s.pending

/-- 48 V applied, `PWR_OK` low, `PWR_OK` rising on a package that has not tripped, and the loss of the input put the package into
cold reset: `RST_CAUSE` holds POWER_ON alone, every register returns to what survives a cold reset, `PWR_CAP` and `PWR_SAFE` are
at class B and the minimum cap, retained memory reads 0, no work is left, and fuses, flash and the waiting commands survive.
Loss of the input also releases `THERMTRIP_N` and leaves the package off. -/
def Obligations.ColdResetSources : Prop :=
  ∀ (c : Instr) (s : State),
    (c = .powerApplied ∧ s.rst.powered = false ∨ c = .pwrOkFall ∧ s.rst.powered = true ∨
      c = .pwrOkRise ∧ s.rst.powered = true ∧ bit (s.reg oPinOut) 2 = false ∨ c = .inputLost) →
    ∃ t, exec c s = .next t ∧ t.inReset .cold = true ∧ t.reg oRstCause = 1#32 ∧
      (∀ o, o ≠ oPinOut → t.reg o = s.resetValue .cold o (s.reg o)) ∧
      (bit (t.reg oPinOut) 2 = if c = .inputLost then false else bit (s.reg oPinOut) 2) ∧
      t.mreg mCap = capReset s.fuses.dies ∧ t.mreg mSafe = capReset s.fuses.dies ∧ (∀ k, peek 0#32 t.retained k = 0#32) ∧
      t.ctxs = [] ∧ t.attempt = none ∧ t.opens = [] ∧ (∀ n, t.dowels.getD n 0 = 0 ∧ t.broken.getD n false = false) ∧
      t.fuses = s.fuses ∧ t.flash = s.flash ∧ t.pending = s.pending ∧
      (c = .pwrOkRise → t.rst.pwrOk = true ∧ t.pkg = .on) ∧ (c = .pwrOkFall ∨ c = .powerApplied → t.rst.pwrOk = false) ∧
      (c = .inputLost → t.rst.powered = false ∧ t.pkg = .off) ∧ (c = .powerApplied → t.rst.powered = true)

/-- With no step in flight. A die reset by RST_CMD or a critical-state error drops the die's slices and local SRAM, resets the
die's registers and its ports and records its cause; contexts and HBM stay. A core reset drops that core's local SRAM and no
register but the cause and multiplexer status changes. A port reset of an Etcen port, also by a hot reset of port scope, returns
its ring sets and registers to reset but for the kept fields and discards and counts its held records; a Limfele port goes down.
HOLD is kept for the level named, and a write without GO and HOLD ends it. -/
def Obligations.NarrowResets : Prop :=
  ∀ s : State, s.dead = false → s.pkgInReset = false → s.attempt = none →
    (∀ (p : Path) (d : Fin 8) (hold : Bool) (c : Instr), d.val < s.fuses.dies →
      (c = .rstCmdDie p d hold ∧ s.MayWrite p oRstCmd ∨ c = .criticalStateError (.die d)) →
      ∃ t, exec c s = .next t ∧ t.inReset (.die d) = true ∧
        bit (t.reg (oDieCause d.val)) (if c = .rstCmdDie p d hold then 0 else 1) = true ∧
        (∀ k, peek 0#8 t.slices k = if sliceKeyDie k = d.val then 0#8 else peek 0#8 s.slices k) ∧
        (∀ k, peek 0#8 t.locals k = if localKeyCore k / 48 = d.val then 0#8 else peek 0#8 s.locals k) ∧
        (∀ o, inSpan o (oDieWin d.val) 0x10_0000 = true → t.reg o = s.resetValue .die o (s.reg o)) ∧
        t.ctxs = s.ctxs ∧ t.hbm = s.hbm ∧ t.frames = s.frames ∧ t.fuses = s.fuses ∧ t.retained = s.retained ∧
        t.rst.cmdHold = (if c = .rstCmdDie p d hold ∧ hold = true then some (.die d) else s.rst.cmdHold)) ∧
    (∀ (p : Path) (d : Fin 8) (n : Fin 48) (hold : Bool), s.MayWrite p oRstCmd → d.val < s.fuses.dies →
      ∃ t, exec (.rstCmdCore p d n hold) s = .next t ∧ t.inReset (.core d n) = true ∧ bit (t.reg (oDieCause d.val)) 0 = true ∧
        (∀ k, peek 0#8 t.locals k = if localKeyCore k = d.val * 48 + n.val then 0#8 else peek 0#8 s.locals k) ∧
        s.SameRegs t [oDieCause d.val, oMuxStat d.val, oRstCmd] ∧
        t.rst.cmdHold = (if hold then some (.core d n) else s.rst.cmdHold) ∧
        t = { s with regs := t.regs, rst := t.rst, hung := t.hung, locals := t.locals, localPoison := t.localPoison,
                     localFlips := t.localFlips, vregs := t.vregs, vregPoison := t.vregPoison,
                     out := .writeStatus p stOk :: s.out }) ∧
    (∀ (p : Path) (port : EPort) (hold : Bool) (c : Instr),
      (c = .rstCmdPort p ⟨portNo port, by cases port <;> decide⟩ hold ∧ s.MayWrite p oRstCmd ∨
        c = .hotResetPort port ∧ s.linkUp port = true) →
      ∃ t, exec c s = .next t ∧ t.portInReset (portNo port) = true ∧ (∀ i, t.pair port i = Pair.off) ∧ (t.port port).held = [] ∧
        (∀ o, etcenReg port o = true → o ≠ oDropped port → t.reg o = s.resetValue .port o (s.reg o)) ∧
        (t.reg (oDropped port)).toNat = min (2 ^ 32 - 1) ((s.reg (oDropped port)).toNat + (s.port port).held.length) ∧
        (∀ o, etcenReg port o = false → o ≠ oRstCmd → t.reg o = s.reg o) ∧ t.ctxs = s.ctxs ∧
        t.opens.map (·.id) = s.opens.map (·.id)) ∧
    (∀ (p : Path) (u : Fin 48) (hold : Bool), s.MayWrite p oRstCmd → s.isPort u.val = true →
      ∃ t, exec (.rstCmdPort p u hold) s = .next t ∧ t.portInReset u.val = true ∧
        (16 ≤ u.val → t.limState (u.val - 16) = portDown ∧
          s.SameRegs t [oPortStat (u.val - 16), oCableStat (u.val - 16), oRstCmd]) ∧
        (u.val = 2 ∨ u.val = 3 → t.reg (oEthStat (u.val - 2)) = 0#32) ∧
        t.rst.cmdHold = (if hold then some (.port u) else s.rst.cmdHold)) ∧
    ∀ p : Path, s.MayWrite p oRstCmd → ∃ t, exec (.rstCmdReleaseHold p) s = .next t ∧ s.SameRegs t [oRstCmd] ∧
      t = { s with regs := t.regs, rst := { s.rst with cmdHold := none }, out := .writeStatus p stOk :: s.out }

/-- RESET_RELEASE of a level in reset that a source still holds changes nothing. Once nothing holds it and no wider level is in
reset: a core or port is out of reset (a Limfele port that may train begins and sends its LINK_ID), a die is and its PLLs lock, and a package released from warm or cold level has no level in
reset, has sampled SLOT_ID, runs the boot ROM on the lowest die in service whose controller passes its self-test, and shows
BACKUP when that is not die 0. `RST_N` released from outside only ends that source; after 100 ms of a held clock-loss reset
`FAULT_N` is asserted. -/
def Obligations.ResetReleases : Prop :=
  ∀ (l : RstLevel) (st : List Bool) (slot : Nat) (par : Bool) (s : State), s.inReset l = true →
    (s.heldLevel l = true → exec (.resetRelease l st slot par) s = .next s) ∧
    (∀ d n, l = .core d n → s.rst.cmdHold ≠ some l → s.dieInReset d.val = false → s.attempt = none →
      exec (.resetRelease l st slot par) s =
        .next { s with rst := { s.rst with active := s.rst.active.filter fun e => e.1 != l } }) ∧
    (∀ d : Fin 8, l = .die d → s.rst.cmdHold = none → s.pkgInReset = false → s.dieOut d.val = false →
      ∃ t, exec (.resetRelease l st slot par) s = .next t ∧ t.inReset l = false ∧
        fld (t.reg (oClkPll d.val)) 3 0 = (if d.val < 2 then 15 else 7)) ∧
    (∀ u : Fin 48, l = .port u → s.rst.cmdHold ≠ some l → s.dieInReset (portDie u.val) = false →
      ∃ t, exec (.resetRelease l st slot par) s = .next t ∧ t.inReset l = false ∧ (u.val < 4 → t.out = s.out) ∧
        (4 ≤ u.val → ∀ k < 32, s.limState k = 0 → t.limState k = 1 →
          Out.flit k (flit 0 4095 0 flitLinkId true true (wordBytes [s.node, k])) ∈ t.out) ∧
        t = { s with regs := t.regs, rst := t.rst, out := t.out }) ∧
    (∀ p ps, l = .cold ∨ l = .warm ∧ s.inReset .cold = false → s.heldLevel l = false → s.heldLevel .warm = false →
      s.rst.cmdHold = none → (s.retireUnits.passing st) = p :: ps → par = true →
      ∃ t, exec (.resetRelease l st slot par) s = .next t ∧ t.rst.active = [] ∧ t.rst.slotId = slot % 16 ∧ t.bootState = 1 ∧
        fld (t.reg oBootStat) 10 8 = p % 8 ∧ bit (t.reg oBootStat) 17 = decide (p ≠ 0)) ∧
    exec .rstNRelease s = .next { s with rst := { s.rst with rstN := false } } ∧
    (l = .warm → s.rst.clockHold ≠ [] → ∃ t, exec .clockLossFaultN s = .next t ∧ bit (t.reg oPinOut) 0 = true ∧
      s.SameRegs t [oPinOut] ∧ t = { s with regs := t.regs })

/-- XB_START_DELAY ends the wait: an XB that passes its gauge becomes the reference when its mode says so, and one that fails
sets XB_FAIL. The ready report comes once firmware runs and every die in service is out of reset, with die 0 or 1 in service: the
boot state is ready, the fused version becomes the larger of itself and the image's, up to 64, and no other fuse changes. -/
def Obligations.BootEvents : Prop :=
  ∀ s : State,
    (s.boot.xbWait = true → ∀ pass, ∃ t, exec (.xbStartDelayEnd pass) s = .next t ∧
      (pass = true → bit (t.reg oClkSrc) 8 = decide (s.xbMode = 2) ∧ bit (t.reg oClkSrc) 9 = bit (s.reg oClkSrc) 9) ∧
      (pass = false → bit (t.reg oClkSrc) 9 = true ∧ bit (t.reg oClkSrc) 8 = bit (s.reg oClkSrc) 8) ∧
      s.SameRegs t [oClkSrc] ∧ t = { s with regs := t.regs, boot := { s.boot with xbWait := false } }) ∧
    (s.bootState = 3 → s.pkgInReset = false → s.dead = false → (∀ d ∈ s.diesInService, s.dieInReset d = false) →
      (s.dieOut 0 = false ∨ s.dieOut 1 = false) →
      ∃ t, exec .readyReport s = .next t ∧ t.bootState = 4 ∧ t.boot.ready = true ∧
        t = { s with regs := t.regs, boot := t.boot, out := t.out,
                     fuses := { s.fuses with svn := min 64 (max s.fuses.svn (fld (s.reg oSvn) 15 8)) } })

/-- A WINDOW_READ of count words reads one offset after the other, each on the state that the read before left. When every word
answers OK it returns them all with OK; at the first word with another status it returns the words before it with that status,
and reads no further. A word that is the `_HI` of the word before it is the `_HI` value as it was when `_LO` was read. -/
def Obligations.WindowReadStops : Prop :=
  ∀ (o count : Nat) (s : State), s.Managed → 1 ≤ count → count ≤ 16 → ∀ j, j ≤ count → (∀ k < j, (s.wordRead o k).1 = stOk) →
    let words := (List.range j).map fun k => (s.wordRead o k).2
    (j = count → exec (.windowRead o count) s = .next ((s.afterReads o j).emit (.mgmt stOk words))) ∧
    (j < count → (s.wordRead o j).1 ≠ stOk →
      exec (.windowRead o count) s = .next ((s.afterReads o (j + 1)).emit (.mgmt (s.wordRead o j).1 words))) ∧
    ∀ k, k + 1 < j → hiOf (o + 4 * k) = some (o + 4 * (k + 1)) →
      (s.wordRead o (k + 1)).2 = (s.afterReads o k).readValue .i3c (o + 4 * (k + 1))

/-- MGMT_READ answers with the register or DENIED where the space has none. A write of `PWR_CAP` in its class's range with a legal
ORDER is stored, copied into `BKUP_0`, and in force at once when no step is in flight and no condition holds, when every running
clock is at or above the floor of its class; during a step it waits. Outside the range it answers DENIED and changes nothing.
`PWR_SAFE` likewise is copied into `BKUP_1`. A kick ends the expired heartbeat. `THERM_d.CLEAR` sets MAX to HOT. -/
def Obligations.PowerRegisters : Prop :=
  ∀ s : State, s.Managed →
    (∀ o, exec (.mgmtRead o) s = .next { s with out :=
      (match mReset s.fuses.dies o with | none => .mgmt stDenied [] | some _ => .mgmt stOk [s.mreg o]) :: s.out }) ∧
    (∀ (v : Word) (c : Instr), c = .pwrCapWrite v ∨ c = .mgmtWrite 0x000 v →
      let w := v &&& 0xF0001FFF#32
      let legal := capInRange s.fuses.dies w = true ∧ fld v 30 28 < 6
      (¬ legal → exec c s = .next { s with out := .mgmt stDenied [] :: s.out }) ∧
      (legal → ∃ t, exec c s = .next t ∧ t.mreg mCap = w ∧ t.reg (oBkup 0) = w ∧ s.SameRegs t [oBkup 0] ∧
        s.SameMregs t [mCap, mStat] ∧ t = { s with regs := t.regs, mregs := t.mregs, power := t.power, out := .mgmt stOk [] :: s.out } ∧
        (s.attempt ≠ none → t.power = { s.power with waiting := some w, capHeld := t.power.capHeld } ∧ (t.power.capHeld = true ↔
          (s.power.condition = true ∨ s.thermalLow = true) ∧ s.power.cap ≤ fld v 11 0)) ∧
        (s.attempt = none → s.power.condition = false → s.thermalLow = false →
          t.power.cap = fld v 11 0 ∧ t.power.classB = bit v 12 ∧ t.power.order = fld v 30 28 ∧ t.power.phaseLearned = bit v 31 ∧
          t.power.waiting = none ∧ fld (t.mreg mStat) 11 0 = t.effCap % 2 ^ 12 ∧
          (t.power.hard = false → ∀ f ∈ t.power.clocks, f = 0 ∨ t.floorMhz ≤ f)))) ∧
    (∀ (v : Word) (c : Instr), c = .pwrSafeWrite v ∨ c = .mgmtWrite 0x004 v →
      let w := v &&& 0x00FF1FFF#32
      (capInRange s.fuses.dies w = false → exec c s = .next { s with out := .mgmt stDenied [] :: s.out }) ∧
      (capInRange s.fuses.dies w = true → ∃ t, exec c s = .next t ∧ t.mreg mSafe = w ∧ t.reg (oBkup 1) = w ∧
        s.SameRegs t [oBkup 1] ∧ s.SameMregs t [mSafe, mStat] ∧
        t = { s with regs := t.regs, mregs := t.mregs, power := { s.power with clocks := t.power.clocks },
                     out := .mgmt stOk [] :: s.out })) ∧
    (∃ t, exec .kick s = .next t ∧ t.power.hbExpired = false ∧ bit (t.mreg mStat) 22 = false ∧ s.SameMregs t [mStat] ∧
      t = { s with mregs := t.mregs, power := t.power, out := .mgmt stOk [] :: s.out }) ∧
    ∀ d : Fin 8, d.val < s.fuses.dies → ∃ t, exec (.thermClear d) s = .next t ∧
      fld (t.mreg (mTherm d.val)) 15 8 = fld (s.mreg (mTherm d.val)) 7 0 ∧
      fld (t.mreg (mTherm d.val)) 7 0 = fld (s.mreg (mTherm d.val)) 7 0 ∧ s.SameMregs t [mTherm d.val] ∧
      t = { s with mregs := t.mregs, out := .mgmt stOk [] :: s.out }

/-- After FAULT_CLEAR the history holds exactly the entries with EVENT 0x6, in their order; retirements and pending retirements
are as before, and so is all else but the answer. -/
def Obligations.FaultClearKeepsClassings : Prop :=
  ∀ s : State, s.Managed → ∃ t, exec .faultClear s = .next t ∧ (∀ e, e ∈ t.flash.history ↔ e ∈ s.flash.history ∧ e.event = 6) ∧
    t.flash.history.Sublist s.flash.history ∧ t.flash.retired = s.flash.retired ∧
    (∀ kinds, t.retirePending kinds = s.retirePending kinds) ∧
    t = { s with flash := { s.flash with history := t.flash.history }, out := .mgmt stOk [] :: s.out }

/-- MEMBER_SET without a context and with an ascending list of at most 4,096 nodes that holds this package's sets PARTITION, the
member list and MEMBERS, and the partition is not degraded; otherwise it answers DENIED and changes nothing. BCB_WRITE within the
512 bytes writes the bytes below the CRC field, makes the CRC again and leaves every other byte; beyond the block it answers
DENIED (log entry 35). -/
def Obligations.MemberSetAndBcbWrite : Prop :=
  ∀ s : State, s.Managed →
    (∀ (part : Nat) (nodes : List Nat),
      let ok := s.ctxs = [] ∧ nodes.Pairwise (· < ·) ∧ s.node ∈ nodes ∧ nodes.length ≤ 4096
      (¬ ok → exec (.memberSet part nodes) s = .next { s with out := .mgmt stDenied [] :: s.out }) ∧
      (ok → ∃ t, exec (.memberSet part nodes) s = .next t ∧ fld (t.reg oFabPart) 5 0 = part % 64 ∧ t.members = nodes ∧
        (nodes.length < 4096 → fld (t.readValue .i3c oFabPart) 28 16 = nodes.length) ∧ t.degraded = false ∧
        s.SameRegs t [oFabPart, oIntStat] ∧
        t = { s with regs := t.regs, members := nodes, lostNodes := [], lead := .empty, departed := s.power.vinFailing,
                     out := .mgmt stOk [] :: s.out })) ∧
    ∀ (o : Nat) (bs : List Byte),
      (512 < o + bs.length → exec (.bcbWrite o bs) s = .next { s with out := .mgmt stDenied [] :: s.out }) ∧
      (o + bs.length ≤ 512 → ∃ t, exec (.bcbWrite o bs) s = .next t ∧ t.flash.bcb.length = 512 ∧
        (∀ i, i < 0x1FC → t.flash.bcb[i]? = if o ≤ i ∧ i < o + bs.length then bs[i - o]? else s.bcbBytes[i]?) ∧
        word t.flash.bcb 0x1FC = crc32 (window 0 0x1FC t.flash.bcb) ∧
        t = { s with flash := { s.flash with bcb := t.flash.bcb }, out := .mgmt stOk [] :: s.out })

/-- IDLE_ENTRY takes an idle ON package to IDLE, or on to the NAP or SLEEP that waits. STATE_SET NAP waits while ON and enters NAP
from IDLE, where the dies' slices and local SRAM lose their contents and contexts and HBM stay; SLEEP with a context answers
DENIED and changes nothing, and without one waits while ON and from IDLE or NAP enters SLEEP with every fabric port down; IDLE
ends NAP and SLEEP and cancels what waits; OFF leaves the package off in cold reset. -/
def Obligations.LowPowerStates : Prop :=
  ∀ s : State,
    let lost (t : State) := (∀ k, sliceKeyDie k < s.fuses.dies → peek 0#8 t.slices k = 0#8) ∧
      ∀ k, localKeyCore k / 48 < s.fuses.dies → peek 0#8 t.locals k = 0#8
    (s.dead = false → s.pkg = .on → s.plans = [] → s.attempt = none →
      ∃ t, exec .idleEntry s = .next t ∧ t.power = { s.power with waitState := none } ∧ t.ctxs = s.ctxs ∧ t.hbm = s.hbm ∧
        (s.power.waitState = none → t = { s with pkg := .idle, power := t.power }) ∧
        (s.power.waitState = some .nap → t.pkg = .nap ∧ lost t) ∧
        (s.power.waitState = some .sleep → s.ctxs = [] → t.pkg = .sleep ∧ lost t)) ∧
    (s.Managed →
      (s.pkg = .on → exec .stateSetNap s = .next { s with
        power := { s.power with waitState := some .nap }, out := .mgmt stOk [] :: s.out }) ∧
      (s.pkg = .idle → ∃ t, exec .stateSetNap s = .next t ∧ lost t ∧
        t = { s with pkg := .nap, slices := t.slices, slicePoison := t.slicePoison, sliceFlips := t.sliceFlips,
                     locals := t.locals, localPoison := t.localPoison, localFlips := t.localFlips, lines := t.lines,
                     linePoison := t.linePoison, vregs := t.vregs, vregPoison := t.vregPoison, jigStore := t.jigStore, xlate := t.xlate,
                     out := .mgmt stOk [] :: s.out }) ∧
      (s.ctxs ≠ [] → exec .stateSetSleep s = .next { s with out := .mgmt stDenied [] :: s.out }) ∧
      (s.ctxs = [] → s.pkg = .on → exec .stateSetSleep s = .next { s with
        power := { s.power with waitState := some .sleep }, out := .mgmt stOk [] :: s.out }) ∧
      (s.ctxs = [] → s.pkg = .idle ∨ s.pkg = .nap → ∃ t, exec .stateSetSleep s = .next t ∧ t.pkg = .sleep ∧ lost t ∧
        (∀ p < 32, t.limState p = portDown) ∧ (s.node ≠ 0xFFF → s.members ≠ [] → t.departed = true) ∧ t.hbm = s.hbm) ∧
      (s.pkg = .nap → exec .stateSetIdle s = .next { s with
        pkg := .idle, power := { s.power with waitState := none }, out := .mgmt stOk [] :: s.out }) ∧
      (s.pkg = .sleep → ∃ t, exec .stateSetIdle s = .next t ∧ t.pkg = .idle ∧ t.ctxs = s.ctxs ∧ t.hbm = s.hbm) ∧
      ∃ t, exec .stateSetOff s = .next t ∧ t.pkg = .off ∧ t.inReset .cold = true ∧ t.ctxs = [] ∧ t.fuses = s.fuses ∧
        t.flash = s.flash)

/-- Effecter 1 writes `PWR_CAP` with its cap and the staged class, order and mode; effecter 5 writes `PWR_SAFE` with the staged
safe class and the current HB_TIMEOUT; effecter 7 writes HB_TIMEOUT alone. A value that is no multiple of 10 W answers invalid
data and a refused one 0x80 with no change. Effecters 2, 3, 4 and 6 only stage their state. -/
def Obligations.PldmEffecters : Prop :=
  ∀ s : State, s.Managed → s.boot.staged.length = 4 →
    (∀ watts : Nat,
      let w : Word := BitVec.ofNat 32 (watts / 10 + s.boot.staged.getD 0 0 * 2 ^ 12 + s.boot.staged.getD 1 0 * 2 ^ 28 +
        s.boot.staged.getD 2 0 * 2 ^ 31) &&& 0xF0001FFF#32
      let ok := capInRange s.fuses.dies w = true ∧ fld w 30 28 < 6 ∧ watts / 10 ≤ 0xFFF
      (watts % 10 ≠ 0 → exec (.pldmSetPowerCap watts) s = .next { s with out := .pldm .invalidData :: s.out }) ∧
      (watts % 10 = 0 → ¬ ok → exec (.pldmSetPowerCap watts) s = .next { s with out := .pldm .denied :: s.out }) ∧
      (watts % 10 = 0 → ok → ∃ t, exec (.pldmSetPowerCap watts) s = .next t ∧ t.mreg mCap = w ∧ t.reg (oBkup 0) = w ∧
        s.SameRegs t [oBkup 0] ∧ s.SameMregs t [mCap, mStat] ∧
        t = { s with regs := t.regs, mregs := t.mregs, power := t.power, out := .pldm .success :: s.out })) ∧
    (∀ watts : Nat,
      let w : Word := setFld (BitVec.ofNat 32 (watts / 10 + s.boot.staged.getD 3 0 * 2 ^ 12)) 23 16 (fld (s.mreg mSafe) 23 16) &&&
        0x00FF1FFF#32
      (watts % 10 ≠ 0 → exec (.pldmSetSafeCap watts) s = .next { s with out := .pldm .invalidData :: s.out }) ∧
      (watts % 10 = 0 → capInRange s.fuses.dies w = true → watts / 10 ≤ 0xFFF →
        ∃ t, exec (.pldmSetSafeCap watts) s = .next t ∧ t.mreg mSafe = w ∧ t.reg (oBkup 1) = w ∧ s.SameRegs t [oBkup 1] ∧
        s.SameMregs t [mSafe, mStat] ∧ t = { s with
          regs := t.regs, mregs := t.mregs, power := { s.power with clocks := t.power.clocks }, out := .pldm .success :: s.out })) ∧
    (∀ value, value ≤ 255 → capInRange s.fuses.dies (s.mreg mSafe) = true →
      ∃ t, exec (.pldmSetHbTimeout value) s = .next t ∧ fld (t.mreg mSafe) 23 16 = value ∧
        fld (t.mreg mSafe) 12 0 = fld (s.mreg mSafe) 12 0 ∧ t.reg (oBkup 1) = t.mreg mSafe ∧ s.SameRegs t [oBkup 1] ∧
        s.SameMregs t [mSafe, mStat] ∧ t = { s with
          regs := t.regs, mregs := t.mregs, power := { s.power with clocks := t.power.clocks }, out := .pldm .success :: s.out }) ∧
    (∀ id i top, (id, i, top) ∈ [(2, 0, 1), (3, 1, 5), (4, 2, 1), (6, 3, 1)] → ∀ value, value ≤ top →
      exec (.pldmSetStagedEffecter id value) s = .next { s with
        boot := { s.boot with staged := s.boot.staged.set i value }, out := .pldm .success :: s.out })

/-- SET_EVENT_RECEIVER sets the package's receiver and tells a partition reset request that is recorded. A measured input
voltage enters `PWR_IN.VOLTS`, and an event goes out exactly when it crosses 42, 38 or 36 V; a die's temperature enters HOT and
raises MAX; a state sensor's change to the value that the package holds is told once. -/
def Obligations.EventsAreTold : Prop :=
  ∀ s : State, s.Managed →
    (∃ t, exec .setEventReceiver s = .next t ∧ t.boot.receiver = true ∧
      (bit (s.reg oRstCause) 7 = false → t = { s with boot := { s.boot with receiver := true }, out := .pldm .success :: s.out }) ∧
      (bit (s.reg oRstCause) 7 = true → .event 36 1 ∈ t.out ∧ s.SameRegs t [oPinOut] ∧
        t = { s with regs := t.regs, boot := t.boot, out := t.out })) ∧
    (∀ v, v < 2 ^ 16 → ∃ t, exec (.sensorChange 1 v) s = .next t ∧ fld (t.mreg mIn) 15 0 = v ∧
      fld (t.mreg mIn) 31 16 = fld (s.mreg mIn) 31 16 ∧ s.SameMregs t [mIn] ∧
      (s.boot.receiver = true → t.out = if (fld (s.mreg mIn) 15 0 < 4200 ↔ v < 4200) ∧ (fld (s.mreg mIn) 15 0 < 3800 ↔ v < 3800) ∧
        (fld (s.mreg mIn) 15 0 < 3600 ↔ v < 3600) then s.out else .event 1 v :: s.out) ∧
      t = { s with regs := t.regs, mregs := t.mregs, boot := t.boot, out := t.out }) ∧
    (∀ d v, d < s.fuses.dies → d < 8 → v < 256 → ∃ t, exec (.sensorChange (16 + d) v) s = .next t ∧ fld (t.mreg (mTherm d)) 7 0 = v ∧
      fld (t.mreg (mTherm d)) 15 8 = max v (fld (s.mreg (mTherm d)) 15 8) ∧ s.SameMregs t [mTherm d]) ∧
    (∀ sensor v, 32 ≤ sensor → s.fuses.dies ≤ 8 → s.sensorNow sensor = some v → assoc sensor s.boot.sensors ≠ some v →
      s.boot.receiver = true → s.smbus = false →
      ∃ t, exec (.sensorChange sensor v) s = .next t ∧ t.out = .event sensor v :: s.out ∧
        assoc sensor t.boot.sensors = some v ∧ exec (.sensorChange sensor v) t = .next t)

/-- RequestUpdate answers success, or ALREADY_IN_UPDATE_MODE while an update runs. Image data in order is only gathered until the
header and the component table are there; then a failed check of 1 to 7 ends the update with the slot untouched, and a passed one
erases the slot and starts the write. When the write ends well with every component passing check 8, the slot holds exactly the
bytes received and UPDATE_PENDING is set in service, or in recovery the package's own reset is due; otherwise the slot stays without an image. ActivateFirmware of a pending image
answers that it waits for a package warm reset. -/
def Obligations.FirmwareUpdates : Prop :=
  ∀ s : State,
    (s.Managed → (s.boot.update = none → exec .requestUpdate s = .next { s with
        boot := { s.boot with update := some ⟨none, none, 0, [], false, false⟩ }, out := .pldm .success :: s.out }) ∧
      (s.boot.update ≠ none → exec .requestUpdate s = .next { s with out := .pldm .alreadyInUpdateMode :: s.out }) ∧
      (bit (s.reg oBootStat) 18 = true → exec .activateFirmware s = .next { s with out := .pldm .activationWaits :: s.out })) ∧
    (∀ (u : Update) (bs : List Byte), s.Managed → s.boot.update = some u → u.byPort = none → u.started = false →
      u.bytes.length + bs.length ≤ maxImage →
      let got := u.bytes ++ bs
      (headerIn got = false → exec (.pldmImageData u.bytes.length bs) s = .next { s with
        boot := { s.boot with update := some { u with bytes := got } } }) ∧
      (headerIn got = true → authHeader s.fuses got ≠ 0 →
        exec (.pldmImageData u.bytes.length bs) s = .next { s with boot := { s.boot with update := none } }) ∧
      (headerIn got = true → authHeader s.fuses got = 0 → ∃ t, exec (.pldmImageData u.bytes.length bs) s = .next t ∧
        t.flash.image = [] ∧ t.boot.update = some { u with bytes := got, len := imgLen got, started := true } ∧
        bit (t.reg oBootStat) 18 = false ∧ s.SameRegs t [oBootStat] ∧
        t = { s with regs := t.regs, flash := { s.flash with image := [] }, boot := { s.boot with update := t.boot.update } })) ∧
    ∀ (u : Update) (ok : Bool), s.boot.update = some u → u.started = true → u.len ≤ u.bytes.length → u.desc = none →
      (s.recovery = true → ok = true → (∀ e ∈ imgEntries u.bytes, componentOk u.bytes e = true) →
        exec (.updateWriteDone ok) s = .next { s with
          flash := { s.flash with image := u.bytes },
          boot := { s.boot with update := none, recoverAt := decide (authImage s.fuses u.bytes = 0) } }) ∧
      (s.recovery = false → ok = true → (∀ e ∈ imgEntries u.bytes, componentOk u.bytes e = true) → ∃ t, exec (.updateWriteDone ok) s = .next t ∧
        t.flash = { s.flash with image := u.bytes } ∧ bit (t.reg oBootStat) 18 = true ∧ s.SameRegs t [oBootStat] ∧
        t = { s with regs := t.regs, flash := t.flash, boot := { s.boot with update := none } }) ∧
      (ok = false ∨ (∃ e ∈ imgEntries u.bytes, componentOk u.bytes e = false) →
        exec (.updateWriteDone ok) s = .next { s with boot := { s.boot with update := none } })

/-- On a path that the responder is reached on: GET_VERSION, GET_CAPABILITIES and NEGOTIATE_ALGORITHMS take the path's connection
forward and leave the others'; with the algorithms agreed, GET_DIGESTS gives SM3 of the chain of slot 0, GET_CERTIFICATE a portion
of it, CHALLENGE and GET_MEASUREMENTS a signature by the Alias key, or the DeviceID key in recovery; KEY_EXCHANGE and PSK_EXCHANGE
answer UnsupportedRequest. What a signature covers and its nonce are free (log entries 4 and 32). Nothing else changes. -/
def Obligations.SpdmResponses : Prop :=
  ∀ (p : Path) (s : State), s.spdmOn p = true →
    let c := s.spdmConn p
    let moved (t : State) (n : SpdmConn) (r : SpdmRsp) := t.spdmConn p = n ∧ (∀ q, q ≠ p → t.spdmConn q = s.spdmConn q) ∧
      t = { s with boot := { s.boot with spdm := t.boot.spdm }, out := .spdm p r :: s.out }
    let key := if s.recovery then s.deviceKey else s.aliasKey
    (∃ t, exec (.getVersion p) s = .next t ∧ moved t ⟨true, false, false⟩ (.version 1 3)) ∧
    (c.version = true → ∃ t, exec (.getCapabilities p) s = .next t ∧ moved t { c with caps := true } (.capabilities true true true false)) ∧
    (c.caps = true → ∀ a b, ∃ t, exec (.negotiateAlgorithms p a b) s = .next t ∧ moved t { c with algs := a && b } (.algorithms a b)) ∧
    (c.algs = true →
      exec (.getDigests p) s = .next { s with out := .spdm p (.digests (sm3 s.certChain)) :: s.out } ∧
      (∀ off len, exec (.getCertificate p 0 off len) s = .next { s with
        out := .spdm p (.certificate (window off len s.certChain) (s.certChain.length - (off + len))) :: s.out }) ∧
      (∀ nonce, exec (.challenge p nonce) s = .next { s with fresh := s.fresh + 1, out := .spdm p (.challengeAuth nonce
        (sm2Sign key (scalarOf (Config.signNonce s.fresh)) (Config.transcript (sm3 s.certChain ++ nonce)))) :: s.out }) ∧
      ∀ i nonce bs, 1 ≤ i → i ≤ 6 → s.measurement i = some bs → exec (.getMeasurements p i nonce) s = .next { s with
        fresh := s.fresh + 1, out := .spdm p (.measurements [(i, bs)] nonce
          (sm2Sign key (scalarOf (Config.signNonce s.fresh)) (Config.transcript (BitVec.ofNat 8 i :: bs ++ nonce)))) :: s.out }) ∧
    (s.recovery = true → s.measurement 2 = some (List.replicate 32 0#8)) ∧
    exec (.keyExchange p) s = .next { s with out := .spdm p .unsupported :: s.out } ∧
    exec (.pskExchange p) s = .next { s with out := .spdm p .unsupported :: s.out }

/-- A poll does nothing while polling is off, and a nudge then only counts. With polling on, the link-level retries of the reads count in
`EP_ERR`; a failed read puts every running and draining pair into error with CAUSE host read, and paces like one that finds nothing, or to
500 ns after a nudge. A read that finds no new tail, of a draining pair either, takes the heads and doubles the interval up to POLL_MAX,
or keeps 500 ns while busy; a nudge also counts and sets 500 ns. A tail more than N ahead is an overrun, of a draining pair too. A tail one
ahead on the only active pair, not held by a fence, fetches the 64 bytes at the old `SQ_HEAD` and accepts them. Nothing else changes. -/
def Obligations.DoorbellReads : Prop :=
  ∀ (port : EPort) (h : HostView) (s : State), s.linkUp port = true →
    let entry (i : Nat) := hostWords h (s.reg64 (oDbLo port) + 16 * i) 3
    let active := s.activePairs port
    let top := 1000 * max 1 (min 48 (fld (s.reg (oPollCtl port)) 13 8))
    let slow := if s.time < (s.port port).busyUntil then 500 else min top (max 1000 (2 * (s.port port).interval))
    let v := s.linkRetries port h
    let counted (u t : State) := fld (t.reg (oNudge port)) 31 0 = min (2 ^ 32 - 1) (fld (s.reg (oNudge port)) 31 0 + 1) ∧
      u.SameRegs t [oNudge port]
    let size (i : Nat) := 2 ^ fld (s.reg (oRingSize port i)) 4 0
    (fld (v.reg (oEpErr port)) 15 0 = min 0xFFFF (fld (s.reg (oEpErr port)) 15 0 + h.retries) ∧ s.SameRegs v [oEpErr port] ∧
      v = { s with regs := v.regs }) ∧
    (s.polls port = false → exec (.doorbellPoll port h) s = .next s ∧
      ∃ t, exec (.nudge port h) s = .next t ∧ counted s t ∧ t = { s with regs := t.regs }) ∧
    (s.polls port = true → (∃ i ∈ active, entry i = none) →
      let failed (t : State) := ∀ i, t.pair port i = if i ∈ active then { s.pair port i with state := .error, cause := 3 } else s.pair port i
      (∃ t, exec (.doorbellPoll port h) s = .next t ∧ failed t ∧
        t = v.setPort port { s.port port with pairs := (t.port port).pairs, interval := slow }) ∧
      ∃ t, exec (.nudge port h) s = .next t ∧ failed t ∧ counted v t ∧
        t = { (v.setPort port { s.port port with pairs := (t.port port).pairs, interval := 500 }) with regs := t.regs }) ∧
    (s.polls port = true → ∀ words : Nat → List Word, (∀ i ∈ active, entry i = some (words i)) →
      (∀ i ∈ active, (wordAt (words i) 0).toNat = (s.pair port i).sqTail) →
      (∀ i ∈ active, (s.pair port i).state = .running → (s.pair port i).sqTail = (s.pair port i).sqHead) →
      (∀ i ∈ active, (s.pair port i).state = .draining → ((s.pair port i).sqTail + 2 ^ 32 - (s.pair port i).sqHead) % 2 ^ 32 ≤ size i) →
      let quiet (t : State) := ∀ i, t.pair port i = if i ∈ active then
        { s.pair port i with cqHead := (wordAt (words i) 4).toNat, tqHead := (wordAt (words i) 8).toNat } else s.pair port i
      (∃ t, exec (.doorbellPoll port h) s = .next t ∧ quiet t ∧
        t = v.setPort port { s.port port with pairs := (t.port port).pairs, interval := slow }) ∧
      ((∀ i < 64, entry i = some (words i)) → ∃ t, exec (.nudge port h) s = .next t ∧ quiet t ∧ counted v t ∧
        t = { (v.setPort port { s.port port with pairs := (t.port port).pairs, interval := 500 }) with regs := t.regs })) ∧
    ∀ (i : Nat) (ws : List Word), s.polls port = true → active = [i] → entry i = some ws →
      let pr := { s.pair port i with cqHead := (wordAt ws 4).toNat, tqHead := (wordAt ws 8).toNat }
      let ahead := ((wordAt ws 0).toNat + 2 ^ 32 - pr.sqHead) % 2 ^ 32
      let fast := { s.port port with interval := 500, busyUntil := s.time + s.busyHold port }
      (size i < ahead → (wordAt ws 0).toNat ≠ pr.sqTail → ∃ t, exec (.doorbellPoll port h) s = .next t ∧
        t.pair port i = { pr with state := .error, cause := 1 } ∧ (∀ k, k ≠ i → t.pair port k = s.pair port k) ∧
        t = v.setPort port { fast with pairs := (t.port port).pairs }) ∧
      ∀ desc, (s.pair port i).state = .running → pr.sqTail = pr.sqHead → pr.sqHead < 2 ^ 32 → ahead = 1 → s.heldByFence port i = false →
        hostWords h (s.reg64 (oRing port i) + 64 * (pr.sqHead % size i)) 16 = some desc →
        exec (.doorbellPoll port h) s = .next (((v.setPort port { fast with next := (i + 1) % 64 }).setPair port i
            { pr with sqTail := (wordAt ws 0).toNat }).accept port i desc h)

/-- On a port that is up: the oldest held record of a running pair whose ring has room is written at its ring's next entry with the
PHASE of its lap, leaves the held records, and counts toward the pair's interrupt, which goes out at COUNT or at IRQ_NOW. Head words
are read again only for rings that hold records, with the read's link-level retries counted. When the age limit passes with records counted, the interrupt goes out and the
count clears. Nothing else changes. -/
def Obligations.HeldRecordsAndInterrupts : Prop :=
  ∀ (port : EPort) (s : State), s.linkUp port = true →
    (∀ (i : Fin 64) (r : Rec) (rest : List Rec), (s.port port).held = r :: rest → r.pair = i.val →
      s.hasRoom port i.val r.token = true → (s.pair port i.val).state = .running →
      let pr := s.pair port i.val
      let k := pr.prod r.token
      let n := 2 ^ (if r.token then fld (s.reg (oRingSize port i.val)) 20 16 else fld (s.reg (oRingSize port i.val)) 12 8)
      let ws := r.stamp (decide (k / n % 2 = 0)) pr.sqHead
      let write : Out := .hostWrite port (s.reg64 (oRing port i.val + if r.token then 0x10 else 0x08) + k % n * (4 * ws.length)) (bytesOf ws)
      let vec := s.reg (oIrqVec port i.val)
      let irq : Bool := bit vec 31 && (r.irqNow || decide (max 1 (fld (s.reg (oIrqMod port i.val)) 7 0) ≤ pr.irqCount + 1))
      ∃ t, exec (.recordRelease port i) s = .next t ∧ (t.port port).held = rest ∧
        (t.pair port i.val).prod r.token = (k + 1) % 2 ^ 32 ∧ (t.pair port i.val).prod (!r.token) = pr.prod (!r.token) ∧
        (t.pair port i.val).irqCount = (if irq then 0 else if bit vec 31 then pr.irqCount + 1 else pr.irqCount) ∧
        t.out = (if irq then [.irq port (fld vec 15 0)] else []) ++ write :: s.out ∧
        (∀ j, j ≠ i.val → t.pair port j = s.pair port j) ∧
        t = { (s.setPort port { s.port port with held := rest, pairs := (t.port port).pairs }) with out := t.out }) ∧
    (∀ (h : HostView) (words : Nat → List Word), (s.port port).held ≠ [] → (∀ r ∈ (s.port port).held, r.pair < 64) →
      (∀ r ∈ (s.port port).held, hostWords h (s.reg64 (oDbLo port) + 16 * r.pair) 3 = some (words r.pair)) →
      ∃ t, exec (.headReread port h) s = .next t ∧
        (∀ i, t.pair port i = { s.pair port i with
          cqHead := if (s.port port).held.any (fun r => r.pair = i && !r.token) then (wordAt (words i) 4).toNat else (s.pair port i).cqHead
          tqHead := if (s.port port).held.any (fun r => r.pair = i && r.token) then (wordAt (words i) 8).toNat else (s.pair port i).tqHead }) ∧
        fld (t.reg (oEpErr port)) 15 0 = min 0xFFFF (fld (s.reg (oEpErr port)) 15 0 + h.retries) ∧ s.SameRegs t [oEpErr port] ∧
        t = { (s.setPort port { s.port port with pairs := (t.port port).pairs }) with regs := t.regs }) ∧
    ∀ i : Fin 64, bit (s.reg (oIrqVec port i.val)) 31 = true → fld (s.reg (oIrqMod port i.val)) 23 8 ≠ 0 →
      (s.pair port i.val).irqCount ≠ 0 → ∃ t, exec (.irqModTimeout port i) s = .next t ∧
        t.pair port i.val = { s.pair port i.val with irqCount := 0, irqOldest := none } ∧
        (∀ j, j ≠ i.val → t.pair port j = s.pair port j) ∧
        t = { (s.setPort port { s.port port with pairs := (t.port port).pairs }) with
                out := .irq port (fld (s.reg (oIrqVec port i.val)) 15 0) :: s.out }

/-- At the end of training the link is up at the highest generation up to MAX_GEN and the partner's that passes on all lanes, or with
ALLOW_X4 on lanes 0 to 3, or 4 to 7; when none does it is down. A training after the first counts in `EP_ERR`. A link that leaves the
up state trains again, and so does a port that is down and may train. A port lost has every pair off, its held records dropped and
counted, its descriptors orphaned and its dowels broken. Nothing else changes. -/
def Obligations.EtcenTraining : Prop :=
  ∀ (port : EPort) (s : State),
    (∀ (partner : Fin 4) (bad : List (Nat × Nat)), fld (s.reg (oLinkStat port)) 1 0 = 1 →
      let top := min (fld (s.reg (oLinkCtl port)) 1 0) partner.val
      let lanes (g : Nat) := (bad.filter fun b => b.1 = g && b.2 < 8).map (·.2)
      let passes (g w : Nat) := w = 0 ∧ lanes g = [] ∨ bit (s.reg (oLinkCtl port)) 2 = true ∧ lanes g ≠ [] ∧
        (w = 1 ∧ (∀ l ∈ lanes g, 4 ≤ l) ∨ w = 3 ∧ ∀ l ∈ lanes g, l < 4)
      ∃ t, exec (.etcenLinkUp port partner bad) s = .next t ∧
        (∀ g w, 1 ≤ g → g ≤ top → passes g w → (∀ g' w', g < g' → g' ≤ top → ¬ passes g' w') →
          t.reg (oLinkStat port) = BitVec.ofNat 32 (2 + 4 * g + 16 * w) ∧ (t.port port).lost = false) ∧
        ((∀ g w, 1 ≤ g → g ≤ top → ¬ passes g w) → t.reg (oLinkStat port) = 0#32 ∧ (t.port port).lost = (s.port port).lost) ∧
        fld (t.reg (oEpErr port)) 31 16 = min 0xFFFF (fld (s.reg (oEpErr port)) 31 16 + if (s.port port).trained then 1 else 0) ∧
        fld (t.reg (oEpErr port)) 15 0 = fld (s.reg (oEpErr port)) 15 0 ∧ s.SameRegs t [oLinkStat port, oEpErr port] ∧
        t = { (s.setPort port { s.port port with trained := true, lost := (t.port port).lost }) with regs := t.regs }) ∧
    (s.linkUp port = true → ∃ t, exec (.etcenLinkDown port) s = .next t ∧
      t.reg (oLinkStat port) = (if s.etcenReady port then 1#32 else 0#32) ∧ s.SameRegs t [oLinkStat port] ∧
      t = { s with regs := t.regs }) ∧
    (fld (s.reg (oLinkStat port)) 1 0 = 0 → s.etcenReady port = true → ∃ t, exec (.etcenTrainRetry port) s = .next t ∧
      t.reg (oLinkStat port) = 1#32 ∧ s.SameRegs t [oLinkStat port] ∧ t = { s with regs := t.regs }) ∧
    (s.linkUp port = false → s.dowelsWf = true → ∃ t, exec (.portLost port) s = .next t ∧ (∀ i, t.pair port i = Pair.off) ∧
      (t.reg (oDropped port)).toNat = min (2 ^ 32 - 1) ((s.reg (oDropped port)).toNat + (s.port port).held.length) ∧
      s.SameRegs t [oDropped port] ∧
      (∀ n < 16, t.dowels.getD n 0 = (if s.dowels.getD n 0 = ownerNo (portPath port) then 0 else s.dowels.getD n 0) ∧
        t.broken.getD n false = (s.broken.getD n false || decide (s.dowels.getD n 0 = ownerNo (portPath port)))) ∧
      t.opens = s.opens.map (fun d => if d.port = port then { d with orphan := true } else d) ∧
      t = { (s.setPort port { s.port port with pairs := [], held := [], lost := true }) with
              regs := t.regs, opens := t.opens, dowels := t.dowels, broken := t.broken })

/-- In every state in which the package is not off, each of the eight commands LOW_INPUT, its release, LEAK, COOL_FAIL, the end of
either, HEARTBEAT_EXPIRED, THROTTLE and its release by 50 W answers a next state in which exactly its condition has changed. The
effective cap is then the least of the cap in force, the thermal limit, the minimum cap while a condition holds, and the safe cap
while the heartbeat has expired; the class is B while the minimum cap or a low thermal limit applies; `PWR_STAT` shows it all; and no
running group stands below the floor but under hard throttle. A cap that waits for the end of the conditions comes into force when the last of
them ends. Nothing else changes. An input at or above 42 V, an expiry with HB_TIMEOUT 0 and a release without a limit change nothing. -/
def Obligations.EffectiveCap : Prop :=
  ∀ s : State, s.dead = false →
    let rules (p : Power) (t : State) : Prop :=
      let low := ∃ w, p.thermal = some w ∧ w < 10 * classACap s.fuses.dies
      let holds := p.vinLow = true ∨ p.leak = true ∨ p.cool = true ∨ p.hbExpired = true
      (p.waiting = none ∨ p.capHeld = false ∨ holds ∨ low → t.power = { p with clocks := t.power.clocks }) ∧
      (∀ w, p.waiting = some w → p.capHeld = true → ¬ holds → ¬ low → t.power = { p with
        cap := fld w 11 0, classB := bit w 12, order := fld w 30 28, phaseLearned := bit w 31, waiting := none, capHeld := false
        clocks := t.power.clocks }) ∧
      (let limits := t.power.cap :: ((t.power.thermal.toList.map (· / 10)) ++ (if p.condition then [minCap s.fuses.dies] else []) ++
          (if p.hbExpired then [fld (s.mreg mSafe) 11 0] else []))
       fld (t.mreg mStat) 11 0 = t.effCap % 2 ^ 12 ∧ t.effCap ∈ limits ∧ ∀ n ∈ limits, t.effCap ≤ n) ∧
      (bit (t.mreg mStat) 12 = true ↔ t.power.classB = true ∨ holds ∨ low) ∧
      bit (t.mreg mStat) 17 = p.vinLow ∧ bit (t.mreg mStat) 19 = p.hard ∧ bit (t.mreg mStat) 20 = p.leak ∧
      bit (t.mreg mStat) 21 = p.cool ∧ bit (t.mreg mStat) 22 = p.hbExpired ∧
      (bit (t.mreg mStat) 18 = true ↔ ∃ w, p.thermal = some w ∧ w < 10 * t.power.cap) ∧
      fld (t.mreg mStat) 31 23 = fld (s.mreg mStat) 31 23 ∧
      (t.power.hard = false → ∀ f ∈ t.power.clocks, f = 0 ∨ t.floorMhz ≤ f)
    let frame (t : State) : Prop := s.SameMregs t [mStat] ∧ t = { s with power := t.power, mregs := t.mregs }
    (∀ v, v < 4200 → ∃ t, exec (.lowInput v) s = .next t ∧ rules { s.power with vinLow := true } t ∧ fld (t.mreg mIn) 15 0 = v ∧
      s.SameMregs t [mStat, mIn] ∧ t = { s with regs := t.regs, power := t.power, mregs := t.mregs, boot := t.boot, out := t.out } ∧
      s.SameRegs t [oPinOut]) ∧
    (∀ v, 4200 ≤ v → exec (.lowInput v) s = .next s) ∧
    (∃ t, exec .lowInputRelease s = .next t ∧ rules { s.power with vinLow := false } t ∧ frame t) ∧
    (∃ t, exec .leak s = .next t ∧ rules { s.power with leak := true } t ∧ frame t) ∧
    (∃ t, exec .coolFail s = .next t ∧ rules { s.power with cool := true } t ∧ frame t) ∧
    (∃ t, exec (.coolantConditionEnd true) s = .next t ∧ rules { s.power with leak := false } t ∧ frame t) ∧
    (∃ t, exec (.coolantConditionEnd false) s = .next t ∧ rules { s.power with cool := false } t ∧ frame t) ∧
    (fld (s.mreg mSafe) 23 16 ≠ 0 →
      ∃ t, exec .heartbeatExpired s = .next t ∧ rules { s.power with hbExpired := true } t ∧ frame t) ∧
    (fld (s.mreg mSafe) 23 16 = 0 → exec .heartbeatExpired s = .next s) ∧
    (∀ w, ∃ t, exec (.throttle w) s = .next t ∧
      rules { s.power with thermal := some (min (s.power.thermal.getD (10 * maxCap s.fuses.dies)) w) } t ∧ frame t) ∧
    (∀ w, s.power.thermal = some w → ∃ t, exec .throttleReleaseTick s = .next t ∧
      rules { s.power with thermal := if w + 50 < 10 * maxCap s.fuses.dies then some (w + 50) else none } t ∧ frame t) ∧
    (s.power.thermal = none → exec .throttleReleaseTick s = .next s)

/-- With the lowest clock that the floor and the depth of the spread allow: a stretch counts in `PWR_DROOP`; a supply still low takes
a running island to the next lower table frequency and counts PERSIST, or at the floor counts a stretch, and an island that is off
stays as it is. Above the effective cap the clamp lowers only the first group in order that stands above the floor, never
below it; at or below the cap only the last group in order may rise (how far is free, log entry 28). In phase-learned mode no group rises
above the cap, one falls while one stands above 0.6 GHz, and below the cap the clocks are free from 0.6 to 2.1 GHz. A millisecond above the cap with
every group at the floor counts in OVER_COUNT. Hard throttle takes every running group to 800 MHz, and its release back to at least
the floor. A waiting cap is taken at 100 ms, but during a condition only a lower one. -/
def Obligations.DroopClampAndHardThrottle : Prop :=
  ∀ s : State, s.dead = false →
    (∀ d : Fin 8, d.val < s.fuses.dies →
      let r := mDroop d.val
      let stretched (t : State) := fld (t.mreg r) 23 0 = min 0xFFFFFF (fld (s.mreg r) 23 0 + 1) ∧
        fld (t.mreg r) 31 24 = fld (s.mreg r) 31 24 ∧ s.SameMregs t [r] ∧ t = { s with mregs := t.mregs }
      (∃ t, exec (.droopStretch d) s = .next t ∧ stretched t) ∧
      ∀ n, n ≤ 73 →
        let down := (s.islandMhz (d.val * 128 + n) - 1) / 100 * 100
        (s.islandRuns d.val n = false → exec (.droopPersist d n) s = .next s) ∧
        (s.islandRuns d.val n = true → down < s.lowMhz → ∃ t, exec (.droopPersist d n) s = .next t ∧ stretched t) ∧
        (s.islandRuns d.val n = true → s.lowMhz ≤ down → ∃ t, exec (.droopPersist d n) s = .next t ∧ t.islandMhz (d.val * 128 + n) = down ∧
          (∀ k, k ≠ d.val * 128 + n → t.islandMhz k = s.islandMhz k) ∧
          fld (t.mreg r) 31 24 = min 0xFF (fld (s.mreg r) 31 24 + 1) ∧ fld (t.mreg r) 23 0 = fld (s.mreg r) 23 0 ∧
          s.SameMregs t [r] ∧ t = { s with mregs := t.mregs, power := { s.power with lowered := t.power.lowered } })) ∧
    (∀ (watts : Nat) (ms : Bool), s.power.hard = false → s.power.phaseLearned = false → s.power.clocks.length = 3 →
      (∃ g < 3, s.groupMhz g ≠ 0) → ∃ t, exec (.clampTick watts ms) s = .next t ∧
        let order := groupOrder s.power.order
        (∀ a g b, order = a ++ g :: b → 10 * s.effCap < watts → s.lowMhz < s.groupMhz g → (∀ k ∈ a, s.groupMhz k ≤ s.lowMhz) →
          s.lowMhz ≤ t.groupMhz g ∧ t.groupMhz g < s.groupMhz g ∧ ∀ k, k ≠ g → t.groupMhz k = s.groupMhz k) ∧
        (∀ a g b, order = a ++ g :: b → watts ≤ 10 * s.effCap → s.groupMhz g < 2100 → (∀ k ∈ b, 2100 ≤ s.groupMhz k) →
          s.groupMhz g ≤ t.groupMhz g ∧ t.groupMhz g ≤ 2100 ∧ ∀ k, k ≠ g → t.groupMhz k = s.groupMhz k) ∧
        (10 * s.effCap < watts → (∀ f ∈ s.power.clocks, f ≤ s.lowMhz) → t.power = s.power ∧
          fld (t.mreg mStat) 31 24 = if ms then min 0xFF (fld (s.mreg mStat) 31 24 + 1) else fld (s.mreg mStat) 31 24) ∧
        (fld (t.mreg mIn) 31 16 = if ms then watts % 2 ^ 16 else fld (s.mreg mIn) 31 16) ∧ s.SameMregs t [mIn, mStat] ∧
        t = { s with mregs := t.mregs, fresh := t.fresh,
                     power := { s.power with clocks := t.power.clocks, lowered := t.power.lowered } }) ∧
    (∀ (watts : Nat) (ms : Bool), s.power.hard = false → s.power.phaseLearned = true → s.power.clocks.length = 3 →
      (∃ g < 3, s.groupMhz g ≠ 0) → ∃ t, exec (.clampTick watts ms) s = .next t ∧
        (10 * s.effCap < watts → (∀ g < 3, t.groupMhz g ≤ s.groupMhz g) ∧
          ((∃ g < 3, 600 < s.groupMhz g) → ∃ g < 3, t.groupMhz g < s.groupMhz g)) ∧
        (watts ≤ 10 * s.effCap → ∀ g < 3, 600 ≤ t.groupMhz g ∧ t.groupMhz g ≤ 2100) ∧
        (fld (t.mreg mIn) 31 16 = if ms then watts % 2 ^ 16 else fld (s.mreg mIn) 31 16) ∧ s.SameMregs t [mIn] ∧
        t = { s with mregs := t.mregs, fresh := t.fresh,
                     power := { s.power with clocks := t.power.clocks, lowered := t.power.lowered } }) ∧
    (∃ t, exec .hardThrottle s = .next t ∧ bit (t.mreg mStat) 19 = true ∧ s.SameMregs t [mStat] ∧ t = { s with
      mregs := t.mregs,
      power := { s.power with hard := true, lowered := [], clocks := s.power.clocks.map fun f => if f = 0 then 0 else 800 } }) ∧
    (∃ t, exec .hardThrottleRelease s = .next t ∧ bit (t.mreg mStat) 19 = false ∧ s.SameMregs t [mStat] ∧ t = { s with
      mregs := t.mregs,
      power := { s.power with hard := false, clocks := s.power.clocks.map fun f => if f = 0 then 0 else max f s.lowMhz } }) ∧
    ∀ w, s.power.waiting = some w →
      let held := s.power.condition = true ∨ s.thermalLow = true
      (held → s.power.cap ≤ fld w 11 0 → exec .capEffectTimeout s = .next { s with power := { s.power with capHeld := true } }) ∧
      (¬ held ∨ fld w 11 0 < s.power.cap → ∃ t, exec .capEffectTimeout s = .next t ∧ s.SameMregs t [mStat] ∧
        t = { s with mregs := t.mregs, power := { s.power with
          cap := fld w 11 0, classB := bit w 12, order := fld w 30 28, phaseLearned := bit w 31, waiting := none, capHeld := false
          clocks := t.power.clocks } })

/-- V_in below 38 V: on every Limfele port that is up a DEPART with cause 1 and the last committed step goes to every other member in
service, the step in flight and the plans are dropped, and the package has departed. A trip sends DEPART with cause 2 likewise, asserts `THERMTRIP_N`, and leaves the package OFF
in cold reset with fuses and flash kept. EJECT_N sets the partition state to draining and changes contexts, plans and descriptors in
nothing. -/
def Obligations.InputFailingTripAndEject : Prop :=
  ∀ s : State, s.dead = false →
    let up := (List.range 32).filter fun p => s.limState p = 2
    (∃ t, exec .inputFailing s = .next t ∧ fld (t.reg oIntStat) 1 0 = 3 ∧ s.SameRegs t [oIntStat] ∧
      t = { s with
        regs := t.regs, power := { s.power with vinFailing := true }, departed := true, plans := [], attempt := none,
        out := (up.flatMap fun p => s.peers.map fun n => Out.depart n (some p) 1 s.lastCommit).reverse ++ s.out }) ∧
    (∃ t, exec .trip s = .next t ∧ t.pkg = .off ∧ bit (t.reg oPinOut) 2 = true ∧ t.inReset .cold = true ∧ t.ctxs = [] ∧
      t.attempt = none ∧ t.plans = [] ∧ t.opens = [] ∧ t.fuses = s.fuses ∧ t.flash = s.flash ∧ t.pending = s.pending ∧
      t.out = (up.flatMap fun p => s.peers.map fun n => Out.depart n (some p) 2 s.lastCommit).reverse ++ s.out) ∧
    (s.departed = false → ∃ t, exec .eject s = .next t ∧ fld (t.reg oIntStat) 1 0 = 2 ∧ s.SameWork t ∧ s.SameBytes t ∧
      s.SameKept t ∧ t.departed = false ∧ t.power = s.power ∧ ∀ o, o ≠ oIntStat → o ≠ oQueue .a → o ≠ oQueue .b →
        o ≠ oDropped .a → o ≠ oDropped .b → t.reg o = s.reg o)

/-- The root answers a TIME request with its stamps, and a member that is not the root asks it on every plane of the mask. A reply gives
the offset ((t2 - t1 - c_req) - (t4 - t3 - c_rep)) / 2 on its plane; the reply of the last plane completes the exchange: with no step
running a median above 1 µs steps the count forward by it and one below -1 µs holds the count for its length, and otherwise the rate
slews toward the root by at most 1,000 ppm (how much is free, log entry 25); 16 exchanges within 2 ns lock. Holdover and free follow
without an exchange. A message's one flit is heard on the link of its plane, and its credit goes back. -/
def Obligations.CommonTime : Prop :=
  ∀ s : State,
    (∀ src plane t1 c, s.isLead = true → ∃ t, exec (.timeRequest src plane t1 c) s = .next t ∧ s.Heard t (some plane) 2 1 1 ∧
      t = { s with links := t.links, out := .time src plane true t1 s.time s.time c :: s.out }) ∧
    (∀ src plane t1 c, s.isLead = false → ∃ t, exec (.timeRequest src plane t1 c) s = .next t ∧ s.Heard t (some plane) 2 1 1 ∧
      t = { s with links := t.links }) ∧
    (∀ root, s.leadNode = some root → s.isLead = false → s.departed = false → exec .timeExchangeTick s = .next { s with
      offsets := [],
      out := (((List.range 32).filter fun p => bit (s.reg oPlanes) p).map fun p => Out.time root p false s.time 0 0 0).reverse ++ s.out }) ∧
    (∀ (plane t1 t2 t3 : Nat) (creq crep : Int), s.isLead = false → plane < 32 → bit (s.reg oPlanes) plane = true →
      assoc plane s.offsets = none →
      let offset : Int := ((t2 : Int) - t1) * 2 ^ 16 - creq - (((s.time : Int) - t3) * 2 ^ 16 - crep)
      let last := ∀ p < 32, bit (s.reg oPlanes) p = true → p ≠ plane → (assoc p s.offsets).isSome = true
      let m := median ((enlist plane offset s.offsets).map (·.2))
      (¬ last → ∃ t, exec (.timeReply plane t1 t2 t3 creq crep) s = .next t ∧ s.Heard t (some plane) 2 1 1 ∧
        t = { s with links := t.links, offsets := enlist plane offset s.offsets }) ∧
      (last → ∃ t, exec (.timeReply plane t1 t2 t3 creq crep) s = .next t ∧ s.Heard t (some plane) 2 1 1 ∧ t.offsets = [] ∧
        t.timeLocks = (if m.natAbs ≤ 2 ^ 18 then min 16 (s.timeLocks + 1) else 0) ∧
        fld (t.reg oTimeStat) 1 0 = (if t.timeLocks = 16 then 2 else 1) ∧
        fld (t.reg oTimeStat) 31 16 = ((max (-32768) (min 32767 (m / 2 ^ 17)) % 65536 : Int)).toNat ∧ s.SameRegs t [oTimeStat] ∧
        (s.attempt = none → 1000 * 2 ^ 17 < m → s.time * 2 ^ 32 + s.timeFrac + m.natAbs * 2 ^ 15 < 2 ^ 96 →
          t.time * 2 ^ 32 + t.timeFrac = s.time * 2 ^ 32 + s.timeFrac + m.natAbs * 2 ^ 15 ∧ t.timeFrac < 2 ^ 32 ∧ t.slew = 0) ∧
        (s.attempt = none → m < -(1000 * 2 ^ 17) → t.time = s.time ∧ m.natAbs ≤ t.timeHold * 2 ^ 17 ∧
          t.timeHold * 2 ^ 17 < m.natAbs + 2 ^ 17 ∧ t.slew = 0) ∧
        (s.attempt ≠ none ∨ (-(1000 * 2 ^ 17) ≤ m ∧ m ≤ 1000 * 2 ^ 17) → t.time = s.time ∧ t.timeHold = s.timeHold ∧
          1000 * t.slew.natAbs ≤ 10 * 2 ^ 32 ∧ (0 ≤ m → 0 ≤ t.slew) ∧ (m ≤ 0 → t.slew ≤ 0)) ∧
        t = { s with regs := t.regs, time := t.time, timeFrac := t.timeFrac, timeHold := t.timeHold, timeLocks := t.timeLocks,
                     offsets := [], slew := t.slew, fresh := t.fresh, links := t.links })) ∧
    (s.isLead = false → fld (s.reg oTimeStat) 1 0 ≠ 0 → ∃ t, exec .timeHoldover s = .next t ∧
      fld (t.reg oTimeStat) 1 0 = (if fld (s.reg oTimeStat) 1 0 = 3 then 0 else 3) ∧
      fld (t.reg oTimeStat) 31 16 = fld (s.reg oTimeStat) 31 16 ∧ s.SameRegs t [oTimeStat] ∧
      t = { s with regs := t.regs, timeLocks := 0 })

/-- A port in training that may run settles at v2, or v1, or goes down, and stays out of the mask when the enforced plan does not match;
its link begins at sequence number 0 without credit, with what waits for it to be sent anew, and a request that waited for a port leaves.
A port that loses its link retrains and sends its LINK_ID, its requests move to another port that is up, or wait for one, and a lane that caused it gets a corrected
event, the third in 24 hours classing it. LINK_ID sets the plane and match, swapped with PEER, wrong or unplanned. A NAK replays, counted,
the flits of the replay buffer from the named one on; a bad flit is answered by a NAK of the number expected, and credits add up (what a
new link starts with and where a NAK has its number: log entry 26). The idle lead takes the planes that every member reports up into force
and tells the members, which take them. -/
def Obligations.LimfeleLinks : Prop :=
  ∀ (port : Fin 32) (s : State),
    let p := port.val
    let st := oPortStat p
    let out (q : State) (k : Nat) := bit (q.reg oFabCtl) 3 = true ∧ fld (q.reg (oCableStat k)) 31 29 ≠ 1 ∧ fld (q.reg (oCableStat k)) 31 29 ≠ 4
    let linkId : Out := .flit p (flit 0 4095 0 flitLinkId true true (wordBytes [s.node, p]))
    let noneWaits := ∀ o ∈ s.outst, o.plane ≠ none
    (∀ partner v2 v1, s.limReady p = true → s.limState p = 1 → ∃ t, exec (.limfelePortTrained port partner v2 v1) s = .next t ∧
      (let at2 := (bit (s.reg oFabCtl) 1 && partner && v2) = true
       (¬ at2 → v1 = false → t.limState p = 0 ∧ t = { s with regs := t.regs }) ∧
        (at2 ∨ v1 = true → (bit (t.reg st) 2 = true ↔ at2) ∧ (out s p → t.limState p = 3) ∧ (¬ out s p → t.limState p = 2) ∧
          t.link p = { FabLink.fresh with queue := (s.link p).queue.map fun m => { m with sent := 0 } } ∧ (∀ q, q ≠ p → t.link q = s.link q) ∧
          (∀ vc < 4, t.credit p vc = 0) ∧ (∀ q vc, q ≠ p → vc < 4 → t.credit q vc = s.credit q vc) ∧
          (noneWaits → t.outst = s.outst ∧ t.out = s.out) ∧
          ∀ o, s.outst = [o] → o.plane = none → o.req.hdr.step = 0 → t.limState p = 2 → bit (s.reg oPlanes) p = true →
            ∃ q, t.outst = [{ o with plane := some q, issued := s.time }] ∧ t.out = .request o.dst q o.req :: s.out ∧ t.limState q = 2)) ∧
      fld (t.reg st) 31 3 = fld (s.reg st) 31 3 ∧ s.SameRegs t [st] ∧
      t = { s with regs := t.regs, links := t.links, credits := t.credits, outst := t.outst, out := t.out }) ∧
    (∀ lane : Option (Fin 4), s.limState p = 2 ∨ s.limState p = 3 → ∃ t, exec (.limfelePortDown port lane) s = .next t ∧
      t.limState p = 1 ∧ fld (t.reg st) 31 2 = fld (s.reg st) 31 2 ∧ s.SameRegs t [st] ∧ t.out = linkId :: s.out ∧
      t.link p = { s.link p with queue := (s.link p).queue.filter fun m => m.vc != 0 } ∧
      (let other (q : Nat) := q < 32 ∧ q ≠ p ∧ bit (s.reg oPlanes) q = true ∧ s.limState q = 2
       ∀ m ∈ (s.link p).queue, m.vc = 0 → ((∃ q, other q) → ∃ q, other q ∧ { m with sent := 0 } ∈ (t.link q).queue) ∧
        ((∀ q, ¬ other q) → ∀ g, m.tag = some g → ∀ o ∈ t.outst, o.tag = g → o.plane = none)) ∧
      ((∀ m ∈ (s.link p).queue, m.vc ≠ 0) → t.outst = s.outst ∧ ∀ q, q ≠ p → t.link q = s.link q) ∧
      t = { s with regs := t.regs, flash := { s.flash with history := t.flash.history }, links := t.links, outst := t.outst, out := t.out } ∧
      (lane = none → t.flash = s.flash) ∧
      ∀ k, lane = some k → s.flash.history.length + 2 ≤ 65536 →
        let e : FaultEntry := ⟨4, p / 4, p % 4 * 4 + k.val, 1, ((s.attempt.map fun a => a.plan.step).getD 0) % 2 ^ 32, s.time, false⟩
        let mine (f : FaultEntry) : Bool := f.kind = 4 && f.die = p / 4 && f.unit = p % 4 * 4 + k.val
        let recent := (s.flash.history.filter fun f => f.event = 1 && mine f && s.time < f.time + 24 * 3600 * 10 ^ 9).length
        t.flash.history = s.flash.history ++ (if 2 ≤ recent ∧ (∀ f ∈ s.flash.history, mine f = true → f.event ≠ 6) then
          [e, { e with event := 6 }] else [e])) ∧
    (s.limReady p = true → s.limState p = 0 → ∃ t, exec (.limfeleTrainRetry port) s = .next t ∧ t.limState p = 1 ∧
      fld (t.reg st) 31 2 = fld (s.reg st) 31 2 ∧ s.SameRegs t [st] ∧ t = { s with regs := t.regs, out := linkId :: s.out }) ∧
    (∀ sw swp plane, s.limState p ≠ 0 →
      let seen := swp % 2 ^ 8 * 2 ^ 16 + sw % 2 ^ 16
      let planned (q : Nat) := bit (s.reg (oCable q)) 31 = true ∧ fld (s.reg (oCable q)) 23 0 = seen
      ∃ t, exec (.linkId port sw swp plane) s = .next t ∧ fld (t.reg st) 12 8 = plane % 32 ∧
        fld (t.reg (oCableStat p)) 23 0 = seen ∧
        (bit (s.reg (oCable p)) 31 = false → fld (t.reg (oCableStat p)) 31 29 = 4) ∧
        (planned p → fld (t.reg (oCableStat p)) 31 29 = 1) ∧
        (bit (s.reg (oCable p)) 31 = true → ¬ planned p → ∀ q, q < 4 * s.fuses.dies → q < 32 → planned q →
          (∀ r < q, ¬ planned r) → fld (t.reg (oCableStat p)) 31 29 = 2 ∧ fld (t.reg (oCableStat p)) 28 24 = q) ∧
        (bit (s.reg (oCable p)) 31 = true → ¬ planned p → (∀ q, q < 4 * s.fuses.dies → ¬ planned q) →
          fld (t.reg (oCableStat p)) 31 29 = 3) ∧
        (s.limState p = 1 → t.limState p = 1) ∧ (s.limState p = 2 ∨ s.limState p = 3 → (t.limState p = 3 ↔ out t p) ∧
          (t.limState p = 2 ↔ ¬ out t p)) ∧ s.SameRegs t [st, oCableStat p] ∧ (noneWaits → t.outst = s.outst ∧ t.out = s.out) ∧
        t = { s with regs := t.regs, outst := t.outst, out := t.out }) ∧
    (∀ seq,
      let again := (s.link p).sent.dropWhile fun e => e.1 != seq % 4096
      ∃ t, exec (.nak port seq) s = .next t ∧ t.out = (again.map fun e => Out.flit p e.2).reverse ++ s.out ∧
      fld (t.reg st) 31 16 = min 0xFFFF (fld (s.reg st) 31 16 + again.length) ∧ fld (t.reg st) 15 0 = fld (s.reg st) 15 0 ∧
      s.SameRegs t [st] ∧ t = { s with regs := t.regs, out := t.out }) ∧
    exec (.flitCrcFail port) s = .next { s with
      out := .flit p (flit (s.link p).next ((s.link p).expect + 4095) 0 flitNak true true (leBytes 4 (s.link p).expect)) :: s.out } ∧
    (∀ (vc : Fin 3) (n : Nat), ∃ t, exec (.creditReturn port vc n) s = .next t ∧
      (∀ k, peek 0 t.credits k = peek 0 s.credits k + if k = p * 4 + vc.val then n else 0) ∧
      t = { s with credits := t.credits }) ∧
    (s.isLead = true → s.idle = true → ∃ t, exec .planeMaskRepublish s = .next t ∧
      (∀ q < 32, (bit (t.reg oPlanes) q = true ↔ s.limState q = 2 ∧ ∀ n ∈ s.peers, (peek (2 ^ 32 - 1) s.lead.planes n).testBit q)) ∧
      s.SameRegs t [oPlanes] ∧ (t.reg oPlanes = s.reg oPlanes → t = { s with regs := t.regs }) ∧
      (t.reg oPlanes ≠ s.reg oPlanes → noneWaits → t = { s with
        regs := t.regs
        out := (s.peers.map fun n => Out.report n (maskReport s.node (t.reg oPlanes).toNat)).reverse ++ s.out }) ∧
      t = { s with regs := t.regs, outst := t.outst, out := t.out }) ∧
    ∀ node mask, s.leadNode = some node → s.idle = true → ∃ t, exec (.report (maskReport node mask)) s = .next t ∧
      t.reg oPlanes = BitVec.ofNat 32 mask ∧ s.SameRegs t [oPlanes] ∧ s.HeardCtl t 16 ∧
      (noneWaits → t.outst = s.outst ∧ t.out = s.out) ∧ t = { s with regs := t.regs, links := t.links, outst := t.outst, out := t.out }

/-- When a link whose domain is on and clocked comes up the targets in use on the port are connected when they were reached and failed otherwise, and when it goes
down, or cannot run, they have all failed; other targets stay. A PFC frame on the port's RoCE priority replaces its pause, 0 quanta ending it, and one
on another priority does nothing; once the pause ends, a storage command that waited goes out. A congestion notification lowers a queue
pair's rate (by how much is free, log entry 3). A due keep-alive goes to a connected target, and waits while its port is paused. -/
def Obligations.EthernetLinks : Prop :=
  ∀ s : State,
    (∀ (port : Fin 2) (up : Bool) (reached : List (Fin 16)), ∃ t, exec (.ethernetLinkChange port up reached) s = .next t ∧
      bit (t.reg (oEthStat port.val)) 3 = (up && s.ethRuns port.val) ∧ fld (t.reg (oEthStat port.val)) 2 0 = fld (s.reg (oEthStat port.val)) 2 0 ∧
      (∀ k : Fin 16, t.conn k.val =
        if bit (wordAt s.eth.setup (0x100 + 0x40 * k.val)) 0 = true ∧ (bit (wordAt s.eth.setup (0x100 + 0x40 * k.val)) 1 = true ↔ port.val = 1)
        then (if up = true ∧ s.ethRuns port.val = true ∧ k ∈ reached then 2 else 3) else s.conn k.val) ∧
      s.SameRegs t [oEthStat port.val, oTgtStat] ∧ t = { s with regs := t.regs }) ∧
    (∀ (port : Fin 2) (priority : Fin 8) (quanta : Nat),
      (fieldAt s.eth.setup (0x40 * port.val) 6 4 ≠ priority.val → exec (.priorityFlowControl port priority quanta) s = .next s) ∧
      (fieldAt s.eth.setup (0x40 * port.val) 6 4 = priority.val → ∃ t, exec (.priorityFlowControl port priority quanta) s = .next t ∧
        (∀ e, e ∈ t.eth.paused ↔
          (quanta ≠ 0 ∧ e = (port.val, priority.val, s.time + cdiv (512 * quanta) (200 * 2 ^ (fld (s.reg (oEthStat port.val)) 2 0 - 1)))) ∨
          e ∈ s.eth.paused ∧ ¬ (e.1 = port.val ∧ e.2.1 = priority.val)) ∧
        (s.stor = [] → s.eth.alive = [] → t = { s with eth := { s.eth with paused := t.eth.paused } }) ∧
        (∀ (j : StorJob) (q : Nat), quanta = 0 → s.stor = [j] → s.eth.alive = [] → j.queue = some q → j.told = false → j.left = [] →
          (∀ e ∈ s.eth.paused, e.1 = port.val ∧ e.2.1 = priority.val) → t.stor = [{ j with told := true }] ∧
          t.out = .nvme j.target (9 * j.target + 1 + q) j.read j.nsid j.lba j.addr j.len :: s.out) ∧
        t = { s with eth := { s.eth with paused := t.eth.paused, turn := t.eth.turn, alive := t.eth.alive }, stor := t.stor, out := t.out })) ∧
    (∀ qp : Fin 1024, ∃ t, exec (.congestionNotification qp) s = .next t ∧
      (0 < peek 100 s.eth.rates qp.val → peek 100 t.eth.rates qp.val < peek 100 s.eth.rates qp.val) ∧
      (∀ k, k ≠ qp.val → peek 100 t.eth.rates k = peek 100 s.eth.rates k) ∧
      t = { s with eth := { s.eth with rates := t.eth.rates }, fresh := s.fresh + 1 }) ∧
    ∀ target : Fin 16,
      let paused := ∃ e ∈ s.eth.paused, e.1 = (if bit (wordAt s.eth.setup (0x100 + 0x40 * target.val)) 1 then 1 else 0) ∧ s.time < e.2.2
      (s.conn target.val = 2 → ∃ t, exec (.keepAlive target) s = .next t ∧
        (s.stor = [] → s.eth.alive = [] → ¬ paused →
          t = { s with eth := { s.eth with turn := 9 * target.val }, out := .keepAlive target.val :: s.out }) ∧
        (s.stor = [] → s.eth.alive = [] → paused → t = { s with eth := { s.eth with alive := [target.val] } }) ∧
        t = { s with eth := { s.eth with turn := t.eth.turn, alive := t.eth.alive }, stor := t.stor, out := t.out }) ∧
      (s.conn target.val ≠ 2 → exec (.keepAlive target) s = .next s)

/-- With no other CHECKPOINT or RESTORE waiting: a storage command that completes ends the descriptor's hold of the context. A write ends
with OK, an error with DENIED and the NVMe status as RESULT, silence with TIMEOUT. The data of a RESTORE lands in the context's pages
before OK, and every other byte stays. A LOAD without broadcast writes its data, from the target or from the host buffer that it
copied, read-only pages included, and completes with OK; an error is DENIED with the status as RESULT. After a RESTORE or LOAD that
did not end with OK the bytes of its destination are undefined (free), and every other byte stays. -/
def Obligations.StorageCompletions : Prop :=
  ∀ (j : StorJob) (d : Desc) (x : Ctx) (s : State), s.desc? d.id = some d → d.orphan = false → s.Ready d.port d.pair →
    s.ctx j.ctx = some x → j.desc = d.id → s.Clean → j.addr % 128 = 0 → j.len % 128 = 0 →
    let fits (bs : List Byte) : Prop := x.OnHbm j.addr j.len ∧ bs.length = j.len ∧ 0 < j.len
    let lost (t : State) : Prop := (∀ k, (∀ i < j.len, k ≠ x.byteKey (j.addr + i)) → peek 0#8 t.hbm k = peek 0#8 s.hbm k) ∧
      t.slices = s.slices ∧ t.locals = s.locals ∧ t.lines = s.lines
    (s.storJob j.id = some j → j.load = false → (∀ e ∈ s.opens, e.id ≠ d.id → hOpcode e.words ≠ opCheckpoint ∧ hOpcode e.words ≠ opRestore) →
      let ended (t : State) (status result : Nat) : Prop := t.desc? d.id = none ∧ t.storJob j.id = none ∧
        s.completionOf d status result 0 ∈ t.out ∧
        t.ctx j.ctx = some (if x.holdDesc = some d.id then { x with holdDesc := none } else x)
      (∀ status data, j.read = false → ∃ t, exec (.storageCompletion j.id status data) s = .next t ∧ s.SameBytes t ∧
        ended t (if status = 0 then stOk else stDenied) status) ∧
      (j.read = false → ∃ t, exec (.storageTimeout j.id) s = .next t ∧ s.SameBytes t ∧ ended t stTimeout 0) ∧
      (∀ data, j.read = true → fits data → ∃ t, exec (.storageCompletion j.id 0 data) s = .next t ∧ ended t stOk 0 ∧
        s.Stored x j.addr data t) ∧
      (j.read = true → x.OnHbm j.addr j.len → ∃ t, exec (.storageTimeout j.id) s = .next t ∧ ended t stTimeout 0 ∧ lost t) ∧
      (∀ status data, j.read = true → status ≠ 0 → x.OnHbm j.addr j.len →
        ∃ t, exec (.storageCompletion j.id status data) s = .next t ∧ ended t stDenied status ∧ lost t)) ∧
    (∀ l : LoadJob, s.load? d.id = some l → l = ⟨d.id, j.ctx, [], false, 0, stOk, 0, 0⟩ → hContext d.words = j.ctx →
      fieldAt d.words 0x24 31 16 = 0 → addr48 d.words 0x20 0x24 = j.addr → hLength d.words = j.len →
      let written (t : State) (data : List Byte) : Prop := t.desc? d.id = none ∧ t.load? d.id = none ∧
        s.completionOf d stOk 0 0 ∈ t.out ∧ s.Stored x j.addr data t ∧ t.ctxs = s.ctxs
      (∀ data, s.storJob j.id = some j → j.load = true → fits data → ∃ t, exec (.storageCompletion j.id 0 data) s = .next t ∧ written t data) ∧
      (∀ status data, s.storJob j.id = some j → j.load = true → status ≠ 0 → x.OnHbm j.addr j.len → ∃ t, exec (.storageCompletion j.id status data) s = .next t ∧
        t.desc? d.id = none ∧ t.load? d.id = none ∧ s.completionOf d stDenied status 0 ∈ t.out ∧ lost t ∧ t.ctxs = s.ctxs) ∧
      (s.storJob j.id = some j → j.load = true → x.OnHbm j.addr j.len → ∃ t, exec (.storageTimeout j.id) s = .next t ∧
        t.desc? d.id = none ∧ t.load? d.id = none ∧ s.completionOf d stTimeout 0 0 ∈ t.out ∧ lost t ∧ t.ctxs = s.ctxs) ∧
      ∀ data, fieldAt d.words 0x10 1 0 = 0 → (bytesOf d.buf).take j.len = data → fits data →
        ∃ t, exec (.loadLastLineWritten d.id) s = .next t ∧ written t data)

/-- A request outside a step for a context's valid HBM pages in its range, from its partition: READ answers the bytes of its lines with
their poison; WRITE stores its data and is acknowledged; ATOMIC answers the eight old bytes and stores the sum, the operand, or the
operand when the old value equals COMPARE. Every other byte and all else stay. No context and no lend window for the job, or another
partition, gives NACK and counts. A request of a plan not started yet is held, and one of a committed attempt is only acknowledged. The
flits of each are heard on the link of its plane, and their credits go back, but for a request that is held (R317, R318, R326); a change
goes to the buddy where the context is mirrored (R371). -/
def Obligations.FabricReadsWritesAndAtomics : Prop :=
  ∀ (m : MsgHdr) (s : State),
    (∀ (c : Nat) (x : Ctx), m.step = 0 → s.ctxOfJob m.job = some (c, x) → m.part = s.partition → s.Clean →
      let came (t : State) (len : Nat) : Prop := s.Heard t (s.hashPlane s.node m.offset) 0 (flitCount len) (flitCount len)
      (∀ lines, 1 ≤ lines → m.offset % 128 = 0 → x.OnHbm m.offset (128 * lines) → ∃ t, exec (.read m lines) s = .next t ∧ came t 0 ∧
        t = { s with links := t.links, xlate := t.xlate,
                     out := .data m.src m.tag ((List.range (128 * lines)).map fun i => s.ctxByte x (m.offset + i))
                       ((List.range lines).any fun i => s.ctxPoison x (m.offset + 128 * i)) :: s.out }) ∧
      (∀ data, data ≠ [] → x.OnHbm m.offset data.length → x.OnWritable m.offset data.length →
        ∃ t, exec (.write m data) s = .next t ∧ s.Stored x m.offset data t ∧ came t data.length ∧
          (m.poison = true → ∀ i < data.length, t.ctxPoison x (m.offset + i) = true) ∧
          (m.poison = false → m.offset % 128 = 0 → data.length % 128 = 0 → ∀ i < data.length, t.ctxPoison x (m.offset + i) = false) ∧
          (∃ sent, t.out = sent ++ .ack m.src m.tag :: s.out ∧ (s.NoMirror → sent = [] ∧ t.outst = s.outst ∧ t.nextTag = s.nextTag)) ∧
          t = { s with hbm := t.hbm, hbmPoison := t.hbmPoison, out := t.out, outst := t.outst, nextTag := t.nextTag, links := t.links,
                       xlate := t.xlate }) ∧
      (m.offset % 8 = 0 → x.OnHbm m.offset 8 → x.OnWritable m.offset 8 →
        let bytes := (List.range 8).map fun i => s.ctxByte x (m.offset + i)
        let old := leNat bytes
        ∀ v w, ∀ q ∈ [(Instr.atomicAdd m v, (old + v) % 2 ^ 64, 8), (.atomicSwap m v, v, 8),
            (.atomicCompareAndSwap m v w, if old = v then w else old, 16)],
          ∃ t, exec q.1 s = .next t ∧ s.Stored x m.offset (leBytes 8 q.2.1) t ∧ came t q.2.2 ∧
            (∃ sent, t.out = sent ++ .data m.src m.tag bytes (s.ctxPoison x m.offset) :: s.out ∧
              (s.NoMirror → sent = [] ∧ t.outst = s.outst ∧ t.nextTag = s.nextTag)) ∧
            t = { s with hbm := t.hbm, hbmPoison := t.hbmPoison, out := t.out, outst := t.outst, nextTag := t.nextTag, links := t.links,
                         xlate := t.xlate })) ∧
    ∀ (c : Instr) (op : FabOp), ((∃ n, c = .read m n ∧ op = .read n) ∨ (∃ d, c = .write m d ∧ op = .write d) ∨
        (∃ v, c = .atomicAdd m v ∧ op = .add v) ∨ (∃ v, c = .atomicSwap m v ∧ op = .swap v) ∨
        (∃ v w, c = .atomicCompareAndSwap m v w ∧ op = .cas v w) ∨ (∃ l, c = .accAdd m l ∧ op = .acc l) ∨
        ∃ l e k a, c = .groupEnd m l e k a ∧ op = .group l e k a) →
      let plane := s.arrival m op
      let n := (⟨m, op⟩ : FabReq).flits
      let refused (reason : Nat) : Prop := ∃ t, exec c s = .next t ∧ s.Heard t plane 0 n n ∧
        (t.reg oRxRefused).toNat = min (2 ^ 32 - 1) ((s.reg oRxRefused).toNat + 1) ∧ s.SameRegs t [oRxRefused] ∧
        t = { s with regs := t.regs, links := t.links, xlate := t.xlate, out := .nack m.src m.tag reason :: s.out }
      (s.ctxOfJob m.job = none → (∀ e ∈ s.ctxs, e.2.lendJob ≠ m.job ∨ e.2.lendJob = 0) → refused 1) ∧
      ∀ k x, s.ctxOfJob m.job = some (k, x) → (m.step = 0 → m.part ≠ s.partition → refused 2) ∧
        (s.attempt = none → m.step ≠ 0 → m.attempt < 256 →
          (m.step ≤ x.step → ∃ t, exec c s = .next t ∧ s.Heard t plane 0 n n ∧
            t = { s with links := t.links, out := .ack m.src m.tag :: s.out }) ∧
          (x.step < m.step → assoc m.job s.retracted = none → ∃ t, exec c s = .next t ∧ s.Heard t plane 0 n 0 ∧
            t = { s with links := t.links, parked := s.parked ++ [(plane, ⟨m, op⟩)] }))

/-- In the attempt in flight, for a region that the plan's jig declares (log entry 16): ACC_ADD adds each state into its accumulator
exactly and counts one add, GROUP_END counts one marker and the adds due, and both are acknowledged; an add after the rounding fails the
share, at once, or once the seal agent's die is out of reset. A MCAST_WRITE stores its data, with LOAD also into read-only pages and from any partition; the node at index i forwards it to the
indices 4i+1 to 4i+4 in the list and acknowledges at once only when there is none; a forwarded one leaves at once where a port of the
mask is up here. Each is heard on the link of its plane, and its credits go back. -/
def Obligations.AccAddGroupEndAndMulticast : Prop :=
  ∀ (m : MsgHdr) (s : State),
    (∀ (a : Attempt) (c : Nat) (x : Ctx), s.attempt = some a → s.ctxOfJob m.job = some (c, x) → a.plan.job = m.job →
      a.plan.step = m.step → a.plan.attempt = m.attempt → m.step ≠ 0 → m.part = s.partition →
      s.regionDeclared m.job (m.offset % 2 ^ 16) = true →
      let layer := m.offset % 2 ^ 16
      let first := m.offset / 2 ^ 16
      let k := combineOf a layer
      let came (t : State) (op : FabOp) : Prop := s.Heard t (s.arrival m op) 0 (⟨m, op⟩ : FabReq).flits (⟨m, op⟩ : FabReq).flits
      (∀ states : List (List Byte), k.rounded = false → ∃ t b n, exec (.accAdd m states) s = .next t ∧ came t (.acc states) ∧
        combineOf b layer = n ∧
        (∀ i, peek Acc.empty n.accs i = match states[i - first]? with
          | some w => if first ≤ i then (peek Acc.empty k.accs i).add (.ofWire w) else peek Acc.empty k.accs i
          | none => peek Acc.empty k.accs i) ∧
        n = { k with accs := n.accs, adds := k.adds + 1 } ∧ (∀ l, l ≠ layer → combineOf b l = combineOf a l) ∧
        b = { a with combines := b.combines } ∧ t = { s with attempt := some b, links := t.links, out := .ack m.src m.tag :: s.out }) ∧
      (∀ states, k.rounded = true → s.canSeal = true → ∃ t, exec (.accAdd m states) s = .next t ∧ t.attempt = none ∧
        ∀ n ∈ s.peers, Out.retract n ⟨m.job, m.step, m.attempt, s.node, stFault, 0, a.overran⟩ ∈ t.out) ∧
      (∀ states, k.rounded = true → s.canSeal = false → ∃ t, exec (.accAdd m states) s = .next t ∧ came t (.acc states) ∧
        t = { s with attempt := some { a with failed := some (a.failed.getD stFault) }, links := t.links, out := .ack m.src m.tag :: s.out }) ∧
      (∀ l e g adds, ∃ t b, exec (.groupEnd m l e g adds) s = .next t ∧ came t (.group l e g adds) ∧
        combineOf b layer = { k with markers := k.markers + 1, due := k.due + adds } ∧
        (∀ l', l' ≠ layer → combineOf b l' = combineOf a l') ∧ b = { a with combines := b.combines } ∧
        t = { s with attempt := some b, links := t.links, out := .ack m.src m.tag :: s.out })) ∧
    ∀ (c : Nat) (x : Ctx) (load : Bool) (dests : List Nat) (i : Nat) (data : List Byte), m.step = 0 → s.Clean → s.nextTag < 2 ^ 32 →
      s.ctxOfJob m.job = some (c, x) → data ≠ [] → x.OnHbm m.offset data.length →
      (load = true ∨ m.part = s.partition ∧ x.OnWritable m.offset data.length) →
      let n := flitCount data.length
      ∃ t, exec (.mcastWrite m load dests i data) s = .next t ∧ s.Stored x m.offset data t ∧
        s.Heard t (s.hashPlane s.node m.offset) 0 n n ∧
        (dests.length ≤ 4 * i + 1 → (∃ sent, t.out = sent ++ .ack m.src m.tag :: s.out ∧
            (s.NoMirror → sent = [] ∧ t.outst = s.outst ∧ t.nextTag = s.nextTag)) ∧
          t = { s with hbm := t.hbm, hbmPoison := t.hbmPoison, out := t.out, outst := t.outst, nextTag := t.nextTag, links := t.links,
                       xlate := t.xlate }) ∧
        (4 * i + 1 < dests.length → ∃ tags, t.forwarding = s.forwarding ++ [⟨m, tags⟩] ∧
          tags.length = min 4 (dests.length - (4 * i + 1)) ∧
          (∀ j, j < tags.length → ∃ o ∈ t.outst, some o.tag = tags[j]? ∧ some o.dst = dests[4 * i + 1 + j]? ∧
            o.purpose = .mcast m.src m.tag ∧ o.req.op = .mcast load dests (4 * i + 1 + j) data ∧
            (s.upHere ≠ [] → o.plane ≠ none) ∧ ∀ p, o.plane = some p → p ∈ s.upHere ∧ .request o.dst p o.req ∈ t.out) ∧
          (s.NoMirror → t.out.length = s.out.length + if s.upHere = [] then 0 else tags.length) ∧
          t = { s with hbm := t.hbm, hbmPoison := t.hbmPoison, outst := t.outst, nextTag := t.nextTag, forwarding := t.forwarding,
                       out := t.out, links := t.links, xlate := t.xlate })

/-- A response takes its request from the outstanding ones, and its flits are heard. An ACK of a step's request does no more; of a LOAD's
line, one line less is awaited; of a multicast child, the parent is acknowledged after the last. DATA confirms a page of a lend window, the
last one moving the page, and brings a line that the step in flight waits for. A NACK of a step's request is noted as the context's fault,
with the status of its reason (reason 6 of an add or marker: TIER_WRITE from outside the partition, else CONTEXT_FAULT; log entry 26), and
of a child travels up. A request outside a step that times out is issued once more, on another plane that is up where there is one, or
waits; in a step the share fails; one that has not left yet does not time out. PENDING restarts the timers toward its sender, or its seal
timer, and goes out for a source whose requests are held. -/
def Obligations.ResponsesAndTimeouts : Prop :=
  ∀ (s : State) (src tag : Nat) (o : Outst),
    (s.outst.find? (fun q => q.tag = tag && q.dst = src) = some o →
      let rest := s.outst.filter fun q => !(q.tag = tag && q.dst = src)
      ((o.purpose = .step → ∃ t, exec (.ack src tag) s = .next t ∧ s.HeardRsp t 0 ∧ t = { s with links := t.links, outst := rest }) ∧
        (∀ d l, o.purpose = .load d → s.load? d = some l → l.hostDone = false ∨ 1 < l.waiting →
          ∃ t, exec (.ack src tag) s = .next t ∧ s.HeardRsp t 0 ∧ t = { s with
            links := t.links, outst := rest,
            loads := s.loads.map fun l => if l.desc = d then { l with waiting := l.waiting - 1 } else l }) ∧
        ∀ p k f, o.purpose = .mcast p k → s.forwarding.find? (fun g => g.hdr.src = p && g.hdr.tag = k) = some f →
          let others := s.forwarding.filter fun g => !(g.hdr.src = p && g.hdr.tag = k)
          ((∀ k ∈ f.children, k = tag) → ∃ t, exec (.ack src tag) s = .next t ∧ s.HeardRsp t 0 ∧
            t = { s with links := t.links, outst := rest, forwarding := others, out := .ack p k :: s.out }) ∧
          ((∃ k ∈ f.children, k ≠ tag) → ∃ t, exec (.ack src tag) s = .next t ∧ s.HeardRsp t 0 ∧
            t = { s with links := t.links, outst := rest, forwarding := others ++ [{ f with children := f.children.filter (· != tag) }] }) ∧
          ∀ reason, ∃ t, exec (.nack src tag reason) s = .next t ∧ s.HeardRsp t 0 ∧
            t = { s with links := t.links, outst := rest, forwarding := others, out := .nack p k reason :: s.out }) ∧
      (∀ bytes poison, (o.purpose = .step ∨ (∃ d, o.purpose = .load d) ∨ (∃ n, o.purpose = .ship n) ∨ (∃ c, o.purpose = .mirror c) ∨
          ∃ p k, o.purpose = .mcast p k) →
        ∃ t, exec (.data src tag bytes poison) s = .next t ∧ s.HeardRsp t bytes.length ∧ t = { s with links := t.links, outst := rest }) ∧
      (∀ bytes poison c l, o.purpose = .line c l →
        ((∀ a, s.attempt = some a → a.ctx ≠ c) → ∃ t, exec (.data src tag bytes poison) s = .next t ∧ s.HeardRsp t bytes.length ∧
          t = { s with links := t.links, outst := rest }) ∧
        ∀ a, s.attempt = some a → a.ctx = c → a.todo = [] → a.ending = false → bytes.length = 128 →
          ∃ t, exec (.data src tag bytes poison) s = .next t ∧ s.HeardRsp t 128 ∧
            t = { s with links := t.links, outst := rest, attempt := some { a with lent := enlist l (bytes, poison) a.lent } }) ∧
      (∀ (bytes : List Byte) (poison : Bool) (path : Path) (q : Place) (x : Ctx), o.purpose = .lend path q.ctx q.first →
        s.places = [q] → q.path = path → q.op = 0 → q.fabric = true → q.started = true → q.copying = none → q.next = q.first →
        q.last = q.first + 1 → s.ctx q.ctx = some x → s.planned x.job = false → s.attempt = none → s.swaps = [] →
        entryHbm (x.page q.first) = true →
        ∃ t y, exec (.data src tag bytes poison) s = .next t ∧ t.ctx q.ctx = some y ∧ y.page q.first = fabricEntry q.node q.first ∧
          (∀ g, g ≠ q.first → y.page g = x.page g) ∧ t.places = [] ∧ fld (t.reg (oPlace path + 0x10)) 1 0 = 2 ∧
          (∀ k, k ∈ t.frames ↔ k ∈ s.frames ∧ k ∉ s.leaving ∧ k ≠ entryKey (x.page q.first)) ∧ t.outst = rest) ∧
      ∀ (reason : Nat) (x : Ctx), o.purpose = .step → s.ctx o.ctx = some x → s.planned x.job = true ∨ x.job ∈ s.replansDue →
        let ours := o.req.op.isRegion = true ∧ src ∈ s.members
        let status := if reason = 3 ∨ reason = 4 then stPage else if reason = 5 then stTier
          else if reason = 6 ∧ o.req.op.isRead = false ∧ ¬ ours then stTier else stFault
        ∃ t, exec (.nack src tag reason) s = .next t ∧ s.HeardRsp t 0 ∧ t = { s with
          links := t.links, outst := rest,
          dueFaults := if (o.ctx, status) ∈ s.dueFaults then s.dueFaults else s.dueFaults ++ [(o.ctx, status)] }) ∧
    ((∀ q ∈ s.outst, q.tag = tag → q.plane = none) → exec (.requestTimeout tag) s = .next s) ∧
    (s.outst.find? (fun q => q.tag = tag && q.plane.isSome) = some o →
      (o.req.hdr.step = 0 → o.reissued = false →
        let up (k : Nat) : Prop := k < 32 ∧ bit (s.reg oPlanes) k = true ∧ fld (s.reg (oPortStat k)) 1 0 = 2
        ∃ t p, exec (.requestTimeout tag) s = .next t ∧
          t.outst = s.outst.filter (·.tag != tag) ++ [{ o with reissued := true, plane := p, issued := s.time }] ∧
          ((∃ k, up k) → p ≠ none) ∧ ((∃ k, up k ∧ some k ≠ o.plane) → p ≠ o.plane) ∧
          (p = none → t.out = s.out) ∧ (∀ k, p = some k → up k ∧ t.out = .request o.dst k o.req :: s.out) ∧
          t = { s with outst := t.outst, out := t.out }) ∧
      ∀ a, o.req.hdr.step ≠ 0 → s.attempt = some a →
        (s.canSeal = true → ∃ t, exec (.requestTimeout tag) s = .next t ∧ t.attempt = none ∧
          ∀ n ∈ s.peers, Out.retract n ⟨a.plan.job, a.plan.step, a.plan.attempt, s.node, stTimeout, 0, a.overran⟩ ∈ t.out) ∧
        (s.canSeal = false → exec (.requestTimeout tag) s = .next { s with
          attempt := some { a with failed := some (a.failed.getD stTimeout) } })) ∧
    (∀ node r, s.parked.find? (fun r => r.2.hdr.src = node) = some r → exec (.requestPendingSend node) s = .next { s with
      out := .pendingMsg node 0 r.2.hdr.step r.2.hdr.attempt :: s.out }) ∧
    (∀ node step attempt, ∃ t, exec (.pendingMsg node 0 step attempt) s = .next t ∧ s.HeardCtl t 4 ∧ t = { s with
      links := t.links, outst := s.outst.map fun q => if q.dst = node then { q with issued := s.time } else q }) ∧
    ∀ (node : Nat) (a : Attempt), s.attempt = some a → ∃ t b, exec (.pendingMsg node 1 a.plan.step a.plan.attempt) s = .next t ∧
      s.HeardCtl t 4 ∧ assoc node b.sealTimers = some s.time ∧ (∀ k, k ≠ node → assoc k b.sealTimers = assoc k a.sealTimers) ∧
      b = { a with sealTimers := b.sealTimers } ∧ t = { s with links := t.links, attempt := some b }

/-- An offer is matched only by a waiting KV_ACCEPT whose record agrees in KV_FMT, LAYERS, HG and QPG and whose job tag is the same, and
else refused with DENIED. A grant makes this member write the granted pages' bytes to the destination in WRITEs of at most 8,192
bytes. WRITES_DONE of the last source member gives SHIP_DONE with the sum of pages, which the destination keeps. A home keeps each message
and timeout with whether its seal had gone, and acts at the boundary. There, while the context is idle: SHIP_ACCEPTED closes the source's
sequence, and its descriptor is done; a refused ship, and one that times out, ends its descriptor with that status and returns the sequence
to READY. SHIP_DONE makes the destination's sequence generate from what was shipped. A refusal, a timeout, also of an accept that saw no
offer, and an offer above MAX_LEN (BAD_DESCRIPTOR) end its descriptor and its sequence and refuse the source's offer (with DENIED above
MAX_LEN: log entry 21). -/
def Obligations.ShipMessages : Prop :=
  (∀ (n : ShipName) (s : State),
    (∀ committed pending layout job pen members,
      let c : Instr := .shipOffer n committed pending layout job pen members
      let len := (shipOfferBody n committed pending layout pen members).length
      let refused := ∃ t, exec c s = .next t ∧ s.HeardCtl t len ∧ t = { s with links := t.links, out := .shipRefused n.srcNode n stDenied :: s.out }
      (s.ship? n false = none ∨ (∀ h, s.ship? n false = some h → s.ctx h.ctx = none) → refused) ∧
      ∀ h x, s.ship? n false = some h → s.ctx h.ctx = some x →
        let same (a b msb lsb : Nat) := fieldAt x.kv a msb lsb = fieldAt layout b msb lsb
        let fits (q : Seq) := h.desc ≠ 0 ∧ h.offered = false ∧ same 0 0 2 0 ∧ same 0 0 22 16 ∧ same 4 4 15 0 ∧ same 4 4 21 16 ∧
          x.job = job ∧ x.seq? n.dstHandle = some q ∧ q.state = .receiving ∧ q.closing = none
        ((∀ q, ¬ fits q) → refused) ∧
        ∀ q, fits q → ∃ t, exec c s = .next t ∧ s.HeardCtl t len ∧
          t.ship? n false = some { h with
            offered := true, committed := committed, pending := pending.map (·.1), published := pending.any (·.2), pen := pen, members := members,
            run := fieldAt layout 0 11 8, offerTime := s.time
            news := h.news ++ [(if q.maxLen < committed + pending.toList.length then .ends stDenied stBad 0x18 else .offer, s.sealSent)] } ∧
          (∀ k b, (k, b) ≠ (n, false) → t.ship? k b = s.ship? k b) ∧ t = { s with links := t.links, ships := t.ships }) ∧
    (∀ (node : Nat) (logical pages : List Nat) (c : Nat) (x : Ctx) (tb : Table), s.ctxOfJob n.job = some (c, x) → x.table? n.srcHandle = some tb →
      x.Sound → s.Clean → s.hbmPoison = [] → s.tableFaults = [] →
      let slots := logical.flatMap fun j => x.planes.map fun lh => s.ptEntry x tb (localIndex x.runLog2 s.members.length j) lh.1 lh.2
      (∀ e ∈ slots, x.OnHbm (x.pageAddr e.page) x.pageSize) → slots ≠ [] → pages ≠ [] →
      ∃ t new, exec (.shipGrant n node logical pages) s = .next t ∧ s.HeardCtl t (shipGrantBody n logical pages).length ∧
        t.outst = s.outst ++ new ∧ (∃ h, t.ship? n true = some h ∧ ∀ j ∈ logical, j ∈ h.granted) ∧
        (∀ o ∈ new, o.dst = node ∧ o.purpose = .ship n ∧ (s.upHere ≠ [] → o.plane ≠ none) ∧
          (∀ p, o.plane = some p → .request node p o.req ∈ t.out) ∧ o.req.op.span ≤ 8192) ∧
        new.flatMap (fun o => match o.req.op with | .write bs => bs | _ => []) =
          (slots.zip pages).flatMap (fun e => (List.range x.pageSize).map fun i => s.ctxByte x (x.pageAddr e.1.page + i)) ∧
        new.map (fun o => o.req.hdr.offset) = (slots.zip pages).flatMap (fun e =>
          (List.range (cdiv x.pageSize 8192)).map fun k => (e.2 + 8192 * k) % 2 ^ 40) ∧
        t = { s with ships := t.ships, outst := t.outst, nextTag := t.nextTag, links := t.links, lent := t.lent, out := t.out }) ∧
    (∀ (member pages : Nat) (h : Ship) (x : Ctx), s.ship? n true = some h → s.ctx h.ctx = some x → h.desc ≠ 0 → h.offered = true →
      h.arrived = false → (∀ e ∈ h.done, e.1 ≠ member) →
      let all := ∀ m ∈ s.sourceMembers x n h.committed, m = member ∨ ∃ e ∈ h.done, e.1 = m
      ∃ t, exec (.writesDone n member pages) s = .next t ∧ s.HeardCtl t 24 ∧
        (¬ all → t.ship? n true = some { h with done := h.done ++ [(member, pages)] } ∧ t.out = s.out) ∧
        (all → t.ship? n true = some { h with done := h.done ++ [(member, pages)], arrived := true } ∧
          t.out = .shipDone n ((h.done.map (·.2)).sum + pages) :: s.out) ∧
        t = { s with ships := t.ships, links := t.links, out := t.out }) ∧
    (∀ (pages : Nat) (h : Ship), s.ship? n false = some h → ∃ t, exec (.shipDone n pages) s = .next t ∧ s.HeardCtl t 20 ∧
      t.ship? n false = some { h with arrived := true, done := [(0, pages)], news := h.news ++ [(.arrived, s.sealSent)] } ∧
      t = { s with ships := t.ships, links := t.links }) ∧
    (∀ h, s.ship? n true = some h → ∃ t, exec (.shipAccepted n) s = .next t ∧ s.HeardCtl t 16 ∧
      t.ship? n true = some { h with news := h.news ++ [(.accepted, s.sealSent)] } ∧ t = { s with ships := t.ships, links := t.links }) ∧
    (∀ (out : Bool) (h : Ship), s.ship? n out = some h →
      let hears (k : ShipNews) (t : State) : Prop := t.ship? n out = some { h with news := h.news ++ [(k, s.sealSent)] }
      (∀ status, (out = false → s.ship? n true = none) → ∃ t, exec (.shipRefused n status) s = .next t ∧ s.HeardCtl t 20 ∧
        hears (.ends status status 0) t ∧ t = { s with ships := t.ships, links := t.links }) ∧
      (h.offered = true → h.arrived = false → ∃ t, exec (.shipTimeout n) s = .next t ∧ hears (.ends stTimeout stTimeout 0) t ∧
        t = { s with ships := t.ships }) ∧
      (h.offered = false ∨ h.arrived = true → s.ship? n (!out) = none → s.ships = [h] → exec (.shipTimeout n) s = .next s) ∧
      ∀ c : Fin 64, out = false → s.ships = [h] → h.desc ≠ 0 → h.ctx = c.val →
        (h.offered = false → ∃ t, exec (.acceptTimeout c n.dstHandle) s = .next t ∧ hears (.ends stTimeout stTimeout 0) t ∧
          t = { s with ships := t.ships }) ∧
        (h.offered = true → exec (.acceptTimeout c n.dstHandle) s = .next s))) ∧
  ∀ (s : State) (c : Nat) (x : Ctx) (d : Desc) (h : Ship) (k : ShipNews) (q : Seq), s.Shipping c x d h k →
    let n := h.name
    let became (handle : Nat) (q : Option Seq) (t : State) : Prop := exec .idleApply s = .next t ∧ t.seq? c handle = q
    (h.out = true → x.seq? n.srcHandle = some q → q.state = .shipping →
      (k = .accepted → ∃ t, became n.srcHandle none t ∧ s.Done t d stOk 0 ∧ t.ship? n true = none) ∧
      ∀ tell status result, k = .ends tell status result →
        ∃ t, became n.srcHandle (some { q with state := .ready }) t ∧ s.Done t d status result ∧ t.ship? n true = none) ∧
    (h.out = false → x.seq? n.dstHandle = some q → q.state = .receiving → q.gen = some d.id →
      (∀ tell status result, k = .ends tell status result →
        ∃ t, became n.dstHandle none t ∧ s.Done t d status result ∧ t.ship? n false = none ∧
          (h.offered = true → Out.shipRefused n.srcNode n tell ∈ t.out)) ∧
      ∀ token, k = .arrived → h.accepted = true → h.pending = some token → ∃ t,
        became n.dstHandle (some { q with
          committed := h.committed, queue := [token], rootPublished := h.published, pen := h.pen, state := .decode, pre := none }) t ∧
        t.desc? d.id = some { d with phase := .running } ∧ t.ship? n false = none ∧ Out.shipAccepted n ∈ t.out)

/-- Where R150 lets the next plan start: the attempt holds the plan, no work and the seals that came early; late starts and switches
count, the plan's planes are in force, other contexts stay, and the load stage is done at once when nothing has to come from another
member. A refusal, a RETRACT or a failed share that came early stops it. A stage whose work, windows and transfers are done ends on
STAGE_END; vector work is lane by lane, each lane with its poison, and an integer row is given out when every residue passes and else
withheld with `CHK_FAIL` (log entry 24 for the form of work). A window of the stage ends once its cycles have passed; with work
outstanding it fails the share; that of an expert sends its marker to every home. -/
def Obligations.StepStartsAndStages : Prop :=
  (∀ s : State, s.nextPlan = none → exec .stepStart s = .next s) ∧
  (∀ (s : State) (p : Plan) (c : Nat) (x : Ctx), s.nextPlan = some p → s.ctxOfJob p.job = some (c, x) →
    let mine (m : SealMsg) : Bool := m.job = p.job && m.step = p.step && m.attempt = p.attempt
    let against (r : RetractMsg) : Prop := r.job = p.job ∧ r.step = p.step ∧ r.attempt = p.attempt
    (s.mayStart p x = false → exec .stepStart s = .next s) ∧
    (s.mayStart p x = true → (∃ m ∈ s.sealsHeld, mine m = true ∧ (isRefusal m = true ∨ m.pass = false)) ∨ (∃ r ∈ s.retractsHeld, against r) →
      ∃ t, exec .stepStart s = .next t ∧ t.attempt = none) ∧
    (s.mayStart p x = true → (∀ m ∈ s.sealsHeld, mine m = true → isRefusal m = false ∧ m.pass = true) →
      (∀ r ∈ s.retractsHeld, ¬ against r) → s.parked = [] → s.Clean →
      ∃ t a y, exec .stepStart s = .next t ∧ t.ctx c = some y ∧ (∀ k, k ≠ c → t.ctx k = s.ctx k) ∧
        y.seqs = x.seqs ∧ y.step = x.step ∧ y.pages = x.pages ∧
        (s.isLead = false → y.policy = p.policy ∧ y.groupMax = p.groups ∧ y.bench = p.bench ∧ y.ratio = p.ratio) ∧
        a.plan = { p with rows := a.plan.rows } ∧ a.ctx = c ∧ a.started = s.time ∧ a.stage = 0 ∧
        a.windows = [] ∧ a.bufs = [] ∧ a.writes = [] ∧ a.tiles = [] ∧ a.results = [] ∧ a.sealed = false ∧
        a.seals = s.sealsHeld.filter mine ∧ t.reg oPlanes = BitVec.ofNat 32 p.mask ∧
        ((∀ r ∈ p.rows, s.isHome r.handle = true) → (∀ g, entryFabric (x.page g) = false) → (p.rows.map (·.handle)).Nodup →
          a.loaded = true ∧ a.todo = [] ∧ a.plan.rows = p.rows.map fun r => x.cutRow (x.tableRow r)) ∧
        (t.reg oLateStart).toNat = (if p.start < s.time then min (2 ^ 32 - 1) ((s.reg oLateStart).toNat + 1) else (s.reg oLateStart).toNat) ∧
        (t.reg oSwitches).toNat = (if s.lastJob ≠ 0 ∧ s.lastJob ≠ p.job then min (2 ^ 32 - 1) ((s.reg oSwitches).toNat + 1)
          else (s.reg oSwitches).toNat) ∧ s.SameRegs t [oPlanes, oLateStart, oSwitches] ∧
        (∀ k, (∀ g, entryKey (x.page g) ≠ frameOfByte k) → peek 0#8 t.hbm k = peek 0#8 s.hbm k) ∧
        t = { s with
          plans := s.plans.filter (· != p), lastJob := p.job, switchWait := []
          lead := { s.lead with cur := p.job, saved := s.lead.saved.filter fun k => !(k.job = p.job && k.step = p.step) }
          sealsHeld := s.sealsHeld.filter fun m => !mine m
          resting := [], ctxs := t.ctxs, hbm := t.hbm, hbmPoison := t.hbmPoison, regs := t.regs, slices := t.slices
          slicePoison := t.slicePoison, sliceFlips := t.sliceFlips, jigStore := t.jigStore, outst := t.outst, nextTag := t.nextTag
          tableFaults := t.tableFaults, fresh := t.fresh, xlate := t.xlate, lent := t.lent, out := t.out, attempt := some a })) ∧
  ∀ (s : State) (a : Attempt), s.attempt = some a →
    (a.sealed = true → ∀ w, (∀ p ∈ w, workArrives p = false) → exec (.stageEnd w) s = .next s) ∧
    (∀ x, s.ctx a.ctx = some x → a.sealed = false → a.todo = [] → a.ending = false → a.wants = [] → a.waits = false → a.lags = [] →
      a.span.2 ≤ a.cycle → (∀ iw ∈ a.windowsNow, iw.1 ∈ a.windows) →
      let e : Attempt := { a with stage := min (a.stage + 1) a.stageCount, cycle := 0, claims := [] }
      let b : Attempt := { e with phase := if e.layerNow.isSome && e.layerNow = a.layerNow then a.phase else 0 }
      let stored (t : State) : Prop := ∀ q ∈ t.jigStore, q.1 < s.fuses.dies ∧ (q.2.1 = b.stage ∨ q.2.1 = b.stage + 1)
      (∃ t, exec (.stageEnd []) s = .next t ∧ stored t ∧ t = { s with attempt := some b, jigStore := t.jigStore, xlate := t.xlate }) ∧
      ∀ dst p q : Nat,
        (∀ rows, a.fits (.input dst rows) = true → ∃ t, exec (.stageEnd [.input dst rows]) s = .next t ∧ stored t ∧ t = { s with
          attempt := some { b with bufs := enlist dst (.rows (rows.map fun r => ⟨r.map fun v => (v, false)⟩)) a.bufs }
          jigStore := t.jigStore, xlate := t.xlate }) ∧
        ∀ (die : Fin 8) (core : Fin 48) (r : Nat), s.coreOk a die.val core.val = true → (∀ n ∈ [p, q, r], a.unready n = false) →
          let cell (n i k : Nat) : Word × Bool := (rowAt (s.bufRows n) i).cells.getD k (0#32, false)
          (∀ op, a.fits (.vec (.float op) dst p q r die core) = true → ∃ t bufs events,
            exec (.stageEnd [.vec (.float op) dst p q r die core]) s = .next t ∧ stored t ∧
            (∀ i f, (s.bufRows p)[i]? = some f → a.heldRow i = true ∨ a.rowOn core.val i = true →
              (t.bufRows dst)[i]? = some (if a.heldRow i then a.heldState i else ⟨(List.range f.cells.length).map fun k =>
                (floatEval op (cell p i k).1 (cell q i k).1 (cell r i k).1, (cell p i k).2 || (cell q i k).2 || (cell r i k).2)⟩)) ∧
            (∀ k, k ≠ dst → assoc k bufs = assoc k a.bufs) ∧
            (∃ n, events = { a.events with fp8OutSat := a.events.fp8OutSat + n } ∧ ((∀ f, op ≠ .toFmt f) → n = 0) ∧
              ∀ f row, op = .toFmt f → s.bufRows p = [row] → a.heldRow 0 = false → a.rowOn core.val 0 = true →
                n = (row.vals.filter fun v => (convert f v).2).length) ∧
            t = { s with attempt := some { b with bufs := bufs, events := events }, jigStore := t.jigStore, xlate := t.xlate }) ∧
          ∀ (op : IntOp) (upset : Word) (f : FRow), a.fits (.vec (.int op upset) dst p q r die core) = true →
            s.bufRows p = [f] → a.heldRow 0 = false → a.rowOn core.val 0 = true →
            let y (u : Word) : FRow := ⟨(List.range f.cells.length).map fun k =>
              (op.eval (cell p 0 k).1 (cell q 0 k).1 ^^^ u, (cell p 0 k).2 || (cell q 0 k).2 || (cell r 0 k).2)⟩
            let passes := ∀ k < f.cells.length,
              op.residueOk (cell p 0 k).1 (cell q 0 k).1 (op.eval (cell p 0 k).1 (cell q 0 k).1 ^^^ upset) = true
            (passes → ∃ t bufs, exec (.stageEnd [.vec (.int op upset) dst p q r die core]) s = .next t ∧ stored t ∧
              (t.bufRows dst)[0]? = some (y upset) ∧ (∀ k, k ≠ dst → assoc k bufs = assoc k a.bufs) ∧
              t = { s with attempt := some { b with bufs := bufs }, jigStore := t.jigStore, xlate := t.xlate }) ∧
            (¬ passes → ∃ t, exec (.stageEnd [.vec (.int op upset) dst p q r die core]) s = .next t ∧ stored t ∧
              t.reg (oCoreState die.val core.val) = setBit (s.reg (oCoreState die.val core.val)) 3 true ∧
              s.SameRegs t [oCoreState die.val core.val] ∧ t = { s with
                regs := t.regs, jigStore := t.jigStore, xlate := t.xlate
                attempt := some { b with held := a.held ++ [⟨die.val, core.val, .row dst 0, y 0#32, []⟩] } })) ∧
    ∀ index : Nat,
      ((∀ w, a.windowsNow.find? (fun iw => iw.1 = index) = some (index, w) → a.windowOver w = false) ∨ a.windows.contains index = true ∨
        a.sealed = true → ∀ o, exec (.windowEnd index o) s = .next s) ∧
      ∀ w, a.windowsNow.find? (fun iw => iw.1 = index) = some (index, w) → a.windowOver w = true → a.windows.contains index = false →
        a.sealed = false →
        (s.canSeal = true → ∃ t, exec (.windowEnd index true) s = .next t ∧ t.attempt = none ∧
          ∀ n ∈ s.peers, Out.retract n ⟨a.plan.job, a.plan.step, a.plan.attempt, s.node, stTimeout, 0, true⟩ ∈ t.out) ∧
        (s.canSeal = false → exec (.windowEnd index true) s = .next { s with
          attempt := some { a with overran := true, failed := some (a.failed.getD stTimeout) } }) ∧
        (a.todo = [] → a.ending = false → (∀ t ∈ a.tiles, a.mayLeave t = false) →
          (wEngine w ≠ 3 → (∀ layer, a.layerNow = some layer → windowExpert a.img s.fuses.dies layer index = none) →
            exec (.windowEnd index false) s = .next { s with attempt := some { a with windows := a.windows ++ [index] } }) ∧
          ∀ layer expert e d x, a.layerNow = some layer → a.kindNow = some 1 →
            windowExpert a.img s.fuses.dies layer index = some expert →
            expertRec a.img layer = some e → expert < e.experts → jigOperand a.img e.downDesc = some d →
            s.ctx a.ctx = some x → s.members.Nodup → s.node ∈ s.inService →
            let adds (n : Nat) := cdiv (opN d) 256 * ((((assoc layer a.sends).getD []).getD expert []).filter fun l => l.home = n).length
            let k := combineOf a layer
            ∃ t b, exec (.windowEnd index false) s = .next t ∧ t.attempt = some b ∧ b.windows = a.windows ++ [index] ∧
              combineOf b layer = { k with markers := k.markers + 1, due := k.due + adds s.node } ∧
              (∀ l, l ≠ layer → combineOf b l = combineOf a l) ∧ b = { a with windows := b.windows, combines := b.combines } ∧
              (∀ n ∈ s.peers, ∃ o ∈ t.outst, o.dst = n ∧ o.purpose = .step ∧ o.req.op = .group layer expert s.me (adds n) ∧
                (s.upHere ≠ [] → o.plane ≠ none) ∧ ∀ p, o.plane = some p → .request n p o.req ∈ t.out) ∧
              t = { s with attempt := some b, outst := t.outst, nextTag := t.nextTag, out := t.out })

/-- With no work of the stage waiting, and no other tile that may leave its bank. The oldest unchecked tile of a core: when every row's
sum and counts agree it has passed; once no adds from outside are due and its site's grants are made, its outputs leave rounded into their
rows, each with its poison, but for rows granted a wide recompute, or as one exact add for each row to a region here or at its home, or as
half a page of an attention part, which goes to its home once it is whole; until then it stays in its bank. Else it is withheld and `CHK_FAIL` set. A replay that passes
gives out a tile or integer row, and the core that failed gets a corrected event. A first one that fails leaves the second to the next
running core with a clock; a second one that fails counts as unrecoverable and names the whole context in the seal. -/
def Obligations.CheckersAndReplays : Prop :=
  ∀ (s : State) (a : Attempt) (x : Ctx) (die : Fin 8) (core : Fin 48), s.attempt = some a → s.ctx a.ctx = some x →
    a.todo = [] → a.ending = false →
    let reg (n : Nat) := oCoreState die.val n
    let fault (unit event : Nat) : FaultEntry := ⟨1, die.val, unit, event, a.plan.step % 2 ^ 32, s.time, false⟩
    let desc (t : Tile) : List Byte := (jigOperand a.img t.desc).getD []
    let alone (k : Nat) : Prop := ∀ i t, a.tiles[i]? = some t → i ≠ k → a.mayLeave t = false
    let given (t : Tile) (dst : Nat) (u : State) : Prop := ∃ b, u.attempt = some b ∧ (∀ i j os inv acc f, i ∉ a.skips t → t.outs[i]? = some os →
      t.invalid[i]? = some inv → os[j]? = some acc → inv[j]? = some f →
        let o := roundOutput (opSigma (desc t)) t.fmt f acc
        ((u.bufRows dst).getD (t.row + i) FRow.empty).cells[256 * t.col + j]? = some (widenOut t.fmt o.code, o.poison)) ∧
      (∀ i ∈ a.skips t, rowAt (u.bufRows dst) (t.row + i) = rowAt (s.bufRows dst) (t.row + i)) ∧
      (∀ q, q ≠ dst → assoc q b.bufs = assoc q a.bufs ∧ assoc q b.formed = assoc q a.formed) ∧ assoc dst b.formed = some t.desc
    (∀ (upset : List (Nat × Nat × Nat)) (k : Nat) (t : Tile),
      a.tiles.findIdx? (fun t => t.on die core && !t.failed && !t.passed) = some k → a.tiles[k]? = some t → alone k →
      let ok := ∀ r ∈ (t.seen upset).zip t.chk, r.1 = [] ∨ rowPasses r.1 r.2 = true
      (¬ ok → ∃ u, exec (.tileCheck die core upset) s = .next u ∧ u.reg (reg core) = setBit (s.reg (reg core)) 3 true ∧
        s.SameRegs u [reg core] ∧ u = { s with
          regs := u.regs, attempt := some { a with tiles := a.tiles.set k { t with failed := true } } }) ∧
      (ok → t.due ≠ 0 ∨ a.undecided t = true → exec (.tileCheck die core upset) s = .next { s with
        attempt := some { a with tiles := a.tiles.set k { t with passed := true } } }) ∧
      (ok → t.due = 0 → a.undecided t = false →
        (∀ dst, t.release = .rows dst → ∃ u, exec (.tileCheck die core upset) s = .next u ∧ given t dst u ∧
          (s.openMoves a = [] → ∃ b,
            b = { a with tiles := a.tiles.eraseIdx k, bufs := b.bufs, formed := b.formed, events := b.events } ∧
            u = { s with attempt := some b })) ∧
        (∀ w ev r, t.release = .walk w ev → a.plan.rows[w.seq]? = some r →
          let b : Attempt := { a with
            tiles := a.tiles.eraseIdx k, events := (a.events.add (a.tileEvents t)).add ev, walks := a.walks ++ [w] }
          (s.partDone b x w = none → exec (.tileCheck die core upset) s = .next { s with attempt := some b }) ∧
          ∀ p, s.partDone b x w = some p →
            (s.isHome r.handle = true → exec (.tileCheck die core upset) s = .next
              { s with attempt := some { b with parts := a.parts ++ [p] } }) ∧
            (s.isHome r.handle = false → exec (.tileCheck die core upset) s = .next
              { s with attempt := some b, out := .part (s.homeNode r.handle) p :: s.out })) ∧
        ∀ region home slot os inv, (t.release = .here region ∧ home = s.node ∧ slot = t.row ∨ t.release = .home region [(home, slot)]) →
          t.outs = [os] → t.invalid = [inv] → os ≠ [] → a.skips t = [] →
          let first := slot * opN (desc t) + 256 * t.col
          let out := os.take inv.length
          let c := combineOf a region
          (home = s.node → c.rounded = false → ∃ u b, exec (.tileCheck die core upset) s = .next u ∧
            (combineOf b region).adds = c.adds + 1 ∧
            (∀ i, peek Acc.empty (combineOf b region).accs i = match out[i - first]? with
              | some v => if first ≤ i then (peek Acc.empty c.accs i).add v else peek Acc.empty c.accs i
              | none => peek Acc.empty c.accs i) ∧ (∀ l, l ≠ region → combineOf b l = combineOf a l) ∧
            b = { a with tiles := a.tiles.eraseIdx k, combines := b.combines, events := b.events } ∧ u = { s with attempt := some b }) ∧
          (home ≠ s.node → ∃ u b o, exec (.tileCheck die core upset) s = .next u ∧ u.outst = s.outst ++ [o] ∧ o.dst = home ∧
            o.purpose = .step ∧ o.req.op = .acc (out.map Acc.wire) ∧ o.req.hdr.offset = (region + 2 ^ 16 * first) % 2 ^ 40 ∧
            o.req.hdr.step = a.plan.step ∧ o.req.hdr.attempt = a.plan.attempt ∧ (s.upHere ≠ [] → o.plane ≠ none) ∧
            (o.plane = none → u.out = s.out) ∧ (∀ p, o.plane = some p → u.out = .request home p o.req :: s.out) ∧
            b = { a with tiles := a.tiles.eraseIdx k, events := b.events, sig := b.sig } ∧ u = { s with
              attempt := some b, outst := u.outst, nextTag := u.nextTag, out := u.out }))) ∧
    (∀ (k : Nat) (t : Tile), a.tiles.findIdx? (fun t => t.on die core && t.failed) = some k → a.tiles[k]? = some t → alone k →
      (∀ dst, t.release = .rows dst → t.due = 0 → a.undecided t = false → s.flash.history.length + 4 ≤ 65536 →
        ∃ u, exec (.replayDone die core true) s = .next u ∧ given t dst u ∧
          (u.reg oImmTransient).toNat = min (2 ^ 32 - 1) ((s.reg oImmTransient).toNat + 1) ∧
          fault core 1 ∈ u.flash.history ∧ (∀ r ∈ t.replays.head?, fault r 1 ∈ u.flash.history) ∧
          (s.openMoves a = [] → s.SameRegs u [oImmTransient] ∧ ∃ b,
            b = { a with tiles := a.tiles.eraseIdx k, bufs := b.bufs, formed := b.formed, events := b.events } ∧
            u = { s with regs := u.regs, flash := { s.flash with history := u.flash.history }, attempt := some b })) ∧
      (t.replays = [] → ∃ u, exec (.replayDone die core false) s = .next u ∧
        let n := s.replayCore die.val core.val []
        ((∃ m < 48, m ≠ core.val ∧ s.coreWorks die.val m = true) → n ≠ core.val ∧ s.coreWorks die.val n = true) ∧
        u.reg (reg n) = setBit (s.reg (reg n)) 3 true ∧ s.SameRegs u [reg n] ∧
        u = { s with regs := u.regs, attempt := some { a with tiles := a.tiles.set k { t with replays := [n] } } }) ∧
      (t.replays ≠ [] → s.flash.history.length < 65536 → ∃ u b, exec (.replayDone die core false) s = .next u ∧
        let n := s.replayCore die.val core.val t.replays
        (u.reg oImmUnrecov).toNat = min (2 ^ 32 - 1) ((s.reg oImmUnrecov).toNat + 1) ∧
        u.reg (reg n) = setBit (s.reg (reg n)) 3 true ∧ s.SameRegs u [oImmUnrecov, reg n] ∧ ⟨wholeCtx, a.ctx, stFault⟩ ∈ b.faults ∧
        (∀ f ∈ a.faults, f ∈ b.faults) ∧ b = { a with tiles := a.tiles.eraseIdx k, faults := b.faults } ∧ u = { s with
          regs := u.regs, flash := { s.flash with history := s.flash.history ++ [fault core 4] }, attempt := some b })) ∧
    ∀ (k : Nat) (h : Held), a.tiles.findIdx? (fun t => t.on die core && t.failed) = none →
      a.held.findIdx? (fun h => h.die = die.val && h.core = core.val) = some k → a.held[k]? = some h →
      ∃ u b, exec (.replayDone die core true) s = .next u ∧ u.attempt = some b ∧ b.held = a.held.eraseIdx k ∧
        (∀ dst i, h.goal = .row dst i → (u.bufRows dst)[i]? = some h.row ∧ u.vregs = s.vregs) ∧
        (∀ key, h.goal = .reg key → b.bufs = a.bufs ∧ ∀ j < 64, peek 0#32 u.vregs (64 * key + j) = h.row.vals.getD j 0#32) ∧
        (u.reg oImmTransient).toNat = min (2 ^ 32 - 1) ((s.reg oImmTransient).toNat + 1) ∧ s.SameRegs u [oImmTransient]

/-- A layer's combine with every marker and as many adds as they sum to is rounded once, with no work of the stage waiting: each row
homed here becomes its residual plus the rounded accumulators, each value with its poison, KV-fill rows keep their held state, and each
row is multicast to the members in requests of at most 8,192 bytes (log entry 24 for its place). A region that the jig declares for a
reduction is rounded on its count of adds. A hold of a segment is kept in `STALL_MAX`; one that waits for another package only adds remote
wait (a free value, log entry 24), and any other beyond the limit sets its bit, counts, and fails the share in flight with a RETRACT,
which waits while the seal agent's die is in reset. -/
def Obligations.CombineAndStall : Prop :=
  (∀ (layer : Nat) (s : State) (a : Attempt) (x : Ctx) (e : ExpertRec) (d : List Byte), s.attempt = some a → s.ctx a.ctx = some x →
    expertRec a.img layer = some e → jigOperand a.img e.downDesc = some d →
    let k := combineOf a layer
    (k.rounded = true ∨ k.markers ≠ e.experts * s.members.length ∨ k.adds ≠ k.due → exec (.combineRound layer) s = .next s) ∧
    (k.rounded = false → k.markers = e.experts * s.members.length → k.adds = k.due → a.todo = [] → a.ending = false →
      ∃ t b, exec (.combineRound layer) s = .next t ∧ combineOf b layer = { k with rounded := true } ∧
        (∀ j row seq, (s.homedRows a)[j]? = some (row, seq) →
          let res := rowAt (s.bufRows (residualBuf layer)) row
          let now := rowAt (t.bufRows (resultBuf layer)) row
          (a.kvFillAt seq layer = true → now = a.heldState row) ∧
          (a.kvFillAt seq layer = false → now.cells.length = opN d ∧
            (∀ c, c < opN d → let o := roundOutput (opSigma d) .fp32 false (peek Acc.empty k.accs (j * opN d + c))
              let r := res.cells.getD c (0#32, false)
              now.cells[c]? = some (fadd r.1 (BitVec.ofNat 32 o.code), r.2 || o.poison)) ∧
            ∀ i ∈ children (s.peers.length + 1) 0, ∀ m, 8192 * m < 4 * opN d → ∃ o ∈ t.outst, some o.dst = (s.node :: s.peers)[i]? ∧
              o.purpose = .step ∧ o.req.op = .mcast false (s.node :: s.peers) i (window (8192 * m) 8192 (bytesOf now.vals)) ∧
              o.req.hdr.offset = (Config.rowPlace a.img layer row + 8192 * m) % 2 ^ 40 ∧
              (s.upHere ≠ [] → o.plane ≠ none) ∧ ∀ p, o.plane = some p → .request o.dst p o.req ∈ t.out)) ∧
        (∀ q, q ≠ resultBuf layer → assoc q b.bufs = assoc q a.bufs) ∧ (∀ l, l ≠ layer → combineOf b l = combineOf a l) ∧
        b = { a with
          bufs := b.bufs, combines := b.combines, events := b.events, sig := b.sig
          phase := if a.layerNow = some layer then max a.phase 9 else a.phase } ∧
        t = { s with attempt := some b, outst := t.outst, nextTag := t.nextTag, out := t.out })) ∧
  (∀ (region : Nat) (s : State) (a : Attempt) (x : Ctx), s.attempt = some a → s.ctx a.ctx = some x → expertRec a.img region = none →
    a.todo = [] → a.ending = false →
    let k := combineOf a region
    ((accRegions a.img).find? (fun r => r.1 = region) = none → exec (.combineRound region) s = .next s) ∧
    ∀ desc count d, (accRegions a.img).find? (fun r => r.1 = region) = some (region, desc, count) → jigOperand a.img desc = some d →
      (k.rounded = true ∨ k.adds ≠ count → exec (.combineRound region) s = .next s) ∧
      (k.rounded = false → k.adds = count → ∃ t b, exec (.combineRound region) s = .next t ∧ combineOf b region = { k with rounded := true } ∧
        (∀ e ∈ k.accs, ∀ c < opN d, let i := e.1 / max 1 (opN d)
          let f := outFmtOf (opOut d)
          let o := roundOutput (opSigma d) f false (peek Acc.empty k.accs (i * opN d + c))
          (rowAt (t.bufRows (resultBuf region)) i).cells[c]? = some (widenOut f o.code, o.poison)) ∧
        (∀ q, q ≠ resultBuf region → assoc q b.bufs = assoc q a.bufs) ∧ (∀ l, l ≠ region → combineOf b l = combineOf a l) ∧
        b = { a with bufs := b.bufs, formed := b.formed, combines := b.combines, events := b.events } ∧ t = { s with attempt := some b })) ∧
  ∀ (die seg : Fin 8) (cycles : Nat) (s : State),
    let top := oStallMax die.val
    let stat := oStallStat die.val
    let most (t : State) : Prop := fld (t.reg top) 23 0 = max (fld (s.reg top) 23 0) (min 0xFFFFFF cycles)
    (∃ t, exec (.stallWatchdog die seg cycles true) s = .next t ∧ most t ∧
      t.reg64 oRemoteLo = min (2 ^ 64 - 1) (s.reg64 oRemoteLo + (Config.freeValue s.fresh).toNat) ∧
      s.SameRegs t [top, oRemoteLo, oRemoteLo + 4] ∧ t = { s with regs := t.regs, fresh := s.fresh + 1 }) ∧
    (cycles ≤ fld (s.reg (oStallLimit die.val)) 23 0 →
      ∃ t, exec (.stallWatchdog die seg cycles false) s = .next t ∧ most t ∧ s.SameRegs t [top] ∧ t = { s with regs := t.regs }) ∧
    (fld (s.reg (oStallLimit die.val)) 23 0 < cycles → ∃ t, exec (.stallWatchdog die seg cycles false) s = .next t ∧ most t ∧
      bit (t.reg stat) seg.val = true ∧ fld (t.reg stat) 31 16 = min 65535 (fld (s.reg stat) 31 16 + 1) ∧
      (s.attempt = none → s.SameRegs t [top, stat] ∧ t = { s with regs := t.regs }) ∧
      ∀ a, s.attempt = some a →
        (s.canSeal = true → t.attempt = none ∧
          ∀ n ∈ s.peers, Out.retract n ⟨a.plan.job, a.plan.step, a.plan.attempt, s.node, stTimeout, 0, a.overran⟩ ∈ t.out) ∧
        (s.canSeal = false → s.SameRegs t [top, stat] ∧
          t = { s with regs := t.regs, attempt := some { a with failed := some (a.failed.getD stTimeout) } }))

/-- `SEAL_SEND` acts once the share is done, no replay of the step before is open, no seal has gone, the seal agent's die is not in reset
and the share has not failed: a passing seal with the signature and faults, those that commands raised for the context while the step ran
among them, goes to every peer, and a late one counts. Without every passing seal the attempt waits; with them the step commits, `INT_SIG`
shows it, and for a plain context its step number advances and its tentative line is memory. A peer's seal is heard; one of an attempt
that is over is dropped, and may count as late; another is kept once, held when its plan has not started; the last passing one commits,
and a failed one ends the attempt. A seal held for a replay alone is announced as PENDING while the agent's die is not in reset, and past
its deadline the share fails: RETRACT and a failed seal go out, or, while the agent's die is in reset, the failure is kept. -/
def Obligations.SealsAndCommit : Prop :=
  ∀ (s : State) (a : Attempt), s.attempt = some a →
    let held := a.sealed = false ∧ s.shareDone a = true ∧ s.shadowPending = true
    let others := ∀ n ∈ s.peers, ∃ m ∈ a.seals, m.node = n ∧ m.pass = true
    let ours (t : State) (m : SealMsg) : Prop := m.node = s.node ∧ m.job = a.plan.job ∧ m.step = a.plan.step ∧ m.attempt = a.plan.attempt ∧
      m.sig = a.sig ∧ m.planes = s.upPlanes ∧ (m.pass = true → (∀ f ∈ a.faults, f ∈ m.faults) ∧
        ∀ f ∈ s.dueFaults, f.1 = a.ctx → ⟨wholeCtx, a.ctx, f.2⟩ ∈ m.faults) ∧ ∀ n ∈ s.peers, .seal n m ∈ t.out
    let late (t : State) (o : Nat) : Prop := (t.reg o).toNat =
      (if s.sealDeadline a.plan < s.time then min (2 ^ 32 - 1) ((s.reg o).toNat + 1) else (s.reg o).toNat) ∧
      (t.reg oLateMax).toNat = (if s.sealDeadline a.plan < s.time then max (s.reg oLateMax).toNat (min 0xFFFFFFFF (s.time - s.sealDeadline a.plan))
        else (s.reg oLateMax).toNat)
    let signed (t : State) : Prop := t.attempt = none ∧ t.commits = s.commits + 1 ∧ t.reg64 oSigLo = a.sig % 2 ^ 64 ∧
      t.reg64 oSigStepLo = a.plan.step % 2 ^ 48
    (a.sealed = true ∨ s.shareDone a = false ∨ s.shadowPending = true ∨ s.canSeal = false ∨ a.failed ≠ none → exec .sealSend s = .next s) ∧
    (a.sealed = false → s.shareDone a = true → s.shadowPending = false → s.canSeal = true → a.failed = none →
      (¬ others → ∃ t m, exec .sealSend s = .next t ∧ ours t m ∧ m.pass = true ∧ late t oLateSeal ∧ s.SameRegs t [oLateSeal, oLateMax] ∧
        t = { s with
          regs := t.regs, out := t.out, telling := t.telling
          lead := { s.lead with incoming := t.lead.incoming, reports := t.lead.reports }
          attempt := some { a with sealed := true, seals := a.seals ++ [m], sealTimers := s.peers.map fun n => (n, s.time) } }) ∧
      (others → ∃ t m, exec .sealSend s = .next t ∧ ours t m ∧ m.pass = true ∧ signed t) ∧
      ∀ x l, s.ctxs = [(a.ctx, x)] → s.members = [s.node] → s.lostNodes = [] → a.seals = [] → s.opens = [] → s.ships = [] →
        a.faults = [] → a.plan.rows = [] → a.plan.train = none → x.state = .active → x.teardown = none → x.poolPages = 0 → x.seqs = [] →
        x.tables = [] → x.copies = [] → s.edits = [] → s.heldEdits = [] → s.unsent = [] → s.swaps = [] → s.places = [] → s.strict = [] →
        s.tableFaults = [] → s.dueFaults = [] → s.Clean → a.writes ≠ [] → (∀ w ∈ a.writes, w.1 / 128 = l) → entryHbm (x.page (pageOf (128 * l))) = true →
        ∃ t y, exec .sealSend s = .next t ∧ t.ctx a.ctx = some y ∧ y.step = a.plan.step ∧ y.pages = x.pages ∧ y.state = .active ∧
          (∀ i < 128, t.ctxByte y (128 * l + i) = (assoc (128 * l + i) a.writes).getD (s.ctxByte x (128 * l + i))) ∧
          t.ctxPoison y (128 * l) = (a.wpoison.contains l || (!a.fullLine l && s.ctxPoison x (128 * l)))) ∧
    (∀ m, let came (t : State) : Prop := exec (.sealMessage m) s = .next t ∧ s.HeardCtl t (sealBody m).length
      (m.node ∉ s.inService → ∃ t, came t ∧ t = { s with links := t.links }) ∧
      (m.node ∈ s.inService → attemptKey m.step m.attempt < s.attemptFloor m.job → ∃ t, came t ∧ s.SameRegs t [oLatePeer, oLateMax] ∧
        t = { s with regs := t.regs, links := t.links }) ∧
      (m.node ∈ s.inService → s.attemptFloor m.job ≤ attemptKey m.step m.attempt → isRefusal m = false →
        let here := a.plan.job = m.job ∧ a.plan.step = m.step ∧ a.plan.attempt = m.attempt
        (here → (∃ k ∈ a.seals, k.node = m.node) → ∃ t, came t ∧ t = { s with links := t.links }) ∧
        (here → (∀ k ∈ a.seals, k.node ≠ m.node) → m.pass = false → ∃ t, came t ∧ t.attempt = none ∧
          (s.Survives t m.job → assoc m.job t.retracted = some (attemptKey m.step m.attempt))) ∧
        (here → (∀ k ∈ a.seals, k.node ≠ m.node) → m.pass = true →
          let all := a.sealed = true ∧ ∀ n ∈ s.inService, ∃ k ∈ a.seals ++ [m], k.node = n ∧ k.pass = true
          (¬ all → ∃ t, came t ∧ late t oLatePeer ∧ s.SameRegs t [oLatePeer, oLateMax] ∧
            t = { s with regs := t.regs, links := t.links, attempt := some { a with seals := a.seals ++ [m] } }) ∧
          (all → ∃ t, exec (.sealMessage m) s = .next t ∧ signed t)) ∧
        (¬ here →
          let held := ∃ k ∈ s.sealsHeld, k.node = m.node ∧ k.job = m.job ∧ k.step = m.step ∧ k.attempt = m.attempt
          (held → ∃ t, came t ∧ t = { s with links := t.links }) ∧
          (¬ held → ∃ t, came t ∧ s.SameRegs t [oLatePeer, oLateMax] ∧
            t = { s with regs := t.regs, links := t.links, sealsHeld := s.sealsHeld ++ [m] })))) ∧
    (held →
      (s.canSeal = true → exec .sealPendingSend s = .next
        { s with out := (s.peers.map fun n => Out.pendingMsg n 1 a.plan.step a.plan.attempt).reverse ++ s.out }) ∧
      (s.canSeal = false → exec .sealPendingSend s = .next s) ∧
      (s.canSeal = true → ∃ t m, exec .sealDeadlineExpired s = .next t ∧ t.attempt = none ∧ ours t m ∧ m.pass = false ∧
        ∀ n ∈ s.peers, Out.retract n ⟨a.plan.job, a.plan.step, a.plan.attempt, s.node, stFault, 0, a.overran⟩ ∈ t.out) ∧
      (s.canSeal = false → exec .sealDeadlineExpired s = .next
        { s with attempt := some { a with failed := some (a.failed.getD stFault) } })) ∧
    (¬ held → exec .sealPendingSend s = .next s ∧ exec .sealDeadlineExpired s = .next s)

/-- After the seal timeout for a peer whose seal is missing, RETRACT with TIMEOUT goes to every peer and counts; a RETRACT that names the
attempt counts too, and one of an attempt that cannot be retracted yet is held. Either way the attempt is over and, while its context stays, remembered, no tentative plan
is left on a member, and the lead plans the step with the next attempt number, under a larger bucket entry where the window overran; it
faults the context, and refuses the next attempt to every peer, or owes them that while its agent's die is in reset, on the fourth in a
row of one step or where no larger entry exists. A SUSPECT notice writes one event for each sequence of the range. A lost
or departed member makes the partition DEGRADED, stops the attempt and every plan without a RETRACT, and cuts each sequence homed here to
its first page there. -/
def Obligations.RetractionsAndLoss : Prop :=
  ∀ (s : State) (node : Nat),
    (∀ a, s.attempt = some a →
      let count := 1 + if s.lead.retractedOf = (a.plan.job, a.plan.step) then s.lead.retracted else 0
      let ended (t : State) (overran : Bool) : Prop := t.attempt = none ∧
        (s.Survives t a.plan.job → assoc a.plan.job t.retracted = some (attemptKey a.plan.step a.plan.attempt)) ∧
        t.lead.retracted = (if 4 ≤ count then 0 else count) ∧ t.lead.retractedOf = (a.plan.job, a.plan.step) ∧
        (s.isLead = false → t.plans = []) ∧
        ∀ x, s.isLead = true → s.degraded = false → s.ctxs = [(a.ctx, x)] → x.teardown = none → x.destroyDesc = none →
          s.tableFaults = [] → s.heldEdits = [] → s.Clean → x.tables = [] → x.copies = [] →
          let next := if count < 4 then
              if overran && a.plan.train.isNone then (x.overrunBucket a).map fun b => b.jig else some a.plan.slot
            else none
          (∀ slot, next = some slot → ∃ p ∈ t.plans, p.job = x.job ∧ p.step = a.plan.step ∧ p.attempt = a.plan.attempt + 1 ∧ p.slot = slot) ∧
          (next = none → let m := s.refusalOf a.plan.job a.plan.step (a.plan.attempt + 1)
            (s.canSeal = true → ∀ n ∈ s.peers, .seal n m ∈ t.out) ∧ (s.canSeal = false → m ∈ t.owed) ∧
            ∃ y, t.ctx a.ctx = some y ∧ y.teardown = some stFault)
      (a.sealed = false ∨ node ∉ s.peers ∨ (∃ m ∈ a.seals, m.node = node) → exec (.sealTimeout node) s = .next s) ∧
      (a.sealed = true → node ∈ s.peers → (∀ m ∈ a.seals, m.node ≠ node) → ∃ t, exec (.sealTimeout node) s = .next t ∧ ended t a.overran ∧
        (t.reg oRetractSent).toNat = min (2 ^ 32 - 1) ((s.reg oRetractSent).toNat + 1) ∧
        ∀ n ∈ s.peers, Out.retract n ⟨a.plan.job, a.plan.step, a.plan.attempt, s.node, stTimeout, 0, false⟩ ∈ t.out) ∧
      ∀ m : RetractMsg, m.cause ≠ stSuspect → s.attemptFloor m.job ≤ attemptKey m.step m.attempt → m.job = a.plan.job → m.step = a.plan.step → m.attempt = a.plan.attempt →
        ∃ t, exec (.retract m) s = .next t ∧ s.HeardCtl t (retractBody m).length ∧ ended t (a.overran || m.overran) ∧
          (t.reg oRetractRcvd).toNat = min (2 ^ 32 - 1) ((s.reg oRetractRcvd).toNat + 1)) ∧
    (∀ m : RetractMsg, let came (t : State) : Prop := exec (.retract m) s = .next t ∧ s.HeardCtl t (retractBody m).length
      (m.cause ≠ stSuspect → attemptKey m.step m.attempt < s.attemptFloor m.job → ∃ t, came t ∧ t = { s with links := t.links }) ∧
      (m.cause ≠ stSuspect → s.attemptFloor m.job ≤ attemptKey m.step m.attempt → s.namedAttempt m = none →
        ∃ t, came t ∧ t = { s with links := t.links, retractsHeld := s.retractsHeld ++ [m] }) ∧
      (m.cause = stSuspect → s.ctxOfJob m.job = none → ∃ t, came t ∧ t = { s with links := t.links }) ∧
      ∀ c x, m.cause = stSuspect → s.ctxOfJob m.job = some (c, x) → s.strictOn c = false →
        let hs := distinct ((s.past.filter fun p => p.ctx = c && m.first ≤ p.step && p.step ≤ m.step).map (·.handle))
        ∃ t, came t ∧
          (t.reg oSuspect).toNat = (if hs = [] then (s.reg oSuspect).toNat else min (2 ^ 32 - 1) ((s.reg oSuspect).toNat + hs.length)) ∧
          s.SameRegs t [oSuspect, oDropped .a, oDropped .b, oQueue .a, oQueue .b] ∧
          t = { s with regs := t.regs, portA := t.portA, portB := t.portB, links := t.links, out := t.out }) ∧
    (node ∉ s.peers → exec (.memberLost node) s = .next s) ∧
    (∀ cause, ∃ t, exec (.departMessage node cause) s = .next t ∧ s.HeardCtl t 8 ∧ (node ∉ s.peers → t = { s with links := t.links })) ∧
    ∀ c, (c = .memberLost node ∨ ∃ cause, c = .departMessage node cause) →
      (node ∈ s.peers → ∃ t, exec c s = .next t ∧ t.lostNodes = s.lostNodes ++ [node] ∧ t.attempt = none ∧ t.plans = [] ∧
        fld (t.reg oIntStat) 1 0 = 1 ∧ fld (t.reg oIntStat) 27 16 = node % 2 ^ 12 ∧
        (∀ n m, .retract n m ∈ t.out → .retract n m ∈ s.out) ∧
        ∀ k x h q j, s.idle = true → s.ctx k = some x → x.state = .active → x.teardown = none → x.bookMatch = false →
          (x.seqs.map (·.handle)).Nodup → x.seq? h = some q → q.closing = none →
          (∀ d ∈ s.opens, hOpcode d.words ≠ opCheckpoint ∧ hOpcode d.words ≠ opRestore) →
          (∀ i < j, memberOf x.runLog2 (s.homeIdx h) s.members.length i ≠ s.memberIndex node) → 256 * j < q.committed →
          memberOf x.runLog2 (s.homeIdx h) s.members.length j = s.memberIndex node →
          t.seq? k h = some { q with
            committed := 256 * j, queue := [], state := .ready, gen := none, pre := none, cands := [], candsPo := false
            left := q.left.filter (x.step < ·) })

/-- Not the lead, DEGRADED, or in the wrong moment, nothing is planned. Else, with no step waiting to run again, the chosen context's plan is
published and goes to the lead's children: its next step, the batch within the policy's limits, under a fitting bucket entry whose image it
names; a training plan carries its descriptor and who submitted it. A member passes a plan on, keeps it when the context and the slot's
present image are the plan's (a plan that follows a retraction replaces every plan before it: log entry 18; a standby takes the last step
from its first plan: log entry 33), and else refuses it in a seal that names the whole context and faults that. The lead takes a report
in, or at once into use while idle, with the changed entries beside the others; an idle member takes a mask that the lead republishes.
With no context, a waiting DEPART names the last committed step to every peer and ends this member's part. -/
def Obligations.Planning : Prop :=
  (∀ (s : State) (c : Instr) (moment : Bool), (c = .planPointReached ∧ moment = ((s.attempt.map s.atPlanPoint).getD false && s.plans.isEmpty) ∨
      c = .idlePlan ∧ moment = s.idle) →
    (moment = false ∨ s.isLead = false ∨ s.degraded = true → exec c s = .next s) ∧
    (moment = true → s.isLead = true → s.degraded = false → s.lead.replan = none → s.Clean → s.hbmPoison = [] →
      (s.chooseCtx = none → exec c s = .next s) ∧
      ∀ k x, s.chooseCtx = some (k, x) →
        let image (p : Plan) : List Byte := (x.jig? p.slot).getD []
        let common (t : State) (p : Plan) : Prop := t.plans = s.plans ++ [p] ∧ p.job = x.job ∧ p.step = s.nextStep x ∧
          (s.idle = true → p.step = x.step + 1) ∧ p.digest = jigDigest (image p) ∧ p.policy = x.policy ∧
          s.time + jigPlanLead (image p) ≤ p.start ∧ p.mask = s.planeMask ∧ t.out = (s.planChildren.map fun n => Out.plan n p).reverse ++ s.out ∧
          t.lead.cur = x.job ∧ t.pkg = (if s.pkg = .idle ∨ s.pkg = .nap then .on else s.pkg) ∧
          t.replansDue = s.replansDue.filter (· != x.job) ∧
          t = { s with plans := t.plans, out := t.out, pkg := t.pkg, lead := t.lead, ctxs := t.ctxs, replansDue := t.replansDue }
        (x.kind = 0 → ∃ t p cs b, exec c s = .next t ∧ common t p ∧ p.rows = cs.map Cand.row ∧ cs.Sublist (s.batch x (s.nextStep x)) ∧
          p.rows.length ≤ min x.policy.seqCap 8192 ∧ (p.rows.map (·.new)).sum ≤ min x.policy.tokenCap 16384 ∧
          ((p.rows.filter (·.kind = .prefill)).map (·.new)).sum ≤ x.policy.prefillCap ∧ p.train = none ∧
          b ∈ bucketTable x.buckets ∧ bucketFits b cs = true ∧ p.slot = b.jig ∧ p.ratio = b.ratio ∧ (x.jig? p.slot).isSome = true) ∧
        (x.kind = 1 → (∀ f ∈ s.lead.trains, ∃ body, f.what = .train body) → ∃ t p f body, exec c s = .next t ∧ common t p ∧
          p.rows = [] ∧ f ∈ s.lead.trains ∧ f.job = x.job ∧ f.what = .train body ∧ p.train = some (f.node, body)))) ∧
  (∀ (p : Plan) (s : State),
    let out := (s.planChildren.map fun n => Out.plan n p).reverse ++ s.out
    let live := s.departed = false ∧ s.attemptFloor p.job ≤ attemptKey p.step p.attempt
    let came (t : State) : Prop := exec (.plan p) s = .next t ∧ s.HeardCtl t (planBody p).length
    let due := s.replansDue.filter (· != p.job)
    let m := s.refusalOf p.job p.step p.attempt
    let told (t : State) : Prop := (s.canSeal = true → (∀ n ∈ s.peers, .seal n m ∈ t.out) ∧ t.owed = s.owed) ∧
      (s.canSeal = false → t.owed = s.owed ++ [m])
    let here (x : Ctx) : Prop := ∃ img, x.jig? p.slot = some img ∧ jigDigest img = p.digest
    (¬ live → ∃ t, came t ∧ t = { s with links := t.links, out := out }) ∧
    (live → ∀ c x, s.activeOfJob p.job = some (c, x) → here x → s.degraded = false →
      ∃ t, came t ∧ (s.lastJob ≠ 0 → t.ctxs = s.ctxs) ∧
        (s.lastJob = 0 → s.attempt = none → s.plans = [] → x.step = 0 → s.ctxs = [(c, x)] → t.ctx c = some { x with step := p.pred }) ∧
        t = { s with
          links := t.links, ctxs := t.ctxs, out := out, replansDue := due, pkg := if s.pkg = .idle ∨ s.pkg = .nap then .on else s.pkg
          plans := (if p.attempt = 0 then s.plans.filter fun q => !(q.job = p.job && q.step = p.step) else []) ++ [p] }) ∧
    (live → s.activeOfJob p.job = none → m.pass = false ∧ (∃ c, m.faults = [⟨wholeCtx, c, stFault⟩]) ∧
      ∃ t, came t ∧ told t ∧ t = { s with
        links := t.links, replansDue := due, owed := t.owed
        out := (if s.canSeal then (s.peers.map fun n => Out.seal n m).reverse else []) ++ out }) ∧
    (live → ∀ c x, s.activeOfJob p.job = some (c, x) → ¬ here x → s.ctx c = some x → s.attempt = none → x.teardown = none →
      x.destroyDesc = none →
      ∃ t y, came t ∧ told t ∧ t.ctx c = some y ∧ y.teardown = some stFault)) ∧
  (∀ (r : Report) (s : State), let came (t : State) : Prop := exec (.report r) s = .next t ∧ s.HeardCtl t (reportBody 0 r).length
    (r.mask = none → r.edits = [] → r.copying = none →
      (s.isLead = false → ∃ t, came t ∧ t = { s with links := t.links }) ∧
      (s.isLead = true → s.idle = false → ∃ t, came t ∧ t.lead.incoming = s.lead.incoming ++ [r] ∧
        (∃ q ∈ t.lead.reports, q.node = r.node ∧ q.job = r.job ∧ q.held = r.held) ∧
        t = { s with links := t.links, lead := { s.lead with incoming := t.lead.incoming, reports := t.lead.reports } }) ∧
      (s.isLead = true → s.idle = true → let mine (q : Report) : Bool := q.node = r.node && q.job = r.job
        ∃ t, came t ∧ t.lead.reports = (s.lead.reports.filter fun q => !mine q) ++
          [{ r with seqs := ((s.lead.reports.filter mine).flatMap (·.seqs)).filter (fun e => !r.seqs.any fun f => f.handle = e.handle) ++
              r.seqs.filter fun f => f.state.isSome }] ∧
          t = { s with links := t.links, lead := t.lead, ctxs := t.ctxs })) ∧
    (r.mask = none → r.edits ≠ [] → r.copying = none → s.isLead = false → s.planned r.job = true → (s.ctxOfJob r.job).isSome = true →
      ∃ t, came t ∧ t = { s with links := t.links, heldEdits := s.heldEdits ++ r.edits }) ∧
    ∀ k, r.mask = some k →
      (s.idle = false ∨ s.leadNode ≠ some r.node → ∃ t, came t ∧ t = { s with links := t.links }) ∧
      (s.idle = true → s.leadNode = some r.node → ∃ t, came t ∧ t.reg oPlanes = BitVec.ofNat 32 k ∧ s.SameRegs t [oPlanes] ∧
        t = { s with links := t.links, regs := t.regs, outst := t.outst, out := t.out })) ∧
  ∀ (s : State), s.ctxs = [] →
    (s.idle = false → exec .idleApply s = .next s) ∧
    ∀ d : Desc, s.idle = true → s.opens = [d] → hOpcode d.words = opDiag → hObject d.words = 4 → d.phase = .boundary false →
      d.orphan = false → hContext d.words = 0xFFFF → s.Ready d.port d.pair →
      ∃ t, exec .idleApply s = .next t ∧ t.departed = true ∧ t.opens = [] ∧ s.completionOf d stOk 0 0 ∈ t.out ∧
        (∀ n ∈ s.peers, Out.depart n none 0 (s.reg64 oSigStepLo) ∈ t.out) ∧ fld (t.reg oIntStat) 1 0 = 3

/-- For idle-standing contexts. A replay that agrees counts once and marks its unit clean; one whose third replay agrees with the original
counts a mismatch and charges those that ran the first replay; any other charges the unit, classes it on the second in a row, and sends the
SUSPECT notice from its last clean step on. A controller's self-check counts nothing. A copy's data moves when it ends. A torn-down context
that nothing uses gives its frames back, faulted, or gone with its destroy's OK. Quarantined pages become free while idle. A die is ready
for a switch once its replays have compared. -/
def Obligations.ShadowAndContexts : Prop :=
  (∀ (u : UnitName) (step : Nat) (ok : Bool) (third : Third) (first : List UnitName) (s : State),
    (s.shadowOpen.find? (fun o => o.unit = u && o.step = step) = none → exec (.shadowCompare u step ok third first) s = .next s) ∧
    ∀ o, s.shadowOpen.find? (fun o => o.unit = u && o.step = step) = some o → (∀ e ∈ s.ctxs, e.2.state = .active ∧ e.2.teardown = none) →
      s.dueFaults = [] → s.opens = [] → s.places = [] → s.flash.history.length + 2 * first.length + 2 ≤ 65536 →
      let counts (t : State) (n m : Nat) : Prop := (t.reg oShadowCmp).toNat = min (2 ^ 32 - 1) ((s.reg oShadowCmp).toNat + n) ∧
        (t.reg oShadowMis).toNat = min (2 ^ 32 - 1) ((s.reg oShadowMis).toNat + m)
      let entry (v : UnitName) (event : Nat) : FaultEntry := ⟨v.kind, v.die.val, v.unit, event, step % 2 ^ 32, s.time, false⟩
      let own := u.kind = 5 ∧ u.unit = 6
      ∃ t, exec (.shadowCompare u step ok third first) s = .next t ∧ t.shadowOpen = s.shadowOpen.erase o ∧
        (∀ e ∈ s.flash.history, e ∈ t.flash.history) ∧
        (own → counts t 0 0) ∧
        (ok = true → (¬ own → counts t 1 0) ∧ t.lastClean u o.ctx = step ∧ t.lastFailed u = false ∧
          s.SameRegs t [oShadowCmp, oShadowMis] ∧
          t = { s with regs := t.regs, shadowOpen := t.shadowOpen, shadowMarks := t.shadowMarks }) ∧
        (ok = false → ¬ own → third = .original → counts t 2 1 ∧ t.lastClean u o.ctx = step ∧ t.lastFailed u = false ∧
          (u.kind = 1 → ∀ v ∈ first, v.kind = 1 → v.die = u.die → v ≠ u → entry v 1 ∈ t.flash.history) ∧
          (u.kind ≠ 1 → entry { u with die := Fin.ofNat 8 ((u.die.val + 1) % max 1 s.fuses.dies) } 1 ∈ t.flash.history) ∧
          t = { s with
            regs := t.regs, flash := { s.flash with history := t.flash.history }
            shadowOpen := t.shadowOpen, shadowMarks := t.shadowMarks }) ∧
        (ok = false → own ∨ third ≠ .original → (¬ own → counts t 2 2) ∧ entry u 2 ∈ t.flash.history ∧ t.lastFailed u = true ∧
          t.lastClean u o.ctx = s.lastClean u o.ctx ∧
          (s.lastFailed u = true → s.classed u = false → entry u 6 ∈ t.flash.history) ∧
          ∀ h, s.heldInput o.ctx step = some h →
            (t.reg oRetractSent).toNat = min (2 ^ 32 - 1) ((s.reg oRetractSent).toNat + 1) ∧
            ∀ n ∈ s.peers, Out.retract n ⟨h.plan.job, step, h.plan.attempt, s.node, stSuspect, s.lastClean u o.ctx + 1, false⟩ ∈ t.out)) ∧
  (∀ (c : Fin 64) (handle page : Nat) (s : State),
    (s.ctx c.val = none → exec (.cowCopyDone c handle page) s = .next s) ∧
    ∀ x k, s.ctx c.val = some x → x.copies.find? (fun k => k.handle = handle && k.page = page && !k.done && !k.new.isEmpty) = some k →
      let y := { x with copies := x.copies.map fun (r : Copy) => if r = k then { r with done := true } else r }
      (k.abandoned = true → exec (.cowCopyDone c handle page) s = .next (s.setCtx c.val y)) ∧
      ∀ tb p l h, k.abandoned = false → x.table? handle = some tb → x.planes = [(l, h)] → k.new = [p] → s.Clean → s.tableFaults = [] →
        x.OnHbm x.tableBase (x.tableEnd - x.tableBase) → (∀ i < x.tableEnd - x.tableBase, s.ctxPoison x (x.tableBase + i) = false) →
        let e := s.ptEntry x tb (localIndex x.runLog2 s.members.length page) l h
        e.page < x.poolPages → p < x.poolPages → x.OnHbm x.poolBase (x.poolPages * x.pageSize) →
        x.OnWritable (x.pageAddr p) x.pageSize → ∃ t, exec (.cowCopyDone c handle page) s = .next t ∧
          s.Stored x (x.pageAddr p) ((List.range x.pageSize).map fun i => s.ctxByte x (x.pageAddr e.page + i)) t ∧
          (x.poolBase % 128 = 0 → ∀ i < x.pageSize / 128, t.ctxPoison x (x.pageAddr p + 128 * i) = s.ctxPoison x (x.pageAddr e.page + 128 * i)) ∧
          (s.NoMirror → t.outst = s.outst ∧ t.nextTag = s.nextTag ∧ t.out = s.out) ∧
          t = { s.setCtx c.val y with
            hbm := t.hbm, hbmPoison := t.hbmPoison, lent := t.lent, outst := t.outst, nextTag := t.nextTag, out := t.out }) ∧
  (∀ (c : Fin 64) (s : State) (x : Ctx), s.ctx c.val = some x → s.places = [] →
    let gone (t : State) (y : Option Ctx) : Prop := t.ctx c.val = y ∧ (∀ k, k ≠ c.val → t.ctx k = s.ctx k) ∧
      (∀ k, k ∈ t.frames ↔ k ∈ s.frames ∧ (k ∉ s.ctxFrames c.val x ∨ k ∈ s.heldFrames))
    (s.opens = [] → x.teardown = none ∨ s.canRelease c.val x = false → exec (.contextRelease c) s = .next s) ∧
    (∀ st, s.opens = [] → x.teardown = some st → st ≠ stCancelled → s.canRelease c.val x = true → x.destroyDesc = none →
      ∃ t, exec (.contextRelease c) s = .next t ∧ gone t (some { x with
        state := .faulted, fault := st, pages := [], jigFrames := [], jigs := [], jigPlaces := [], oldJigs := [], lendJob := 0, lendFirst := 0, lendCount := 0 })) ∧
    ∀ d, s.opens = [d] → d.isFence = false → x.teardown = some stCancelled → s.canRelease c.val x = true → x.destroyDesc = some d.id →
      d.orphan = false → s.Ready d.port d.pair → (∀ k, s.presValid k = false) →
      ∃ t, exec (.contextRelease c) s = .next t ∧ gone t none ∧ t.opens = [] ∧ s.completionOf d stOk 0 0 ∈ t.out) ∧
  (∀ (c : Fin 64) (s : State),
    (s.ctx c.val = none → exec (.quarantineIdleRelease c) s = .next s) ∧
    ∀ x, s.ctx c.val = some x →
      (s.planned x.job = true ∨ (∃ o ∈ s.replaysOpen, o.ctx = c.val) → exec (.quarantineIdleRelease c) s = .next s) ∧
      (s.planned x.job = false → (∀ o ∈ s.replaysOpen, o.ctx ≠ c.val) → (∀ p < x.poolPages, s.pageRead c.val x p = false) → s.Clean →
        s.tableFaults = [] → x.OnHbm x.tableBase (x.tableEnd - x.tableBase) → x.OnWritable x.tableBase (16 * x.poolPages) →
        (∀ i < x.tableEnd - x.tableBase, s.ctxPoison x (x.tableBase + i) = false) → ∃ t, exec (.quarantineIdleRelease c) s = .next t ∧
          (∀ p < x.poolPages, t.pageDesc x p = if (s.pageDesc x p).state = .quarantined
            then { s.pageDesc x p with state := .free, owner := noOwner } else s.pageDesc x p) ∧
          t = { s with
            hbm := t.hbm, hbmPoison := t.hbmPoison, regs := t.regs, ctxs := t.ctxs, lead := t.lead, out := t.out, outst := t.outst
            nextTag := t.nextTag, lent := t.lent, told := t.told })) ∧
  ∀ (die : Fin 8) (s : State),
    let due := s.attempt = none ∧ (∀ o ∈ s.replaysOpen, o.unit.die ≠ die) ∧ s.lastJob ≠ 0 ∧
      ∃ p, s.nextPlan = some p ∧ s.lastJob ≠ p.job
    (due → exec (.switchReady die) s = .next { s with switchWait := addKey die.val s.switchWait }) ∧
    (¬ due → exec (.switchReady die) s = .next s)

/-- While it runs, scrub reads one line of every pseudo-channel of its die and advances to the next index. A correctable word among its 64 lines counts and is repaired; an uncorrectable one counts,
is recorded, and is poisoned in service, or outside service resets the partition. A gauge's report sets its bit: the selected crystal, an
island reference or an HBM PLL resets the package; a SerDes PLL sends its Limfele ports into training, each with its LINK_ID, and what waited for them moves on; an island's oscillator fails the
share in flight (told once the seal agent's die is not in reset), and a stopped one hangs its multiplexer and charges its core or engine. A reset that waits for a clock sees it return. -/
def Obligations.ScrubAndGauges : Prop :=
  (∀ (die : Fin 8) (s : State), s.scrubs die.val = true →
    let i := peek 0 s.scrub die.val
    let bits (p : Nat) : Nat := flipCount (peek 0 s.hbmFlips (lineKey die.val (lineAt p i)))
    (s.service = true ∨ (∀ p < 64, bits p ≠ 3) → ∃ t, exec (.scrubLine die) s = .next t ∧
      t.scrub = poke 0 s.scrub die.val ((i + 1) % (linesPerDie / 64)) ∧ (bit (s.reg oInject) 31 = false →
        ∀ p < 64, (bits p = 1 ∨ bits p = 2 → peek 0 t.hbmFlips (lineKey die.val (lineAt p i)) = 0) ∧
        (bits p = 3 → lineKey die.val (lineAt p i) ∈ t.hbmPoison)) ∧ t.ctxs = s.ctxs ∧ t.out = s.out) ∧
    (s.service = false → (∃ p < 64, bits p = 3) → ∃ t, exec (.scrubLine die) s = .next t ∧ t.inReset .warm = true ∧
      bit (t.reg oRstCause) 7 = true)) ∧
  (∀ (c : GaugeClock) (stopped held : Bool) (s : State), s.dead = false → s.inReset .cold = false →
    s.rst.clockHold.contains c = false ∨ held = true → ∃ t, exec (.gaugeFault c stopped held) s = .next t ∧
      (c = .xa → bit (t.reg oClkGauge) (if stopped then 1 else 2) = true) ∧
      (c = .xb → s.refXb = false → bit (t.reg oClkGauge) (if stopped then 3 else 4) = true) ∧ (c = .fio → bit (t.reg oClkGauge) 5 = true) ∧
      (∀ (d : Fin 8) (k : Fin 4), c = .pll d k → d.val < s.fuses.dies →
        (k.val < 2 → t.inReset .warm = true ∧ bit (t.reg oRstCause) 5 = true) ∧
        (2 ≤ k.val → bit (t.reg (oClkPll d.val)) (4 + k.val) = true ∧ bit (t.reg (oClkPll d.val)) k.val = !held)) ∧
      ∀ (d : Fin 8) (n : Nat), c = .island d n →
        (s.islandRuns d.val n = false → t = s) ∧
        (s.islandRuns d.val n = true → t.attempt = none ∨ s.canSeal = false) ∧
        (s.islandRuns d.val n = true → stopped = true → d.val * 128 + n ∈ t.hung)) ∧
  (∀ (die : Fin 8) (s : State),
    let i := peek 0 s.scrub die.val
    let after := poke 0 s.scrub die.val ((i + 1) % (linesPerDie / 64))
    let err := oMemErr die.val
    (s.scrubs die.val = false → exec (.scrubLine die) s = .next s) ∧
    (s.scrubs die.val = true → bit (s.reg oInject) 31 = false →
      (s.hbmFlips = [] → exec (.scrubLine die) s = .next { s with scrub := after }) ∧
      ∀ (p m : Nat), p < 64 → s.hbmFlips = [(lineKey die.val (lineAt p i), m)] →
        (flipCount m = 1 ∨ flipCount m = 2 → ∃ t, exec (.scrubLine die) s = .next t ∧ t.scrub = after ∧ t.hbmFlips = [] ∧
          fld (t.reg err) 15 0 = min 65535 (fld (s.reg err) 15 0 + 1) ∧ s.SameRegs t [err] ∧ s.SameBytes t ∧ t = { s with
            regs := t.regs, hbm := t.hbm, hbmPoison := t.hbmPoison, hbmFlips := [], corrected := t.corrected, flash := t.flash
            scrub := after }) ∧
        (flipCount m = 3 → s.service = true → s.flash.history.length < 65536 → ∃ t, exec (.scrubLine die) s = .next t ∧ t.scrub = after ∧
          lineKey die.val (lineAt p i) ∈ t.hbmPoison ∧ fld (t.reg err) 31 16 = min 65535 (fld (s.reg err) 31 16 + 1) ∧
          (⟨3, die.val, pseudoChannel (lineAt p i), 3, 0, s.time, false⟩ : FaultEntry) ∈ t.flash.history ∧
          s.SameRegs t [err, oUeLo, oUeHi] ∧ t.ctxs = s.ctxs ∧ t.out = s.out) ∧
        (flipCount m = 3 → s.service = false → ∃ t, exec (.scrubLine die) s = .next t ∧ t.inReset .warm = true ∧
          bit (t.reg oRstCause) 7 = true))) ∧
  ∀ (c : GaugeClock) (stopped held : Bool) (s : State),
    (s.dead = true → exec (.gaugeFault c stopped held) s = .next s) ∧
    (s.dead = false → s.rst.clockHold.contains c = true → held = false → exec (.gaugeFault c stopped held) s = .next
      { s with rst := { s.rst with clockHold := s.rst.clockHold.filter (· != c) } }) ∧
    (s.dead = false → s.rst.clockHold.contains c = false →
      let reset (t : State) : Prop := t.inReset .warm = true ∧ bit (t.reg oRstCause) 5 = true ∧ t.rst.clockHold.contains c = held
      let sets (t : State) (o b : Nat) : Prop := t.reg o = setBit (s.reg o) b true ∧ s.SameRegs t [o] ∧ t = { s with regs := t.regs }
      (c = .fio → ∃ t, exec (.gaugeFault c stopped held) s = .next t ∧ sets t oClkGauge 5) ∧
      (∀ b, c = .xa ∧ s.refXb = true ∧ b = (if stopped then 1 else 2) ∨ c = .xb ∧ s.refXb = false ∧ b = (if stopped then 3 else 4) →
        ∃ t, exec (.gaugeFault c stopped held) s = .next t ∧ sets t oClkGauge b) ∧
      (s.inReset .cold = false → (c = .xa ∧ s.refXb = false ∨ c = .xb ∧ s.refXb = true ∨
          ∃ (d : Fin 8) (k : Fin 4), c = .pll d k ∧ d.val < s.fuses.dies ∧ k.val < 2) →
        ∃ t, exec (.gaugeFault c stopped held) s = .next t ∧ reset t ∧
          (c = .xa → bit (t.reg oClkGauge) (if stopped then 1 else 2) = true) ∧
          ((∀ d, c ≠ .pll d 0) → bit (t.reg oRstCause) 31 = true)) ∧
      (∀ (d : Fin 8), c = .pll d 2 → d.val < s.fuses.dies → ∃ t, exec (.gaugeFault c stopped held) s = .next t ∧
        bit (t.reg (oClkPll d.val)) 6 = true ∧ bit (t.reg (oClkPll d.val)) 2 = !held ∧
        (∀ i < 4, t.limState (4 * d.val + i) = if s.limState (4 * d.val + i) = portUp ∨ s.limState (4 * d.val + i) = portExcluded
          then portTraining else s.limState (4 * d.val + i)) ∧
        (∀ i < 4, s.limState (4 * d.val + i) = portUp ∨ s.limState (4 * d.val + i) = portExcluded →
          Out.flit (4 * d.val + i) (flit 0 4095 0 flitLinkId true true (wordBytes [s.node, 4 * d.val + i])) ∈ t.out) ∧
        s.SameRegs t (oClkPll d.val :: (List.range 4).map fun i => oPortStat (4 * d.val + i)) ∧
        t = { s with regs := t.regs, links := t.links, outst := t.outst, out := t.out }) ∧
      ∀ (d : Fin 8) (n : Nat), c = .island d n →
        (s.islandRuns d.val n = false → exec (.gaugeFault c stopped held) s = .next s) ∧
        (s.islandRuns d.val n = true →
          (∀ a, s.attempt = some a → s.canSeal = true → ∃ t, exec (.gaugeFault c stopped held) s = .next t ∧ t.attempt = none ∧
            ∀ m ∈ s.peers, Out.retract m ⟨a.plan.job, a.plan.step, a.plan.attempt, s.node, stTimeout, 0, a.overran⟩ ∈ t.out) ∧
          (∀ a, s.attempt = some a → s.canSeal = false → ∃ t, exec (.gaugeFault c stopped held) s = .next t ∧
            t.attempt = some { a with failed := some (a.failed.getD stTimeout) }) ∧
          (s.attempt = none → stopped = false → exec (.gaugeFault c stopped held) s = .next s) ∧
          (s.attempt = none → stopped = true → s.hung.contains (d.val * 128 + n) = false → s.flash.history.length < 65535 →
            ∃ t, exec (.gaugeFault c stopped held) s = .next t ∧ t.hung = s.hung ++ [d.val * 128 + n] ∧
              bit (t.reg (oMuxStat d.val)) 31 = true ∧
              fld (t.reg (oMuxStat d.val)) 15 8 = min 255 (fld (s.reg (oMuxStat d.val)) 15 8 + 1) ∧
              ((∀ k ∈ s.hung, k / 128 ≠ d.val) → fld (t.reg (oMuxStat d.val)) 6 0 = n) ∧ s.SameRegs t [oMuxStat d.val] ∧
              (n < 48 → (⟨1, d.val, n, 1, 0, s.time, false⟩ : FaultEntry) ∈ t.flash.history) ∧
              (64 ≤ n → n ≤ 70 → (⟨5, d.val, n - 64, 1, 0, s.time, false⟩ : FaultEntry) ∈ t.flash.history) ∧
              t = { s with regs := t.regs, hung := t.hung, flash := { s.flash with history := t.flash.history } })))

/-- Taken from a served pair, with every check of acceptance passed: `SQ_HEAD` advances, nothing else changes, and the descriptor is open and
waits for the boundary, late when this package's seal has gone. SEQ_OPEN and SEQ_APPEND keep their token array, a map of held pages its list,
SEQ_PARAMS its bias entries with their poison, JIG_LOAD its image; a descriptor that reads context memory drops the lines that lenders
sent for it; policies and training steps go into the next report to the lead. The rows are SEQ_CANCEL, SEQ_CLOSE, PAGE_UNMAP, KV_SHIP,
KV_ACCEPT, SEQ_OPEN, SEQ_APPEND, SEQ_PARAMS, PAGE_MAP, JIG_LOAD, STEP_POLICY, BENCH_SPLIT, TRAIN_STEP, and CHECKPOINT and RESTORE while a
plan names their context. One whose handle another member homes is DENIED. -/
def Obligations.DescriptorsWait : Prop :=
  ∀ (s : State) (u : Submission), s.Serves u → s.opensWf = true →
    ∀ (c : Instr) (op : Nat), s.Passes u op none →
      let d := s.newDesc u op none
      let ws := d.words
      let h := hObject ws
      let waits (buf : List Word) : Prop := exec c s = .next (s.waits u d buf)
      ∀ x, s.ctx (hContext ws) = some x →
      let forwarded (f : Forward) : Prop := exec c s = .next
        { s.waits u d [] with forwards := s.forwards ++ [⟨s.node, x.job, d.id, f⟩] }
      let readable (a n : Nat) : Prop := s.Clean ∧ x.OnHbm a n ∧ 0 < n
      let words (a n : Nat) := wordsOf ((List.range n).map fun i => s.ctxByte x (a + i))
      let clean (a n : Nat) : Prop := ∀ i < n, s.ctxPoison x (a + i) = false
      let read (d : Desc) (buf : List Word) : Prop := exec c s = .next { s.waits u d buf with
        wants := []
        lent := if s.stalled.isEmpty then s.lent.filter fun e => e.1 != x.job else s.lent }
      ((c = .seqCancel u ∧ op = opSeqCancel ∨ c = .seqClose u ∧ op = opSeqClose ∨ c = .pageUnmap u ∧ op = opPageUnmap ∨
          c = .kvShip u ∧ op = opKvShip ∨ c = .kvAccept u ∧ op = opKvAccept ∧ h ≠ 0 ∧ h ≠ 0xFFFFFFFF) → s.isHome h = true → waits []) ∧
      ((c = .seqParams u ∧ op = opSeqParams ∧ fieldAt ws 0x10 1 0 = 0 ∨ c = .pageMap u ∧ op = opPageMap ∧ fieldAt ws 0x14 1 0 = 0) →
        s.isHome h = true → read d []) ∧
      ((c = .seqCancel u ∧ op = opSeqCancel ∨ c = .seqClose u ∧ op = opSeqClose ∨ c = .pageUnmap u ∧ op = opPageUnmap ∨
          c = .kvShip u ∧ op = opKvShip ∨ c = .kvAccept u ∧ op = opKvAccept ∨ c = .seqParams u ∧ op = opSeqParams ∨
          c = .pageMap u ∧ op = opPageMap ∧ fieldAt ws 0x14 1 0 = 0 ∨ c = .seqOpen u ∧ op = opSeqOpen ∨ c = .seqAppend u ∧ op = opSeqAppend) →
        (s.isHome h = false → s.Ready u.port u.pair.val → ∃ t, exec c s = .next t ∧ (s.accepted u d).Done t d stDenied 0)) ∧
      (∀ toks, (c = .seqOpen u ∧ op = opSeqOpen ∧ h ≠ 0 ∧ h ≠ 0xFFFFFFFF ∧ fieldAt ws 0x18 22 0 ≤ fieldAt ws 0x1C 22 0 ∧
            (generates ws = true → fieldAt ws 0x18 22 0 ≠ 0) ∨ c = .seqAppend u ∧ op = opSeqAppend) → s.isHome h = true →
        (if fieldAt ws 0x18 22 0 = 0 then toks = [] else hostWords u.host (addrAt ws 0x10 0x14) (fieldAt ws 0x18 22 0) = some toks) →
        (∀ t ∈ toks, t.toNat < Config.vocab x.job) → waits toks) ∧
      (c = .seqParams u → op = opSeqParams → s.isHome h = true → fieldAt ws 0x10 1 0 ≠ 0 → fieldAt ws 0x10 3 2 ≠ 2 →
        let n := 8 * fieldAt ws 0x10 26 16
        let a := addr48 ws 0x14 0x18
        (n = 0 → read d []) ∧
        (readable a n → (∀ e ∈ biasPairs (words a n), finite32 e.2 = true) →
          read { d with bufPo := (List.range n).any fun i => s.ctxPoison x (a + i) } (words a n))) ∧
      (c = .pageMap u → op = opPageMap → fieldAt ws 0x14 1 0 ≠ 0 →
        let n := 4 * ((s.mapNeed x h (fieldAt ws 0x18 15 0) (fieldAt ws 0x18 31 16)).length * x.perPage)
        readable (addr48 ws 0x20 0x24) n → clean (addr48 ws 0x20 0x24) n → read d (words (addr48 ws 0x20 0x24) n)) ∧
      (c = .jigLoad u → op = opJigLoad → x.jigRefused ws = false →
        let a := addr48 ws 0x10 0x14
        let bs := (List.range (hLength ws)).map fun i => s.ctxByte x (a + i)
        readable a (hLength ws) → clean a (hLength ws) → imageFault s x ws bs = none → read d (wordsOf bs)) ∧
      (c = .stepPolicy u → op = opStepPolicy → (fieldAt ws 0x10 1 0 = 0 → forwarded (.limits ⟨fieldAt ws 0x14 13 0, fieldAt ws 0x14 30 16,
          fieldAt ws 0x18 13 0, fieldAt ws 0x18 30 16, fieldAt ws 0x1C 15 0, (wordAt ws 0x20).toNat⟩)) ∧
        (fieldAt ws 0x10 1 0 ≠ 0 → forwarded (.quota (fieldAt ws 0x14 9 0) (fieldAt ws 0x18 13 0)))) ∧
      (c = .benchSplit u → op = opBenchSplit → forwarded (.bench ⟨fieldAt ws 0x10 2 0, fieldAt ws 0x10 5 3, fieldAt ws 0x10 31 16,
        [0x14, 0x18, 0x1C, 0x20].map fun o => (wordAt ws o).toNat, [0x24, 0x28, 0x2C, 0x30].map fun o => (wordAt ws o).toNat⟩)) ∧
      (∀ img e, c = .trainStep u → op = opTrainStep → x.kind = 1 → x.jig? (fieldAt ws 0x10 7 0) = some img → e ∈ jigStageTable img →
        stKind e = 5 ∨ stKind e = 6 → forwarded (.train ws)) ∧
      ((c = .checkpoint u ∧ op = opCheckpoint ∨ c = .restore u ∧ op = opRestore) → s.planned x.job = true →
        exec c s = .next (s.accepted u { d with phase := .boundary false }))

/-- With one context of writable HBM pages, idle, and this descriptor alone. SEQ_OPEN opens its sequence and SEQ_APPEND queues more: it runs, or is READY and
completes. SEQ_CANCEL ends generation or prefill, or answers FINISHED. SEQ_CLOSE releases the sequence and completes. SEQ_PARAMS sets draw or
constraint fields, PAGE_UNMAP cuts the length, PAGE_MAP shares pages and sets it. KV_SHIP offers the sequence, KV_ACCEPT receives one;
both go on. JIG_LOAD installs its image or bucket table. A policy is in force at the lead. A training step waits there for its plan. An absent sequence
is DENIED. -/
def Obligations.DescriptorsTakeEffect : Prop :=
  ∀ (s : State) (c : Nat) (x : Ctx) (d : Desc), s.Quiet c x d →
    let h := hObject d.words
    let f := d.fields
    let toks := d.buf.map (·.toNat)
    let is (op : Nat) : Prop := hOpcode d.words = op
    let gets (q : Option Seq) (status : Nat) : Prop := ∃ t, exec .idleApply s = .next t ∧ t.seq? c h = q ∧ s.Done t d status 0
    let goes (q : Seq) (p : Phase) (more : State → Prop) : Prop := ∃ t, exec .idleApply s = .next t ∧ t.seq? c h = some q ∧
      t.desc? d.id = some { d with phase := p } ∧ more t
    let started (q : Seq) : Prop :=
      let st := startState f.generate q.queue.length
      let r := { q with
        state := st, gen := if f.generate then some d.id else none, pre := if !f.generate && st = .prefill then some d.id else none
        maxNew := if f.generate then f.maxNew else q.maxNew, published := 0, autoClose := st != .ready && f.autoClose }
      (st = .ready → gets (some r) stOk) ∧ (st ≠ .ready → goes r .running fun _ => True)
    (∀ op ∈ [opSeqAppend, opSeqCancel, opSeqClose, opSeqParams, opPageUnmap, opKvShip], is op → x.seq? h = none → gets none stDenied) ∧
    (is opSeqOpen → h ≠ 0 → h ≠ 0xFFFFFFFF → x.seq? h = none → s.homed < 65536 → (f.generate = true → toks ≠ []) → toks.length ≤ f.maxLen →
      s.poolCovers x h f.maxLen = true → x.queued + toks.length ≤ 16777216 → started (Seq.opened h f toks d.id)) ∧
    (is opKvAccept → h ≠ 0 → h ≠ 0xFFFFFFFF → x.seq? h = none → s.homed < 65536 → s.poolCovers x h f.maxLen = true →
      let n : ShipName := ⟨x.job, fieldAt d.words 0x10 11 0, fieldAt d.words 0x10 21 16, (wordAt d.words 0x14).toNat, s.node, c, h⟩
      goes { Seq.opened h f [] d.id with
        state := .receiving, gen := if f.generate then some d.id else none, pre := if f.generate then none else some d.id }
        (if f.generate then .running else .waiting) fun t => ∃ k, t.ship? n false = some k ∧ k.desc = d.id ∧ k.offered = false) ∧
    (∀ q, x.seq? h = some q →
      (is opSeqAppend → q.state = .ready → (f.generate = true → q.queue ++ toks ≠ []) → q.committed + (q.queue ++ toks).length ≤ q.maxLen →
        x.queued + toks.length ≤ 16777216 →
        started { q with queue := q.queue ++ toks, rootPublished := q.rootPublished && !q.queue.isEmpty, autoClose := f.autoClose }) ∧
      (is opSeqCancel → (q.state = .ready → gets (some q) stFinished) ∧
        (q.state = .shipping ∨ q.state = .receiving → gets (some q) stDenied) ∧
        let left := q.left.filter (x.step < ·)
        let r := { q with state := .ready, gen := none, pre := none, cands := [], candsPo := false, left := left }
        (q.autoClose = false → q.state = .decode → gets (some r) stOk) ∧
        (q.autoClose = false → q.state = .prefill → gets (some { r with queue := q.queue.take 1, kept := q.queue }) stOk)) ∧
      (is opSeqClose → q.state = .ready ∨ q.state = .decode ∨ q.state = .prefill → gets none stOk) ∧
      (is opSeqParams → q.state ≠ .shipping →
        (fieldAt d.words 0x10 1 0 = 0 → gets (some { q with draw := drawOf d.words, paramsFollow := false }) stOk) ∧
        (fieldAt d.words 0x10 1 0 ≠ 0 → let k := conOf d.words d.buf d.bufPo; gets (some { q with con := k, auto := k.startState }) stOk)) ∧
      (is opPageUnmap → let first := fieldAt d.words 0x10 15 0
        gets (some { q with committed := min q.committed (256 * first), roots := q.roots.filter (·.1 < first) }) stOk) ∧
      (is opKvShip → q.state = .ready →
        let n : ShipName := ⟨x.job, s.node, c, h, fieldAt d.words 0x10 11 0, fieldAt d.words 0x10 21 16, (wordAt d.words 0x14).toNat⟩
        goes { q with state := .shipping } .waiting fun t => (∃ k, t.ship? n true = some k ∧ k.desc = d.id ∧ k.committed = q.committed) ∧
          .shipOffer n q.committed (q.queue.head?.map fun t => (t, q.rootPublished)) x.kv q.pen s.members ∈ t.out) ∧
      ∀ td ts qs, is opPageMap → fieldAt d.words 0x14 1 0 = 0 → x.table? h = some td → x.table? (wordAt d.words 0x10).toNat = some ts →
        x.seq? (wordAt d.words 0x10).toNat = some qs →
        let first := fieldAt d.words 0x18 15 0
        let count := fieldAt d.words 0x18 31 16
        let len := fieldAt d.words 0x1C 22 0
        td.committed = 256 * first → len ≤ ts.committed → len % 256 = 0 → s.members = [s.node] → (wordAt d.words 0x10).toNat ≠ h →
        (∀ i < count, x.mappers (first + i) (qs.rootAt (first + i)) < 65535) → s.tablesCover x q first count = true →
        (∀ j ∈ s.mapNeed x h first count, localIndex x.runLog2 1 j < td.pages ∧
          ∀ lh ∈ x.planes, let e := s.ptEntry x ts (localIndex x.runLog2 1 j) lh.1 lh.2
            e.page < x.poolPages ∧ (s.pageDesc x e.page).refs < 65535) →
        gets (some { q with
          committed := len, mapping := false
          roots := q.roots.filter (·.1 < first) ++ (List.range count).map fun i => (first + i, qs.rootAt (first + i)) }) stOk) ∧
    (∀ p, is opJigLoad → h ≠ bucketSlot → x.jigRefused d.words = false → x.jigRoom (some h) d.image.length = some p →
      ∃ t y, exec .idleApply s = .next t ∧ s.Done t d stOk 0 ∧ t.ctx c = some y ∧ y.jig? h = some d.image ∧ assoc h y.jigPlaces = some p ∧
        ∀ k, k ≠ h → y.jig? k = x.jig? k) ∧
    (∀ p, is opJigLoad → h = bucketSlot → x.jigRefused d.words = false → x.jigRoom (some h) d.image.length = some p →
      ∃ t y, exec .idleApply s = .next t ∧ s.Done t d stOk 0 ∧ t.ctx c = some y ∧ y.buckets = d.image ∧ assoc h y.jigPlaces = some p ∧
        y.jigs = x.jigs) ∧
    (∀ p, is opStepPolicy → s.isLead = true → s.forwards = [⟨s.node, x.job, d.id, .limits p⟩] →
      ∃ t y, exec .idleApply s = .next t ∧ s.Done t d stOk 0 ∧ t.ctx c = some y ∧ y.policy = p) ∧
    (∀ b, is opBenchSplit → s.isLead = true → s.forwards = [⟨s.node, x.job, d.id, .bench b⟩] →
      ∃ t y, exec .idleApply s = .next t ∧ s.Done t d stOk 0 ∧ t.ctx c = some y ∧ y.bench = b) ∧
    (∀ w, is opTrainStep → s.isLead = true → s.forwards = [⟨s.node, x.job, d.id, .train w⟩] →
      ∃ t, exec .idleApply s = .next t ∧ t.desc? d.id = some { d with phase := .waiting } ∧
        t.lead.trains = s.lead.trains ++ [⟨s.node, x.job, d.id, .train w⟩])

/-- With no other descriptor open where that matters. CTX_CREATE makes an active context with a fresh writable frame for each page, and
completes; CTX_DESTROY of an unused context frees its number, and else waits. A LOAD from host memory keeps its data and the nodes of its list for its lines. A FENCE
completes when all before it in scope has taken effect, and else waits. CHECKPOINT and RESTORE of an idle context hold it, and the target
gets the command and a checkpoint's bytes; unconnected, they are DENIED. FAULT_READ and TABLE_READ write to the host. JOIN is DENIED on a
package that is not degraded and has run a step; it copies nothing without a mirror, and else asks the buddy for its home records and waits
(their place is free, log entry 33). DEPART waits for its boundary; SPDM answers (a free number of free bytes, log entry 32); IMAGE_PUSH
with a sound header erases the slot and goes on. -/
def Obligations.DescriptorsActAtOnce : Prop :=
  ∀ (s : State) (u : Submission), s.Serves u → s.opensWf = true → s.Ready u.port u.pair.val → ∀ (c : Instr) (op : Nat) (fn : Option Nat),
    s.Passes u op fn →
    let d := s.newDesc u op fn
    let ws := d.words
    let k := hContext ws
    let a := s.accepted u d
    let done (status result : Nat) (more : State → Prop) : Prop := ∃ t, exec c s = .next t ∧ a.Done t d status result ∧ more t
    (c = .ctxCreate u → op = opCtxCreate → fn = none →
      let job := fieldAt ws 0x18 15 0
      let kind := fieldAt ws 0x18 17 16
      let range := fieldAt ws 0x1C 26 0
      (job = 0 ∨ (s.ctx k).isSome = true ∨ (∃ e ∈ s.ctxs, e.2.job = job ∨ e.2.lendJob = job ∧ e.2.lendCount ≠ 0) → done stDenied 0 fun t => t.ctxs = s.ctxs ∧ t.frames = s.frames) ∧
      ∀ r, job ≠ 0 → s.ctx k = none → (∀ e ∈ s.ctxs, e.2.job ≠ job ∧ (e.2.lendJob = job → e.2.lendCount = 0)) → kind < 2 →
        hostWords u.host (addrAt ws 0x10 0x14) 96 = some r → recordOk r kind range (fieldAt ws 0x28 26 0) (fieldAt ws 0x2C 26 0) = true →
        s.preserved = [] → s.fuses.dies ≤ 8 → range + fieldAt ws 0x20 31 16 ≤ s.freeTotal →
        done stOk 0 fun t => (∀ j, j ≠ k → t.ctx j = s.ctx j) ∧ ∃ x, t.ctx k = some x ∧ x.job = job ∧ x.kind = kind ∧ x.state = .active ∧
          x.range = range ∧ x.step = 0 ∧ x.seqs = [] ∧ x.tables = [] ∧ x.kv = r.take 12 ∧ x.jigFrames.length = fieldAt ws 0x20 31 16 ∧
          (∀ p < range, entryValid (x.page p) = true ∧ entryHbm (x.page p) = true ∧ entryWritable (x.page p) = true ∧
            entryKey (x.page p) ∉ s.frames ∧ entryKey (x.page p) ∈ t.frames ∧
            ∀ q < p, entryKey (x.page q) ≠ entryKey (x.page p))) ∧
    (∀ x, c = .ctxDestroy u → op = opCtxDestroy → fn = none → s.ctx k = some x → x.state = .active → x.teardown = none →
      s.places = [] →
      (s.planned x.job = true → (∀ e ∈ s.opens, e.isFence = false) → (∀ f ∈ s.dueFaults, f.1 ≠ k) → exec c s = .next
        ((s.accepted u { d with phase := .waiting }).setCtx k { x with state := .destroying, destroyDesc := some d.id })) ∧
      (s.planned x.job = false → s.opens = [] → (∀ o ∈ s.replaysOpen, o.ctx ≠ k) →
        done stOk 0 fun t => t.ctx k = none ∧ t.opens = [] ∧ ∀ j, j ≠ k → t.ctx j = s.ctx j)) ∧
    (∀ x bs, c = .load u → op = opLoad → fn = none → s.ctx k = some x → fieldAt ws 0x10 1 0 = 0 →
      hostRead u.host (addrAt ws 0x14 0x18) (hLength ws) = some bs →
      let list := addr48 ws 0x28 0x2C
      let m := 4 * fieldAt ws 0x24 31 16
      let loads (dests : List Nat) : Prop := exec c s = .next { s.accepted u { d with buf := wordsOf bs } with
        loads := s.loads ++ [⟨d.id, k, dests, false, 0, stOk, 0, 0⟩]
        wants := []
        lent := if s.stalled.isEmpty then s.lent.filter fun e => e.1 != x.job else s.lent }
      (m = 0 → loads []) ∧
      (m ≠ 0 → s.Clean → x.OnHbm list m → (∀ i < m, s.ctxPoison x (list + i) = false) →
        loads (s.node :: (wordsOf ((List.range m).map fun i => s.ctxByte x (list + i))).map fun w => fld w 11 0))) ∧
    (c = .fence u → op = opFence → fn = none → (∀ e ∈ s.opens, e.isFence = false) →
      let scope (e : Desc) : Prop := (bit (wordAt ws 0x10) 0 = true ∨ e.port = u.port ∧ e.pair = u.pair.val) ∧
        (k = 0xFFFF ∨ hContext e.words = k)
      ((∀ e ∈ s.opens, scope e → e.effective = true) → done stOk 0 fun t => t.opens = s.opens) ∧
      ((∃ e ∈ s.opens, scope e ∧ e.effective = false) → exec c s = .next (s.accepted u { d with phase := .waiting }))) ∧
    (∀ x, (c = .checkpoint u ∧ op = opCheckpoint ∨ c = .restore u ∧ op = opRestore) → fn = none → s.ctx k = some x → x.state = .active →
      x.teardown = none → s.planned x.job = false → x.holdDesc = none → s.opens = [] →
      let tgt := fieldAt ws 0x10 3 0
      let nsid := (wordAt ws 0x14).toNat
      let lba := addrAt ws 0x18 0x1C
      let first := xferFirst ws * 2 ^ 21
      let n := xferPages ws * 2 ^ 21
      (s.connected tgt = false → done stDenied 0 fun t => t.ctxs = s.ctxs) ∧
      (s.connected tgt = true → s.stor = [] → s.eth.alive = [] → s.tgtPaused tgt = false →
        let sent (rd : Bool) (data : List Byte) : Prop := ∃ t l j, exec c s = .next t ∧ t.ctx k = some { x with holdDesc := some d.id } ∧
          (∀ i, i ≠ k → t.ctx i = s.ctx i) ∧ t.desc? d.id = some d ∧ t.stor = [j] ∧ (j.desc, j.ctx, j.read, j.target) = (d.id, k, rd, tgt) ∧
          (j.nsid, j.lba, j.addr, j.len) = (nsid, lba, first, n) ∧ t.out = l ++ s.out ∧ .nvme tgt (ioPair tgt 0) rd nsid lba first n ∈ l ∧
          (l.reverse.flatMap fun o => match o with | .rdma q bs => if q = ioPair tgt 0 then bs else [] | _ => []) = data
        (op = opRestore → x.writeFault first n true = none → sent true []) ∧
        (op = opCheckpoint → s.Clean → 0 < n → x.OnHbm first n → (∀ i < n, s.ctxPoison x (first + i) = false) →
          sent false ((List.range n).map fun i => s.ctxByte x (first + i))))) ∧
    (op = opDiag → (k = 0xFFFF → s.ctx k = none) →
      (c = .faultRead u → fn = some 1 →
        let es := window (wordAt ws 0x1C).toNat ((wordAt ws 0x18).toNat / 16) s.flash.history
        done stOk es.length fun t => es ≠ [] → .hostWrite u.port (addrAt ws 0x10 0x14) (es.flatMap (·.bytes)) ∈ t.out) ∧
      (∀ x, c = .tableRead u → fn = some 2 → s.ctx k = some x →
        (x.table? (wordAt ws 0x1C).toNat = none → done stOk 0 fun _ => True) ∧
        ∀ tb, x.table? (wordAt ws 0x1C).toNat = some tb →
          let first := (wordAt ws 0x20).toNat
          let n := min (tb.pages * x.perPage - first) ((wordAt ws 0x18).toNat / 8)
          0 < n → s.Clean → x.OnHbm (tb.base + 8 * first) (8 * n) → (∀ i < 8 * n, s.ctxPoison x (tb.base + 8 * first + i) = false) →
          done stOk n fun t => .hostWrite u.port (addrAt ws 0x10 0x14)
            ((List.range (8 * n)).map fun i => s.ctxByte x (tb.base + 8 * first + i)) ∈ t.out) ∧
      (∀ x, c = .join u → fn = some 3 → s.ctx k = some x → (s.mayJoin = false → done stDenied 0 fun _ => True) ∧
        (s.mayJoin = true → s.mirrors x = false → done stOk 0 fun _ => True) ∧
        (s.mayJoin = true → s.mirrors x = true → 0 < Config.recordLines x.job → ∃ t, exec c s = .next t ∧ t.desc? d.id = some d ∧
          t.ctxs = s.ctxs ∧ t.joins = s.joins ++ [⟨d.id, k, []⟩] ∧ ∀ i < cdiv (Config.recordLines x.job) 64, ∃ o ∈ t.outst,
            o.purpose = .joinRecord d.id (64 * i) ∧ o.dst = s.buddyNode ∧ o.req.op = .read (min 64 (Config.recordLines x.job - 64 * i)) ∧
            o.req.hdr.offset = (Config.recordPlace x.job + 8192 * i) % 2 ^ 40)) ∧
      (c = .depart u → fn = some 4 → exec c s = .next (s.accepted u { d with phase := .boundary false })) ∧
      (∀ size rest, c = .spdm u → fn = some 0x10 → hostRead u.host (addrAt ws 0x1C 0x20) 4 = some size → leNat size ≤ 2 ^ 20 →
        hostRead u.host (addrAt ws 0x1C 0x20 + 4) (leNat size) = some rest → ∃ n bs, n ≤ (wordAt ws 0x18).toNat ∧ bs.length = n ∧
          done stOk n fun t => .hostWrite u.port (addrAt ws 0x10 0x14) bs ∈ t.out ∧
            (spdmParse rest = none → .spdm (portPath u.port) .unsupported ∈ t.out)) ∧
      ∀ bs, c = .imagePush u → fn = some 0x11 →
        let n := min (wordAt ws 0x18).toNat maxImage
        (s.service = true ∧ s.dowels.getD 6 0 ≠ ownerNo (portPath u.port) ∨ s.slotHeld = true → done stDenied 0 fun t => t.flash = s.flash) ∧
        (s.dowels.getD 6 0 = ownerNo (portPath u.port) → s.slotHeld = false → hostRead u.host (addrAt ws 0x10 0x14) n = some bs →
          (authHeader s.fuses bs ≠ 0 → done stBad (authHeader s.fuses bs) fun t => t.flash = s.flash) ∧
          (authHeader s.fuses bs = 0 → ∃ t, exec c s = .next t ∧ t.flash = { s.flash with image := [] } ∧
            t.boot.update = some ⟨some u.port, some d.id, n, bs, true, false⟩ ∧ t.desc? d.id = some d ∧ bit (t.reg oBootStat) 18 = false)))
end

