-- ==== Sys2Proof/Laws/Memory.lean ====
section
/-! SUPPORT. Lists by key: reading what was written, and the canonical form of memories (R163; log entry 10). -/

namespace Sys2Proof.Machine

section
variable {α : Type} [DecidableEq α] {d v w : α} {k j : Nat} {l : List (Nat × α)}

/-! ## Reading after writing -/

omit [DecidableEq α] in
@[simp] theorem assoc_enlist_same : assoc k (enlist k v l) = some v := by
  induction l with
  | nil => simp [enlist, assoc]
  | cons e l ih =>
    obtain ⟨i, x⟩ := e
    simp only [enlist]
    split
    · simp [assoc]
    · split
      · simp [assoc]
      · rename_i h1 h2; simp [assoc, ih, Ne.symm h2]

omit [DecidableEq α] in
theorem assoc_enlist_other (h : j ≠ k) : assoc j (enlist k v l) = assoc j l := by
  induction l with
  | nil => simp [enlist, assoc, Ne.symm h]
  | cons e l ih =>
    obtain ⟨i, x⟩ := e
    simp only [enlist]
    split
    · simp [assoc, Ne.symm h]
    · split
      · rename_i h2; subst h2; simp [assoc, Ne.symm h]
      · simp [assoc, ih]

omit [DecidableEq α] in
theorem assoc_unlist_same : assoc k (unlist k l) = none := by
  induction l with
  | nil => rfl
  | cons e l ih =>
    obtain ⟨i, x⟩ := e
    by_cases h : i = k
    · simpa [unlist, h] using ih
    · simpa [unlist, h, assoc] using ih

omit [DecidableEq α] in
theorem assoc_unlist_other (h : j ≠ k) : assoc j (unlist k l) = assoc j l := by
  induction l with
  | nil => rfl
  | cons e l ih =>
    obtain ⟨i, x⟩ := e
    by_cases hi : i = k
    · subst hi; simpa [unlist, assoc, Ne.symm h] using ih
    · by_cases hj : i = j
      · subst hj; simp [unlist, hi, assoc]
      · simpa [unlist, hi, assoc, hj] using ih

@[simp] theorem peek_poke_same : peek d (poke d l k v) k = v := by
  unfold peek poke
  split
  · rename_i h; simp [assoc_unlist_same, h]
  · simp

theorem peek_poke_other (h : j ≠ k) : peek d (poke d l k v) j = peek d l j := by
  unfold peek poke
  split
  · rw [assoc_unlist_other h]
  · rw [assoc_enlist_other h]

/-- A write at one key with one reset value leaves what every other key reads, whatever it reads unlisted. -/
theorem peek_poke_other' {d' : α} (h : j ≠ k) : peek d' (poke d l k v) j = peek d' l j := by
  unfold peek poke
  split
  · rw [assoc_unlist_other h]
  · rw [assoc_enlist_other h]

/-! ## The canonical form -/

theorem canon_iff : canon d l = true ↔ (l.Pairwise fun a b => a.1 < b.1) ∧ ∀ e ∈ l, e.2 ≠ d := by
  simp [canon]

omit [DecidableEq α] in
theorem mem_enlist {e : Nat × α} (h : e ∈ enlist k v l) : e = (k, v) ∨ e ∈ l := by
  induction l with
  | nil => simpa [enlist] using h
  | cons a l ih =>
    obtain ⟨i, x⟩ := a
    simp only [enlist] at h
    split at h
    · simpa using h
    · split at h
      · rcases List.mem_cons.1 h with h | h
        · exact .inl h
        · exact .inr (List.mem_cons_of_mem _ h)
      · rcases List.mem_cons.1 h with h | h
        · exact .inr (by simp [h])
        · rcases ih h with h | h
          · exact .inl h
          · exact .inr (List.mem_cons_of_mem _ h)

omit [DecidableEq α] in
theorem pairwise_enlist (h : l.Pairwise fun a b => a.1 < b.1) : (enlist k v l).Pairwise fun a b => a.1 < b.1 := by
  induction l with
  | nil => simp [enlist]
  | cons a l ih =>
    obtain ⟨i, x⟩ := a
    rw [List.pairwise_cons] at h
    simp only [enlist]
    split
    · rename_i hk
      refine List.pairwise_cons.2 ⟨fun e he => ?_, List.pairwise_cons.2 h⟩
      rcases List.mem_cons.1 he with rfl | he
      · exact hk
      · exact Nat.lt_trans hk (h.1 e he)
    · split
      · rename_i hk; subst hk; exact List.pairwise_cons.2 h
      · rename_i h1 h2
        refine List.pairwise_cons.2 ⟨fun e he => ?_, ih h.2⟩
        rcases mem_enlist he with rfl | he
        · exact Nat.lt_of_le_of_ne (Nat.not_lt.1 h1) (Ne.symm h2)
        · exact h.1 e he

theorem canon_filter (p : Nat × α → Bool) (h : canon d l = true) : canon d (l.filter p) = true := by
  rw [canon_iff] at h ⊢
  exact ⟨h.1.filter p, fun e he => h.2 e (List.mem_filter.1 he).1⟩

theorem canon_poke (h : canon d l = true) : canon d (poke d l k v) = true := by
  unfold poke
  split
  · exact canon_filter _ h
  · rename_i hv
    rw [canon_iff] at h ⊢
    refine ⟨pairwise_enlist h.1, fun e he => ?_⟩
    rcases mem_enlist he with rfl | he
    · exact hv
    · exact h.2 e he

end

theorem canon_nil {α : Type} [DecidableEq α] (d : α) : canon d ([] : List (Nat × α)) = true := by simp [canon]

/-! ## Byte memories: every operation on them keeps the canonical form -/

theorem Memory.wf_nil : Memory.wf [] = true := canon_nil _

theorem Memory.wf_filter {m : List (Nat × Byte)} (p : Nat × Byte → Bool) (h : Memory.wf m = true) :
    Memory.wf (m.filter p) = true := canon_filter p h

theorem Memory.wf_pokeBytes {m : List (Nat × Byte)} {k : Nat} {bs : List Byte} (h : Memory.wf m = true) :
    Memory.wf (pokeBytes m k bs) = true := by
  induction bs generalizing m k with
  | nil => exact h
  | cons b bs ih => exact ih (canon_poke h)

/-- Bytes outside a write read as before. -/
theorem peek_pokeBytes_other {m : List (Nat × Byte)} {k j : Nat} {bs : List Byte} (h : j < k ∨ k + bs.length ≤ j) :
    peek 0#8 (pokeBytes m k bs) j = peek 0#8 m j := by
  induction bs generalizing m k with
  | nil => rfl
  | cons b bs ih =>
    simp only [pokeBytes, List.length_cons] at h ⊢
    rw [ih (by omega), peek_poke_other (by omega)]

/-- Bytes inside a write read as written. -/
theorem peek_pokeBytes_in {m : List (Nat × Byte)} {k i : Nat} {bs : List Byte} (h : i < bs.length) :
    peek 0#8 (pokeBytes m k bs) (k + i) = bs[i] := by
  induction bs generalizing m k i with
  | nil => simp at h
  | cons b bs ih =>
    cases i with
    | zero =>
      simp only [pokeBytes, Nat.add_zero, List.getElem_cons_zero]
      rw [peek_pokeBytes_other (by omega)]; exact peek_poke_same
    | succ i =>
      have e : k + (i + 1) = k + 1 + i := by omega
      simp only [pokeBytes, List.getElem_cons_succ]
      rw [e]; exact ih _

end Sys2Proof.Machine
end

