-- ==== Sys2Proof/Laws/Kept.lean ====
section
/-! SUPPORT. What every operation keeps: from one state to the next the queue is the same, the invariant holds again, no
fuse goes back and no classing is lost. -/

namespace Sys2Proof.Machine

/-- What decides whether an operation keeps all of this. -/
def State.cold (s : State) := (s.pending, s.fuses, s.dowels, s.broken, s.opens, s.nextDesc)
def State.core (s : State) := (s.cold, s.hbm, s.slices, s.locals, s.lines, s.flash.history)

/-- From `r` on, `t` has the same queue, the invariant where `r` had it, and every fuse and classing. -/
structure Kept (r t : State) : Prop where
  queue : t.pending = r.pending
  inv : r.Inv → t.Inv
  fuses : r.Inv → r.FusesKept t
  classings : r.ClassingsKept t

theorem Kept.refl (s : State) : Kept s s :=
  ⟨rfl, id, fun _ => ⟨rfl, Nat.le_refl _, fun h => ⟨h, rfl⟩⟩, fun _ h _ => h⟩

theorem Kept.trans {r s t : State} (h : Kept r s) (g : Kept s t) : Kept r t := by
  refine ⟨g.queue.trans h.queue, g.inv ∘ h.inv, fun i => ?_, fun e m v => g.classings e (h.classings e m v) v⟩
  obtain ⟨a1, b1, c1⟩ := h.fuses i
  obtain ⟨a2, b2, c2⟩ := g.fuses (h.inv i)
  exact ⟨a2.trans a1, Nat.le_trans b1 b2, fun w => ⟨(c2 (c1 w).1).1, (c2 (c1 w).1).2.trans (c1 w).2⟩⟩

/-- The memories keep their form, and nothing else of the invariant changes. -/
theorem Kept.mem {r s t : State} (h : Kept r s) (c : t.cold = s.cold) (w1 : Memory.wf s.hbm = true → Memory.wf t.hbm = true)
    (w2 : Memory.wf s.slices = true → Memory.wf t.slices = true) (w3 : Memory.wf s.locals = true → Memory.wf t.locals = true)
    (w4 : Memory.wf s.lines = true → Memory.wf t.lines = true) (l : s.ClassingsKept t) : Kept r t := by
  simp only [State.cold, Prod.mk.injEq] at c
  obtain ⟨c1, c2, c3, c4, c5, c6⟩ := c
  refine h.trans ⟨c1, fun i => ?_, fun _ => ?_, l⟩
  · simp only [State.Inv, State.memoryWf, State.dowelsWf, State.svnWf, State.opensWf, c2, c3, c4, c5, c6, Bool.and_eq_true] at i ⊢
    exact ⟨⟨⟨⟨w1 i.1.1.1.1, w2 i.1.1.1.2⟩, w3 i.1.1.2⟩, w4 i.1.2⟩, i.2⟩
  · rw [State.FusesKept, c2]
    exact ⟨rfl, Nat.le_refl _, fun h => ⟨h, rfl⟩⟩

theorem Kept.upd {r s t : State} (h : Kept r s) (e : t.core = s.core) : Kept r t := by
  simp only [State.core, Prod.mk.injEq] at e
  obtain ⟨e1, e2, e3, e4, e5, e6⟩ := e
  exact h.mem e1 (by rw [e2]; exact id) (by rw [e3]; exact id) (by rw [e4]; exact id) (by rw [e5]; exact id)
    fun e m _ => by rw [e6]; exact m

/-- The dowels and their BROKEN bits change, and keep their form. -/
theorem Kept.dowels {r s t : State} (h : Kept r s)
    (e : (t.pending, t.fuses, t.hbm, t.slices, t.locals, t.lines, t.flash, t.opens, t.nextDesc) =
      (s.pending, s.fuses, s.hbm, s.slices, s.locals, s.lines, s.flash, s.opens, s.nextDesc))
    (w : s.dowelsWf = true → t.dowelsWf = true) : Kept r t := by
  simp only [Prod.mk.injEq] at e
  obtain ⟨e1, e2, e3, e4, e5, el, e6, e7, e8⟩ := e
  refine h.trans ⟨e1, fun i => ?_, fun _ => ?_, fun e m _ => by rw [e6]; exact m⟩
  · simp only [State.Inv, State.memoryWf, State.svnWf, State.opensWf, e2, e3, e4, e5, el, e7, e8] at i ⊢
    exact ⟨i.1, w i.2.1, i.2.2⟩
  · rw [State.FusesKept, e2]
    exact ⟨rfl, Nat.le_refl _, fun h => ⟨h, rfl⟩⟩

/-- Only fuses change, and none goes back. -/
theorem Kept.fused {r s t : State} (h : Kept r s)
    (e : (t.pending, t.hbm, t.slices, t.locals, t.lines, t.dowels, t.broken, t.flash, t.opens, t.nextDesc) =
      (s.pending, s.hbm, s.slices, s.locals, s.lines, s.dowels, s.broken, s.flash, s.opens, s.nextDesc))
    (w : s.fuses.svn ≤ 64 → s.FusesKept t ∧ t.fuses.svn ≤ 64) : Kept r t := by
  simp only [Prod.mk.injEq] at e
  obtain ⟨e1, e2, e3, e4, el, e5, e6, e7, e8, e9⟩ := e
  refine h.trans ⟨e1, fun i => ?_, fun i => ?_, fun e m _ => by rw [e7]; exact m⟩
  · simp only [State.Inv, State.memoryWf, State.dowelsWf, State.svnWf, State.opensWf, e2, e3, e4, el, e5, e6, e8, e9,
      decide_eq_true_eq] at i ⊢
    exact ⟨i.1, i.2.1, (w i.2.2.1).2, i.2.2.2⟩
  · exact (w (by simpa [State.svnWf] using i.2.2.1)).1

/-- The open descriptors change, and their numbers stay below the next one. -/
theorem Kept.opened {r s t : State} (h : Kept r s)
    (e : (t.pending, t.fuses, t.hbm, t.slices, t.locals, t.lines, t.dowels, t.broken, t.flash) =
      (s.pending, s.fuses, s.hbm, s.slices, s.locals, s.lines, s.dowels, s.broken, s.flash))
    (w : s.opensWf = true → t.opensWf = true) : Kept r t := by
  simp only [Prod.mk.injEq] at e
  obtain ⟨e1, e2, e3, e4, e5, el, e6, e7, e8⟩ := e
  refine h.trans ⟨e1, fun i => ?_, fun _ => ?_, fun e m _ => by rw [e8]; exact m⟩
  · simp only [State.Inv, State.memoryWf, State.svnWf, State.dowelsWf, e2, e3, e4, e5, el, e6, e7] at i ⊢
    exact ⟨i.1, i.2.1, i.2.2.1, w i.2.2.2⟩
  · rw [State.FusesKept, e2]
    exact ⟨rfl, Nat.le_refl _, fun h => ⟨h, rfl⟩⟩

/-- A change of each open descriptor that keeps its number. -/
theorem opensWf_map {s : State} {f : Desc → Desc} {l : List Desc} (g : ∀ d, (f d).id = d.id) (e : l = s.opens.map f)
    (w : s.opensWf = true) : l.all (fun d => decide (d.id < s.nextDesc)) = true := by
  subst e
  simp only [State.opensWf, List.all_eq_true, decide_eq_true_eq, List.mem_map, forall_exists_index, and_imp,
    forall_apply_eq_imp_iff₂] at w ⊢
  exact fun d m => (g d).symm ▸ w d m

theorem ite_kept {c : Prop} [Decidable c] {r a b : State} (ha : Kept r a) (hb : Kept r b) : Kept r (if c then a else b) := by
  split
  · exact ha
  · exact hb

/-- An operation that may refuse, by the branches of its choice. -/
theorem of_ite {c p : Prop} [Decidable c] {a b : Option State} {t : State} (e : (if c then a else b) = some t) (ha : a = some t → p)
    (hb : b = some t → p) : p := by
  split at e
  · exact ha e
  · exact hb e

theorem foldl_kept {α : Type} {r s : State} {f : State → α → State} {l : List α} (h : Kept r s)
    (g : ∀ t x, Kept r t → Kept r (f t x)) : Kept r (l.foldl f s) := by
  induction l generalizing s with
  | nil => exact h
  | cons a l ih => exact ih (g _ _ h)

theorem foldl_kept_by {α β : Type} (π : β → State) {r : State} {f : β → α → β} {l : List α} {b : β} (h : Kept r (π b))
    (g : ∀ b x, Kept r (π b) → Kept r (π (f b x))) : Kept r (π (l.foldl f b)) := by
  induction l generalizing b with
  | nil => exact h
  | cons a l ih => exact ih (g _ _ h)

theorem kept_hbm {r s t : State} {k : Nat} {bs : List Byte} (h : Kept r s) (e : t.hbm = pokeBytes s.hbm k bs)
    (c : (t.cold, t.slices, t.locals, t.lines, t.flash.history) = (s.cold, s.slices, s.locals, s.lines, s.flash.history)) : Kept r t := by
  simp only [Prod.mk.injEq] at c
  obtain ⟨c1, c2, c3, cl, c4⟩ := c
  exact h.mem c1 (fun w => by rw [e]; exact Memory.wf_pokeBytes w) (by rw [c2]; exact id) (by rw [c3]; exact id) (by rw [cl]; exact id)
    fun e m _ => by rw [c4]; exact m

theorem mem_pushHistory {h : List FaultEntry} {e x : FaultEntry} (m : x ∈ h) (v : x.event = 6) : x ∈ pushHistory h e := by
  unfold pushHistory
  split
  · exact List.mem_append_left _ m
  · split
    · rename_i i hi
      refine List.mem_append_left _ ?_
      obtain ⟨hl, hp, -⟩ := List.findIdx?_eq_some_iff_getElem.1 hi
      obtain ⟨j, hj, rfl⟩ := List.mem_iff_getElem.1 m
      refine List.mem_eraseIdx_iff_getElem.2 ⟨j, hj, ?_, rfl⟩
      rintro rfl
      simp [v] at hp
    · exact m

end Sys2Proof.Machine
end

