-- ==== Sys2Proof/Laws/KeptBasic.lean ====
section
/-! SUPPORT. The operations and commands of registers, records and memory keep the queue, the invariant, the fuses
and the classings (`Kept`). -/

set_option linter.unusedVariables false

namespace Sys2Proof.Machine

theorem State.setReg_kept {r0 : State} (s : State) (o : Nat) (v : Word) (hq : Kept r0 s) : Kept r0 (State.setReg s o v) := by
  unfold State.setReg
  exact Kept.upd hq rfl

theorem State.setRegFld_kept {r0 : State} (s : State) (o msb lsb v : Nat)
    (hq : Kept r0 s) : Kept r0 (State.setRegFld s o msb lsb v) := by
  unfold State.setRegFld
  apply State.setReg_kept
  exact hq

theorem State.setRegBit_kept {r0 : State} (s : State) (o i : Nat) (b : Bool)
    (hq : Kept r0 s) : Kept r0 (State.setRegBit s o i b) := by
  unfold State.setRegBit
  apply State.setReg_kept
  exact hq

theorem State.setMreg_kept {r0 : State} (s : State) (o : Nat) (v : Word)
    (hq : Kept r0 s) : Kept r0 (State.setMreg s o v) := by
  unfold State.setMreg
  exact Kept.upd hq rfl

theorem State.setMregFld_kept {r0 : State} (s : State) (o msb lsb v : Nat)
    (hq : Kept r0 s) : Kept r0 (State.setMregFld s o msb lsb v) := by
  unfold State.setMregFld
  apply State.setMreg_kept
  exact hq

theorem State.emit_kept {r0 : State} (s : State) (o : Out) (hq : Kept r0 s) : Kept r0 (State.emit s o) := by
  unfold State.emit
  exact Kept.upd hq rfl

theorem State.emits_kept {r0 : State} (s : State) (os : List Out) (hq : Kept r0 s) : Kept r0 (State.emits s os) := by
  unfold State.emits
  refine foldl_kept ?_ ?_
  · exact hq
  · intro s0 x0 hs0
    try dsimp only
    apply State.emit_kept
    exact hs0

theorem State.free_kept {r0 : State} (s : State) (hq : Kept r0 s) : Kept r0 (State.free s).2 := by
  unfold State.free
  dsimp only
  exact Kept.upd hq rfl

theorem State.setPort_kept {r0 : State} (s : State) (p : EPort) (v : Port)
    (hq : Kept r0 s) : Kept r0 (State.setPort s p v) := by
  unfold State.setPort
  split
  · exact Kept.upd hq rfl
  · exact Kept.upd hq rfl

theorem State.setPair_kept {r0 : State} (s : State) (p : EPort) (i : Nat) (v : Pair)
    (hq : Kept r0 s) : Kept r0 (State.setPair s p i v) := by
  unfold State.setPair
  apply State.setPort_kept
  exact hq

theorem State.setReg64_kept {r0 : State} (s : State) (o v : Nat) (hq : Kept r0 s) : Kept r0 (State.setReg64 s o v) := by
  unfold State.setReg64
  apply State.setReg_kept
  apply State.setReg_kept
  exact hq

theorem State.toPeers_kept {r0 : State} (s : State) (f : Nat → Out) (hq : Kept r0 s) : Kept r0 (State.toPeers s f) := by
  unfold State.toPeers
  apply State.emits_kept
  exact hq

theorem State.setCtx_kept {r0 : State} (s : State) (c : Nat) (x : Ctx) (hq : Kept r0 s) : Kept r0 (State.setCtx s c x) := by
  unfold State.setCtx
  exact Kept.upd hq rfl

theorem State.dropCtx_kept {r0 : State} (s : State) (c : Nat) (hq : Kept r0 s) : Kept r0 (State.dropCtx s c) := by
  unfold State.dropCtx
  exact Kept.upd hq rfl

theorem State.modCtx_kept {r0 : State} (s : State) (c : Nat) (f : Ctx → Ctx)
    (hq : Kept r0 s) : Kept r0 (State.modCtx s c f) := by
  unfold State.modCtx
  split
  · exact hq
  · apply State.setCtx_kept
    exact hq

theorem State.setSeq_kept {r0 : State} (s : State) (c : Nat) (q : Seq) (hq : Kept r0 s) : Kept r0 (State.setSeq s c q) := by
  unfold State.setSeq
  apply State.modCtx_kept
  exact hq

theorem State.modAttempt_kept {r0 : State} (s : State) (f : Attempt → Attempt)
    (hq : Kept r0 s) : Kept r0 (State.modAttempt s f) := by
  unfold State.modAttempt
  split
  · exact hq
  · exact Kept.upd hq rfl

theorem State.takeFrame_kept {r0 : State} (s : State) (k : Nat) (hq : Kept r0 s) : Kept r0 (State.takeFrame s k) := by
  unfold State.takeFrame
  exact Kept.upd hq rfl

theorem State.giveFrame_kept {r0 : State} (s : State) (k : Nat) (hq : Kept r0 s) : Kept r0 (State.giveFrame s k) := by
  unfold State.giveFrame
  exact Kept.upd hq rfl

theorem State.giveFrames_kept {r0 : State} (s : State) (ks : List Nat)
    (hq : Kept r0 s) : Kept r0 (State.giveFrames s ks) := by
  unfold State.giveFrames
  exact Kept.upd hq rfl

theorem State.bump_kept {r0 : State} (s : State) (o msb lsb n : Nat)
    (hq : Kept r0 s) : Kept r0 (State.bump s o msb lsb n) := by
  unfold State.bump
  apply State.setRegFld_kept
  exact hq

theorem State.bump64_kept {r0 : State} (s : State) (o n : Nat) (hq : Kept r0 s) : Kept r0 (State.bump64 s o n) := by
  unfold State.bump64
  split
  · exact hq
  · apply State.setReg64_kept
    exact hq

theorem State.orReg_kept {r0 : State} (s : State) (o : Nat) (v : Word) (hq : Kept r0 s) : Kept r0 (State.orReg s o v) := by
  unfold State.orReg
  apply State.setReg_kept
  exact hq

theorem State.mbump_kept {r0 : State} (s : State) (o msb lsb n : Nat)
    (hq : Kept r0 s) : Kept r0 (State.mbump s o msb lsb n) := by
  unfold State.mbump
  apply State.setMregFld_kept
  exact hq

theorem State.qstatCommit_kept {r0 : State} (s : State) (c step : Nat) (e : QEvents)
    (hq : Kept r0 s) : Kept r0 (State.qstatCommit s c step e) := by
  unfold State.qstatCommit
  extract_lets +onlyGivenNames v0
  extract_lets +onlyGivenNames v1
  have hv1 : Kept r0 v1 := by
    unfold v1
    apply State.orReg_kept
    exact hq
  clear_value v1
  extract_lets +onlyGivenNames v2
  have hv2 : Kept r0 v2 := by
    unfold v2
    split
    · exact hv1
    · apply State.setReg64_kept
      refine foldl_kept ?_ ?_
      · exact hv1
      · intro s3 x3 hs3
        try dsimp only
        apply State.bump64_kept
        exact hs3
  clear_value v2
  split
  · extract_lets +onlyGivenNames v4
    have hv4 : Kept r0 v4 := by
      unfold v4
      refine foldl_kept ?_ ?_
      · apply State.setReg_kept
        exact hv2
      · intro s5 x5 hs5
        try dsimp only
        apply State.setReg64_kept
        exact hs5
    clear_value v4
    apply State.setRegBit_kept
    apply State.setReg64_kept
    exact hv4
  · exact hv2

theorem State.qstatReset_kept {r0 : State} (s : State) (c : Nat) (hq : Kept r0 s) : Kept r0 (State.qstatReset s c) := by
  unfold State.qstatReset
  refine foldl_kept ?_ ?_
  · exact hq
  · intro s0 x0 hs0
    try dsimp only
    apply State.setReg_kept
    exact hs0

theorem State.countersReset_kept {r0 : State} (s : State) (c : Nat)
    (hq : Kept r0 s) : Kept r0 (State.countersReset s c) := by
  unfold State.countersReset
  extract_lets +onlyGivenNames v0
  have hv0 : Kept r0 v0 := by
    unfold v0
    refine foldl_kept ?_ ?_
    · exact hq
    · intro s1 x1 hs1
      try dsimp only
      apply State.setReg_kept
      exact hs1
  clear_value v0
  refine foldl_kept ?_ ?_
  · exact hv0
  · intro s2 x2 hs2
    try dsimp only
    apply State.setReg_kept
    exact hs2

theorem State.logEntry_kept {r0 : State} (s : State) (u : UnitName) (event step : Nat) (sram : Bool) (hq : Kept r0 s) :
    Kept r0 (State.logEntry s u event step sram) :=
  hq.mem rfl id id id id (fun _ m v => mem_pushHistory m v)

theorem State.logFault_kept {r0 : State} (s : State) (u : UnitName) (event step : Nat) (hq : Kept r0 s) :
    Kept r0 (State.logFault s u event step) :=
  hq.mem rfl id id id id (fun _ m v => mem_pushHistory m v)

theorem State.classIf_kept {r0 : State} (s : State) (u : UnitName) (step : Nat) (b : Bool)
    (hq : Kept r0 s) : Kept r0 (State.classIf s u step b) := by
  unfold State.classIf
  split
  · apply State.logFault_kept
    exact hq
  · exact hq

theorem State.correctedEvent_kept {r0 : State} (s : State) (u : UnitName) (step : Nat)
    (hq : Kept r0 s) : Kept r0 (State.correctedEvent s u step) := by
  unfold State.correctedEvent
  extract_lets +onlyGivenNames v0
  have hv0 : Kept r0 v0 := by
    unfold v0
    apply State.logFault_kept
    exact hq
  clear_value v0
  apply State.classIf_kept
  exact hv0

theorem State.cause_kept {r0 : State} (s : State) (i : Nat) (hq : Kept r0 s) : Kept r0 (State.cause s i) := by
  unfold State.cause
  apply State.setRegBit_kept
  exact hq

theorem State.dieCause_kept {r0 : State} (s : State) (d i : Nat) (hq : Kept r0 s) : Kept r0 (State.dieCause s d i) := by
  unfold State.dieCause
  apply State.setRegBit_kept
  exact hq

theorem State.logAccess_kept {r0 : State} (s : State) (p : Path) (o status : Nat) (write : Bool)
    (hq : Kept r0 s) : Kept r0 (State.logAccess s p o status write) := by
  unfold State.logAccess
  extract_lets +onlyGivenNames v0
  have hv0 : Kept r0 v0 := by
    unfold v0
    split
    · apply State.setRegFld_kept
      apply State.bump_kept
      exact hq
    · exact hq
  clear_value v0
  split
  · exact hv0
  · apply State.setReg_kept
    exact hv0

theorem State.modPower_kept {r0 : State} (s : State) (f : Power → Power)
    (hq : Kept r0 s) : Kept r0 (State.modPower s f) := by
  unfold State.modPower
  exact Kept.upd hq rfl

theorem State.keepFloor_kept {r0 : State} (s : State) (hq : Kept r0 s) : Kept r0 (State.keepFloor s) := by
  unfold State.keepFloor
  split
  · exact hq
  · apply State.modPower_kept
    exact hq

theorem State.refreshPower_kept {r0 : State} (s : State) (hq : Kept r0 s) : Kept r0 (State.refreshPower s) := by
  unfold State.refreshPower
  extract_lets +onlyGivenNames v0
  extract_lets +onlyGivenNames v1
  extract_lets +onlyGivenNames v2
  extract_lets +onlyGivenNames v3
  extract_lets +onlyGivenNames v4
  apply State.keepFloor_kept
  apply State.setMreg_kept
  exact hq

theorem State.forceCap_kept {r0 : State} (s : State) (hq : Kept r0 s) : Kept r0 (State.forceCap s) := by
  unfold State.forceCap
  split
  · exact hq
  · apply State.refreshPower_kept
    apply State.modPower_kept
    exact hq

theorem State.takeCap_kept {r0 : State} (s : State) (hq : Kept r0 s) : Kept r0 (State.takeCap s) := by
  unfold State.takeCap
  split
  · exact hq
  · split
    · apply State.modPower_kept
      exact hq
    · apply State.forceCap_kept
      exact hq

theorem State.recap_kept {r0 : State} (s : State) (hq : Kept r0 s) : Kept r0 (State.recap s) := by
  unfold State.recap
  split
  · apply State.refreshPower_kept
    exact hq
  · apply State.forceCap_kept
    apply State.refreshPower_kept
    exact hq

theorem State.writeCap_kept_of {r0 s t : State} {w : Word} (e : s.writeCap w = some t) (hq : Kept r0 s) : Kept r0 t := by
  unfold State.writeCap at e
  extract_lets x at e
  split at e
  · cases e
  · cases e
    split
    · apply State.takeCap_kept
      exact ((hq.upd rfl : Kept r0 ((s.setMreg mCap x).setReg (oBkup 0) x)).upd rfl)
    · exact hq.upd rfl

theorem State.writeSafe_kept_of {r0 s t : State} {w : Word} (e : s.writeSafe w = some t) (hq : Kept r0 s) : Kept r0 t := by
  unfold State.writeSafe at e
  extract_lets x at e
  split at e
  · cases e
  · cases e
    apply State.refreshPower_kept
    exact hq.upd rfl

theorem State.reloadCap_kept {r0 : State} (s : State) (hq : Kept r0 s) : Kept r0 (State.reloadCap s) := by
  unfold State.reloadCap
  extract_lets +onlyGivenNames v0
  extract_lets +onlyGivenNames v1
  have hv1 : Kept r0 v1 := by
    unfold v1
    apply State.setMreg_kept
    apply State.setMreg_kept
    exact hq
  clear_value v1
  apply State.refreshPower_kept
  apply State.modPower_kept
  exact hv1

theorem State.setGroup_kept {r0 : State} (s : State) (g mhz : Nat) (hq : Kept r0 s) : Kept r0 (State.setGroup s g mhz) := by
  unfold State.setGroup
  apply State.modPower_kept
  exact hq

theorem State.freeClock_kept {r0 : State} (s : State) (g lo hi : Nat)
    (hq : Kept r0 s) : Kept r0 (State.freeClock s g lo hi) := by
  unfold State.freeClock
  extract_lets +onlyGivenNames v0
  apply State.setGroup_kept
  unfold v0
  apply State.free_kept
  exact hq

theorem State.lowerGroups_kept {r0 : State} (s : State) (hq : Kept r0 s) : Kept r0 (State.lowerGroups s) := by
  unfold State.lowerGroups
  split
  · exact hq
  · apply State.freeClock_kept
    exact hq

theorem State.raiseGroups_kept {r0 : State} (s : State) (hq : Kept r0 s) : Kept r0 (State.raiseGroups s) := by
  unfold State.raiseGroups
  split
  · exact hq
  · apply State.freeClock_kept
    exact hq

theorem State.learnClocks_kept {r0 : State} (s : State) (above : Bool)
    (hq : Kept r0 s) : Kept r0 (State.learnClocks s above) := by
  unfold State.learnClocks
  extract_lets +onlyGivenNames v0
  have hv0 : Kept r0 v0 := by
    unfold v0
    split
    · apply State.lowerGroups_kept
      exact hq
    · exact hq
  clear_value v0
  refine foldl_kept ?_ ?_
  · exact hv0
  · intro s1 x1 hs1
    try dsimp only
    split
    · apply State.freeClock_kept
      exact hs1
    · apply State.freeClock_kept
      exact hs1

theorem State.takeSsc_kept {r0 : State} (s : State) (hq : Kept r0 s) : Kept r0 (State.takeSsc s) := by
  unfold State.takeSsc
  apply State.keepFloor_kept
  apply State.modPower_kept
  exact hq

theorem State.atBoundary_kept {r0 : State} (s : State) (hq : Kept r0 s) : Kept r0 (State.atBoundary s) := by
  unfold State.atBoundary
  apply State.takeCap_kept
  apply State.takeSsc_kept
  exact Kept.upd hq rfl

theorem State.sendIrq_kept {r0 : State} (s : State) (p : EPort) (i : Nat)
    (hq : Kept r0 s) : Kept r0 (State.sendIrq s p i) := by
  unfold State.sendIrq
  apply State.emit_kept
  apply State.setPair_kept
  exact hq

theorem State.countIrq_kept {r0 : State} (s : State) (p : EPort) (r : Rec)
    (hq : Kept r0 s) : Kept r0 (State.countIrq s p r) := by
  unfold State.countIrq
  split
  · exact hq
  · extract_lets +onlyGivenNames v0
    extract_lets +onlyGivenNames v1
    have hv1 : Kept r0 v1 := by
      unfold v1
      apply State.setPair_kept
      exact hq
    clear_value v1
    split
    · apply State.sendIrq_kept
      exact hv1
    · exact hv1

theorem State.writeRecord_kept {r0 : State} (s : State) (p : EPort) (r : Rec)
    (hq : Kept r0 s) : Kept r0 (State.writeRecord s p r) := by
  unfold State.writeRecord
  extract_lets +onlyGivenNames v0
  extract_lets +onlyGivenNames v1
  extract_lets +onlyGivenNames v2
  extract_lets +onlyGivenNames v3
  extract_lets +onlyGivenNames v4
  extract_lets +onlyGivenNames v5
  apply State.countIrq_kept
  apply State.emit_kept
  apply State.setPair_kept
  exact hq

theorem State.dropRecord_kept {r0 : State} (s : State) (p : EPort) (hq : Kept r0 s) : Kept r0 (State.dropRecord s p) := by
  unfold State.dropRecord
  apply State.bump_kept
  exact hq

theorem State.noteHeld_kept {r0 : State} (s : State) (p : EPort) (hq : Kept r0 s) : Kept r0 (State.noteHeld s p) := by
  unfold State.noteHeld
  extract_lets +onlyGivenNames v0
  split
  · apply State.setRegFld_kept
    exact hq
  · exact hq

theorem State.post_kept {r0 : State} (s : State) (p : EPort) (r : Rec) (hq : Kept r0 s) : Kept r0 (State.post s p r) := by
  unfold State.post
  extract_lets +onlyGivenNames v0
  split
  · apply State.dropRecord_kept
    exact hq
  · split
    · apply State.writeRecord_kept
      exact hq
    · apply State.noteHeld_kept
      apply State.setPort_kept
      exact hq

theorem State.settlePair_kept {r0 : State} (s : State) (p : EPort) (i : Nat)
    (hq : Kept r0 s) : Kept r0 (State.settlePair s p i) := by
  unfold State.settlePair
  extract_lets +onlyGivenNames v0
  split
  · apply State.setPair_kept
    exact hq
  · exact hq

theorem State.releaseOne_kept {r0 : State} (s : State) (p : EPort) (i : Nat)
    (hq : Kept r0 s) : Kept r0 (State.releaseOne s p i) := by
  unfold State.releaseOne
  extract_lets +onlyGivenNames v0
  split
  · apply State.settlePair_kept
    exact hq
  · apply State.settlePair_kept
    apply State.writeRecord_kept
    apply State.setPort_kept
    exact hq

theorem State.event_kept {r0 : State} (s : State) (status : Nat) (ctx : Option Nat) (object result step : Nat)
    (hq : Kept r0 s) : Kept r0 (State.event s status ctx object result step) := by
  unfold State.event
  extract_lets +onlyGivenNames v0
  extract_lets +onlyGivenNames v1
  unfold v1
  split
  · split
    · apply State.post_kept
      apply State.post_kept
      exact hq
    · apply State.post_kept
      exact hq
  · split
    · apply State.post_kept
      exact hq
    · exact hq

theorem State.modDesc_kept {r0 : State} (s : State) (id : Nat) (f : Desc → Desc)
    (hq : Kept r0 s) : Kept r0 (State.modDesc s id f) := by
  unfold State.modDesc
  exact hq.opened rfl (opensWf_map (fun d => by dsimp only; split <;> rfl) rfl)

theorem State.finishDesc_kept {r0 : State} (s : State) (d : Desc) (status result : Nat) (b : Bound)
    (hq : Kept r0 s) : Kept r0 (State.finishDesc s d status result b) := by
  unfold State.finishDesc
  extract_lets +onlyGivenNames v0
  have hv0 : Kept r0 v0 := by
    unfold v0
    exact hq.opened rfl (fun w => by
        simp only [State.opensWf, List.all_eq_true, List.mem_filter] at w ⊢
        exact fun d m => w d m.1)
  clear_value v0
  split
  · apply State.dropRecord_kept
    exact hv0
  · extract_lets +onlyGivenNames v1
    apply State.settlePair_kept
    apply State.post_kept
    exact hv0

theorem settleFencesAux_kept {r0 : State} (b : Bound) (n : Nat) (s : State) (hq : Kept r0 s) :
    Kept r0 (settleFencesAux b n s) := by
  induction n generalizing s with
  | zero => exact hq
  | succ n ih =>
    unfold settleFencesAux
    split
    · exact hq
    · exact ih _ (State.finishDesc_kept _ _ _ _ _ hq)

theorem State.settleFences_kept {r0 : State} (s : State) (b : Bound) (hq : Kept r0 s) : Kept r0 (s.settleFences b) :=
  settleFencesAux_kept _ _ _ hq

theorem State.complete_kept {r0 : State} (s : State) (id status result : Nat) (b : Bound)
    (hq : Kept r0 s) : Kept r0 (State.complete s id status result b) := by
  unfold State.complete
  split
  · exact hq
  · apply State.settleFences_kept
    apply State.finishDesc_kept
    exact hq

theorem State.postToken_kept {r0 : State} (s : State) (id : Nat) (r : Rec)
    (hq : Kept r0 s) : Kept r0 (State.postToken s id r) := by
  unfold State.postToken
  split
  · exact hq
  · split
    · apply State.dropRecord_kept
      exact hq
    · apply State.post_kept
      exact hq

theorem State.writeLine_kept {r0 : State} (s : State) (die line : Nat) (bytes : List Byte) (poison : Bool) (hq : Kept r0 s) :
    Kept r0 (s.writeLine die line bytes poison) := by
  unfold State.writeLine
  extract_lets k r hit flips po s1
  have h1 : Kept r0 s1 := kept_hbm hq rfl rfl
  clear_value s1
  split
  · exact State.setRegBit_kept _ _ _ _ h1
  · exact h1

theorem State.correctLine_kept {r0 : State} (s : State) (die line : Nat)
    (hq : Kept r0 s) : Kept r0 (State.correctLine s die line) := by
  unfold State.correctLine
  extract_lets +onlyGivenNames v0
  extract_lets +onlyGivenNames v1
  extract_lets +onlyGivenNames v2
  have hv2 : Kept r0 v2 := by
    unfold v2
    apply State.bump_kept
    exact hq
  clear_value v2
  extract_lets +onlyGivenNames v3
  have hv3 : Kept r0 v3 := by
    unfold v3
    exact Kept.upd hv2 rfl
  clear_value v3
  extract_lets +onlyGivenNames v4
  have hv4 : Kept r0 v4 := by
    unfold v4
    apply State.writeLine_kept
    exact hv3
  clear_value v4
  split
  · apply State.correctedEvent_kept
    exact hv4
  · exact hv4

theorem State.poisonLine_kept {r0 : State} (s : State) (die line source : Nat)
    (hq : Kept r0 s) : Kept r0 (State.poisonLine s die line source) := by
  unfold State.poisonLine
  extract_lets +onlyGivenNames v0
  have hv0 : Kept r0 v0 := by
    unfold v0
    apply State.bump_kept
    exact hq
  clear_value v0
  extract_lets +onlyGivenNames v1
  have hv1 : Kept r0 v1 := by
    unfold v1
    apply State.setReg_kept
    exact hv0
  clear_value v1
  extract_lets +onlyGivenNames v2
  have hv2 : Kept r0 v2 := by
    unfold v2
    apply State.setReg_kept
    exact hv1
  clear_value v2
  extract_lets +onlyGivenNames v3
  have hv3 : Kept r0 v3 := by
    unfold v3
    apply State.logFault_kept
    exact hv2
  clear_value v3
  split
  · apply State.writeLine_kept
    exact hv3
  · exact hv3

theorem State.readLine_kept {r0 : State} (s : State) (die line source : Nat)
    (hq : Kept r0 s) : Kept r0 (State.readLine s die line source).2.2 := by
  unfold State.readLine
  extract_lets +onlyGivenNames v0
  extract_lets +onlyGivenNames v1
  extract_lets +onlyGivenNames v2
  split
  · dsimp only
    exact hq
  · split
    · extract_lets +onlyGivenNames v3
      have hv3 : Kept r0 v3 := by
        unfold v3
        apply State.correctLine_kept
        exact hq
      clear_value v3
      dsimp only
      exact hv3
    · extract_lets +onlyGivenNames v4
      dsimp only
      apply State.poisonLine_kept
      exact hq

theorem State.writePart_kept {r0 : State} (s : State) (die line off : Nat) (bytes : List Byte) (poison : Bool)
    (hq : Kept r0 s) : Kept r0 (State.writePart s die line off bytes poison) := by
  unfold State.writePart
  split
  · apply State.writeLine_kept
    exact hq
  · extract_lets +onlyGivenNames v0
    apply State.writeLine_kept
    unfold v0
    apply State.readLine_kept
    exact hq

theorem freeBytes_kept {r0 : State} (n : Nat) (s : State) (hq : Kept r0 s) : Kept r0 (freeBytes n s).2 := by
  induction n generalizing s with
  | zero => exact hq
  | succ n ih => exact ih _ (State.free_kept _ hq)

theorem State.readAt_kept {r0 : State} (s : State) (x : Ctx) (a source : Nat)
    (hq : Kept r0 s) : Kept r0 (State.readAt s x a source).2.2 := by
  unfold State.readAt
  extract_lets +onlyGivenNames v0
  split
  · split
    · dsimp only
      exact hq
    · dsimp only
      exact Kept.upd hq rfl
  · apply State.readLine_kept
    exact hq

theorem readLines_kept {r0 : State} (x : Ctx) (source n a : Nat) (s : State) (hq : Kept r0 s) :
    Kept r0 (readLines x source n a s).2.2 := by
  induction n generalizing a s with
  | zero => exact hq
  | succ n ih => exact ih _ _ (State.readAt_kept _ _ _ _ hq)

theorem State.readCtx_kept_of {r0 s t : State} {x : Ctx} {a n source : Nat} {bs : List Byte} {po : Bool}
    (e : s.readCtx x a n source = .ok (bs, po, t)) (hq : Kept r0 s) : Kept r0 t := by
  unfold State.readCtx at e
  split at e
  · cases e; exact hq
  · split at e
    · cases e
    · cases e; exact readLines_kept _ _ _ _ _ hq

theorem writeBytesAux_kept {r0 : State} (x : Ctx) (poison : Bool) (n a : Nat) (bs : List Byte) (s : State) (hq : Kept r0 s) :
    Kept r0 (writeBytesAux x poison n a bs s) := by
  induction n generalizing a bs s with
  | zero => exact hq
  | succ n ih => exact ih _ _ _ (State.writePart_kept _ _ _ _ _ _ hq)

theorem State.placeBytes_kept {r0 : State} (s : State) (x : Ctx) (a : Nat) (bs : List Byte) (poison : Bool)
    (hq : Kept r0 s) :
    Kept r0 (s.placeBytes x a bs poison) := writeBytesAux_kept _ _ _ _ _ _ hq

theorem State.writeCtx_kept_of {r0 s t : State} {x : Ctx} {a : Nat} {bs : List Byte} {po l : Bool}
    (e : s.writeCtx x a bs po l = .ok t) (hq : Kept r0 s) : Kept r0 t := by
  unfold State.writeCtx at e
  split at e
  · cases e; exact hq
  · split at e
    · cases e
    · cases e; exact State.placeBytes_kept _ _ _ _ _ hq

end Sys2Proof.Machine
end

