-- ==== Sys2Proof/Laws/KeptWork.lean ====
section
/-! SUPPORT. The operations and commands of requests, placement, contexts, pages, plans, ships, sequences, reports, storage and boundaries keep the queue, the invariant, the fuses
and the classings (`Kept`). -/

set_option linter.unusedVariables false

namespace Sys2Proof.Machine

theorem State.issue_kept {r0 : State} (s : State) (o : Outst) (hq : Kept r0 s) : Kept r0 (State.issue s o) := by
  unfold State.issue
  extract_lets +onlyGivenNames v0
  have hv0 : Kept r0 v0 := by
    unfold v0
    exact Kept.upd hq rfl
  clear_value v0
  split
  · exact hv0
  · apply State.emit_kept
    exact hv0

theorem State.issueNew_kept {r0 : State} (s : State) (c dst : Nat) (h : MsgHdr) (op : FabOp) (why : Purpose)
    (hq : Kept r0 s) : Kept r0 (State.issueNew s c dst h op why) := by
  unfold State.issueNew
  apply State.issue_kept
  exact Kept.upd hq rfl

theorem State.sendRequest_kept {r0 : State} (s : State) (c job dst offset : Nat) (op : FabOp) (poison : Bool) (why : Purpose)
    (hq : Kept r0 s) : Kept r0 (State.sendRequest s c job dst offset op poison why) := by
  unfold State.sendRequest
  extract_lets +onlyGivenNames v0
  apply State.issueNew_kept
  exact hq

theorem State.sendWaiting_kept {r0 : State} (s : State) (hq : Kept r0 s) : Kept r0 (State.sendWaiting s) := by
  unfold State.sendWaiting
  refine foldl_kept ?_ ?_
  · exact hq
  · intro s0 x0 hs0
    try dsimp only
    split
    · exact hs0
    · split
      · exact hs0
      · apply State.emit_kept
        exact Kept.upd hs0 rfl

theorem State.setPlanes_kept {r0 : State} (s : State) (mask : Nat) (hq : Kept r0 s) : Kept r0 (State.setPlanes s mask) := by
  unfold State.setPlanes
  apply State.sendWaiting_kept
  apply State.setReg_kept
  exact hq

theorem State.tableFault_kept {r0 : State} (s : State) (x : Ctx) (st : Nat)
    (hq : Kept r0 s) : Kept r0 (State.tableFault s x st) := by
  unfold State.tableFault
  exact Kept.upd hq rfl

theorem State.pokeData_kept {r0 : State} (s : State) (x : Ctx) (a : Nat) (bs : List Byte) (poison : Bool)
    (hq : Kept r0 s) : Kept r0 (State.pokeData s x a bs poison) := by
  unfold State.pokeData
  split
  · apply State.tableFault_kept
    exact hq
  · apply State.placeBytes_kept
    exact hq

theorem State.pokeCtx_kept {r0 : State} (s : State) (x : Ctx) (a : Nat) (bs : List Byte)
    (hq : Kept r0 s) : Kept r0 (State.pokeCtx s x a bs) := by
  unfold State.pokeCtx
  apply State.pokeData_kept
  exact hq

theorem State.managerRead_kept_of {r0 s t : State} {c : Nat} {x : Ctx} {a n : Nat} {bs : List Byte} {po : Bool}
    (e : s.managerRead c x a n = .ok (bs, po, t)) (hq : Kept r0 s) : Kept r0 t := by
  unfold State.managerRead at e
  dsimp only at e
  refine State.readCtx_kept_of e (foldl_kept hq fun u l h => State.sendRequest_kept _ _ _ _ _ _ _ _
    (Kept.upd (State.free_kept _ (freeBytes_kept _ _ h)) rfl))

theorem State.readArea_kept {r0 : State} (s : State) (c : Nat) (x : Ctx) (a n : Nat)
    (hq : Kept r0 s) : Kept r0 (State.readArea s c x a n) := by
  unfold State.readArea
  split
  · exact hq
  · split
    · apply State.tableFault_kept
      exact hq
    · split
      · apply State.tableFault_kept
        refine State.managerRead_kept_of (by assumption) ?_
        exact hq
      · refine State.managerRead_kept_of (by assumption) ?_
        exact hq

theorem State.dropLent_kept {r0 : State} (s : State) (job : Nat) (hq : Kept r0 s) : Kept r0 (State.dropLent s job) := by
  unfold State.dropLent
  split
  · exact Kept.upd hq rfl
  · exact hq

theorem State.setPageDesc_kept {r0 : State} (s : State) (x : Ctx) (p : Nat) (d : PageDesc)
    (hq : Kept r0 s) : Kept r0 (State.setPageDesc s x p d) := by
  unfold State.setPageDesc
  apply State.pokeCtx_kept
  exact hq

theorem State.modPageDesc_kept {r0 : State} (s : State) (x : Ctx) (p : Nat) (f : PageDesc → PageDesc)
    (hq : Kept r0 s) : Kept r0 (State.modPageDesc s x p f) := by
  unfold State.modPageDesc
  apply State.setPageDesc_kept
  exact hq

theorem State.setPtEntry_kept {r0 : State} (s : State) (x : Ctx) (t : Table) (u l h : Nat) (e : PtEntry)
    (hq : Kept r0 s) : Kept r0 (State.setPtEntry s x t u l h e) := by
  unfold State.setPtEntry
  apply State.pokeCtx_kept
  exact hq

theorem State.eachEntry_kept {r0 : State} (s : State) (x : Ctx) (f : State → Nat → Nat → State) (hq : Kept r0 s)
    (hf : ∀ t a b, Kept r0 t → Kept r0 (f t a b)) : Kept r0 (s.eachEntry x f) :=
  foldl_kept hq fun t lh h => hf t _ _ h

theorem State.readTables_kept {r0 : State} (s : State) (c : Nat) (x : Ctx)
    (hq : Kept r0 s) : Kept r0 (State.readTables s c x) := by
  unfold State.readTables
  split
  · exact hq
  · apply State.readArea_kept
    exact hq

theorem State.noteKv_kept {r0 : State} (s : State) (c : Nat) (hq : Kept r0 s) : Kept r0 (State.noteKv s c) := by
  unfold State.noteKv
  split
  · exact hq
  · extract_lets +onlyGivenNames v0
    have hv0 : Kept r0 v0 := by
      unfold v0
      apply State.setReg_kept
      exact hq
    clear_value v0
    extract_lets +onlyGivenNames v1
    have hv1 : Kept r0 v1 := by
      unfold v1
      apply State.setReg_kept
      exact hv0
    clear_value v1
    extract_lets +onlyGivenNames v2
    have hv2 : Kept r0 v2 := by
      unfold v2
      apply State.setReg_kept
      exact hv1
    clear_value v2
    extract_lets +onlyGivenNames v3
    apply State.setRegFld_kept
    exact hv2

theorem State.mapPage_kept {r0 : State} (s : State) (x : Ctx) (t : Table) (u l h page : Nat) (shared : Bool)
    (hq : Kept r0 s) : Kept r0 (State.mapPage s x t u l h page shared) := by
  unfold State.mapPage
  extract_lets +onlyGivenNames v0
  split
  · exact hq
  · apply State.setPtEntry_kept
    apply State.setPageDesc_kept
    exact hq

theorem State.releaseEntry_kept {r0 : State} (s : State) (x : Ctx) (t : Table) (qstep u l h : Nat)
    (hq : Kept r0 s) : Kept r0 (State.releaseEntry s x t qstep u l h) := by
  unfold State.releaseEntry
  extract_lets +onlyGivenNames v0
  split
  · exact hq
  · extract_lets +onlyGivenNames v1
    have hv1 : Kept r0 v1 := by
      unfold v1
      split
      · apply State.modPageDesc_kept
        exact hq
      · exact hq
    clear_value v1
    apply State.setPtEntry_kept
    exact hv1

theorem State.freeDirect_kept {r0 : State} (s : State) (x : Ctx) (page : Nat)
    (hq : Kept r0 s) : Kept r0 (State.freeDirect s x page) := by
  unfold State.freeDirect
  apply State.modPageDesc_kept
  exact hq

theorem State.unhold_kept {r0 : State} (s : State) (x : Ctx) (page : Nat) (hq : Kept r0 s) : Kept r0 (State.unhold s x page) := by
  unfold State.unhold
  apply State.modPageDesc_kept
  exact hq

theorem State.releaseFrom_kept {r0 : State} (s : State) (c handle first qstep : Nat)
    (hq : Kept r0 s) : Kept r0 (State.releaseFrom s c handle first qstep) := by
  unfold State.releaseFrom
  split
  · exact hq
  · split
    · exact hq
    · extract_lets +onlyGivenNames v0
      have hv0 : Kept r0 v0 := by
        unfold v0
        refine foldl_kept ?_ ?_
        · exact hq
        · intro s1 x1 hs1
          try dsimp only
          split
          · exact hs1
          · apply State.eachEntry_kept
            · exact hs1
            · intro a2_0 a2_1 a2_2 hs2
              try dsimp only
              apply State.releaseEntry_kept
              exact hs2
      clear_value v0
      apply State.modCtx_kept
      exact hv0

theorem State.openTable_kept {r0 : State} (s : State) (c handle home maxLen : Nat)
    (hq : Kept r0 s) : Kept r0 (State.openTable s c handle home maxLen) := by
  unfold State.openTable
  split
  · exact hq
  · extract_lets +onlyGivenNames v0
    split
    · exact hq
    · extract_lets +onlyGivenNames v1
      extract_lets +onlyGivenNames v2
      have hv2 : Kept r0 v2 := by
        unfold v2
        apply State.setCtx_kept
        exact hq
      clear_value v2
      refine foldl_kept ?_ ?_
      · exact hv2
      · intro s3 x3 hs3
        try dsimp only
        apply State.eachEntry_kept
        · exact hs3
        · intro a4_0 a4_1 a4_2 hs4
          try dsimp only
          apply State.setPtEntry_kept
          exact hs4

theorem State.sharePages_kept {r0 : State} (s : State) (c dst src first count length : Nat)
    (hq : Kept r0 s) : Kept r0 (State.sharePages s c dst src first count length) := by
  unfold State.sharePages
  split
  · exact hq
  · split
    · extract_lets +onlyGivenNames v0
      extract_lets +onlyGivenNames v1
      have hv1 : Kept r0 v1 := by
        unfold v1
        refine foldl_kept ?_ ?_
        · exact hq
        · intro s2 x2 hs2
          try dsimp only
          split
          · exact hs2
          · apply State.eachEntry_kept
            · exact hs2
            · intro a3_0 a3_1 a3_2 hs3
              try dsimp only
              split
              · exact hs3
              · apply State.mapPage_kept
                apply State.setPtEntry_kept
                exact hs3
      clear_value v1
      apply State.setCtx_kept
      exact hv1
    · exact hq

theorem State.mapHeld_kept {r0 : State} (s : State) (c dst first count length : Nat) (list : List Nat)
    (hq : Kept r0 s) : Kept r0 (State.mapHeld s c dst first count length list) := by
  unfold State.mapHeld
  split
  · exact hq
  · split
    · exact hq
    · extract_lets +onlyGivenNames v0
      extract_lets +onlyGivenNames v1
      extract_lets +onlyGivenNames v2
      have hv2 : Kept r0 v2 := by
        unfold v2
        refine foldl_kept ?_ ?_
        · exact hq
        · intro s3 x3 hs3
          try dsimp only
          apply State.mapPage_kept
          apply State.modPageDesc_kept
          exact hs3
      clear_value v2
      apply State.setCtx_kept
      exact hv2

theorem State.writePen_kept {r0 : State} (s : State) (c : Nat) (q : Seq) (hq : Kept r0 s) : Kept r0 (State.writePen s c q) := by
  unfold State.writePen
  split
  · exact hq
  · split
    · exact hq
    · apply State.pokeCtx_kept
      exact hq

theorem holdPages_kept_of {r0 s t : State} {n : Nat} {x : Ctx} {ps : List Nat} (e : holdPages n s x = some (ps, t))
    (hq : Kept r0 s) : Kept r0 t := by
  induction n generalizing s ps with
  | zero => cases e; exact hq
  | succ n ih =>
    unfold holdPages at e
    split at e
    · cases e
    · rename_i p _
      cases g : holdPages n (s.modPageDesc x p fun d => { d with state := .held, owner := noOwner, refs := 0 }) x with
      | none => simp [g] at e
      | some v =>
        obtain ⟨a, b⟩ := v
        simp only [g, Option.map_some, Option.some.injEq, Prod.mk.injEq] at e
        obtain ⟨-, rfl⟩ := e
        exact ih g (State.modPageDesc_kept _ _ _ _ hq)

theorem State.feedCopy_kept {r0 : State} (s : State) (c : Nat) (k : Copy) (hq : Kept r0 s) : Kept r0 (State.feedCopy s c k) := by
  unfold State.feedCopy
  split
  · exact hq
  · split
    · exact hq
    · split
      · exact hq
      · rename_i e
        split at e
        · have h := holdPages_kept_of e hq
          exact State.setCtx_kept _ _ _ (foldl_kept h fun _ _ h => State.modPageDesc_kept _ _ _ _ h)
        · cases e

theorem State.startCopy_kept {r0 : State} (s : State) (c handle j : Nat) (desc : Option Nat)
    (hq : Kept r0 s) : Kept r0 (State.startCopy s c handle j desc) := by
  unfold State.startCopy
  split
  · exact hq
  · split
    · exact hq
    · extract_lets +onlyGivenNames v0
      extract_lets +onlyGivenNames v1
      have hv1 : Kept r0 v1 := by
        unfold v1
        apply State.eachEntry_kept
        · exact hq
        · intro a2_0 a2_1 a2_2 hs2
          try dsimp only
          apply State.setPtEntry_kept
          exact hs2
      clear_value v1
      extract_lets +onlyGivenNames v3
      apply State.feedCopy_kept
      apply State.modCtx_kept
      exact hv1

theorem State.feedCopies_kept {r0 : State} (s : State) (c : Nat) (hq : Kept r0 s) : Kept r0 (State.feedCopies s c) := by
  unfold State.feedCopies
  split
  · exact hq
  · refine foldl_kept ?_ ?_
    · exact hq
    · intro s0 x0 hs0
      try dsimp only
      apply State.feedCopy_kept
      exact hs0

theorem State.copyData_kept {r0 : State} (s : State) (c : Nat) (x : Ctx) (k : Copy)
    (hq : Kept r0 s) : Kept r0 (State.copyData s c x k) := by
  unfold State.copyData
  split
  · exact hq
  · extract_lets +onlyGivenNames v0
    extract_lets +onlyGivenNames v1
    have hv1 : Kept r0 v1 := by
      unfold v1
      apply State.readTables_kept
      exact hq
    clear_value v1
    refine foldl_kept ?_ ?_
    · exact hv1
    · intro s2 x2 hs2
      try dsimp only
      refine foldl_kept ?_ ?_
      · exact hs2
      · intro s3 x3 hs3
        try dsimp only
        split
        · apply State.tableFault_kept
          exact hs3
        · apply State.pokeData_kept
          refine State.managerRead_kept_of (by assumption) ?_
          exact hs3

theorem State.swapCopy_kept {r0 : State} (s : State) (c qstep : Nat) (k : Copy)
    (hq : Kept r0 s) : Kept r0 (State.swapCopy s c qstep k) := by
  unfold State.swapCopy
  split
  · exact hq
  · split
    · refine foldl_kept ?_ ?_
      · exact hq
      · intro s0 x0 hs0
        try dsimp only
        apply State.freeDirect_kept
        exact hs0
    · split
      · refine foldl_kept ?_ ?_
        · exact hq
        · intro s1 x1 hs1
          try dsimp only
          apply State.freeDirect_kept
          exact hs1
      · extract_lets +onlyGivenNames v2
        refine foldl_kept ?_ ?_
        · exact hq
        · intro s3 x3 hs3
          try dsimp only
          apply State.mapPage_kept
          apply State.releaseEntry_kept
          exact hs3

theorem State.swapCopies_kept {r0 : State} (s : State) (c qstep : Nat)
    (hq : Kept r0 s) : Kept r0 (State.swapCopies s c qstep) := by
  unfold State.swapCopies
  split
  · exact hq
  · extract_lets +onlyGivenNames v0
    extract_lets +onlyGivenNames v1
    have hv1 : Kept r0 v1 := by
      unfold v1
      refine foldl_kept ?_ ?_
      · exact hq
      · intro s2 x2 hs2
        try dsimp only
        apply State.swapCopy_kept
        exact hs2
    clear_value v1
    apply State.modCtx_kept
    exact hv1

theorem State.releaseQuarantined_kept {r0 : State} (s : State) (c : Nat) (due : PageDesc → Bool)
    (hq : Kept r0 s) : Kept r0 (State.releaseQuarantined s c due) := by
  unfold State.releaseQuarantined
  split
  · exact hq
  · refine foldl_kept ?_ ?_
    · exact hq
    · intro s0 x0 hs0
      try dsimp only
      split
      · apply State.setPageDesc_kept
        exact hs0
      · exact hs0

theorem State.releaseQuarantine_kept {r0 : State} (s : State) (c last : Nat)
    (hq : Kept r0 s) : Kept r0 (State.releaseQuarantine s c last) := by
  unfold State.releaseQuarantine
  apply State.releaseQuarantined_kept
  exact hq

theorem State.releaseQuarantineIdle_kept {r0 : State} (s : State) (c : Nat)
    (hq : Kept r0 s) : Kept r0 (State.releaseQuarantineIdle s c) := by
  unfold State.releaseQuarantineIdle
  apply State.releaseQuarantined_kept
  exact hq

theorem State.topUp_kept {r0 : State} (s : State) (c : Nat) (rows : List LenRow) (t : Table)
    (hq : Kept r0 s) : Kept r0 (State.topUp s c rows t) := by
  unfold State.topUp
  split
  · exact hq
  · extract_lets +onlyGivenNames v0
    extract_lets +onlyGivenNames v1
    extract_lets +onlyGivenNames v2
    split
    · apply State.setCtx_kept
      exact hq
    · apply State.setCtx_kept
      exact hq

theorem State.topUps_kept {r0 : State} (s : State) (c : Nat) (rows : List LenRow)
    (hq : Kept r0 s) : Kept r0 (State.topUps s c rows) := by
  unfold State.topUps
  split
  · exact hq
  · refine foldl_kept ?_ ?_
    · exact hq
    · intro s0 x0 hs0
      try dsimp only
      apply State.topUp_kept
      exact hs0

theorem State.allocLogical_kept {r0 : State} (s : State) (c handle j : Nat) (hq : Kept r0 s) :
    Kept r0 (s.allocLogical c handle j) := by
  unfold State.allocLogical
  split
  · exact hq
  · split
    · exact hq
    · extract_lets u
      split
      · exact hq
      · rename_i ps s' e
        have h1 : Kept r0 s' := holdPages_kept_of e hq
        exact State.setCtx_kept _ _ _ (foldl_kept h1 fun t p h =>
          State.setPtEntry_kept _ _ _ _ _ _ _ (State.modPageDesc_kept _ _ _ _ h))

theorem State.allocPage_kept {r0 : State} (s : State) (c handle j : Nat)
    (hq : Kept r0 s) : Kept r0 (State.allocPage s c handle j) := by
  unfold State.allocPage
  split
  · exact hq
  · split
    · exact hq
    · split
      · apply State.allocLogical_kept
        exact hq
      · exact hq

theorem State.allocRow_kept {r0 : State} (s : State) (c : Nat) (r : LenRow) (committed : Nat)
    (hq : Kept r0 s) : Kept r0 (State.allocRow s c r committed) := by
  unfold State.allocRow
  refine foldl_kept ?_ ?_
  · exact hq
  · intro s0 x0 hs0
    try dsimp only
    apply State.allocPage_kept
    exact hs0

theorem State.resolveTentative_kept {r0 : State} (s : State) (c handle committed : Nat)
    (hq : Kept r0 s) : Kept r0 (State.resolveTentative s c handle committed) := by
  unfold State.resolveTentative
  split
  · exact hq
  · split
    · exact hq
    · refine foldl_kept ?_ ?_
      · exact hq
      · intro s0 x0 hs0
        try dsimp only
        apply State.eachEntry_kept
        · exact hs0
        · intro a1_0 a1_1 a1_2 hs1
          try dsimp only
          split
          · exact hs1
          · split
            · apply State.modPageDesc_kept
              apply State.setPtEntry_kept
              exact hs1
            · apply State.setPtEntry_kept
              apply State.freeDirect_kept
              exact hs1

theorem State.windowRelease_kept {r0 : State} (s : State) (c handle qstep : Nat) (loaded : List LayerRec)
    (hq : Kept r0 s) : Kept r0 (State.windowRelease s c handle qstep loaded) := by
  unfold State.windowRelease
  split
  · exact hq
  · split
    · exact hq
    · extract_lets +onlyGivenNames v0
      refine foldl_kept ?_ ?_
      · exact hq
      · intro s1 x1 hs1
        try dsimp only
        refine foldl_kept ?_ ?_
        · exact hs1
        · intro s2 x2 hs2
          try dsimp only
          split
          · refine foldl_kept ?_ ?_
            · exact hs2
            · intro s3 x3 hs3
              try dsimp only
              apply State.releaseEntry_kept
              exact hs3
          · exact hs2

theorem State.dropTable_kept {r0 : State} (s : State) (c handle qstep : Nat)
    (hq : Kept r0 s) : Kept r0 (State.dropTable s c handle qstep) := by
  unfold State.dropTable
  split
  · exact hq
  · split
    · exact hq
    · extract_lets +onlyGivenNames v0
      have hv0 : Kept r0 v0 := by
        unfold v0
        refine foldl_kept ?_ ?_
        · exact hq
        · intro s1 x1 hs1
          try dsimp only
          apply State.eachEntry_kept
          · exact hs1
          · intro a2_0 a2_1 a2_2 hs2
            try dsimp only
            split
            · exact hs2
            · split
              · apply State.releaseEntry_kept
                exact hs2
              · apply State.setPtEntry_kept
                exact hs2
      clear_value v0
      apply State.modCtx_kept
      exact hv0

theorem State.closeTable_kept {r0 : State} (s : State) (c handle qstep : Nat)
    (hq : Kept r0 s) : Kept r0 (State.closeTable s c handle qstep) := by
  unfold State.closeTable
  apply State.modCtx_kept
  apply State.releaseFrom_kept
  exact hq

theorem State.endPlace_kept {r0 : State} (s : State) (p : Place) (status : Nat)
    (hq : Kept r0 s) : Kept r0 (State.endPlace s p status) := by
  unfold State.endPlace
  extract_lets +onlyGivenNames v0
  have hv0 : Kept r0 v0 := by
    unfold v0
    apply State.setReg_kept
    exact hq
  clear_value v0
  extract_lets +onlyGivenNames v1
  have hv1 : Kept r0 v1 := by
    unfold v1
    exact Kept.upd hv0 rfl
  clear_value v1
  split
  · exact hv1
  · apply State.giveFrame_kept
    apply State.modCtx_kept
    exact hv1

theorem State.setPlace_kept {r0 : State} (s : State) (p : Place) (hq : Kept r0 s) : Kept r0 (State.setPlace s p) := by
  unfold State.setPlace
  exact Kept.upd hq rfl

theorem State.placeDone_kept {r0 : State} (s : State) (path : Path) (n : Nat)
    (hq : Kept r0 s) : Kept r0 (State.placeDone s path n) := by
  unfold State.placeDone
  apply State.bump_kept
  exact hq

theorem State.freeLeaving_kept {r0 : State} (s : State) (hq : Kept r0 s) : Kept r0 (State.freeLeaving s) := by
  unfold State.freeLeaving
  split
  · extract_lets +onlyGivenNames v0
    have hv0 : Kept r0 v0 := by
      unfold v0
      apply State.giveFrames_kept
      exact hq
    clear_value v0
    exact Kept.upd hv0 rfl
  · exact hq

theorem State.cacheEntry_kept {r0 : State} (s : State) (unit size c page entry : Nat)
    (hq : Kept r0 s) : Kept r0 (State.cacheEntry s unit size c page entry) := by
  unfold State.cacheEntry
  split
  · exact hq
  · extract_lets +onlyGivenNames v0
    extract_lets +onlyGivenNames v1
    exact Kept.upd hq rfl

theorem State.freshXlate_kept {r0 : State} (s : State) (hq : Kept r0 s) : Kept r0 (State.freshXlate s) := by
  unfold State.freshXlate
  exact Kept.upd hq rfl

theorem State.applySwap_kept {r0 : State} (s : State) (w : Swap) (hq : Kept r0 s) : Kept r0 (State.applySwap s w) := by
  unfold State.applySwap
  split
  · exact hq
  · extract_lets +onlyGivenNames v0
    extract_lets +onlyGivenNames v1
    extract_lets +onlyGivenNames v2
    have hv2 : Kept r0 v2 := by
      unfold v2
      apply State.freshXlate_kept
      apply State.setCtx_kept
      exact hq
    clear_value v2
    extract_lets +onlyGivenNames v3
    have hv3 : Kept r0 v3 := by
      unfold v3
      split
      · apply State.placeDone_kept
        exact hv2
      · exact hv2
    clear_value v3
    split
    · apply State.freeLeaving_kept
      exact Kept.upd hv3 rfl
    · exact hv3

theorem State.swapEntry_kept {r0 : State} (s : State) (w : Swap) (hq : Kept r0 s) : Kept r0 (State.swapEntry s w) := by
  unfold State.swapEntry
  split
  · exact hq
  · split
    · exact Kept.upd hq rfl
    · apply State.applySwap_kept
      exact hq

theorem State.applySwaps_kept {r0 : State} (s : State) (c : Nat) (hq : Kept r0 s) : Kept r0 (State.applySwaps s c) := by
  unfold State.applySwaps
  apply State.freeLeaving_kept
  refine foldl_kept ?_ ?_
  · exact Kept.upd hq rfl
  · intro s0 x0 hs0
    try dsimp only
    apply State.applySwap_kept
    exact hs0

theorem State.startPlace_kept {r0 : State} (s : State) (p : Place) (hq : Kept r0 s) : Kept r0 (State.startPlace s p) := by
  unfold State.startPlace
  extract_lets +onlyGivenNames v0
  have hv0 : Kept r0 v0 := by
    unfold v0
    apply State.setPlace_kept
    apply State.setReg_kept
    exact hq
  clear_value v0
  exact Kept.upd hv0 rfl

theorem State.markPages_kept {r0 : State} (s : State) (p : Place) (hq : Kept r0 s) : Kept r0 (State.markPages s p) := by
  unfold State.markPages
  refine foldl_kept ?_ ?_
  · apply State.setPlace_kept
    exact hq
  · intro s0 x0 hs0
    try dsimp only
    split
    · exact hs0
    · apply State.swapEntry_kept
      exact hs0

theorem State.askPage_kept {r0 : State} (s : State) (p : Place) (job e : Nat)
    (hq : Kept r0 s) : Kept r0 (State.askPage s p job e) := by
  unfold State.askPage
  refine foldl_kept ?_ ?_
  · exact hq
  · intro s0 x0 hs0
    try dsimp only
    apply State.sendRequest_kept
    exact hs0

theorem runPlacesAux_kept {r0 : State} (n : Nat) (s : State) (hq : Kept r0 s) : Kept r0 (runPlacesAux n s) := by
  induction n generalizing s with
  | zero => exact hq
  | succ n ih =>
    unfold runPlacesAux
    split
    · exact hq
    · rename_i p _ _
      split
      · split
        · exact ih _ (State.endPlace_kept _ _ _ hq)
        · split
          · exact ih _ (State.endPlace_kept _ _ _ hq)
          · split
            · exact ih _ (State.markPages_kept _ _ (State.startPlace_kept _ _ hq))
            · exact ih _ (State.startPlace_kept _ _ hq)
      · split
        · exact hq
        · split
          · split
            · exact hq
            · exact ih _ (State.endPlace_kept _ _ _ hq)
          · split
            · exact State.endPlace_kept _ _ _ hq
            · extract_lets e
              split
              · split
                · exact hq
                · exact State.sendRequest_kept _ _ _ _ _ _ _ _ hq
              · split
                · exact ih _ (State.placeDone_kept _ _ _ (State.setPlace_kept _ _ hq))
                · split
                  · exact ih _ (State.endPlace_kept _ _ _ hq)
                  · extract_lets u
                    have hu : Kept r0 u := State.setPlace_kept _ _ (State.setCtx_kept _ _ _ (State.takeFrame_kept _ _ hq))
                    exact ite_kept (State.askPage_kept _ _ _ _ hu) hu

theorem State.runPlaces_kept {r0 : State} (s : State) (hq : Kept r0 s) : Kept r0 (State.runPlaces s) := by
  unfold State.runPlaces
  apply runPlacesAux_kept
  exact hq

theorem State.lendConfirmed_kept {r0 : State} (s : State) (path : Path) (page : Nat)
    (hq : Kept r0 s) : Kept r0 (State.lendConfirmed s path page) := by
  unfold State.lendConfirmed
  split
  · exact hq
  · extract_lets +onlyGivenNames v0
    have hv0 : Kept r0 v0 := by
      unfold v0
      apply State.setPlace_kept
      exact hq
    clear_value v0
    split
    · apply State.runPlaces_kept
      exact hv0
    · split
      · apply State.runPlaces_kept
        apply State.markPages_kept
        exact hv0
      · apply State.runPlaces_kept
        refine foldl_kept ?_ ?_
        · exact hv0
        · intro s1 x1 hs1
          try dsimp only
          split
          · exact hs1
          · split
            · apply State.placeDone_kept
              exact hs1
            · apply State.swapEntry_kept
              exact hs1

theorem State.lendRefused_kept {r0 : State} (s : State) (path : Path)
    (hq : Kept r0 s) : Kept r0 (State.lendRefused s path) := by
  unfold State.lendRefused
  split
  · exact hq
  · apply State.runPlaces_kept
    apply State.endPlace_kept
    exact hq

theorem copyPage_kept {r0 : State} (x : Ctx) (page key n : Nat) (s : State) (hq : Kept r0 s) :
    Kept r0 (copyPage x page key n s) := by
  induction n generalizing s with
  | zero => exact hq
  | succ n ih => exact State.writeLine_kept _ _ _ _ _ (State.readLine_kept _ _ _ _ (ih _ hq))

theorem State.copyLanded_kept {r0 : State} (s : State) (path : Path) (c line : Nat) (bytes : List Byte) (poison : Bool)
    (hq : Kept r0 s) : Kept r0 (State.copyLanded s path c line bytes poison) := by
  unfold State.copyLanded
  split
  · exact hq
  · split
    · exact hq
    · refine foldl_kept ?_ ?_
      · exact hq
      · intro s0 x0 hs0
        try dsimp only
        apply State.writeLine_kept
        exact hs0

theorem State.copyEnds_kept {r0 : State} (s : State) (p : Place) (hq : Kept r0 s) : Kept r0 (State.copyEnds s p) := by
  unfold State.copyEnds
  split
  · extract_lets +onlyGivenNames v0
    split
    · exact hq
    · extract_lets +onlyGivenNames v1
      have hv1 : Kept r0 v1 := by
        unfold v1
        split
        · apply copyPage_kept
          exact hq
        · exact hq
      clear_value v1
      extract_lets +onlyGivenNames v2
      have hv2 : Kept r0 v2 := by
        unfold v2
        apply State.setPlace_kept
        exact hv1
      clear_value v2
      apply State.runPlaces_kept
      apply State.swapEntry_kept
      exact hv2
  · exact hq

theorem State.placeGo_kept {r0 : State} (s : State) (path : Path) (hq : Kept r0 s) : Kept r0 (State.placeGo s path) := by
  unfold State.placeGo
  split
  · exact hq
  · extract_lets +onlyGivenNames v0
    extract_lets +onlyGivenNames v1
    extract_lets +onlyGivenNames v2
    apply State.runPlaces_kept
    apply State.setReg_kept
    exact Kept.upd hq rfl

theorem State.recordRegions_kept {r0 : State} (s : State) (x : Ctx)
    (hq : Kept r0 s) : Kept r0 (State.recordRegions s x) := by
  unfold State.recordRegions
  refine foldl_kept ?_ ?_
  · exact hq
  · intro s0 x0 hs0
    try dsimp only
    split
    · exact Kept.upd hs0 rfl
    · exact hs0

theorem State.freeRegion_kept {r0 : State} (s : State) (k : Nat) (hq : Kept r0 s) : Kept r0 (State.freeRegion s k) := by
  unfold State.freeRegion
  extract_lets +onlyGivenNames v0
  extract_lets +onlyGivenNames v1
  have hv1 : Kept r0 v1 := by
    unfold v1
    apply State.giveFrames_kept
    exact hq
  clear_value v1
  exact Kept.upd hv1 rfl

theorem mapRange_kept {r0 : State} (held : List (Nat × Nat)) (n : Nat) (a : State × List (Nat × Nat)) (hq : Kept r0 a.1) :
    Kept r0 (mapRange held n a).1 := by
  induction n generalizing a with
  | zero => exact hq
  | succ n ih =>
    unfold mapRange
    extract_lets b
    have h1 : Kept r0 b.1 := ih _ hq
    clear_value b
    split
    · exact h1
    · split
      · exact h1
      · exact State.takeFrame_kept _ _ h1

theorem takeFrames_kept {r0 : State} (n : Nat) (a : State × List Nat) (hq : Kept r0 a.1) : Kept r0 (takeFrames n a).1 := by
  induction n generalizing a with
  | zero => exact hq
  | succ n ih =>
    unfold takeFrames
    split
    · exact hq
    · exact ih _ (State.takeFrame_kept _ _ hq)

theorem State.createCtx_kept {r0 : State} (s : State) (ws : List Word) (record : List Word)
    (hq : Kept r0 s) : Kept r0 (State.createCtx s ws record) := by
  unfold State.createCtx
  extract_lets +onlyGivenNames v0
  extract_lets +onlyGivenNames v1
  extract_lets +onlyGivenNames v2
  extract_lets +onlyGivenNames v3
  extract_lets +onlyGivenNames v4
  have hv4 : Kept r0 v4 := by
    unfold v4
    apply State.giveFrames_kept
    exact hq
  clear_value v4
  extract_lets +onlyGivenNames v5
  have hv5 : Kept r0 v5 := by
    unfold v5
    exact Kept.upd hv4 rfl
  clear_value v5
  extract_lets +onlyGivenNames v6
  extract_lets +onlyGivenNames v7
  extract_lets +onlyGivenNames v8
  extract_lets +onlyGivenNames v9
  have hv9 : Kept r0 v9 := by
    unfold v9
    unfold v7
    apply takeFrames_kept
    dsimp only
    unfold v6
    apply mapRange_kept
    dsimp only
    exact hv5
  clear_value v9
  extract_lets +onlyGivenNames v10
  have hv10 : Kept r0 v10 := by
    unfold v10
    exact Kept.upd hv9 rfl
  clear_value v10
  extract_lets +onlyGivenNames v11
  have hv11 : Kept r0 v11 := by
    unfold v11
    apply State.qstatReset_kept
    apply State.setCtx_kept
    exact hv10
  clear_value v11
  extract_lets +onlyGivenNames v12
  have hv12 : Kept r0 v12 := by
    unfold v12
    apply State.countersReset_kept
    exact hv11
  clear_value v12
  extract_lets +onlyGivenNames v13
  have hv13 : Kept r0 v13 := by
    unfold v13
    refine foldl_kept ?_ ?_
    · exact hv12
    · intro s14 x14 hs14
      try dsimp only
      apply State.setReg_kept
      exact hs14
  clear_value v13
  refine foldl_kept ?_ ?_
  · exact hv13
  · intro s15 x15 hs15
    try dsimp only
    apply State.setPageDesc_kept
    exact hs15

theorem State.discardPlans_kept {r0 : State} (s : State) (gone : Plan → Bool)
    (hq : Kept r0 s) : Kept r0 (State.discardPlans s gone) := by
  unfold State.discardPlans
  extract_lets +onlyGivenNames v0
  have hv0 : Kept r0 v0 := by
    unfold v0
    exact Kept.upd hq rfl
  clear_value v0
  split
  · exact hv0
  · split
    · exact hv0
    · extract_lets +onlyGivenNames v1
      extract_lets +onlyGivenNames v2
      have hv2 : Kept r0 v2 := by
        unfold v2
        exact Kept.upd hv0 rfl
      clear_value v2
      split
      · exact hv2
      · apply State.setCtx_kept
        exact hv2

theorem State.forgetJob_kept {r0 : State} (s : State) (job : Nat) (hq : Kept r0 s) : Kept r0 (State.forgetJob s job) := by
  unfold State.forgetJob
  exact Kept.upd hq rfl

theorem State.teardown_kept {r0 : State} (s : State) (c status : Nat) (b : Bound) (node : Nat)
    (hq : Kept r0 s) : Kept r0 (State.teardown s c status b node) := by
  unfold State.teardown
  split
  · exact hq
  · split
    · exact hq
    · extract_lets +onlyGivenNames v0
      extract_lets +onlyGivenNames v1
      have hv1 : Kept r0 v1 := by
        unfold v1
        apply State.forgetJob_kept
        apply State.discardPlans_kept
        exact hq
      clear_value v1
      extract_lets +onlyGivenNames v2
      have hv2 : Kept r0 v2 := by
        unfold v2
        exact Kept.upd hv1 rfl
      clear_value v2
      extract_lets +onlyGivenNames v3
      have hv3 : Kept r0 v3 := by
        unfold v3
        apply State.settleFences_kept
        refine foldl_kept ?_ ?_
        · exact hv2
        · intro s4 x4 hs4
          try dsimp only
          split
          · apply State.finishDesc_kept
            exact hs4
          · exact hs4
      clear_value v3
      extract_lets +onlyGivenNames v5
      have hv5 : Kept r0 v5 := by
        unfold v5
        apply State.setCtx_kept
        exact hv3
      clear_value v5
      apply State.runPlaces_kept
      refine foldl_kept ?_ ?_
      · exact hv5
      · intro s6 x6 hs6
        try dsimp only
        apply State.endPlace_kept
        exact hs6

theorem State.releaseCtx_kept {r0 : State} (s : State) (c : Nat) (b : Bound)
    (hq : Kept r0 s) : Kept r0 (State.releaseCtx s c b) := by
  unfold State.releaseCtx
  split
  · exact hq
  · split
    · exact hq
    · split
      · exact hq
      · extract_lets +onlyGivenNames v0
        have hv0 : Kept r0 v0 := by
          unfold v0
          split
          · apply State.recordRegions_kept
            exact hq
          · exact hq
        clear_value v0
        extract_lets +onlyGivenNames v1
        extract_lets +onlyGivenNames v2
        have hv2 : Kept r0 v2 := by
          unfold v2
          apply State.giveFrames_kept
          exact hv0
        clear_value v2
        extract_lets +onlyGivenNames v3
        have hv3 : Kept r0 v3 := by
          unfold v3
          exact Kept.upd hv2 rfl
        clear_value v3
        extract_lets +onlyGivenNames v4
        extract_lets +onlyGivenNames v5
        have hv5 : Kept r0 v5 := by
          unfold v5
          apply State.setCtx_kept
          exact hv3
        clear_value v5
        extract_lets +onlyGivenNames v6
        have hv6 : Kept r0 v6 := by
          unfold v6
          split
          · apply State.event_kept
            exact hv5
          · exact hv5
        clear_value v6
        split
        · exact hv6
        · apply State.complete_kept
          apply State.dropCtx_kept
          exact hv6

theorem State.faultAt_kept {r0 : State} (s : State) (c status : Nat) (b : Bound) (node : Nat)
    (hq : Kept r0 s) : Kept r0 (State.faultAt s c status b node) := by
  unfold State.faultAt
  apply State.releaseCtx_kept
  apply State.teardown_kept
  exact hq

theorem State.faultNow_kept {r0 : State} (s : State) (c status : Nat)
    (hq : Kept r0 s) : Kept r0 (State.faultNow s c status) := by
  unfold State.faultNow
  apply State.faultAt_kept
  exact hq

theorem State.stepFault_kept {r0 : State} (s : State) (handle cause : Nat)
    (hq : Kept r0 s) : Kept r0 (State.stepFault s handle cause) := by
  unfold State.stepFault
  apply State.modAttempt_kept
  exact hq

theorem State.faultCtx_kept {r0 : State} (s : State) (c status : Nat)
    (hq : Kept r0 s) : Kept r0 (State.faultCtx s c status) := by
  unfold State.faultCtx
  split
  · exact hq
  · split
    · split
      · exact hq
      · exact Kept.upd hq rfl
    · apply State.faultNow_kept
      exact hq

theorem State.raiseDue_kept {r0 : State} (s : State) (c : Nat) (hq : Kept r0 s) : Kept r0 (State.raiseDue s c) := by
  unfold State.raiseDue
  split
  · exact hq
  · apply State.faultCtx_kept
    exact hq

theorem State.putImage_kept {r0 : State} (s : State) (x : Ctx) (first : Nat) (bs : List Byte)
    (hq : Kept r0 s) : Kept r0 (State.putImage s x first bs) := by
  unfold State.putImage
  extract_lets +onlyGivenNames v0
  refine foldl_kept ?_ ?_
  · exact hq
  · intro s1 x1 hs1
    try dsimp only
    apply State.writeLine_kept
    exact hs1

theorem imageLines_kept {r0 : State} (x : Ctx) (n l : Nat) (s : State) (hq : Kept r0 s) : Kept r0 (imageLines x n l s).2.2 := by
  induction n generalizing l s with
  | zero => exact hq
  | succ n ih => exact ih _ _ (State.readLine_kept _ _ _ _ hq)

theorem State.readImage_kept {r0 : State} (s : State) (x : Ctx) (first len : Nat)
    (hq : Kept r0 s) : Kept r0 (State.readImage s x first len).2.2 := by
  unfold State.readImage
  extract_lets +onlyGivenNames v0
  dsimp only
  unfold v0
  apply imageLines_kept
  exact hq

theorem State.readBuckets_kept {r0 : State} (s : State) (c : Nat) (hq : Kept r0 s) : Kept r0 (State.readBuckets s c) := by
  unfold State.readBuckets
  split
  · exact hq
  · split
    · exact hq
    · extract_lets +onlyGivenNames v0
      split
      · apply State.faultCtx_kept
        unfold v0
        apply State.readImage_kept
        exact hq
      · unfold v0
        apply State.readImage_kept
        exact hq

theorem State.dropJigs_kept {r0 : State} (s : State) (hq : Kept r0 s) : Kept r0 (State.dropJigs s) := by
  unfold State.dropJigs
  exact Kept.upd hq rfl

theorem State.jigInstall_kept {r0 : State} (s : State) (d : Desc) (b : Bound)
    (hq : Kept r0 s) : Kept r0 (State.jigInstall s d b) := by
  unfold State.jigInstall
  extract_lets +onlyGivenNames v0
  split
  · apply State.complete_kept
    exact hq
  · extract_lets +onlyGivenNames v1
    extract_lets +onlyGivenNames v2
    split
    · apply State.complete_kept
      exact hq
    · split
      · split
        · apply State.complete_kept
          exact hq
        · extract_lets +onlyGivenNames v3
          apply State.complete_kept
          apply State.putImage_kept
          apply State.setCtx_kept
          exact hq
      · extract_lets +onlyGivenNames v4
        extract_lets +onlyGivenNames v5
        split
        · apply State.complete_kept
          exact hq
        · extract_lets +onlyGivenNames v6
          apply State.complete_kept
          apply State.putImage_kept
          apply State.setCtx_kept
          exact hq

theorem State.wake_kept {r0 : State} (s : State) (hq : Kept r0 s) : Kept r0 (State.wake s) := by
  unfold State.wake
  split
  · exact Kept.upd hq rfl
  · exact hq

theorem State.publish_kept {r0 : State} (s : State) (p : Plan) (hq : Kept r0 s) : Kept r0 (State.publish s p) := by
  unfold State.publish
  extract_lets +onlyGivenNames v0
  have hv0 : Kept r0 v0 := by
    unfold v0
    apply State.wake_kept
    exact hq
  clear_value v0
  extract_lets +onlyGivenNames v1
  have hv1 : Kept r0 v1 := by
    unfold v1
    exact Kept.upd hv0 rfl
  clear_value v1
  apply State.emits_kept
  exact hv1

theorem State.notePlan_kept {r0 : State} (s : State) (x : Ctx) (step : Nat) (news : List Cand) (train : Option Forwarded)
    (hq : Kept r0 s) : Kept r0 (State.notePlan s x step news train) := by
  unfold State.notePlan
  extract_lets +onlyGivenNames v0
  extract_lets +onlyGivenNames v1
  exact Kept.upd hq rfl

theorem State.planFresh_kept {r0 : State} (s : State) (hq : Kept r0 s) : Kept r0 (State.planFresh s) := by
  unfold State.planFresh
  split
  · exact hq
  · extract_lets +onlyGivenNames v0
    split
    · split
      · exact hq
      · split
        · extract_lets +onlyGivenNames v1
          apply State.publish_kept
          apply State.notePlan_kept
          exact hq
        · exact hq
    · split
      · exact hq
      · extract_lets +onlyGivenNames v2
        apply State.publish_kept
        apply State.setCtx_kept
        apply State.notePlan_kept
        exact hq

theorem State.planNext_kept {r0 : State} (s : State) (hq : Kept r0 s) : Kept r0 (State.planNext s) := by
  unfold State.planNext
  extract_lets +onlyGivenNames v0
  have hv0 : Kept r0 v0 := by
    unfold v0
    refine foldl_kept ?_ ?_
    · exact hq
    · intro s1 x1 hs1
      try dsimp only
      apply State.readBuckets_kept
      exact hs1
  clear_value v0
  split
  · apply State.planFresh_kept
    exact hv0
  · extract_lets +onlyGivenNames v2
    extract_lets +onlyGivenNames v3
    have hv3 : Kept r0 v3 := by
      unfold v3
      exact Kept.upd hv0 rfl
    clear_value v3
    split
    · apply State.publish_kept
      exact hv3
    · apply State.planFresh_kept
      exact hv3

theorem State.applyForward_kept {r0 : State} (s : State) (f : Forwarded)
    (hq : Kept r0 s) : Kept r0 (State.applyForward s f) := by
  unfold State.applyForward
  split
  · exact hq
  · split
    · apply State.setCtx_kept
      exact hq
    · apply State.setCtx_kept
      exact hq
    · apply State.setCtx_kept
      exact hq
    · exact Kept.upd hq rfl

theorem State.applyForwards_kept {r0 : State} (s : State) (fs : List Forwarded)
    (hq : Kept r0 s) : Kept r0 (State.applyForwards s fs) := by
  unfold State.applyForwards
  refine foldl_kept ?_ ?_
  · exact hq
  · intro s0 x0 hs0
    try dsimp only
    apply State.applyForward_kept
    exact hs0

theorem State.takeReports_kept {r0 : State} (s : State) (rs : List Report)
    (hq : Kept r0 s) : Kept r0 (State.takeReports s rs) := by
  unfold State.takeReports
  extract_lets +onlyGivenNames v0
  extract_lets +onlyGivenNames v1
  have hv1 : Kept r0 v1 := by
    unfold v1
    exact Kept.upd hq rfl
  clear_value v1
  extract_lets +onlyGivenNames v2
  have hv2 : Kept r0 v2 := by
    unfold v2
    refine foldl_kept ?_ ?_
    · exact hv1
    · intro s3 x3 hs3
      try dsimp only
      exact Kept.upd hs3 rfl
  clear_value v2
  apply State.applyForwards_kept
  exact hv2

theorem State.modShip_kept {r0 : State} (s : State) (n : ShipName) (out : Bool) (f : Ship → Ship)
    (hq : Kept r0 s) : Kept r0 (State.modShip s n out f) := by
  unfold State.modShip
  exact Kept.upd hq rfl

theorem State.dropShip_kept {r0 : State} (s : State) (n : ShipName) (out : Bool)
    (hq : Kept r0 s) : Kept r0 (State.dropShip s n out) := by
  unfold State.dropShip
  exact Kept.upd hq rfl

theorem State.shipNews_kept {r0 : State} (s : State) (n : ShipName) (out : Bool) (k : ShipNews)
    (hq : Kept r0 s) : Kept r0 (State.shipNews s n out k) := by
  unfold State.shipNews
  apply State.modShip_kept
  exact hq

theorem State.holdShip_kept_of {r0 s t : State} {c : Nat} {h : Ship} (e : s.holdShip c h = some t)
    (hq : Kept r0 s) : Kept r0 t := by
  unfold State.holdShip at e
  split at e
  · cases e
  · split at e
    · cases e
    · extract_lets js at e
      split at e
      · cases e
      · rw [Option.map_eq_some_iff] at e
        obtain ⟨⟨ps, u⟩, g, rfl⟩ := e
        exact State.emits_kept _ _ (State.modShip_kept _ _ _ _ (holdPages_kept_of g hq))

theorem State.freeHeld_kept {r0 : State} (s : State) (c : Nat) (h : Ship)
    (hq : Kept r0 s) : Kept r0 (State.freeHeld s c h) := by
  unfold State.freeHeld
  split
  · exact hq
  · refine foldl_kept ?_ ?_
    · exact hq
    · intro s0 x0 hs0
      try dsimp only
      apply State.unhold_kept
      exact hs0

theorem State.mapShip_kept {r0 : State} (s : State) (c : Nat) (h : Ship)
    (hq : Kept r0 s) : Kept r0 (State.mapShip s c h) := by
  unfold State.mapShip
  apply State.mapHeld_kept
  exact hq

theorem State.shipDoneIf_kept {r0 : State} (s : State) (n : ShipName) (hq : Kept r0 s) : Kept r0 (State.shipDoneIf s n) := by
  unfold State.shipDoneIf
  split
  · exact hq
  · split
    · exact hq
    · extract_lets +onlyGivenNames v0
      split
      · apply State.emit_kept
        apply State.modShip_kept
        exact hq
      · exact hq

theorem State.noteWrites_kept {r0 : State} (s : State) (n : ShipName) (member pages : Nat)
    (hq : Kept r0 s) : Kept r0 (State.noteWrites s n member pages) := by
  unfold State.noteWrites
  apply State.shipDoneIf_kept
  apply State.modShip_kept
  exact hq

theorem State.writesDoneIf_kept {r0 : State} (s : State) (n : ShipName)
    (hq : Kept r0 s) : Kept r0 (State.writesDoneIf s n) := by
  unfold State.writesDoneIf
  split
  · exact hq
  · split
    · exact hq
    · split
      · exact hq
      · extract_lets +onlyGivenNames v0
        split
        · exact hq
        · split
          · apply State.noteWrites_kept
            exact hq
          · apply State.emit_kept
            exact hq

theorem State.raiseTables_kept {r0 : State} (s : State) (hq : Kept r0 s) : Kept r0 (State.raiseTables s) := by
  unfold State.raiseTables
  refine foldl_kept ?_ ?_
  · exact Kept.upd hq rfl
  · intro s0 x0 hs0
    try dsimp only
    split
    · exact hs0
    · apply State.faultCtx_kept
      exact hs0

theorem sendPage_kept {r0 : State} (c : Nat) (x : Ctx) (n : ShipName) (node b a k : Nat) (s : State) (hq : Kept r0 s) :
    Kept r0 (sendPage c x n node b a k s) := by
  induction k generalizing s with
  | zero => exact hq
  | succ k ih =>
    have h := ih s hq
    unfold sendPage
    extract_lets u o
    have hu : Kept r0 u := h
    split
    · exact hu
    · split
      · exact State.tableFault_kept _ _ _ hu
      · exact State.sendRequest_kept _ _ _ _ _ _ _ _ (State.managerRead_kept_of (by assumption) hu)

theorem State.writeShip_kept {r0 : State} (s : State) (n : ShipName) (node : Nat) (logical pages : List Nat)
    (hq : Kept r0 s) : Kept r0 (State.writeShip s n node logical pages) := by
  unfold State.writeShip
  split
  · exact hq
  · split
    · exact hq
    · extract_lets +onlyGivenNames v0
      extract_lets +onlyGivenNames v1
      have hv1 : Kept r0 v1 := by
        unfold v1
        split
        · exact Kept.upd hq rfl
        · exact hq
      clear_value v1
      extract_lets +onlyGivenNames v2
      have hv2 : Kept r0 v2 := by
        unfold v2
        apply State.readTables_kept
        apply State.modShip_kept
        exact hv1
      clear_value v2
      extract_lets +onlyGivenNames v3
      extract_lets +onlyGivenNames v4
      have hv4 : Kept r0 v4 := by
        unfold v4
        refine foldl_kept ?_ ?_
        · exact hv2
        · intro s5 x5 hs5
          try dsimp only
          apply sendPage_kept
          exact hs5
      clear_value v4
      apply State.writesDoneIf_kept
      apply State.raiseTables_kept
      apply State.dropLent_kept
      exact hv4

theorem State.edit_kept {r0 : State} (s : State) (c : Nat) (e : Edit) (hq : Kept r0 s) : Kept r0 (State.edit s c e) := by
  unfold State.edit
  split
  · exact hq
  · exact Kept.upd hq rfl

theorem State.publish1_kept {r0 : State} (s : State) (c handle desc : Nat) (words : List Word) (b : Bound)
    (hq : Kept r0 s) : Kept r0 (State.publish1 s c handle desc words b) := by
  unfold State.publish1
  split
  · exact hq
  · extract_lets +onlyGivenNames v0
    split
    · exact Kept.upd hq rfl
    · apply State.postToken_kept
      exact hq

theorem State.finishGen_kept {r0 : State} (s : State) (c handle desc status result : Nat) (b : Bound)
    (hq : Kept r0 s) : Kept r0 (State.finishGen s c handle desc status result b) := by
  unfold State.finishGen
  split
  · exact Kept.upd hq rfl
  · apply State.complete_kept
    exact hq

theorem State.closeSeq_kept {r0 : State} (s : State) (c : Nat) (q : Seq) (desc : Nat) (ended : Bool) (b : Bound)
    (hq : Kept r0 s) : Kept r0 (State.closeSeq s c q desc ended b) := by
  unfold State.closeSeq
  apply State.edit_kept
  apply State.setSeq_kept
  exact hq

theorem State.settleSeq_kept {r0 : State} (s : State) (c : Nat) (q : Seq) (ended : Bool) (b : Bound)
    (hq : Kept r0 s) : Kept r0 (State.settleSeq s c q ended b) := by
  unfold State.settleSeq
  split
  · apply State.closeSeq_kept
    exact hq
  · apply State.setSeq_kept
    exact hq

theorem State.endGen_kept {r0 : State} (s : State) (c : Nat) (q : Seq) (status : Nat) (ended : Bool) (b : Bound)
    (hq : Kept r0 s) : Kept r0 (State.endGen s c q status ended b) := by
  unfold State.endGen
  extract_lets +onlyGivenNames v0
  have hv0 : Kept r0 v0 := by
    unfold v0
    split
    · exact hq
    · apply State.finishGen_kept
      exact hq
  clear_value v0
  apply State.settleSeq_kept
  exact hv0

theorem State.endPre_kept {r0 : State} (s : State) (c : Nat) (q : Seq) (status : Nat) (ended : Bool) (b : Bound)
    (hq : Kept r0 s) : Kept r0 (State.endPre s c q status ended b) := by
  unfold State.endPre
  split
  · apply State.endGen_kept
    exact hq
  · extract_lets +onlyGivenNames v0
    have hv0 : Kept r0 v0 := by
      unfold v0
      split
      · exact hq
      · apply State.complete_kept
        exact hq
    clear_value v0
    apply State.settleSeq_kept
    exact hv0

theorem State.cancelSeq_kept {r0 : State} (s : State) (c : Nat) (q : Seq) (b : Bound)
    (hq : Kept r0 s) : Kept r0 (State.cancelSeq s c q b) := by
  unfold State.cancelSeq
  split
  · apply State.endGen_kept
    exact hq
  · apply State.endPre_kept
    exact hq
  · exact hq

theorem State.startSeq_kept {r0 : State} (s : State) (c : Nat) (q : Seq) (d : Desc) (f : OpenFields) (b : Bound)
    (hq : Kept r0 s) : Kept r0 (State.startSeq s c q d f b) := by
  unfold State.startSeq
  extract_lets +onlyGivenNames v0
  extract_lets +onlyGivenNames v1
  extract_lets +onlyGivenNames v2
  have hv2 : Kept r0 v2 := by
    unfold v2
    apply State.setSeq_kept
    exact hq
  clear_value v2
  split
  · apply State.complete_kept
    exact hv2
  · apply State.modDesc_kept
    exact hv2

theorem State.applyOpen_kept {r0 : State} (s : State) (c : Nat) (x : Ctx) (d : Desc) (b : Bound)
    (hq : Kept r0 s) : Kept r0 (State.applyOpen s c x d b) := by
  unfold State.applyOpen
  extract_lets +onlyGivenNames v0
  extract_lets +onlyGivenNames v1
  extract_lets +onlyGivenNames v2
  split
  · apply State.complete_kept
    exact hq
  · split
    · apply State.complete_kept
      exact hq
    · split
      · apply State.complete_kept
        exact hq
      · extract_lets +onlyGivenNames v3
        apply State.startSeq_kept
        apply State.edit_kept
        apply State.openTable_kept
        apply State.setSeq_kept
        exact hq

theorem State.applyAccept_kept {r0 : State} (s : State) (c : Nat) (x : Ctx) (d : Desc) (b : Bound) (hq : Kept r0 s) :
    Kept r0 (s.applyAccept c x d b) := by
  unfold State.applyAccept
  extract_lets h f
  split
  · exact State.complete_kept _ _ _ _ _ hq
  · split
    · exact State.complete_kept _ _ _ _ _ hq
    · exact State.modDesc_kept _ _ _ (Kept.upd (State.edit_kept _ _ _ (State.openTable_kept _ _ _ _ _ (State.setSeq_kept _ _ _ hq))) rfl)

theorem State.applyAppend_kept {r0 : State} (s : State) (c : Nat) (x : Ctx) (d : Desc) (b : Bound)
    (hq : Kept r0 s) : Kept r0 (State.applyAppend s c x d b) := by
  unfold State.applyAppend
  extract_lets +onlyGivenNames v0
  extract_lets +onlyGivenNames v1
  split
  · apply State.complete_kept
    exact hq
  · extract_lets +onlyGivenNames v2
    split
    · apply State.complete_kept
      exact hq
    · split
      · apply State.complete_kept
        exact hq
      · split
        · apply State.complete_kept
          exact hq
        · apply State.startSeq_kept
          exact hq

theorem State.applyCancel_kept {r0 : State} (s : State) (c : Nat) (x : Ctx) (d : Desc) (b : Bound)
    (hq : Kept r0 s) : Kept r0 (State.applyCancel s c x d b) := by
  unfold State.applyCancel
  split
  · apply State.complete_kept
    exact hq
  · split
    · apply State.complete_kept
      exact hq
    · split
      · apply State.complete_kept
        exact hq
      · apply State.complete_kept
        exact hq
      · apply State.complete_kept
        exact hq
      · apply State.complete_kept
        apply State.cancelSeq_kept
        exact hq

theorem State.refuseShip_kept {r0 : State} (s : State) (c handle status : Nat)
    (hq : Kept r0 s) : Kept r0 (State.refuseShip s c handle status) := by
  unfold State.refuseShip
  refine foldl_kept ?_ ?_
  · exact hq
  · intro s0 x0 hs0
    try dsimp only
    split
    · apply State.modShip_kept
      apply State.edit_kept
      apply State.emit_kept
      exact hs0
    · apply State.dropShip_kept
      exact hs0

theorem State.applyClose_kept {r0 : State} (s : State) (c : Nat) (x : Ctx) (d : Desc) (b : Bound)
    (hq : Kept r0 s) : Kept r0 (State.applyClose s c x d b) := by
  unfold State.applyClose
  split
  · apply State.complete_kept
    exact hq
  · split
    · apply State.complete_kept
      exact hq
    · extract_lets +onlyGivenNames v0
      have hv0 : Kept r0 v0 := by
        unfold v0
        apply State.refuseShip_kept
        exact hq
      clear_value v0
      extract_lets +onlyGivenNames v1
      have hv1 : Kept r0 v1 := by
        unfold v1
        split
        · apply State.cancelSeq_kept
          exact hq
        · apply State.cancelSeq_kept
          exact hq
        · split
          · exact hv0
          · apply State.complete_kept
            exact hv0
        · exact hq
      clear_value v1
      extract_lets +onlyGivenNames v2
      apply State.modDesc_kept
      apply State.closeSeq_kept
      exact hv1

theorem State.applyParams_kept {r0 : State} (s : State) (c : Nat) (x : Ctx) (d : Desc) (b : Bound)
    (hq : Kept r0 s) : Kept r0 (State.applyParams s c x d b) := by
  unfold State.applyParams
  split
  · apply State.complete_kept
    exact hq
  · split
    · apply State.complete_kept
      exact hq
    · split
      · extract_lets +onlyGivenNames v0
        apply State.complete_kept
        apply State.edit_kept
        apply State.setSeq_kept
        exact hq
      · extract_lets +onlyGivenNames v1
        apply State.complete_kept
        apply State.edit_kept
        apply State.setSeq_kept
        exact hq

theorem State.applyMap_kept {r0 : State} (s : State) (c : Nat) (x : Ctx) (d : Desc) (b : Bound)
    (hq : Kept r0 s) : Kept r0 (State.applyMap s c x d b) := by
  unfold State.applyMap
  extract_lets +onlyGivenNames v0
  extract_lets +onlyGivenNames v1
  extract_lets +onlyGivenNames v2
  extract_lets +onlyGivenNames v3
  extract_lets +onlyGivenNames v4
  extract_lets +onlyGivenNames v5
  split
  · apply State.complete_kept
    exact hq
  · extract_lets +onlyGivenNames v6
    extract_lets +onlyGivenNames v7
    split
    · apply State.complete_kept
      exact hq
    · split
      · split
        · extract_lets +onlyGivenNames v8
          extract_lets +onlyGivenNames v9
          split
          · apply State.complete_kept
            exact hq
          · split
            · apply State.complete_kept
              exact hq
            · extract_lets +onlyGivenNames v10
              have hv10 : Kept r0 v10 := by
                unfold v10
                apply State.sharePages_kept
                exact hq
              clear_value v10
              extract_lets +onlyGivenNames v11
              have hv11 : Kept r0 v11 := by
                unfold v11
                exact Kept.upd hv10 rfl
              clear_value v11
              extract_lets +onlyGivenNames v12
              extract_lets +onlyGivenNames v13
              have hv13 : Kept r0 v13 := by
                unfold v13
                apply State.setSeq_kept
                exact hv11
              clear_value v13
              extract_lets +onlyGivenNames v14
              apply State.modDesc_kept
              exact hv13
        · apply State.complete_kept
          exact hq
      · extract_lets +onlyGivenNames v15
        split
        · apply State.complete_kept
          exact hq
        · split
          · apply State.complete_kept
            exact hq
          · extract_lets +onlyGivenNames v16
            have hv16 : Kept r0 v16 := by
              unfold v16
              apply State.mapHeld_kept
              exact hq
            clear_value v16
            extract_lets +onlyGivenNames v17
            have hv17 : Kept r0 v17 := by
              unfold v17
              split
              · exact hv16
              · apply State.setSeq_kept
                exact hv16
            clear_value v17
            apply State.complete_kept
            exact hv17

theorem State.applyUnmap_kept {r0 : State} (s : State) (c : Nat) (x : Ctx) (d : Desc) (b : Bound)
    (hq : Kept r0 s) : Kept r0 (State.applyUnmap s c x d b) := by
  unfold State.applyUnmap
  extract_lets +onlyGivenNames v0
  split
  · apply State.complete_kept
    exact hq
  · split
    · apply State.complete_kept
      exact hq
    · apply State.complete_kept
      apply State.edit_kept
      apply State.setSeq_kept
      exact hq

theorem State.applyShip_kept {r0 : State} (s : State) (c : Nat) (x : Ctx) (d : Desc) (b : Bound)
    (hq : Kept r0 s) : Kept r0 (State.applyShip s c x d b) := by
  unfold State.applyShip
  split
  · apply State.complete_kept
    exact hq
  · split
    · apply State.complete_kept
      exact hq
    · extract_lets +onlyGivenNames v0
      extract_lets +onlyGivenNames v1
      have hv1 : Kept r0 v1 := by
        unfold v1
        apply State.setSeq_kept
        exact hq
      clear_value v1
      extract_lets +onlyGivenNames v2
      extract_lets +onlyGivenNames v3
      extract_lets +onlyGivenNames v4
      have hv4 : Kept r0 v4 := by
        unfold v4
        exact Kept.upd hv1 rfl
      clear_value v4
      extract_lets +onlyGivenNames v5
      have hv5 : Kept r0 v5 := by
        unfold v5
        apply State.modDesc_kept
        exact hv4
      clear_value v5
      apply State.shipDoneIf_kept
      apply State.emit_kept
      exact hv5

theorem State.publishToks_kept {r0 : State} (s : State) (c : Nat) (q : Seq) (c0 : Nat) (r : Result) (p : Pub) (b : Bound)
    (hq : Kept r0 s) : Kept r0 (State.publishToks s c q c0 r p b) := by
  unfold State.publishToks
  extract_lets +onlyGivenNames v0
  extract_lets +onlyGivenNames v1
  extract_lets +onlyGivenNames v2
  have hv2 : Kept r0 v2 := by
    unfold v2
    refine foldl_kept ?_ ?_
    · exact hq
    · intro s3 x3 hs3
      try dsimp only
      apply State.publish1_kept
      exact hs3
  clear_value v2
  split
  · apply State.publish1_kept
    exact hv2
  · exact hv2

theorem State.notePast_kept {r0 : State} (s : State) (c : Nat) (q : Seq) (before : Nat) (b : Bound)
    (hq : Kept r0 s) : Kept r0 (State.notePast s c q before b) := by
  unfold State.notePast
  exact Kept.upd hq rfl

theorem State.commitDecode_kept {r0 : State} (s : State) (c : Nat) (q : Seq) (row : LenRow) (r : Result) (b : Bound)
    (hq : Kept r0 s) : Kept r0 (State.commitDecode s c q row r b) := by
  unfold State.commitDecode
  extract_lets +onlyGivenNames v0
  extract_lets +onlyGivenNames v1
  extract_lets +onlyGivenNames v2
  have hv2 : Kept r0 v2 := by
    unfold v2
    apply State.notePast_kept
    exact hq
  clear_value v2
  extract_lets +onlyGivenNames v3
  extract_lets +onlyGivenNames v4
  have hv4 : Kept r0 v4 := by
    unfold v4
    apply State.bump64_kept
    apply State.bump64_kept
    apply State.bump64_kept
    apply State.bump64_kept
    exact hv2
  clear_value v4
  extract_lets +onlyGivenNames v5
  extract_lets +onlyGivenNames v6
  extract_lets +onlyGivenNames v7
  have hv7 : Kept r0 v7 := by
    unfold v7
    apply State.edit_kept
    apply State.writePen_kept
    apply State.setSeq_kept
    exact hv4
  clear_value v7
  split
  · exact hv7
  · apply State.endGen_kept
    exact hv7

theorem State.commitChunk_kept {r0 : State} (s : State) (c : Nat) (q : Seq) (row : LenRow) (r : Option Result)
    (cancelled : Bool) (b : Bound) (hq : Kept r0 s) : Kept r0 (State.commitChunk s c q row r cancelled b) := by
  unfold State.commitChunk
  extract_lets +onlyGivenNames v0
  extract_lets +onlyGivenNames v1
  have hv1 : Kept r0 v1 := by
    unfold v1
    apply State.notePast_kept
    exact hq
  clear_value v1
  extract_lets +onlyGivenNames v2
  extract_lets +onlyGivenNames v3
  extract_lets +onlyGivenNames v4
  have hv4 : Kept r0 v4 := by
    unfold v4
    apply State.edit_kept
    apply State.writePen_kept
    apply State.setSeq_kept
    exact hv1
  clear_value v4
  split
  · exact hv4
  · split
    · apply State.setSeq_kept
      exact hv4
    · apply State.endPre_kept
      exact hv4

theorem State.publishRow_kept {r0 : State} (s : State) (c : Nat) (a : Attempt) (discards : List Nat) (row : LenRow) (b : Bound)
    (hq : Kept r0 s) : Kept r0 (State.publishRow s c a discards row b) := by
  unfold State.publishRow
  split
  · split
    · apply State.publishToks_kept
      exact hq
    · exact hq
  · exact hq

theorem State.commitRow_kept {r0 : State} (s : State) (c : Nat) (a : Attempt) (discards cancels : List Nat) (row : LenRow)
    (b : Bound) (hq : Kept r0 s) : Kept r0 (State.commitRow s c a discards cancels row b) := by
  unfold State.commitRow
  split
  · exact hq
  · split
    · apply State.notePast_kept
      exact hq
    · split
      · apply State.commitDecode_kept
        exact hq
      · apply State.commitChunk_kept
        exact hq
      · exact hq

theorem State.applyPolicy_kept {r0 : State} (s : State) (d : Desc) (b : Bound)
    (hq : Kept r0 s) : Kept r0 (State.applyPolicy s d b) := by
  unfold State.applyPolicy
  split
  · apply State.modDesc_kept
    exact hq
  · apply State.complete_kept
    exact hq

theorem State.applyDesc_kept {r0 : State} (s : State) (d : Desc) (b : Bound)
    (hq : Kept r0 s) : Kept r0 (State.applyDesc s d b) := by
  unfold State.applyDesc
  extract_lets +onlyGivenNames v0
  extract_lets +onlyGivenNames v1
  split
  · apply State.complete_kept
    exact hq
  · split
    · apply State.applyOpen_kept
      exact hq
    · split
      · apply State.applyAppend_kept
        exact hq
      · split
        · apply State.applyCancel_kept
          exact hq
        · split
          · apply State.applyClose_kept
            exact hq
          · split
            · apply State.applyParams_kept
              exact hq
            · split
              · apply State.applyUnmap_kept
                exact hq
              · split
                · apply State.applyShip_kept
                  exact hq
                · split
                  · apply State.applyAccept_kept
                    exact hq
                  · split
                    · apply State.jigInstall_kept
                      exact hq
                    · split
                      · apply State.applyPolicy_kept
                        exact hq
                      · exact hq

theorem State.tellJob_kept {r0 : State} (s : State) (x : Ctx) (hq : Kept r0 s) : Kept r0 (State.tellJob s x) := by
  unfold State.tellJob
  exact Kept.upd hq rfl

theorem State.giveReport_kept {r0 : State} (s : State) (r : Report) (hq : Kept r0 s) : Kept r0 (State.giveReport s r) := by
  unfold State.giveReport
  split
  · extract_lets +onlyGivenNames v0
    have hv0 : Kept r0 v0 := by
      unfold v0
      exact Kept.upd hq rfl
    clear_value v0
    split
    · apply State.takeReports_kept
      exact hv0
    · exact Kept.upd hv0 rfl
  · split
    · exact hq
    · apply State.emit_kept
      exact hq

theorem State.tellHold_kept {r0 : State} (s : State) (c : Nat) (hq : Kept r0 s) : Kept r0 (State.tellHold s c) := by
  unfold State.tellHold
  split
  · exact hq
  · apply State.giveReport_kept
    exact hq

theorem State.setConn_kept {r0 : State} (s : State) (t v : Nat) (hq : Kept r0 s) : Kept r0 (State.setConn s t v) := by
  unfold State.setConn
  apply State.setRegFld_kept
  exact hq

theorem State.pairTurn_kept {r0 : State} (s : State) (q : Nat) (hq : Kept r0 s) : Kept r0 (State.pairTurn s q) := by
  unfold State.pairTurn
  extract_lets +onlyGivenNames v0
  extract_lets +onlyGivenNames v1
  have hv1 : Kept r0 v1 := by
    unfold v1
    exact Kept.upd hq rfl
  clear_value v1
  split
  · apply State.emit_kept
    exact Kept.upd hv1 rfl
  · split
    · exact hv1
    · extract_lets +onlyGivenNames v2
      split
      · apply State.emit_kept
        unfold v2
        exact Kept.upd hv1 rfl
      · apply State.emit_kept
        unfold v2
        exact Kept.upd hv1 rfl

theorem runPairs_kept {r0 : State} (n : Nat) (s : State) (hq : Kept r0 s) : Kept r0 (runPairs n s) := by
  induction n generalizing s with
  | zero => exact hq
  | succ n ih =>
    unfold runPairs
    extract_lets qs
    split
    · exact hq
    · exact ih _ (State.pairTurn_kept _ _ hq)

theorem State.queueJobs_kept {r0 : State} (s : State) (hq : Kept r0 s) : Kept r0 (State.queueJobs s) := by
  unfold State.queueJobs
  refine foldl_kept ?_ ?_
  · exact hq
  · intro s0 x0 hs0
    try dsimp only
    split
    · exact hs0
    · split
      · exact hs0
      · exact Kept.upd hs0 rfl

theorem State.runStor_kept {r0 : State} (s : State) (hq : Kept r0 s) : Kept r0 (State.runStor s) := by
  unfold State.runStor
  extract_lets +onlyGivenNames v0
  have hv0 : Kept r0 v0 := by
    unfold v0
    apply State.queueJobs_kept
    exact hq
  clear_value v0
  apply runPairs_kept
  exact hv0

theorem State.dropStor_kept {r0 : State} (s : State) (id : Nat) (hq : Kept r0 s) : Kept r0 (State.dropStor s id) := by
  unfold State.dropStor
  apply State.runStor_kept
  exact Kept.upd hq rfl

theorem State.issueNvme_kept {r0 : State} (s : State) (j : StorJob) (data : List Byte)
    (hq : Kept r0 s) : Kept r0 (State.issueNvme s j data) := by
  unfold State.issueNvme
  apply State.runStor_kept
  exact Kept.upd hq rfl

theorem State.modLoad_kept {r0 : State} (s : State) (id : Nat) (f : LoadJob → LoadJob)
    (hq : Kept r0 s) : Kept r0 (State.modLoad s id f) := by
  unfold State.modLoad
  exact Kept.upd hq rfl

theorem State.undefine_kept {r0 : State} (s : State) (x : Ctx) (a n : Nat)
    (hq : Kept r0 s) : Kept r0 (State.undefine s x a n) := by
  unfold State.undefine
  refine foldl_kept ?_ ?_
  · exact hq
  · intro s0 x0 hs0
    try dsimp only
    split
    · apply State.placeBytes_kept
      apply freeBytes_kept
      exact hs0
    · exact hs0

theorem State.undefineLoad_kept {r0 : State} (s : State) (ws : List Word)
    (hq : Kept r0 s) : Kept r0 (State.undefineLoad s ws) := by
  unfold State.undefineLoad
  split
  · exact hq
  · apply State.undefine_kept
    exact hq

theorem State.finishLoad_kept {r0 : State} (s : State) (id : Nat) (hq : Kept r0 s) : Kept r0 (State.finishLoad s id) := by
  unfold State.finishLoad
  split
  · exact hq
  · split
    · exact hq
    · extract_lets +onlyGivenNames v0
      have hv0 : Kept r0 v0 := by
        unfold v0
        exact Kept.upd hq rfl
      clear_value v0
      extract_lets +onlyGivenNames v1
      have hv1 : Kept r0 v1 := by
        unfold v1
        split
        · split
          · exact hv0
          · apply State.undefineLoad_kept
            exact hv0
        · exact hv0
      clear_value v1
      extract_lets +onlyGivenNames v2
      have hv2 : Kept r0 v2 := by
        unfold v2
        apply State.complete_kept
        exact hv1
      clear_value v2
      split
      · exact hv2
      · apply State.faultCtx_kept
        exact hv2

theorem State.failLoad_kept {r0 : State} (s : State) (d : Desc) (status result : Nat)
    (hq : Kept r0 s) : Kept r0 (State.failLoad s d status result) := by
  unfold State.failLoad
  apply State.complete_kept
  apply State.undefineLoad_kept
  exact Kept.upd hq rfl

theorem State.loadHere_kept {r0 : State} (s : State) (x : Ctx) (a : Nat) (bs : List Byte)
    (hq : Kept r0 s) : Kept r0 (State.loadHere s x a bs).1 := by
  unfold State.loadHere
  split
  · dsimp only
    refine State.writeCtx_kept_of (by assumption) ?_
    exact hq
  · dsimp only
    exact hq

theorem State.loadCast_kept {r0 : State} (s : State) (c job : Nat) (d : Desc) (dests : List Nat) (n a : Nat) (bs : List Byte)
    (hq : Kept r0 s) : Kept r0 (s.loadCast c job d dests n a bs) := by
  induction n generalizing a bs s with
  | zero => exact hq
  | succ n ih =>
    exact ih _ _ _ (foldl_kept hq fun t i h => State.modLoad_kept _ _ _ (State.sendRequest_kept _ _ _ _ _ _ _ _ h))

theorem State.loadList_kept {r0 : State} (s : State) (x : Ctx) (ws : List Word)
    (hq : Kept r0 s) : Kept r0 (State.loadList s x ws).2 := by
  unfold State.loadList
  extract_lets +onlyGivenNames v0
  split
  · dsimp only
    exact hq
  · split
    · dsimp only
      exact hq
    · dsimp only
      refine State.readCtx_kept_of (by assumption) ?_
      exact hq

theorem State.loadData_kept {r0 : State} (s : State) (d : Desc) (bs : List Byte)
    (hq : Kept r0 s) : Kept r0 (State.loadData s d bs) := by
  unfold State.loadData
  extract_lets +onlyGivenNames v0
  split
  · exact hq
  · extract_lets +onlyGivenNames v1
    extract_lets +onlyGivenNames v2
    extract_lets +onlyGivenNames v3
    have hv3 : Kept r0 v3 := by
      unfold v3
      split
      · unfold v2
        apply State.loadHere_kept
        exact hq
      · apply State.modLoad_kept
        unfold v2
        apply State.loadHere_kept
        exact hq
    clear_value v3
    extract_lets +onlyGivenNames v4
    have hv4 : Kept r0 v4 := by
      unfold v4
      split
      · apply State.loadCast_kept
        exact hv3
      · exact hv3
    clear_value v4
    apply State.finishLoad_kept
    apply State.modLoad_kept
    exact hv4

theorem State.startLoad_kept {r0 : State} (s : State) (d : Desc) (x : Ctx) (h : HostView) (hq : Kept r0 s) :
    Kept r0 (State.startLoad s d x h) := by
  unfold State.startLoad
  extract_lets ws c n t host data
  clear_value data
  refine ite_kept (State.failLoad_kept _ _ _ _ hq) ?_
  cases data with
  | none => exact State.failLoad_kept _ _ _ _ hq
  | some bs =>
    have hr := State.loadList_kept s x ws hq
    dsimp only
    split
    · exact State.faultCtx_kept _ _ _ (State.failLoad_kept _ _ _ _ hr)
    · refine ite_kept ?_ (State.issueNvme_kept _ _ _ ?_) <;> exact State.modDesc_kept _ _ _ (Kept.upd hr rfl)

theorem State.endHold_kept {r0 : State} (s : State) (c id : Nat) (hq : Kept r0 s) : Kept r0 (State.endHold s c id) := by
  unfold State.endHold
  split
  · exact hq
  · split
    · apply State.tellHold_kept
      apply State.setCtx_kept
      exact hq
    · exact hq

theorem State.stallDesc_kept {r0 : State} (s : State) (c : Nat) (x : Ctx) (d : Desc) (h : HostView) (wants : List (Nat × Nat))
    (hq : Kept r0 s) : Kept r0 (State.stallDesc s c x d h wants) := by
  unfold State.stallDesc
  refine foldl_kept ?_ ?_
  · exact Kept.upd hq rfl
  · intro s0 x0 hs0
    try dsimp only
    apply State.sendRequest_kept
    exact hs0

theorem State.sendCheckpointData_kept {r0 : State} (s : State) (c : Nat) (x : Ctx) (d : Desc) (b : Bound) (j : StorJob)
    (r : Except Nat (List Byte × Bool × State)) (hr : ∀ {bs po t}, r = .ok (bs, po, t) → Kept r0 t) (hq : Kept r0 s) :
    Kept r0 (State.sendCheckpointData s c x d b j r) := by
  unfold State.sendCheckpointData
  split
  · exact State.faultCtx_kept _ _ _ (State.endHold_kept _ _ _ (State.complete_kept _ _ _ _ _ hq))
  · split
    · exact State.stallDesc_kept _ _ _ _ _ _ hq
    · extract_lets u
      have hu : Kept r0 u := State.dropLent_kept _ _ (hr rfl)
      split
      · exact State.faultCtx_kept _ _ _ (State.endHold_kept _ _ _ (State.complete_kept _ _ _ _ _ hu))
      · exact State.issueNvme_kept _ _ _ hu

theorem State.sendCheckpoint_kept {r0 : State} (s : State) (c : Nat) (x : Ctx) (d : Desc) (b : Bound) (hq : Kept r0 s) :
    Kept r0 (State.sendCheckpoint s c x d b) := by
  have h0 : Kept r0 { s with wants := [] } := Kept.upd hq rfl
  exact State.sendCheckpointData_kept _ _ _ _ _ _ _ (fun e => State.readCtx_kept_of e h0) hq

theorem State.startTransfer_kept {r0 : State} (s : State) (c : Nat) (x : Ctx) (d : Desc) (b : Bound)
    (hq : Kept r0 s) : Kept r0 (State.startTransfer s c x d b) := by
  unfold State.startTransfer
  extract_lets +onlyGivenNames v0
  extract_lets +onlyGivenNames v1
  have hv1 : Kept r0 v1 := by
    unfold v1
    split
    · apply State.undefine_kept
      exact hq
    · exact hq
  clear_value v1
  split
  · apply State.complete_kept
    exact hv1
  · split
    · apply State.faultCtx_kept
      apply State.complete_kept
      exact hv1
    · extract_lets +onlyGivenNames v2
      extract_lets +onlyGivenNames v3
      have hv3 : Kept r0 v3 := by
        unfold v3
        apply State.tellHold_kept
        apply State.modDesc_kept
        apply State.setCtx_kept
        exact hq
      clear_value v3
      split
      · apply State.issueNvme_kept
        exact hv3
      · apply State.sendCheckpoint_kept
        exact hv3

theorem State.startHold_kept {r0 : State} (s : State) (c : Nat) (b : Bound)
    (hq : Kept r0 s) : Kept r0 (State.startHold s c b) := by
  unfold State.startHold
  split
  · exact hq
  · split
    · exact hq
    · split
      · exact hq
      · apply State.startTransfer_kept
        exact hq

theorem State.startHolds_kept {r0 : State} (s : State) (c : Nat) (b : Bound)
    (hq : Kept r0 s) : Kept r0 (State.startHolds s c b) := by
  unfold State.startHolds
  refine foldl_kept ?_ ?_
  · exact hq
  · intro s0 x0 hs0
    try dsimp only
    apply State.startHold_kept
    exact hs0

theorem State.endTransfer_kept {r0 : State} (s : State) (j : StorJob) (status result : Nat)
    (hq : Kept r0 s) : Kept r0 (State.endTransfer s j status result) := by
  unfold State.endTransfer
  apply State.startHolds_kept
  apply State.endHold_kept
  apply State.complete_kept
  exact hq

theorem State.undefinePages_kept {r0 : State} (s : State) (j : StorJob) (hq : Kept r0 s) : Kept r0 (State.undefinePages s j) := by
  unfold State.undefinePages
  split
  · exact hq
  · apply State.undefine_kept
    exact hq

theorem execStorageCompletion_kept {r0 : State} (id status : Nat) (data : List Byte) (s : State)
    {t : State} (e : execStorageCompletion id status data s = .next t) (hq : Kept r0 s) : Kept r0 t := by
  unfold execStorageCompletion at e
  cases e
  split
  · exact hq
  · extract_lets +onlyGivenNames v0
    have hv0 : Kept r0 v0 := by
      unfold v0
      apply State.dropStor_kept
      exact hq
    clear_value v0
    split
    · exact hv0
    · extract_lets +onlyGivenNames v1
      split
      · split
        · apply State.failLoad_kept
          exact hv0
        · apply State.loadData_kept
          exact hv0
      · split
        · apply State.endTransfer_kept
          split
          · apply State.undefinePages_kept
            exact hv0
          · exact hv0
        · split
          · split
            · exact hv0
            · split
              · apply State.endTransfer_kept
                refine State.writeCtx_kept_of (by assumption) ?_
                exact hv0
              · apply State.faultCtx_kept
                apply State.endTransfer_kept
                apply State.undefinePages_kept
                exact hv0
          · apply State.endTransfer_kept
            exact hv0

theorem execStorageTimeout_kept {r0 : State} (id : Nat) (s : State)
    {t : State} (e : execStorageTimeout id s = .next t) (hq : Kept r0 s) : Kept r0 t := by
  unfold execStorageTimeout at e
  cases e
  split
  · exact hq
  · extract_lets +onlyGivenNames v0
    have hv0 : Kept r0 v0 := by
      unfold v0
      apply State.dropStor_kept
      exact hq
    clear_value v0
    split
    · split
      · apply State.failLoad_kept
        exact hv0
      · exact hv0
    · apply State.endTransfer_kept
      split
      · apply State.undefinePages_kept
        exact hv0
      · exact hv0

theorem execLoadLastLineWritten_kept {r0 : State} (id : Nat) (s : State)
    {t : State} (e : execLoadLastLineWritten id s = .next t) (hq : Kept r0 s) : Kept r0 t := by
  unfold execLoadLastLineWritten at e
  cases e
  split
  · split
    · exact hq
    · apply State.loadData_kept
      exact hq
  · exact hq

theorem State.applySetup_kept {r0 : State} (s : State) (r : List Word)
    (hq : Kept r0 s) : Kept r0 (State.applySetup s r) := by
  unfold State.applySetup
  extract_lets +onlyGivenNames v0
  have hv0 : Kept r0 v0 := by
    unfold v0
    refine foldl_kept ?_ ?_
    · exact hq
    · intro s1 x1 hs1
      try dsimp only
      split
      · apply State.emit_kept
        exact hs1
      · exact hs1
  clear_value v0
  extract_lets +onlyGivenNames v2
  extract_lets +onlyGivenNames v3
  have hv3 : Kept r0 v3 := by
    unfold v3
    exact Kept.upd hv0 rfl
  clear_value v3
  extract_lets +onlyGivenNames v4
  have hv4 : Kept r0 v4 := by
    unfold v4
    refine foldl_kept ?_ ?_
    · exact hv3
    · intro s5 x5 hs5
      try dsimp only
      apply State.setReg_kept
      exact hs5
  clear_value v4
  refine foldl_kept ?_ ?_
  · exact hv4
  · intro s6 x6 hs6
    try dsimp only
    split
    · apply State.emit_kept
      apply State.setConn_kept
      exact hs6
    · apply State.setConn_kept
      exact hs6

theorem State.ethLink_kept {r0 : State} (s : State) (port : Nat) (up : Bool) (targets : List (Fin 16))
    (hq : Kept r0 s) : Kept r0 (State.ethLink s port up targets) := by
  unfold State.ethLink
  refine foldl_kept ?_ ?_
  · apply State.setRegBit_kept
    exact hq
  · intro s0 x0 hs0
    try dsimp only
    split
    · exact hs0
    · apply State.setConn_kept
      exact hs0

theorem execEthernetLinkChange_kept {r0 : State} (port : Fin 2) (up : Bool) (targets : List (Fin 16)) (s : State)
    {t : State} (e : execEthernetLinkChange port up targets s = .next t) (hq : Kept r0 s) : Kept r0 t := by
  unfold execEthernetLinkChange at e
  cases e
  apply State.ethLink_kept
  exact hq

theorem execCongestionNotification_kept {r0 : State} (qp : Fin 1024) (s : State)
    {t : State} (e : execCongestionNotification qp s = .next t) (hq : Kept r0 s) : Kept r0 t := by
  unfold execCongestionNotification at e
  cases e
  extract_lets +onlyGivenNames v0
  extract_lets +onlyGivenNames v1
  extract_lets +onlyGivenNames v2
  have hv2 : Kept r0 v2 := by
    unfold v2
    unfold v0
    apply State.free_kept
    exact hq
  clear_value v2
  exact Kept.upd hv2 rfl

theorem execKeepAlive_kept {r0 : State} (target : Fin 16) (s : State)
    {t : State} (e : execKeepAlive target s = .next t) (hq : Kept r0 s) : Kept r0 t := by
  unfold execKeepAlive at e
  cases e
  split
  · apply State.runStor_kept
    exact Kept.upd hq rfl
  · exact hq

theorem execPriorityFlowControl_kept {r0 : State} (port : Fin 2) (priority : Fin 8) (quanta : Nat) (s : State)
    {t : State} (e : execPriorityFlowControl port priority quanta s = .next t) (hq : Kept r0 s) : Kept r0 t := by
  unfold execPriorityFlowControl at e
  cases e
  extract_lets +onlyGivenNames v0
  split
  · exact hq
  · extract_lets +onlyGivenNames v1
    extract_lets +onlyGivenNames v2
    apply State.runStor_kept
    exact Kept.upd hq rfl

theorem State.awaitWith_kept {r0 : State} (s : State) (d : Desc) (buf : List Word) (poison : Bool)
    (hq : Kept r0 s) : Kept r0 (State.awaitWith s d buf poison) := by
  unfold State.awaitWith
  apply State.modDesc_kept
  exact hq

theorem State.await_kept {r0 : State} (s : State) (d : Desc) (buf : List Word)
    (hq : Kept r0 s) : Kept r0 (State.await s d buf) := by
  unfold State.await
  apply State.modDesc_kept
  exact hq

theorem State.takeHomed_kept {r0 : State} (s : State) (d : Desc) (hq : Kept r0 s) : Kept r0 (State.takeHomed s d) := by
  unfold State.takeHomed
  split
  · apply State.await_kept
    exact hq
  · apply State.complete_kept
    exact hq

theorem State.takeJig_kept {r0 : State} (s : State) (d : Desc) (c : Nat) (x : Ctx)
    (hq : Kept r0 s) : Kept r0 (State.takeJig s d c x) := by
  unfold State.takeJig
  extract_lets +onlyGivenNames v0
  split
  · split
    · apply State.complete_kept
      exact hq
    · apply State.faultCtx_kept
      apply State.complete_kept
      exact hq
  · split
    · apply State.complete_kept
      refine State.readCtx_kept_of (by assumption) ?_
      exact hq
    · apply State.complete_kept
      refine State.readCtx_kept_of (by assumption) ?_
      exact hq
    · split
      · apply State.complete_kept
        refine State.readCtx_kept_of (by assumption) ?_
        exact hq
      · split
        · apply State.faultCtx_kept
          apply State.complete_kept
          refine State.readCtx_kept_of (by assumption) ?_
          exact hq
        · apply State.await_kept
          refine State.readCtx_kept_of (by assumption) ?_
          exact hq

theorem State.takeParams_kept {r0 : State} (s : State) (d : Desc) (x : Ctx)
    (hq : Kept r0 s) : Kept r0 (s.takeParams d x) := by
  unfold State.takeParams
  extract_lets +onlyGivenNames ws
  refine ite_kept (State.complete_kept _ _ _ _ _ hq) ?_
  refine ite_kept (State.await_kept _ _ _ hq) ?_
  extract_lets +onlyGivenNames b
  have hb : ∀ {bs po t}, b = .ok (bs, po, t) → Kept r0 t := fun e => State.readCtx_kept_of e hq
  clear_value b
  extract_lets +onlyGivenNames auto ba s1
  have h1 : Kept r0 s1 := by
    cases b with
    | ok v => exact hb rfl
    | error e => exact hq
  clear_value s1
  extract_lets +onlyGivenNames a
  have ha : ∀ {bs po t}, a = .ok (bs, po, t) → Kept r0 t := by
    intro bs po t e
    unfold a at e
    split at e
    · exact State.readCtx_kept_of e h1
    · cases e; exact h1
  clear_value a
  extract_lets +onlyGivenNames aa
  refine ite_kept (State.complete_kept _ _ _ _ _ h1) ?_
  cases b with
  | error e => exact State.complete_kept _ _ _ _ _ h1
  | ok v =>
    cases a with
    | error e => exact State.complete_kept _ _ _ _ _ h1
    | ok w => exact State.awaitWith_kept _ _ _ _ (ha rfl)

theorem State.takeMap_kept {r0 : State} (s : State) (d : Desc) (x : Ctx)
    (hq : Kept r0 s) : Kept r0 (State.takeMap s d x) := by
  unfold State.takeMap
  extract_lets +onlyGivenNames v0
  split
  · apply State.takeHomed_kept
    exact hq
  · extract_lets +onlyGivenNames v1
    split
    · apply State.complete_kept
      exact hq
    · split
      · apply State.faultCtx_kept
        apply State.complete_kept
        refine State.readCtx_kept_of (by assumption) ?_
        exact hq
      · apply State.await_kept
        refine State.readCtx_kept_of (by assumption) ?_
        exact hq

theorem State.diagTable_kept {r0 : State} (s : State) (d : Desc) (c : Nat) (x : Ctx)
    (hq : Kept r0 s) : Kept r0 (State.diagTable s d c x) := by
  unfold State.diagTable
  split
  · apply State.complete_kept
    exact hq
  · extract_lets +onlyGivenNames v0
    extract_lets +onlyGivenNames v1
    split
    · apply State.complete_kept
      exact hq
    · split
      · apply State.faultCtx_kept
        apply State.complete_kept
        exact hq
      · split
        · apply State.faultCtx_kept
          apply State.complete_kept
          refine State.readCtx_kept_of (by assumption) ?_
          exact hq
        · apply State.complete_kept
          apply State.emit_kept
          refine State.readCtx_kept_of (by assumption) ?_
          exact hq

theorem State.readBody_kept {r0 : State} (s : State) (d : Desc) (c : Nat) (x : Ctx) (h : HostView)
    (hq : Kept r0 s) : Kept r0 (State.readBody s d c x h) := by
  unfold State.readBody
  extract_lets +onlyGivenNames v0
  split
  · apply State.startLoad_kept
    exact hq
  · split
    · apply State.takeJig_kept
      exact hq
    · split
      · apply State.takeParams_kept
        exact hq
      · split
        · apply State.takeMap_kept
          exact hq
        · split
          · apply State.sendCheckpoint_kept
            exact hq
          · apply State.diagTable_kept
            exact hq

theorem State.takeReading_kept {r0 : State} (s : State) (d : Desc) (c : Nat) (x : Ctx) (h : HostView)
    (hq : Kept r0 s) : Kept r0 (State.takeReading s d c x h) := by
  unfold State.takeReading
  extract_lets +onlyGivenNames v0
  have hv0 : Kept r0 v0 := by
    unfold v0
    apply State.readBody_kept
    exact Kept.upd hq rfl
  clear_value v0
  split
  · apply State.dropLent_kept
    exact hv0
  · apply State.stallDesc_kept
    exact hq

theorem State.fetchLanded_kept {r0 : State} (s : State) (id job line : Nat) (bytes : List Byte) (poison : Bool)
    (hq : Kept r0 s) : Kept r0 (State.fetchLanded s id job line bytes poison) := by
  unfold State.fetchLanded
  extract_lets +onlyGivenNames v0
  have hv0 : Kept r0 v0 := by
    unfold v0
    exact Kept.upd hq rfl
  clear_value v0
  split
  · exact hv0
  · split
    · exact hv0
    · extract_lets +onlyGivenNames v1
      have hv1 : Kept r0 v1 := by
        unfold v1
        exact Kept.upd hv0 rfl
      clear_value v1
      split
      · exact hv1
      · split
        · exact hv1
        · apply State.takeReading_kept
          exact hv1

theorem State.fetchFailed_kept {r0 : State} (s : State) (id status : Nat) (refused : Bool)
    (hq : Kept r0 s) : Kept r0 (State.fetchFailed s id status refused) := by
  unfold State.fetchFailed
  split
  · exact hq
  · extract_lets +onlyGivenNames v0
    have hv0 : Kept r0 v0 := by
      unfold v0
      exact Kept.upd hq rfl
    clear_value v0
    split
    · exact hv0
    · extract_lets +onlyGivenNames v1
      extract_lets +onlyGivenNames v2
      have hv2 : Kept r0 v2 := by
        unfold v2
        split
        · apply State.failLoad_kept
          exact hv0
        · apply State.complete_kept
          exact hv0
      clear_value v2
      split
      · apply State.faultCtx_kept
        apply State.endHold_kept
        exact hv2
      · apply State.endHold_kept
        exact hv2

theorem State.mirrorOut_kept {r0 : State} (s : State) (c : Nat) (x : Ctx) (ls rs : List Nat)
    (hq : Kept r0 s) : Kept r0 (State.mirrorOut s c x ls rs) := by
  unfold State.mirrorOut
  extract_lets +onlyGivenNames v0
  have hv0 : Kept r0 v0 := by
    unfold v0
    refine foldl_kept ?_ ?_
    · exact hq
    · intro s1 x1 hs1
      try dsimp only
      apply State.sendRequest_kept
      exact hs1
  clear_value v0
  refine foldl_kept ?_ ?_
  · exact hv0
  · intro s2 x2 hs2
    try dsimp only
    apply State.sendRequest_kept
    exact hs2

theorem State.mirrorCtx_kept {r0 : State} (old s : State) (c : Nat) (hq : Kept r0 s) : Kept r0 (State.mirrorCtx old s c) := by
  unfold State.mirrorCtx
  split
  · exact hq
  · split
    · exact hq
    · split
      · exact hq
      · exact State.mirrorOut_kept _ _ _ _ _ hq

theorem State.mirrorAll_kept {r0 : State} (old s : State) (hq : Kept r0 s) : Kept r0 (State.mirrorAll old s) := by
  unfold State.mirrorAll
  exact foldl_kept hq fun t cx h => State.mirrorCtx_kept old t cx.1 h

theorem State.mirrorAgain_kept {r0 : State} (s : State) (back : List Nat)
    (hq : Kept r0 s) : Kept r0 (State.mirrorAgain s back) := by
  unfold State.mirrorAgain
  refine foldl_kept ?_ ?_
  · exact hq
  · intro s0 x0 hs0
    try dsimp only
    split
    · apply State.mirrorOut_kept
      exact hs0
    · exact hs0

theorem State.joinReads_kept {r0 : State} (s : State) (c job : Nat) (lines at_ : Nat) (why : Nat → Purpose)
    (hq : Kept r0 s) : Kept r0 (State.joinReads s c job lines at_ why) := by
  unfold State.joinReads
  refine foldl_kept ?_ ?_
  · exact hq
  · intro s0 x0 hs0
    try dsimp only
    apply State.sendRequest_kept
    exact hs0

theorem State.joinMemory_kept {r0 : State} (s : State) (c id : Nat) (x : Ctx)
    (hq : Kept r0 s) : Kept r0 (State.joinMemory s c id x) := by
  unfold State.joinMemory
  refine foldl_kept ?_ ?_
  · exact hq
  · intro s0 x0 hs0
    try dsimp only
    apply State.sendRequest_kept
    exact hs0

theorem State.joinDone_kept {r0 : State} (s : State) (id pages : Nat) (hq : Kept r0 s) : Kept r0 (State.joinDone s id pages) := by
  unfold State.joinDone
  split
  · exact hq
  · apply State.complete_kept
    exact Kept.upd hq rfl

theorem State.joinRecords_kept {r0 : State} (s : State) (j : Join) (hq : Kept r0 s) : Kept r0 (State.joinRecords s j) := by
  unfold State.joinRecords
  split
  · exact hq
  · split
    · exact hq
    · extract_lets +onlyGivenNames v0
      extract_lets +onlyGivenNames v1
      apply State.joinDone_kept
      apply State.joinMemory_kept
      apply State.setCtx_kept
      exact hq

theorem State.diagJoin_kept {r0 : State} (s : State) (d : Desc) (c : Nat) (x : Ctx)
    (hq : Kept r0 s) : Kept r0 (State.diagJoin s d c x) := by
  unfold State.diagJoin
  split
  · apply State.complete_kept
    exact hq
  · split
    · apply State.complete_kept
      exact hq
    · extract_lets +onlyGivenNames v0
      apply State.joinRecords_kept
      apply State.joinReads_kept
      exact Kept.upd hq rfl

theorem State.joinRecordLanded_kept {r0 : State} (s : State) (id line : Nat) (bytes : List Byte)
    (hq : Kept r0 s) : Kept r0 (State.joinRecordLanded s id line bytes) := by
  unfold State.joinRecordLanded
  split
  · exact hq
  · extract_lets +onlyGivenNames v0
    apply State.joinRecords_kept
    exact Kept.upd hq rfl

theorem State.joinMemLanded_kept {r0 : State} (s : State) (id addr : Nat) (bytes : List Byte) (poison : Bool)
    (hq : Kept r0 s) : Kept r0 (State.joinMemLanded s id addr bytes poison) := by
  unfold State.joinMemLanded
  split
  · exact hq
  · split
    · exact hq
    · apply State.joinDone_kept
      apply State.pokeData_kept
      exact hq

theorem State.joinFailed_kept {r0 : State} (s : State) (id status : Nat) (refused : Bool)
    (hq : Kept r0 s) : Kept r0 (State.joinFailed s id status refused) := by
  unfold State.joinFailed
  split
  · exact hq
  · extract_lets +onlyGivenNames v0
    have hv0 : Kept r0 v0 := by
      unfold v0
      apply State.complete_kept
      exact Kept.upd hq rfl
    clear_value v0
    split
    · apply State.faultCtx_kept
      exact hv0
    · exact hv0

theorem State.baseLine_kept {r0 : State} (s : State) (c : Nat) (x : Ctx) (l source : Nat)
    (hq : Kept r0 s) : Kept r0 (State.baseLine s c x l source).2.2 := by
  unfold State.baseLine
  split
  · split
    · dsimp only
      exact hq
    · dsimp only
      apply State.modAttempt_kept
      exact hq
  · apply State.readAt_kept
    exact hq

theorem State.stepLine_kept {r0 : State} (s : State) (c : Nat) (x : Ctx) (l source : Nat)
    (hq : Kept r0 s) : Kept r0 (State.stepLine s c x l source).2.2 := by
  unfold State.stepLine
  split
  · split
    · dsimp only
      exact hq
    · extract_lets +onlyGivenNames v0
      dsimp only
      unfold v0
      apply State.baseLine_kept
      exact hq
  · apply State.baseLine_kept
    exact hq

theorem stepLines_kept {r0 : State} (c : Nat) (x : Ctx) (source n l : Nat) (s : State) (hq : Kept r0 s) :
    Kept r0 (stepLines c x source n l s).2.2 := by
  induction n generalizing l s with
  | zero => exact hq
  | succ n ih => exact ih _ _ (State.stepLine_kept _ _ _ _ _ hq)

theorem State.stepRead_kept_of {r0 s t : State} {c : Nat} {x : Ctx} {a n : Nat} {bs : List Byte} {po : Bool}
    (e : s.stepRead c x a n = .ok (bs, po, t)) (hq : Kept r0 s) : Kept r0 t := by
  unfold State.stepRead at e
  split at e
  · cases e; exact hq
  · split at e
    · cases e
    · cases e; exact stepLines_kept _ _ _ _ _ _ hq

theorem State.stepPutLine_kept {r0 : State} (s : State) (c : Nat) (x : Ctx) (l off : Nat) (bs : List Byte) (poison : Bool)
    (hq : Kept r0 s) : Kept r0 (State.stepPutLine s c x l off bs poison) := by
  unfold State.stepPutLine
  extract_lets +onlyGivenNames v0
  extract_lets +onlyGivenNames v1
  have hv1 : Kept r0 v1 := by
    unfold v1
    split
    · exact hq
    · apply State.stepLine_kept
      exact hq
  clear_value v1
  apply State.modAttempt_kept
  exact hv1

theorem stepPut_kept {r0 : State} (c : Nat) (x : Ctx) (poison : Bool) (n a : Nat) (bs : List Byte) (s : State)
    (hq : Kept r0 s) :
    Kept r0 (stepPut c x poison n a bs s) := by
  induction n generalizing a bs s with
  | zero => exact hq
  | succ n ih => exact ih _ _ _ (State.stepPutLine_kept _ _ _ _ _ _ _ hq)

theorem State.stepWrite_kept_of {r0 s t : State} {c : Nat} {x : Ctx} {a : Nat} {bs : List Byte} {po : Bool}
    (e : s.stepWrite c x a bs po = .ok t) (hq : Kept r0 s) : Kept r0 t := by
  unfold State.stepWrite at e
  split at e
  · cases e; exact hq
  · split at e
    · cases e
    · cases e; exact stepPut_kept _ _ _ _ _ _ _ hq

theorem State.copySlot_kept {r0 : State} (s : State) (c handle src dst : Nat) (slots : List SlotMsg)
    (hq : Kept r0 s) : Kept r0 (State.copySlot s c handle src dst slots) := by
  unfold State.copySlot
  split
  · exact hq
  · split
    · exact hq
    · split
      · exact hq
      · extract_lets +onlyGivenNames v0
        extract_lets +onlyGivenNames v1
        extract_lets +onlyGivenNames v2
        refine foldl_kept ?_ ?_
        · exact hq
        · intro s3 x3 hs3
          try dsimp only
          refine foldl_kept ?_ ?_
          · exact hs3
          · intro s4 x4 hs4
            try dsimp only
            split
            · split
              · apply State.tableFault_kept
                exact hs4
              · apply State.pokeData_kept
                refine State.managerRead_kept_of (by assumption) ?_
                exact hs4
            · split
              · apply State.pokeData_kept
                exact hs4
              · exact hs4

theorem State.advance_kept {r0 : State} (s : State) (c handle accepted committed : Nat) (path : List Nat) (slots : List SlotMsg)
    (hq : Kept r0 s) : Kept r0 (State.advance s c handle accepted committed path slots) := by
  unfold State.advance
  extract_lets +onlyGivenNames v0
  extract_lets +onlyGivenNames v1
  have hv1 : Kept r0 v1 := by
    unfold v1
    refine foldl_kept ?_ ?_
    · exact hq
    · intro s2 x2 hs2
      try dsimp only
      split
      · exact hs2
      · apply State.copySlot_kept
        exact hs2
  clear_value v1
  apply State.modCtx_kept
  exact hv1

theorem State.editOpen_kept {r0 : State} (s : State) (c : Nat) (before : List Edit) (handle home maxLen qstep : Nat)
    (hq : Kept r0 s) : Kept r0 (State.editOpen s c before handle home maxLen qstep) := by
  unfold State.editOpen
  extract_lets +onlyGivenNames v0
  extract_lets +onlyGivenNames v1
  have hv1 : Kept r0 v1 := by
    unfold v1
    split
    · apply State.closeTable_kept
      exact hq
    · exact hq
  clear_value v1
  split
  · exact hv1
  · apply State.openTable_kept
    exact hv1

theorem State.editParams_kept {r0 : State} (s : State) (c handle : Nat) (draw : DrawParams) (con : ConParams)
    (hq : Kept r0 s) : Kept r0 (State.editParams s c handle draw con) := by
  unfold State.editParams
  apply State.modCtx_kept
  exact hq

theorem State.markClosing_kept {r0 : State} (s : State) (c handle k : Nat)
    (hq : Kept r0 s) : Kept r0 (State.markClosing s c handle k) := by
  unfold State.markClosing
  apply State.modCtx_kept
  exact hq

theorem State.cutTable_kept {r0 : State} (s : State) (c handle len : Nat)
    (hq : Kept r0 s) : Kept r0 (State.cutTable s c handle len) := by
  unfold State.cutTable
  apply State.modCtx_kept
  exact hq

theorem State.editRelease_kept {r0 : State} (s : State) (c qstep : Nat) (after : List Edit) (e : Edit) (hq : Kept r0 s) :
    Kept r0 (s.editRelease c qstep after e) := by
  unfold State.editRelease
  split
  · exact State.cutTable_kept _ _ _ _ (State.releaseFrom_kept _ _ _ _ _ hq)
  · exact State.cutTable_kept _ _ _ _ (State.releaseFrom_kept _ _ _ _ _ hq)
  · split
    · exact hq
    · exact State.markClosing_kept _ _ _ _ hq
  · exact hq

theorem State.releaseSeq_kept {r0 : State} (s : State) (c handle qstep : Nat) (b : Bound)
    (hq : Kept r0 s) : Kept r0 (State.releaseSeq s c handle qstep b) := by
  unfold State.releaseSeq
  split
  · exact hq
  · extract_lets +onlyGivenNames v0
    have hv0 : Kept r0 v0 := by
      unfold v0
      split
      · exact hq
      · split
        · apply State.dropTable_kept
          exact hq
        · apply State.closeTable_kept
          exact hq
    clear_value v0
    extract_lets +onlyGivenNames v1
    have hv1 : Kept r0 v1 := by
      unfold v1
      exact Kept.upd hv0 rfl
    clear_value v1
    split
    · exact hv1
    · extract_lets +onlyGivenNames v2
      have hv2 : Kept r0 v2 := by
        unfold v2
        apply State.modCtx_kept
        exact hv1
      clear_value v2
      extract_lets +onlyGivenNames v3
      have hv3 : Kept r0 v3 := by
        unfold v3
        exact Kept.upd hv2 rfl
      clear_value v3
      split
      · split
        · exact hv3
        · apply State.complete_kept
          exact hv3
      · exact hv3

theorem State.releaseClosed_kept {r0 : State} (s : State) (c qstep : Nat) (b : Bound)
    (hq : Kept r0 s) : Kept r0 (State.releaseClosed s c qstep b) := by
  unfold State.releaseClosed
  split
  · exact hq
  · extract_lets +onlyGivenNames v0
    refine foldl_kept ?_ ?_
    · exact hq
    · intro s1 x1 hs1
      try dsimp only
      apply State.releaseSeq_kept
      exact hs1

theorem State.failAccept_kept {r0 : State} (s : State) (n : ShipName) (tell status result : Nat) (b : Bound)
    (hq : Kept r0 s) : Kept r0 (State.failAccept s n tell status result b) := by
  unfold State.failAccept
  split
  · exact hq
  · extract_lets +onlyGivenNames v0
    have hv0 : Kept r0 v0 := by
      unfold v0
      apply State.refuseShip_kept
      exact hq
    clear_value v0
    split
    · exact hv0
    · extract_lets +onlyGivenNames v1
      have hv1 : Kept r0 v1 := by
        unfold v1
        split
        · exact hv0
        · apply State.complete_kept
          exact hv0
      clear_value v1
      apply State.closeSeq_kept
      exact hv1

theorem State.editHold_kept {r0 : State} (s : State) (c : Nat) (n : ShipName) (committed run : Nat) (members : List Nat)
    (b : Bound
    )
    (hq : Kept r0 s) : Kept r0 (State.editHold s c n committed run members b) := by
  unfold State.editHold
  extract_lets +onlyGivenNames v0
  have hv0 : Kept r0 v0 := by
    unfold v0
    split
    · exact Kept.upd hq rfl
    · exact hq
  clear_value v0
  extract_lets +onlyGivenNames v1
  have hv1 : Kept r0 v1 := by
    unfold v1
    apply State.modShip_kept
    exact hv0
  clear_value v1
  split
  · exact hv1
  · split
    · refine State.holdShip_kept_of (by assumption) ?_
      exact hv1
    · split
      · apply State.failAccept_kept
        exact hv1
      · apply State.emit_kept
        apply State.dropShip_kept
        exact hv1

theorem State.editMap_kept {r0 : State} (s : State) (c : Nat) (b : Bound) (e : Edit)
    (hq : Kept r0 s) : Kept r0 (s.editMap c b e) := by
  unfold State.editMap
  split
  · split
    · exact hq
    · split
      · apply State.sharePages_kept
        exact hq
      · exact hq
  · apply State.editHold_kept
    exact hq
  · split
    · exact hq
    · apply State.dropShip_kept
      apply State.mapShip_kept
      exact hq
  · extract_lets +onlyGivenNames v0
    extract_lets +onlyGivenNames v1
    have hv1 : Kept r0 v1 := by
      unfold v1
      refine foldl_kept ?_ ?_
      · exact hq
      · intro s2 x2 hs2
        try dsimp only
        apply State.freeHeld_kept
        exact hs2
    clear_value v1
    exact Kept.upd hv1 rfl
  · exact hq

theorem State.editCopy_kept {r0 : State} (s : State) (c : Nat) (e : Edit) (hq : Kept r0 s) : Kept r0 (s.editCopy c e) := by
  unfold State.editCopy
  split
  · split
    · exact hq
    · split
      · exact hq
      · extract_lets +onlyGivenNames v0
        split
        · apply State.startCopy_kept
          exact hq
        · exact hq
  · exact hq

theorem State.faultTables_kept {r0 : State} (s : State) (b : Bound) (hq : Kept r0 s) : Kept r0 (State.faultTables s b) := by
  unfold State.faultTables
  refine foldl_kept ?_ ?_
  · exact Kept.upd hq rfl
  · intro s0 x0 hs0
    try dsimp only
    split
    · exact hs0
    · apply State.teardown_kept
      exact hs0

theorem State.pageItem1_kept {r0 : State} (s : State) (c q : Nat) (e : Edge) (es : List Edit)
    (hq : Kept r0 s) : Kept r0 (State.pageItem1 s c q e es) := by
  unfold State.pageItem1
  extract_lets +onlyGivenNames v0
  have hv0 : Kept r0 v0 := by
    unfold v0
    refine foldl_kept ?_ ?_
    · exact hq
    · intro s1 x1 hs1
      try dsimp only
      split
      · apply State.editOpen_kept
        exact hs1
      · apply State.editParams_kept
        exact hs1
      · exact hs1
  clear_value v0
  extract_lets +onlyGivenNames v2
  have hv2 : Kept r0 v2 := by
    unfold v2
    refine foldl_kept ?_ ?_
    · exact hv0
    · intro s3 x3 hs3
      try dsimp only
      split
      · apply State.windowRelease_kept
        apply State.advance_kept
        exact hs3
      · exact hs3
  clear_value v2
  split
  · exact hv2
  · split
    · refine foldl_kept ?_ ?_
      · exact hv2
      · intro s4 x4 hs4
        try dsimp only
        apply State.resolveTentative_kept
        exact hs4
    · exact hv2

theorem State.pageMaps_kept {r0 : State} (s : State) (c : Nat) (e : Edge) (es : List Edit)
    (hq : Kept r0 s) : Kept r0 (State.pageMaps s c e es) := by
  unfold State.pageMaps
  extract_lets +onlyGivenNames v0
  extract_lets +onlyGivenNames v1
  have hv1 : Kept r0 v1 := by
    unfold v1
    refine foldl_kept ?_ ?_
    · exact hq
    · intro s2 x2 hs2
      try dsimp only
      apply State.editMap_kept
      exact hs2
  clear_value v1
  extract_lets +onlyGivenNames v3
  have hv3 : Kept r0 v3 := by
    unfold v3
    refine foldl_kept ?_ ?_
    · exact hv1
    · intro s4 x4 hs4
      try dsimp only
      split
      · apply State.applyMap_kept
        exact hs4
      · exact hs4
  clear_value v3
  extract_lets +onlyGivenNames v5
  have hv5 : Kept r0 v5 := by
    unfold v5
    refine foldl_kept ?_ ?_
    · exact hv3
    · intro s6 x6 hs6
      try dsimp only
      apply State.editCopy_kept
      exact hs6
  clear_value v5
  apply State.feedCopies_kept
  exact hv5

theorem State.pageItem7_kept {r0 : State} (s : State) (c : Nat) (e : Edge)
    (hq : Kept r0 s) : Kept r0 (State.pageItem7 s c e) := by
  unfold State.pageItem7
  split
  · exact hq
  · extract_lets +onlyGivenNames v0
    extract_lets +onlyGivenNames v1
    have hv1 : Kept r0 v1 := by
      unfold v1
      refine foldl_kept ?_ ?_
      · exact hq
      · intro s2 x2 hs2
        try dsimp only
        apply State.allocRow_kept
        exact hs2
    clear_value v1
    apply State.topUps_kept
    exact hv1

theorem State.pageManager_kept {r0 : State} (s : State) (c : Nat) (e : Edge) (es : List Edit)
    (hq : Kept r0 s) : Kept r0 (State.pageManager s c e es) := by
  unfold State.pageManager
  split
  · exact hq
  · extract_lets +onlyGivenNames v0
    extract_lets +onlyGivenNames v1
    have hv1 : Kept r0 v1 := by
      unfold v1
      apply State.swapCopies_kept
      apply State.pageItem1_kept
      apply State.readTables_kept
      exact hq
    clear_value v1
    extract_lets +onlyGivenNames v2
    have hv2 : Kept r0 v2 := by
      unfold v2
      apply State.releaseClosed_kept
      refine foldl_kept ?_ ?_
      · exact hv1
      · intro s3 x3 hs3
        try dsimp only
        apply State.editRelease_kept
        exact hs3
    clear_value v2
    apply State.dropLent_kept
    apply State.noteKv_kept
    apply State.pageItem7_kept
    apply State.releaseQuarantine_kept
    apply State.pageMaps_kept
    exact hv2

theorem State.pageManagers_kept {r0 : State} (s : State) (e : Edge) (es : List (Nat × Edit))
    (hq : Kept r0 s) : Kept r0 (State.pageManagers s e es) := by
  unfold State.pageManagers
  apply State.faultTables_kept
  refine foldl_kept ?_ ?_
  · exact hq
  · intro s0 x0 hs0
    try dsimp only
    apply State.pageManager_kept
    exact hs0

theorem State.arriveShip_kept {r0 : State} (s : State) (h : Ship) (b : Bound)
    (hq : Kept r0 s) : Kept r0 (State.arriveShip s h b) := by
  unfold State.arriveShip
  split
  · exact hq
  · split
    · exact hq
    · split
      · apply State.failAccept_kept
        exact hq
      · extract_lets +onlyGivenNames v0
        extract_lets +onlyGivenNames v1
        extract_lets +onlyGivenNames v2
        have hv2 : Kept r0 v2 := by
          unfold v2
          apply State.emit_kept
          apply State.edit_kept
          apply State.writePen_kept
          apply State.setSeq_kept
          exact hq
        clear_value v2
        split
        · apply State.modDesc_kept
          exact hv2
        · apply State.complete_kept
          exact hv2
        · exact hv2

theorem State.endShip_kept {r0 : State} (s : State) (h : Ship) (status result : Nat) (b : Bound)
    (hq : Kept r0 s) : Kept r0 (State.endShip s h status result b) := by
  unfold State.endShip
  extract_lets +onlyGivenNames v0
  have hv0 : Kept r0 v0 := by
    unfold v0
    split
    · exact hq
    · apply State.setSeq_kept
      exact hq
  clear_value v0
  apply State.dropShip_kept
  apply State.complete_kept
  exact hv0

theorem State.shipNewsAt_kept {r0 : State} (s : State) (h : Ship) (k : ShipNews) (b : Bound)
    (hq : Kept r0 s) : Kept r0 (State.shipNewsAt s h k b) := by
  unfold State.shipNewsAt
  split
  · apply State.dropShip_kept
    split
    · exact hq
    · apply State.closeSeq_kept
      exact hq
  · apply State.endShip_kept
    exact hq
  · apply State.modShip_kept
    apply State.edit_kept
    exact hq
  · split
    · apply State.arriveShip_kept
      exact hq
    · exact hq
  · apply State.failAccept_kept
    exact hq
  · exact hq

theorem State.shipAt_kept {r0 : State} (s : State) (h : Ship) (b : Bound) (all : Bool)
    (hq : Kept r0 s) : Kept r0 (State.shipAt s h b all) := by
  unfold State.shipAt
  split
  · exact hq
  · refine foldl_kept ?_ ?_
    · apply State.modShip_kept
      exact hq
    · intro s0 x0 hs0
      try dsimp only
      split
      · apply State.shipNewsAt_kept
        exact hs0
      · exact hs0

theorem State.shipsAt_kept {r0 : State} (s : State) (b : Bound) (only : Nat → Bool) (all : Bool)
    (hq : Kept r0 s) : Kept r0 (State.shipsAt s b only all) := by
  unfold State.shipsAt
  refine foldl_kept ?_ ?_
  · exact hq
  · intro s0 x0 hs0
    try dsimp only
    apply State.shipAt_kept
    exact hs0

theorem State.applyDue_kept {r0 : State} (s : State) (e : Edge) (hq : Kept r0 s) : Kept r0 (State.applyDue s e) := by
  unfold State.applyDue
  refine foldl_kept ?_ ?_
  · exact hq
  · intro s0 x0 hs0
    try dsimp only
    split
    · apply State.applyDesc_kept
      exact hs0
    · exact hs0

theorem State.finishMaps_kept {r0 : State} (s : State) (copying : Nat → Option (List (Nat × Nat))) (b : Bound)
    (hq : Kept r0 s) : Kept r0 (State.finishMaps s copying b) := by
  unfold State.finishMaps
  refine foldl_kept ?_ ?_
  · exact hq
  · intro s0 x0 hs0
    try dsimp only
    split
    · exact hs0
    · split
      · split
        · split
          · apply State.complete_kept
            apply State.modCtx_kept
            exact hs0
          · exact hs0
        · split
          · split
            · apply State.complete_kept
              apply State.modCtx_kept
              exact hs0
            · exact hs0
          · split
            · split
              · apply State.complete_kept
                apply State.modCtx_kept
                exact hs0
              · exact hs0
            · split
              · apply State.complete_kept
                apply State.modCtx_kept
                exact hs0
              · exact hs0
      · apply State.modDesc_kept
        exact hs0
      · exact hs0

theorem State.mergeWrites_kept {r0 : State} (s : State) (c : Nat) (a : Attempt)
    (hq : Kept r0 s) : Kept r0 (State.mergeWrites s c a) := by
  unfold State.mergeWrites
  split
  · exact hq
  · refine foldl_kept ?_ ?_
    · exact hq
    · intro s0 x0 hs0
      try dsimp only
      split
      · apply State.writeLine_kept
        exact hs0
      · apply State.writeLine_kept
        apply State.readLine_kept
        exact hs0

theorem State.routeCommit_kept {r0 : State} (s : State) (c : Nat) (r : RouteEv)
    (hq : Kept r0 s) : Kept r0 (State.routeCommit s c r) := by
  unfold State.routeCommit
  extract_lets +onlyGivenNames v0
  extract_lets +onlyGivenNames v1
  have hv1 : Kept r0 v1 := by
    unfold v1
    apply State.bump64_kept
    apply State.bump64_kept
    apply State.bump64_kept
    exact hq
  clear_value v1
  refine foldl_kept ?_ ?_
  · exact hv1
  · intro s2 x2 hs2
    try dsimp only
    apply State.bump64_kept
    exact hs2

theorem State.trainDone_kept {r0 : State} (s : State) (c : Nat) (t : Nat × List Word) (loss : Nat) (b : Bound)
    (hq : Kept r0 s) : Kept r0 (State.trainDone s c t loss b) := by
  unfold State.trainDone
  split
  · exact hq
  · split
    · exact hq
    · apply State.complete_kept
      exact hq

theorem State.failSeq_kept {r0 : State} (s : State) (c handle : Nat) (b : Bound)
    (hq : Kept r0 s) : Kept r0 (State.failSeq s c handle b) := by
  unfold State.failSeq
  extract_lets +onlyGivenNames v0
  have hv0 : Kept r0 v0 := by
    unfold v0
    apply State.bump_kept
    exact hq
  clear_value v0
  extract_lets +onlyGivenNames v1
  have hv1 : Kept r0 v1 := by
    unfold v1
    split
    · exact hq
    · split
      · exact hq
      · extract_lets +onlyGivenNames v2
        have hv2 : Kept r0 v2 := by
          unfold v2
          split
          · apply State.finishGen_kept
            exact hv0
          · apply State.complete_kept
            exact hv0
          · exact hv0
        clear_value v2
        apply State.setSeq_kept
        exact hv2
  clear_value v1
  apply State.markClosing_kept
  exact hv1

theorem State.commitCtx_kept {r0 : State} (s : State) (a : Attempt) (discards failed : List Nat) (loss : Nat) (b : Bound)
    (hq : Kept r0 s) : Kept r0 (State.commitCtx s a discards failed loss b) := by
  unfold State.commitCtx
  extract_lets +onlyGivenNames v0
  extract_lets +onlyGivenNames v1
  extract_lets +onlyGivenNames v2
  extract_lets +onlyGivenNames v3
  have hv3 : Kept r0 v3 := by
    unfold v3
    apply State.mergeWrites_kept
    exact hq
  clear_value v3
  extract_lets +onlyGivenNames v4
  have hv4 : Kept r0 v4 := by
    unfold v4
    apply State.modCtx_kept
    exact hv3
  clear_value v4
  extract_lets +onlyGivenNames v5
  have hv5 : Kept r0 v5 := by
    unfold v5
    apply State.routeCommit_kept
    apply State.qstatCommit_kept
    exact hv4
  clear_value v5
  extract_lets +onlyGivenNames v6
  have hv6 : Kept r0 v6 := by
    unfold v6
    refine foldl_kept ?_ ?_
    · exact hv5
    · intro s7 x7 hs7
      try dsimp only
      apply State.commitRow_kept
      exact hs7
  clear_value v6
  extract_lets +onlyGivenNames v8
  have hv8 : Kept r0 v8 := by
    unfold v8
    refine foldl_kept ?_ ?_
    · exact hv6
    · intro s9 x9 hs9
      try dsimp only
      apply State.failSeq_kept
      exact hs9
  clear_value v8
  split
  · exact hv8
  · apply State.trainDone_kept
    exact hv8

theorem State.releaseStrict_kept {r0 : State} (s : State) (r : StrictRec) (b : Bound)
    (hq : Kept r0 s) : Kept r0 (State.releaseStrict s r b) := by
  unfold State.releaseStrict
  split
  · apply State.postToken_kept
    exact hq
  · apply State.complete_kept
    exact hq

theorem State.freeAreas_kept {r0 : State} (s : State) (hq : Kept r0 s) : Kept r0 s.freeAreas := by
  unfold State.freeAreas
  refine foldl_kept hq fun t e h => ?_
  split
  · exact h
  · exact Kept.upd (State.giveFrames_kept t e.2 h) rfl

theorem State.strictLeave_kept {r0 : State} (s : State) (c n : Nat) (tokens : Bool) (b : Bound)
    (hq : Kept r0 s) : Kept r0 (State.strictLeave s c n tokens b) := by
  unfold State.strictLeave
  extract_lets +onlyGivenNames v0
  refine foldl_kept ?_ ?_
  · exact Kept.upd hq rfl
  · intro s1 x1 hs1
    try dsimp only
    apply State.releaseStrict_kept
    exact hs1

theorem State.faultWhole_kept {r0 : State} (s : State) (c : Nat) (seals : List SealMsg) (b : Bound)
    (hq : Kept r0 s) : Kept r0 (State.faultWhole s c seals b) := by
  unfold State.faultWhole
  split
  · exact hq
  · apply State.teardown_kept
    exact hq

theorem State.commitHome_kept {r0 : State} (s : State) (a : Attempt) (seals : List SealMsg) (e : Edge)
    (hq : Kept r0 s) : Kept r0 (State.commitHome s a seals e) := by
  unfold State.commitHome
  extract_lets +onlyGivenNames v0
  extract_lets +onlyGivenNames v1
  extract_lets +onlyGivenNames v2
  have hv2 : Kept r0 v2 := by
    unfold v2
    split
    · exact Kept.upd hq rfl
    · exact hq
  clear_value v2
  extract_lets +onlyGivenNames v3
  have hv3 : Kept r0 v3 := by
    unfold v3
    apply State.strictLeave_kept
    exact hv2
  clear_value v3
  extract_lets +onlyGivenNames v4
  have hv4 : Kept r0 v4 := by
    unfold v4
    split
    · exact hv3
    · refine foldl_kept ?_ ?_
      · exact hv3
      · intro s5 x5 hs5
        try dsimp only
        apply State.publishRow_kept
        exact hs5
  clear_value v4
  extract_lets +onlyGivenNames v6
  have hv6 : Kept r0 v6 := by
    unfold v6
    apply State.strictLeave_kept
    apply State.faultWhole_kept
    exact hv4
  clear_value v6
  extract_lets +onlyGivenNames v7
  have hv7 : Kept r0 v7 := by
    unfold v7
    split
    · exact hv6
    · apply State.commitCtx_kept
      exact hv6
  clear_value v7
  apply State.shipsAt_kept
  apply State.applyDue_kept
  apply State.freeAreas_kept
  exact hv7

theorem State.commitPages_kept {r0 : State} (s : State) (a : Attempt) (seals : List SealMsg) (others : List (Nat × Edit))
    (e : Edge) (hq : Kept r0 s) : Kept r0 (State.commitPages s a seals others e) := by
  unfold State.commitPages
  extract_lets +onlyGivenNames v0
  extract_lets +onlyGivenNames v1
  extract_lets +onlyGivenNames v2
  extract_lets +onlyGivenNames v3
  extract_lets +onlyGivenNames v4
  have hv4 : Kept r0 v4 := by
    unfold v4
    exact Kept.upd hq rfl
  clear_value v4
  extract_lets +onlyGivenNames v5
  have hv5 : Kept r0 v5 := by
    unfold v5
    split
    · exact hv4
    · refine foldl_kept ?_ ?_
      · exact hv4
      · intro s6 x6 hs6
        try dsimp only
        apply State.markClosing_kept
        exact hs6
  clear_value v5
  extract_lets +onlyGivenNames v7
  have hv7 : Kept r0 v7 := by
    unfold v7
    refine foldl_kept ?_ ?_
    · exact hv5
    · intro s8 x8 hs8
      try dsimp only
      apply State.applySwaps_kept
      exact hs8
  clear_value v7
  apply State.pageManagers_kept
  exact hv7

theorem State.expected_kept {r0 : State} (s : State) (a : Attempt) (hq : Kept r0 s) : Kept r0 (State.expected s a) := by
  unfold State.expected
  extract_lets +onlyGivenNames v0
  extract_lets +onlyGivenNames v1
  extract_lets +onlyGivenNames v2
  have hv2 : Kept r0 v2 := by
    unfold v2
    exact Kept.upd hq rfl
  clear_value v2
  apply State.finishMaps_kept
  apply State.commitPages_kept
  apply State.commitHome_kept
  exact hv2

theorem State.sendSeal_kept {r0 : State} (s : State) (a : Attempt) (pass : Bool)
    (hq : Kept r0 s) : Kept r0 (State.sendSeal s a pass) := by
  unfold State.sendSeal
  extract_lets +onlyGivenNames v0
  extract_lets +onlyGivenNames v1
  have hv1 : Kept r0 v1 := by
    unfold v1
    apply State.modAttempt_kept
    exact hq
  clear_value v1
  apply State.toPeers_kept
  exact hv1

theorem State.sendReports_kept {r0 : State} (s : State) (a : Attempt)
    (hq : Kept r0 s) : Kept r0 (State.sendReports s a) := by
  unfold State.sendReports
  extract_lets +onlyGivenNames v0
  have hv0 : Kept r0 v0 := by
    unfold v0
    apply State.expected_kept
    exact hq
  clear_value v0
  extract_lets +onlyGivenNames v1
  extract_lets +onlyGivenNames v2
  have hv2 : Kept r0 v2 := by
    unfold v2
    refine foldl_kept ?_ ?_
    · exact hq
    · intro s3 x3 hs3
      try dsimp only
      apply State.giveReport_kept
      exact hs3
  clear_value v2
  exact Kept.upd hv2 rfl

theorem State.settleCtx_kept {r0 : State} (s : State) (c : Nat) (b : Bound)
    (hq : Kept r0 s) : Kept r0 (State.settleCtx s c b) := by
  unfold State.settleCtx
  split
  · exact hq
  · extract_lets +onlyGivenNames v0
    have hv0 : Kept r0 v0 := by
      unfold v0
      split
      · apply State.teardown_kept
        exact hq
      · exact hq
    clear_value v0
    apply State.raiseDue_kept
    apply State.startHolds_kept
    apply State.releaseCtx_kept
    exact hv0

theorem State.settleCtxs_kept {r0 : State} (s : State) (b : Bound) (hq : Kept r0 s) : Kept r0 (State.settleCtxs s b) := by
  unfold State.settleCtxs
  refine foldl_kept ?_ ?_
  · exact hq
  · intro s0 x0 hs0
    try dsimp only
    apply State.settleCtx_kept
    exact hs0

theorem State.noteLate_kept {r0 : State} (s : State) (p : Plan) (o : Nat) (hq : Kept r0 s) : Kept r0 (State.noteLate s p o) := by
  unfold State.noteLate
  extract_lets +onlyGivenNames v0
  split
  · exact hq
  · extract_lets +onlyGivenNames v1
    have hv1 : Kept r0 v1 := by
      unfold v1
      apply State.bump_kept
      exact hq
    clear_value v1
    extract_lets +onlyGivenNames v2
    split
    · apply State.setReg_kept
      exact hv1
    · exact hv1

theorem State.departNow_kept {r0 : State} (s : State) (cause step : Nat)
    (hq : Kept r0 s) : Kept r0 (State.departNow s cause step) := by
  unfold State.departNow
  extract_lets +onlyGivenNames v0
  have hv0 : Kept r0 v0 := by
    unfold v0
    apply State.emits_kept
    exact hq
  clear_value v0
  extract_lets +onlyGivenNames v1
  have hv1 : Kept r0 v1 := by
    unfold v1
    apply State.setRegFld_kept
    exact hv0
  clear_value v1
  exact Kept.upd hv1 rfl

theorem State.departDue_kept {r0 : State} (s : State) (step : Nat) (b : Bound)
    (hq : Kept r0 s) : Kept r0 (State.departDue s step b) := by
  unfold State.departDue
  split
  · exact hq
  · apply State.complete_kept
    apply State.departNow_kept
    exact hq

theorem State.noteSig_kept {r0 : State} (s : State) (a : Attempt) (hq : Kept r0 s) : Kept r0 (State.noteSig s a) := by
  unfold State.noteSig
  apply State.setReg64_kept
  apply State.setReg64_kept
  exact hq

theorem State.holdInputs_kept {r0 : State} (s : State) (a : Attempt) (params : List (Nat × DrawParams × ConParams))
    (descs : List Nat)
    (hq : Kept r0 s) : Kept r0 (State.holdInputs s a params descs) := by
  unfold State.holdInputs
  extract_lets +onlyGivenNames v0
  exact Kept.upd hq rfl

theorem State.commitTold_kept {r0 : State} (s : State) (a : Attempt) (keep : List Forwarded)
    (hq : Kept r0 s) : Kept r0 (State.commitTold s a keep) := by
  unfold State.commitTold
  exact hq.opened rfl (opensWf_map (fun d => by unfold Desc.early; split <;> rfl) rfl)

theorem State.dropPast_kept {r0 : State} (s : State) (c n : Nat) (hq : Kept r0 s) : Kept r0 (State.dropPast s c n) := by
  unfold State.dropPast
  exact Kept.upd hq rfl

theorem State.commitLead_kept {r0 : State} (s : State) (seals : List SealMsg)
    (hq : Kept r0 s) : Kept r0 (State.commitLead s seals) := by
  unfold State.commitLead
  extract_lets +onlyGivenNames v0
  extract_lets +onlyGivenNames v1
  have hv1 : Kept r0 v1 := by
    unfold v1
    exact Kept.upd hq rfl
  clear_value v1
  split
  · apply State.takeReports_kept
    exact hv1
  · exact hv1

theorem State.commitBody_kept {r0 : State} (s : State) (a : Attempt) (seals : List SealMsg) (b : Bound)
    (hq : Kept r0 s) : Kept r0 (State.commitBody s a seals b) := by
  unfold State.commitBody
  extract_lets +onlyGivenNames v0
  extract_lets +onlyGivenNames v1
  have hv1 : Kept r0 v1 := by
    unfold v1
    apply State.commitPages_kept
    apply State.commitHome_kept
    exact Kept.upd hq rfl
  clear_value v1
  apply State.holdInputs_kept
  apply State.noteSig_kept
  apply State.commitTold_kept
  apply State.finishMaps_kept
  exact hv1

theorem State.commitStep_kept {r0 : State} (s : State) (a : Attempt) (hq : Kept r0 s) : Kept r0 (State.commitStep s a) := by
  unfold State.commitStep
  extract_lets +onlyGivenNames v0
  extract_lets +onlyGivenNames v1
  extract_lets +onlyGivenNames v2
  extract_lets +onlyGivenNames v3
  have hv3 : Kept r0 v3 := by
    unfold v3
    exact Kept.upd hq rfl
  clear_value v3
  extract_lets +onlyGivenNames v4
  have hv4 : Kept r0 v4 := by
    unfold v4
    apply State.mergeWrites_kept
    exact hv3
  clear_value v4
  extract_lets +onlyGivenNames v5
  have hv5 : Kept r0 v5 := by
    unfold v5
    apply State.freshXlate_kept
    apply State.commitLead_kept
    apply State.dropPast_kept
    apply State.mirrorAll_kept
    apply State.commitBody_kept
    exact hv3
  clear_value v5
  apply State.settleFences_kept
  apply State.departDue_kept
  apply State.runPlaces_kept
  apply State.settleCtxs_kept
  apply State.atBoundary_kept
  apply State.dropJigs_kept
  exact hv5

theorem State.sendRefusal_kept {r0 : State} (s : State) (m : SealMsg) (hq : Kept r0 s) : Kept r0 (State.sendRefusal s m) := by
  unfold State.sendRefusal
  split
  · apply State.toPeers_kept
    exact hq
  · exact Kept.upd hq rfl

theorem State.faultEverywhere_kept {r0 : State} (s : State) (a : Attempt) (b : Bound)
    (hq : Kept r0 s) : Kept r0 (State.faultEverywhere s a b) := by
  unfold State.faultEverywhere
  apply State.faultAt_kept
  apply State.sendRefusal_kept
  exact hq

theorem State.afterRetract_kept {r0 : State} (s : State) (a : Attempt) (lost : Bool) (b : Bound)
    (hq : Kept r0 s) : Kept r0 (State.afterRetract s a lost b) := by
  unfold State.afterRetract
  extract_lets +onlyGivenNames v0
  extract_lets +onlyGivenNames v1
  extract_lets +onlyGivenNames v2
  have hv2 : Kept r0 v2 := by
    unfold v2
    exact Kept.upd hq rfl
  clear_value v2
  split
  · split
    · apply State.faultAt_kept
      exact hv2
    · exact hv2
  · split
    · apply State.faultEverywhere_kept
      exact hv2
    · split
      · apply State.faultEverywhere_kept
        exact hv2
      · split
        · exact Kept.upd hv2 rfl
        · apply State.publish_kept
          exact hv2

theorem State.keepFloor_opens (s : State) : s.keepFloor.opens = s.opens := by
  unfold State.keepFloor
  split <;> rfl

theorem State.refreshPower_opens (s : State) : s.refreshPower.opens = s.opens := by
  unfold State.refreshPower
  extract_lets p b thr w v
  rw [State.keepFloor_opens]
  unfold State.setMreg
  rfl

theorem State.forceCap_opens (s : State) : s.forceCap.opens = s.opens := by
  unfold State.forceCap
  split
  · rfl
  · exact State.refreshPower_opens _

theorem State.takeCap_opens (s : State) : s.takeCap.opens = s.opens := by
  unfold State.takeCap
  split
  · rfl
  · split
    · rfl
    · exact State.forceCap_opens _

theorem State.takeSsc_opens (s : State) : s.takeSsc.opens = s.opens := by
  unfold State.takeSsc
  rw [State.keepFloor_opens]
  rfl

theorem State.atBoundary_opens (s : State) : s.atBoundary.opens = s.opens := by
  unfold State.atBoundary
  rw [State.takeCap_opens, State.takeSsc_opens]

theorem State.dropJigs_opens (s : State) : s.dropJigs.opens = s.opens := rfl

theorem State.stopAttempt_kept {r0 : State} (s : State) (a : Attempt) (b : Bound)
    (hq : Kept r0 s) : Kept r0 (State.stopAttempt s a b) := by
  unfold State.stopAttempt
  extract_lets old v0 src v2 e v4 w7 v7 v8
  have hv0 : Kept r0 v0 := State.discardPlans_kept _ _ hq
  have hv2 : Kept r0 v2 := Kept.upd hv0 rfl
  have hv4 : Kept r0 v4 := foldl_kept hv2 fun _ _ h => State.applySwaps_kept _ _ h
  have hw7 : Kept r0 w7 := State.pageManagers_kept _ _ _ hv4
  have hv7 : Kept r0 v7 := Kept.upd hw7 rfl
  have hv8 : Kept r0 v8 := State.atBoundary_kept _ (State.dropJigs_kept _ hv7)
  have o8 : v8.opens = v7.opens := (State.atBoundary_opens _).trans (State.dropJigs_opens _)
  exact State.mirrorAll_kept _ _ (hv8.opened rfl fun w => opensWf_map (s := v8) (f := Desc.early)
    (fun d => by unfold Desc.early; split <;> rfl) (by rw [o8]) w)

theorem State.retractAttempt_kept {r0 : State} (s : State) (a : Attempt) (node cause : Nat) (lost : Bool)
    (hq : Kept r0 s) : Kept r0 (State.retractAttempt s a node cause lost) := by
  unfold State.retractAttempt
  extract_lets +onlyGivenNames v0
  extract_lets +onlyGivenNames v1
  have hv1 : Kept r0 v1 := by
    unfold v1
    apply State.event_kept
    apply State.stopAttempt_kept
    exact hq
  clear_value v1
  apply State.settleFences_kept
  apply State.runPlaces_kept
  apply State.settleCtxs_kept
  apply State.afterRetract_kept
  exact hv1

theorem State.sendRetract_kept {r0 : State} (s : State) (job step attempt cause first : Nat) (overran : Bool)
    (hq : Kept r0 s) : Kept r0 (State.sendRetract s job step attempt cause first overran) := by
  unfold State.sendRetract
  apply State.bump_kept
  apply State.toPeers_kept
  exact hq

theorem State.failShare_kept {r0 : State} (s : State) (cause : Nat)
    (hq : Kept r0 s) : Kept r0 (State.failShare s cause) := by
  unfold State.failShare
  split
  · exact hq
  · split
    · exact Kept.upd hq rfl
    · extract_lets +onlyGivenNames v0
      have hv0 : Kept r0 v0 := by
        unfold v0
        apply State.sendRetract_kept
        exact hq
      clear_value v0
      extract_lets +onlyGivenNames v1
      have hv1 : Kept r0 v1 := by
        unfold v1
        split
        · exact hv0
        · apply State.sendSeal_kept
          apply State.noteLate_kept
          exact hv0
      clear_value v1
      apply State.retractAttempt_kept
      exact hv1

theorem State.tellFailure_kept {r0 : State} (s : State) (hq : Kept r0 s) : Kept r0 (State.tellFailure s) := by
  unfold State.tellFailure
  extract_lets +onlyGivenNames v0
  have hv0 : Kept r0 v0 := by
    unfold v0
    split
    · refine foldl_kept ?_ ?_
      · exact Kept.upd hq rfl
      · intro s1 x1 hs1
        try dsimp only
        apply State.toPeers_kept
        exact hs1
    · exact hq
  clear_value v0
  split
  · exact hv0
  · split
    · apply State.failShare_kept
      exact hv0
    · exact hv0

theorem State.tellIdle_kept {r0 : State} (s : State) (c : Nat) (y : Ctx) (sent : List (Nat × Edit)) (ended : Bool)
    (hq : Kept r0 s) : Kept r0 (State.tellIdle s c y sent ended) := by
  unfold State.tellIdle
  extract_lets +onlyGivenNames v0
  extract_lets +onlyGivenNames v1
  extract_lets +onlyGivenNames v2
  extract_lets +onlyGivenNames v3
  have hv3 : Kept r0 v3 := by
    unfold v3
    apply State.tellJob_kept
    exact hq
  clear_value v3
  extract_lets +onlyGivenNames v4
  have hv4 : Kept r0 v4 := by
    unfold v4
    split
    · exact Kept.upd hv3 rfl
    · exact hq
  clear_value v4
  extract_lets +onlyGivenNames v5
  have hv5 : Kept r0 v5 := by
    unfold v5
    split
    · exact hv4
    · apply State.toPeers_kept
      exact hv4
  clear_value v5
  split
  · apply State.giveReport_kept
    exact hv5
  · exact hv5

theorem State.idleBoundary_kept {r0 : State} (s : State) (c : Nat) (hq : Kept r0 s) : Kept r0 (State.idleBoundary s c) := by
  unfold State.idleBoundary
  split
  · exact hq
  · extract_lets +onlyGivenNames v0
    have hv0 : Kept r0 v0 := by
      unfold v0
      exact hq
    clear_value v0
    extract_lets +onlyGivenNames v1
    extract_lets +onlyGivenNames v2
    extract_lets +onlyGivenNames v3
    extract_lets +onlyGivenNames v4
    have hv4 : Kept r0 v4 := by
      unfold v4
      refine foldl_kept ?_ ?_
      · exact hq
      · intro s5 x5 hs5
        try dsimp only
        split
        · apply State.applyDesc_kept
          exact hs5
        · exact hs5
    clear_value v4
    extract_lets +onlyGivenNames v6
    have hv6 : Kept r0 v6 := by
      unfold v6
      apply State.shipsAt_kept
      exact hv4
    clear_value v6
    split
    · exact hv6
    · extract_lets +onlyGivenNames v7
      extract_lets +onlyGivenNames v8
      have hv8 : Kept r0 v8 := by
        unfold v8
        exact Kept.upd hv6 rfl
      clear_value v8
      extract_lets +onlyGivenNames v9
      have hv9 : Kept r0 v9 := by
        unfold v9
        apply State.faultTables_kept
        apply State.pageManager_kept
        apply State.applySwaps_kept
        exact hv8
      clear_value v9
      extract_lets +onlyGivenNames v10
      have hv10 : Kept r0 v10 := by
        unfold v10
        apply State.mirrorAll_kept
        apply State.finishMaps_kept
        exact hv9
      clear_value v10
      extract_lets +onlyGivenNames v11
      extract_lets +onlyGivenNames v12
      have hv12 : Kept r0 v12 := by
        unfold v12
        exact Kept.upd hv10 rfl
      clear_value v12
      extract_lets +onlyGivenNames v13
      have hv13 : Kept r0 v13 := by
        unfold v13
        split
        · exact hv12
        · apply State.tellIdle_kept
          exact hv12
      clear_value v13
      apply State.settleFences_kept
      apply State.runPlaces_kept
      apply State.settleCtx_kept
      exact hv13

theorem State.idleApply_kept {r0 : State} (s : State) (hq : Kept r0 s) : Kept r0 (State.idleApply s) := by
  unfold State.idleApply
  extract_lets +onlyGivenNames v0
  have hv0 : Kept r0 v0 := by
    unfold v0
    refine foldl_kept ?_ ?_
    · exact hq
    · intro s1 x1 hs1
      try dsimp only
      apply State.idleBoundary_kept
      exact hs1
  clear_value v0
  split
  · apply State.departDue_kept
    apply State.atBoundary_kept
    apply State.dropJigs_kept
    exact hv0
  · exact hv0

end Sys2Proof.Machine
end

