-- ==== Sys2Proof/Laws/KeptSteps.lean ====
section
/-! SUPPORT. The operations and commands of the links, the fabric, the work of a step, seals and commits, and the links keep the queue, the invariant, the fuses
and the classings (`Kept`). -/

set_option linter.unusedVariables false

namespace Sys2Proof.Machine

theorem State.modLink_kept {r0 : State} (s : State) (p : Nat) (f : FabLink → FabLink)
    (hq : Kept r0 s) : Kept r0 (State.modLink s p f) := by
  unfold State.modLink
  exact Kept.upd hq rfl

theorem State.heard_kept {r0 : State} (s : State) (p : Option Nat) (n : Nat) (hq : Kept r0 s) : Kept r0 (State.heard s p n) := by
  unfold State.heard
  split
  · exact hq
  · apply State.modLink_kept
    exact hq

theorem State.room_kept {r0 : State} (s : State) (p : Option Nat) (vc n : Nat)
    (hq : Kept r0 s) : Kept r0 (State.room s p vc n) := by
  unfold State.room
  split
  · exact hq
  · apply State.modLink_kept
    exact hq

theorem State.heardOn_kept {r0 : State} (s : State) (p : Option Nat) (vc n : Nat)
    (hq : Kept r0 s) : Kept r0 (State.heardOn s p vc n) := by
  unfold State.heardOn
  apply State.room_kept
  apply State.heard_kept
  exact hq

theorem State.heardCtl_kept {r0 : State} (s : State) (len : Nat) (hq : Kept r0 s) : Kept r0 (State.heardCtl s len) := by
  unfold State.heardCtl
  apply State.heardOn_kept
  exact hq

theorem State.heardRsp_kept {r0 : State} (s : State) (len : Nat) (hq : Kept r0 s) : Kept r0 (State.heardRsp s len) := by
  unfold State.heardRsp
  apply State.heardOn_kept
  exact hq

theorem State.walkIn_kept {r0 : State} (s : State) (plane : Option Nat) (c : Nat) (x : Ctx) (ps : List Nat)
    (hq : Kept r0 s) : Kept r0 (State.walkIn s plane c x ps) := by
  unfold State.walkIn
  split
  · exact hq
  · refine foldl_kept ?_ ?_
    · exact hq
    · intro s0 x0 hs0
      try dsimp only
      apply State.cacheEntry_kept
      exact hs0

theorem State.queueMsg_kept {r0 : State} (s : State) (plane : Option Nat) (m : Queued)
    (hq : Kept r0 s) : Kept r0 (State.queueMsg s plane m) := by
  unfold State.queueMsg
  apply State.modLink_kept
  exact hq

theorem State.requeue_kept {r0 : State} (s : State) (ms : List Queued) (from_ : Option Nat)
    (hq : Kept r0 s) : Kept r0 (State.requeue s ms from_) := by
  unfold State.requeue
  refine foldl_kept hq fun s0 x0 hs0 => ?_
  extract_lets p u
  have hu : Kept r0 u := Kept.upd hs0 rfl
  split
  · exact hu
  · exact State.queueMsg_kept _ _ _ hu

theorem State.takeOut_kept {r0 : State} (s : State) (o : Out) (hq : Kept r0 s) : Kept r0 (State.takeOut s o) := by
  unfold State.takeOut
  split
  · exact hq
  · extract_lets _ _ _
    split
    · exact State.requeue_kept _ _ _ hq
    · exact foldl_kept hq fun s0 x0 hs0 => State.queueMsg_kept _ _ _ hs0

theorem State.takeOuts_kept {r0 : State} (s : State) (hq : Kept r0 s) : Kept r0 (State.takeOuts s) := by
  unfold State.takeOuts
  extract_lets +onlyGivenNames v0
  refine foldl_kept ?_ ?_
  · exact Kept.upd hq rfl
  · intro s1 x1 hs1
    try dsimp only
    apply State.takeOut_kept
    exact hs1

theorem State.leavePort_kept {r0 : State} (s : State) (p : Nat) (hq : Kept r0 s) : Kept r0 (State.leavePort s p) := by
  unfold State.leavePort
  extract_lets +onlyGivenNames v0
  apply State.requeue_kept
  apply State.modLink_kept
  exact hq

theorem State.joinPort_kept {r0 : State} (s : State) (hq : Kept r0 s) : Kept r0 (State.joinPort s) := by
  unfold State.joinPort
  split
  · exact hq
  · extract_lets +onlyGivenNames v0
    apply State.requeue_kept
    apply State.modLink_kept
    exact hq

theorem State.sendFlit_kept {r0 : State} (s : State) (p : Nat) (m : Queued)
    (hq : Kept r0 s) : Kept r0 (State.sendFlit s p m) := by
  unfold State.sendFlit
  extract_lets +onlyGivenNames v0
  extract_lets +onlyGivenNames v1
  extract_lets +onlyGivenNames v2
  extract_lets +onlyGivenNames v3
  extract_lets +onlyGivenNames v4
  have hv4 : Kept r0 v4 := by
    unfold v4
    apply State.modLink_kept
    exact hq
  clear_value v4
  apply State.emit_kept
  exact Kept.upd hv4 rfl

theorem sendFlits_kept {r0 : State} (p n : Nat) (s : State) (hq : Kept r0 s) : Kept r0 (sendFlits p n s) := by
  induction n generalizing s with
  | zero => exact hq
  | succ n ih =>
    unfold sendFlits
    split
    · exact hq
    · exact ih _ (State.sendFlit_kept _ _ _ hq)

theorem State.giveBack_kept {r0 : State} (s : State) (p : Nat) (hq : Kept r0 s) : Kept r0 (State.giveBack s p) := by
  unfold State.giveBack
  extract_lets +onlyGivenNames v0
  apply State.emits_kept
  apply State.modLink_kept
  exact hq

theorem State.runLinks_kept {r0 : State} (s : State) (hq : Kept r0 s) : Kept r0 (State.runLinks s) := by
  unfold State.runLinks
  extract_lets +onlyGivenNames v0
  have hv0 : Kept r0 v0 := by
    unfold v0
    apply State.joinPort_kept
    apply State.takeOuts_kept
    exact hq
  clear_value v0
  extract_lets +onlyGivenNames v1
  have hv1 : Kept r0 v1 := by
    unfold v1
    refine foldl_kept ?_ ?_
    · exact hv0
    · intro s2 x2 hs2
      try dsimp only
      split
      · apply sendFlits_kept
        apply State.giveBack_kept
        exact hs2
      · exact hs2
  clear_value v1
  exact Kept.upd hv1 rfl

theorem State.fabRead_kept {r0 : State} (s : State) (h : MsgHdr) (c : Nat) (x : Ctx) (n : Nat) (hq : Kept r0 s) :
    Kept r0 (s.fabRead h c x n).2.2 := by
  unfold State.fabRead
  split
  · rename_i v e
    obtain ⟨bs, po, t⟩ := v
    split at e
    · exact State.stepRead_kept_of e hq
    · exact State.readCtx_kept_of e hq
  · exact hq

theorem State.fabWrite_kept {r0 : State} (s : State) (h : MsgHdr) (c : Nat) (x : Ctx) (bs : List Byte) (load : Bool)
    (hq : Kept r0 s) :
    Kept r0 (s.fabWrite h c x bs load) := by
  unfold State.fabWrite
  split
  · rename_i e
    split at e
    · exact State.stepWrite_kept_of e hq
    · exact State.writeCtx_kept_of e hq
  · exact hq

theorem State.accAdd_kept {r0 : State} (s : State) (layer first : Nat) (states : List Acc)
    (hq : Kept r0 s) : Kept r0 (State.accAdd s layer first states) := by
  unfold State.accAdd
  split
  · exact hq
  · extract_lets +onlyGivenNames v0
    split
    · apply State.failShare_kept
      exact hq
    · extract_lets +onlyGivenNames v1
      apply State.modAttempt_kept
      exact hq

theorem State.groupMarker_kept {r0 : State} (s : State) (layer adds : Nat)
    (hq : Kept r0 s) : Kept r0 (State.groupMarker s layer adds) := by
  unfold State.groupMarker
  apply State.modAttempt_kept
  exact hq

theorem State.forwardMcast_kept {r0 : State} (s : State) (c : Nat) (h : MsgHdr) (load : Bool) (dests : List Nat) (i : Nat)
    (bs : List Byte) (hq : Kept r0 s) : Kept r0 (State.forwardMcast s c h load dests i bs) := by
  unfold State.forwardMcast
  apply State.issueNew_kept
  exact hq

theorem State.fabPerform_kept {r0 : State} (s : State) (r : FabReq) (c : Nat) (x : Ctx)
    (hq : Kept r0 s) : Kept r0 (State.fabPerform s r c x) := by
  unfold State.fabPerform
  extract_lets +onlyGivenNames v0
  split
  · extract_lets +onlyGivenNames v1
    apply State.emit_kept
    unfold v1
    apply State.fabRead_kept
    exact hq
  · apply State.emit_kept
    apply State.fabWrite_kept
    exact hq
  · extract_lets +onlyGivenNames v2
    extract_lets +onlyGivenNames v3
    have hv3 : Kept r0 v3 := by
      unfold v3
      split
      · apply State.fabWrite_kept
        unfold v2
        apply State.fabRead_kept
        exact hq
      · unfold v2
        apply State.fabRead_kept
        exact hq
    clear_value v3
    apply State.emit_kept
    exact hv3
  · extract_lets +onlyGivenNames v4
    extract_lets +onlyGivenNames v5
    have hv5 : Kept r0 v5 := by
      unfold v5
      split
      · apply State.fabWrite_kept
        unfold v4
        apply State.fabRead_kept
        exact hq
      · unfold v4
        apply State.fabRead_kept
        exact hq
    clear_value v5
    apply State.emit_kept
    exact hv5
  · extract_lets +onlyGivenNames v6
    extract_lets +onlyGivenNames v7
    have hv7 : Kept r0 v7 := by
      unfold v7
      split
      · apply State.fabWrite_kept
        unfold v6
        apply State.fabRead_kept
        exact hq
      · unfold v6
        apply State.fabRead_kept
        exact hq
    clear_value v7
    apply State.emit_kept
    exact hv7
  · apply State.emit_kept
    apply State.accAdd_kept
    exact hq
  · apply State.emit_kept
    apply State.groupMarker_kept
    exact hq
  · extract_lets +onlyGivenNames v8
    have hv8 : Kept r0 v8 := by
      unfold v8
      apply State.fabWrite_kept
      exact hq
    clear_value v8
    extract_lets +onlyGivenNames v9
    split
    · apply State.emit_kept
      exact hv8
    · extract_lets +onlyGivenNames v10
      extract_lets +onlyGivenNames v11
      have hv11 : Kept r0 v11 := by
        unfold v11
        refine foldl_kept ?_ ?_
        · exact hv8
        · intro s12 x12 hs12
          try dsimp only
          apply State.forwardMcast_kept
          exact hs12
      clear_value v11
      exact Kept.upd hv11 rfl

theorem State.fabRefuse_kept {r0 : State} (s : State) (r : FabReq) (reason : Nat)
    (hq : Kept r0 s) : Kept r0 (State.fabRefuse s r reason) := by
  unfold State.fabRefuse
  extract_lets +onlyGivenNames v0
  have hv0 : Kept r0 v0 := by
    unfold v0
    apply State.emit_kept
    apply State.bump_kept
    exact hq
  clear_value v0
  split
  · refine foldl_kept ?_ ?_
    · exact hv0
    · intro s1 x1 hs1
      try dsimp only
      apply State.forwardMcast_kept
      exact hs1
  · exact hv0

theorem State.translate_kept {r0 : State} (s : State) (r : FabReq) (plane : Option Nat)
    (hq : Kept r0 s) : Kept r0 (State.translate s r plane) := by
  unfold State.translate
  split
  · split
    · exact hq
    · apply State.walkIn_kept
      exact hq
  · exact hq

theorem State.fabDo_kept {r0 : State} (s : State) (r : FabReq) (hq : Kept r0 s) : Kept r0 (State.fabDo s r) := by
  unfold State.fabDo
  split
  · extract_lets +onlyGivenNames v0
    have hv0 : Kept r0 v0 := by
      unfold v0
      apply State.fabPerform_kept
      exact hq
    clear_value v0
    split
    · exact hv0
    · apply State.mirrorAll_kept
      exact hv0
  · apply State.fabRefuse_kept
    exact hq
  · exact hq

theorem State.receive_kept {r0 : State} (s : State) (plane : Option Nat) (r : FabReq)
    (hq : Kept r0 s) : Kept r0 (State.receive s plane r) := by
  unfold State.receive
  split
  · apply State.room_kept
    apply State.fabDo_kept
    apply State.translate_kept
    exact hq
  · exact Kept.upd hq rfl
  · apply State.room_kept
    apply State.emit_kept
    exact hq

theorem State.unpark_kept {r0 : State} (s : State) (hq : Kept r0 s) : Kept r0 (State.unpark s) := by
  unfold State.unpark
  refine foldl_kept ?_ ?_
  · exact Kept.upd hq rfl
  · intro s0 x0 hs0
    try dsimp only
    apply State.receive_kept
    exact hs0

theorem State.request_kept {r0 : State} (s : State) (r : FabReq) (hq : Kept r0 s) : Kept r0 (State.request s r) := by
  unfold State.request
  extract_lets +onlyGivenNames v0
  apply State.receive_kept
  apply State.heard_kept
  exact hq

theorem State.takeOutst_kept_of {r0 s t : State} {src tag : Nat} {o : Outst} (e : s.takeOutst src tag = some (o, t))
    (hq : Kept r0 s) : Kept r0 t := by
  unfold State.takeOutst at e
  rw [Option.map_eq_some_iff] at e
  obtain ⟨a, -, e⟩ := e
  cases e
  exact Kept.upd hq rfl

theorem State.childAcked_kept {r0 : State} (s : State) (src ptag tag : Nat)
    (hq : Kept r0 s) : Kept r0 (State.childAcked s src ptag tag) := by
  unfold State.childAcked
  split
  · exact hq
  · extract_lets +onlyGivenNames v0
    extract_lets +onlyGivenNames v1
    split
    · apply State.emit_kept
      exact Kept.upd hq rfl
    · exact Kept.upd hq rfl

theorem State.childRefused_kept {r0 : State} (s : State) (src ptag reason : Nat)
    (hq : Kept r0 s) : Kept r0 (State.childRefused s src ptag reason) := by
  unfold State.childRefused
  split
  · apply State.emit_kept
    exact Kept.upd hq rfl
  · exact hq

theorem State.loadAnswered_kept {r0 : State} (s : State) (d : Nat) (hq : Kept r0 s) : Kept r0 (State.loadAnswered s d) := by
  unfold State.loadAnswered
  apply State.finishLoad_kept
  apply State.modLoad_kept
  exact hq

theorem execAck_kept {r0 : State} (src tag : Nat) (s : State)
    {t : State} (e : execAck src tag s = .next t) (hq : Kept r0 s) : Kept r0 t := by
  unfold execAck at e
  cases e
  extract_lets +onlyGivenNames v0
  have hv0 : Kept r0 v0 := by
    unfold v0
    apply State.heardRsp_kept
    exact hq
  clear_value v0
  split
  · exact hv0
  · split
    · apply State.loadAnswered_kept
      refine State.takeOutst_kept_of (by assumption) ?_
      exact hv0
    · apply State.writesDoneIf_kept
      refine State.takeOutst_kept_of (by assumption) ?_
      exact hv0
    · apply State.childAcked_kept
      refine State.takeOutst_kept_of (by assumption) ?_
      exact hv0
    · refine State.takeOutst_kept_of (by assumption) ?_
      exact hv0
    · refine State.takeOutst_kept_of (by assumption) ?_
      exact hv0
    · refine State.takeOutst_kept_of (by assumption) ?_
      exact hv0
    · refine State.takeOutst_kept_of (by assumption) ?_
      exact hv0
    · refine State.takeOutst_kept_of (by assumption) ?_
      exact hv0
    · refine State.takeOutst_kept_of (by assumption) ?_
      exact hv0
    · refine State.takeOutst_kept_of (by assumption) ?_
      exact hv0
    · refine State.takeOutst_kept_of (by assumption) ?_
      exact hv0
    · refine State.takeOutst_kept_of (by assumption) ?_
      exact hv0

theorem State.dropCopy_kept {r0 : State} (s : State) (path : Path) (hq : Kept r0 s) : Kept r0 (State.dropCopy s path) := by
  unfold State.dropCopy
  exact Kept.upd hq rfl

theorem execNack_kept {r0 : State} (src tag reason : Nat) (s : State)
    {t : State} (e : execNack src tag reason s = .next t) (hq : Kept r0 s) : Kept r0 t := by
  unfold execNack at e
  cases e
  extract_lets +onlyGivenNames v0
  have hv0 : Kept r0 v0 := by
    unfold v0
    apply State.heardRsp_kept
    exact hq
  clear_value v0
  split
  · exact hv0
  · extract_lets +onlyGivenNames v1
    split
    · extract_lets +onlyGivenNames v2
      apply State.loadAnswered_kept
      apply State.modLoad_kept
      refine State.takeOutst_kept_of (by assumption) ?_
      exact hv0
    · apply State.childRefused_kept
      refine State.takeOutst_kept_of (by assumption) ?_
      exact hv0
    · apply State.lendRefused_kept
      refine State.takeOutst_kept_of (by assumption) ?_
      exact hv0
    · apply State.fetchFailed_kept
      refine State.takeOutst_kept_of (by assumption) ?_
      exact hv0
    · apply State.joinFailed_kept
      refine State.takeOutst_kept_of (by assumption) ?_
      exact hv0
    · apply State.joinFailed_kept
      refine State.takeOutst_kept_of (by assumption) ?_
      exact hv0
    · apply State.faultCtx_kept
      apply State.dropCopy_kept
      refine State.takeOutst_kept_of (by assumption) ?_
      exact hv0
    · apply State.faultCtx_kept
      refine State.takeOutst_kept_of (by assumption) ?_
      exact hv0
    · apply State.faultCtx_kept
      refine State.takeOutst_kept_of (by assumption) ?_
      exact hv0
    · apply State.faultCtx_kept
      refine State.takeOutst_kept_of (by assumption) ?_
      exact hv0
    · apply State.faultCtx_kept
      refine State.takeOutst_kept_of (by assumption) ?_
      exact hv0
    · apply State.faultCtx_kept
      refine State.takeOutst_kept_of (by assumption) ?_
      exact hv0

theorem State.endPath_kept {r0 : State} (s : State) (path : Path) (status : Nat)
    (hq : Kept r0 s) : Kept r0 (State.endPath s path status) := by
  unfold State.endPath
  split
  · exact hq
  · apply State.runPlaces_kept
    apply State.endPlace_kept
    exact hq

theorem State.childLost_kept {r0 : State} (s : State) (src ptag : Nat)
    (hq : Kept r0 s) : Kept r0 (State.childLost s src ptag) := by
  unfold State.childLost
  extract_lets +onlyGivenNames v0
  apply State.childRefused_kept
  unfold v0
  apply State.free_kept
  exact hq

theorem execRequestTimeout_kept {r0 : State} (tag : Nat) (s : State)
    {t : State} (e : execRequestTimeout tag s = .next t) (hq : Kept r0 s) : Kept r0 t := by
  unfold execRequestTimeout at e
  cases e
  split
  · exact hq
  · split
    · apply State.failShare_kept
      exact hq
    · split
      · extract_lets +onlyGivenNames v0
        apply State.issue_kept
        exact Kept.upd hq rfl
      · extract_lets +onlyGivenNames v1
        have hv1 : Kept r0 v1 := by
          unfold v1
          exact Kept.upd hq rfl
        clear_value v1
        split
        · apply State.loadAnswered_kept
          apply State.modLoad_kept
          exact hv1
        · apply State.shipNews_kept
          exact hv1
        · apply State.endPath_kept
          exact hv1
        · apply State.endPath_kept
          apply State.dropCopy_kept
          exact hv1
        · apply State.childLost_kept
          exact hv1
        · apply State.fetchFailed_kept
          exact hv1
        · apply State.joinFailed_kept
          exact hv1
        · apply State.joinFailed_kept
          exact hv1
        · exact hv1
        · exact hv1
        · exact hv1
        · exact hv1

theorem execRequestPendingSend_kept {r0 : State} (node : Nat) (s : State)
    {t : State} (e : execRequestPendingSend node s = .next t) (hq : Kept r0 s) : Kept r0 t := by
  unfold execRequestPendingSend at e
  cases e
  split
  · exact hq
  · apply State.emit_kept
    exact hq

theorem execPendingMsg_kept {r0 : State} (src kind step attempt : Nat) (s : State)
    {t : State} (e : execPendingMsg src kind step attempt s = .next t) (hq : Kept r0 s) : Kept r0 t := by
  unfold execPendingMsg at e
  cases e
  extract_lets +onlyGivenNames v0
  have hv0 : Kept r0 v0 := by
    unfold v0
    apply State.heardCtl_kept
    exact hq
  clear_value v0
  split
  · exact Kept.upd hv0 rfl
  · split
    · apply State.modAttempt_kept
      exact hv0
    · exact hv0

theorem execRead_kept {r0 : State} (m : MsgHdr) (lines : Nat) (s : State)
    {t : State} (e : execRead m lines s = .next t) (hq : Kept r0 s) : Kept r0 t := by
  unfold execRead at e
  cases e
  apply State.request_kept
  exact hq

theorem execWrite_kept {r0 : State} (m : MsgHdr) (data : List Byte) (s : State)
    {t : State} (e : execWrite m data s = .next t) (hq : Kept r0 s) : Kept r0 t := by
  unfold execWrite at e
  cases e
  apply State.request_kept
  exact hq

theorem execAtomicAdd_kept {r0 : State} (m : MsgHdr) (operand : Nat) (s : State)
    {t : State} (e : execAtomicAdd m operand s = .next t) (hq : Kept r0 s) : Kept r0 t := by
  unfold execAtomicAdd at e
  cases e
  apply State.request_kept
  exact hq

theorem execAtomicSwap_kept {r0 : State} (m : MsgHdr) (operand : Nat) (s : State)
    {t : State} (e : execAtomicSwap m operand s = .next t) (hq : Kept r0 s) : Kept r0 t := by
  unfold execAtomicSwap at e
  cases e
  apply State.request_kept
  exact hq

theorem execAtomicCompareAndSwap_kept {r0 : State} (m : MsgHdr) (compare new : Nat) (s : State)
    {t : State} (e : execAtomicCompareAndSwap m compare new s = .next t) (hq : Kept r0 s) : Kept r0 t := by
  unfold execAtomicCompareAndSwap at e
  cases e
  apply State.request_kept
  exact hq

theorem execAccAdd_kept {r0 : State} (m : MsgHdr) (states : List (List Byte)) (s : State)
    {t : State} (e : execAccAdd m states s = .next t) (hq : Kept r0 s) : Kept r0 t := by
  unfold execAccAdd at e
  cases e
  apply State.request_kept
  exact hq

theorem execMcastWrite_kept {r0 : State} (m : MsgHdr) (loadSet : Bool) (dests : List Nat) (index : Nat) (data : List Byte)
    (s : State) {t : State} (e : execMcastWrite m loadSet dests index data s = .next t) (hq : Kept r0 s) : Kept r0 t := by
  unfold execMcastWrite at e
  cases e
  apply State.request_kept
  exact hq

theorem execGroupEnd_kept {r0 : State} (m : MsgHdr) (layer expert member adds : Nat) (s : State)
    {t : State} (e : execGroupEnd m layer expert member adds s = .next t) (hq : Kept r0 s) : Kept r0 t := by
  unfold execGroupEnd at e
  cases e
  apply State.request_kept
  exact hq

theorem execShipOffer_kept {r0 : State} (n : ShipName) (committed : Nat) (pending : Option (Nat × Bool)) (layout : List Word)
    (job : Nat) (pen : List PenEntry) (members : List Nat) (s : State) {t : State} (e : execShipOffer n committed pending layout job pen members s = .next t)
    (hq : Kept r0 s) : Kept r0 t := by
  unfold execShipOffer at e
  cases e
  extract_lets +onlyGivenNames v0
  have hv0 : Kept r0 v0 := by
    unfold v0
    apply State.heardCtl_kept
    exact hq
  clear_value v0
  split
  · apply State.emit_kept
    exact hv0
  · extract_lets +onlyGivenNames v1
    have hv1 : Kept r0 v1 := by
      unfold v1
      apply State.modShip_kept
      exact hv0
    clear_value v1
    extract_lets +onlyGivenNames v2
    apply State.shipNews_kept
    exact hv1

theorem execShipGrant_kept {r0 : State} (n : ShipName) (node : Nat) (logical pages : List Nat) (s : State)
    {t : State} (e : execShipGrant n node logical pages s = .next t) (hq : Kept r0 s) : Kept r0 t := by
  unfold execShipGrant at e
  cases e
  apply State.writeShip_kept
  apply State.heardCtl_kept
  exact hq

theorem execWritesDone_kept {r0 : State} (n : ShipName) (member pages : Nat) (s : State)
    {t : State} (e : execWritesDone n member pages s = .next t) (hq : Kept r0 s) : Kept r0 t := by
  unfold execWritesDone at e
  cases e
  apply State.noteWrites_kept
  apply State.heardCtl_kept
  exact hq

theorem execShipDone_kept {r0 : State} (n : ShipName) (pages : Nat) (s : State)
    {t : State} (e : execShipDone n pages s = .next t) (hq : Kept r0 s) : Kept r0 t := by
  unfold execShipDone at e
  cases e
  apply State.shipNews_kept
  apply State.modShip_kept
  apply State.heardCtl_kept
  exact hq

theorem execShipAccepted_kept {r0 : State} (n : ShipName) (s : State)
    {t : State} (e : execShipAccepted n s = .next t) (hq : Kept r0 s) : Kept r0 t := by
  unfold execShipAccepted at e
  cases e
  apply State.shipNews_kept
  apply State.heardCtl_kept
  exact hq

theorem execShipRefused_kept {r0 : State} (n : ShipName) (status : Nat) (s : State)
    {t : State} (e : execShipRefused n status s = .next t) (hq : Kept r0 s) : Kept r0 t := by
  unfold execShipRefused at e
  cases e
  extract_lets +onlyGivenNames v0
  have hv0 : Kept r0 v0 := by
    unfold v0
    apply State.heardCtl_kept
    exact hq
  clear_value v0
  apply State.shipNews_kept
  exact hv0

theorem execShipTimeout_kept {r0 : State} (n : ShipName) (s : State)
    {t : State} (e : execShipTimeout n s = .next t) (hq : Kept r0 s) : Kept r0 t := by
  unfold execShipTimeout at e
  cases e
  extract_lets +onlyGivenNames v0
  extract_lets +onlyGivenNames v1
  unfold v1
  split
  · apply State.shipNews_kept
    split
    · apply State.shipNews_kept
      exact hq
    · exact hq
  · split
    · apply State.shipNews_kept
      exact hq
    · exact hq

theorem execAcceptTimeout_kept {r0 : State} (ctx : Fin 64) (handle : Nat) (s : State)
    {t : State} (e : execAcceptTimeout ctx handle s = .next t) (hq : Kept r0 s) : Kept r0 t := by
  unfold execAcceptTimeout at e
  cases e
  split
  · exact hq
  · apply State.shipNews_kept
    exact hq

theorem State.setSramMask_kept {r0 : State} (s : State) (m : Sram) (w n : Nat)
    (hq : Kept r0 s) : Kept r0 (State.setSramMask s m w n) := by
  unfold State.setSramMask
  split
  · exact Kept.upd hq rfl
  · exact Kept.upd hq rfl

theorem State.setSramPoison_kept {r0 : State} (s : State) (m : Sram) (b : Bool)
    (hq : Kept r0 s) : Kept r0 (State.setSramPoison s m b) := by
  unfold State.setSramPoison
  split
  · exact Kept.upd hq rfl
  · exact Kept.upd hq rfl

theorem State.sramPut_kept {r0 : State} (s : State) (m : Sram) (bs : List Byte) (poison : Bool) (hq : Kept r0 s) :
    Kept r0 (State.sramPut s m bs poison) := by
  have key : ∀ {b : Bool} {l : List (Nat × Byte)} {k : Nat}, Memory.wf l = true →
      Memory.wf (if b then pokeBytes l k (bs.take 128) else l) = true := by
    intro b l k w
    split
    · exact Memory.wf_pokeBytes w
    · exact w
  unfold State.sramPut
  extract_lets ok
  split
  · exact hq.mem rfl id id key id (fun _ m _ => m)
  · exact hq.mem rfl id key id id (fun _ m _ => m)

theorem State.sramError_kept {r0 : State} (s : State) (m : Sram) (corrected : Bool)
    (hq : Kept r0 s) : Kept r0 (State.sramError s m corrected) := by
  unfold State.sramError
  extract_lets +onlyGivenNames v0
  split
  · extract_lets +onlyGivenNames v1
    have hv1 : Kept r0 v1 := by
      unfold v1
      apply State.bump_kept
      exact hq
    clear_value v1
    split
    · apply State.correctedEvent_kept
      exact hv1
    · apply State.logEntry_kept
      exact hv1
  · apply State.logFault_kept
    apply State.bump_kept
    exact hq

theorem State.sramErrors_kept {r0 : State} (s : State) (m : Sram) (e : Nat × Bool)
    (hq : Kept r0 s) : Kept r0 (State.sramErrors s m e) := by
  unfold State.sramErrors
  extract_lets +onlyGivenNames v0
  have hv0 : Kept r0 v0 := by
    unfold v0
    refine foldl_kept ?_ ?_
    · exact hq
    · intro s1 x1 hs1
      try dsimp only
      apply State.sramError_kept
      exact hs1
  clear_value v0
  split
  · apply State.sramError_kept
    exact hv0
  · exact hv0

theorem State.sramRead_kept {r0 : State} (s : State) (m : Sram) (hq : Kept r0 s) : Kept r0 (State.sramRead s m).2 := by
  unfold State.sramRead
  split
  · dsimp only
    exact hq
  · extract_lets +onlyGivenNames v0
    extract_lets +onlyGivenNames v1
    extract_lets +onlyGivenNames v2
    have hv2 : Kept r0 v2 := by
      unfold v2
      split
      · apply State.setSramPoison_kept
        exact hq
      · exact hq
    clear_value v2
    dsimp only
    apply State.sramErrors_kept
    exact hv2

theorem State.sramRead_kept_of {r0 : State} (s : State) (m : Sram) {y0 : Option (List Byte × Bool)} {t1 : State}
    (e1 : State.sramRead s m = (y0, t1))
    (hq : Kept r0 s) : Kept r0 t1 := by
  have h1 := State.sramRead_kept s m hq
  rw [e1] at h1
  exact h1

theorem sramReads_kept {r0 : State} (f : Nat → Sram) (n l : Nat) (s : State)
    (hq : Kept r0 s) : Kept r0 (sramReads f n l s).2.2 := by
  induction n generalizing l s with
  | zero => exact hq
  | succ n ih => exact ih _ _ (State.sramRead_kept _ _ hq)

theorem State.sramWrites_kept {r0 : State} (s : State) (f : Nat → Sram) (line : Nat) (bs : List Byte) (poison : Bool)
    (hq : Kept r0 s) : Kept r0 (State.sramWrites s f line bs poison) := by
  unfold State.sramWrites
  extract_lets +onlyGivenNames v0
  refine foldl_kept ?_ ?_
  · exact hq
  · intro s1 x1 hs1
    try dsimp only
    apply State.sramPut_kept
    exact hs1

theorem State.loadStage_kept {r0 : State} (s : State) (c : Nat) (x : Ctx) (p : Plan)
    (hq : Kept r0 s) : Kept r0 (State.loadStage s c x p) := by
  unfold State.loadStage
  extract_lets +onlyGivenNames v0
  extract_lets +onlyGivenNames v1
  extract_lets +onlyGivenNames v2
  extract_lets +onlyGivenNames v3
  have hv3 : Kept r0 v3 := by
    unfold v3
    apply State.setPlanes_kept
    apply State.setCtx_kept
    exact Kept.upd hq rfl
  clear_value v3
  extract_lets +onlyGivenNames v4
  have hv4 : Kept r0 v4 := by
    unfold v4
    refine foldl_kept ?_ ?_
    · exact hv3
    · intro s5 x5 hs5
      try dsimp only
      apply State.allocRow_kept
      exact hs5
  clear_value v4
  extract_lets +onlyGivenNames v6
  extract_lets +onlyGivenNames v7
  extract_lets +onlyGivenNames v8
  apply State.emits_kept
  exact Kept.upd hv4 rfl

theorem State.setBuf_kept {r0 : State} (s : State) (b : Nat) (v : Buf) (hq : Kept r0 s) : Kept r0 (State.setBuf s b v) := by
  unfold State.setBuf
  apply State.modAttempt_kept
  exact hq

theorem State.setFormed_kept {r0 : State} (s : State) (b desc : Nat) (hq : Kept r0 s) : Kept r0 (State.setFormed s b desc) := by
  unfold State.setFormed
  apply State.modAttempt_kept
  exact hq

theorem State.putRow_kept {r0 : State} (s : State) (b i : Nat) (r : FRow)
    (hq : Kept r0 s) : Kept r0 (State.putRow s b i r) := by
  unfold State.putRow
  apply State.setBuf_kept
  exact hq

theorem State.putCols_kept {r0 : State} (s : State) (b i k : Nat) (vs : List (Word × Bool))
    (hq : Kept r0 s) : Kept r0 (State.putCols s b i k vs) := by
  unfold State.putCols
  extract_lets +onlyGivenNames v0
  apply State.putRow_kept
  exact hq

theorem State.addEvents_kept {r0 : State} (s : State) (e : QEvents) (hq : Kept r0 s) : Kept r0 (State.addEvents s e) := by
  unfold State.addEvents
  apply State.modAttempt_kept
  exact hq

theorem State.sign_kept {r0 : State} (s : State) (line : Nat) (bs : List Byte)
    (hq : Kept r0 s) : Kept r0 (State.sign s line bs) := by
  unfold State.sign
  apply State.modAttempt_kept
  exact hq

theorem State.signWrite_kept {r0 : State} (s : State) (c : Nat) (x : Ctx) (a n : Nat)
    (hq : Kept r0 s) : Kept r0 (State.signWrite s c x a n) := by
  unfold State.signWrite
  refine foldl_kept ?_ ?_
  · exact hq
  · intro s0 x0 hs0
    try dsimp only
    apply State.sign_kept
    exact hs0

theorem State.workWrite_kept {r0 : State} (s : State) (c : Nat) (x : Ctx) (a : Nat) (bs : List Byte) (poison : Bool)
    (hq : Kept r0 s) :
    Kept r0 (s.workWrite c x a bs poison) := by
  unfold State.workWrite
  split
  · rename_i e
    have h1 := State.stepWrite_kept_of e hq
    split
    · exact h1
    · exact State.signWrite_kept _ _ _ _ _ h1
  · exact State.stepFault_kept _ _ _ hq

theorem State.workRead_kept {r0 : State} (s : State) (c : Nat) (x : Ctx) (a n : Nat) (hq : Kept r0 s) :
    Kept r0 (s.workRead c x a n).2 := by
  unfold State.workRead
  split
  · rename_i v e
    obtain ⟨bs, po, t⟩ := v
    exact State.stepRead_kept_of e hq
  · exact State.stepFault_kept _ _ _ hq

theorem State.workRead_kept_of {r0 : State} (s : State) (c : Nat) (x : Ctx) (a n : Nat) {y0 : Option
    (List Byte × Bool)} {t1 : State} (e1 : State.workRead s c x a n = (y0, t1))
    (hq : Kept r0 s) : Kept r0 t1 := by
  have h1 := State.workRead_kept s c x a n hq
  rw [e1] at h1
  exact h1

theorem workLines_kept {r0 : State} (c : Nat) (x : Ctx) (n : Nat) (a : Nat) (s : State)
    (hq : Kept r0 s) : Kept r0 (workLines c x n a s).2 := by
  induction n generalizing a s with
  | zero => exact hq
  | succ n ih =>
    unfold workLines
    split
    · exact State.workRead_kept_of _ _ _ _ _ (by assumption) hq
    · rename_i e
      have hs := State.workRead_kept_of _ _ _ _ _ e hq
      split
      · rename_i g
        have h := ih (a + 128) _ hs
        rw [g] at h
        exact h
      · rename_i g
        have h := ih (a + 128) _ hs
        rw [g] at h
        exact h

theorem State.workTable_kept {r0 : State} (s : State) (c : Nat) (x : Ctx) (a n : Nat)
    (hq : Kept r0 s) : Kept r0 (State.workTable s c x a n).2 := by
  unfold State.workTable
  split
  · dsimp only
    split
    · apply State.stepFault_kept
      refine State.stepRead_kept_of (by assumption) ?_
      exact hq
    · refine State.stepRead_kept_of (by assumption) ?_
      exact hq
  · dsimp only
    apply State.stepFault_kept
    exact hq

theorem State.workTable_kept_of {r0 : State} (s : State) (c : Nat) (x : Ctx) (a n : Nat) {y0 : Option (List Byte)} {t1 : State}
    (e1 : State.workTable s c x a n = (y0, t1))
    (hq : Kept r0 s) : Kept r0 t1 := by
  have h1 := State.workTable_kept s c x a n hq
  rw [e1] at h1
  exact h1

theorem State.consumes_kept {r0 : State} (s : State) (poison : Bool)
    (hq : Kept r0 s) : Kept r0 (State.consumes s poison) := by
  unfold State.consumes
  split
  · apply State.stepFault_kept
    exact hq
  · exact hq

theorem State.wait_kept {r0 : State} (s : State) (hq : Kept r0 s) : Kept r0 (State.wait s) := by
  unfold State.wait
  apply State.modAttempt_kept
  exact hq

theorem State.putTable_kept {r0 : State} (s : State) (hq : Kept r0 s) : Kept r0 (State.putTable s) := by
  unfold State.putTable
  split
  · exact hq
  · extract_lets +onlyGivenNames v0
    refine foldl_kept ?_ ?_
    · exact hq
    · intro s1 x1 hs1
      try dsimp only
      apply State.sramWrites_kept
      exact hs1

theorem State.putSnapshot_kept {r0 : State} (s : State) (hq : Kept r0 s) : Kept r0 (State.putSnapshot s) := by
  unfold State.putSnapshot
  split
  · exact hq
  · extract_lets +onlyGivenNames v0
    refine foldl_kept ?_ ?_
    · exact hq
    · intro s1 x1 hs1
      try dsimp only
      apply State.sramWrites_kept
      exact hs1

theorem State.readBatch_kept {r0 : State} (s : State) (die line : Nat)
    (hq : Kept r0 s) : Kept r0 (State.readBatch s die line) := by
  unfold State.readBatch
  split
  · apply State.consumes_kept
    refine State.sramRead_kept_of _ _ (by assumption) ?_
    exact hq
  · refine State.sramRead_kept_of _ _ (by assumption) ?_
    exact hq

theorem State.readLenRow_kept {r0 : State} (s : State) (a : Attempt) (die seq : Nat)
    (hq : Kept r0 s) : Kept r0 (State.readLenRow s a die seq) := by
  unfold State.readLenRow
  apply State.readBatch_kept
  exact hq

theorem State.readSnapshot_kept {r0 : State} (s : State) (a : Attempt) (die key : Nat)
    (hq : Kept r0 s) : Kept r0 (State.readSnapshot s a die key) := by
  unfold State.readSnapshot
  split
  · exact hq
  · apply State.readBatch_kept
    exact hq

theorem State.readBitmap_kept {r0 : State} (s : State) (c : Nat) (x : Ctx) (addr : Nat)
    (hq : Kept r0 s) : Kept r0 (State.readBitmap s c x addr).2 := by
  unfold State.readBitmap
  extract_lets +onlyGivenNames v0
  extract_lets +onlyGivenNames v1
  dsimp only
  unfold v1
  apply State.workTable_kept
  exact hq

theorem State.readBitmap_kept_of {r0 : State} (s : State) (c : Nat) (x : Ctx) (addr : Nat) {y0 : Option (List Bool)} {t1 : State}
    (e1 : State.readBitmap s c x addr = (y0, t1))
    (hq : Kept r0 s) : Kept r0 t1 := by
  have h1 := State.readBitmap_kept s c x addr hq
  rw [e1] at h1
  exact h1

theorem State.loadBitmaps_kept {r0 : State} (s : State) (c : Nat) (x : Ctx) (rows : List LenRow)
    (hq : Kept r0 s) : Kept r0 (State.loadBitmaps s c x rows) := by
  unfold State.loadBitmaps
  refine foldl_kept ?_ ?_
  · exact hq
  · intro s0 x0 hs0
    try dsimp only
    split
    · exact hs0
    · split
      · apply State.modAttempt_kept
        refine State.readBitmap_kept_of _ _ _ _ (by assumption) ?_
        exact hs0
      · refine State.readBitmap_kept_of _ _ _ _ (by assumption) ?_
        exact hs0

theorem State.loadImage_kept {r0 : State} (s : State) (x : Ctx) (p : Plan)
    (hq : Kept r0 s) : Kept r0 (State.loadImage s x p).2 := by
  unfold State.loadImage
  split
  · dsimp only
    exact hq
  · extract_lets +onlyGivenNames v0
    dsimp only
    apply State.consumes_kept
    unfold v0
    apply State.readImage_kept
    exact hq

theorem State.loadTables_kept {r0 : State} (s : State) (c : Nat) (x : Ctx)
    (hq : Kept r0 s) : Kept r0 (State.loadTables s c x) := by
  unfold State.loadTables
  extract_lets +onlyGivenNames v0
  have hv0 : Kept r0 v0 := by
    unfold v0
    apply State.readTables_kept
    exact Kept.upd hq rfl
  clear_value v0
  refine foldl_kept ?_ ?_
  · exact Kept.upd hv0 rfl
  · intro s1 x1 hs1
    try dsimp only
    apply State.stepFault_kept
    exact hs1

theorem readRecs_kept {r0 : State} (c : Nat) (x : Ctx) (n a : Nat) (s : State)
    (hq : Kept r0 s) : Kept r0 (readRecs c x n a s).2 := by
  induction n generalizing a s with
  | zero => exact hq
  | succ n ih =>
    unfold readRecs
    split
    · exact State.workRead_kept_of _ _ _ _ _ (by assumption) hq
    · exact ih _ _ (State.workRead_kept_of _ _ _ _ _ (by assumption) hq)

theorem State.loadLayers_kept {r0 : State} (s : State) (c : Nat) (x : Ctx)
    (hq : Kept r0 s) : Kept r0 (State.loadLayers s c x).2 := by
  unfold State.loadLayers
  apply readRecs_kept
  exact hq

theorem State.streamPages_kept {r0 : State} (s : State) (a : Attempt) (hq : Kept r0 s) : Kept r0 (State.streamPages s a) := by
  unfold State.streamPages
  split
  · refine foldl_kept ?_ ?_
    · exact hq
    · intro s0 x0 hs0
      try dsimp only
      refine foldl_kept ?_ ?_
      · exact hs0
      · intro s1 x1 hs1
        try dsimp only
        apply State.cacheEntry_kept
        exact hs1
  · exact hq

theorem State.streamJig_kept {r0 : State} (s : State) (hq : Kept r0 s) : Kept r0 (State.streamJig s) := by
  unfold State.streamJig
  split
  · exact hq
  · extract_lets +onlyGivenNames v0
    extract_lets +onlyGivenNames v1
    extract_lets +onlyGivenNames v2
    have hv2 : Kept r0 v2 := by
      unfold v2
      apply State.streamPages_kept
      exact hq
    clear_value v2
    exact Kept.upd hv2 rfl

theorem State.workLoad_kept {r0 : State} (s : State) (a : Attempt) (x : Ctx)
    (hq : Kept r0 s) : Kept r0 (State.workLoad s a x) := by
  unfold State.workLoad
  split
  · apply State.wait_kept
    exact hq
  · extract_lets +onlyGivenNames v0
    extract_lets +onlyGivenNames v1
    have hv1 : Kept r0 v1 := by
      unfold v1
      apply State.loadTables_kept
      exact hq
    clear_value v1
    extract_lets +onlyGivenNames v2
    extract_lets +onlyGivenNames v3
    extract_lets +onlyGivenNames v4
    have hv4 : Kept r0 v4 := by
      unfold v4
      refine foldl_kept ?_ ?_
      · unfold v2
        apply State.loadLayers_kept
        exact hv1
      · intro s5 x5 hs5
        try dsimp only
        split
        · apply State.stepFault_kept
          split
          · apply State.stepFault_kept
            exact hs5
          · exact hs5
        · split
          · apply State.stepFault_kept
            exact hs5
          · exact hs5
    clear_value v4
    extract_lets +onlyGivenNames v6
    extract_lets +onlyGivenNames v7
    extract_lets +onlyGivenNames v8
    have hv8 : Kept r0 v8 := by
      unfold v8
      apply State.modAttempt_kept
      unfold v6
      apply State.loadImage_kept
      exact hv4
    clear_value v8
    apply State.streamJig_kept
    apply State.putSnapshot_kept
    apply State.putTable_kept
    apply State.loadBitmaps_kept
    exact hv8

theorem State.serviceOut_kept {r0 : State} (s : State) (src die off status : Nat) (bs : List Byte) (poison : Bool)
    (hq : Kept r0 s) : Kept r0 (State.serviceOut s src die off status bs poison) := by
  unfold State.serviceOut
  apply State.emit_kept
  exact hq

theorem State.serviceRead_kept {r0 : State} (s : State) (src die off : Nat)
    (hq : Kept r0 s) : Kept r0 (State.serviceRead s src die off) := by
  unfold State.serviceRead
  split
  · apply State.serviceOut_kept
    exact hq
  · split
    · apply State.serviceOut_kept
      refine State.sramRead_kept_of _ _ (by assumption) ?_
      exact hq
    · apply State.serviceOut_kept
      refine State.sramRead_kept_of _ _ (by assumption) ?_
      exact hq

theorem State.serviceWrite_kept {r0 : State} (s : State) (src die off : Nat) (bs : List Byte) (poison : Bool)
    (hq : Kept r0 s) : Kept r0 (State.serviceWrite s src die off bs poison) := by
  unfold State.serviceWrite
  split
  · apply State.serviceOut_kept
    exact hq
  · split
    · apply State.serviceOut_kept
      exact hq
    · apply State.serviceOut_kept
      apply State.sramPut_kept
      exact hq

theorem State.portLine_kept {r0 : State} (s : State) (c : Nat) (x : Ctx) (die p line : Nat)
    (hq : Kept r0 s) : Kept r0 (State.portLine s c x die p line).2 := by
  unfold State.portLine
  split
  · apply State.sramRead_kept
    exact hq
  · apply State.workRead_kept
    exact hq
  · dsimp only
    exact hq
  · dsimp only
    exact hq
  · dsimp only
    exact hq

theorem State.portLine_kept_of {r0 : State} (s : State) (c : Nat) (x : Ctx) (die p line : Nat) {y0 : Option
    (List Byte × Bool)} {t1 : State} (e1 : State.portLine s c x die p line = (y0, t1))
    (hq : Kept r0 s) : Kept r0 t1 := by
  have h1 := State.portLine_kept s c x die p line hq
  rw [e1] at h1
  exact h1

theorem State.putBuffer_kept {r0 : State} (s : State) (k : Nat) (bs : List Byte) (poison : Bool) (hq : Kept r0 s) :
    Kept r0 (State.putBuffer s k bs poison) :=
  hq.mem rfl id id id Memory.wf_pokeBytes (fun _ m _ => m)

theorem State.putPortLine_kept {r0 : State} (s : State) (c : Nat) (x : Ctx) (die p line : Nat) (bs : List Byte) (poison : Bool)
    (hq : Kept r0 s) : Kept r0 (State.putPortLine s c x die p line bs poison) := by
  unfold State.putPortLine
  split
  · apply State.sramPut_kept
    exact hq
  · apply State.workWrite_kept
    exact hq
  · split
    · apply State.putBuffer_kept
      exact hq
    · split
      · exact hq
      · apply State.putBuffer_kept
        exact hq
  · exact hq
  · exact hq

theorem State.claim_kept_of {r0 s t : State} {want : Attempt → Move → Bool} (e : s.claim want = some t)
    (hq : Kept r0 s) : Kept r0 t := by
  unfold State.claim at e
  split at e
  · cases e
  · obtain ⟨m, -, rfl⟩ := Option.map_eq_some_iff.1 e
    exact State.modAttempt_kept _ _ hq

theorem hbmLines_kept {r0 : State} (c : Nat) (x : Ctx) (want : Nat → Attempt → Move → Bool) (n l : Nat) (s : State)
    (hq : Kept r0 s) :
    Kept r0 (hbmLines c x want n l s).2 := by
  induction n generalizing l s with
  | zero => exact hq
  | succ n ih =>
    unfold hbmLines
    split
    · exact hq
    · rename_i e
      have hc := State.claim_kept_of e hq
      split
      · exact State.workRead_kept_of _ _ _ _ _ (by assumption) hc
      · rename_i e
        have hs := State.workRead_kept_of _ _ _ _ _ e hc
        have h := ih (l + 1) _ hs
        split
        · rename_i g
          rw [g] at h
          exact h
        · rename_i g
          rw [g] at h
          exact h

theorem hbmLines_kept_of {r0 : State} (c : Nat) (x : Ctx) (want : Nat → Attempt → Move → Bool) (n l : Nat)
    (s : State) {y} {t : State}
    (e : hbmLines c x want n l s = (y, t)) (hq : Kept r0 s) : Kept r0 t := by
  have h := hbmLines_kept c x want n l s hq
  rw [e] at h
  exact h

theorem coreLines_kept {r0 : State} (die core : Nat) (n : Nat) (l : Nat) (s : State)
    (hq : Kept r0 s) : Kept r0 (coreLines die core n l s).2 := by
  induction n generalizing l s with
  | zero => exact hq
  | succ n ih =>
    unfold coreLines
    split
    · exact State.sramRead_kept_of _ _ (by assumption) hq
    · rename_i e
      have hs := State.sramRead_kept_of _ _ e hq
      split
      · rename_i g
        have h := ih (l + 1) _ hs
        rw [g] at h
        exact h
      · rename_i g
        have h := ih (l + 1) _ hs
        rw [g] at h
        exact h

theorem coreLines_kept_of {r0 : State} (die core : Nat) (n : Nat) (l : Nat) (s : State) {y} {t : State}
    (e : coreLines die core n l s = (y, t)) (hq : Kept r0 s) : Kept r0 t := by
  have h := coreLines_kept die core n l s hq
  rw [e] at h
  exact h

theorem sliceLinesFor_kept {r0 : State} (die : Nat) (want : Nat → Attempt → Move → Bool) (n l : Nat) (s : State)
    (hq : Kept r0 s) :
    Kept r0 (sliceLinesFor die want n l s).2 := by
  induction n generalizing l s with
  | zero => exact hq
  | succ n ih =>
    unfold sliceLinesFor
    split
    · exact hq
    · rename_i e
      have hc := State.claim_kept_of e hq
      split
      · exact State.sramRead_kept_of _ _ (by assumption) hc
      · rename_i e
        have hs := State.sramRead_kept_of _ _ e hc
        have h := ih (l + 1) _ hs
        split
        · rename_i g
          rw [g] at h
          exact h
        · rename_i g
          rw [g] at h
          exact h

theorem sliceLinesFor_kept_of {r0 : State} (die : Nat) (want : Nat → Attempt → Move → Bool) (n l : Nat)
    (s : State) {y} {t : State}
    (e : sliceLinesFor die want n l s = (y, t)) (hq : Kept r0 s) : Kept r0 t := by
  have h := sliceLinesFor_kept die want n l s hq
  rw [e] at h
  exact h

theorem State.unitRead_kept {r0 : State} (s : State) (c : Nat) (x : Ctx) (u : Unit1) (a n : Nat)
    (hq : Kept r0 s) : Kept r0 (State.unitRead s c x u a n).2 := by
  unfold State.unitRead
  extract_lets +onlyGivenNames v0
  dsimp only
  unfold v0
  apply hbmLines_kept
  exact hq

theorem State.unitRead_kept_of {r0 : State} (s : State) (c : Nat) (x : Ctx) (u : Unit1) (a n : Nat) {y0 : Option (List
    (Byte × Bool))} {t1 : State} (e1 : State.unitRead s c x u a n = (y0, t1))
    (hq : Kept r0 s) : Kept r0 t1 := by
  have h1 := State.unitRead_kept s c x u a n hq
  rw [e1] at h1
  exact h1

theorem State.unitWrite_kept {r0 : State} (s : State) (c : Nat) (x : Ctx) (want : Nat → Attempt → Move → Bool) (a : Nat)
    (bs : List (Byte × Bool)) (hq : Kept r0 s) : Kept r0 (State.unitWrite s c x want a bs) := by
  unfold State.unitWrite
  refine foldl_kept ?_ ?_
  · exact hq
  · intro s0 x0 hs0
    try dsimp only
    split
    · exact hs0
    · apply State.workWrite_kept
      refine State.claim_kept_of (by assumption) ?_
      exact hs0

theorem State.sramPart_kept {r0 : State} (s : State) (m : Sram) (off : Nat) (bs : List Byte) (poison : Bool)
    (hq : Kept r0 s) : Kept r0 (State.sramPart s m off bs poison) := by
  unfold State.sramPart
  split
  · apply State.sramPut_kept
    exact hq
  · split
    · apply State.sramPut_kept
      refine State.sramRead_kept_of _ _ (by assumption) ?_
      exact hq
    · refine State.sramRead_kept_of _ _ (by assumption) ?_
      exact hq

theorem State.signSlice_kept {r0 : State} (s : State) (die line : Nat)
    (hq : Kept r0 s) : Kept r0 (State.signSlice s die line) := by
  unfold State.signSlice
  apply State.sign_kept
  exact hq

theorem State.sliceWrite_kept {r0 : State} (s : State) (u : Unit1) (die line off : Nat) (bs : List (Byte × Bool))
    (hq : Kept r0 s) : Kept r0 (State.sliceWrite s u die line off bs) := by
  unfold State.sliceWrite
  refine foldl_kept ?_ ?_
  · exact hq
  · intro s0 x0 hs0
    try dsimp only
    split
    · exact hs0
    · apply State.signSlice_kept
      apply State.sramPart_kept
      refine State.claim_kept_of (by assumption) ?_
      exact hs0

theorem claims_kept_of {r0 s t : State} {want : Attempt → Move → Bool} {n : Nat} (e : claims want n s = some t) (hq : Kept r0 s) :
    Kept r0 t := by
  induction n generalizing s with
  | zero => cases e; exact hq
  | succ n ih =>
    obtain ⟨u, hu, e⟩ := Option.bind_eq_some_iff.1 e
    exact ih e (State.claim_kept_of hu hq)

theorem State.signLines_kept {r0 : State} (s : State) (addr : Nat) (bs : List Byte)
    (hq : Kept r0 s) : Kept r0 (State.signLines s addr bs) := by
  unfold State.signLines
  extract_lets +onlyGivenNames v0
  refine foldl_kept ?_ ?_
  · exact hq
  · intro s1 x1 hs1
    try dsimp only
    apply State.sign_kept
    exact hs1

theorem State.multicast_kept {r0 : State} (s : State) (a : Attempt) (x : Ctx) (dests : List Nat) (offset : Nat) (bs : List
    (Byte × Bool)) (hq : Kept r0 s) : Kept r0 (State.multicast s a x dests offset bs) := by
  unfold State.multicast
  split
  · exact hq
  · extract_lets +onlyGivenNames v0
    refine foldl_kept ?_ ?_
    · exact hq
    · intro s1 x1 hs1
      try dsimp only
      apply State.signLines_kept
      refine foldl_kept ?_ ?_
      · exact hs1
      · intro s2 x2 hs2
        try dsimp only
        apply State.sendRequest_kept
        exact hs2

theorem readMoves_kept {r0 : State} (c : Nat) (x : Ctx) (l : List Move) (s : State)
    (hq : Kept r0 s) : Kept r0 (readMoves c x l s).2 := by
  induction l generalizing s with
  | nil => exact hq
  | cons m ms ih =>
    unfold readMoves
    split
    · exact ih _ (State.portLine_kept_of _ _ _ _ _ _ (by assumption) hq)
    · exact ih _ (State.portLine_kept_of _ _ _ _ _ _ (by assumption) hq)

theorem State.checkMove_kept {r0 : State} (s : State) (m : Move) (bs : List Byte) (poison : Bool)
    (hq : Kept r0 s) : Kept r0 (State.checkMove s m bs poison).2.2 := by
  unfold State.checkMove
  split
  · dsimp only
    exact hq
  · extract_lets +onlyGivenNames v0
    extract_lets +onlyGivenNames v1
    split
    · dsimp only
      exact hq
    · extract_lets +onlyGivenNames v2
      extract_lets +onlyGivenNames v3
      have hv3 : Kept r0 v3 := by
        unfold v3
        apply State.modAttempt_kept
        exact hq
      clear_value v3
      extract_lets +onlyGivenNames v4
      have hv4 : Kept r0 v4 := by
        unfold v4
        split
        · apply State.sramErrors_kept
          exact hv3
        · exact hv3
      clear_value v4
      dsimp only
      exact hv4

theorem State.logLine_kept {r0 : State} (s : State) (m : Move) (bs : List Byte) (poison : Bool)
    (hq : Kept r0 s) : Kept r0 (State.logLine s m bs poison) := by
  unfold State.logLine
  split
  · extract_lets +onlyGivenNames v0
    extract_lets +onlyGivenNames v1
    extract_lets +onlyGivenNames v2
    split
    · exact hq
    · apply State.modAttempt_kept
      apply State.sramPut_kept
      exact hq
  · exact hq

theorem State.landMove_kept {r0 : State} (s : State) (c : Nat) (x : Ctx) (m : Move) (bs : List Byte) (poison : Bool)
    (hq : Kept r0 s) : Kept r0 (State.landMove s c x m bs poison) := by
  unfold State.landMove
  extract_lets +onlyGivenNames v0
  split
  · exact hq
  · split
    · apply State.failShare_kept
      exact hq
    · extract_lets +onlyGivenNames v1
      extract_lets +onlyGivenNames v2
      have hv2 : Kept r0 v2 := by
        unfold v2
        split
        · apply State.sign_kept
          unfold v1
          apply State.checkMove_kept
          exact hq
        · unfold v1
          apply State.checkMove_kept
          exact hq
      clear_value v2
      apply State.putPortLine_kept
      apply State.logLine_kept
      exact hv2

theorem State.moveCycle_kept {r0 : State} (s : State) (x : Ctx) (t : Nat) (ms : List Move)
    (hq : Kept r0 s) : Kept r0 (State.moveCycle s x t ms) := by
  unfold State.moveCycle
  split
  · exact hq
  · extract_lets +onlyGivenNames v0
    extract_lets +onlyGivenNames v1
    extract_lets +onlyGivenNames v2
    extract_lets +onlyGivenNames v3
    have hv3 : Kept r0 v3 := by
      unfold v3
      apply State.modAttempt_kept
      exact hq
    clear_value v3
    extract_lets +onlyGivenNames v4
    refine foldl_kept ?_ ?_
    · unfold v4
      apply readMoves_kept
      exact hv3
    · intro s5 x5 hs5
      try dsimp only
      apply State.landMove_kept
      exact hs5

theorem State.runMoves_kept {r0 : State} (s : State) (a : Attempt) (x : Ctx) (target : Nat)
    (hq : Kept r0 s) : Kept r0 (State.runMoves s a x target) := by
  unfold State.runMoves
  extract_lets +onlyGivenNames v0
  extract_lets +onlyGivenNames v1
  extract_lets +onlyGivenNames v2
  have hv2 : Kept r0 v2 := by
    unfold v2
    apply State.modAttempt_kept
    exact hq
  clear_value v2
  refine foldl_kept ?_ ?_
  · exact hv2
  · intro s3 x3 hs3
    try dsimp only
    apply State.moveCycle_kept
    exact hs3

theorem State.workCrossbar_kept {r0 : State} (s : State) (a : Attempt) (x : Ctx) (n : Nat)
    (hq : Kept r0 s) : Kept r0 (State.workCrossbar s a x n) := by
  unfold State.workCrossbar
  apply State.runMoves_kept
  exact hq

theorem State.spotRead_kept {r0 : State} (s : State) (c : Nat) (x : Ctx) (die core : Nat) (p : Spot) (off n : Nat)
    (hq : Kept r0 s) : Kept r0 (State.spotRead s c x die core p off n).2 := by
  unfold State.spotRead
  extract_lets +onlyGivenNames v0
  split
  · apply State.unitRead_kept
    exact hq
  · extract_lets +onlyGivenNames v1
    dsimp only
    unfold v1
    apply coreLines_kept
    exact hq
  · extract_lets +onlyGivenNames v2
    dsimp only
    unfold v2
    apply sliceLinesFor_kept
    exact hq

theorem State.spotWrite_kept {r0 : State} (s : State) (c : Nat) (x : Ctx) (die core : Nat) (p : Spot) (off : Nat) (bs : List
    (Byte × Bool)) (hq : Kept r0 s) : Kept r0 (State.spotWrite s c x die core p off bs) := by
  unfold State.spotWrite
  extract_lets +onlyGivenNames v0
  split
  · apply State.unitWrite_kept
    exact hq
  · refine foldl_kept ?_ ?_
    · exact hq
    · intro s1 x1 hs1
      try dsimp only
      apply State.sramPart_kept
      exact hs1
  · apply State.sliceWrite_kept
    exact hq

theorem readVeneers_kept {r0 : State} (c : Nat) (x : Ctx) (f : Fmt) (at_ : TileAt) (n addr line : Nat) (s : State)
    (hq : Kept r0 s) :
    Kept r0 (readVeneers c x f at_ n addr line s).2 := by
  induction n generalizing addr line s with
  | zero => exact hq
  | succ n ih =>
    have key : ∀ {y t}, (match at_.veneers with
        | none => hbmLines c x (fun l => fixed ((coreUnit1 at_.die.val at_.core.val).fromHbm l)) (veneerBytes f / 128) (addr / 128) s
        | some _ => coreLines at_.die.val at_.core.val (veneerBytes f / 128) line s) = (y, t) → Kept r0 t := by
      intro y t e
      split at e
      · exact hbmLines_kept_of _ _ _ _ _ _ e hq
      · exact coreLines_kept_of _ _ _ _ _ e hq
    unfold readVeneers
    extract_lets k
    split
    · exact key (by assumption)
    · rename_i e
      have h := ih (addr + veneerBytes f) (line + k) _ (key e)
      split
      · rename_i g
        rw [g] at h
        exact h
      · rename_i g
        rw [g] at h
        exact h

theorem readVeneers_kept_of {r0 : State} (c : Nat) (x : Ctx) (f : Fmt) (at_ : TileAt) (n addr line : Nat)
    (s : State) {y} {t : State}
    (e : readVeneers c x f at_ n addr line s = (y, t)) (hq : Kept r0 s) : Kept r0 t := by
  have h := readVeneers_kept c x f at_ n addr line s hq
  rw [e] at h
  exact h

theorem State.readSlots_kept {r0 : State} (s : State) (c : Nat) (x : Ctx) (u : Unit1) (rot : RotSpec) (k row : Nat)
    (hq : Kept r0 s) : Kept r0 (State.readSlots s c x u rot k row).2 := by
  unfold State.readSlots
  split
  · dsimp only
    exact hq
  · split
    · dsimp only
      refine hbmLines_kept_of _ _ _ _ _ _ (by assumption) ?_
      exact hq
    · dsimp only
      refine hbmLines_kept_of _ _ _ _ _ _ (by assumption) ?_
      exact hq

theorem readRows_kept {r0 : State} (c : Nat) (x : Ctx) (u : Unit1) (rot : RotSpec) (k first count : Nat)
    (l : List (Nat × Nat × PlaneRow)) (s : State) (hq : Kept r0 s) : Kept r0 (readRows c x u rot k first count l s).2 := by
  induction l generalizing s with
  | nil => exact hq
  | cons r rs ih =>
    unfold readRows
    refine ih _ ?_
    split
    · exact hq
    · exact State.readSlots_kept _ _ _ _ _ _ _ hq

theorem State.formTile_kept {r0 : State} (s : State) (a : Attempt) (x : Ctx) (o : Operand) (at_ : TileAt) (first count : Nat)
    (fmt : OutFmt) (release : Release) (due : Nat) (hq : Kept r0 s) : Kept r0 (State.formTile s a x o at_ first count fmt release due) := by
  unfold State.formTile
  extract_lets +onlyGivenNames v0
  extract_lets +onlyGivenNames v1
  extract_lets +onlyGivenNames v2
  split
  · exact hq
  · split
    · apply State.wait_kept
      exact hq
    · split
      · refine readVeneers_kept_of _ _ _ _ _ _ _ _ (by assumption) ?_
        exact hq
      · extract_lets +onlyGivenNames v3
        extract_lets +onlyGivenNames v4
        extract_lets +onlyGivenNames v5
        extract_lets +onlyGivenNames v6
        extract_lets +onlyGivenNames v7
        apply State.modAttempt_kept
        unfold v3
        apply readRows_kept
        refine readVeneers_kept_of _ _ _ _ _ _ _ _ (by assumption) ?_
        exact hq

theorem State.workProduct_kept {r0 : State} (s : State) (a : Attempt) (x : Ctx) (src desc : Nat) (at_ : TileAt)
    (first count : Nat) (into : TileInto) (adds : Nat) (hq : Kept r0 s) : Kept r0 (State.workProduct s a x src desc at_ first count into adds) := by
  unfold State.workProduct
  split
  · exact hq
  · extract_lets +onlyGivenNames v0
    extract_lets +onlyGivenNames v1
    extract_lets +onlyGivenNames v2
    extract_lets +onlyGivenNames v3
    apply State.formTile_kept
    exact hq

theorem State.keepRow_kept {r0 : State} (s : State) (a : Attempt) (x : Ctx) (rot : RotSpec) (die desc operand cap k i : Nat)
    (r : PlaneOut) (hq : Kept r0 s) : Kept r0 (State.keepRow s a x rot die desc operand cap k i r) := by
  unfold State.keepRow
  extract_lets +onlyGivenNames v0
  extract_lets +onlyGivenNames v1
  have hv1 : Kept r0 v1 := by
    unfold v1
    apply State.unitWrite_kept
    exact hq
  clear_value v1
  extract_lets +onlyGivenNames v2
  apply State.sliceWrite_kept
  exact hv1

theorem State.formPlane_kept {r0 : State} (s : State) (a : Attempt) (x : Ctx) (dst desc operand cap k die : Nat)
    (d : List Byte) (rows : List (Nat × FRow)) (hq : Kept r0 s) : Kept r0 (State.formPlane s a x dst desc operand cap k die d rows) := by
  unfold State.formPlane
  extract_lets +onlyGivenNames v0
  extract_lets +onlyGivenNames v1
  extract_lets +onlyGivenNames v2
  have hv2 : Kept r0 v2 := by
    unfold v2
    apply State.addEvents_kept
    apply State.setFormed_kept
    apply State.setBuf_kept
    exact hq
  clear_value v2
  extract_lets +onlyGivenNames v3
  have hv3 : Kept r0 v3 := by
    unfold v3
    refine foldl_kept ?_ ?_
    · exact hv2
    · intro s4 x4 hs4
      try dsimp only
      apply State.keepRow_kept
      exact hs4
  clear_value v3
  split
  · exact hv3
  · apply State.modAttempt_kept
    exact hv3

theorem State.workPlane_kept {r0 : State} (s : State) (a : Attempt) (x : Ctx) (dst src desc die : Nat)
    (hq : Kept r0 s) : Kept r0 (State.workPlane s a x dst src desc die) := by
  unfold State.workPlane
  split
  · exact hq
  · apply State.formPlane_kept
    exact hq

theorem State.grantSite_kept {r0 : State} (s : State) (layer site : Nat)
    (hq : Kept r0 s) : Kept r0 (State.grantSite s layer site) := by
  unfold State.grantSite
  apply State.modAttempt_kept
  exact hq

theorem State.workGrant_kept {r0 : State} (s : State) (a : Attempt) (layer site : Nat)
    (hq : Kept r0 s) : Kept r0 (State.workGrant s a layer site) := by
  unfold State.workGrant
  split
  · apply State.grantSite_kept
    exact hq
  · exact hq

theorem State.workRecompute_kept {r0 : State} (s : State) (a : Attempt) (dst desc operand k die : Nat) (d : List Byte)
    (batch : List Nat) (hq : Kept r0 s) : Kept r0 (State.workRecompute s a dst desc operand k die d batch) := by
  unfold State.workRecompute
  extract_lets +onlyGivenNames v0
  extract_lets +onlyGivenNames v1
  extract_lets +onlyGivenNames v2
  extract_lets +onlyGivenNames v3
  apply State.addEvents_kept
  apply State.setFormed_kept
  apply State.setBuf_kept
  unfold v3
  refine foldl_kept_by (fun b : List PlaneRow × QEvents × State => b.2.2) ?_ ?_
  · dsimp only
    exact hq
  · intro s4 x4 hs4
    dsimp only at hs4 ⊢
    split
    · dsimp only
      exact hs4
    · split
      · dsimp only
        refine sliceLinesFor_kept_of _ _ _ _ _ (by assumption) ?_
        exact hs4
      · dsimp only
        refine sliceLinesFor_kept_of _ _ _ _ _ (by assumption) ?_
        exact hs4

theorem State.workWide_kept {r0 : State} (s : State) (a : Attempt) (x : Ctx) (dst src desc die core : Nat)
    (hq : Kept r0 s) : Kept r0 (State.workWide s a x dst src desc die core) := by
  unfold State.workWide
  split
  · exact hq
  · extract_lets +onlyGivenNames v0
    apply State.setFormed_kept
    refine foldl_kept ?_ ?_
    · exact hq
    · intro s1 x1 hs1
      try dsimp only
      split
      · refine State.unitRead_kept_of _ _ _ _ _ _ (by assumption) ?_
        exact hs1
      · refine foldl_kept ?_ ?_
        · refine State.unitRead_kept_of _ _ _ _ _ _ (by assumption) ?_
          exact hs1
        · intro s2 x2 hs2
          try dsimp only
          apply State.putCols_kept
          exact hs2

theorem State.workFetch_kept {r0 : State} (s : State) (a : Attempt) (x : Ctx) (dst : Nat) (p : Spot) (rows cols : Nat)
    (f : OutFmt)
    (die core : Nat) (hq : Kept r0 s) : Kept r0 (State.workFetch s a x dst p rows cols f die core) := by
  unfold State.workFetch
  extract_lets n
  refine ite_kept hq (foldl_kept hq fun t i h => ?_)
  have hr := State.spotRead_kept t a.ctx x die core p (i * n) n h
  split
  · rename_i e
    rw [e] at hr
    exact State.putRow_kept _ _ _ _ hr
  · rename_i e
    rw [e] at hr
    exact hr

theorem State.workStore_kept {r0 : State} (s : State) (a : Attempt) (x : Ctx) (src : Nat) (p : Spot) (f : OutFmt)
    (die core : Nat) (hq : Kept r0 s) : Kept r0 (State.workStore s a x src p f die core) := by
  unfold State.workStore
  split
  · exact hq
  · extract_lets +onlyGivenNames v0
    refine foldl_kept ?_ ?_
    · exact hq
    · intro s1 x1 hs1
      try dsimp only
      apply State.spotWrite_kept
      split
      · apply State.consumes_kept
        apply State.addEvents_kept
        exact hs1
      · apply State.addEvents_kept
        exact hs1

theorem State.withhold_kept {r0 : State} (s : State) (die core : Nat) (goal : HeldFor) (r : FRow)
    (hq : Kept r0 s) : Kept r0 (State.withhold s die core goal r) := by
  unfold State.withhold
  apply State.setRegBit_kept
  apply State.modAttempt_kept
  exact hq

theorem State.workVec_kept {r0 : State} (s : State) (a : Attempt) (op : VecOp) (dst p q r die core : Nat)
    (hq : Kept r0 s) : Kept r0 (State.workVec s a op dst p q r die core) := by
  unfold State.workVec
  split
  · exact hq
  · extract_lets +onlyGivenNames v0
    extract_lets +onlyGivenNames v1
    extract_lets +onlyGivenNames v2
    refine foldl_kept ?_ ?_
    · exact hq
    · intro s3 x3 hs3
      try dsimp only
      split
      · apply State.putRow_kept
        exact hs3
      · split
        · exact hs3
        · split
          · apply State.putRow_kept
            apply State.addEvents_kept
            exact hs3
          · apply State.withhold_kept
            apply State.addEvents_kept
            exact hs3

theorem State.setVreg_kept {r0 : State} (s : State) (k : Nat) (r : FRow) (hq : Kept r0 s) : Kept r0 (State.setVreg s k r) := by
  unfold State.setVreg
  exact Kept.upd hq rfl

theorem State.workVload_kept {r0 : State} (s : State) (a : Attempt) (die core reg src row col : Nat)
    (hq : Kept r0 s) : Kept r0 (State.workVload s a die core reg src row col) := by
  unfold State.workVload
  split
  · exact hq
  · apply State.setVreg_kept
    exact hq

theorem State.workVreg_kept {r0 : State} (s : State) (a : Attempt) (op : VecOp) (die core d p q r : Nat)
    (hq : Kept r0 s) : Kept r0 (State.workVreg s a op die core d p q r) := by
  unfold State.workVreg
  split
  · exact hq
  · extract_lets +onlyGivenNames v0
    extract_lets +onlyGivenNames v1
    extract_lets +onlyGivenNames v2
    have hv2 : Kept r0 v2 := by
      unfold v2
      apply State.addEvents_kept
      exact hq
    clear_value v2
    split
    · apply State.setVreg_kept
      exact hv2
    · apply State.withhold_kept
      exact hv2

theorem State.workVstore_kept {r0 : State} (s : State) (a : Attempt) (die core reg dst row col : Nat)
    (hq : Kept r0 s) : Kept r0 (State.workVstore s a die core reg dst row col) := by
  unfold State.workVstore
  split
  · exact hq
  · split
    · apply State.putRow_kept
      exact hq
    · apply State.putCols_kept
      exact hq

theorem State.mirrorLines_kept {r0 : State} (s : State) (a : Attempt) (x : Ctx) (addr n : Nat)
    (hq : Kept r0 s) : Kept r0 (State.mirrorLines s a x addr n) := by
  unfold State.mirrorLines
  extract_lets +onlyGivenNames v0
  split
  · exact hq
  · refine foldl_kept ?_ ?_
    · exact hq
    · intro s1 x1 hs1
      try dsimp only
      apply State.sign_kept
      apply State.sendRequest_kept
      apply State.stepLine_kept
      exact hs1

theorem State.workKv_kept {r0 : State} (s : State) (a : Attempt) (x : Ctx) (seq i layer hg key value : Nat)
    (hq : Kept r0 s) : Kept r0 (State.workKv s a x seq i layer hg key value) := by
  unfold State.workKv
  split
  · exact hq
  · extract_lets +onlyGivenNames v0
    extract_lets +onlyGivenNames v1
    extract_lets +onlyGivenNames v2
    split
    · exact hq
    · extract_lets +onlyGivenNames v3
      have hv3 : Kept r0 v3 := by
        unfold v3
        apply State.readSnapshot_kept
        apply State.readLenRow_kept
        exact hq
      clear_value v3
      extract_lets +onlyGivenNames v4
      extract_lets +onlyGivenNames v5
      extract_lets +onlyGivenNames v6
      have hv6 : Kept r0 v6 := by
        unfold v6
        apply State.consumes_kept
        apply State.addEvents_kept
        exact hv3
      clear_value v6
      extract_lets +onlyGivenNames v7
      refine foldl_kept ?_ ?_
      · exact hv6
      · intro s8 x8 hs8
        try dsimp only
        apply State.mirrorLines_kept
        apply State.unitWrite_kept
        exact hs8

theorem State.readSlot_kept {r0 : State} (s : State) (a : Attempt) (x : Ctx) (die core page t : Nat)
    (hq : Kept r0 s) : Kept r0 (State.readSlot s a x die core page t).2 := by
  unfold State.readSlot
  extract_lets +onlyGivenNames v0
  extract_lets +onlyGivenNames v1
  extract_lets +onlyGivenNames v2
  dsimp only
  unfold v2
  refine foldl_kept_by (fun b : Option (List (List (Byte × Bool))) × State => b.2) ?_ ?_
  · dsimp only
    exact hq
  · intro s3 x3 hs3
    dsimp only at hs3 ⊢
    split
    · exact hs3
    · split
      · dsimp only
        refine hbmLines_kept_of _ _ _ _ _ _ (by assumption) ?_
        exact hs3
      · dsimp only
        refine hbmLines_kept_of _ _ _ _ _ _ (by assumption) ?_
        exact hs3

theorem State.readSlot_kept_of {r0 : State} (s : State) (a : Attempt) (x : Ctx)
    (die core page t : Nat) {y0 : Option KvSlot} {t1 : State} (e1 : State.readSlot s a x die core page t = (y0, t1))
    (hq : Kept r0 s) : Kept r0 t1 := by
  have h1 := State.readSlot_kept s a x die core page t hq
  rw [e1] at h1
  exact h1

theorem readBlock_kept {r0 : State} (a : Attempt) (x : Ctx) (die core page n t : Nat) (s : State) (hq : Kept r0 s) :
    Kept r0 (readBlock a x die core page n t s).2 := by
  induction n generalizing t s with
  | zero => exact hq
  | succ n ih =>
    unfold readBlock
    split
    · exact State.readSlot_kept_of _ _ _ _ _ _ _ (by assumption) hq
    · rename_i e
      have h := ih (t + 1) _ (State.readSlot_kept_of _ _ _ _ _ _ _ e hq)
      split
      · rename_i g
        rw [g] at h
        exact h
      · rename_i g
        rw [g] at h
        exact h

theorem readBlock_kept_of {r0 : State} (a : Attempt) (x : Ctx) (die core page n k : Nat) (s : State) {y} {t : State}
    (e : readBlock a x die core page n k s = (y, t)) (hq : Kept r0 s) : Kept r0 t := by
  have h := readBlock_kept a x die core page n k s hq
  rw [e] at h
  exact h

theorem walkBlocks_kept {r0 : State} (a : Attempt) (x : Ctx) (lr : LayerRec) (r : LenRow) (i die core j page : Nat)
    (q : List Block)
    (n b : Nat) (w : Walk1) (s : State) (hq : Kept r0 s) : Kept r0 (walkBlocks a x lr r i die core j page q n b w s).2 := by
  induction n generalizing b w s with
  | zero => exact hq
  | succ n ih =>
    unfold walkBlocks
    extract_lets first
    split
    · exact ih _ _ _ hq
    · split
      · exact readBlock_kept_of _ _ _ _ _ _ _ _ (by assumption) hq
      · exact ih _ _ _ (readBlock_kept_of _ _ _ _ _ _ _ _ (by assumption) hq)

theorem State.workQuery_kept {r0 : State} (s : State) (a : Attempt) (x : Ctx) (q seq i layer : Nat)
    (hq : Kept r0 s) : Kept r0 (State.workQuery s a x q seq i layer) := by
  unfold State.workQuery
  split
  · exact hq
  · split
    · exact hq
    · extract_lets +onlyGivenNames v0
      extract_lets +onlyGivenNames v1
      extract_lets +onlyGivenNames v2
      extract_lets +onlyGivenNames v3
      apply State.multicast_kept
      exact hq

theorem State.workAttend_kept {r0 : State} (s : State) (a : Attempt) (x : Ctx) (q seq i layer hg qh page : Nat) (upper : Bool)
    (die core : Nat) (bank : Bool) (hq : Kept r0 s) : Kept r0 (State.workAttend s a x q seq i layer hg qh page upper die core bank) := by
  unfold State.workAttend
  split
  · exact hq
  · extract_lets +onlyGivenNames b
    refine ite_kept hq (ite_kept (State.wait_kept _ hq) ?_)
    extract_lets +onlyGivenNames mine
    split
    · exact hq
    · extract_lets +onlyGivenNames me there
      refine ite_kept hq ?_
      extract_lets +onlyGivenNames s1 lr row qb w
      have h1 : Kept r0 s1 := State.readLenRow_kept _ _ _ _ hq
      have hw : Kept r0 w.2 := by
        unfold w
        split
        · exact h1
        · exact walkBlocks_kept _ _ _ _ _ _ _ _ _ _ _ _ _ _ (State.readSnapshot_kept _ _ _ _ h1)
      clear_value w
      obtain ⟨v, t⟩ := w
      cases v with
      | none => exact hw
      | some v => exact State.modAttempt_kept _ _ hw

theorem State.workMerge_kept {r0 : State} (s : State) (a : Attempt) (x : Ctx) (dst seq i layer hg qh : Nat)
    (hq : Kept r0 s) : Kept r0 (State.workMerge s a x dst seq i layer hg qh) := by
  unfold State.workMerge
  split
  · exact hq
  · split
    · exact hq
    · extract_lets +onlyGivenNames v0
      extract_lets +onlyGivenNames v1
      split
      · extract_lets +onlyGivenNames v2
        apply State.putCols_kept
        exact hq
      · split
        · exact hq
        · apply State.wait_kept
          exact hq

theorem State.workRouter_kept {r0 : State} (s : State) (a : Attempt) (src layer : Nat)
    (hq : Kept r0 s) : Kept r0 (State.workRouter s a src layer) := by
  unfold State.workRouter
  split
  · exact hq
  · split
    · exact hq
    · refine foldl_kept ?_ ?_
      · exact hq
      · intro s0 x0 hs0
        try dsimp only
        split
        · exact hs0
        · apply State.modAttempt_kept
          exact hs0

theorem State.workChoose_kept {r0 : State} (s : State) (a : Attempt) (layer : Nat)
    (hq : Kept r0 s) : Kept r0 (State.workChoose s a layer) := by
  unfold State.workChoose
  split
  · exact hq
  · extract_lets +onlyGivenNames v0
    extract_lets +onlyGivenNames v1
    extract_lets +onlyGivenNames v2
    extract_lets +onlyGivenNames v3
    extract_lets +onlyGivenNames v4
    have hv4 : Kept r0 v4 := by
      unfold v4
      apply State.modAttempt_kept
      exact hq
    clear_value v4
    refine foldl_kept ?_ ?_
    · exact hv4
    · intro s5 x5 hs5
      try dsimp only
      apply State.sliceWrite_kept
      apply State.readBatch_kept
      exact hs5

theorem State.readList_kept_of {r0 s t : State} {a : Attempt} {layer expert die core : Nat} {list : List SendEntry}
    (e : s.readList a layer expert die core list = some t) (hq : Kept r0 s) : Kept r0 t := by
  unfold State.readList at e
  split at e
  · cases e
  · rename_i g
    cases e
    exact State.consumes_kept _ _ (sliceLinesFor_kept_of _ _ _ _ _ g hq)

theorem State.readRowsFor_kept_of {r0 s t : State} {a : Attempt} {layer expert : Nat} {at_ : TileAt} {f : Fmt} {k rows : Nat}
    (e : s.readRowsFor a layer expert at_ f k rows = some t) (hq : Kept r0 s) : Kept r0 t := by
  unfold State.readRowsFor at e
  extract_lets key m at e
  split at e
  · cases e; exact hq
  · obtain ⟨u, hu, rfl⟩ := Option.map_eq_some_iff.1 e
    exact State.modAttempt_kept _ _ (claims_kept_of hu hq)

theorem State.workGateUp_kept {r0 : State} (s : State) (a : Attempt) (x : Ctx) (layer expert dst src : Nat) (at_ : TileAt)
    (hq : Kept r0 s) : Kept r0 (State.workGateUp s a x layer expert dst src at_) := by
  unfold State.workGateUp
  split
  · exact hq
  · refine ite_kept hq (ite_kept (State.wait_kept _ hq) ?_)
    extract_lets p row rows n k bytes o
    split
    · exact hq
    · rename_i g
      obtain ⟨u, hu, g⟩ := Option.bind_eq_some_iff.1 g
      exact State.formTile_kept _ _ _ _ _ _ _ _ _ _ (State.readRowsFor_kept_of g (State.readList_kept_of hu hq))

theorem State.workHidden_kept {r0 : State} (s : State) (a : Attempt) (x : Ctx) (layer expert dst src : Nat)
    (hq : Kept r0 s) : Kept r0 (State.workHidden s a x layer expert dst src) := by
  unfold State.workHidden
  split
  · exact hq
  · extract_lets +onlyGivenNames v0
    extract_lets +onlyGivenNames v1
    apply State.formPlane_kept
    exact hq

theorem State.workDown_kept {r0 : State} (s : State) (a : Attempt) (x : Ctx) (layer expert src : Nat) (at_ : TileAt)
    (hq : Kept r0 s) : Kept r0 (State.workDown s a x layer expert src at_) := by
  unfold State.workDown
  split
  · exact hq
  · split
    · exact hq
    · extract_lets +onlyGivenNames v0
      extract_lets +onlyGivenNames v1
      extract_lets +onlyGivenNames v2
      extract_lets +onlyGivenNames v3
      extract_lets +onlyGivenNames v4
      extract_lets +onlyGivenNames v5
      apply State.formTile_kept
      exact hq

theorem State.workExit_kept {r0 : State} (s : State) (a : Attempt) (x : Ctx) (layer src state : Nat)
    (hq : Kept r0 s) : Kept r0 (State.workExit s a x layer src state) := by
  unfold State.workExit
  split
  · exact hq
  · split
    · exact hq
    · extract_lets +onlyGivenNames v0
      extract_lets +onlyGivenNames v1
      apply State.putTable_kept
      refine foldl_kept ?_ ?_
      · exact hq
      · intro s2 x2 hs2
        try dsimp only
        split
        · exact hs2
        · split
          · split
            · apply State.modAttempt_kept
              exact hs2
            · exact hs2
          · apply State.modAttempt_kept
            split
            · apply State.modAttempt_kept
              exact hs2
            · exact hs2

theorem State.autoNext_kept {r0 : State} (s : State) (c : Nat) (x : Ctx) (base st tok : Nat)
    (hq : Kept r0 s) : Kept r0 (State.autoNext s c x base st tok).2 := by
  unfold State.autoNext
  split
  · dsimp only
    exact hq
  · split
    · dsimp only
      refine State.workTable_kept_of _ _ _ _ _ (by assumption) ?_
      exact hq
    · split
      · dsimp only
        refine State.workTable_kept_of _ _ _ _ _ (by assumption) ?_
        refine State.workTable_kept_of _ _ _ _ _ (by assumption) ?_
        exact hq
      · extract_lets +onlyGivenNames v0
        split
        · dsimp only
          refine State.workTable_kept_of _ _ _ _ _ (by assumption) ?_
          refine State.workTable_kept_of _ _ _ _ _ (by assumption) ?_
          refine State.workTable_kept_of _ _ _ _ _ (by assumption) ?_
          exact hq
        · extract_lets +onlyGivenNames v1
          split
          · dsimp only
            refine State.workTable_kept_of _ _ _ _ _ (by assumption) ?_
            refine State.workTable_kept_of _ _ _ _ _ (by assumption) ?_
            refine State.workTable_kept_of _ _ _ _ _ (by assumption) ?_
            exact hq
          · dsimp only
            apply State.stepFault_kept
            refine State.workTable_kept_of _ _ _ _ _ (by assumption) ?_
            refine State.workTable_kept_of _ _ _ _ _ (by assumption) ?_
            refine State.workTable_kept_of _ _ _ _ _ (by assumption) ?_
            exact hq

theorem State.autoNext_kept_of {r0 : State} (s : State) (c : Nat) (x : Ctx) (base st tok : Nat) {y0 : Option Nat} {t1 : State}
    (e1 : State.autoNext s c x base st tok = (y0, t1))
    (hq : Kept r0 s) : Kept r0 t1 := by
  have h1 := State.autoNext_kept s c x base st tok hq
  rw [e1] at h1
  exact h1

theorem autoRun_kept {r0 : State} (c : Nat) (x : Ctx) (base : Nat) (l : List Nat) (st : Nat) (s : State) (hq : Kept r0 s) :
    Kept r0 (autoRun c x base l st s).2 := by
  induction l generalizing st s with
  | nil => exact hq
  | cons t ts ih =>
    unfold autoRun
    split
    · exact State.autoNext_kept_of _ _ _ _ _ _ (by assumption) hq
    · exact ih _ _ (State.autoNext_kept_of _ _ _ _ _ _ (by assumption) hq)

theorem autoRun_kept_of {r0 : State} (c : Nat) (x : Ctx) (base : Nat) (l : List Nat) (st : Nat) (s : State) {y} {t : State}
    (e : autoRun c x base l st s = (y, t)) (hq : Kept r0 s) : Kept r0 t := by
  have h := autoRun_kept c x base l st s hq
  rw [e] at h
  exact h

theorem State.allowed_kept {r0 : State} (s : State) (a : Attempt) (x : Ctx) (seq : Nat) (con : ConParams) (auto : Nat)
    (path : List Nat)
    (hq : Kept r0 s) : Kept r0 (State.allowed s a x seq con auto path).2 := by
  unfold State.allowed
  extract_lets +onlyGivenNames v0
  split
  · dsimp only
    exact hq
  · split
    · split
      · dsimp only
        refine autoRun_kept_of _ _ _ _ _ _ (by assumption) ?_
        exact hq
      · split
        · dsimp only
          refine autoRun_kept_of _ _ _ _ _ _ (by assumption) ?_
          exact hq
        · split
          · dsimp only
            refine State.workTable_kept_of _ _ _ _ _ (by assumption) ?_
            refine autoRun_kept_of _ _ _ _ _ _ (by assumption) ?_
            exact hq
          · apply State.readBitmap_kept
            refine State.workTable_kept_of _ _ _ _ _ (by assumption) ?_
            refine autoRun_kept_of _ _ _ _ _ _ (by assumption) ?_
            exact hq
    · dsimp only
      exact hq

theorem State.allowed_kept_of {r0 : State} (s : State) (a : Attempt) (x : Ctx) (seq : Nat) (con : ConParams) (auto : Nat)
    (path : List Nat) {y0 : Option (List Bool)} {t1 : State} (e1 : State.allowed s a x seq con auto path = (y0, t1))
    (hq : Kept r0 s) : Kept r0 t1 := by
  have h1 := State.allowed_kept s a x seq con auto path hq
  rw [e1] at h1
  exact h1

theorem State.giveCands_kept {r0 : State} (s : State) (handle seq i : Nat) (g : SliceSend)
    (hq : Kept r0 s) : Kept r0 (State.giveCands s handle seq i g) := by
  unfold State.giveCands
  split
  · apply State.modAttempt_kept
    exact hq
  · apply State.emit_kept
    exact hq

theorem State.workSlice_kept {r0 : State} (s : State) (a : Attempt) (x : Ctx) (seq i src : Nat)
    (hq : Kept r0 s) : Kept r0 (State.workSlice s a x seq i src) := by
  unfold State.workSlice
  split
  · exact hq
  · extract_lets +onlyGivenNames v0
    extract_lets +onlyGivenNames v1
    split
    · exact hq
    · split
      · exact hq
      · extract_lets +onlyGivenNames v2
        have hv2 : Kept r0 v2 := by
          unfold v2
          apply State.consumes_kept
          apply State.readLenRow_kept
          exact hq
        clear_value v2
        extract_lets +onlyGivenNames v3
        extract_lets +onlyGivenNames v4
        extract_lets +onlyGivenNames v5
        extract_lets +onlyGivenNames v6
        split
        · refine State.allowed_kept_of _ _ _ _ _ _ _ (by assumption) ?_
          exact hv2
        · extract_lets +onlyGivenNames v7
          apply State.giveCands_kept
          refine State.allowed_kept_of _ _ _ _ _ _ _ (by assumption) ?_
          exact hv2

theorem State.giveHeads_kept {r0 : State} (s : State) (handle seq i h : Nat) (l : List (Nat × Word)) (poison : Bool)
    (hq : Kept r0 s) : Kept r0 (State.giveHeads s handle seq i h l poison) := by
  unfold State.giveHeads
  split
  · apply State.modAttempt_kept
    exact hq
  · apply State.emit_kept
    exact hq

theorem State.workHead_kept {r0 : State} (s : State) (a : Attempt) (x : Ctx) (seq i h src : Nat)
    (hq : Kept r0 s) : Kept r0 (State.workHead s a x seq i h src) := by
  unfold State.workHead
  split
  · exact hq
  · split
    · exact hq
    · extract_lets +onlyGivenNames v0
      extract_lets +onlyGivenNames v1
      extract_lets +onlyGivenNames v2
      split
      · refine State.workRead_kept_of _ _ _ _ _ (by assumption) ?_
        exact hq
      · extract_lets +onlyGivenNames v3
        extract_lets +onlyGivenNames v4
        apply State.giveHeads_kept
        refine State.workRead_kept_of _ _ _ _ _ (by assumption) ?_
        exact hq

theorem State.drawAuto_kept {r0 : State} (s : State) (a : Attempt) (x : Ctx) (q : Seq) (toks : List Nat)
    (hq : Kept r0 s) : Kept r0 (State.drawAuto s a x q toks).2 := by
  unfold State.drawAuto
  split
  · dsimp only
    exact hq
  · split
    · dsimp only
      refine autoRun_kept_of _ _ _ _ _ _ (by assumption) ?_
      exact hq
    · dsimp only
      refine autoRun_kept_of _ _ _ _ _ _ (by assumption) ?_
      exact hq

theorem State.workDraw_kept {r0 : State} (s : State) (a : Attempt) (x : Ctx) (seq : Nat)
    (hq : Kept r0 s) : Kept r0 (State.workDraw s a x seq) := by
  unfold State.workDraw
  split
  · exact hq
  · split
    · extract_lets +onlyGivenNames v0
      extract_lets +onlyGivenNames v1
      extract_lets +onlyGivenNames v2
      split
      · exact hq
      · split
        · exact hq
        · split
          · apply State.wait_kept
            exact hq
          · extract_lets +onlyGivenNames v3
            split
            · apply State.modAttempt_kept
              exact hq
            · extract_lets +onlyGivenNames v4
              extract_lets +onlyGivenNames v5
              extract_lets +onlyGivenNames v6
              extract_lets +onlyGivenNames v7
              extract_lets +onlyGivenNames v8
              extract_lets +onlyGivenNames v9
              extract_lets +onlyGivenNames v10
              extract_lets +onlyGivenNames v11
              apply State.modAttempt_kept
              unfold v11
              apply State.drawAuto_kept
              exact hq
    · exact hq

theorem State.upset_kept {r0 : State} (s : State) (m : Sram) (word bits : Nat)
    (hq : Kept r0 s) : Kept r0 (State.upset s m word bits) := by
  unfold State.upset
  split
  · apply State.setSramMask_kept
    exact hq
  · exact hq

theorem State.arrive_kept {r0 : State} (s : State) (w : Work) (hq : Kept r0 s) : Kept r0 (State.arrive s w) := by
  unfold State.arrive
  split
  · apply State.upset_kept
    exact hq
  · apply State.serviceRead_kept
    exact hq
  · apply State.serviceWrite_kept
    exact hq
  · split
    · exact hq
    · split
      · exact hq
      · split
        · split
          · exact hq
          · apply State.modAttempt_kept
            exact hq
        · split
          · exact hq
          · apply State.modAttempt_kept
            exact hq
        · split
          · exact hq
          · apply State.modAttempt_kept
            exact hq
        · split
          · exact hq
          · apply State.modAttempt_kept
            exact hq
        · apply State.bump64_kept
          exact hq
        · apply State.modAttempt_kept
          exact hq
        · exact hq

theorem State.workIn_kept {r0 : State} (s : State) (a : Attempt) (x : Ctx) (w : Work)
    (hq : Kept r0 s) : Kept r0 (State.workIn s a x w) := by
  unfold State.workIn
  split
  · apply State.workLoad_kept
    exact hq
  · apply State.setBuf_kept
    exact hq
  · apply State.workFetch_kept
    exact hq
  · apply State.workStore_kept
    exact hq
  · apply State.workCrossbar_kept
    exact hq
  · split
    · apply State.workPlane_kept
      exact hq
    · exact hq
  · apply State.workGrant_kept
    exact hq
  · split
    · exact hq
    · split
      · exact hq
      · apply State.workRecompute_kept
        exact hq
  · apply State.workProduct_kept
    exact hq
  · split
    · apply State.workWide_kept
      exact hq
    · exact hq
  · apply State.workVec_kept
    exact hq
  · apply State.workVload_kept
    exact hq
  · apply State.workVreg_kept
    exact hq
  · apply State.workVstore_kept
    exact hq
  · apply State.workKv_kept
    exact hq
  · apply State.workQuery_kept
    exact hq
  · apply State.workAttend_kept
    exact hq
  · apply State.workMerge_kept
    exact hq
  · apply State.workRouter_kept
    exact hq
  · apply State.workChoose_kept
    exact hq
  · apply State.workGateUp_kept
    exact hq
  · apply State.workHidden_kept
    exact hq
  · apply State.workDown_kept
    exact hq
  · apply State.workExit_kept
    exact hq
  · apply State.workSlice_kept
    exact hq
  · apply State.workHead_kept
    exact hq
  · apply State.workDraw_kept
    exact hq
  · apply State.arrive_kept
    exact hq
  · apply State.arrive_kept
    exact hq
  · apply State.arrive_kept
    exact hq
  · apply State.arrive_kept
    exact hq
  · apply State.arrive_kept
    exact hq
  · apply State.arrive_kept
    exact hq
  · apply State.arrive_kept
    exact hq
  · apply State.arrive_kept
    exact hq
  · apply State.arrive_kept
    exact hq

theorem State.doPiece_kept {r0 : State} (s : State) (w : Work) (hq : Kept r0 s) : Kept r0 (State.doPiece s w) := by
  unfold State.doPiece
  split
  · exact hq
  · split
    · exact hq
    · split
      · exact hq
      · split
        · apply State.wait_kept
          exact hq
        · extract_lets +onlyGivenNames v0
          have hv0 : Kept r0 v0 := by
            unfold v0
            apply State.workIn_kept
            exact hq
          clear_value v0
          split
          · exact hv0
          · apply State.modAttempt_kept
            exact hv0

theorem execPlanPointReached_kept {r0 : State} (s : State)
    {t : State} (e : execPlanPointReached s = .next t) (hq : Kept r0 s) : Kept r0 t := by
  unfold execPlanPointReached at e
  cases e
  split
  · exact hq
  · split
    · apply State.planNext_kept
      exact hq
    · exact hq

theorem execIdlePlan_kept {r0 : State} (s : State)
    {t : State} (e : execIdlePlan s = .next t) (hq : Kept r0 s) : Kept r0 t := by
  unfold execIdlePlan at e
  cases e
  split
  · apply State.planNext_kept
    exact hq
  · exact hq

theorem execIdleApply_kept {r0 : State} (s : State)
    {t : State} (e : execIdleApply s = .next t) (hq : Kept r0 s) : Kept r0 t := by
  unfold execIdleApply at e
  cases e
  apply State.idleApply_kept
  exact hq

theorem State.leaveDegraded_kept {r0 : State} (s : State) (hq : Kept r0 s) : Kept r0 (State.leaveDegraded s) := by
  unfold State.leaveDegraded
  split
  · exact hq
  · extract_lets +onlyGivenNames v0
    extract_lets +onlyGivenNames v1
    have hv1 : Kept r0 v1 := by
      unfold v1
      apply State.mirrorAgain_kept
      exact Kept.upd hq rfl
    clear_value v1
    extract_lets +onlyGivenNames v2
    have hv2 : Kept r0 v2 := by
      unfold v2
      split
      · apply State.setRegFld_kept
        exact hv1
      · exact hv1
    clear_value v2
    apply State.event_kept
    exact hv2

theorem State.planRefused_kept {r0 : State} (s : State) (c node : Nat)
    (hq : Kept r0 s) : Kept r0 (State.planRefused s c node) := by
  unfold State.planRefused
  extract_lets +onlyGivenNames v0
  have hv0 : Kept r0 v0 := by
    unfold v0
    split
    · split
      · apply State.stopAttempt_kept
        exact hq
      · exact hq
    · exact hq
  clear_value v0
  apply State.runPlaces_kept
  apply State.settleCtxs_kept
  apply State.faultAt_kept
  exact hv0

theorem State.takeRefusal_kept {r0 : State} (s : State) (m : SealMsg)
    (hq : Kept r0 s) : Kept r0 (State.takeRefusal s m) := by
  unfold State.takeRefusal
  split
  · exact hq
  · split
    · split
      · exact Kept.upd hq rfl
      · apply State.planRefused_kept
        exact hq
    · apply State.planRefused_kept
      exact hq

theorem State.keepPlan_kept {r0 : State} (s : State) (pl : Plan) (hq : Kept r0 s) : Kept r0 (State.keepPlan s pl) := by
  unfold State.keepPlan
  exact Kept.upd hq rfl

theorem State.adoptStep_kept {r0 : State} (s : State) (c : Nat) (pl : Plan)
    (hq : Kept r0 s) : Kept r0 (State.adoptStep s c pl) := by
  unfold State.adoptStep
  split
  · apply State.modCtx_kept
    exact hq
  · exact hq

theorem execPlan_kept {r0 : State} (pl : Plan) (s : State)
    {t : State} (e : execPlan pl s = .next t) (hq : Kept r0 s) : Kept r0 t := by
  unfold execPlan at e
  cases e
  extract_lets +onlyGivenNames v0
  have hv0 : Kept r0 v0 := by
    unfold v0
    apply State.emits_kept
    apply State.heardCtl_kept
    exact hq
  clear_value v0
  split
  · exact hv0
  · extract_lets +onlyGivenNames v1
    have hv1 : Kept r0 v1 := by
      unfold v1
      exact Kept.upd hv0 rfl
    clear_value v1
    split
    · apply State.keepPlan_kept
      apply State.adoptStep_kept
      apply State.leaveDegraded_kept
      apply State.wake_kept
      exact hv1
    · extract_lets +onlyGivenNames v2
      extract_lets +onlyGivenNames v3
      have hv3 : Kept r0 v3 := by
        unfold v3
        split
        · apply State.keepPlan_kept
          exact hv1
        · exact hv1
      clear_value v3
      apply State.takeRefusal_kept
      apply State.sendRefusal_kept
      exact hv3

theorem State.stallOn_kept {r0 : State} (s : State) (a : Attempt) (ls : List Nat)
    (hq : Kept r0 s) : Kept r0 (State.stallOn s a ls) := by
  unfold State.stallOn
  split
  · exact hq
  · refine foldl_kept ?_ ?_
    · exact hq
    · intro s0 x0 hs0
      try dsimp only
      split
      · exact hs0
      · apply State.sendRequest_kept
        exact hs0

theorem runList_kept {r0 : State} (l : List Work) (s : State) (hq : Kept r0 s) : Kept r0 (runList l s) := by
  induction l generalizing s with
  | nil => exact State.modAttempt_kept _ _ hq
  | cons w ws ih =>
    unfold runList
    extract_lets t
    have ht : Kept r0 t := State.doPiece_kept _ _ hq
    split
    · exact ht
    · split
      · split
        · exact ih _ (State.modAttempt_kept _ _ ht)
        · exact State.stallOn_kept _ _ _ (State.modAttempt_kept _ _ ht)
      · split
        · exact State.stallOn_kept _ _ _ (State.modAttempt_kept _ _ hq)
        · exact ih _ ht

theorem State.nextStage_kept {r0 : State} (s : State) (hq : Kept r0 s) : Kept r0 (State.nextStage s) := by
  unfold State.nextStage
  apply State.streamJig_kept
  apply State.modAttempt_kept
  exact hq

theorem State.runTodo_kept {r0 : State} (s : State) (hq : Kept r0 s) : Kept r0 (State.runTodo s) := by
  unfold State.runTodo
  split
  · exact hq
  · extract_lets +onlyGivenNames v0
    have hv0 : Kept r0 v0 := by
      unfold v0
      apply runList_kept
      exact hq
    clear_value v0
    split
    · exact hv0
    · split
      · apply State.nextStage_kept
        exact hv0
      · exact hv0

theorem execStageEnd_kept {r0 : State} (work : List Work) (s : State)
    {t : State} (e : execStageEnd work s = .next t) (hq : Kept r0 s) : Kept r0 t := by
  unfold execStageEnd at e
  cases e
  split
  · refine foldl_kept ?_ ?_
    · exact hq
    · intro s0 x0 hs0
      try dsimp only
      apply State.arrive_kept
      exact hs0
  · split
    · refine foldl_kept ?_ ?_
      · exact hq
      · intro s1 x1 hs1
        try dsimp only
        apply State.arrive_kept
        exact hs1
    · extract_lets +onlyGivenNames v2
      extract_lets +onlyGivenNames v3
      have hv3 : Kept r0 v3 := by
        unfold v3
        split
        · refine foldl_kept ?_ ?_
          · exact hq
          · intro s4 x4 hs4
            try dsimp only
            apply State.arrive_kept
            exact hs4
        · apply State.modAttempt_kept
          refine foldl_kept ?_ ?_
          · exact hq
          · intro s5 x5 hs5
            try dsimp only
            apply State.arrive_kept
            exact hs5
      clear_value v3
      apply State.runTodo_kept
      exact hv3

theorem execData_kept {r0 : State} (src tag : Nat) (bytes : List Byte) (poison : Bool) (s : State)
    {t : State} (e : execData src tag bytes poison s = .next t) (hq : Kept r0 s) : Kept r0 t := by
  unfold execData at e
  cases e
  extract_lets +onlyGivenNames v0
  have hv0 : Kept r0 v0 := by
    unfold v0
    apply State.heardRsp_kept
    exact hq
  clear_value v0
  split
  · exact hv0
  · split
    · apply State.lendConfirmed_kept
      refine State.takeOutst_kept_of (by assumption) ?_
      exact hv0
    · split
      · apply State.runTodo_kept
        apply State.modAttempt_kept
        refine State.takeOutst_kept_of (by assumption) ?_
        exact hv0
      · refine State.takeOutst_kept_of (by assumption) ?_
        exact hv0
    · apply State.fetchLanded_kept
      refine State.takeOutst_kept_of (by assumption) ?_
      exact hv0
    · apply State.copyLanded_kept
      refine State.takeOutst_kept_of (by assumption) ?_
      exact hv0
    · apply State.joinRecordLanded_kept
      refine State.takeOutst_kept_of (by assumption) ?_
      exact hv0
    · apply State.joinMemLanded_kept
      refine State.takeOutst_kept_of (by assumption) ?_
      exact hv0
    · refine State.takeOutst_kept_of (by assumption) ?_
      exact hv0
    · refine State.takeOutst_kept_of (by assumption) ?_
      exact hv0
    · refine State.takeOutst_kept_of (by assumption) ?_
      exact hv0
    · refine State.takeOutst_kept_of (by assumption) ?_
      exact hv0
    · refine State.takeOutst_kept_of (by assumption) ?_
      exact hv0
    · refine State.takeOutst_kept_of (by assumption) ?_
      exact hv0

theorem execStepStart_kept {r0 : State} (s : State)
    {t : State} (e : execStepStart s = .next t) (hq : Kept r0 s) : Kept r0 t := by
  unfold execStepStart at e
  cases e
  split
  · exact hq
  · split
    · exact hq
    · split
      · exact hq
      · extract_lets +onlyGivenNames v0
        extract_lets +onlyGivenNames v1
        extract_lets +onlyGivenNames v2
        extract_lets +onlyGivenNames v3
        have hv3 : Kept r0 v3 := by
          unfold v3
          exact Kept.upd hq rfl
        clear_value v3
        split
        · apply State.planRefused_kept
          exact hv3
        · extract_lets +onlyGivenNames v4
          have hv4 : Kept r0 v4 := by
            unfold v4
            split
            · apply State.bump_kept
              exact hv3
            · exact hv3
          clear_value v4
          extract_lets +onlyGivenNames v5
          have hv5 : Kept r0 v5 := by
            unfold v5
            split
            · apply State.bump_kept
              exact hv4
            · exact hv4
          clear_value v5
          extract_lets +onlyGivenNames v6
          extract_lets +onlyGivenNames v7
          have hv7 : Kept r0 v7 := by
            unfold v7
            exact Kept.upd hv5 rfl
          clear_value v7
          extract_lets +onlyGivenNames v8
          have hv8 : Kept r0 v8 := by
            unfold v8
            apply State.modAttempt_kept
            apply State.loadStage_kept
            exact hv7
          clear_value v8
          split
          · apply State.retractAttempt_kept
            apply State.bump_kept
            exact hv8
          · apply State.retractAttempt_kept
            exact hv8
          · apply State.unpark_kept
            apply State.runTodo_kept
            exact hv8

theorem State.addOut_kept {r0 : State} (s : State) (c job node region first : Nat) (states : List Acc)
    (hq : Kept r0 s) : Kept r0 (State.addOut s c job node region first states) := by
  unfold State.addOut
  split
  · exact hq
  · split
    · apply State.accAdd_kept
      exact hq
    · extract_lets +onlyGivenNames v0
      apply State.signLines_kept
      apply State.sendRequest_kept
      exact hq

theorem State.regionRow_kept {r0 : State} (s : State) (c job : Nat) (t : Tile) (n region node slot : Nat) (row : List
    (Acc × Bool))
    (hq : Kept r0 s) : Kept r0 (State.regionRow s c job t n region node slot row) := by
  unfold State.regionRow
  extract_lets +onlyGivenNames v0
  extract_lets +onlyGivenNames v1
  have hv1 : Kept r0 v1 := by
    unfold v1
    split
    · apply State.addEvents_kept
      exact hq
    · exact hq
  clear_value v1
  apply State.addOut_kept
  exact hv1

theorem State.productRow_kept {r0 : State} (s : State) (a : Attempt) (x : Ctx) (t : Tile) (d : List Byte) (dst i : Nat)
    (row : List (Acc × Bool)) (hq : Kept r0 s) : Kept r0 (State.productRow s a x t d dst i row) := by
  unfold State.productRow
  extract_lets +onlyGivenNames v0
  extract_lets +onlyGivenNames v1
  have hv1 : Kept r0 v1 := by
    unfold v1
    apply State.addEvents_kept
    exact hq
  clear_value v1
  extract_lets +onlyGivenNames v2
  have hv2 : Kept r0 v2 := by
    unfold v2
    apply State.putCols_kept
    exact hv1
  clear_value v2
  extract_lets +onlyGivenNames v3
  apply State.unitWrite_kept
  exact hv2

theorem State.releaseTile_kept {r0 : State} (s : State) (t : Tile) (hq : Kept r0 s) : Kept r0 (State.releaseTile s t) := by
  unfold State.releaseTile
  split
  · exact hq
  · split
    · exact hq
    · extract_lets +onlyGivenNames v0
      extract_lets +onlyGivenNames v1
      extract_lets +onlyGivenNames v2
      have hv2 : Kept r0 v2 := by
        unfold v2
        apply State.addEvents_kept
        exact hq
      clear_value v2
      split
      · refine foldl_kept ?_ ?_
        · apply State.setFormed_kept
          exact hv2
        · intro s3 x3 hs3
          try dsimp only
          apply State.productRow_kept
          exact hs3
      · refine foldl_kept ?_ ?_
        · exact hv2
        · intro s4 x4 hs4
          try dsimp only
          apply State.regionRow_kept
          exact hs4
      · refine foldl_kept ?_ ?_
        · exact hv2
        · intro s5 x5 hs5
          try dsimp only
          apply State.regionRow_kept
          exact hs5
      · apply State.modAttempt_kept
        exact hv2
      · extract_lets +onlyGivenNames v6
        have hv6 : Kept r0 v6 := by
          unfold v6
          apply State.modAttempt_kept
          apply State.addEvents_kept
          exact hv2
        clear_value v6
        split
        · split
          · apply State.modAttempt_kept
            exact hv6
          · apply State.emit_kept
            exact hv6
        · exact hv6

theorem drainTiles_kept {r0 : State} (n : Nat) (s : State) (hq : Kept r0 s) : Kept r0 (drainTiles n s) := by
  induction n generalizing s with
  | zero => exact hq
  | succ n ih =>
    unfold drainTiles
    split
    · exact hq
    · split
      · exact hq
      · split
        · exact hq
        · exact ih _ (State.releaseTile_kept _ _ (Kept.upd hq rfl))

theorem State.drain_kept {r0 : State} (s : State) (hq : Kept r0 s) : Kept r0 (State.drain s) := by
  unfold State.drain
  apply State.runTodo_kept
  apply drainTiles_kept
  exact hq

theorem execTileCheck_kept {r0 : State} (die : Fin 8) (core : Fin 48) (upset : List (Nat × Nat × Nat)) (s : State)
    {t : State} (e : execTileCheck die core upset s = .next t) (hq : Kept r0 s) : Kept r0 t := by
  unfold execTileCheck at e
  cases e
  split
  · exact hq
  · split
    · exact hq
    · split
      · exact hq
      · extract_lets +onlyGivenNames v0
        split
        · apply State.drain_kept
          exact Kept.upd hq rfl
        · apply State.setRegBit_kept
          exact Kept.upd hq rfl

theorem State.replayPassed_kept {r0 : State} (s : State) (die : Fin 8) (core : Nat) (replays : List Nat) (step : Nat)
    (hq : Kept r0 s) : Kept r0 (State.replayPassed s die core replays step) := by
  unfold State.replayPassed
  extract_lets +onlyGivenNames v0
  have hv0 : Kept r0 v0 := by
    unfold v0
    apply State.correctedEvent_kept
    apply State.bump_kept
    exact hq
  clear_value v0
  split
  · exact hv0
  · apply State.correctedEvent_kept
    exact hv0

theorem State.unrecoverable_kept {r0 : State} (s : State) (die : Fin 8) (core step : Nat)
    (hq : Kept r0 s) : Kept r0 (State.unrecoverable s die core step) := by
  unfold State.unrecoverable
  apply State.stepFault_kept
  apply State.logFault_kept
  apply State.bump_kept
  exact hq

theorem State.replayFailed_kept {r0 : State} (s : State) (die core : Nat) (replays : List Nat)
    (hq : Kept r0 s) : Kept r0 (State.replayFailed s die core replays) := by
  unfold State.replayFailed
  apply State.setRegBit_kept
  exact hq

theorem State.putHeld_kept {r0 : State} (s : State) (h : Held) (hq : Kept r0 s) : Kept r0 (State.putHeld s h) := by
  unfold State.putHeld
  split
  · apply State.putRow_kept
    exact hq
  · apply State.setVreg_kept
    exact hq

theorem execReplayDone_kept {r0 : State} (die : Fin 8) (core : Fin 48) (pass : Bool) (s : State)
    {t : State} (e : execReplayDone die core pass s = .next t) (hq : Kept r0 s) : Kept r0 t := by
  unfold execReplayDone at e
  cases e
  split
  · exact hq
  · extract_lets +onlyGivenNames v0
    split
    · split
      · exact hq
      · extract_lets +onlyGivenNames v1
        have hv1 : Kept r0 v1 := by
          unfold v1
          exact Kept.upd hq rfl
        clear_value v1
        split
        · apply State.drain_kept
          apply State.replayPassed_kept
          exact Kept.upd hq rfl
        · split
          · extract_lets +onlyGivenNames v2
            apply State.replayFailed_kept
            exact Kept.upd hq rfl
          · apply State.runTodo_kept
            apply State.unrecoverable_kept
            apply State.replayFailed_kept
            exact hv1
    · split
      · exact hq
      · split
        · exact hq
        · extract_lets +onlyGivenNames v3
          have hv3 : Kept r0 v3 := by
            unfold v3
            exact Kept.upd hq rfl
          clear_value v3
          split
          · apply State.runTodo_kept
            apply State.replayPassed_kept
            apply State.putHeld_kept
            exact hv3
          · split
            · extract_lets +onlyGivenNames v4
              apply State.replayFailed_kept
              exact Kept.upd hq rfl
            · apply State.runTodo_kept
              apply State.unrecoverable_kept
              apply State.replayFailed_kept
              exact hv3

theorem State.sendMarkers_kept {r0 : State} (s : State) (a : Attempt) (layer expert : Nat)
    (hq : Kept r0 s) : Kept r0 (State.sendMarkers s a layer expert) := by
  unfold State.sendMarkers
  split
  · exact hq
  · extract_lets +onlyGivenNames v0
    extract_lets +onlyGivenNames v1
    extract_lets +onlyGivenNames v2
    refine foldl_kept ?_ ?_
    · exact hq
    · intro s3 x3 hs3
      try dsimp only
      split
      · apply State.groupMarker_kept
        exact hs3
      · apply State.sendRequest_kept
        exact hs3

theorem State.closeWindow_kept {r0 : State} (s : State) (a : Attempt) (index : Nat) (w : List Byte)
    (hq : Kept r0 s) : Kept r0 (State.closeWindow s a index w) := by
  unfold State.closeWindow
  split
  · exact hq
  · split
    · apply State.grantSite_kept
      exact hq
    · split
      · split
        · apply State.sendMarkers_kept
          exact hq
        · exact hq
      · exact hq

theorem execWindowEnd_kept {r0 : State} (index : Nat) (outstanding : Bool) (s : State)
    {t : State} (e : execWindowEnd index outstanding s = .next t) (hq : Kept r0 s) : Kept r0 t := by
  unfold execWindowEnd at e
  cases e
  split
  · exact hq
  · split
    · exact hq
    · split
      · exact hq
      · split
        · apply State.failShare_kept
          apply State.modAttempt_kept
          exact hq
        · apply State.drain_kept
          apply State.closeWindow_kept
          apply State.modAttempt_kept
          exact hq

theorem State.roundRow_kept {r0 : State} (s : State) (k : Combine) (d : List Byte) (f : OutFmt) (slot : Nat)
    (hq : Kept r0 s) : Kept r0 (State.roundRow s k d f slot).2 := by
  unfold State.roundRow
  extract_lets +onlyGivenNames v0
  dsimp only
  apply State.addEvents_kept
  exact hq

theorem State.roundCombine_kept {r0 : State} (s : State) (a : Attempt) (x : Ctx) (layer : Nat) (d : List Byte) (k : Combine)
    (hq : Kept r0 s) : Kept r0 (State.roundCombine s a x layer d k) := by
  unfold State.roundCombine
  apply State.modAttempt_kept
  refine foldl_kept ?_ ?_
  · exact hq
  · intro s0 x0 hs0
    try dsimp only
    split
    · apply State.putRow_kept
      exact hs0
    · apply State.multicast_kept
      apply State.putRow_kept
      apply State.roundRow_kept
      exact hs0

theorem State.roundRegion_kept {r0 : State} (s : State) (a : Attempt) (region : Nat)
    (hq : Kept r0 s) : Kept r0 (State.roundRegion s a region) := by
  unfold State.roundRegion
  split
  · exact hq
  · split
    · exact hq
    · extract_lets +onlyGivenNames v0
      split
      · exact hq
      · extract_lets +onlyGivenNames v1
        extract_lets +onlyGivenNames v2
        have hv2 : Kept r0 v2 := by
          unfold v2
          refine foldl_kept ?_ ?_
          · exact hq
          · intro s3 x3 hs3
            try dsimp only
            apply State.putRow_kept
            apply State.roundRow_kept
            exact hs3
        clear_value v2
        apply State.modAttempt_kept
        apply State.setFormed_kept
        exact hv2

theorem execCombineRound_kept {r0 : State} (layer : Nat) (s : State)
    {t : State} (e : execCombineRound layer s = .next t) (hq : Kept r0 s) : Kept r0 t := by
  unfold execCombineRound at e
  cases e
  split
  · exact hq
  · split
    · exact hq
    · split
      · apply State.runTodo_kept
        apply State.roundRegion_kept
        exact hq
      · split
        · exact hq
        · extract_lets +onlyGivenNames v0
          split
          · exact hq
          · apply State.runTodo_kept
            apply State.modAttempt_kept
            apply State.roundCombine_kept
            exact hq

theorem execStallWatchdog_kept {r0 : State} (die seg : Fin 8) (cycles : Nat) (remote : Bool) (s : State)
    {t : State} (e : execStallWatchdog die seg cycles remote s = .next t) (hq : Kept r0 s) : Kept r0 t := by
  unfold execStallWatchdog at e
  cases e
  extract_lets +onlyGivenNames v0
  extract_lets +onlyGivenNames v1
  extract_lets +onlyGivenNames v2
  have hv2 : Kept r0 v2 := by
    unfold v2
    split
    · apply State.setRegFld_kept
      exact hq
    · exact hq
  clear_value v2
  split
  · extract_lets +onlyGivenNames v3
    apply State.bump64_kept
    unfold v3
    apply State.free_kept
    exact hv2
  · split
    · apply State.failShare_kept
      apply State.bump_kept
      apply State.setRegBit_kept
      exact hv2
    · exact hv2

theorem State.commitIf_kept {r0 : State} (s : State) (hq : Kept r0 s) : Kept r0 (State.commitIf s) := by
  unfold State.commitIf
  split
  · exact hq
  · split
    · apply State.commitStep_kept
      exact hq
    · exact hq

theorem execSealSend_kept {r0 : State} (s : State)
    {t : State} (e : execSealSend s = .next t) (hq : Kept r0 s) : Kept r0 t := by
  unfold execSealSend at e
  cases e
  split
  · exact hq
  · split
    · exact hq
    · extract_lets +onlyGivenNames v0
      have hv0 : Kept r0 v0 := by
        unfold v0
        apply State.sendReports_kept
        apply State.sendSeal_kept
        apply State.noteLate_kept
        exact hq
      clear_value v0
      extract_lets +onlyGivenNames v1
      have hv1 : Kept r0 v1 := by
        unfold v1
        apply State.modAttempt_kept
        exact hv0
      clear_value v1
      apply State.commitIf_kept
      exact hv1

theorem State.notePeer_kept {r0 : State} (s : State) (m : SealMsg) (hq : Kept r0 s) : Kept r0 (State.notePeer s m) := by
  unfold State.notePeer
  split
  · apply State.noteLate_kept
    exact hq
  · exact hq

theorem State.takeSeal_kept {r0 : State} (s : State) (a : Attempt) (m : SealMsg)
    (hq : Kept r0 s) : Kept r0 (State.takeSeal s a m) := by
  unfold State.takeSeal
  split
  · exact hq
  · split
    · apply State.commitIf_kept
      apply State.modAttempt_kept
      apply State.notePeer_kept
      exact hq
    · apply State.retractAttempt_kept
      apply State.notePeer_kept
      exact hq

theorem execSealMessage_kept {r0 : State} (m : SealMsg) (s : State)
    {t : State} (e : execSealMessage m s = .next t) (hq : Kept r0 s) : Kept r0 t := by
  unfold execSealMessage at e
  cases e
  extract_lets +onlyGivenNames v0
  have hv0 : Kept r0 v0 := by
    unfold v0
    apply State.heardCtl_kept
    exact hq
  clear_value v0
  split
  · exact hv0
  · split
    · apply State.notePeer_kept
      exact hv0
    · split
      · apply State.takeRefusal_kept
        apply State.notePeer_kept
        exact hv0
      · split
        · apply State.takeSeal_kept
          exact hv0
        · split
          · exact hv0
          · extract_lets +onlyGivenNames v1
            have hv1 : Kept r0 v1 := by
              unfold v1
              apply State.notePeer_kept
              exact hv0
            clear_value v1
            exact Kept.upd hv1 rfl

theorem State.answerEdits_kept {r0 : State} (s : State) (node c : Nat)
    (hq : Kept r0 s) : Kept r0 (State.answerEdits s node c) := by
  unfold State.answerEdits
  split
  · exact hq
  · split
    · exact hq
    · apply State.emit_kept
      exact hq

theorem State.takeEdits_kept {r0 : State} (s : State) (r : Report) (hq : Kept r0 s) : Kept r0 (State.takeEdits s r) := by
  unfold State.takeEdits
  split
  · exact hq
  · split
    · exact hq
    · split
      · exact Kept.upd hq rfl
      · apply State.answerEdits_kept
        apply State.mirrorAll_kept
        apply State.faultTables_kept
        apply State.pageManager_kept
        exact hq

theorem State.takeMask_kept {r0 : State} (s : State) (r : Report) (hq : Kept r0 s) : Kept r0 (State.takeMask s r) := by
  unfold State.takeMask
  split
  · exact hq
  · split
    · apply State.setPlanes_kept
      exact hq
    · exact hq

theorem execReport_kept {r0 : State} (r : Report) (s : State)
    {t : State} (e : execReport r s = .next t) (hq : Kept r0 s) : Kept r0 t := by
  unfold execReport at e
  cases e
  extract_lets +onlyGivenNames v0
  have hv0 : Kept r0 v0 := by
    unfold v0
    apply State.heardCtl_kept
    exact hq
  clear_value v0
  split
  · apply State.takeMask_kept
    exact hv0
  · extract_lets +onlyGivenNames v1
    have hv1 : Kept r0 v1 := by
      unfold v1
      apply State.takeEdits_kept
      exact hv0
    clear_value v1
    extract_lets +onlyGivenNames v2
    have hv2 : Kept r0 v2 := by
      unfold v2
      split
      · exact hv1
      · apply State.finishMaps_kept
        exact hv1
    clear_value v2
    split
    · apply State.giveReport_kept
      exact hv2
    · exact hv2

theorem execSealPendingSend_kept {r0 : State} (s : State)
    {t : State} (e : execSealPendingSend s = .next t) (hq : Kept r0 s) : Kept r0 t := by
  unfold execSealPendingSend at e
  cases e
  split
  · exact hq
  · split
    · exact hq
    · apply State.toPeers_kept
      exact hq

theorem execSealDeadlineExpired_kept {r0 : State} (s : State)
    {t : State} (e : execSealDeadlineExpired s = .next t) (hq : Kept r0 s) : Kept r0 t := by
  unfold execSealDeadlineExpired at e
  cases e
  split
  · exact hq
  · split
    · apply State.failShare_kept
      exact hq
    · exact hq

theorem execSealTimeout_kept {r0 : State} (node : Nat) (s : State)
    {t : State} (e : execSealTimeout node s = .next t) (hq : Kept r0 s) : Kept r0 t := by
  unfold execSealTimeout at e
  cases e
  split
  · exact hq
  · split
    · exact hq
    · extract_lets +onlyGivenNames v0
      have hv0 : Kept r0 v0 := by
        unfold v0
        apply State.sendRetract_kept
        exact hq
      clear_value v0
      apply State.retractAttempt_kept
      exact hv0

theorem State.strictSuspect_kept {r0 : State} (s : State) (c first handle : Nat) (hq : Kept r0 s) :
    Kept r0 (State.strictSuspect s c first handle) := by
  unfold State.strictSuspect
  split
  · extract_lets +onlyGivenNames held gen s1
    have h1 : Kept r0 s1 := Kept.upd hq rfl
    clear_value s1 gen
    extract_lets +onlyGivenNames s2
    have h2 : Kept r0 s2 := by
      unfold s2
      split
      · split
        · exact Kept.upd h1 rfl
        · exact State.complete_kept _ _ _ _ _ h1
      · split
        · exact State.complete_kept _ _ _ _ _ h1
        · exact h1
    exact ite_kept h2 (State.edit_kept _ _ _ (State.setSeq_kept _ _ _ h2))
  · exact hq

theorem State.suspectNotice_kept {r0 : State} (s : State) (job first last : Nat)
    (hq : Kept r0 s) : Kept r0 (State.suspectNotice s job first last) := by
  unfold State.suspectNotice
  split
  · exact hq
  · refine foldl_kept ?_ ?_
    · exact hq
    · intro s0 x0 hs0
      try dsimp only
      split
      · apply State.strictSuspect_kept
        apply State.bump_kept
        apply State.event_kept
        exact hs0
      · apply State.bump_kept
        apply State.event_kept
        exact hs0

theorem execRetract_kept {r0 : State} (m : RetractMsg) (s : State)
    {t : State} (e : execRetract m s = .next t) (hq : Kept r0 s) : Kept r0 t := by
  unfold execRetract at e
  cases e
  extract_lets +onlyGivenNames v0
  have hv0 : Kept r0 v0 := by
    unfold v0
    apply State.heardCtl_kept
    exact hq
  clear_value v0
  split
  · apply State.suspectNotice_kept
    exact hv0
  · split
    · exact hv0
    · split
      · exact Kept.upd hv0 rfl
      · apply State.retractAttempt_kept
        apply State.bump_kept
        exact hv0

theorem State.cutLost_kept {r0 : State} (s : State) (c : Nat) (x : Ctx) (node : Nat) (q : Seq)
    (hq : Kept r0 s) : Kept r0 (State.cutLost s c x node q) := by
  unfold State.cutLost
  split
  · exact hq
  · extract_lets +onlyGivenNames v0
    have hv0 : Kept r0 v0 := by
      unfold v0
      split
      · apply State.complete_kept
        exact hq
      · exact hq
    clear_value v0
    apply State.edit_kept
    apply State.setSeq_kept
    exact hv0

theorem State.degradeCtx_kept {r0 : State} (s : State) (node c : Nat)
    (hq : Kept r0 s) : Kept r0 (State.degradeCtx s node c) := by
  unfold State.degradeCtx
  split
  · exact hq
  · split
    · exact hq
    · extract_lets +onlyGivenNames v0
      have hv0 : Kept r0 v0 := by
        unfold v0
        refine foldl_kept ?_ ?_
        · exact hq
        · intro s1 x1 hs1
          try dsimp only
          split
          · apply State.markClosing_kept
            exact hs1
          · exact hs1
      clear_value v0
      refine foldl_kept ?_ ?_
      · exact hv0
      · intro s2 x2 hs2
        try dsimp only
        split
        · apply State.cutLost_kept
          exact hs2
        · exact hs2

theorem State.loseMember_kept {r0 : State} (s : State) (node : Nat) (hq : Kept r0 s) : Kept r0 (State.loseMember s node) := by
  unfold State.loseMember
  refine ite_kept hq ?_
  have h1 : Kept r0 { s with lostNodes := s.lostNodes ++ [node] } := Kept.upd hq rfl
  extract_lets +onlyGivenNames lead s1 b s2
  have h2 : Kept r0 s2 := by
    unfold s2
    split
    · exact State.discardPlans_kept _ _ h1
    · exact Kept.upd (State.stopAttempt_kept _ _ _ h1) rfl
  extract_lets +onlyGivenNames s3 s4 s5 s6
  have h3 : Kept r0 s3 := ite_kept h2 (Kept.upd h2 rfl)
  have h4 : Kept r0 s4 := State.setRegFld_kept _ _ _ _ _ (State.setRegFld_kept _ _ _ _ _ h3)
  have h5 : Kept r0 s5 := State.event_kept _ _ _ _ _ _ h4
  have h6 : Kept r0 s6 := foldl_kept h5 fun _ _ h => State.degradeCtx_kept _ _ _ h
  exact State.settleFences_kept _ _ (State.runPlaces_kept _ (State.settleCtxs_kept _ _ h6))

theorem execDepartMessage_kept {r0 : State} (node _cause : Nat) (s : State)
    {t : State} (e : execDepartMessage node _cause s = .next t) (hq : Kept r0 s) : Kept r0 t := by
  unfold execDepartMessage at e
  cases e
  apply State.loseMember_kept
  apply State.heardCtl_kept
  exact hq

theorem execMemberLost_kept {r0 : State} (node : Nat) (s : State)
    {t : State} (e : execMemberLost node s = .next t) (hq : Kept r0 s) : Kept r0 t := by
  unfold execMemberLost at e
  cases e
  apply State.loseMember_kept
  exact hq

theorem execSwitchReady_kept {r0 : State} (die : Fin 8) (s : State)
    {t : State} (e : execSwitchReady die s = .next t) (hq : Kept r0 s) : Kept r0 t := by
  unfold execSwitchReady at e
  cases e
  split
  · exact hq
  · split
    · exact hq
    · exact Kept.upd hq rfl

theorem State.setLimState_kept {r0 : State} (s : State) (p v : Nat)
    (hq : Kept r0 s) : Kept r0 (State.setLimState s p v) := by
  unfold State.setLimState
  apply State.setRegFld_kept
  exact hq

theorem State.compareCable_kept {r0 : State} (s : State) (p seen : Nat)
    (hq : Kept r0 s) : Kept r0 (State.compareCable s p seen) := by
  unfold State.compareCable
  extract_lets +onlyGivenNames v0
  extract_lets +onlyGivenNames v1
  have hv1 : Kept r0 v1 := by
    unfold v1
    apply State.setReg_kept
    exact hq
  clear_value v1
  split
  · apply State.sendWaiting_kept
    apply State.setLimState_kept
    exact hv1
  · exact hv1

theorem State.compareCables_kept {r0 : State} (s : State) (hq : Kept r0 s) : Kept r0 (State.compareCables s) := by
  unfold State.compareCables
  refine foldl_kept ?_ ?_
  · exact hq
  · intro s0 x0 hs0
    try dsimp only
    split
    · split
      · apply State.sendWaiting_kept
        apply State.setLimState_kept
        exact hs0
      · exact hs0
    · apply State.compareCable_kept
      exact hs0

theorem State.startLimfele_kept {r0 : State} (s : State) (p : Nat) (hq : Kept r0 s) : Kept r0 (State.startLimfele s p) := by
  unfold State.startLimfele
  apply State.emit_kept
  apply State.setLimState_kept
  exact hq

theorem State.stopPort_kept {r0 : State} (s : State) (p : Nat) (hq : Kept r0 s) : Kept r0 (State.stopPort s p) := by
  unfold State.stopPort
  apply State.leavePort_kept
  apply State.setLimState_kept
  exact hq

theorem State.trainPorts_kept {r0 : State} (s : State) (hq : Kept r0 s) : Kept r0 (State.trainPorts s) := by
  unfold State.trainPorts
  refine foldl_kept ?_ ?_
  · exact hq
  · intro s0 x0 hs0
    try dsimp only
    split
    · apply State.startLimfele_kept
      exact hs0
    · exact hs0

theorem State.openLink_kept {r0 : State} (s : State) (p : Nat) (hq : Kept r0 s) : Kept r0 (State.openLink s p) := by
  unfold State.openLink
  extract_lets +onlyGivenNames v0
  extract_lets +onlyGivenNames v1
  have hv1 : Kept r0 v1 := by
    unfold v1
    apply State.modLink_kept
    exact hq
  clear_value v1
  exact Kept.upd hv1 rfl

theorem execLimfelePortTrained_kept {r0 : State} (port : Fin 32) (partnerV2 lanesPassV2 lanesPassV1 : Bool) (s : State)
    {t : State} (e : execLimfelePortTrained port partnerV2 lanesPassV2 lanesPassV1 s = .next t) (hq : Kept r0 s) : Kept r0 t := by
  unfold execLimfelePortTrained at e
  cases e
  extract_lets +onlyGivenNames v0
  split
  · exact hq
  · extract_lets +onlyGivenNames v1
    split
    · apply State.setLimState_kept
      exact hq
    · apply State.sendWaiting_kept
      apply State.openLink_kept
      apply State.setLimState_kept
      apply State.setRegBit_kept
      exact hq

theorem execLimfelePortDown_kept {r0 : State} (port : Fin 32) (lane : Option (Fin 4)) (s : State)
    {t : State} (e : execLimfelePortDown port lane s = .next t) (hq : Kept r0 s) : Kept r0 t := by
  unfold execLimfelePortDown at e
  cases e
  extract_lets +onlyGivenNames v0
  split
  · exact hq
  · extract_lets +onlyGivenNames v1
    have hv1 : Kept r0 v1 := by
      unfold v1
      apply State.leavePort_kept
      apply State.startLimfele_kept
      exact hq
    clear_value v1
    split
    · exact hv1
    · apply State.correctedEvent_kept
      exact hv1

theorem execLimfeleTrainRetry_kept {r0 : State} (port : Fin 32) (s : State)
    {t : State} (e : execLimfeleTrainRetry port s = .next t) (hq : Kept r0 s) : Kept r0 t := by
  unfold execLimfeleTrainRetry at e
  cases e
  split
  · apply State.startLimfele_kept
    exact hq
  · exact hq

theorem execLinkId_kept {r0 : State} (port : Fin 32) (swId swPort plane : Nat) (s : State)
    {t : State} (e : execLinkId port swId swPort plane s = .next t) (hq : Kept r0 s) : Kept r0 t := by
  unfold execLinkId at e
  cases e
  split
  · exact hq
  · apply State.compareCable_kept
    apply State.setRegFld_kept
    exact hq

theorem execNak_kept {r0 : State} (port : Fin 32) (seq : Nat) (s : State)
    {t : State} (e : execNak port seq s = .next t) (hq : Kept r0 s) : Kept r0 t := by
  unfold execNak at e
  cases e
  extract_lets +onlyGivenNames v0
  apply State.emits_kept
  apply State.bump_kept
  exact hq

theorem execFlitCrcFail_kept {r0 : State} (port : Fin 32) (s : State)
    {t : State} (e : execFlitCrcFail port s = .next t) (hq : Kept r0 s) : Kept r0 t := by
  unfold execFlitCrcFail at e
  cases e
  extract_lets +onlyGivenNames v0
  apply State.emit_kept
  exact hq

theorem execCreditReturn_kept {r0 : State} (port : Fin 32) (vc : Fin 3) (n : Nat) (s : State)
    {t : State} (e : execCreditReturn port vc n s = .next t) (hq : Kept r0 s) : Kept r0 t := by
  unfold execCreditReturn at e
  cases e
  extract_lets +onlyGivenNames v0
  exact Kept.upd hq rfl

theorem execPlaneMaskRepublish_kept {r0 : State} (s : State)
    {t : State} (e : execPlaneMaskRepublish s = .next t) (hq : Kept r0 s) : Kept r0 t := by
  unfold execPlaneMaskRepublish at e
  cases e
  split
  · exact hq
  · extract_lets +onlyGivenNames v0
    split
    · exact hq
    · apply State.toPeers_kept
      apply State.setPlanes_kept
      exact hq

theorem State.heardTime_kept {r0 : State} (s : State) (plane : Nat) (hq : Kept r0 s) : Kept r0 (State.heardTime s plane) := by
  unfold State.heardTime
  apply State.heardOn_kept
  exact hq

theorem execTimeRequest_kept {r0 : State} (src plane t1 : Nat) (correction : Int) (s : State)
    {t : State} (e : execTimeRequest src plane t1 correction s = .next t) (hq : Kept r0 s) : Kept r0 t := by
  unfold execTimeRequest at e
  cases e
  extract_lets +onlyGivenNames v0
  have hv0 : Kept r0 v0 := by
    unfold v0
    apply State.heardTime_kept
    exact hq
  clear_value v0
  split
  · apply State.emit_kept
    exact hv0
  · exact hv0

theorem execTimeExchangeTick_kept {r0 : State} (s : State)
    {t : State} (e : execTimeExchangeTick s = .next t) (hq : Kept r0 s) : Kept r0 t := by
  unfold execTimeExchangeTick at e
  cases e
  split
  · exact hq
  · split
    · exact hq
    · apply State.emits_kept
      exact Kept.upd hq rfl

theorem State.noteExchange_kept {r0 : State} (s : State) (m : Int) (hq : Kept r0 s) : Kept r0 (State.noteExchange s m) := by
  unfold State.noteExchange
  extract_lets +onlyGivenNames v0
  extract_lets +onlyGivenNames v1
  have hv1 : Kept r0 v1 := by
    unfold v1
    exact Kept.upd hq rfl
  clear_value v1
  apply State.setRegFld_kept
  apply State.setRegFld_kept
  exact hv1

theorem State.steer_kept {r0 : State} (s : State) (m : Int) (hq : Kept r0 s) : Kept r0 (State.steer s m) := by
  unfold State.steer
  split
  · extract_lets +onlyGivenNames v0
    exact Kept.upd hq rfl
  · split
    · exact Kept.upd hq rfl
    · extract_lets +onlyGivenNames v1
      extract_lets +onlyGivenNames v2
      extract_lets +onlyGivenNames v3
      have hv3 : Kept r0 v3 := by
        unfold v3
        unfold v1
        apply State.free_kept
        exact hq
      clear_value v3
      exact Kept.upd hv3 rfl

theorem execTimeReply_kept {r0 : State} (plane t1 t2 t3 : Nat) (reqCorrection correction : Int) (s : State)
    {t : State} (e : execTimeReply plane t1 t2 t3 reqCorrection correction s = .next t) (hq : Kept r0 s) : Kept r0 t := by
  unfold execTimeReply at e
  cases e
  extract_lets +onlyGivenNames v0
  have hv0 : Kept r0 v0 := by
    unfold v0
    apply State.heardTime_kept
    exact hq
  clear_value v0
  split
  · exact hv0
  · extract_lets +onlyGivenNames v1
    have hv1 : Kept r0 v1 := by
      unfold v1
      exact Kept.upd hv0 rfl
    clear_value v1
    split
    · exact hv1
    · extract_lets +onlyGivenNames v2
      apply State.steer_kept
      apply State.noteExchange_kept
      exact hv1

theorem execTimeHoldover_kept {r0 : State} (s : State)
    {t : State} (e : execTimeHoldover s = .next t) (hq : Kept r0 s) : Kept r0 t := by
  unfold execTimeHoldover at e
  cases e
  split
  · exact hq
  · apply State.setRegFld_kept
    exact Kept.upd hq rfl

end Sys2Proof.Machine
end

