-- ==== Sys2Proof/Laws/KeptPackage.lean ====
section
/-! SUPPORT. The operations and commands of resets, boot, firmware, descriptors, ports, clocks, the window, power, management and common time keep the queue, the invariant, the fuses
and the classings (`Kept`). -/

set_option linter.unusedVariables false

namespace Sys2Proof.Machine

theorem State.storeCable_kept {r0 : State} (s : State) (p : Nat) (v : Word)
    (hq : Kept r0 s) : Kept r0 (State.storeCable s p v) := by
  unfold State.storeCable
  extract_lets +onlyGivenNames v0
  exact Kept.upd hq rfl

theorem State.setFaultPin_kept {r0 : State} (s : State) (hq : Kept r0 s) : Kept r0 (State.setFaultPin s) := by
  unfold State.setFaultPin
  apply State.setRegBit_kept
  exact hq

theorem State.refreshAlert_kept {r0 : State} (s : State) (hq : Kept r0 s) : Kept r0 (State.refreshAlert s) := by
  unfold State.refreshAlert
  apply State.setRegBit_kept
  exact hq

theorem State.pldmEvent_kept {r0 : State} (s : State) (sensor value : Nat)
    (hq : Kept r0 s) : Kept r0 (State.pldmEvent s sensor value) := by
  unfold State.pldmEvent
  extract_lets +onlyGivenNames v0
  extract_lets +onlyGivenNames v1
  have hv1 : Kept r0 v1 := by
    unfold v1
    exact Kept.upd hq rfl
  clear_value v1
  split
  · exact hv1
  · apply State.refreshAlert_kept
    apply State.emit_kept
    exact Kept.upd hv1 rfl

theorem State.resetRegs_kept {r0 : State} (s : State) (r : Reach) (sel : Nat → Bool)
    (hq : Kept r0 s) : Kept r0 (State.resetRegs s r sel) := by
  unfold State.resetRegs
  exact Kept.upd hq rfl

theorem State.orphanPort_kept {r0 : State} (s : State) (p : EPort) (hq : Kept r0 s) : Kept r0 (State.orphanPort s p) := by
  unfold State.orphanPort
  extract_lets +onlyGivenNames v0
  extract_lets +onlyGivenNames v1
  have hv1 : Kept r0 v1 := by
    unfold v1
    apply State.bump_kept
    exact hq
  clear_value v1
  extract_lets +onlyGivenNames v2
  have hv2 : Kept r0 v2 := by
    unfold v2
    apply State.setPort_kept
    exact hv1
  have o2 : v2.opens = v1.opens := by unfold v2; cases p <;> rfl
  clear_value v2
  exact hv2.opened rfl fun w => opensWf_map (s := v2) (f := fun d => if d.port = p then { d with orphan := true } else d)
    (fun d => by split <;> rfl) (by rw [o2]) w

theorem State.resetEtcen_kept {r0 : State} (s : State) (p : EPort) (hq : Kept r0 s) : Kept r0 (State.resetEtcen s p) := by
  unfold State.resetEtcen
  extract_lets +onlyGivenNames v0
  have hv0 : Kept r0 v0 := by
    unfold v0
    apply State.resetRegs_kept
    apply State.orphanPort_kept
    exact hq
  clear_value v0
  apply State.setPort_kept
  exact hv0

theorem State.stopEthernet_kept {r0 : State} (s : State) (p : Nat) (hq : Kept r0 s) : Kept r0 (State.stopEthernet s p) := by
  unfold State.stopEthernet
  refine foldl_kept ?_ ?_
  · apply State.setReg_kept
    exact hq
  · intro s0 x0 hs0
    try dsimp only
    apply State.setConn_kept
    exact hs0

theorem State.resetEthernet_kept {r0 : State} (s : State) (p : Nat)
    (hq : Kept r0 s) : Kept r0 (State.resetEthernet s p) := by
  unfold State.resetEthernet
  extract_lets +onlyGivenNames v0
  extract_lets +onlyGivenNames v1
  extract_lets +onlyGivenNames v2
  have hv2 : Kept r0 v2 := by
    unfold v2
    apply State.stopEthernet_kept
    exact hq
  clear_value v2
  exact Kept.upd hv2 rfl

theorem State.resetLimfele_kept {r0 : State} (s : State) (p : Nat) (hq : Kept r0 s) : Kept r0 (State.resetLimfele s p) := by
  unfold State.resetLimfele
  apply State.leavePort_kept
  apply State.setReg_kept
  apply State.setReg_kept
  exact hq

theorem State.resetPort_kept {r0 : State} (s : State) (u : Nat) (hq : Kept r0 s) : Kept r0 (State.resetPort s u) := by
  unfold State.resetPort
  split
  · apply State.resetEtcen_kept
    exact hq
  · split
    · apply State.resetEtcen_kept
      exact hq
    · split
      · apply State.resetEthernet_kept
        exact hq
      · split
        · apply State.resetLimfele_kept
          exact hq
        · exact hq

theorem State.trainEtcen_kept {r0 : State} (s : State) (p : EPort) (hq : Kept r0 s) : Kept r0 (State.trainEtcen s p) := by
  unfold State.trainEtcen
  extract_lets +onlyGivenNames v0
  split
  · exact hq
  · apply State.setRegFld_kept
    exact hq

theorem State.startEthernet_kept {r0 : State} (s : State) (p : Nat)
    (hq : Kept r0 s) : Kept r0 (State.startEthernet s p) := by
  unfold State.startEthernet
  split
  · exact hq
  · extract_lets +onlyGivenNames v0
    extract_lets +onlyGivenNames v1
    have hv1 : Kept r0 v1 := by
      unfold v1
      apply State.setReg_kept
      exact hq
    clear_value v1
    refine foldl_kept ?_ ?_
    · exact hv1
    · intro s2 x2 hs2
      try dsimp only
      apply State.emit_kept
      apply State.setConn_kept
      exact hs2

theorem State.startPorts_kept {r0 : State} (s : State) (hq : Kept r0 s) : Kept r0 (State.startPorts s) := by
  unfold State.startPorts
  apply State.trainPorts_kept
  apply State.trainEtcen_kept
  apply State.trainEtcen_kept
  exact hq

theorem State.carried_kept {r0 : State} (s t : State) (hq : Kept r0 s)
    (c : (t.dowels, t.broken, t.hbm, t.slices, t.locals, t.lines, t.opens) =
      (State.reset.dowels, State.reset.broken, [], [], [], [], [])) :
    Kept r0 (s.carried t) := by
  simp only [Prod.mk.injEq] at c
  obtain ⟨c1, c2, c3, c4, c5, cl, c6⟩ := c
  refine hq.trans ⟨rfl, fun i => ?_, fun _ => ⟨rfl, Nat.le_refl _, fun h => ⟨h, rfl⟩⟩, fun e m _ => m⟩
  refine ⟨?_, ?_, i.2.2.1, by simp [State.opensWf, State.carried, c6]⟩
  · simp [State.memoryWf, State.carried, c3, c4, c5, cl, Memory.wf_nil]
  · show State.dowelsWf _ = true
    simp only [State.dowelsWf, State.carried, c1, c2]
    decide

theorem State.coldState_kept {r0 : State} (s : State) (hq : Kept r0 s) : Kept r0 s.coldState := by
  unfold State.coldState
  extract_lets t
  apply State.refreshPower_kept
  exact (State.carried_kept s State.reset hq rfl).upd rfl

theorem State.causeIf_kept {r0 : State} (s : State) (i : Nat) (hq : Kept r0 s) : Kept r0 (State.causeIf s i) := by
  unfold State.causeIf
  split
  · apply State.cause_kept
    exact hq
  · exact hq

theorem State.warmState_kept {r0 : State} (s : State) (hq : Kept r0 s) : Kept r0 s.warmState := by
  unfold State.warmState
  extract_lets +onlyGivenNames s1 held
  have h1 : Kept r0 s1 := foldl_kept hq fun t x h => State.recordRegions_kept _ _ h
  clear_value s1
  apply State.refreshPower_kept
  refine h1.trans ⟨rfl, fun i => ⟨?_, rfl, i.2.2.1, rfl⟩, fun _ => ⟨rfl, Nat.le_refl _, fun h => ⟨h, rfl⟩⟩, fun e m _ => m⟩
  have i1 := i.1
  simp only [State.memoryWf, Bool.and_eq_true] at i1 ⊢
  exact ⟨⟨⟨Memory.wf_filter _ i1.1.1.1, rfl⟩, rfl⟩, rfl⟩

theorem State.setActive_kept {r0 : State} (s : State) (l : List (RstLevel × Nat))
    (hq : Kept r0 s) : Kept r0 (State.setActive s l) := by
  unfold State.setActive
  exact Kept.upd hq rfl

theorem State.recordActive_kept {r0 : State} (s : State) (hq : Kept r0 s) : Kept r0 (State.recordActive s) := by
  unfold State.recordActive
  refine foldl_kept ?_ ?_
  · exact hq
  · intro s0 x0 hs0
    try dsimp only
    split
    · apply State.cause_kept
      exact hs0
    · exact hs0

theorem State.assertWarm_kept {r0 : State} (s : State) (bit : Nat) (hq : Kept r0 s) : Kept r0 (State.assertWarm s bit) := by
  unfold State.assertWarm
  split
  · exact hq
  · extract_lets +onlyGivenNames v0
    have hv0 : Kept r0 v0 := by
      unfold v0
      apply State.causeIf_kept
      exact hq
    clear_value v0
    split
    · apply State.setActive_kept
      exact hv0
    · extract_lets +onlyGivenNames v1
      have hv1 : Kept r0 v1 := by
        unfold v1
        apply State.warmState_kept
        apply State.recordActive_kept
        exact hv0
      clear_value v1
      apply State.setActive_kept
      exact hv1

theorem State.holdIf_kept {r0 : State} (s : State) (l : RstLevel) (hold : Bool)
    (hq : Kept r0 s) : Kept r0 (State.holdIf s l hold) := by
  unfold State.holdIf
  split
  · exact Kept.upd hq rfl
  · exact hq

theorem State.enter_kept {r0 : State} (s : State) (l : RstLevel) (src : Nat)
    (hq : Kept r0 s) : Kept r0 (State.enter s l src) := by
  unfold State.enter
  apply State.setActive_kept
  exact hq

theorem State.dropCores_kept {r0 : State} (s : State) (gone : Nat → Bool) (hq : Kept r0 s) : Kept r0 (State.dropCores s gone) :=
  hq.mem rfl id id (Memory.wf_filter _) id (fun _ m _ => m)

theorem State.dropSram_kept {r0 : State} (s : State) (d : Nat) (hq : Kept r0 s) : Kept r0 (State.dropSram s d) :=
  (State.dropCores_kept s (fun c => c / 48 = d) hq).mem rfl id (Memory.wf_filter _) id (Memory.wf_filter _) (fun _ m _ => m)

theorem State.dropLocal_kept {r0 : State} (s : State) (d c : Nat) (hq : Kept r0 s) : Kept r0 (State.dropLocal s d c) := by
  unfold State.dropLocal
  apply State.dropCores_kept
  exact hq

theorem State.refreshMux_kept {r0 : State} (s : State) (d : Nat) (hq : Kept r0 s) : Kept r0 (State.refreshMux s d) := by
  unfold State.refreshMux
  extract_lets +onlyGivenNames v0
  apply State.setReg_kept
  exact hq

theorem State.unhang_kept {r0 : State} (s : State) (d : Nat) (sel : Nat → Bool)
    (hq : Kept r0 s) : Kept r0 (State.unhang s d sel) := by
  unfold State.unhang
  apply State.refreshMux_kept
  exact Kept.upd hq rfl

theorem State.assertDie_kept {r0 : State} (s : State) (d : Fin 8) (dieBit pkgBit : Nat)
    (hq : Kept r0 s) : Kept r0 (State.assertDie s d dieBit pkgBit) := by
  unfold State.assertDie
  split
  · exact hq
  · extract_lets +onlyGivenNames v0
    have hv0 : Kept r0 v0 := by
      unfold v0
      apply State.dieCause_kept
      exact hq
    clear_value v0
    split
    · apply State.enter_kept
      apply State.causeIf_kept
      exact hv0
    · extract_lets +onlyGivenNames v1
      extract_lets +onlyGivenNames v2
      have hv2 : Kept r0 v2 := by
        unfold v2
        split
        · exact hv0
        · apply State.bump_kept
          exact hv0
      clear_value v2
      extract_lets +onlyGivenNames v3
      have hv3 : Kept r0 v3 := by
        unfold v3
        apply State.unhang_kept
        apply State.dropSram_kept
        exact hv2
      clear_value v3
      extract_lets +onlyGivenNames v4
      have hv4 : Kept r0 v4 := by
        unfold v4
        apply State.resetRegs_kept
        refine foldl_kept ?_ ?_
        · exact hv3
        · intro s5 x5 hs5
          try dsimp only
          apply State.resetPort_kept
          exact hs5
      clear_value v4
      extract_lets +onlyGivenNames v6
      have hv6 : Kept r0 v6 := by
        unfold v6
        apply State.enter_kept
        exact hv4
      clear_value v6
      split
      · exact hv6
      · apply State.failShare_kept
        exact hv6

theorem State.assertCore_kept {r0 : State} (s : State) (d : Fin 8) (c : Fin 48) (dieBit pkgBit : Nat)
    (hq : Kept r0 s) : Kept r0 (State.assertCore s d c dieBit pkgBit) := by
  unfold State.assertCore
  split
  · exact hq
  · extract_lets +onlyGivenNames v0
    have hv0 : Kept r0 v0 := by
      unfold v0
      apply State.dieCause_kept
      exact hq
    clear_value v0
    extract_lets +onlyGivenNames v1
    have hv1 : Kept r0 v1 := by
      unfold v1
      split
      · apply State.causeIf_kept
        exact hv0
      · exact hv0
    clear_value v1
    apply State.enter_kept
    apply State.unhang_kept
    apply State.dropLocal_kept
    exact hv1

theorem State.assertPort_kept {r0 : State} (s : State) (u : Fin 48) (pkgBit : Nat)
    (hq : Kept r0 s) : Kept r0 (State.assertPort s u pkgBit) := by
  unfold State.assertPort
  split
  · exact hq
  · extract_lets +onlyGivenNames v0
    have hv0 : Kept r0 v0 := by
      unfold v0
      split
      · apply State.causeIf_kept
        exact hq
      · exact hq
    clear_value v0
    apply State.enter_kept
    apply State.resetPort_kept
    exact hv0

theorem State.modBoot_kept {r0 : State} (s : State) (f : Boot → Boot) (hq : Kept r0 s) : Kept r0 (State.modBoot s f) := by
  unfold State.modBoot
  exact Kept.upd hq rfl

theorem State.setBoot_kept {r0 : State} (s : State) (v : Nat) (hq : Kept r0 s) : Kept r0 (State.setBoot s v) := by
  unfold State.setBoot
  apply State.setRegFld_kept
  exact hq

theorem State.retireUnits_kept {r0 : State} (s : State) (hq : Kept r0 s) : Kept r0 (State.retireUnits s) := by
  unfold State.retireUnits
  extract_lets +onlyGivenNames v0
  exact Kept.upd hq rfl

theorem State.loseFrames_kept {r0 : State} (s : State) (dies : List Nat) (hq : Kept r0 s) : Kept r0 (s.loseFrames dies) := by
  unfold State.loseFrames
  extract_lets +onlyGivenNames gone
  refine ite_kept hq ?_
  extract_lets +onlyGivenNames keys
  apply State.cause_kept
  exact Kept.mem (State.giveFrames_kept s keys hq) rfl (Memory.wf_filter _) id id id (fun _ m _ => m)

theorem State.readBcb_kept {r0 : State} (s : State) (hq : Kept r0 s) : Kept r0 (State.readBcb s) := by
  unfold State.readBcb
  extract_lets +onlyGivenNames v0
  have hv0 : Kept r0 v0 := by
    unfold v0
    apply State.modBoot_kept
    exact hq
  clear_value v0
  extract_lets +onlyGivenNames v1
  have hv1 : Kept r0 v1 := by
    unfold v1
    apply State.setRegBit_kept
    exact hv0
  clear_value v1
  extract_lets +onlyGivenNames v2
  have hv2 : Kept r0 v2 := by
    unfold v2
    refine foldl_kept ?_ ?_
    · exact hv1
    · intro s3 x3 hs3
      try dsimp only
      apply State.setReg_kept
      exact hs3
  clear_value v2
  extract_lets +onlyGivenNames v4
  have hv4 : Kept r0 v4 := by
    unfold v4
    apply State.setRegFld_kept
    exact hv2
  clear_value v4
  apply State.setMregFld_kept
  exact hv4

theorem State.lockPlls_kept {r0 : State} (s : State) (d : Nat) (hq : Kept r0 s) : Kept r0 (State.lockPlls s d) := by
  unfold State.lockPlls
  split
  · exact hq
  · apply State.setRegFld_kept
    exact hq

theorem State.stageEffecters_kept {r0 : State} (s : State) (hq : Kept r0 s) : Kept r0 (State.stageEffecters s) := by
  unfold State.stageEffecters
  extract_lets +onlyGivenNames v0
  apply State.modBoot_kept
  exact hq

theorem State.bootImage_kept {r0 : State} (s : State) (hq : Kept r0 s) : Kept r0 (State.bootImage s) := by
  unfold State.bootImage
  extract_lets +onlyGivenNames v0
  have hv0 : Kept r0 v0 := by
    unfold v0
    apply State.stageEffecters_kept
    apply State.reloadCap_kept
    refine foldl_kept ?_ ?_
    · exact hq
    · intro s1 x1 hs1
      try dsimp only
      apply State.lockPlls_kept
      exact hs1
  clear_value v0
  extract_lets +onlyGivenNames v2
  extract_lets +onlyGivenNames v3
  extract_lets +onlyGivenNames v4
  have hv4 : Kept r0 v4 := by
    unfold v4
    apply State.modBoot_kept
    exact hv0
  clear_value v4
  split
  · apply State.pldmEvent_kept
    apply State.setBoot_kept
    apply State.setRegBit_kept
    apply State.setRegFld_kept
    exact hv4
  · extract_lets +onlyGivenNames v5
    have hv5 : Kept r0 v5 := by
      unfold v5
      apply State.modBoot_kept
      exact hv4
    clear_value v5
    extract_lets +onlyGivenNames v6
    have hv6 : Kept r0 v6 := by
      unfold v6
      apply State.setRegFld_kept
      apply State.setReg_kept
      exact hv5
    clear_value v6
    extract_lets +onlyGivenNames v7
    have hv7 : Kept r0 v7 := by
      unfold v7
      apply State.modPower_kept
      exact hv6
    clear_value v7
    extract_lets +onlyGivenNames v8
    have hv8 : Kept r0 v8 := by
      unfold v8
      split
      · apply State.modPower_kept
        exact hv7
      · exact hv7
    clear_value v8
    apply State.setBoot_kept
    apply State.refreshPower_kept
    exact hv8

theorem State.bootStart_kept {r0 : State} (s : State) (hq : Kept r0 s) : Kept r0 (State.bootStart s) := by
  unfold State.bootStart
  extract_lets +onlyGivenNames v0
  have hv0 : Kept r0 v0 := by
    unfold v0
    apply State.readBcb_kept
    exact hq
  clear_value v0
  apply State.modBoot_kept
  exact hv0

theorem State.bootTick_kept {r0 : State} (s : State) (hq : Kept r0 s) : Kept r0 (State.bootTick s) := by
  unfold State.bootTick
  split
  · apply State.bootImage_kept
    exact hq
  · exact hq

theorem State.releasePackage_kept {r0 : State} (s : State) (selfTest : List Bool) (slotId : Nat) (parityOk : Bool)
    (hq : Kept r0 s) : Kept r0 (State.releasePackage s selfTest slotId parityOk) := by
  unfold State.releasePackage
  extract_lets +onlyGivenNames v0
  have hv0 : Kept r0 v0 := by
    unfold v0
    apply State.retireUnits_kept
    exact hq
  clear_value v0
  extract_lets +onlyGivenNames v1
  have hv1 : Kept r0 v1 := by
    unfold v1
    apply State.loseFrames_kept
    exact hv0
  clear_value v1
  extract_lets +onlyGivenNames v2
  extract_lets +onlyGivenNames v3
  have hv3 : Kept r0 v3 := by
    unfold v3
    exact Kept.upd hv1 rfl
  clear_value v3
  split
  · apply State.setActive_kept
    apply State.setFaultPin_kept
    exact hv3
  · split
    · apply State.setActive_kept
      apply State.cause_kept
      exact hv3
    · extract_lets +onlyGivenNames v4
      have hv4 : Kept r0 v4 := by
        unfold v4
        apply State.setActive_kept
        exact hv3
      clear_value v4
      extract_lets +onlyGivenNames v5
      have hv5 : Kept r0 v5 := by
        unfold v5
        split
        · apply State.cause_kept
          exact hv4
        · exact hv4
      clear_value v5
      extract_lets +onlyGivenNames v6
      have hv6 : Kept r0 v6 := by
        unfold v6
        apply State.setRegFld_kept
        apply State.setReg_kept
        exact hv5
      clear_value v6
      extract_lets +onlyGivenNames v7
      have hv7 : Kept r0 v7 := by
        unfold v7
        apply State.setBoot_kept
        apply State.setRegBit_kept
        exact hv6
      clear_value v7
      apply State.bootStart_kept
      apply State.startPorts_kept
      exact hv7

theorem State.leave_kept {r0 : State} (s : State) (l : RstLevel) (hq : Kept r0 s) : Kept r0 (State.leave s l) := by
  unfold State.leave
  extract_lets +onlyGivenNames v0
  have hv0 : Kept r0 v0 := by
    unfold v0
    apply State.setActive_kept
    exact hq
  clear_value v0
  split
  · split
    · apply State.enter_kept
      exact hv0
    · exact hv0
  · exact hv0

theorem State.released_kept {r0 : State} (s : State) (l : RstLevel) (hq : Kept r0 s) : Kept r0 (State.released s l) := by
  unfold State.released
  extract_lets +onlyGivenNames v0
  have hv0 : Kept r0 v0 := by
    unfold v0
    apply State.leave_kept
    exact hq
  clear_value v0
  split
  · apply State.tellFailure_kept
    apply State.startPorts_kept
    apply State.lockPlls_kept
    exact hv0
  · split
    · exact hv0
    · extract_lets +onlyGivenNames v1
      have hv1 : Kept r0 v1 := by
        unfold v1
        apply State.failShare_kept
        exact hv0
      clear_value v1
      exact Kept.upd hv1 rfl
  · split
    · apply State.trainEtcen_kept
      exact hv0
    · split
      · apply State.trainEtcen_kept
        exact hv0
      · split
        · exact hv0
        · apply State.trainPorts_kept
          exact hv0
  · exact hv0

theorem execResetRelease_kept {r0 : State} (l : RstLevel) (selfTest : List Bool) (slotId : Nat) (parityOk : Bool) (s : State)
    {t : State} (e : execResetRelease l selfTest slotId parityOk s = .next t) (hq : Kept r0 s) : Kept r0 t := by
  unfold execResetRelease at e
  cases e
  split
  · exact hq
  · split
    · split
      · extract_lets +onlyGivenNames v0
        have hv0 : Kept r0 v0 := by
          unfold v0
          split
          · apply State.cause_kept
            exact hq
          · exact hq
        clear_value v0
        apply State.setActive_kept
        split
        · exact hv0
        · apply State.cause_kept
          exact hv0
      · apply State.releasePackage_kept
        exact hq
    · split
      · exact hq
      · apply State.releasePackage_kept
        exact hq
    · split
      · apply State.setActive_kept
        exact hq
      · apply State.released_kept
        exact hq

theorem execPwrOkRise_kept {r0 : State} (s : State)
    {t : State} (e : execPwrOkRise s = .next t) (hq : Kept r0 s) : Kept r0 t := by
  unfold execPwrOkRise at e
  cases e
  extract_lets +onlyGivenNames v0
  extract_lets +onlyGivenNames v1
  have hv1 : Kept r0 v1 := by
    unfold v1
    exact Kept.upd hq rfl
  clear_value v1
  split
  · exact hv1
  · extract_lets +onlyGivenNames v2
    have hv2 : Kept r0 v2 := by
      unfold v2
      apply State.coldState_kept
      exact hv1
    clear_value v2
    exact Kept.upd hv2 rfl

theorem execPwrOkFall_kept {r0 : State} (s : State)
    {t : State} (e : execPwrOkFall s = .next t) (hq : Kept r0 s) : Kept r0 t := by
  unfold execPwrOkFall at e
  cases e
  extract_lets +onlyGivenNames v0
  extract_lets +onlyGivenNames v1
  have hv1 : Kept r0 v1 := by
    unfold v1
    exact Kept.upd hq rfl
  clear_value v1
  split
  · exact hv1
  · extract_lets +onlyGivenNames v2
    have hv2 : Kept r0 v2 := by
      unfold v2
      apply State.coldState_kept
      exact hv1
    clear_value v2
    exact Kept.upd hv2 rfl

theorem execPowerApplied_kept {r0 : State} (s : State)
    {t : State} (e : execPowerApplied s = .next t) (hq : Kept r0 s) : Kept r0 t := by
  unfold execPowerApplied at e
  cases e
  split
  · exact hq
  · extract_lets +onlyGivenNames v0
    extract_lets +onlyGivenNames v1
    have hv1 : Kept r0 v1 := by
      unfold v1
      exact Kept.upd hq rfl
    clear_value v1
    apply State.coldState_kept
    exact hv1

theorem execInputLost_kept {r0 : State} (s : State)
    {t : State} (e : execInputLost s = .next t) (hq : Kept r0 s) : Kept r0 t := by
  unfold execInputLost at e
  cases e
  extract_lets +onlyGivenNames v0
  have hv0 : Kept r0 v0 := by
    unfold v0
    apply State.coldState_kept
    apply State.setRegBit_kept
    exact hq
  clear_value v0
  exact Kept.upd hv0 rfl

theorem execRstNAssert_kept {r0 : State} (s : State)
    {t : State} (e : execRstNAssert s = .next t) (hq : Kept r0 s) : Kept r0 t := by
  unfold execRstNAssert at e
  cases e
  apply State.assertWarm_kept
  exact Kept.upd hq rfl

theorem execRstNRelease_kept {r0 : State} (s : State)
    {t : State} (e : execRstNRelease s = .next t) (hq : Kept r0 s) : Kept r0 t := by
  unfold execRstNRelease at e
  cases e
  exact Kept.upd hq rfl

theorem execMgmtWatchdog_kept {r0 : State} (s : State)
    {t : State} (e : execMgmtWatchdog s = .next t) (hq : Kept r0 s) : Kept r0 t := by
  unfold execMgmtWatchdog at e
  cases e
  apply State.assertWarm_kept
  exact hq

theorem execClockLossFaultN_kept {r0 : State} (s : State)
    {t : State} (e : execClockLossFaultN s = .next t) (hq : Kept r0 s) : Kept r0 t := by
  unfold execClockLossFaultN at e
  cases e
  split
  · apply State.setFaultPin_kept
    exact hq
  · exact hq

theorem execXbStartDelayEnd_kept {r0 : State} (gaugePass : Bool) (s : State)
    {t : State} (e : execXbStartDelayEnd gaugePass s = .next t) (hq : Kept r0 s) : Kept r0 t := by
  unfold execXbStartDelayEnd at e
  cases e
  split
  · exact hq
  · extract_lets +onlyGivenNames v0
    have hv0 : Kept r0 v0 := by
      unfold v0
      apply State.modBoot_kept
      exact hq
    clear_value v0
    split
    · apply State.setRegBit_kept
      exact hv0
    · apply State.setRegBit_kept
      exact hv0

theorem State.setEnables_kept {r0 : State} (s : State) (hq : Kept r0 s) : Kept r0 (State.setEnables s) := by
  unfold State.setEnables
  extract_lets +onlyGivenNames v0
  have hv0 : Kept r0 v0 := by
    unfold v0
    apply State.setReg_kept
    exact hq
  clear_value v0
  refine foldl_kept ?_ ?_
  · exact hv0
  · intro s1 x1 hs1
    try dsimp only
    apply State.setReg_kept
    apply State.setReg_kept
    apply State.setReg_kept
    exact hs1

theorem execReadyReport_kept {r0 s t : State} (e : execReadyReport s = .next t) (hq : Kept r0 s) : Kept r0 t := by
  unfold execReadyReport at e
  cases e
  refine ite_kept hq (ite_kept (State.setFaultPin_kept _ hq) ?_)
  extract_lets +onlyGivenNames s1 svn
  have h1 : Kept r0 s1 := State.setBoot_kept _ _ (State.setEnables_kept _ hq)
  clear_value s1
  apply State.pldmEvent_kept
  refine State.modBoot_kept _ _ (h1.fused rfl fun w => ?_)
  refine ⟨⟨rfl, ?_, fun h => ⟨h, rfl⟩⟩, ?_⟩
  · show s1.fuses.svn ≤ min 64 (max s1.fuses.svn _); omega
  · show min 64 _ ≤ 64; omega

theorem execRecoverySelfReset_kept {r0 : State} (s : State)
    {t : State} (e : execRecoverySelfReset s = .next t) (hq : Kept r0 s) : Kept r0 t := by
  unfold execRecoverySelfReset at e
  cases e
  split
  · apply State.assertWarm_kept
    exact hq
  · exact hq

theorem State.setUpdate_kept {r0 : State} (s : State) (u : Option Update)
    (hq : Kept r0 s) : Kept r0 (State.setUpdate s u) := by
  unfold State.setUpdate
  apply State.modBoot_kept
  exact hq

theorem State.beginWrite_kept {r0 : State} (s : State) (u : Update) (hq : Kept r0 s) : Kept r0 (State.beginWrite s u) := by
  unfold State.beginWrite
  extract_lets +onlyGivenNames v0
  extract_lets +onlyGivenNames v1
  have hv1 : Kept r0 v1 := by
    unfold v1
    apply State.setUpdate_kept
    exact Kept.upd hq rfl
  clear_value v1
  apply State.setRegBit_kept
  exact hv1

theorem State.pushImage_kept {r0 : State} (s : State) (d : Desc) (h : HostView)
    (hq : Kept r0 s) : Kept r0 (State.pushImage s d h) := by
  unfold State.pushImage
  extract_lets +onlyGivenNames v0
  extract_lets +onlyGivenNames v1
  split
  · apply State.complete_kept
    exact hq
  · split
    · apply State.complete_kept
      exact hq
    · split
      · apply State.complete_kept
        exact hq
      · apply State.beginWrite_kept
        exact hq

theorem execRequestUpdate_kept {r0 : State} (s : State)
    {t : State} (e : execRequestUpdate s = .next t) (hq : Kept r0 s) : Kept r0 t := by
  unfold execRequestUpdate at e
  cases e
  split
  · exact hq
  · split
    · apply State.emit_kept
      exact hq
    · apply State.emit_kept
      apply State.setUpdate_kept
      exact hq

theorem execPldmImageData_kept {r0 : State} (offset : Nat) (bytes : List Byte) (s : State)
    {t : State} (e : execPldmImageData offset bytes s = .next t) (hq : Kept r0 s) : Kept r0 t := by
  unfold execPldmImageData at e
  cases e
  split
  · exact hq
  · split
    · exact hq
    · extract_lets +onlyGivenNames v0
      split
      · apply State.setUpdate_kept
        exact hq
      · split
        · apply State.setUpdate_kept
          exact hq
        · apply State.beginWrite_kept
          exact hq

theorem execActivateFirmware_kept {r0 : State} (s : State)
    {t : State} (e : execActivateFirmware s = .next t) (hq : Kept r0 s) : Kept r0 t := by
  unfold execActivateFirmware at e
  cases e
  split
  · apply State.emit_kept
    exact hq
  · exact hq

theorem execUpdateWriteDone_kept {r0 : State} (ok : Bool) (s : State)
    {t : State} (e : execUpdateWriteDone ok s = .next t) (hq : Kept r0 s) : Kept r0 t := by
  unfold execUpdateWriteDone at e
  cases e
  split
  · exact hq
  · split
    · exact hq
    · extract_lets +onlyGivenNames v0
      have hv0 : Kept r0 v0 := by
        unfold v0
        apply State.setUpdate_kept
        exact hq
      clear_value v0
      extract_lets +onlyGivenNames v1
      split
      · extract_lets +onlyGivenNames v2
        extract_lets +onlyGivenNames v3
        have hv3 : Kept r0 v3 := by
          unfold v3
          exact Kept.upd hv0 rfl
        clear_value v3
        extract_lets +onlyGivenNames v4
        have hv4 : Kept r0 v4 := by
          unfold v4
          split
          · apply State.modBoot_kept
            exact hv3
          · apply State.setRegBit_kept
            exact hv3
        clear_value v4
        split
        · exact hv4
        · apply State.complete_kept
          exact hv4
      · split
        · exact hv0
        · split
          · apply State.complete_kept
            exact hv0
          · extract_lets +onlyGivenNames v5
            apply State.complete_kept
            unfold v5
            apply State.free_kept
            exact hv0

theorem State.setSpdm_kept {r0 : State} (s : State) (p : Path) (c : SpdmConn)
    (hq : Kept r0 s) : Kept r0 (State.setSpdm s p c) := by
  unfold State.setSpdm
  apply State.modBoot_kept
  exact hq

theorem State.respond_kept {r0 : State} (s : State) (p : Path) (r : SpdmRsp)
    (hq : Kept r0 s) : Kept r0 (State.respond s p r) := by
  unfold State.respond
  apply State.emit_kept
  exact hq

theorem State.signed_kept {r0 : State} (s : State) (content : List Byte)
    (hq : Kept r0 s) : Kept r0 (State.signed s content).2 := by
  unfold State.signed
  dsimp only
  exact Kept.upd hq rfl

theorem State.spdmAnswer_kept {r0 : State} (s : State) (p : Path) (r : SpdmReq)
    (hq : Kept r0 s) : Kept r0 (State.spdmAnswer s p r).2 := by
  unfold State.spdmAnswer
  extract_lets +onlyGivenNames v0
  split
  · dsimp only
    apply State.setSpdm_kept
    exact hq
  · split
    · dsimp only
      apply State.setSpdm_kept
      exact hq
    · dsimp only
      exact hq
  · split
    · dsimp only
      apply State.setSpdm_kept
      exact hq
    · dsimp only
      exact hq
  · split
    · dsimp only
      exact hq
    · dsimp only
      exact hq
  · split
    · extract_lets +onlyGivenNames v1
      dsimp only
      exact hq
    · dsimp only
      exact hq
  · split
    · extract_lets +onlyGivenNames v2
      dsimp only
      unfold v2
      apply State.signed_kept
      exact hq
    · dsimp only
      exact hq
  · extract_lets +onlyGivenNames v3
    extract_lets +onlyGivenNames v4
    split
    · extract_lets +onlyGivenNames v5
      dsimp only
      unfold v5
      apply State.signed_kept
      exact hq
    · dsimp only
      exact hq
  · dsimp only
    exact hq

theorem State.spdmRequest_kept {r0 : State} (s : State) (p : Path) (r : SpdmReq)
    (hq : Kept r0 s) : Kept r0 (State.spdmRequest s p r) := by
  unfold State.spdmRequest
  split
  · exact hq
  · extract_lets +onlyGivenNames v0
    apply State.respond_kept
    unfold v0
    apply State.spdmAnswer_kept
    exact hq

theorem execGetVersion_kept {r0 : State} (p : Path) (s : State)
    {t : State} (e : execGetVersion p s = .next t) (hq : Kept r0 s) : Kept r0 t := by
  unfold execGetVersion at e
  cases e
  apply State.spdmRequest_kept
  exact hq

theorem execGetCapabilities_kept {r0 : State} (p : Path) (s : State)
    {t : State} (e : execGetCapabilities p s = .next t) (hq : Kept r0 s) : Kept r0 t := by
  unfold execGetCapabilities at e
  cases e
  apply State.spdmRequest_kept
  exact hq

theorem execNegotiateAlgorithms_kept {r0 : State} (p : Path) (sm2 sm3 : Bool) (s : State)
    {t : State} (e : execNegotiateAlgorithms p sm2 sm3 s = .next t) (hq : Kept r0 s) : Kept r0 t := by
  unfold execNegotiateAlgorithms at e
  cases e
  apply State.spdmRequest_kept
  exact hq

theorem execGetDigests_kept {r0 : State} (p : Path) (s : State)
    {t : State} (e : execGetDigests p s = .next t) (hq : Kept r0 s) : Kept r0 t := by
  unfold execGetDigests at e
  cases e
  apply State.spdmRequest_kept
  exact hq

theorem execGetCertificate_kept {r0 : State} (p : Path) (slot offset length : Nat) (s : State)
    {t : State} (e : execGetCertificate p slot offset length s = .next t) (hq : Kept r0 s) : Kept r0 t := by
  unfold execGetCertificate at e
  cases e
  apply State.spdmRequest_kept
  exact hq

theorem execChallenge_kept {r0 : State} (p : Path) (nonce : List Byte) (s : State)
    {t : State} (e : execChallenge p nonce s = .next t) (hq : Kept r0 s) : Kept r0 t := by
  unfold execChallenge at e
  cases e
  apply State.spdmRequest_kept
  exact hq

theorem execGetMeasurements_kept {r0 : State} (p : Path) (index : Nat) (nonce : List Byte) (s : State)
    {t : State} (e : execGetMeasurements p index nonce s = .next t) (hq : Kept r0 s) : Kept r0 t := by
  unfold execGetMeasurements at e
  cases e
  apply State.spdmRequest_kept
  exact hq

theorem execKeyExchange_kept {r0 : State} (p : Path) (s : State)
    {t : State} (e : execKeyExchange p s = .next t) (hq : Kept r0 s) : Kept r0 t := by
  unfold execKeyExchange at e
  cases e
  apply State.spdmRequest_kept
  exact hq

theorem execPskExchange_kept {r0 : State} (p : Path) (s : State)
    {t : State} (e : execPskExchange p s = .next t) (hq : Kept r0 s) : Kept r0 t := by
  unfold execPskExchange at e
  cases e
  apply State.spdmRequest_kept
  exact hq

theorem State.diagSpdm_kept {r0 : State} (s : State) (d : Desc) (h : HostView)
    (hq : Kept r0 s) : Kept r0 (s.diagSpdm d h) := by
  unfold State.diagSpdm
  extract_lets a
  split
  · exact State.complete_kept _ _ _ _ _ hq
  · extract_lets r s1 n len out
    have hr : Kept r0 r.2 := by
      unfold r
      split
      · exact State.spdmAnswer_kept _ _ _ hq
      · exact hq
    have h1 : Kept r0 s1 := State.respond_kept _ _ _ hr
    clear_value s1
    exact State.complete_kept _ _ _ _ _ (State.emit_kept _ _ (freeBytes_kept _ _ (State.free_kept _ h1)))

theorem State.markUnit_kept {r0 : State} (s : State) (u : UnitName) (c clean : Nat) (failed : Bool)
    (hq : Kept r0 s) : Kept r0 (State.markUnit s u c clean failed) := by
  unfold State.markUnit
  extract_lets +onlyGivenNames v0
  exact Kept.upd hq rfl

theorem State.suspect_kept {r0 : State} (s : State) (c step first : Nat)
    (hq : Kept r0 s) : Kept r0 (State.suspect s c step first) := by
  unfold State.suspect
  split
  · exact hq
  · apply State.suspectNotice_kept
    apply State.sendRetract_kept
    exact hq

theorem State.charge_kept {r0 : State} (s : State) (u : UnitName) (c step : Nat)
    (hq : Kept r0 s) : Kept r0 (State.charge s u c step) := by
  unfold State.charge
  extract_lets +onlyGivenNames v0
  extract_lets +onlyGivenNames v1
  extract_lets +onlyGivenNames v2
  have hv2 : Kept r0 v2 := by
    unfold v2
    apply State.markUnit_kept
    apply State.classIf_kept
    apply State.logFault_kept
    exact hq
  clear_value v2
  apply State.suspect_kept
  exact hv2

theorem State.outvoted_kept {r0 : State} (s : State) (u : UnitName) (step : Nat) (first : List UnitName)
    (hq : Kept r0 s) : Kept r0 (State.outvoted s u step first) := by
  unfold State.outvoted
  split
  · refine foldl_kept ?_ ?_
    · exact hq
    · intro s0 x0 hs0
      try dsimp only
      apply State.correctedEvent_kept
      exact hs0
  · apply State.correctedEvent_kept
    exact hq

theorem execShadowCompare_kept {r0 : State} (u : UnitName) (step : Nat) (matches_ : Bool) (third : Third)
    (first : List UnitName) (s : State
    )
    {t : State} (e : execShadowCompare u step matches_ third first s = .next t) (hq : Kept r0 s) : Kept r0 t := by
  unfold execShadowCompare at e
  cases e
  split
  · exact hq
  · extract_lets +onlyGivenNames v0
    have hv0 : Kept r0 v0 := by
      unfold v0
      exact Kept.upd hq rfl
    clear_value v0
    extract_lets +onlyGivenNames v1
    have hv1 : Kept r0 v1 := by
      unfold v1
      apply State.bump_kept
      exact hv0
    clear_value v1
    extract_lets +onlyGivenNames v2
    have hv2 : Kept r0 v2 := by
      unfold v2
      split
      · split
        · apply State.markUnit_kept
          exact hv0
        · apply State.charge_kept
          exact hv0
      · split
        · apply State.markUnit_kept
          apply State.bump_kept
          exact hv0
        · split
          · apply State.markUnit_kept
            apply State.outvoted_kept
            apply State.bump_kept
            exact hv1
          · apply State.charge_kept
            apply State.bump_kept
            exact hv1
    clear_value v2
    apply State.settleFences_kept
    apply State.runPlaces_kept
    apply State.settleCtxs_kept
    exact hv2

theorem execCowCopyDone_kept {r0 : State} (ctx : Fin 64) (handle page : Nat) (s : State)
    {t : State} (e : execCowCopyDone ctx handle page s = .next t) (hq : Kept r0 s) : Kept r0 t := by
  unfold execCowCopyDone at e
  cases e
  split
  · exact hq
  · split
    · exact hq
    · extract_lets +onlyGivenNames v0
      have hv0 : Kept r0 v0 := by
        unfold v0
        split
        · exact hq
        · apply State.raiseTables_kept
          apply State.dropLent_kept
          apply State.copyData_kept
          exact hq
      clear_value v0
      apply State.mirrorAll_kept
      apply State.modCtx_kept
      exact hv0

theorem execContextRelease_kept {r0 : State} (ctx : Fin 64) (s : State)
    {t : State} (e : execContextRelease ctx s = .next t) (hq : Kept r0 s) : Kept r0 t := by
  unfold execContextRelease at e
  cases e
  apply State.settleFences_kept
  apply State.runPlaces_kept
  apply State.releaseCtx_kept
  exact hq

theorem State.idleFrees_kept {r0 : State} (s : State) (c : Nat) (x : Ctx)
    (hq : Kept r0 s) : Kept r0 (State.idleFrees s c x) := by
  unfold State.idleFrees
  extract_lets +onlyGivenNames v0
  have hv0 : Kept r0 v0 := by
    unfold v0
    apply State.mirrorAll_kept
    apply State.raiseTables_kept
    apply State.dropLent_kept
    apply State.noteKv_kept
    apply State.topUps_kept
    apply State.releaseQuarantineIdle_kept
    apply State.readTables_kept
    exact hq
  clear_value v0
  split
  · exact hv0
  · extract_lets +onlyGivenNames v1
    split
    · exact hv0
    · split
      · apply State.giveReport_kept
        apply State.tellJob_kept
        exact hv0
      · apply State.giveReport_kept
        exact hv0

theorem execQuarantineIdleRelease_kept {r0 : State} (ctx : Fin 64) (s : State)
    {t : State} (e : execQuarantineIdleRelease ctx s = .next t) (hq : Kept r0 s) : Kept r0 t := by
  unfold execQuarantineIdleRelease at e
  cases e
  split
  · exact hq
  · split
    · exact hq
    · apply State.idleFrees_kept
      exact hq

theorem State.partitionReset_kept {r0 : State} (s : State) (hq : Kept r0 s) : Kept r0 (State.partitionReset s) := by
  unfold State.partitionReset
  apply State.assertWarm_kept
  apply State.refreshAlert_kept
  apply State.cause_kept
  exact hq

theorem execScrubLine_kept {r0 : State} (die : Fin 8) (s : State)
    {t : State} (e : execScrubLine die s = .next t) (hq : Kept r0 s) : Kept r0 t := by
  unfold execScrubLine at e
  cases e
  extract_lets +onlyGivenNames v0
  split
  · exact hq
  · extract_lets +onlyGivenNames v1
    extract_lets +onlyGivenNames v2
    extract_lets +onlyGivenNames v3
    extract_lets +onlyGivenNames v4
    have hv4 : Kept r0 v4 := by
      unfold v4
      refine foldl_kept ?_ ?_
      · exact hq
      · intro s5 x5 hs5
        try dsimp only
        apply State.readLine_kept
        exact hs5
    clear_value v4
    extract_lets +onlyGivenNames v6
    have hv6 : Kept r0 v6 := by
      unfold v6
      exact Kept.upd hv4 rfl
    clear_value v6
    split
    · apply State.partitionReset_kept
      exact hv6
    · exact hv6

theorem execCriticalStateError_kept {r0 : State} (u : CritUnit) (s : State)
    {t : State} (e : execCriticalStateError u s = .next t) (hq : Kept r0 s) : Kept r0 t := by
  unfold execCriticalStateError at e
  cases e
  split
  · apply State.assertWarm_kept
    exact hq
  · split
    · exact hq
    · extract_lets +onlyGivenNames v0
      extract_lets +onlyGivenNames v1
      apply State.assertDie_kept
      apply State.logFault_kept
      unfold v0
      apply State.free_kept
      exact hq

theorem State.forwardDesc_kept {r0 : State} (s : State) (d : Desc) (job : Nat)
    (hq : Kept r0 s) : Kept r0 (State.forwardDesc s d job) := by
  unfold State.forwardDesc
  split
  · exact hq
  · apply State.await_kept
    exact Kept.upd hq rfl

theorem State.takeCreate_kept {r0 : State} (s : State) (d : Desc) (h : HostView)
    (hq : Kept r0 s) : Kept r0 (s.takeCreate d h) := by
  unfold State.takeCreate
  dsimp only
  refine ite_kept (State.complete_kept _ _ _ _ _ hq) ?_
  split
  · exact State.complete_kept _ _ _ _ _ hq
  · refine ite_kept (State.complete_kept _ _ _ _ _ hq) ?_
    exact ite_kept (State.complete_kept _ _ _ _ _ hq) (State.complete_kept _ _ _ _ _ (State.createCtx_kept _ _ _ hq))

theorem State.takeDestroy_kept {r0 : State} (s : State) (d : Desc) (hq : Kept r0 s) : Kept r0 (State.takeDestroy s d) := by
  unfold State.takeDestroy
  extract_lets +onlyGivenNames v0
  extract_lets +onlyGivenNames v1
  have hv1 : Kept r0 v1 := by
    unfold v1
    apply State.modDesc_kept
    apply State.modCtx_kept
    exact hq
  clear_value v1
  apply State.settleFences_kept
  apply State.runPlaces_kept
  apply State.settleCtx_kept
  exact hv1

theorem State.takeTokens_kept {r0 : State} (s : State) (d : Desc) (x : Ctx) (h : HostView)
    (hq : Kept r0 s) : Kept r0 (State.takeTokens s d x h) := by
  unfold State.takeTokens
  extract_lets +onlyGivenNames v0
  extract_lets +onlyGivenNames v1
  extract_lets +onlyGivenNames v2
  extract_lets +onlyGivenNames v3
  split
  · apply State.complete_kept
    exact hq
  · split
    · apply State.complete_kept
      exact hq
    · split
      · apply State.complete_kept
        exact hq
      · apply State.await_kept
        exact hq

theorem State.takeAccept_kept {r0 : State} (s : State) (d : Desc) (hq : Kept r0 s) : Kept r0 (State.takeAccept s d) := by
  unfold State.takeAccept
  extract_lets +onlyGivenNames v0
  split
  · apply State.complete_kept
    exact hq
  · apply State.await_kept
    exact hq

theorem State.takeTrain_kept {r0 : State} (s : State) (d : Desc) (x : Ctx)
    (hq : Kept r0 s) : Kept r0 (State.takeTrain s d x) := by
  unfold State.takeTrain
  extract_lets +onlyGivenNames v0
  split
  · apply State.complete_kept
    exact hq
  · split
    · apply State.complete_kept
      exact hq
    · apply State.forwardDesc_kept
      exact hq

theorem State.diagFaults_kept {r0 : State} (s : State) (d : Desc) (hq : Kept r0 s) : Kept r0 (State.diagFaults s d) := by
  unfold State.diagFaults
  extract_lets +onlyGivenNames v0
  extract_lets +onlyGivenNames v1
  have hv1 : Kept r0 v1 := by
    unfold v1
    split
    · exact hq
    · apply State.emit_kept
      exact hq
  clear_value v1
  apply State.complete_kept
  exact hv1

theorem State.diagDepart_kept {r0 : State} (s : State) (d : Desc) (hq : Kept r0 s) : Kept r0 (State.diagDepart s d) := by
  unfold State.diagDepart
  apply State.modDesc_kept
  exact hq

theorem State.takeDiag_kept {r0 : State} (s : State) (d : Desc) (h : HostView)
    (hq : Kept r0 s) : Kept r0 (State.takeDiag s d h) := by
  unfold State.takeDiag
  extract_lets +onlyGivenNames v0
  split
  · split
    · apply State.diagFaults_kept
      exact hq
    · split
      · apply State.diagDepart_kept
        exact hq
      · split
        · apply State.diagSpdm_kept
          exact hq
        · split
          · apply State.pushImage_kept
            exact hq
          · apply State.complete_kept
            exact hq
  · split
    · apply State.diagFaults_kept
      exact hq
    · split
      · apply State.diagDepart_kept
        exact hq
      · split
        · apply State.diagSpdm_kept
          exact hq
        · split
          · apply State.pushImage_kept
            exact hq
          · split
            · apply State.takeReading_kept
              exact hq
            · apply State.diagJoin_kept
              exact hq

theorem State.takeBody_kept {r0 : State} (s : State) (d : Desc) (h : HostView)
    (hq : Kept r0 s) : Kept r0 (State.takeBody s d h) := by
  unfold State.takeBody
  extract_lets +onlyGivenNames v0
  extract_lets +onlyGivenNames v1
  split
  · apply State.takeCreate_kept
    exact hq
  · split
    · apply State.takeDiag_kept
      exact hq
    · split
      · apply State.settleFences_kept
        apply State.modDesc_kept
        exact hq
      · split
        · apply State.complete_kept
          exact hq
        · split
          · apply State.takeDestroy_kept
            exact hq
          · split
            · apply State.takeReading_kept
              exact hq
            · split
              · apply State.takeTokens_kept
                exact hq
              · split
                · apply State.takeAccept_kept
                  exact hq
                · split
                  · apply State.forwardDesc_kept
                    exact hq
                  · split
                    · apply State.takeTrain_kept
                      exact hq
                    · split
                      · apply State.startHolds_kept
                        apply State.modDesc_kept
                        exact hq
                      · apply State.takeHomed_kept
                        exact hq

theorem State.turnAway_kept {r0 : State} (s : State) (d : Desc) (status result : Nat)
    (hq : Kept r0 s) : Kept r0 (State.turnAway s d status result) := by
  unfold State.turnAway
  apply State.complete_kept
  split
  · apply State.undefineLoad_kept
    exact hq
  · exact hq

theorem State.accept_kept {r0 : State} (s : State) (p : EPort) (i : Nat) (ws : List Word) (h : HostView)
    (hq : Kept r0 s) : Kept r0 (State.accept s p i ws h) := by
  unfold State.accept
  extract_lets +onlyGivenNames v0
  extract_lets +onlyGivenNames v1
  extract_lets +onlyGivenNames v2
  have hv2 : Kept r0 v2 := by
    unfold v2
    apply State.setPair_kept
    exact hq
  have n2 : v2.nextDesc = s.nextDesc := by unfold v2; cases p <;> rfl
  clear_value v2
  extract_lets +onlyGivenNames v3
  have hv3 : Kept r0 v3 := by
    unfold v3
    refine hv2.opened rfl fun w => ?_
    simp only [State.opensWf, List.all_eq_true, List.mem_append, List.mem_singleton, decide_eq_true_eq] at w ⊢
    rintro d (m | rfl)
    · exact Nat.lt_succ_of_lt (w d m)
    · show s.nextDesc < v2.nextDesc + 1
      omega
  clear_value v3
  split
  · exact State.turnAway_kept _ _ _ _ hv3
  · refine ite_kept (State.turnAway_kept _ _ _ _ hv3) ?_
    split
    · exact State.turnAway_kept _ _ _ _ hv3
    · split
      · exact State.turnAway_kept _ _ _ _ hv3
      · exact ite_kept (State.turnAway_kept _ _ _ _ hv3) (State.takeBody_kept _ _ _ hv3)

theorem State.linkRetries_kept {r0 : State} (s : State) (p : EPort) (h : HostView)
    (hq : Kept r0 s) : Kept r0 (State.linkRetries s p h) := by
  unfold State.linkRetries
  apply State.bump_kept
  exact hq

theorem State.submit_kept {r0 : State} (s : State) (u : Submission) (op : Nat) (function : Option Nat)
    (hq : Kept r0 s) : Kept r0 (State.submit s u op function) := by
  unfold State.submit
  split
  · extract_lets +onlyGivenNames v0
    extract_lets +onlyGivenNames v1
    have hv1 : Kept r0 v1 := by
      unfold v1
      split
      · apply State.setPair_kept
        exact hq
      · exact hq
    clear_value v1
    apply State.accept_kept
    apply State.linkRetries_kept
    exact hv1
  · exact hq

theorem execCtxCreate_kept {r0 : State} (u : Submission) (s : State)
    {t : State} (e : execCtxCreate u s = .next t) (hq : Kept r0 s) : Kept r0 t := by
  unfold execCtxCreate at e
  cases e
  apply State.submit_kept
  exact hq

theorem execCtxDestroy_kept {r0 : State} (u : Submission) (s : State)
    {t : State} (e : execCtxDestroy u s = .next t) (hq : Kept r0 s) : Kept r0 t := by
  unfold execCtxDestroy at e
  cases e
  apply State.submit_kept
  exact hq

theorem execLoad_kept {r0 : State} (u : Submission) (s : State)
    {t : State} (e : execLoad u s = .next t) (hq : Kept r0 s) : Kept r0 t := by
  unfold execLoad at e
  cases e
  apply State.submit_kept
  exact hq

theorem execJigLoad_kept {r0 : State} (u : Submission) (s : State)
    {t : State} (e : execJigLoad u s = .next t) (hq : Kept r0 s) : Kept r0 t := by
  unfold execJigLoad at e
  cases e
  apply State.submit_kept
  exact hq

theorem execSeqOpen_kept {r0 : State} (u : Submission) (s : State)
    {t : State} (e : execSeqOpen u s = .next t) (hq : Kept r0 s) : Kept r0 t := by
  unfold execSeqOpen at e
  cases e
  apply State.submit_kept
  exact hq

theorem execSeqAppend_kept {r0 : State} (u : Submission) (s : State)
    {t : State} (e : execSeqAppend u s = .next t) (hq : Kept r0 s) : Kept r0 t := by
  unfold execSeqAppend at e
  cases e
  apply State.submit_kept
  exact hq

theorem execSeqCancel_kept {r0 : State} (u : Submission) (s : State)
    {t : State} (e : execSeqCancel u s = .next t) (hq : Kept r0 s) : Kept r0 t := by
  unfold execSeqCancel at e
  cases e
  apply State.submit_kept
  exact hq

theorem execSeqClose_kept {r0 : State} (u : Submission) (s : State)
    {t : State} (e : execSeqClose u s = .next t) (hq : Kept r0 s) : Kept r0 t := by
  unfold execSeqClose at e
  cases e
  apply State.submit_kept
  exact hq

theorem execSeqParams_kept {r0 : State} (u : Submission) (s : State)
    {t : State} (e : execSeqParams u s = .next t) (hq : Kept r0 s) : Kept r0 t := by
  unfold execSeqParams at e
  cases e
  apply State.submit_kept
  exact hq

theorem execPageMap_kept {r0 : State} (u : Submission) (s : State)
    {t : State} (e : execPageMap u s = .next t) (hq : Kept r0 s) : Kept r0 t := by
  unfold execPageMap at e
  cases e
  apply State.submit_kept
  exact hq

theorem execPageUnmap_kept {r0 : State} (u : Submission) (s : State)
    {t : State} (e : execPageUnmap u s = .next t) (hq : Kept r0 s) : Kept r0 t := by
  unfold execPageUnmap at e
  cases e
  apply State.submit_kept
  exact hq

theorem execKvShip_kept {r0 : State} (u : Submission) (s : State)
    {t : State} (e : execKvShip u s = .next t) (hq : Kept r0 s) : Kept r0 t := by
  unfold execKvShip at e
  cases e
  apply State.submit_kept
  exact hq

theorem execKvAccept_kept {r0 : State} (u : Submission) (s : State)
    {t : State} (e : execKvAccept u s = .next t) (hq : Kept r0 s) : Kept r0 t := by
  unfold execKvAccept at e
  cases e
  apply State.submit_kept
  exact hq

theorem execStepPolicy_kept {r0 : State} (u : Submission) (s : State)
    {t : State} (e : execStepPolicy u s = .next t) (hq : Kept r0 s) : Kept r0 t := by
  unfold execStepPolicy at e
  cases e
  apply State.submit_kept
  exact hq

theorem execBenchSplit_kept {r0 : State} (u : Submission) (s : State)
    {t : State} (e : execBenchSplit u s = .next t) (hq : Kept r0 s) : Kept r0 t := by
  unfold execBenchSplit at e
  cases e
  apply State.submit_kept
  exact hq

theorem execFence_kept {r0 : State} (u : Submission) (s : State)
    {t : State} (e : execFence u s = .next t) (hq : Kept r0 s) : Kept r0 t := by
  unfold execFence at e
  cases e
  apply State.submit_kept
  exact hq

theorem execCheckpoint_kept {r0 : State} (u : Submission) (s : State)
    {t : State} (e : execCheckpoint u s = .next t) (hq : Kept r0 s) : Kept r0 t := by
  unfold execCheckpoint at e
  cases e
  apply State.submit_kept
  exact hq

theorem execRestore_kept {r0 : State} (u : Submission) (s : State)
    {t : State} (e : execRestore u s = .next t) (hq : Kept r0 s) : Kept r0 t := by
  unfold execRestore at e
  cases e
  apply State.submit_kept
  exact hq

theorem execTrainStep_kept {r0 : State} (u : Submission) (s : State)
    {t : State} (e : execTrainStep u s = .next t) (hq : Kept r0 s) : Kept r0 t := by
  unfold execTrainStep at e
  cases e
  apply State.submit_kept
  exact hq

theorem execFaultRead_kept {r0 : State} (u : Submission) (s : State)
    {t : State} (e : execFaultRead u s = .next t) (hq : Kept r0 s) : Kept r0 t := by
  unfold execFaultRead at e
  cases e
  apply State.submit_kept
  exact hq

theorem execTableRead_kept {r0 : State} (u : Submission) (s : State)
    {t : State} (e : execTableRead u s = .next t) (hq : Kept r0 s) : Kept r0 t := by
  unfold execTableRead at e
  cases e
  apply State.submit_kept
  exact hq

theorem execJoin_kept {r0 : State} (u : Submission) (s : State)
    {t : State} (e : execJoin u s = .next t) (hq : Kept r0 s) : Kept r0 t := by
  unfold execJoin at e
  cases e
  apply State.submit_kept
  exact hq

theorem execDepart_kept {r0 : State} (u : Submission) (s : State)
    {t : State} (e : execDepart u s = .next t) (hq : Kept r0 s) : Kept r0 t := by
  unfold execDepart at e
  cases e
  apply State.submit_kept
  exact hq

theorem execSpdm_kept {r0 : State} (u : Submission) (s : State)
    {t : State} (e : execSpdm u s = .next t) (hq : Kept r0 s) : Kept r0 t := by
  unfold execSpdm at e
  cases e
  apply State.submit_kept
  exact hq

theorem execImagePush_kept {r0 : State} (u : Submission) (s : State)
    {t : State} (e : execImagePush u s = .next t) (hq : Kept r0 s) : Kept r0 t := by
  unfold execImagePush at e
  cases e
  apply State.submit_kept
  exact hq

theorem State.pairError_kept {r0 : State} (s : State) (p : EPort) (i cause : Nat)
    (hq : Kept r0 s) : Kept r0 (State.pairError s p i cause) := by
  unfold State.pairError
  apply State.setPair_kept
  exact hq

theorem State.pageFailed_kept {r0 : State} (s : State) (p : EPort) (hq : Kept r0 s) : Kept r0 (State.pageFailed s p) := by
  unfold State.pageFailed
  refine foldl_kept ?_ ?_
  · exact hq
  · intro s0 x0 hs0
    try dsimp only
    apply State.pairError_kept
    exact hs0

theorem State.takeIndexes_kept {r0 : State} (s : State) (p : EPort) (i : Nat) (ws : List Word)
    (hq : Kept r0 s) : Kept r0 (State.takeIndexes s p i ws) := by
  unfold State.takeIndexes
  extract_lets +onlyGivenNames v0
  extract_lets +onlyGivenNames v1
  extract_lets +onlyGivenNames v2
  split
  · apply State.setPair_kept
    exact hq
  · apply State.setPair_kept
    exact hq

theorem State.fetch_kept {r0 : State} (s : State) (p : EPort) (h : HostView) (i : Nat)
    (hq : Kept r0 s) : Kept r0 (State.fetch s p h i) := by
  unfold State.fetch
  extract_lets +onlyGivenNames v0
  extract_lets +onlyGivenNames v1
  have hv1 : Kept r0 v1 := by
    unfold v1
    apply State.setPort_kept
    exact hq
  clear_value v1
  split
  · apply State.pairError_kept
    exact hv1
  · apply State.accept_kept
    exact hv1

theorem fetchAll_kept {r0 : State} (p : EPort) (h : HostView) (n : Nat) (s : State)
    (hq : Kept r0 s) : Kept r0 (fetchAll p h n s) := by
  induction n generalizing s with
  | zero => exact hq
  | succ n ih =>
    unfold fetchAll
    split
    · exact hq
    · exact ih _ (State.fetch_kept _ _ _ _ hq)

theorem State.pace_kept {r0 : State} (s : State) (p : EPort) (found nudged : Bool)
    (hq : Kept r0 s) : Kept r0 (State.pace s p found nudged) := by
  unfold State.pace
  extract_lets +onlyGivenNames v0
  apply State.setPort_kept
  exact hq

theorem State.readPage_kept {r0 : State} (s : State) (p : EPort) (h : HostView) (pairs : List Nat) (nudged : Bool)
    (hq : Kept r0 s) : Kept r0 (State.readPage s p h pairs nudged) := by
  unfold State.readPage
  extract_lets +onlyGivenNames v0
  have hv0 : Kept r0 v0 := by
    unfold v0
    apply State.linkRetries_kept
    exact hq
  clear_value v0
  split
  · apply State.pageFailed_kept
    apply State.pace_kept
    exact hv0
  · extract_lets +onlyGivenNames v1
    extract_lets +onlyGivenNames v2
    have hv2 : Kept r0 v2 := by
      unfold v2
      apply State.pace_kept
      exact hv0
    clear_value v2
    extract_lets +onlyGivenNames v3
    have hv3 : Kept r0 v3 := by
      unfold v3
      refine foldl_kept ?_ ?_
      · exact hv2
      · intro s4 x4 hs4
        try dsimp only
        apply State.takeIndexes_kept
        exact hs4
    clear_value v3
    apply fetchAll_kept
    exact hv3

theorem execDoorbellPoll_kept {r0 : State} (port : EPort) (h : HostView) (s : State)
    {t : State} (e : execDoorbellPoll port h s = .next t) (hq : Kept r0 s) : Kept r0 t := by
  unfold execDoorbellPoll at e
  cases e
  split
  · apply State.readPage_kept
    exact hq
  · exact hq

theorem execNudge_kept {r0 : State} (port : EPort) (h : HostView) (s : State)
    {t : State} (e : execNudge port h s = .next t) (hq : Kept r0 s) : Kept r0 t := by
  unfold execNudge at e
  cases e
  split
  · exact hq
  · extract_lets +onlyGivenNames v0
    have hv0 : Kept r0 v0 := by
      unfold v0
      apply State.bump_kept
      exact hq
    clear_value v0
    split
    · apply State.readPage_kept
      exact hv0
    · exact hv0

theorem execRecordRelease_kept {r0 : State} (port : EPort) (pair : Fin 64) (s : State)
    {t : State} (e : execRecordRelease port pair s = .next t) (hq : Kept r0 s) : Kept r0 t := by
  unfold execRecordRelease at e
  cases e
  apply State.releaseOne_kept
  exact hq

theorem execHeadReread_kept {r0 : State} (port : EPort) (h : HostView) (s : State)
    {t : State} (e : execHeadReread port h s = .next t) (hq : Kept r0 s) : Kept r0 t := by
  unfold execHeadReread at e
  cases e
  extract_lets +onlyGivenNames v0
  split
  · exact hq
  · extract_lets +onlyGivenNames v1
    have hv1 : Kept r0 v1 := by
      unfold v1
      apply State.linkRetries_kept
      exact hq
    clear_value v1
    split
    · apply State.pageFailed_kept
      exact hv1
    · refine foldl_kept ?_ ?_
      · exact hv1
      · intro s2 x2 hs2
        try dsimp only
        apply State.setPair_kept
        exact hs2

theorem execIrqModTimeout_kept {r0 : State} (port : EPort) (pair : Fin 64) (s : State)
    {t : State} (e : execIrqModTimeout port pair s = .next t) (hq : Kept r0 s) : Kept r0 t := by
  unfold execIrqModTimeout at e
  cases e
  extract_lets +onlyGivenNames v0
  split
  · apply State.sendIrq_kept
    exact hq
  · exact hq

theorem State.setLink_kept {r0 : State} (s : State) (p : EPort) (v : Nat)
    (hq : Kept r0 s) : Kept r0 (State.setLink s p v) := by
  unfold State.setLink
  apply State.setReg_kept
  exact hq

theorem State.startTraining_kept {r0 : State} (s : State) (p : EPort)
    (hq : Kept r0 s) : Kept r0 (State.startTraining s p) := by
  unfold State.startTraining
  split
  · apply State.setLink_kept
    exact hq
  · apply State.setLink_kept
    exact hq

theorem execEtcenLinkUp_kept {r0 : State} (port : EPort) (partnerGen : Fin 4) (badLanes : List (Nat × Nat)) (s : State)
    {t : State} (e : execEtcenLinkUp port partnerGen badLanes s = .next t) (hq : Kept r0 s) : Kept r0 t := by
  unfold execEtcenLinkUp at e
  cases e
  split
  · exact hq
  · extract_lets +onlyGivenNames v0
    extract_lets +onlyGivenNames v1
    have hv1 : Kept r0 v1 := by
      unfold v1
      split
      · apply State.bump_kept
        exact hq
      · exact hq
    clear_value v1
    split
    · apply State.setPort_kept
      apply State.setLink_kept
      exact hv1
    · apply State.setPort_kept
      apply State.setLink_kept
      exact hv1

theorem execEtcenLinkDown_kept {r0 : State} (port : EPort) (s : State)
    {t : State} (e : execEtcenLinkDown port s = .next t) (hq : Kept r0 s) : Kept r0 t := by
  unfold execEtcenLinkDown at e
  cases e
  split
  · apply State.startTraining_kept
    exact hq
  · exact hq

theorem execEtcenTrainRetry_kept {r0 : State} (port : EPort) (s : State)
    {t : State} (e : execEtcenTrainRetry port s = .next t) (hq : Kept r0 s) : Kept r0 t := by
  unfold execEtcenTrainRetry at e
  cases e
  split
  · apply State.setLink_kept
    exact hq
  · exact hq

theorem State.breakDowels_kept {r0 : State} (s : State) (owner : Nat) (hq : Kept r0 s) : Kept r0 (s.breakDowels owner) := by
  refine hq.dowels rfl fun w => ?_
  simp only [State.dowelsWf, Bool.and_eq_true, decide_eq_true_eq, List.all_eq_true] at w ⊢
  refine ⟨⟨?_, ?_⟩, ?_⟩
  · simpa [State.breakDowels] using w.1.1
  · simp [State.breakDowels, w.1.1, w.1.2]
  · intro o ho
    simp only [State.breakDowels, List.mem_map] at ho
    obtain ⟨v, hv, rfl⟩ := ho
    split
    · omega
    · exact w.2 v hv

theorem execPortLost_kept {r0 : State} (port : EPort) (s : State)
    {t : State} (e : execPortLost port s = .next t) (hq : Kept r0 s) : Kept r0 t := by
  unfold execPortLost at e
  cases e
  split
  · exact hq
  · extract_lets +onlyGivenNames v0
    have hv0 : Kept r0 v0 := by
      unfold v0
      apply State.breakDowels_kept
      apply State.orphanPort_kept
      exact hq
    clear_value v0
    apply State.setPort_kept
    exact hv0

theorem execHotResetPort_kept {r0 : State} (port : EPort) (s : State)
    {t : State} (e : execHotResetPort port s = .next t) (hq : Kept r0 s) : Kept r0 t := by
  unfold execHotResetPort at e
  cases e
  split
  · apply State.assertPort_kept
    exact hq
  · exact hq

theorem execHotResetPackage_kept {r0 : State} (port : EPort) (s : State)
    {t : State} (e : execHotResetPackage port s = .next t) (hq : Kept r0 s) : Kept r0 t := by
  unfold execHotResetPackage at e
  cases e
  split
  · exact hq
  · split
    · apply State.assertWarm_kept
      exact hq
    · apply State.bump_kept
      exact hq

theorem State.holdClock_kept {r0 : State} (s : State) (c : GaugeClock) (held : Bool)
    (hq : Kept r0 s) : Kept r0 (State.holdClock s c held) := by
  unfold State.holdClock
  extract_lets +onlyGivenNames v0
  exact Kept.upd hq rfl

theorem State.clockLoss_kept {r0 : State} (s : State) (c : GaugeClock) (held : Bool) (dies : List Nat)
    (hq : Kept r0 s) : Kept r0 (State.clockLoss s c held dies) := by
  have h := State.holdClock_kept _ c held (State.assertWarm_kept _ 5 hq)
  exact ite_kept h (State.loseFrames_kept _ _ (State.cause_kept _ _ h))

theorem State.crystalFault_kept {r0 : State} (s : State) (c : GaugeClock) (b : Nat) (selected held : Bool)
    (hq : Kept r0 s) : Kept r0 (State.crystalFault s c b selected held) := by
  unfold State.crystalFault
  extract_lets +onlyGivenNames v0
  have hv0 : Kept r0 v0 := by
    unfold v0
    apply State.setRegBit_kept
    exact hq
  clear_value v0
  split
  · apply State.clockLoss_kept
    exact hv0
  · exact hv0

theorem State.serdesDown_kept {r0 : State} (s : State) (d k : Nat) (hq : Kept r0 s) : Kept r0 (State.serdesDown s d k) := by
  unfold State.serdesDown
  split
  · refine foldl_kept ?_ ?_
    · exact hq
    · intro s0 x0 hs0
      try dsimp only
      split
      · apply State.leavePort_kept
        apply State.startLimfele_kept
        exact hs0
      · exact hs0
  · split
    · exact hq
    · extract_lets +onlyGivenNames v1
      extract_lets +onlyGivenNames v2
      have hv2 : Kept r0 v2 := by
        unfold v2
        split
        · apply State.startTraining_kept
          exact hq
        · exact hq
      clear_value v2
      split
      · apply State.ethLink_kept
        exact hv2
      · exact hv2

theorem State.pllFault_kept {r0 : State} (s : State) (d : Fin 8) (k : Fin 4) (held : Bool)
    (hq : Kept r0 s) : Kept r0 (State.pllFault s d k held) := by
  unfold State.pllFault
  split
  · exact hq
  · extract_lets +onlyGivenNames v0
    have hv0 : Kept r0 v0 := by
      unfold v0
      apply State.setRegBit_kept
      apply State.setRegBit_kept
      exact hq
    clear_value v0
    split
    · apply State.clockLoss_kept
      exact hv0
    · apply State.serdesDown_kept
      exact hv0

theorem State.islandFault_kept {r0 : State} (s : State) (d : Fin 8) (n : Nat) (stopped : Bool)
    (hq : Kept r0 s) : Kept r0 (State.islandFault s d n stopped) := by
  unfold State.islandFault
  extract_lets +onlyGivenNames v0
  extract_lets +onlyGivenNames v1
  have hv1 : Kept r0 v1 := by
    unfold v1
    apply State.failShare_kept
    exact hq
  clear_value v1
  split
  · exact hv1
  · extract_lets +onlyGivenNames v2
    have hv2 : Kept r0 v2 := by
      unfold v2
      apply State.refreshMux_kept
      apply State.bump_kept
      exact Kept.upd hv1 rfl
    clear_value v2
    split
    · exact hv2
    · apply State.correctedEvent_kept
      exact hv2

theorem execGaugeFault_kept {r0 : State} (c : GaugeClock) (stopped held : Bool) (s : State)
    {t : State} (e : execGaugeFault c stopped held s = .next t) (hq : Kept r0 s) : Kept r0 t := by
  unfold execGaugeFault at e
  cases e
  split
  · exact hq
  · split
    · apply State.holdClock_kept
      exact hq
    · split
      · apply State.crystalFault_kept
        exact hq
      · apply State.crystalFault_kept
        exact hq
      · apply State.setRegBit_kept
        exact hq
      · apply State.pllFault_kept
        exact hq
      · split
        · apply State.islandFault_kept
          exact hq
        · exact hq

theorem State.breakMux_kept {r0 : State} (s : State) (d : Fin 8) (island : Nat)
    (hq : Kept r0 s) : Kept r0 (State.breakMux s d island) := by
  unfold State.breakMux
  split
  · exact hq
  · split
    · apply State.assertCore_kept
      exact hq
    · apply State.assertDie_kept
      exact hq

theorem State.windowRead_kept {r0 : State} (s : State) (p : Path) (o : Nat)
    (hq : Kept r0 s) : Kept r0 (State.windowRead s p o).2.2 := by
  unfold State.windowRead
  split
  · dsimp only
    apply State.logAccess_kept
    exact hq
  · split
    · dsimp only
      apply State.logAccess_kept
      apply State.cause_kept
      exact hq
    · split
      · dsimp only
        exact Kept.upd hq rfl
      · dsimp only
        split
        · exact Kept.upd hq rfl
        · exact hq

theorem State.plainWrite_kept {r0 : State} (s : State) (o : Nat) (v : Word)
    (hq : Kept r0 s) : Kept r0 (State.plainWrite s o v) := by
  unfold State.plainWrite
  split
  · exact hq
  · apply State.setReg_kept
    exact hq

theorem State.writeRingCtl_kept {r0 : State} (s : State) (p : EPort) (i : Nat) (v : Word)
    (hq : Kept r0 s) : Kept r0 (State.writeRingCtl s p i v) := by
  unfold State.writeRingCtl
  extract_lets +onlyGivenNames v0
  extract_lets +onlyGivenNames v1
  extract_lets +onlyGivenNames v2
  have hv2 : Kept r0 v2 := by
    unfold v2
    apply State.setReg_kept
    exact hq
  clear_value v2
  split
  · split
    · exact hv2
    · extract_lets +onlyGivenNames v3
      extract_lets +onlyGivenNames v4
      split
      · apply State.setPair_kept
        exact hv2
      · apply State.setPair_kept
        exact hv2
  · split
    · apply State.settlePair_kept
      apply State.setPair_kept
      exact hv2
    · exact hv2

theorem dowelsWf_set {s t : State} {i v : Nat} {b : Bool} (w : s.dowelsWf = true) (hv : v ≤ 3) (e : t.dowels = s.dowels.set i v
    )
    (f : t.broken = s.broken ∨ t.broken = s.broken.set i b) : t.dowelsWf = true := by
  simp only [State.dowelsWf, Bool.and_eq_true, decide_eq_true_eq, List.all_eq_true] at w ⊢
  refine ⟨⟨by rw [e, List.length_set]; exact w.1.1, by rcases f with f | f <;> simp [f, w.1.2]⟩, fun o ho => ?_⟩
  rw [e] at ho
  rcases List.mem_or_eq_of_mem_set ho with h | rfl
  · exact w.2 o h
  · exact hv

theorem State.writeDowel_kept {r0 : State} (s : State) (p : Path) (n : Nat) (v : Word) (hq : Kept r0 s) :
    Kept r0 (s.writeDowel p n v) := by
  unfold State.writeDowel
  extract_lets +onlyGivenNames ops
  refine ite_kept hq ?_
  extract_lets +onlyGivenNames s1 o
  have h1 : Kept r0 s1 := by
    unfold s1
    exact ite_kept (hq.dowels rfl fun w => by simpa [State.dowelsWf] using w) hq
  clear_value s1
  refine ite_kept (h1.dowels rfl fun w => dowelsWf_set (b := true) w (by cases p <;> decide) rfl (.inl rfl)) ?_
  refine ite_kept (h1.dowels rfl fun w => dowelsWf_set (b := true) w (by omega) rfl (.inl rfl)) ?_
  exact ite_kept (h1.dowels rfl fun w => dowelsWf_set w (by omega) rfl (.inr rfl)) h1

theorem State.writeLinkCtl_kept {r0 : State} (s : State) (p : EPort) (v : Word)
    (hq : Kept r0 s) : Kept r0 (State.writeLinkCtl s p v) := by
  unfold State.writeLinkCtl
  extract_lets +onlyGivenNames v0
  extract_lets +onlyGivenNames v1
  have hv1 : Kept r0 v1 := by
    unfold v1
    apply State.plainWrite_kept
    exact hq
  clear_value v1
  split
  · apply State.setLink_kept
    exact hv1
  · split
    · apply State.startTraining_kept
      exact hv1
    · exact hv1

theorem State.takeArea_kept_of {r0 s t : State} {c : Nat} (e : s.takeArea c = some t) (hq : Kept r0 s) : Kept r0 t := by
  unfold State.takeArea at e
  split at e
  · cases e
  · extract_lets v at e
    cases e
    have hv : Kept r0 v.1 := by
      unfold v
      refine foldl_kept_by (fun a : State × List Nat => a.1) hq fun b k h => ?_
      split
      · exact h
      · exact State.takeFrame_kept _ _ h
    exact Kept.upd hv rfl

theorem State.writeStrict_kept_of {r0 s t : State} {lo hi : Word} (e : s.writeStrict lo hi = some t) (hq : Kept r0 s) :
    Kept r0 t := by
  unfold State.writeStrict at e
  extract_lets on fresh at e
  have key : ∀ (l : List Nat) (a : Option State), (∀ u, a = some u → Kept r0 u) →
      ∀ u, l.foldl (fun (r : Option State) c => r.bind fun s => s.takeArea c) a = some u → Kept r0 u := by
    intro l
    induction l with
    | nil => intro a h u e; exact h u e
    | cons c l ih =>
      intro a h u e
      refine ih _ ?_ u e
      intro v g
      rw [Option.bind_eq_some_iff] at g
      obtain ⟨w, hw, g⟩ := g
      exact State.takeArea_kept_of g (h w hw)
  split at e
  · cases e
  · rename_i u g
    cases e
    have hu := key _ _ (fun v hv => by cases hv; exact hq) _ g
    exact State.freeAreas_kept _ (State.setReg_kept _ _ _ (State.setReg_kept _ _ _ hu))

theorem State.writeRstCmd_kept {r0 : State} (s : State) (v : Word) (hq : Kept r0 s) : Kept r0 (State.writeRstCmd s v) := by
  unfold State.writeRstCmd
  extract_lets +onlyGivenNames v0
  split
  · extract_lets +onlyGivenNames v1
    have hv1 : Kept r0 v1 := by
      unfold v1
      apply State.plainWrite_kept
      exact hq
    clear_value v1
    split
    · exact hv1
    · exact Kept.upd hv1 rfl
  · split
    · exact hq
    · apply State.assertWarm_kept
      apply State.plainWrite_kept
      exact hq
    · extract_lets +onlyGivenNames v2
      have hv2 : Kept r0 v2 := by
        unfold v2
        apply State.holdIf_kept
        apply State.plainWrite_kept
        exact hq
      clear_value v2
      split
      · apply State.assertDie_kept
        exact hv2
      · apply State.assertCore_kept
        exact hv2
      · apply State.assertPort_kept
        exact hv2
      · exact hv2

theorem State.writeOwnerFuse_kept_of {r0 s t : State} {p : Path} {v : Word} (e : s.writeOwnerFuse p v = some t)
    (hq : Kept r0 s) :
    Kept r0 t := by
  unfold State.writeOwnerFuse at e
  split at e
  · cases e; exact hq
  · extract_lets staged at e
    split at e
    · cases e
    · rename_i g
      cases e
      refine hq.fused rfl fun w => ⟨⟨rfl, Nat.le_refl _, fun h => ?_⟩, w⟩
      simp [h] at g

theorem State.writeFabCtl_kept {r0 : State} (s : State) (v : Word) (hq : Kept r0 s) : Kept r0 (State.writeFabCtl s v) := by
  unfold State.writeFabCtl
  extract_lets +onlyGivenNames v0
  have hv0 : Kept r0 v0 := by
    unfold v0
    apply State.plainWrite_kept
    exact hq
  clear_value v0
  split
  · apply State.compareCables_kept
    apply State.trainPorts_kept
    exact hv0
  · apply State.compareCables_kept
    refine foldl_kept ?_ ?_
    · exact hv0
    · intro s1 x1 hs1
      try dsimp only
      apply State.stopPort_kept
      exact hs1

theorem State.writeEthCmd_kept {r0 : State} (s : State) (v : Word) (h : HostView)
    (hq : Kept r0 s) : Kept r0 (State.writeEthCmd s v h) := by
  unfold State.writeEthCmd
  split
  · exact hq
  · split
    · exact hq
    · apply State.applySetup_kept
      exact hq

theorem State.pairWrite_kept_of {r0 s t : State} {o : Nat} {lo hi : Word} (e : s.pairWrite o lo hi = some t)
    (hq : Kept r0 s) :
    Kept r0 t := by
  have out : ∀ {u : State}, Kept r0 u → some u = some t → Kept r0 t := fun k e => by cases e; exact k
  have hp : ∀ u : State, Kept r0 u → Kept r0 ((u.plainWrite o lo).plainWrite (o + 4) hi) := fun u h =>
    State.plainWrite_kept _ _ _ (State.plainWrite_kept _ _ _ h)
  unfold State.pairWrite at e
  refine of_ite e (out (ite_kept (hp _ hq) hq)) fun e => ?_
  refine of_ite e (out (ite_kept hq (hp _ hq))) fun e => ?_
  refine of_ite e (fun e => State.writeStrict_kept_of e hq) fun e => ?_
  refine of_ite e (fun e => of_ite e (by simp) (out (State.plainWrite_kept _ _ _ (State.plainWrite_kept _ _ _ hq)))) fun e => ?_
  exact out (hp _ hq) e

theorem State.wordWrite_kept_of {r0 s t : State} {p : Path} {o : Nat} {v : Word} {h : HostView} (e : s.wordWrite p o v h = some t)
    (hq : Kept r0 s) : Kept r0 t := by
  have out : ∀ {u : State}, Kept r0 u → some u = some t → Kept r0 t := fun k e => by cases e; exact k
  unfold State.wordWrite at e
  refine of_ite e (out (State.writeLinkCtl_kept _ _ _ hq)) fun e => ?_
  refine of_ite e (out (State.writeLinkCtl_kept _ _ _ hq)) fun e => ?_
  refine of_ite e (out (ite_kept (State.plainWrite_kept _ _ _ hq) hq)) fun e => ?_
  refine of_ite e (out (State.writeRingCtl_kept _ _ _ _ hq)) fun e => ?_
  refine of_ite e (out (ite_kept (State.plainWrite_kept _ _ _ hq) (State.setPair_kept _ _ _ _ (State.plainWrite_kept _ _ _ hq))))
    fun e => ?_
  refine of_ite e (out (State.writeDowel_kept _ _ _ _ hq)) fun e => ?_
  refine of_ite e (out ?_) fun e => ?_
  · refine hq.dowels rfl fun w => ?_
    simp only [State.dowelsWf, Bool.and_eq_true, decide_eq_true_eq, List.length_map, List.length_range] at w ⊢
    exact ⟨⟨w.1.1, trivial⟩, w.2⟩
  refine of_ite e (fun e => of_ite e (by simp) (out (State.setRegBit_kept _ _ _ _ (State.plainWrite_kept _ _ _ hq)))) fun e => ?_
  refine of_ite e (out (ite_kept (State.placeGo_kept _ _ hq) hq)) fun e => ?_
  refine of_ite e (out (ite_kept hq (State.plainWrite_kept _ _ _ hq))) fun e => ?_
  refine of_ite e (out (State.writeFabCtl_kept _ _ hq)) fun e => ?_
  refine of_ite e (out (State.compareCables_kept _ (State.storeCable_kept _ _ _ (State.setReg_kept _ _ _ hq)))) fun e => ?_
  refine of_ite e (out (State.writeEthCmd_kept _ _ _ hq)) fun e => ?_
  refine of_ite e (out ?_) fun e => ?_
  · have h1 := State.plainWrite_kept s o (setFld v 10 0 (min 1024 (max 8 (fld v 10 0)))) hq
    exact ite_kept (h1.upd rfl) h1
  refine of_ite e (out (ite_kept (State.leaveDegraded_kept _ hq) hq)) fun e => ?_
  refine of_ite e (out ?_) fun e => ?_
  · have h1 := State.plainWrite_kept s o (clampSsc v) hq
    exact ite_kept (State.takeSsc_kept _ h1) h1
  refine of_ite e (fun e => of_ite e (by simp) (out (State.plainWrite_kept _ _ _ hq))) fun e => ?_
  refine of_ite e (out (ite_kept (State.breakMux_kept _ _ _ hq) hq)) fun e => ?_
  refine of_ite e (out (State.refreshAlert_kept _ (State.plainWrite_kept _ _ _ hq))) fun e => ?_
  refine of_ite e (out (State.writeRstCmd_kept _ _ hq)) fun e => ?_
  refine of_ite e (fun e => of_ite e (out ?_) (out (ite_kept hq (State.plainWrite_kept _ _ _ hq)))) fun e => ?_
  · have h1 := State.plainWrite_kept s o v hq
    exact ite_kept h1 (State.freeRegion_kept _ _ h1)
  refine of_ite e (out (hq.upd rfl)) fun e => ?_
  refine of_ite e (fun e => State.writeOwnerFuse_kept_of e hq) fun e => ?_
  refine of_ite e (out (State.setRegBit_kept _ _ _ _ (State.plainWrite_kept _ _ _ hq))) fun e => ?_
  refine of_ite e (out (State.plainWrite_kept _ _ _ hq)) fun e => ?_
  refine of_ite e (out (ite_kept (State.setRegFld_kept _ _ _ _ _ hq) hq)) fun e => ?_
  exact out (State.plainWrite_kept _ _ _ hq) e

theorem State.applyWrite_kept_of {r0 s t : State} {p : Path} {o : Nat} {v : Word} {h : HostView} (e : s.applyWrite p o v h = some
    t
    )
    (hq : Kept r0 s) : Kept r0 t := by
  unfold State.applyWrite at e
  split at e
  · cases e; exact hq.upd rfl
  · split at e
    · exact State.pairWrite_kept_of e (hq.upd rfl)
    · exact State.wordWrite_kept_of e hq

theorem State.windowWrite_kept {r0 : State} (s : State) (p : Path) (o : Nat) (v : Word) (h : HostView) (hq : Kept r0 s) :
    Kept r0 (s.windowWrite p o v h) := by
  unfold State.windowWrite
  split
  · exact hq
  · split
    · exact State.emit_kept _ _ (State.logAccess_kept _ _ _ _ _ hq)
    · split
      · exact State.emit_kept _ _ (State.logAccess_kept _ _ _ _ _ hq)
      · rename_i e; exact State.emit_kept _ _ (State.applyWrite_kept_of e hq)

theorem State.readAndAnswer_kept {r0 : State} (s : State) (p : Path) (o : Nat)
    (hq : Kept r0 s) : Kept r0 (State.readAndAnswer s p o) := by
  unfold State.readAndAnswer
  split
  · exact hq
  · extract_lets +onlyGivenNames v0
    apply State.emit_kept
    unfold v0
    apply State.windowRead_kept
    exact hq

theorem execRegisterRead_kept {r0 : State} (p : Path) (offset : Nat) (s : State)
    {t : State} (e : execRegisterRead p offset s = .next t) (hq : Kept r0 s) : Kept r0 t := by
  unfold execRegisterRead at e
  cases e
  apply State.readAndAnswer_kept
  exact hq

theorem execLoRead_kept {r0 : State} (p : Path) (offset : Nat) (s : State)
    {t : State} (e : execLoRead p offset s = .next t) (hq : Kept r0 s) : Kept r0 t := by
  unfold execLoRead at e
  cases e
  apply State.readAndAnswer_kept
  exact hq

theorem execLoWrite_kept {r0 : State} (p : Path) (offset : Nat) (value : Word) (s : State)
    {t : State} (e : execLoWrite p offset value s = .next t) (hq : Kept r0 s) : Kept r0 t := by
  unfold execLoWrite at e
  cases e
  apply State.windowWrite_kept
  exact hq

theorem execHiWrite_kept {r0 : State} (p : Path) (offset : Nat) (value : Word) (s : State)
    {t : State} (e : execHiWrite p offset value s = .next t) (hq : Kept r0 s) : Kept r0 t := by
  unfold execHiWrite at e
  cases e
  apply State.windowWrite_kept
  exact hq

theorem execRegisterWrite_kept {r0 : State} (p : Path) (offset : Nat) (value : Word) (h : HostView) (s : State)
    {t : State} (e : execRegisterWrite p offset value h s = .next t) (hq : Kept r0 s) : Kept r0 t := by
  unfold execRegisterWrite at e
  cases e
  apply State.windowWrite_kept
  exact hq

theorem State.placeCommand_kept {r0 : State} (s : State) (p : Path) (op : Nat) (target first count : Word)
    (hq : Kept r0 s) : Kept r0 (State.placeCommand s p op target first count) := by
  unfold State.placeCommand
  apply State.windowWrite_kept
  apply State.windowWrite_kept
  apply State.windowWrite_kept
  apply State.windowWrite_kept
  exact hq

theorem execMemPlaceMove_kept {r0 : State} (p : Path) (target first count : Word) (s : State)
    {t : State} (e : execMemPlaceMove p target first count s = .next t) (hq : Kept r0 s) : Kept r0 t := by
  unfold execMemPlaceMove at e
  cases e
  apply State.placeCommand_kept
  exact hq

theorem execMemPlaceMakeReadOnly_kept {r0 : State} (p : Path) (target first count : Word) (s : State)
    {t : State} (e : execMemPlaceMakeReadOnly p target first count s = .next t) (hq : Kept r0 s) : Kept r0 t := by
  unfold execMemPlaceMakeReadOnly at e
  cases e
  apply State.placeCommand_kept
  exact hq

theorem execMemPlaceMakeWritable_kept {r0 : State} (p : Path) (target first count : Word) (s : State)
    {t : State} (e : execMemPlaceMakeWritable p target first count s = .next t) (hq : Kept r0 s) : Kept r0 t := by
  unfold execMemPlaceMakeWritable at e
  cases e
  apply State.placeCommand_kept
  exact hq

theorem execMigrationCopyDone_kept {r0 : State} (p : Path) (s : State)
    {t : State} (e : execMigrationCopyDone p s = .next t) (hq : Kept r0 s) : Kept r0 t := by
  unfold execMigrationCopyDone at e
  cases e
  split
  · split
    · apply State.copyEnds_kept
      exact hq
    · exact hq
  · exact hq

theorem execEthSetupCmd_kept {r0 : State} (p : Path) (h : HostView) (s : State)
    {t : State} (e : execEthSetupCmd p h s = .next t) (hq : Kept r0 s) : Kept r0 t := by
  unfold execEthSetupCmd at e
  cases e
  apply State.windowWrite_kept
  exact hq

theorem execRstCmdPackageWarm_kept {r0 : State} (p : Path) (s : State)
    {t : State} (e : execRstCmdPackageWarm p s = .next t) (hq : Kept r0 s) : Kept r0 t := by
  unfold execRstCmdPackageWarm at e
  cases e
  apply State.windowWrite_kept
  exact hq

theorem execRstCmdDie_kept {r0 : State} (p : Path) (die : Fin 8) (hold : Bool) (s : State)
    {t : State} (e : execRstCmdDie p die hold s = .next t) (hq : Kept r0 s) : Kept r0 t := by
  unfold execRstCmdDie at e
  cases e
  apply State.windowWrite_kept
  exact hq

theorem execRstCmdCore_kept {r0 : State} (p : Path) (die : Fin 8) (core : Fin 48) (hold : Bool) (s : State)
    {t : State} (e : execRstCmdCore p die core hold s = .next t) (hq : Kept r0 s) : Kept r0 t := by
  unfold execRstCmdCore at e
  cases e
  apply State.windowWrite_kept
  exact hq

theorem execRstCmdPort_kept {r0 : State} (p : Path) (unit : Fin 48) (hold : Bool) (s : State)
    {t : State} (e : execRstCmdPort p unit hold s = .next t) (hq : Kept r0 s) : Kept r0 t := by
  unfold execRstCmdPort at e
  cases e
  apply State.windowWrite_kept
  exact hq

theorem execRstCmdReleaseHold_kept {r0 : State} (p : Path) (s : State)
    {t : State} (e : execRstCmdReleaseHold p s = .next t) (hq : Kept r0 s) : Kept r0 t := by
  unfold execRstCmdReleaseHold at e
  cases e
  apply State.windowWrite_kept
  exact hq

theorem execQstatClear_kept {r0 : State} (p : Path) (ctx : Fin 64) (s : State)
    {t : State} (e : execQstatClear p ctx s = .next t) (hq : Kept r0 s) : Kept r0 t := by
  unfold execQstatClear at e
  cases e
  apply State.windowWrite_kept
  exact hq

theorem execQstatFreeze_kept {r0 : State} (p : Path) (ctx : Fin 64) (on : Bool) (s : State)
    {t : State} (e : execQstatFreeze p ctx on s = .next t) (hq : Kept r0 s) : Kept r0 t := by
  unfold execQstatFreeze at e
  cases e
  apply State.windowWrite_kept
  exact hq

theorem execResume_kept {r0 : State} (p : Path) (s : State)
    {t : State} (e : execResume p s = .next t) (hq : Kept r0 s) : Kept r0 t := by
  unfold execResume at e
  cases e
  apply State.windowWrite_kept
  exact hq

theorem execRetrain_kept {r0 : State} (p : Path) (port : EPort) (s : State)
    {t : State} (e : execRetrain p port s = .next t) (hq : Kept r0 s) : Kept r0 t := by
  unfold execRetrain at e
  cases e
  apply State.windowWrite_kept
  exact hq

theorem execXbarStallMaxClear_kept {r0 : State} (p : Path) (die : Fin 8) (s : State)
    {t : State} (e : execXbarStallMaxClear p die s = .next t) (hq : Kept r0 s) : Kept r0 t := by
  unfold execXbarStallMaxClear at e
  cases e
  apply State.windowWrite_kept
  exact hq

theorem execMemInjectArm_kept {r0 : State} (p : Path) (value : Word) (s : State)
    {t : State} (e : execMemInjectArm p value s = .next t) (hq : Kept r0 s) : Kept r0 t := by
  unfold execMemInjectArm at e
  cases e
  apply State.windowWrite_kept
  exact hq

theorem execAcquire_kept {r0 : State} (p : Path) (n : Fin 16) (s : State)
    {t : State} (e : execAcquire p n s = .next t) (hq : Kept r0 s) : Kept r0 t := by
  unfold execAcquire at e
  cases e
  apply State.windowWrite_kept
  exact hq

theorem execRelease_kept {r0 : State} (p : Path) (n : Fin 16) (s : State)
    {t : State} (e : execRelease p n s = .next t) (hq : Kept r0 s) : Kept r0 t := by
  unfold execRelease at e
  cases e
  apply State.windowWrite_kept
  exact hq

theorem execBreakDowel_kept {r0 : State} (n : Fin 16) (s : State)
    {t : State} (e : execBreakDowel n s = .next t) (hq : Kept r0 s) : Kept r0 t := by
  unfold execBreakDowel at e
  cases e
  apply State.windowWrite_kept
  exact hq

theorem execRingEnable_kept {r0 : State} (p : Path) (port : EPort) (pair : Fin 64) (tqEn : Bool) (s : State)
    {t : State} (e : execRingEnable p port pair tqEn s = .next t) (hq : Kept r0 s) : Kept r0 t := by
  unfold execRingEnable at e
  cases e
  apply State.windowWrite_kept
  exact hq

theorem execRingDisable_kept {r0 : State} (p : Path) (port : EPort) (pair : Fin 64) (s : State)
    {t : State} (e : execRingDisable p port pair s = .next t) (hq : Kept r0 s) : Kept r0 t := by
  unfold execRingDisable at e
  cases e
  apply State.windowWrite_kept
  exact hq

theorem execIntStrictWrite_kept {r0 : State} (p : Path) (lo hi : Word) (s : State)
    {t : State} (e : execIntStrictWrite p lo hi s = .next t) (hq : Kept r0 s) : Kept r0 t := by
  unfold execIntStrictWrite at e
  cases e
  apply State.windowWrite_kept
  apply State.windowWrite_kept
  exact hq

theorem execClkSscWrite_kept {r0 : State} (p : Path) (value : Word) (s : State)
    {t : State} (e : execClkSscWrite p value s = .next t) (hq : Kept r0 s) : Kept r0 t := by
  unfold execClkSscWrite at e
  cases e
  apply State.windowWrite_kept
  exact hq

theorem execClkEnWrite_kept {r0 : State} (p : Path) (offset : Nat) (value : Word) (s : State)
    {t : State} (e : execClkEnWrite p offset value s = .next t) (hq : Kept r0 s) : Kept r0 t := by
  unfold execClkEnWrite at e
  cases e
  apply State.windowWrite_kept
  exact hq

theorem execClkMuxBreak_kept {r0 : State} (p : Path) (die : Fin 8) (island : Fin 128) (s : State)
    {t : State} (e : execClkMuxBreak p die island s = .next t) (hq : Kept r0 s) : Kept r0 t := by
  unfold execClkMuxBreak at e
  cases e
  apply State.windowWrite_kept
  exact hq

theorem execFabCableWrite_kept {r0 : State} (p : Path) (port : Fin 32) (value : Word) (s : State)
    {t : State} (e : execFabCableWrite p port value s = .next t) (hq : Kept r0 s) : Kept r0 t := by
  unfold execFabCableWrite at e
  cases e
  apply State.windowWrite_kept
  exact hq

theorem execSecOwnerFuse_kept {r0 : State} (p : Path) (value : Word) (s : State)
    {t : State} (e : execSecOwnerFuse p value s = .next t) (hq : Kept r0 s) : Kept r0 t := by
  unfold execSecOwnerFuse at e
  cases e
  apply State.windowWrite_kept
  exact hq

theorem execRstPresValidClear_kept {r0 : State} (p : Path) (k : Fin 8) (s : State)
    {t : State} (e : execRstPresValidClear p k s = .next t) (hq : Kept r0 s) : Kept r0 t := by
  unfold execRstPresValidClear at e
  cases e
  apply State.windowWrite_kept
  exact hq

theorem State.setVolts_kept {r0 : State} (s : State) (v : Nat) (hq : Kept r0 s) : Kept r0 (State.setVolts s v) := by
  unfold State.setVolts
  extract_lets +onlyGivenNames v0
  extract_lets +onlyGivenNames v1
  have hv1 : Kept r0 v1 := by
    unfold v1
    apply State.setMregFld_kept
    exact hq
  clear_value v1
  split
  · apply State.pldmEvent_kept
    exact hv1
  · exact hv1

theorem State.setHot_kept {r0 : State} (s : State) (d v : Nat) (hq : Kept r0 s) : Kept r0 (State.setHot s d v) := by
  unfold State.setHot
  extract_lets +onlyGivenNames v0
  extract_lets +onlyGivenNames v1
  have hv1 : Kept r0 v1 := by
    unfold v1
    apply State.setMregFld_kept
    apply State.setMregFld_kept
    exact hq
  clear_value v1
  split
  · apply State.pldmEvent_kept
    exact hv1
  · exact hv1

theorem execLowInput_kept {r0 : State} (centivolts : Nat) (s : State)
    {t : State} (e : execLowInput centivolts s = .next t) (hq : Kept r0 s) : Kept r0 t := by
  unfold execLowInput at e
  cases e
  split
  · exact hq
  · apply State.recap_kept
    apply State.modPower_kept
    apply State.setVolts_kept
    exact hq

theorem execLowInputRelease_kept {r0 : State} (s : State)
    {t : State} (e : execLowInputRelease s = .next t) (hq : Kept r0 s) : Kept r0 t := by
  unfold execLowInputRelease at e
  cases e
  split
  · exact hq
  · apply State.recap_kept
    apply State.modPower_kept
    exact hq

theorem execInputFailing_kept {r0 : State} (s : State)
    {t : State} (e : execInputFailing s = .next t) (hq : Kept r0 s) : Kept r0 t := by
  unfold execInputFailing at e
  cases e
  split
  · exact hq
  · apply State.departNow_kept
    apply State.modPower_kept
    exact hq

theorem execClampTick_kept {r0 : State} (power : Nat) (millisecond : Bool) (s : State)
    {t : State} (e : execClampTick power millisecond s = .next t) (hq : Kept r0 s) : Kept r0 t := by
  unfold execClampTick at e
  cases e
  split
  · exact hq
  · extract_lets +onlyGivenNames v0
    extract_lets +onlyGivenNames v1
    have hv1 : Kept r0 v1 := by
      unfold v1
      apply State.setMregFld_kept
      exact hq
    clear_value v1
    extract_lets +onlyGivenNames v2
    have hv2 : Kept r0 v2 := by
      unfold v2
      split
      · exact hq
      · split
        · apply State.mbump_kept
          exact hv1
        · exact hv1
    clear_value v2
    split
    · exact hv2
    · split
      · apply State.learnClocks_kept
        exact hv2
      · split
        · apply State.lowerGroups_kept
          exact hv2
        · apply State.raiseGroups_kept
          exact hv2

theorem execCapEffectTimeout_kept {r0 : State} (s : State)
    {t : State} (e : execCapEffectTimeout s = .next t) (hq : Kept r0 s) : Kept r0 t := by
  unfold execCapEffectTimeout at e
  cases e
  apply State.takeCap_kept
  exact hq

theorem execHeartbeatExpired_kept {r0 : State} (s : State)
    {t : State} (e : execHeartbeatExpired s = .next t) (hq : Kept r0 s) : Kept r0 t := by
  unfold execHeartbeatExpired at e
  cases e
  split
  · exact hq
  · apply State.recap_kept
    apply State.modPower_kept
    exact hq

theorem State.kick_kept {r0 : State} (s : State) (hq : Kept r0 s) : Kept r0 (State.kick s) := by
  unfold State.kick
  apply State.recap_kept
  apply State.modPower_kept
  exact hq

theorem execDroopStretch_kept {r0 : State} (die : Fin 8) (s : State)
    {t : State} (e : execDroopStretch die s = .next t) (hq : Kept r0 s) : Kept r0 t := by
  unfold execDroopStretch at e
  cases e
  split
  · exact hq
  · apply State.mbump_kept
    exact hq

theorem execDroopPersist_kept {r0 : State} (die : Fin 8) (island : Nat) (s : State)
    {t : State} (e : execDroopPersist die island s = .next t) (hq : Kept r0 s) : Kept r0 t := by
  unfold execDroopPersist at e
  cases e
  extract_lets +onlyGivenNames v0
  split
  · exact hq
  · extract_lets +onlyGivenNames v1
    split
    · apply State.mbump_kept
      apply State.modPower_kept
      exact hq
    · apply State.mbump_kept
      exact hq

theorem execThrottle_kept {r0 : State} (limit : Nat) (s : State)
    {t : State} (e : execThrottle limit s = .next t) (hq : Kept r0 s) : Kept r0 t := by
  unfold execThrottle at e
  cases e
  split
  · exact hq
  · apply State.recap_kept
    apply State.modPower_kept
    exact hq

theorem execThrottleReleaseTick_kept {r0 : State} (s : State)
    {t : State} (e : execThrottleReleaseTick s = .next t) (hq : Kept r0 s) : Kept r0 t := by
  unfold execThrottleReleaseTick at e
  cases e
  split
  · exact hq
  · split
    · exact hq
    · apply State.recap_kept
      apply State.modPower_kept
      exact hq

theorem execHardThrottle_kept {r0 : State} (s : State)
    {t : State} (e : execHardThrottle s = .next t) (hq : Kept r0 s) : Kept r0 t := by
  unfold execHardThrottle at e
  cases e
  split
  · exact hq
  · apply State.refreshPower_kept
    apply State.modPower_kept
    exact hq

theorem execHardThrottleRelease_kept {r0 : State} (s : State)
    {t : State} (e : execHardThrottleRelease s = .next t) (hq : Kept r0 s) : Kept r0 t := by
  unfold execHardThrottleRelease at e
  cases e
  split
  · exact hq
  · apply State.refreshPower_kept
    apply State.modPower_kept
    exact hq

theorem State.powerOff_kept {r0 : State} (s : State) (hq : Kept r0 s) : Kept r0 (State.powerOff s) := by
  unfold State.powerOff
  extract_lets +onlyGivenNames v0
  have hv0 : Kept r0 v0 := by
    unfold v0
    apply State.coldState_kept
    exact hq
  clear_value v0
  exact Kept.upd hv0 rfl

theorem execTrip_kept {r0 : State} (s : State) {t : State} (e : execTrip s = .next t) (hq : Kept r0 s) : Kept r0 t := by
  unfold execTrip at e
  cases e
  split
  · exact hq
  · apply State.powerOff_kept
    apply State.setRegBit_kept
    apply State.departNow_kept
    exact hq

theorem execLeak_kept {r0 : State} (s : State) {t : State} (e : execLeak s = .next t) (hq : Kept r0 s) : Kept r0 t := by
  unfold execLeak at e
  cases e
  split
  · exact hq
  · apply State.recap_kept
    apply State.modPower_kept
    exact hq

theorem execCoolFail_kept {r0 : State} (s : State)
    {t : State} (e : execCoolFail s = .next t) (hq : Kept r0 s) : Kept r0 t := by
  unfold execCoolFail at e
  cases e
  split
  · exact hq
  · apply State.recap_kept
    apply State.modPower_kept
    exact hq

theorem execCoolantConditionEnd_kept {r0 : State} (leakSide : Bool) (s : State)
    {t : State} (e : execCoolantConditionEnd leakSide s = .next t) (hq : Kept r0 s) : Kept r0 t := by
  unfold execCoolantConditionEnd at e
  cases e
  split
  · exact hq
  · apply State.recap_kept
    apply State.modPower_kept
    exact hq

theorem execEject_kept {r0 : State} (s : State) {t : State} (e : execEject s = .next t) (hq : Kept r0 s) : Kept r0 t := by
  unfold execEject at e
  cases e
  split
  · exact hq
  · apply State.event_kept
    apply State.setRegFld_kept
    exact hq

theorem State.domainsOff_kept {r0 : State} (s : State) (hq : Kept r0 s) : Kept r0 (State.domainsOff s) := by
  unfold State.domainsOff
  refine foldl_kept ?_ ?_
  · exact hq
  · intro s0 x0 hs0
    try dsimp only
    apply State.dropSram_kept
    exact hs0

theorem State.enterNap_kept {r0 : State} (s : State) (hq : Kept r0 s) : Kept r0 (State.enterNap s) := by
  unfold State.enterNap
  extract_lets +onlyGivenNames v0
  have hv0 : Kept r0 v0 := by
    unfold v0
    apply State.domainsOff_kept
    exact hq
  clear_value v0
  exact Kept.upd hv0 rfl

theorem State.enterSleep_kept {r0 : State} (s : State) (hq : Kept r0 s) : Kept r0 (State.enterSleep s) := by
  unfold State.enterSleep
  extract_lets +onlyGivenNames v0
  have hv0 : Kept r0 v0 := by
    unfold v0
    split
    · apply State.departNow_kept
      exact hq
    · exact hq
  clear_value v0
  extract_lets +onlyGivenNames v1
  have hv1 : Kept r0 v1 := by
    unfold v1
    refine foldl_kept ?_ ?_
    · exact hv0
    · intro s2 x2 hs2
      try dsimp only
      apply State.stopPort_kept
      exact hs2
  clear_value v1
  extract_lets +onlyGivenNames v3
  have hv3 : Kept r0 v3 := by
    unfold v3
    apply State.domainsOff_kept
    apply State.stopEthernet_kept
    apply State.stopEthernet_kept
    exact hv1
  clear_value v3
  exact Kept.upd hv3 rfl

theorem State.enterIdle_kept {r0 : State} (s : State) (hq : Kept r0 s) : Kept r0 s.enterIdle := by
  unfold State.enterIdle
  dsimp only
  split
  · exact State.enterNap_kept _ (Kept.upd hq rfl)
  · exact ite_kept (State.enterSleep_kept _ (Kept.upd hq rfl)) (Kept.upd hq rfl)
  · exact Kept.upd hq rfl

theorem execIdleEntry_kept {r0 : State} (s : State)
    {t : State} (e : execIdleEntry s = .next t) (hq : Kept r0 s) : Kept r0 t := by
  unfold execIdleEntry at e
  cases e
  split
  · apply State.enterIdle_kept
    exact hq
  · exact hq

theorem State.returnToIdle_kept {r0 : State} (s : State) (hq : Kept r0 s) : Kept r0 (State.returnToIdle s) := by
  unfold State.returnToIdle
  split
  · exact Kept.upd hq rfl
  · extract_lets +onlyGivenNames v0
    have hv0 : Kept r0 v0 := by
      unfold v0
      apply State.trainPorts_kept
      exact Kept.upd hq rfl
    clear_value v0
    refine foldl_kept ?_ ?_
    · exact hv0
    · intro s1 x1 hs1
      try dsimp only
      apply State.startEthernet_kept
      exact hs1
  · exact hq

theorem State.answer_kept {r0 : State} (s : State) (status : Nat) (words : List Word)
    (hq : Kept r0 s) : Kept r0 (State.answer s status words) := by
  unfold State.answer
  apply State.emit_kept
  exact hq

theorem State.managed_kept {r0 : State} (s : State) (f : State → State) (hq : Kept r0 s) (hf : Kept r0 (f s)) :
    Kept r0 (s.managed f) := by
  unfold State.managed
  split
  · exact hf
  · exact hq

theorem readWords_kept {r0 : State} (o n : Nat) (s : State) (hq : Kept r0 s) : Kept r0 (readWords o n s).2.2 := by
  induction n generalizing o s with
  | zero => exact hq
  | succ n ih =>
    unfold readWords
    extract_lets v
    have hv : Kept r0 v.2.2 := State.windowRead_kept _ _ _ hq
    clear_value v
    split
    · exact hv
    · exact ih _ _ hv

theorem execWindowRead_kept {r0 : State} (offset count : Nat) (s : State)
    {t : State} (e : execWindowRead offset count s = .next t) (hq : Kept r0 s) : Kept r0 t := by
  unfold execWindowRead at e
  cases e
  apply State.managed_kept
  · exact hq
  · extract_lets +onlyGivenNames v0
    apply State.answer_kept
    unfold v0
    apply readWords_kept
    exact hq

theorem execWindowWrite_kept {r0 : State} (offset : Nat) (value : Word) (h : HostView) (s : State)
    {t : State} (e : execWindowWrite offset value h s = .next t) (hq : Kept r0 s) : Kept r0 t := by
  unfold execWindowWrite at e
  cases e
  apply State.windowWrite_kept
  exact hq

theorem State.mgmtPut_kept_of {r0 s t : State} {o : Nat} {v : Word} (e : s.mgmtPut o v = some t)
    (hq : Kept r0 s) : Kept r0 t := by
  unfold State.mgmtPut at e
  split at e
  · cases e
  · split at e
    · exact State.writeCap_kept_of e hq
    · split at e
      · exact State.writeSafe_kept_of e hq
      · split at e
        · cases e
          split
          · exact State.kick_kept _ hq
          · exact hq
        · split at e
          · cases e
            split
            · exact State.setMregFld_kept _ _ _ _ _ hq
            · exact hq
          · cases e; exact hq

theorem State.mgmtWrite_kept {r0 : State} (s : State) (o : Nat) (v : Word) (hq : Kept r0 s) : Kept r0 (s.mgmtWrite o v) := by
  unfold State.mgmtWrite
  refine State.managed_kept _ _ hq ?_
  split
  · exact State.answer_kept _ _ _ hq
  · rename_i e; exact State.answer_kept _ _ _ (State.mgmtPut_kept_of e hq)

theorem execMgmtRead_kept {r0 : State} (offset : Nat) (s : State)
    {t : State} (e : execMgmtRead offset s = .next t) (hq : Kept r0 s) : Kept r0 t := by
  unfold execMgmtRead at e
  cases e
  apply State.managed_kept
  · exact hq
  · split
    · apply State.answer_kept
      exact hq
    · apply State.answer_kept
      exact hq

theorem execMgmtWrite_kept {r0 : State} (offset : Nat) (value : Word) (s : State)
    {t : State} (e : execMgmtWrite offset value s = .next t) (hq : Kept r0 s) : Kept r0 t := by
  unfold execMgmtWrite at e
  cases e
  apply State.mgmtWrite_kept
  exact hq

theorem execPwrCapWrite_kept {r0 : State} (value : Word) (s : State)
    {t : State} (e : execPwrCapWrite value s = .next t) (hq : Kept r0 s) : Kept r0 t := by
  unfold execPwrCapWrite at e
  cases e
  apply State.mgmtWrite_kept
  exact hq

theorem execPwrSafeWrite_kept {r0 : State} (value : Word) (s : State)
    {t : State} (e : execPwrSafeWrite value s = .next t) (hq : Kept r0 s) : Kept r0 t := by
  unfold execPwrSafeWrite at e
  cases e
  apply State.mgmtWrite_kept
  exact hq

theorem execKick_kept {r0 : State} (s : State) {t : State} (e : execKick s = .next t) (hq : Kept r0 s) : Kept r0 t := by
  unfold execKick at e
  cases e
  apply State.mgmtWrite_kept
  exact hq

theorem execThermClear_kept {r0 : State} (die : Fin 8) (s : State)
    {t : State} (e : execThermClear die s = .next t) (hq : Kept r0 s) : Kept r0 t := by
  unfold execThermClear at e
  cases e
  apply State.mgmtWrite_kept
  exact hq

theorem State.setMembers_kept {r0 : State} (s : State) (partition : Nat) (nodes : List Nat)
    (hq : Kept r0 s) : Kept r0 (State.setMembers s partition nodes) := by
  unfold State.setMembers
  extract_lets +onlyGivenNames v0
  have hv0 : Kept r0 v0 := by
    unfold v0
    apply State.setRegFld_kept
    exact hq
  clear_value v0
  extract_lets +onlyGivenNames v1
  have hv1 : Kept r0 v1 := by
    unfold v1
    exact Kept.upd hv0 rfl
  clear_value v1
  split
  · exact hv1
  · apply State.setRegFld_kept
    exact hv1

theorem execMemberSet_kept {r0 : State} (partition : Nat) (nodes : List Nat) (s : State)
    {t : State} (e : execMemberSet partition nodes s = .next t) (hq : Kept r0 s) : Kept r0 t := by
  unfold execMemberSet at e
  cases e
  apply State.managed_kept
  · exact hq
  · split
    · apply State.answer_kept
      exact hq
    · apply State.answer_kept
      apply State.setMembers_kept
      exact hq

theorem execFaultClear_kept {r0 : State} (s : State)
    {t : State} (e : execFaultClear s = .next t) (hq : Kept r0 s) : Kept r0 t := by
  unfold execFaultClear at e
  cases e
  refine State.managed_kept _ _ hq ?_
  refine State.answer_kept _ _ _ ?_
  refine hq.mem rfl id id id id fun e m v => ?_
  simp [m, v]

theorem execStateSetIdle_kept {r0 : State} (s : State)
    {t : State} (e : execStateSetIdle s = .next t) (hq : Kept r0 s) : Kept r0 t := by
  unfold execStateSetIdle at e
  cases e
  apply State.managed_kept
  · exact hq
  · apply State.answer_kept
    apply State.returnToIdle_kept
    apply State.modPower_kept
    exact hq

theorem execStateSetNap_kept {r0 : State} (s : State)
    {t : State} (e : execStateSetNap s = .next t) (hq : Kept r0 s) : Kept r0 t := by
  unfold execStateSetNap at e
  cases e
  apply State.managed_kept
  · exact hq
  · split
    · apply State.answer_kept
      apply State.modPower_kept
      exact hq
    · apply State.answer_kept
      apply State.enterNap_kept
      exact hq
    · apply State.answer_kept
      exact hq
    · apply State.answer_kept
      exact hq

theorem execStateSetSleep_kept {r0 : State} (s : State)
    {t : State} (e : execStateSetSleep s = .next t) (hq : Kept r0 s) : Kept r0 t := by
  unfold execStateSetSleep at e
  cases e
  apply State.managed_kept
  · exact hq
  · split
    · apply State.answer_kept
      exact hq
    · split
      · apply State.answer_kept
        apply State.modPower_kept
        exact hq
      · apply State.answer_kept
        apply State.enterSleep_kept
        exact hq
      · apply State.answer_kept
        apply State.enterSleep_kept
        exact hq
      · apply State.answer_kept
        exact hq

theorem execStateSetOff_kept {r0 : State} (s : State)
    {t : State} (e : execStateSetOff s = .next t) (hq : Kept r0 s) : Kept r0 t := by
  unfold execStateSetOff at e
  cases e
  apply State.managed_kept
  · exact hq
  · apply State.powerOff_kept
    apply State.answer_kept
    exact hq

theorem execBcbWrite_kept {r0 : State} (offset : Nat) (bytes : List Byte) (s : State)
    {t : State} (e : execBcbWrite offset bytes s = .next t) (hq : Kept r0 s) : Kept r0 t := by
  unfold execBcbWrite at e
  cases e
  apply State.managed_kept
  · exact hq
  · split
    · apply State.answer_kept
      exact hq
    · apply State.answer_kept
      exact Kept.upd hq rfl

theorem State.pldmCap_kept {r0 : State} (s : State) (watts : Nat) (write : Nat → Option State) (hq : Kept r0 s)
    (hw : ∀ c t, write c = some t → Kept r0 t) : Kept r0 (s.pldmCap watts write) := by
  unfold State.pldmCap
  refine State.managed_kept _ _ hq ?_
  split
  · exact State.emit_kept _ _ hq
  · split
    · exact State.emit_kept _ _ hq
    · split
      · exact State.emit_kept _ _ hq
      · rename_i e; exact State.emit_kept _ _ (hw _ _ e)

theorem execPldmSetPowerCap_kept {r0 : State} (watts : Nat) (s : State)
    {t : State} (e : execPldmSetPowerCap watts s = .next t) (hq : Kept r0 s) : Kept r0 t := by
  unfold execPldmSetPowerCap at e
  cases e
  apply State.pldmCap_kept
  · exact hq
  · intro a0_0 a0_1 hs0
    try dsimp only
    refine State.writeCap_kept_of (by assumption) ?_
    exact hq

theorem execPldmSetSafeCap_kept {r0 : State} (watts : Nat) (s : State)
    {t : State} (e : execPldmSetSafeCap watts s = .next t) (hq : Kept r0 s) : Kept r0 t := by
  unfold execPldmSetSafeCap at e
  cases e
  apply State.pldmCap_kept
  · exact hq
  · intro a0_0 a0_1 hs0
    try dsimp only
    refine State.writeSafe_kept_of (by assumption) ?_
    exact hq

theorem execPldmSetHbTimeout_kept {r0 : State} (value : Nat) (s : State)
    {t : State} (e : execPldmSetHbTimeout value s = .next t) (hq : Kept r0 s) : Kept r0 t := by
  unfold execPldmSetHbTimeout at e
  cases e
  apply State.managed_kept
  · exact hq
  · split
    · apply State.emit_kept
      exact hq
    · split
      · apply State.emit_kept
        exact hq
      · apply State.emit_kept
        refine State.writeSafe_kept_of (by assumption) ?_
        exact hq

theorem execPldmSetStagedEffecter_kept {r0 : State} (id value : Nat) (s : State)
    {t : State} (e : execPldmSetStagedEffecter id value s = .next t) (hq : Kept r0 s) : Kept r0 t := by
  unfold execPldmSetStagedEffecter at e
  cases e
  apply State.managed_kept
  · exact hq
  · split
    · apply State.emit_kept
      exact hq
    · split
      · apply State.emit_kept
        exact hq
      · apply State.emit_kept
        apply State.modBoot_kept
        exact hq

theorem execSensorChange_kept {r0 : State} (sensor value : Nat) (s : State)
    {t : State} (e : execSensorChange sensor value s = .next t) (hq : Kept r0 s) : Kept r0 t := by
  unfold execSensorChange at e
  cases e
  split
  · exact hq
  · split
    · apply State.setVolts_kept
      exact hq
    · split
      · apply State.setMregFld_kept
        exact hq
      · split
        · apply State.setHot_kept
          exact hq
        · split
          · exact hq
          · split
            · exact hq
            · apply State.pldmEvent_kept
              exact hq

theorem execSetEventReceiver_kept {r0 : State} (s : State)
    {t : State} (e : execSetEventReceiver s = .next t) (hq : Kept r0 s) : Kept r0 t := by
  unfold execSetEventReceiver at e
  cases e
  apply State.managed_kept
  · exact hq
  · extract_lets +onlyGivenNames v0
    have hv0 : Kept r0 v0 := by
      unfold v0
      apply State.emit_kept
      apply State.modBoot_kept
      exact hq
    clear_value v0
    split
    · apply State.pldmEvent_kept
      exact hv0
    · exact hv0

theorem State.raiseRate_kept {r0 : State} (s : State) (qp rate : Nat) (hq : Kept r0 s) : Kept r0 (s.raiseRate qp rate) :=
  Kept.upd (State.free_kept _ hq) rfl

theorem State.restoreRates_kept {r0 : State} (s : State) (hq : Kept r0 s) : Kept r0 (State.restoreRates s) := by
  unfold State.restoreRates
  refine foldl_kept ?_ ?_
  · exact hq
  · intro s0 x0 hs0
    try dsimp only
    apply State.raiseRate_kept
    exact hs0

theorem State.tickTime_kept {r0 : State} (s : State) (hq : Kept r0 s) : Kept r0 s.tickTime := by
  unfold State.tickTime
  split
  · exact Kept.upd hq rfl
  · extract_lets +onlyGivenNames v0
    exact Kept.upd hq rfl

theorem State.endPauses_kept {r0 : State} (s : State) (hq : Kept r0 s) : Kept r0 (State.endPauses s) := by
  unfold State.endPauses
  split
  · apply State.runStor_kept
    exact Kept.upd hq rfl
  · exact hq

theorem tick_kept {r0 : State} (s : State) (hq : Kept r0 s) : Kept r0 (tick s) := by
  unfold tick
  apply State.runLinks_kept
  apply State.restoreRates_kept
  apply State.endPauses_kept
  apply State.tickTime_kept
  exact hq

end Sys2Proof.Machine
end

