-- ==== Sys2Proof/Laws/State.lean ====
section
/-! SUPPORT. What each named update of the state leaves as it was: one lemma a field. -/

namespace Sys2Proof.Machine

variable (s : State)

section setReg
variable (o : Nat) (v : Word)
@[simp] theorem State.setReg_mregs : (s.setReg o v).mregs = s.mregs := rfl
@[simp] theorem State.setReg_shadows : (s.setReg o v).shadows = s.shadows := rfl
@[simp] theorem State.setReg_staged : (s.setReg o v).staged = s.staged := rfl
@[simp] theorem State.setReg_dowels : (s.setReg o v).dowels = s.dowels := rfl
@[simp] theorem State.setReg_broken : (s.setReg o v).broken = s.broken := rfl
@[simp] theorem State.setReg_retained : (s.setReg o v).retained = s.retained := rfl
@[simp] theorem State.setReg_retainedBad : (s.setReg o v).retainedBad = s.retainedBad := rfl
@[simp] theorem State.setReg_fuses : (s.setReg o v).fuses = s.fuses := rfl
@[simp] theorem State.setReg_flash : (s.setReg o v).flash = s.flash := rfl
@[simp] theorem State.setReg_rst : (s.setReg o v).rst = s.rst := rfl
@[simp] theorem State.setReg_boot : (s.setReg o v).boot = s.boot := rfl
@[simp] theorem State.setReg_power : (s.setReg o v).power = s.power := rfl
@[simp] theorem State.setReg_pkg : (s.setReg o v).pkg = s.pkg := rfl
@[simp] theorem State.setReg_time : (s.setReg o v).time = s.time := rfl
@[simp] theorem State.setReg_timeFrac : (s.setReg o v).timeFrac = s.timeFrac := rfl
@[simp] theorem State.setReg_timeHold : (s.setReg o v).timeHold = s.timeHold := rfl
@[simp] theorem State.setReg_timeLocks : (s.setReg o v).timeLocks = s.timeLocks := rfl
@[simp] theorem State.setReg_offsets : (s.setReg o v).offsets = s.offsets := rfl
@[simp] theorem State.setReg_slew : (s.setReg o v).slew = s.slew := rfl
@[simp] theorem State.setReg_portA : (s.setReg o v).portA = s.portA := rfl
@[simp] theorem State.setReg_portB : (s.setReg o v).portB = s.portB := rfl
@[simp] theorem State.setReg_opens : (s.setReg o v).opens = s.opens := rfl
@[simp] theorem State.setReg_nextDesc : (s.setReg o v).nextDesc = s.nextDesc := rfl
@[simp] theorem State.setReg_commits : (s.setReg o v).commits = s.commits := rfl
@[simp] theorem State.setReg_ctxs : (s.setReg o v).ctxs = s.ctxs := rfl
@[simp] theorem State.setReg_hbm : (s.setReg o v).hbm = s.hbm := rfl
@[simp] theorem State.setReg_hbmPoison : (s.setReg o v).hbmPoison = s.hbmPoison := rfl
@[simp] theorem State.setReg_hbmFlips : (s.setReg o v).hbmFlips = s.hbmFlips := rfl
@[simp] theorem State.setReg_slices : (s.setReg o v).slices = s.slices := rfl
@[simp] theorem State.setReg_slicePoison : (s.setReg o v).slicePoison = s.slicePoison := rfl
@[simp] theorem State.setReg_sliceFlips : (s.setReg o v).sliceFlips = s.sliceFlips := rfl
@[simp] theorem State.setReg_locals : (s.setReg o v).locals = s.locals := rfl
@[simp] theorem State.setReg_localPoison : (s.setReg o v).localPoison = s.localPoison := rfl
@[simp] theorem State.setReg_localFlips : (s.setReg o v).localFlips = s.localFlips := rfl
@[simp] theorem State.setReg_lines : (s.setReg o v).lines = s.lines := rfl
@[simp] theorem State.setReg_linePoison : (s.setReg o v).linePoison = s.linePoison := rfl
@[simp] theorem State.setReg_vregs : (s.setReg o v).vregs = s.vregs := rfl
@[simp] theorem State.setReg_vregPoison : (s.setReg o v).vregPoison = s.vregPoison := rfl
@[simp] theorem State.setReg_jigStore : (s.setReg o v).jigStore = s.jigStore := rfl
@[simp] theorem State.setReg_tableFaults : (s.setReg o v).tableFaults = s.tableFaults := rfl
@[simp] theorem State.setReg_frames : (s.setReg o v).frames = s.frames := rfl
@[simp] theorem State.setReg_preserved : (s.setReg o v).preserved = s.preserved := rfl
@[simp] theorem State.setReg_scrub : (s.setReg o v).scrub = s.scrub := rfl
@[simp] theorem State.setReg_corrected : (s.setReg o v).corrected = s.corrected := rfl
@[simp] theorem State.setReg_places : (s.setReg o v).places = s.places := rfl
@[simp] theorem State.setReg_swaps : (s.setReg o v).swaps = s.swaps := rfl
@[simp] theorem State.setReg_leaving : (s.setReg o v).leaving = s.leaving := rfl
@[simp] theorem State.setReg_members : (s.setReg o v).members = s.members := rfl
@[simp] theorem State.setReg_lostNodes : (s.setReg o v).lostNodes = s.lostNodes := rfl
@[simp] theorem State.setReg_departed : (s.setReg o v).departed = s.departed := rfl
@[simp] theorem State.setReg_lead : (s.setReg o v).lead = s.lead := rfl
@[simp] theorem State.setReg_plans : (s.setReg o v).plans = s.plans := rfl
@[simp] theorem State.setReg_attempt : (s.setReg o v).attempt = s.attempt := rfl
@[simp] theorem State.setReg_retracted : (s.setReg o v).retracted = s.retracted := rfl
@[simp] theorem State.setReg_stopped : (s.setReg o v).stopped = s.stopped := rfl
@[simp] theorem State.setReg_owed : (s.setReg o v).owed = s.owed := rfl
@[simp] theorem State.setReg_lastJob : (s.setReg o v).lastJob = s.lastJob := rfl
@[simp] theorem State.setReg_heldInputs : (s.setReg o v).heldInputs = s.heldInputs := rfl
@[simp] theorem State.setReg_strict : (s.setReg o v).strict = s.strict := rfl
@[simp] theorem State.setReg_strictAreas : (s.setReg o v).strictAreas = s.strictAreas := rfl
@[simp] theorem State.setReg_past : (s.setReg o v).past = s.past := rfl
@[simp] theorem State.setReg_forwards : (s.setReg o v).forwards = s.forwards := rfl
@[simp] theorem State.setReg_told : (s.setReg o v).told = s.told := rfl
@[simp] theorem State.setReg_telling : (s.setReg o v).telling = s.telling := rfl
@[simp] theorem State.setReg_edits : (s.setReg o v).edits = s.edits := rfl
@[simp] theorem State.setReg_unsent : (s.setReg o v).unsent = s.unsent := rfl
@[simp] theorem State.setReg_shadowOpen : (s.setReg o v).shadowOpen = s.shadowOpen := rfl
@[simp] theorem State.setReg_shadowMarks : (s.setReg o v).shadowMarks = s.shadowMarks := rfl
@[simp] theorem State.setReg_logHalf : (s.setReg o v).logHalf = s.logHalf := rfl
@[simp] theorem State.setReg_period : (s.setReg o v).period = s.period := rfl
@[simp] theorem State.setReg_switchWait : (s.setReg o v).switchWait = s.switchWait := rfl
@[simp] theorem State.setReg_sealsHeld : (s.setReg o v).sealsHeld = s.sealsHeld := rfl
@[simp] theorem State.setReg_retractsHeld : (s.setReg o v).retractsHeld = s.retractsHeld := rfl
@[simp] theorem State.setReg_replansDue : (s.setReg o v).replansDue = s.replansDue := rfl
@[simp] theorem State.setReg_dueFaults : (s.setReg o v).dueFaults = s.dueFaults := rfl
@[simp] theorem State.setReg_heldEdits : (s.setReg o v).heldEdits = s.heldEdits := rfl
@[simp] theorem State.setReg_credits : (s.setReg o v).credits = s.credits := rfl
@[simp] theorem State.setReg_links : (s.setReg o v).links = s.links := rfl
@[simp] theorem State.setReg_drained : (s.setReg o v).drained = s.drained := rfl
@[simp] theorem State.setReg_xlate : (s.setReg o v).xlate = s.xlate := rfl
@[simp] theorem State.setReg_hung : (s.setReg o v).hung = s.hung := rfl
@[simp] theorem State.setReg_resting : (s.setReg o v).resting = s.resting := rfl
@[simp] theorem State.setReg_outst : (s.setReg o v).outst = s.outst := rfl
@[simp] theorem State.setReg_nextTag : (s.setReg o v).nextTag = s.nextTag := rfl
@[simp] theorem State.setReg_parked : (s.setReg o v).parked = s.parked := rfl
@[simp] theorem State.setReg_lent : (s.setReg o v).lent = s.lent := rfl
@[simp] theorem State.setReg_wants : (s.setReg o v).wants = s.wants := rfl
@[simp] theorem State.setReg_stalled : (s.setReg o v).stalled = s.stalled := rfl
@[simp] theorem State.setReg_forwarding : (s.setReg o v).forwarding = s.forwarding := rfl
@[simp] theorem State.setReg_ships : (s.setReg o v).ships = s.ships := rfl
@[simp] theorem State.setReg_stor : (s.setReg o v).stor = s.stor := rfl
@[simp] theorem State.setReg_loads : (s.setReg o v).loads = s.loads := rfl
@[simp] theorem State.setReg_joins : (s.setReg o v).joins = s.joins := rfl
@[simp] theorem State.setReg_eth : (s.setReg o v).eth = s.eth := rfl
@[simp] theorem State.setReg_out : (s.setReg o v).out = s.out := rfl
@[simp] theorem State.setReg_fresh : (s.setReg o v).fresh = s.fresh := rfl
@[simp] theorem State.setReg_pending : (s.setReg o v).pending = s.pending := rfl
end setReg

section setMreg
variable (o : Nat) (v : Word)
@[simp] theorem State.setMreg_regs : (s.setMreg o v).regs = s.regs := rfl
@[simp] theorem State.setMreg_shadows : (s.setMreg o v).shadows = s.shadows := rfl
@[simp] theorem State.setMreg_staged : (s.setMreg o v).staged = s.staged := rfl
@[simp] theorem State.setMreg_dowels : (s.setMreg o v).dowels = s.dowels := rfl
@[simp] theorem State.setMreg_broken : (s.setMreg o v).broken = s.broken := rfl
@[simp] theorem State.setMreg_retained : (s.setMreg o v).retained = s.retained := rfl
@[simp] theorem State.setMreg_retainedBad : (s.setMreg o v).retainedBad = s.retainedBad := rfl
@[simp] theorem State.setMreg_fuses : (s.setMreg o v).fuses = s.fuses := rfl
@[simp] theorem State.setMreg_flash : (s.setMreg o v).flash = s.flash := rfl
@[simp] theorem State.setMreg_rst : (s.setMreg o v).rst = s.rst := rfl
@[simp] theorem State.setMreg_boot : (s.setMreg o v).boot = s.boot := rfl
@[simp] theorem State.setMreg_power : (s.setMreg o v).power = s.power := rfl
@[simp] theorem State.setMreg_pkg : (s.setMreg o v).pkg = s.pkg := rfl
@[simp] theorem State.setMreg_time : (s.setMreg o v).time = s.time := rfl
@[simp] theorem State.setMreg_timeFrac : (s.setMreg o v).timeFrac = s.timeFrac := rfl
@[simp] theorem State.setMreg_timeHold : (s.setMreg o v).timeHold = s.timeHold := rfl
@[simp] theorem State.setMreg_timeLocks : (s.setMreg o v).timeLocks = s.timeLocks := rfl
@[simp] theorem State.setMreg_offsets : (s.setMreg o v).offsets = s.offsets := rfl
@[simp] theorem State.setMreg_slew : (s.setMreg o v).slew = s.slew := rfl
@[simp] theorem State.setMreg_portA : (s.setMreg o v).portA = s.portA := rfl
@[simp] theorem State.setMreg_portB : (s.setMreg o v).portB = s.portB := rfl
@[simp] theorem State.setMreg_opens : (s.setMreg o v).opens = s.opens := rfl
@[simp] theorem State.setMreg_nextDesc : (s.setMreg o v).nextDesc = s.nextDesc := rfl
@[simp] theorem State.setMreg_commits : (s.setMreg o v).commits = s.commits := rfl
@[simp] theorem State.setMreg_ctxs : (s.setMreg o v).ctxs = s.ctxs := rfl
@[simp] theorem State.setMreg_hbm : (s.setMreg o v).hbm = s.hbm := rfl
@[simp] theorem State.setMreg_hbmPoison : (s.setMreg o v).hbmPoison = s.hbmPoison := rfl
@[simp] theorem State.setMreg_hbmFlips : (s.setMreg o v).hbmFlips = s.hbmFlips := rfl
@[simp] theorem State.setMreg_slices : (s.setMreg o v).slices = s.slices := rfl
@[simp] theorem State.setMreg_slicePoison : (s.setMreg o v).slicePoison = s.slicePoison := rfl
@[simp] theorem State.setMreg_sliceFlips : (s.setMreg o v).sliceFlips = s.sliceFlips := rfl
@[simp] theorem State.setMreg_locals : (s.setMreg o v).locals = s.locals := rfl
@[simp] theorem State.setMreg_localPoison : (s.setMreg o v).localPoison = s.localPoison := rfl
@[simp] theorem State.setMreg_localFlips : (s.setMreg o v).localFlips = s.localFlips := rfl
@[simp] theorem State.setMreg_lines : (s.setMreg o v).lines = s.lines := rfl
@[simp] theorem State.setMreg_linePoison : (s.setMreg o v).linePoison = s.linePoison := rfl
@[simp] theorem State.setMreg_vregs : (s.setMreg o v).vregs = s.vregs := rfl
@[simp] theorem State.setMreg_vregPoison : (s.setMreg o v).vregPoison = s.vregPoison := rfl
@[simp] theorem State.setMreg_jigStore : (s.setMreg o v).jigStore = s.jigStore := rfl
@[simp] theorem State.setMreg_tableFaults : (s.setMreg o v).tableFaults = s.tableFaults := rfl
@[simp] theorem State.setMreg_frames : (s.setMreg o v).frames = s.frames := rfl
@[simp] theorem State.setMreg_preserved : (s.setMreg o v).preserved = s.preserved := rfl
@[simp] theorem State.setMreg_scrub : (s.setMreg o v).scrub = s.scrub := rfl
@[simp] theorem State.setMreg_corrected : (s.setMreg o v).corrected = s.corrected := rfl
@[simp] theorem State.setMreg_places : (s.setMreg o v).places = s.places := rfl
@[simp] theorem State.setMreg_swaps : (s.setMreg o v).swaps = s.swaps := rfl
@[simp] theorem State.setMreg_leaving : (s.setMreg o v).leaving = s.leaving := rfl
@[simp] theorem State.setMreg_members : (s.setMreg o v).members = s.members := rfl
@[simp] theorem State.setMreg_lostNodes : (s.setMreg o v).lostNodes = s.lostNodes := rfl
@[simp] theorem State.setMreg_departed : (s.setMreg o v).departed = s.departed := rfl
@[simp] theorem State.setMreg_lead : (s.setMreg o v).lead = s.lead := rfl
@[simp] theorem State.setMreg_plans : (s.setMreg o v).plans = s.plans := rfl
@[simp] theorem State.setMreg_attempt : (s.setMreg o v).attempt = s.attempt := rfl
@[simp] theorem State.setMreg_retracted : (s.setMreg o v).retracted = s.retracted := rfl
@[simp] theorem State.setMreg_stopped : (s.setMreg o v).stopped = s.stopped := rfl
@[simp] theorem State.setMreg_owed : (s.setMreg o v).owed = s.owed := rfl
@[simp] theorem State.setMreg_lastJob : (s.setMreg o v).lastJob = s.lastJob := rfl
@[simp] theorem State.setMreg_heldInputs : (s.setMreg o v).heldInputs = s.heldInputs := rfl
@[simp] theorem State.setMreg_strict : (s.setMreg o v).strict = s.strict := rfl
@[simp] theorem State.setMreg_strictAreas : (s.setMreg o v).strictAreas = s.strictAreas := rfl
@[simp] theorem State.setMreg_past : (s.setMreg o v).past = s.past := rfl
@[simp] theorem State.setMreg_forwards : (s.setMreg o v).forwards = s.forwards := rfl
@[simp] theorem State.setMreg_told : (s.setMreg o v).told = s.told := rfl
@[simp] theorem State.setMreg_telling : (s.setMreg o v).telling = s.telling := rfl
@[simp] theorem State.setMreg_edits : (s.setMreg o v).edits = s.edits := rfl
@[simp] theorem State.setMreg_unsent : (s.setMreg o v).unsent = s.unsent := rfl
@[simp] theorem State.setMreg_shadowOpen : (s.setMreg o v).shadowOpen = s.shadowOpen := rfl
@[simp] theorem State.setMreg_shadowMarks : (s.setMreg o v).shadowMarks = s.shadowMarks := rfl
@[simp] theorem State.setMreg_logHalf : (s.setMreg o v).logHalf = s.logHalf := rfl
@[simp] theorem State.setMreg_period : (s.setMreg o v).period = s.period := rfl
@[simp] theorem State.setMreg_switchWait : (s.setMreg o v).switchWait = s.switchWait := rfl
@[simp] theorem State.setMreg_sealsHeld : (s.setMreg o v).sealsHeld = s.sealsHeld := rfl
@[simp] theorem State.setMreg_retractsHeld : (s.setMreg o v).retractsHeld = s.retractsHeld := rfl
@[simp] theorem State.setMreg_replansDue : (s.setMreg o v).replansDue = s.replansDue := rfl
@[simp] theorem State.setMreg_dueFaults : (s.setMreg o v).dueFaults = s.dueFaults := rfl
@[simp] theorem State.setMreg_heldEdits : (s.setMreg o v).heldEdits = s.heldEdits := rfl
@[simp] theorem State.setMreg_credits : (s.setMreg o v).credits = s.credits := rfl
@[simp] theorem State.setMreg_links : (s.setMreg o v).links = s.links := rfl
@[simp] theorem State.setMreg_drained : (s.setMreg o v).drained = s.drained := rfl
@[simp] theorem State.setMreg_xlate : (s.setMreg o v).xlate = s.xlate := rfl
@[simp] theorem State.setMreg_hung : (s.setMreg o v).hung = s.hung := rfl
@[simp] theorem State.setMreg_resting : (s.setMreg o v).resting = s.resting := rfl
@[simp] theorem State.setMreg_outst : (s.setMreg o v).outst = s.outst := rfl
@[simp] theorem State.setMreg_nextTag : (s.setMreg o v).nextTag = s.nextTag := rfl
@[simp] theorem State.setMreg_parked : (s.setMreg o v).parked = s.parked := rfl
@[simp] theorem State.setMreg_lent : (s.setMreg o v).lent = s.lent := rfl
@[simp] theorem State.setMreg_wants : (s.setMreg o v).wants = s.wants := rfl
@[simp] theorem State.setMreg_stalled : (s.setMreg o v).stalled = s.stalled := rfl
@[simp] theorem State.setMreg_forwarding : (s.setMreg o v).forwarding = s.forwarding := rfl
@[simp] theorem State.setMreg_ships : (s.setMreg o v).ships = s.ships := rfl
@[simp] theorem State.setMreg_stor : (s.setMreg o v).stor = s.stor := rfl
@[simp] theorem State.setMreg_loads : (s.setMreg o v).loads = s.loads := rfl
@[simp] theorem State.setMreg_joins : (s.setMreg o v).joins = s.joins := rfl
@[simp] theorem State.setMreg_eth : (s.setMreg o v).eth = s.eth := rfl
@[simp] theorem State.setMreg_out : (s.setMreg o v).out = s.out := rfl
@[simp] theorem State.setMreg_fresh : (s.setMreg o v).fresh = s.fresh := rfl
@[simp] theorem State.setMreg_pending : (s.setMreg o v).pending = s.pending := rfl
end setMreg

section emit
variable (o : Out)
@[simp] theorem State.emit_regs : (s.emit o).regs = s.regs := rfl
@[simp] theorem State.emit_mregs : (s.emit o).mregs = s.mregs := rfl
@[simp] theorem State.emit_shadows : (s.emit o).shadows = s.shadows := rfl
@[simp] theorem State.emit_staged : (s.emit o).staged = s.staged := rfl
@[simp] theorem State.emit_dowels : (s.emit o).dowels = s.dowels := rfl
@[simp] theorem State.emit_broken : (s.emit o).broken = s.broken := rfl
@[simp] theorem State.emit_retained : (s.emit o).retained = s.retained := rfl
@[simp] theorem State.emit_retainedBad : (s.emit o).retainedBad = s.retainedBad := rfl
@[simp] theorem State.emit_fuses : (s.emit o).fuses = s.fuses := rfl
@[simp] theorem State.emit_flash : (s.emit o).flash = s.flash := rfl
@[simp] theorem State.emit_rst : (s.emit o).rst = s.rst := rfl
@[simp] theorem State.emit_boot : (s.emit o).boot = s.boot := rfl
@[simp] theorem State.emit_power : (s.emit o).power = s.power := rfl
@[simp] theorem State.emit_pkg : (s.emit o).pkg = s.pkg := rfl
@[simp] theorem State.emit_time : (s.emit o).time = s.time := rfl
@[simp] theorem State.emit_timeFrac : (s.emit o).timeFrac = s.timeFrac := rfl
@[simp] theorem State.emit_timeHold : (s.emit o).timeHold = s.timeHold := rfl
@[simp] theorem State.emit_timeLocks : (s.emit o).timeLocks = s.timeLocks := rfl
@[simp] theorem State.emit_offsets : (s.emit o).offsets = s.offsets := rfl
@[simp] theorem State.emit_slew : (s.emit o).slew = s.slew := rfl
@[simp] theorem State.emit_portA : (s.emit o).portA = s.portA := rfl
@[simp] theorem State.emit_portB : (s.emit o).portB = s.portB := rfl
@[simp] theorem State.emit_opens : (s.emit o).opens = s.opens := rfl
@[simp] theorem State.emit_nextDesc : (s.emit o).nextDesc = s.nextDesc := rfl
@[simp] theorem State.emit_commits : (s.emit o).commits = s.commits := rfl
@[simp] theorem State.emit_ctxs : (s.emit o).ctxs = s.ctxs := rfl
@[simp] theorem State.emit_hbm : (s.emit o).hbm = s.hbm := rfl
@[simp] theorem State.emit_hbmPoison : (s.emit o).hbmPoison = s.hbmPoison := rfl
@[simp] theorem State.emit_hbmFlips : (s.emit o).hbmFlips = s.hbmFlips := rfl
@[simp] theorem State.emit_slices : (s.emit o).slices = s.slices := rfl
@[simp] theorem State.emit_slicePoison : (s.emit o).slicePoison = s.slicePoison := rfl
@[simp] theorem State.emit_sliceFlips : (s.emit o).sliceFlips = s.sliceFlips := rfl
@[simp] theorem State.emit_locals : (s.emit o).locals = s.locals := rfl
@[simp] theorem State.emit_localPoison : (s.emit o).localPoison = s.localPoison := rfl
@[simp] theorem State.emit_localFlips : (s.emit o).localFlips = s.localFlips := rfl
@[simp] theorem State.emit_lines : (s.emit o).lines = s.lines := rfl
@[simp] theorem State.emit_linePoison : (s.emit o).linePoison = s.linePoison := rfl
@[simp] theorem State.emit_vregs : (s.emit o).vregs = s.vregs := rfl
@[simp] theorem State.emit_vregPoison : (s.emit o).vregPoison = s.vregPoison := rfl
@[simp] theorem State.emit_jigStore : (s.emit o).jigStore = s.jigStore := rfl
@[simp] theorem State.emit_tableFaults : (s.emit o).tableFaults = s.tableFaults := rfl
@[simp] theorem State.emit_frames : (s.emit o).frames = s.frames := rfl
@[simp] theorem State.emit_preserved : (s.emit o).preserved = s.preserved := rfl
@[simp] theorem State.emit_scrub : (s.emit o).scrub = s.scrub := rfl
@[simp] theorem State.emit_corrected : (s.emit o).corrected = s.corrected := rfl
@[simp] theorem State.emit_places : (s.emit o).places = s.places := rfl
@[simp] theorem State.emit_swaps : (s.emit o).swaps = s.swaps := rfl
@[simp] theorem State.emit_leaving : (s.emit o).leaving = s.leaving := rfl
@[simp] theorem State.emit_members : (s.emit o).members = s.members := rfl
@[simp] theorem State.emit_lostNodes : (s.emit o).lostNodes = s.lostNodes := rfl
@[simp] theorem State.emit_departed : (s.emit o).departed = s.departed := rfl
@[simp] theorem State.emit_lead : (s.emit o).lead = s.lead := rfl
@[simp] theorem State.emit_plans : (s.emit o).plans = s.plans := rfl
@[simp] theorem State.emit_attempt : (s.emit o).attempt = s.attempt := rfl
@[simp] theorem State.emit_retracted : (s.emit o).retracted = s.retracted := rfl
@[simp] theorem State.emit_stopped : (s.emit o).stopped = s.stopped := rfl
@[simp] theorem State.emit_owed : (s.emit o).owed = s.owed := rfl
@[simp] theorem State.emit_lastJob : (s.emit o).lastJob = s.lastJob := rfl
@[simp] theorem State.emit_heldInputs : (s.emit o).heldInputs = s.heldInputs := rfl
@[simp] theorem State.emit_strict : (s.emit o).strict = s.strict := rfl
@[simp] theorem State.emit_strictAreas : (s.emit o).strictAreas = s.strictAreas := rfl
@[simp] theorem State.emit_past : (s.emit o).past = s.past := rfl
@[simp] theorem State.emit_forwards : (s.emit o).forwards = s.forwards := rfl
@[simp] theorem State.emit_told : (s.emit o).told = s.told := rfl
@[simp] theorem State.emit_telling : (s.emit o).telling = s.telling := rfl
@[simp] theorem State.emit_edits : (s.emit o).edits = s.edits := rfl
@[simp] theorem State.emit_unsent : (s.emit o).unsent = s.unsent := rfl
@[simp] theorem State.emit_shadowOpen : (s.emit o).shadowOpen = s.shadowOpen := rfl
@[simp] theorem State.emit_shadowMarks : (s.emit o).shadowMarks = s.shadowMarks := rfl
@[simp] theorem State.emit_logHalf : (s.emit o).logHalf = s.logHalf := rfl
@[simp] theorem State.emit_period : (s.emit o).period = s.period := rfl
@[simp] theorem State.emit_switchWait : (s.emit o).switchWait = s.switchWait := rfl
@[simp] theorem State.emit_sealsHeld : (s.emit o).sealsHeld = s.sealsHeld := rfl
@[simp] theorem State.emit_retractsHeld : (s.emit o).retractsHeld = s.retractsHeld := rfl
@[simp] theorem State.emit_replansDue : (s.emit o).replansDue = s.replansDue := rfl
@[simp] theorem State.emit_dueFaults : (s.emit o).dueFaults = s.dueFaults := rfl
@[simp] theorem State.emit_heldEdits : (s.emit o).heldEdits = s.heldEdits := rfl
@[simp] theorem State.emit_credits : (s.emit o).credits = s.credits := rfl
@[simp] theorem State.emit_links : (s.emit o).links = s.links := rfl
@[simp] theorem State.emit_drained : (s.emit o).drained = s.drained := rfl
@[simp] theorem State.emit_xlate : (s.emit o).xlate = s.xlate := rfl
@[simp] theorem State.emit_hung : (s.emit o).hung = s.hung := rfl
@[simp] theorem State.emit_resting : (s.emit o).resting = s.resting := rfl
@[simp] theorem State.emit_outst : (s.emit o).outst = s.outst := rfl
@[simp] theorem State.emit_nextTag : (s.emit o).nextTag = s.nextTag := rfl
@[simp] theorem State.emit_parked : (s.emit o).parked = s.parked := rfl
@[simp] theorem State.emit_lent : (s.emit o).lent = s.lent := rfl
@[simp] theorem State.emit_wants : (s.emit o).wants = s.wants := rfl
@[simp] theorem State.emit_stalled : (s.emit o).stalled = s.stalled := rfl
@[simp] theorem State.emit_forwarding : (s.emit o).forwarding = s.forwarding := rfl
@[simp] theorem State.emit_ships : (s.emit o).ships = s.ships := rfl
@[simp] theorem State.emit_stor : (s.emit o).stor = s.stor := rfl
@[simp] theorem State.emit_loads : (s.emit o).loads = s.loads := rfl
@[simp] theorem State.emit_joins : (s.emit o).joins = s.joins := rfl
@[simp] theorem State.emit_eth : (s.emit o).eth = s.eth := rfl
@[simp] theorem State.emit_fresh : (s.emit o).fresh = s.fresh := rfl
@[simp] theorem State.emit_pending : (s.emit o).pending = s.pending := rfl
end emit

section setCtx
variable (c : Nat) (x : Ctx)
@[simp] theorem State.setCtx_regs : (s.setCtx c x).regs = s.regs := rfl
@[simp] theorem State.setCtx_mregs : (s.setCtx c x).mregs = s.mregs := rfl
@[simp] theorem State.setCtx_shadows : (s.setCtx c x).shadows = s.shadows := rfl
@[simp] theorem State.setCtx_staged : (s.setCtx c x).staged = s.staged := rfl
@[simp] theorem State.setCtx_dowels : (s.setCtx c x).dowels = s.dowels := rfl
@[simp] theorem State.setCtx_broken : (s.setCtx c x).broken = s.broken := rfl
@[simp] theorem State.setCtx_retained : (s.setCtx c x).retained = s.retained := rfl
@[simp] theorem State.setCtx_retainedBad : (s.setCtx c x).retainedBad = s.retainedBad := rfl
@[simp] theorem State.setCtx_fuses : (s.setCtx c x).fuses = s.fuses := rfl
@[simp] theorem State.setCtx_flash : (s.setCtx c x).flash = s.flash := rfl
@[simp] theorem State.setCtx_rst : (s.setCtx c x).rst = s.rst := rfl
@[simp] theorem State.setCtx_boot : (s.setCtx c x).boot = s.boot := rfl
@[simp] theorem State.setCtx_power : (s.setCtx c x).power = s.power := rfl
@[simp] theorem State.setCtx_pkg : (s.setCtx c x).pkg = s.pkg := rfl
@[simp] theorem State.setCtx_time : (s.setCtx c x).time = s.time := rfl
@[simp] theorem State.setCtx_timeFrac : (s.setCtx c x).timeFrac = s.timeFrac := rfl
@[simp] theorem State.setCtx_timeHold : (s.setCtx c x).timeHold = s.timeHold := rfl
@[simp] theorem State.setCtx_timeLocks : (s.setCtx c x).timeLocks = s.timeLocks := rfl
@[simp] theorem State.setCtx_offsets : (s.setCtx c x).offsets = s.offsets := rfl
@[simp] theorem State.setCtx_slew : (s.setCtx c x).slew = s.slew := rfl
@[simp] theorem State.setCtx_portA : (s.setCtx c x).portA = s.portA := rfl
@[simp] theorem State.setCtx_portB : (s.setCtx c x).portB = s.portB := rfl
@[simp] theorem State.setCtx_opens : (s.setCtx c x).opens = s.opens := rfl
@[simp] theorem State.setCtx_nextDesc : (s.setCtx c x).nextDesc = s.nextDesc := rfl
@[simp] theorem State.setCtx_commits : (s.setCtx c x).commits = s.commits := rfl
@[simp] theorem State.setCtx_hbm : (s.setCtx c x).hbm = s.hbm := rfl
@[simp] theorem State.setCtx_hbmPoison : (s.setCtx c x).hbmPoison = s.hbmPoison := rfl
@[simp] theorem State.setCtx_hbmFlips : (s.setCtx c x).hbmFlips = s.hbmFlips := rfl
@[simp] theorem State.setCtx_slices : (s.setCtx c x).slices = s.slices := rfl
@[simp] theorem State.setCtx_slicePoison : (s.setCtx c x).slicePoison = s.slicePoison := rfl
@[simp] theorem State.setCtx_sliceFlips : (s.setCtx c x).sliceFlips = s.sliceFlips := rfl
@[simp] theorem State.setCtx_locals : (s.setCtx c x).locals = s.locals := rfl
@[simp] theorem State.setCtx_localPoison : (s.setCtx c x).localPoison = s.localPoison := rfl
@[simp] theorem State.setCtx_localFlips : (s.setCtx c x).localFlips = s.localFlips := rfl
@[simp] theorem State.setCtx_lines : (s.setCtx c x).lines = s.lines := rfl
@[simp] theorem State.setCtx_linePoison : (s.setCtx c x).linePoison = s.linePoison := rfl
@[simp] theorem State.setCtx_vregs : (s.setCtx c x).vregs = s.vregs := rfl
@[simp] theorem State.setCtx_vregPoison : (s.setCtx c x).vregPoison = s.vregPoison := rfl
@[simp] theorem State.setCtx_jigStore : (s.setCtx c x).jigStore = s.jigStore := rfl
@[simp] theorem State.setCtx_tableFaults : (s.setCtx c x).tableFaults = s.tableFaults := rfl
@[simp] theorem State.setCtx_frames : (s.setCtx c x).frames = s.frames := rfl
@[simp] theorem State.setCtx_preserved : (s.setCtx c x).preserved = s.preserved := rfl
@[simp] theorem State.setCtx_scrub : (s.setCtx c x).scrub = s.scrub := rfl
@[simp] theorem State.setCtx_corrected : (s.setCtx c x).corrected = s.corrected := rfl
@[simp] theorem State.setCtx_places : (s.setCtx c x).places = s.places := rfl
@[simp] theorem State.setCtx_swaps : (s.setCtx c x).swaps = s.swaps := rfl
@[simp] theorem State.setCtx_leaving : (s.setCtx c x).leaving = s.leaving := rfl
@[simp] theorem State.setCtx_members : (s.setCtx c x).members = s.members := rfl
@[simp] theorem State.setCtx_lostNodes : (s.setCtx c x).lostNodes = s.lostNodes := rfl
@[simp] theorem State.setCtx_departed : (s.setCtx c x).departed = s.departed := rfl
@[simp] theorem State.setCtx_lead : (s.setCtx c x).lead = s.lead := rfl
@[simp] theorem State.setCtx_plans : (s.setCtx c x).plans = s.plans := rfl
@[simp] theorem State.setCtx_attempt : (s.setCtx c x).attempt = s.attempt := rfl
@[simp] theorem State.setCtx_retracted : (s.setCtx c x).retracted = s.retracted := rfl
@[simp] theorem State.setCtx_stopped : (s.setCtx c x).stopped = s.stopped := rfl
@[simp] theorem State.setCtx_owed : (s.setCtx c x).owed = s.owed := rfl
@[simp] theorem State.setCtx_lastJob : (s.setCtx c x).lastJob = s.lastJob := rfl
@[simp] theorem State.setCtx_heldInputs : (s.setCtx c x).heldInputs = s.heldInputs := rfl
@[simp] theorem State.setCtx_strict : (s.setCtx c x).strict = s.strict := rfl
@[simp] theorem State.setCtx_strictAreas : (s.setCtx c x).strictAreas = s.strictAreas := rfl
@[simp] theorem State.setCtx_past : (s.setCtx c x).past = s.past := rfl
@[simp] theorem State.setCtx_forwards : (s.setCtx c x).forwards = s.forwards := rfl
@[simp] theorem State.setCtx_told : (s.setCtx c x).told = s.told := rfl
@[simp] theorem State.setCtx_telling : (s.setCtx c x).telling = s.telling := rfl
@[simp] theorem State.setCtx_edits : (s.setCtx c x).edits = s.edits := rfl
@[simp] theorem State.setCtx_unsent : (s.setCtx c x).unsent = s.unsent := rfl
@[simp] theorem State.setCtx_shadowOpen : (s.setCtx c x).shadowOpen = s.shadowOpen := rfl
@[simp] theorem State.setCtx_shadowMarks : (s.setCtx c x).shadowMarks = s.shadowMarks := rfl
@[simp] theorem State.setCtx_logHalf : (s.setCtx c x).logHalf = s.logHalf := rfl
@[simp] theorem State.setCtx_period : (s.setCtx c x).period = s.period := rfl
@[simp] theorem State.setCtx_switchWait : (s.setCtx c x).switchWait = s.switchWait := rfl
@[simp] theorem State.setCtx_sealsHeld : (s.setCtx c x).sealsHeld = s.sealsHeld := rfl
@[simp] theorem State.setCtx_retractsHeld : (s.setCtx c x).retractsHeld = s.retractsHeld := rfl
@[simp] theorem State.setCtx_replansDue : (s.setCtx c x).replansDue = s.replansDue := rfl
@[simp] theorem State.setCtx_dueFaults : (s.setCtx c x).dueFaults = s.dueFaults := rfl
@[simp] theorem State.setCtx_heldEdits : (s.setCtx c x).heldEdits = s.heldEdits := rfl
@[simp] theorem State.setCtx_credits : (s.setCtx c x).credits = s.credits := rfl
@[simp] theorem State.setCtx_links : (s.setCtx c x).links = s.links := rfl
@[simp] theorem State.setCtx_drained : (s.setCtx c x).drained = s.drained := rfl
@[simp] theorem State.setCtx_xlate : (s.setCtx c x).xlate = s.xlate := rfl
@[simp] theorem State.setCtx_hung : (s.setCtx c x).hung = s.hung := rfl
@[simp] theorem State.setCtx_resting : (s.setCtx c x).resting = s.resting := rfl
@[simp] theorem State.setCtx_outst : (s.setCtx c x).outst = s.outst := rfl
@[simp] theorem State.setCtx_nextTag : (s.setCtx c x).nextTag = s.nextTag := rfl
@[simp] theorem State.setCtx_parked : (s.setCtx c x).parked = s.parked := rfl
@[simp] theorem State.setCtx_lent : (s.setCtx c x).lent = s.lent := rfl
@[simp] theorem State.setCtx_wants : (s.setCtx c x).wants = s.wants := rfl
@[simp] theorem State.setCtx_stalled : (s.setCtx c x).stalled = s.stalled := rfl
@[simp] theorem State.setCtx_forwarding : (s.setCtx c x).forwarding = s.forwarding := rfl
@[simp] theorem State.setCtx_ships : (s.setCtx c x).ships = s.ships := rfl
@[simp] theorem State.setCtx_stor : (s.setCtx c x).stor = s.stor := rfl
@[simp] theorem State.setCtx_loads : (s.setCtx c x).loads = s.loads := rfl
@[simp] theorem State.setCtx_joins : (s.setCtx c x).joins = s.joins := rfl
@[simp] theorem State.setCtx_eth : (s.setCtx c x).eth = s.eth := rfl
@[simp] theorem State.setCtx_out : (s.setCtx c x).out = s.out := rfl
@[simp] theorem State.setCtx_fresh : (s.setCtx c x).fresh = s.fresh := rfl
@[simp] theorem State.setCtx_pending : (s.setCtx c x).pending = s.pending := rfl
end setCtx

section dropCtx
variable (c : Nat)
@[simp] theorem State.dropCtx_regs : (s.dropCtx c).regs = s.regs := rfl
@[simp] theorem State.dropCtx_mregs : (s.dropCtx c).mregs = s.mregs := rfl
@[simp] theorem State.dropCtx_shadows : (s.dropCtx c).shadows = s.shadows := rfl
@[simp] theorem State.dropCtx_staged : (s.dropCtx c).staged = s.staged := rfl
@[simp] theorem State.dropCtx_dowels : (s.dropCtx c).dowels = s.dowels := rfl
@[simp] theorem State.dropCtx_broken : (s.dropCtx c).broken = s.broken := rfl
@[simp] theorem State.dropCtx_retained : (s.dropCtx c).retained = s.retained := rfl
@[simp] theorem State.dropCtx_retainedBad : (s.dropCtx c).retainedBad = s.retainedBad := rfl
@[simp] theorem State.dropCtx_fuses : (s.dropCtx c).fuses = s.fuses := rfl
@[simp] theorem State.dropCtx_flash : (s.dropCtx c).flash = s.flash := rfl
@[simp] theorem State.dropCtx_rst : (s.dropCtx c).rst = s.rst := rfl
@[simp] theorem State.dropCtx_boot : (s.dropCtx c).boot = s.boot := rfl
@[simp] theorem State.dropCtx_power : (s.dropCtx c).power = s.power := rfl
@[simp] theorem State.dropCtx_pkg : (s.dropCtx c).pkg = s.pkg := rfl
@[simp] theorem State.dropCtx_time : (s.dropCtx c).time = s.time := rfl
@[simp] theorem State.dropCtx_timeFrac : (s.dropCtx c).timeFrac = s.timeFrac := rfl
@[simp] theorem State.dropCtx_timeHold : (s.dropCtx c).timeHold = s.timeHold := rfl
@[simp] theorem State.dropCtx_timeLocks : (s.dropCtx c).timeLocks = s.timeLocks := rfl
@[simp] theorem State.dropCtx_offsets : (s.dropCtx c).offsets = s.offsets := rfl
@[simp] theorem State.dropCtx_slew : (s.dropCtx c).slew = s.slew := rfl
@[simp] theorem State.dropCtx_portA : (s.dropCtx c).portA = s.portA := rfl
@[simp] theorem State.dropCtx_portB : (s.dropCtx c).portB = s.portB := rfl
@[simp] theorem State.dropCtx_opens : (s.dropCtx c).opens = s.opens := rfl
@[simp] theorem State.dropCtx_nextDesc : (s.dropCtx c).nextDesc = s.nextDesc := rfl
@[simp] theorem State.dropCtx_commits : (s.dropCtx c).commits = s.commits := rfl
@[simp] theorem State.dropCtx_hbm : (s.dropCtx c).hbm = s.hbm := rfl
@[simp] theorem State.dropCtx_hbmPoison : (s.dropCtx c).hbmPoison = s.hbmPoison := rfl
@[simp] theorem State.dropCtx_hbmFlips : (s.dropCtx c).hbmFlips = s.hbmFlips := rfl
@[simp] theorem State.dropCtx_slices : (s.dropCtx c).slices = s.slices := rfl
@[simp] theorem State.dropCtx_slicePoison : (s.dropCtx c).slicePoison = s.slicePoison := rfl
@[simp] theorem State.dropCtx_sliceFlips : (s.dropCtx c).sliceFlips = s.sliceFlips := rfl
@[simp] theorem State.dropCtx_locals : (s.dropCtx c).locals = s.locals := rfl
@[simp] theorem State.dropCtx_localPoison : (s.dropCtx c).localPoison = s.localPoison := rfl
@[simp] theorem State.dropCtx_localFlips : (s.dropCtx c).localFlips = s.localFlips := rfl
@[simp] theorem State.dropCtx_lines : (s.dropCtx c).lines = s.lines := rfl
@[simp] theorem State.dropCtx_linePoison : (s.dropCtx c).linePoison = s.linePoison := rfl
@[simp] theorem State.dropCtx_vregs : (s.dropCtx c).vregs = s.vregs := rfl
@[simp] theorem State.dropCtx_vregPoison : (s.dropCtx c).vregPoison = s.vregPoison := rfl
@[simp] theorem State.dropCtx_jigStore : (s.dropCtx c).jigStore = s.jigStore := rfl
@[simp] theorem State.dropCtx_tableFaults : (s.dropCtx c).tableFaults = s.tableFaults := rfl
@[simp] theorem State.dropCtx_frames : (s.dropCtx c).frames = s.frames := rfl
@[simp] theorem State.dropCtx_preserved : (s.dropCtx c).preserved = s.preserved := rfl
@[simp] theorem State.dropCtx_scrub : (s.dropCtx c).scrub = s.scrub := rfl
@[simp] theorem State.dropCtx_corrected : (s.dropCtx c).corrected = s.corrected := rfl
@[simp] theorem State.dropCtx_places : (s.dropCtx c).places = s.places := rfl
@[simp] theorem State.dropCtx_swaps : (s.dropCtx c).swaps = s.swaps := rfl
@[simp] theorem State.dropCtx_leaving : (s.dropCtx c).leaving = s.leaving := rfl
@[simp] theorem State.dropCtx_members : (s.dropCtx c).members = s.members := rfl
@[simp] theorem State.dropCtx_lostNodes : (s.dropCtx c).lostNodes = s.lostNodes := rfl
@[simp] theorem State.dropCtx_departed : (s.dropCtx c).departed = s.departed := rfl
@[simp] theorem State.dropCtx_lead : (s.dropCtx c).lead = s.lead := rfl
@[simp] theorem State.dropCtx_plans : (s.dropCtx c).plans = s.plans := rfl
@[simp] theorem State.dropCtx_attempt : (s.dropCtx c).attempt = s.attempt := rfl
@[simp] theorem State.dropCtx_retracted : (s.dropCtx c).retracted = s.retracted := rfl
@[simp] theorem State.dropCtx_stopped : (s.dropCtx c).stopped = s.stopped := rfl
@[simp] theorem State.dropCtx_owed : (s.dropCtx c).owed = s.owed := rfl
@[simp] theorem State.dropCtx_lastJob : (s.dropCtx c).lastJob = s.lastJob := rfl
@[simp] theorem State.dropCtx_heldInputs : (s.dropCtx c).heldInputs = s.heldInputs := rfl
@[simp] theorem State.dropCtx_strict : (s.dropCtx c).strict = s.strict := rfl
@[simp] theorem State.dropCtx_strictAreas : (s.dropCtx c).strictAreas = s.strictAreas := rfl
@[simp] theorem State.dropCtx_past : (s.dropCtx c).past = s.past := rfl
@[simp] theorem State.dropCtx_forwards : (s.dropCtx c).forwards = s.forwards := rfl
@[simp] theorem State.dropCtx_told : (s.dropCtx c).told = s.told := rfl
@[simp] theorem State.dropCtx_telling : (s.dropCtx c).telling = s.telling := rfl
@[simp] theorem State.dropCtx_edits : (s.dropCtx c).edits = s.edits := rfl
@[simp] theorem State.dropCtx_unsent : (s.dropCtx c).unsent = s.unsent := rfl
@[simp] theorem State.dropCtx_shadowOpen : (s.dropCtx c).shadowOpen = s.shadowOpen := rfl
@[simp] theorem State.dropCtx_shadowMarks : (s.dropCtx c).shadowMarks = s.shadowMarks := rfl
@[simp] theorem State.dropCtx_logHalf : (s.dropCtx c).logHalf = s.logHalf := rfl
@[simp] theorem State.dropCtx_period : (s.dropCtx c).period = s.period := rfl
@[simp] theorem State.dropCtx_switchWait : (s.dropCtx c).switchWait = s.switchWait := rfl
@[simp] theorem State.dropCtx_sealsHeld : (s.dropCtx c).sealsHeld = s.sealsHeld := rfl
@[simp] theorem State.dropCtx_retractsHeld : (s.dropCtx c).retractsHeld = s.retractsHeld := rfl
@[simp] theorem State.dropCtx_replansDue : (s.dropCtx c).replansDue = s.replansDue := rfl
@[simp] theorem State.dropCtx_dueFaults : (s.dropCtx c).dueFaults = s.dueFaults := rfl
@[simp] theorem State.dropCtx_heldEdits : (s.dropCtx c).heldEdits = s.heldEdits := rfl
@[simp] theorem State.dropCtx_credits : (s.dropCtx c).credits = s.credits := rfl
@[simp] theorem State.dropCtx_links : (s.dropCtx c).links = s.links := rfl
@[simp] theorem State.dropCtx_drained : (s.dropCtx c).drained = s.drained := rfl
@[simp] theorem State.dropCtx_xlate : (s.dropCtx c).xlate = s.xlate := rfl
@[simp] theorem State.dropCtx_hung : (s.dropCtx c).hung = s.hung := rfl
@[simp] theorem State.dropCtx_resting : (s.dropCtx c).resting = s.resting := rfl
@[simp] theorem State.dropCtx_outst : (s.dropCtx c).outst = s.outst := rfl
@[simp] theorem State.dropCtx_nextTag : (s.dropCtx c).nextTag = s.nextTag := rfl
@[simp] theorem State.dropCtx_parked : (s.dropCtx c).parked = s.parked := rfl
@[simp] theorem State.dropCtx_lent : (s.dropCtx c).lent = s.lent := rfl
@[simp] theorem State.dropCtx_wants : (s.dropCtx c).wants = s.wants := rfl
@[simp] theorem State.dropCtx_stalled : (s.dropCtx c).stalled = s.stalled := rfl
@[simp] theorem State.dropCtx_forwarding : (s.dropCtx c).forwarding = s.forwarding := rfl
@[simp] theorem State.dropCtx_ships : (s.dropCtx c).ships = s.ships := rfl
@[simp] theorem State.dropCtx_stor : (s.dropCtx c).stor = s.stor := rfl
@[simp] theorem State.dropCtx_loads : (s.dropCtx c).loads = s.loads := rfl
@[simp] theorem State.dropCtx_joins : (s.dropCtx c).joins = s.joins := rfl
@[simp] theorem State.dropCtx_eth : (s.dropCtx c).eth = s.eth := rfl
@[simp] theorem State.dropCtx_out : (s.dropCtx c).out = s.out := rfl
@[simp] theorem State.dropCtx_fresh : (s.dropCtx c).fresh = s.fresh := rfl
@[simp] theorem State.dropCtx_pending : (s.dropCtx c).pending = s.pending := rfl
end dropCtx

section takeFrame
variable (k : Nat)
@[simp] theorem State.takeFrame_regs : (s.takeFrame k).regs = s.regs := rfl
@[simp] theorem State.takeFrame_mregs : (s.takeFrame k).mregs = s.mregs := rfl
@[simp] theorem State.takeFrame_shadows : (s.takeFrame k).shadows = s.shadows := rfl
@[simp] theorem State.takeFrame_staged : (s.takeFrame k).staged = s.staged := rfl
@[simp] theorem State.takeFrame_dowels : (s.takeFrame k).dowels = s.dowels := rfl
@[simp] theorem State.takeFrame_broken : (s.takeFrame k).broken = s.broken := rfl
@[simp] theorem State.takeFrame_retained : (s.takeFrame k).retained = s.retained := rfl
@[simp] theorem State.takeFrame_retainedBad : (s.takeFrame k).retainedBad = s.retainedBad := rfl
@[simp] theorem State.takeFrame_fuses : (s.takeFrame k).fuses = s.fuses := rfl
@[simp] theorem State.takeFrame_flash : (s.takeFrame k).flash = s.flash := rfl
@[simp] theorem State.takeFrame_rst : (s.takeFrame k).rst = s.rst := rfl
@[simp] theorem State.takeFrame_boot : (s.takeFrame k).boot = s.boot := rfl
@[simp] theorem State.takeFrame_power : (s.takeFrame k).power = s.power := rfl
@[simp] theorem State.takeFrame_pkg : (s.takeFrame k).pkg = s.pkg := rfl
@[simp] theorem State.takeFrame_time : (s.takeFrame k).time = s.time := rfl
@[simp] theorem State.takeFrame_timeFrac : (s.takeFrame k).timeFrac = s.timeFrac := rfl
@[simp] theorem State.takeFrame_timeHold : (s.takeFrame k).timeHold = s.timeHold := rfl
@[simp] theorem State.takeFrame_timeLocks : (s.takeFrame k).timeLocks = s.timeLocks := rfl
@[simp] theorem State.takeFrame_offsets : (s.takeFrame k).offsets = s.offsets := rfl
@[simp] theorem State.takeFrame_slew : (s.takeFrame k).slew = s.slew := rfl
@[simp] theorem State.takeFrame_portA : (s.takeFrame k).portA = s.portA := rfl
@[simp] theorem State.takeFrame_portB : (s.takeFrame k).portB = s.portB := rfl
@[simp] theorem State.takeFrame_opens : (s.takeFrame k).opens = s.opens := rfl
@[simp] theorem State.takeFrame_nextDesc : (s.takeFrame k).nextDesc = s.nextDesc := rfl
@[simp] theorem State.takeFrame_commits : (s.takeFrame k).commits = s.commits := rfl
@[simp] theorem State.takeFrame_ctxs : (s.takeFrame k).ctxs = s.ctxs := rfl
@[simp] theorem State.takeFrame_hbm : (s.takeFrame k).hbm = s.hbm := rfl
@[simp] theorem State.takeFrame_hbmPoison : (s.takeFrame k).hbmPoison = s.hbmPoison := rfl
@[simp] theorem State.takeFrame_hbmFlips : (s.takeFrame k).hbmFlips = s.hbmFlips := rfl
@[simp] theorem State.takeFrame_slices : (s.takeFrame k).slices = s.slices := rfl
@[simp] theorem State.takeFrame_slicePoison : (s.takeFrame k).slicePoison = s.slicePoison := rfl
@[simp] theorem State.takeFrame_sliceFlips : (s.takeFrame k).sliceFlips = s.sliceFlips := rfl
@[simp] theorem State.takeFrame_locals : (s.takeFrame k).locals = s.locals := rfl
@[simp] theorem State.takeFrame_localPoison : (s.takeFrame k).localPoison = s.localPoison := rfl
@[simp] theorem State.takeFrame_localFlips : (s.takeFrame k).localFlips = s.localFlips := rfl
@[simp] theorem State.takeFrame_lines : (s.takeFrame k).lines = s.lines := rfl
@[simp] theorem State.takeFrame_linePoison : (s.takeFrame k).linePoison = s.linePoison := rfl
@[simp] theorem State.takeFrame_vregs : (s.takeFrame k).vregs = s.vregs := rfl
@[simp] theorem State.takeFrame_vregPoison : (s.takeFrame k).vregPoison = s.vregPoison := rfl
@[simp] theorem State.takeFrame_jigStore : (s.takeFrame k).jigStore = s.jigStore := rfl
@[simp] theorem State.takeFrame_tableFaults : (s.takeFrame k).tableFaults = s.tableFaults := rfl
@[simp] theorem State.takeFrame_preserved : (s.takeFrame k).preserved = s.preserved := rfl
@[simp] theorem State.takeFrame_scrub : (s.takeFrame k).scrub = s.scrub := rfl
@[simp] theorem State.takeFrame_corrected : (s.takeFrame k).corrected = s.corrected := rfl
@[simp] theorem State.takeFrame_places : (s.takeFrame k).places = s.places := rfl
@[simp] theorem State.takeFrame_swaps : (s.takeFrame k).swaps = s.swaps := rfl
@[simp] theorem State.takeFrame_leaving : (s.takeFrame k).leaving = s.leaving := rfl
@[simp] theorem State.takeFrame_members : (s.takeFrame k).members = s.members := rfl
@[simp] theorem State.takeFrame_lostNodes : (s.takeFrame k).lostNodes = s.lostNodes := rfl
@[simp] theorem State.takeFrame_departed : (s.takeFrame k).departed = s.departed := rfl
@[simp] theorem State.takeFrame_lead : (s.takeFrame k).lead = s.lead := rfl
@[simp] theorem State.takeFrame_plans : (s.takeFrame k).plans = s.plans := rfl
@[simp] theorem State.takeFrame_attempt : (s.takeFrame k).attempt = s.attempt := rfl
@[simp] theorem State.takeFrame_retracted : (s.takeFrame k).retracted = s.retracted := rfl
@[simp] theorem State.takeFrame_stopped : (s.takeFrame k).stopped = s.stopped := rfl
@[simp] theorem State.takeFrame_owed : (s.takeFrame k).owed = s.owed := rfl
@[simp] theorem State.takeFrame_lastJob : (s.takeFrame k).lastJob = s.lastJob := rfl
@[simp] theorem State.takeFrame_heldInputs : (s.takeFrame k).heldInputs = s.heldInputs := rfl
@[simp] theorem State.takeFrame_strict : (s.takeFrame k).strict = s.strict := rfl
@[simp] theorem State.takeFrame_strictAreas : (s.takeFrame k).strictAreas = s.strictAreas := rfl
@[simp] theorem State.takeFrame_past : (s.takeFrame k).past = s.past := rfl
@[simp] theorem State.takeFrame_forwards : (s.takeFrame k).forwards = s.forwards := rfl
@[simp] theorem State.takeFrame_told : (s.takeFrame k).told = s.told := rfl
@[simp] theorem State.takeFrame_telling : (s.takeFrame k).telling = s.telling := rfl
@[simp] theorem State.takeFrame_edits : (s.takeFrame k).edits = s.edits := rfl
@[simp] theorem State.takeFrame_unsent : (s.takeFrame k).unsent = s.unsent := rfl
@[simp] theorem State.takeFrame_shadowOpen : (s.takeFrame k).shadowOpen = s.shadowOpen := rfl
@[simp] theorem State.takeFrame_shadowMarks : (s.takeFrame k).shadowMarks = s.shadowMarks := rfl
@[simp] theorem State.takeFrame_logHalf : (s.takeFrame k).logHalf = s.logHalf := rfl
@[simp] theorem State.takeFrame_period : (s.takeFrame k).period = s.period := rfl
@[simp] theorem State.takeFrame_switchWait : (s.takeFrame k).switchWait = s.switchWait := rfl
@[simp] theorem State.takeFrame_sealsHeld : (s.takeFrame k).sealsHeld = s.sealsHeld := rfl
@[simp] theorem State.takeFrame_retractsHeld : (s.takeFrame k).retractsHeld = s.retractsHeld := rfl
@[simp] theorem State.takeFrame_replansDue : (s.takeFrame k).replansDue = s.replansDue := rfl
@[simp] theorem State.takeFrame_dueFaults : (s.takeFrame k).dueFaults = s.dueFaults := rfl
@[simp] theorem State.takeFrame_heldEdits : (s.takeFrame k).heldEdits = s.heldEdits := rfl
@[simp] theorem State.takeFrame_credits : (s.takeFrame k).credits = s.credits := rfl
@[simp] theorem State.takeFrame_links : (s.takeFrame k).links = s.links := rfl
@[simp] theorem State.takeFrame_drained : (s.takeFrame k).drained = s.drained := rfl
@[simp] theorem State.takeFrame_xlate : (s.takeFrame k).xlate = s.xlate := rfl
@[simp] theorem State.takeFrame_hung : (s.takeFrame k).hung = s.hung := rfl
@[simp] theorem State.takeFrame_resting : (s.takeFrame k).resting = s.resting := rfl
@[simp] theorem State.takeFrame_outst : (s.takeFrame k).outst = s.outst := rfl
@[simp] theorem State.takeFrame_nextTag : (s.takeFrame k).nextTag = s.nextTag := rfl
@[simp] theorem State.takeFrame_parked : (s.takeFrame k).parked = s.parked := rfl
@[simp] theorem State.takeFrame_lent : (s.takeFrame k).lent = s.lent := rfl
@[simp] theorem State.takeFrame_wants : (s.takeFrame k).wants = s.wants := rfl
@[simp] theorem State.takeFrame_stalled : (s.takeFrame k).stalled = s.stalled := rfl
@[simp] theorem State.takeFrame_forwarding : (s.takeFrame k).forwarding = s.forwarding := rfl
@[simp] theorem State.takeFrame_ships : (s.takeFrame k).ships = s.ships := rfl
@[simp] theorem State.takeFrame_stor : (s.takeFrame k).stor = s.stor := rfl
@[simp] theorem State.takeFrame_loads : (s.takeFrame k).loads = s.loads := rfl
@[simp] theorem State.takeFrame_joins : (s.takeFrame k).joins = s.joins := rfl
@[simp] theorem State.takeFrame_eth : (s.takeFrame k).eth = s.eth := rfl
@[simp] theorem State.takeFrame_out : (s.takeFrame k).out = s.out := rfl
@[simp] theorem State.takeFrame_fresh : (s.takeFrame k).fresh = s.fresh := rfl
@[simp] theorem State.takeFrame_pending : (s.takeFrame k).pending = s.pending := rfl
end takeFrame

section giveFrames
variable (ks : List Nat)
@[simp] theorem State.giveFrames_regs : (s.giveFrames ks).regs = s.regs := rfl
@[simp] theorem State.giveFrames_mregs : (s.giveFrames ks).mregs = s.mregs := rfl
@[simp] theorem State.giveFrames_shadows : (s.giveFrames ks).shadows = s.shadows := rfl
@[simp] theorem State.giveFrames_staged : (s.giveFrames ks).staged = s.staged := rfl
@[simp] theorem State.giveFrames_dowels : (s.giveFrames ks).dowels = s.dowels := rfl
@[simp] theorem State.giveFrames_broken : (s.giveFrames ks).broken = s.broken := rfl
@[simp] theorem State.giveFrames_retained : (s.giveFrames ks).retained = s.retained := rfl
@[simp] theorem State.giveFrames_retainedBad : (s.giveFrames ks).retainedBad = s.retainedBad := rfl
@[simp] theorem State.giveFrames_fuses : (s.giveFrames ks).fuses = s.fuses := rfl
@[simp] theorem State.giveFrames_flash : (s.giveFrames ks).flash = s.flash := rfl
@[simp] theorem State.giveFrames_rst : (s.giveFrames ks).rst = s.rst := rfl
@[simp] theorem State.giveFrames_boot : (s.giveFrames ks).boot = s.boot := rfl
@[simp] theorem State.giveFrames_power : (s.giveFrames ks).power = s.power := rfl
@[simp] theorem State.giveFrames_pkg : (s.giveFrames ks).pkg = s.pkg := rfl
@[simp] theorem State.giveFrames_time : (s.giveFrames ks).time = s.time := rfl
@[simp] theorem State.giveFrames_timeFrac : (s.giveFrames ks).timeFrac = s.timeFrac := rfl
@[simp] theorem State.giveFrames_timeHold : (s.giveFrames ks).timeHold = s.timeHold := rfl
@[simp] theorem State.giveFrames_timeLocks : (s.giveFrames ks).timeLocks = s.timeLocks := rfl
@[simp] theorem State.giveFrames_offsets : (s.giveFrames ks).offsets = s.offsets := rfl
@[simp] theorem State.giveFrames_slew : (s.giveFrames ks).slew = s.slew := rfl
@[simp] theorem State.giveFrames_portA : (s.giveFrames ks).portA = s.portA := rfl
@[simp] theorem State.giveFrames_portB : (s.giveFrames ks).portB = s.portB := rfl
@[simp] theorem State.giveFrames_opens : (s.giveFrames ks).opens = s.opens := rfl
@[simp] theorem State.giveFrames_nextDesc : (s.giveFrames ks).nextDesc = s.nextDesc := rfl
@[simp] theorem State.giveFrames_commits : (s.giveFrames ks).commits = s.commits := rfl
@[simp] theorem State.giveFrames_ctxs : (s.giveFrames ks).ctxs = s.ctxs := rfl
@[simp] theorem State.giveFrames_hbm : (s.giveFrames ks).hbm = s.hbm := rfl
@[simp] theorem State.giveFrames_hbmPoison : (s.giveFrames ks).hbmPoison = s.hbmPoison := rfl
@[simp] theorem State.giveFrames_hbmFlips : (s.giveFrames ks).hbmFlips = s.hbmFlips := rfl
@[simp] theorem State.giveFrames_slices : (s.giveFrames ks).slices = s.slices := rfl
@[simp] theorem State.giveFrames_slicePoison : (s.giveFrames ks).slicePoison = s.slicePoison := rfl
@[simp] theorem State.giveFrames_sliceFlips : (s.giveFrames ks).sliceFlips = s.sliceFlips := rfl
@[simp] theorem State.giveFrames_locals : (s.giveFrames ks).locals = s.locals := rfl
@[simp] theorem State.giveFrames_localPoison : (s.giveFrames ks).localPoison = s.localPoison := rfl
@[simp] theorem State.giveFrames_localFlips : (s.giveFrames ks).localFlips = s.localFlips := rfl
@[simp] theorem State.giveFrames_lines : (s.giveFrames ks).lines = s.lines := rfl
@[simp] theorem State.giveFrames_linePoison : (s.giveFrames ks).linePoison = s.linePoison := rfl
@[simp] theorem State.giveFrames_vregs : (s.giveFrames ks).vregs = s.vregs := rfl
@[simp] theorem State.giveFrames_vregPoison : (s.giveFrames ks).vregPoison = s.vregPoison := rfl
@[simp] theorem State.giveFrames_jigStore : (s.giveFrames ks).jigStore = s.jigStore := rfl
@[simp] theorem State.giveFrames_tableFaults : (s.giveFrames ks).tableFaults = s.tableFaults := rfl
@[simp] theorem State.giveFrames_preserved : (s.giveFrames ks).preserved = s.preserved := rfl
@[simp] theorem State.giveFrames_scrub : (s.giveFrames ks).scrub = s.scrub := rfl
@[simp] theorem State.giveFrames_corrected : (s.giveFrames ks).corrected = s.corrected := rfl
@[simp] theorem State.giveFrames_places : (s.giveFrames ks).places = s.places := rfl
@[simp] theorem State.giveFrames_swaps : (s.giveFrames ks).swaps = s.swaps := rfl
@[simp] theorem State.giveFrames_leaving : (s.giveFrames ks).leaving = s.leaving := rfl
@[simp] theorem State.giveFrames_members : (s.giveFrames ks).members = s.members := rfl
@[simp] theorem State.giveFrames_lostNodes : (s.giveFrames ks).lostNodes = s.lostNodes := rfl
@[simp] theorem State.giveFrames_departed : (s.giveFrames ks).departed = s.departed := rfl
@[simp] theorem State.giveFrames_lead : (s.giveFrames ks).lead = s.lead := rfl
@[simp] theorem State.giveFrames_plans : (s.giveFrames ks).plans = s.plans := rfl
@[simp] theorem State.giveFrames_attempt : (s.giveFrames ks).attempt = s.attempt := rfl
@[simp] theorem State.giveFrames_retracted : (s.giveFrames ks).retracted = s.retracted := rfl
@[simp] theorem State.giveFrames_stopped : (s.giveFrames ks).stopped = s.stopped := rfl
@[simp] theorem State.giveFrames_owed : (s.giveFrames ks).owed = s.owed := rfl
@[simp] theorem State.giveFrames_lastJob : (s.giveFrames ks).lastJob = s.lastJob := rfl
@[simp] theorem State.giveFrames_heldInputs : (s.giveFrames ks).heldInputs = s.heldInputs := rfl
@[simp] theorem State.giveFrames_strict : (s.giveFrames ks).strict = s.strict := rfl
@[simp] theorem State.giveFrames_strictAreas : (s.giveFrames ks).strictAreas = s.strictAreas := rfl
@[simp] theorem State.giveFrames_past : (s.giveFrames ks).past = s.past := rfl
@[simp] theorem State.giveFrames_forwards : (s.giveFrames ks).forwards = s.forwards := rfl
@[simp] theorem State.giveFrames_told : (s.giveFrames ks).told = s.told := rfl
@[simp] theorem State.giveFrames_telling : (s.giveFrames ks).telling = s.telling := rfl
@[simp] theorem State.giveFrames_edits : (s.giveFrames ks).edits = s.edits := rfl
@[simp] theorem State.giveFrames_unsent : (s.giveFrames ks).unsent = s.unsent := rfl
@[simp] theorem State.giveFrames_shadowOpen : (s.giveFrames ks).shadowOpen = s.shadowOpen := rfl
@[simp] theorem State.giveFrames_shadowMarks : (s.giveFrames ks).shadowMarks = s.shadowMarks := rfl
@[simp] theorem State.giveFrames_logHalf : (s.giveFrames ks).logHalf = s.logHalf := rfl
@[simp] theorem State.giveFrames_period : (s.giveFrames ks).period = s.period := rfl
@[simp] theorem State.giveFrames_switchWait : (s.giveFrames ks).switchWait = s.switchWait := rfl
@[simp] theorem State.giveFrames_sealsHeld : (s.giveFrames ks).sealsHeld = s.sealsHeld := rfl
@[simp] theorem State.giveFrames_retractsHeld : (s.giveFrames ks).retractsHeld = s.retractsHeld := rfl
@[simp] theorem State.giveFrames_replansDue : (s.giveFrames ks).replansDue = s.replansDue := rfl
@[simp] theorem State.giveFrames_dueFaults : (s.giveFrames ks).dueFaults = s.dueFaults := rfl
@[simp] theorem State.giveFrames_heldEdits : (s.giveFrames ks).heldEdits = s.heldEdits := rfl
@[simp] theorem State.giveFrames_credits : (s.giveFrames ks).credits = s.credits := rfl
@[simp] theorem State.giveFrames_links : (s.giveFrames ks).links = s.links := rfl
@[simp] theorem State.giveFrames_drained : (s.giveFrames ks).drained = s.drained := rfl
@[simp] theorem State.giveFrames_xlate : (s.giveFrames ks).xlate = s.xlate := rfl
@[simp] theorem State.giveFrames_hung : (s.giveFrames ks).hung = s.hung := rfl
@[simp] theorem State.giveFrames_resting : (s.giveFrames ks).resting = s.resting := rfl
@[simp] theorem State.giveFrames_outst : (s.giveFrames ks).outst = s.outst := rfl
@[simp] theorem State.giveFrames_nextTag : (s.giveFrames ks).nextTag = s.nextTag := rfl
@[simp] theorem State.giveFrames_parked : (s.giveFrames ks).parked = s.parked := rfl
@[simp] theorem State.giveFrames_lent : (s.giveFrames ks).lent = s.lent := rfl
@[simp] theorem State.giveFrames_wants : (s.giveFrames ks).wants = s.wants := rfl
@[simp] theorem State.giveFrames_stalled : (s.giveFrames ks).stalled = s.stalled := rfl
@[simp] theorem State.giveFrames_forwarding : (s.giveFrames ks).forwarding = s.forwarding := rfl
@[simp] theorem State.giveFrames_ships : (s.giveFrames ks).ships = s.ships := rfl
@[simp] theorem State.giveFrames_stor : (s.giveFrames ks).stor = s.stor := rfl
@[simp] theorem State.giveFrames_loads : (s.giveFrames ks).loads = s.loads := rfl
@[simp] theorem State.giveFrames_joins : (s.giveFrames ks).joins = s.joins := rfl
@[simp] theorem State.giveFrames_eth : (s.giveFrames ks).eth = s.eth := rfl
@[simp] theorem State.giveFrames_out : (s.giveFrames ks).out = s.out := rfl
@[simp] theorem State.giveFrames_fresh : (s.giveFrames ks).fresh = s.fresh := rfl
@[simp] theorem State.giveFrames_pending : (s.giveFrames ks).pending = s.pending := rfl
end giveFrames

section modPower
variable (f : Power → Power)
@[simp] theorem State.modPower_regs : (s.modPower f).regs = s.regs := rfl
@[simp] theorem State.modPower_mregs : (s.modPower f).mregs = s.mregs := rfl
@[simp] theorem State.modPower_shadows : (s.modPower f).shadows = s.shadows := rfl
@[simp] theorem State.modPower_staged : (s.modPower f).staged = s.staged := rfl
@[simp] theorem State.modPower_dowels : (s.modPower f).dowels = s.dowels := rfl
@[simp] theorem State.modPower_broken : (s.modPower f).broken = s.broken := rfl
@[simp] theorem State.modPower_retained : (s.modPower f).retained = s.retained := rfl
@[simp] theorem State.modPower_retainedBad : (s.modPower f).retainedBad = s.retainedBad := rfl
@[simp] theorem State.modPower_fuses : (s.modPower f).fuses = s.fuses := rfl
@[simp] theorem State.modPower_flash : (s.modPower f).flash = s.flash := rfl
@[simp] theorem State.modPower_rst : (s.modPower f).rst = s.rst := rfl
@[simp] theorem State.modPower_boot : (s.modPower f).boot = s.boot := rfl
@[simp] theorem State.modPower_pkg : (s.modPower f).pkg = s.pkg := rfl
@[simp] theorem State.modPower_time : (s.modPower f).time = s.time := rfl
@[simp] theorem State.modPower_timeFrac : (s.modPower f).timeFrac = s.timeFrac := rfl
@[simp] theorem State.modPower_timeHold : (s.modPower f).timeHold = s.timeHold := rfl
@[simp] theorem State.modPower_timeLocks : (s.modPower f).timeLocks = s.timeLocks := rfl
@[simp] theorem State.modPower_offsets : (s.modPower f).offsets = s.offsets := rfl
@[simp] theorem State.modPower_slew : (s.modPower f).slew = s.slew := rfl
@[simp] theorem State.modPower_portA : (s.modPower f).portA = s.portA := rfl
@[simp] theorem State.modPower_portB : (s.modPower f).portB = s.portB := rfl
@[simp] theorem State.modPower_opens : (s.modPower f).opens = s.opens := rfl
@[simp] theorem State.modPower_nextDesc : (s.modPower f).nextDesc = s.nextDesc := rfl
@[simp] theorem State.modPower_commits : (s.modPower f).commits = s.commits := rfl
@[simp] theorem State.modPower_ctxs : (s.modPower f).ctxs = s.ctxs := rfl
@[simp] theorem State.modPower_hbm : (s.modPower f).hbm = s.hbm := rfl
@[simp] theorem State.modPower_hbmPoison : (s.modPower f).hbmPoison = s.hbmPoison := rfl
@[simp] theorem State.modPower_hbmFlips : (s.modPower f).hbmFlips = s.hbmFlips := rfl
@[simp] theorem State.modPower_slices : (s.modPower f).slices = s.slices := rfl
@[simp] theorem State.modPower_slicePoison : (s.modPower f).slicePoison = s.slicePoison := rfl
@[simp] theorem State.modPower_sliceFlips : (s.modPower f).sliceFlips = s.sliceFlips := rfl
@[simp] theorem State.modPower_locals : (s.modPower f).locals = s.locals := rfl
@[simp] theorem State.modPower_localPoison : (s.modPower f).localPoison = s.localPoison := rfl
@[simp] theorem State.modPower_localFlips : (s.modPower f).localFlips = s.localFlips := rfl
@[simp] theorem State.modPower_lines : (s.modPower f).lines = s.lines := rfl
@[simp] theorem State.modPower_linePoison : (s.modPower f).linePoison = s.linePoison := rfl
@[simp] theorem State.modPower_vregs : (s.modPower f).vregs = s.vregs := rfl
@[simp] theorem State.modPower_vregPoison : (s.modPower f).vregPoison = s.vregPoison := rfl
@[simp] theorem State.modPower_jigStore : (s.modPower f).jigStore = s.jigStore := rfl
@[simp] theorem State.modPower_tableFaults : (s.modPower f).tableFaults = s.tableFaults := rfl
@[simp] theorem State.modPower_frames : (s.modPower f).frames = s.frames := rfl
@[simp] theorem State.modPower_preserved : (s.modPower f).preserved = s.preserved := rfl
@[simp] theorem State.modPower_scrub : (s.modPower f).scrub = s.scrub := rfl
@[simp] theorem State.modPower_corrected : (s.modPower f).corrected = s.corrected := rfl
@[simp] theorem State.modPower_places : (s.modPower f).places = s.places := rfl
@[simp] theorem State.modPower_swaps : (s.modPower f).swaps = s.swaps := rfl
@[simp] theorem State.modPower_leaving : (s.modPower f).leaving = s.leaving := rfl
@[simp] theorem State.modPower_members : (s.modPower f).members = s.members := rfl
@[simp] theorem State.modPower_lostNodes : (s.modPower f).lostNodes = s.lostNodes := rfl
@[simp] theorem State.modPower_departed : (s.modPower f).departed = s.departed := rfl
@[simp] theorem State.modPower_lead : (s.modPower f).lead = s.lead := rfl
@[simp] theorem State.modPower_plans : (s.modPower f).plans = s.plans := rfl
@[simp] theorem State.modPower_attempt : (s.modPower f).attempt = s.attempt := rfl
@[simp] theorem State.modPower_retracted : (s.modPower f).retracted = s.retracted := rfl
@[simp] theorem State.modPower_stopped : (s.modPower f).stopped = s.stopped := rfl
@[simp] theorem State.modPower_owed : (s.modPower f).owed = s.owed := rfl
@[simp] theorem State.modPower_lastJob : (s.modPower f).lastJob = s.lastJob := rfl
@[simp] theorem State.modPower_heldInputs : (s.modPower f).heldInputs = s.heldInputs := rfl
@[simp] theorem State.modPower_strict : (s.modPower f).strict = s.strict := rfl
@[simp] theorem State.modPower_strictAreas : (s.modPower f).strictAreas = s.strictAreas := rfl
@[simp] theorem State.modPower_past : (s.modPower f).past = s.past := rfl
@[simp] theorem State.modPower_forwards : (s.modPower f).forwards = s.forwards := rfl
@[simp] theorem State.modPower_told : (s.modPower f).told = s.told := rfl
@[simp] theorem State.modPower_telling : (s.modPower f).telling = s.telling := rfl
@[simp] theorem State.modPower_edits : (s.modPower f).edits = s.edits := rfl
@[simp] theorem State.modPower_unsent : (s.modPower f).unsent = s.unsent := rfl
@[simp] theorem State.modPower_shadowOpen : (s.modPower f).shadowOpen = s.shadowOpen := rfl
@[simp] theorem State.modPower_shadowMarks : (s.modPower f).shadowMarks = s.shadowMarks := rfl
@[simp] theorem State.modPower_logHalf : (s.modPower f).logHalf = s.logHalf := rfl
@[simp] theorem State.modPower_period : (s.modPower f).period = s.period := rfl
@[simp] theorem State.modPower_switchWait : (s.modPower f).switchWait = s.switchWait := rfl
@[simp] theorem State.modPower_sealsHeld : (s.modPower f).sealsHeld = s.sealsHeld := rfl
@[simp] theorem State.modPower_retractsHeld : (s.modPower f).retractsHeld = s.retractsHeld := rfl
@[simp] theorem State.modPower_replansDue : (s.modPower f).replansDue = s.replansDue := rfl
@[simp] theorem State.modPower_dueFaults : (s.modPower f).dueFaults = s.dueFaults := rfl
@[simp] theorem State.modPower_heldEdits : (s.modPower f).heldEdits = s.heldEdits := rfl
@[simp] theorem State.modPower_credits : (s.modPower f).credits = s.credits := rfl
@[simp] theorem State.modPower_links : (s.modPower f).links = s.links := rfl
@[simp] theorem State.modPower_drained : (s.modPower f).drained = s.drained := rfl
@[simp] theorem State.modPower_xlate : (s.modPower f).xlate = s.xlate := rfl
@[simp] theorem State.modPower_hung : (s.modPower f).hung = s.hung := rfl
@[simp] theorem State.modPower_resting : (s.modPower f).resting = s.resting := rfl
@[simp] theorem State.modPower_outst : (s.modPower f).outst = s.outst := rfl
@[simp] theorem State.modPower_nextTag : (s.modPower f).nextTag = s.nextTag := rfl
@[simp] theorem State.modPower_parked : (s.modPower f).parked = s.parked := rfl
@[simp] theorem State.modPower_lent : (s.modPower f).lent = s.lent := rfl
@[simp] theorem State.modPower_wants : (s.modPower f).wants = s.wants := rfl
@[simp] theorem State.modPower_stalled : (s.modPower f).stalled = s.stalled := rfl
@[simp] theorem State.modPower_forwarding : (s.modPower f).forwarding = s.forwarding := rfl
@[simp] theorem State.modPower_ships : (s.modPower f).ships = s.ships := rfl
@[simp] theorem State.modPower_stor : (s.modPower f).stor = s.stor := rfl
@[simp] theorem State.modPower_loads : (s.modPower f).loads = s.loads := rfl
@[simp] theorem State.modPower_joins : (s.modPower f).joins = s.joins := rfl
@[simp] theorem State.modPower_eth : (s.modPower f).eth = s.eth := rfl
@[simp] theorem State.modPower_out : (s.modPower f).out = s.out := rfl
@[simp] theorem State.modPower_fresh : (s.modPower f).fresh = s.fresh := rfl
@[simp] theorem State.modPower_pending : (s.modPower f).pending = s.pending := rfl
end modPower

section modBoot
variable (f : Boot → Boot)
@[simp] theorem State.modBoot_regs : (s.modBoot f).regs = s.regs := rfl
@[simp] theorem State.modBoot_mregs : (s.modBoot f).mregs = s.mregs := rfl
@[simp] theorem State.modBoot_shadows : (s.modBoot f).shadows = s.shadows := rfl
@[simp] theorem State.modBoot_staged : (s.modBoot f).staged = s.staged := rfl
@[simp] theorem State.modBoot_dowels : (s.modBoot f).dowels = s.dowels := rfl
@[simp] theorem State.modBoot_broken : (s.modBoot f).broken = s.broken := rfl
@[simp] theorem State.modBoot_retained : (s.modBoot f).retained = s.retained := rfl
@[simp] theorem State.modBoot_retainedBad : (s.modBoot f).retainedBad = s.retainedBad := rfl
@[simp] theorem State.modBoot_fuses : (s.modBoot f).fuses = s.fuses := rfl
@[simp] theorem State.modBoot_flash : (s.modBoot f).flash = s.flash := rfl
@[simp] theorem State.modBoot_rst : (s.modBoot f).rst = s.rst := rfl
@[simp] theorem State.modBoot_power : (s.modBoot f).power = s.power := rfl
@[simp] theorem State.modBoot_pkg : (s.modBoot f).pkg = s.pkg := rfl
@[simp] theorem State.modBoot_time : (s.modBoot f).time = s.time := rfl
@[simp] theorem State.modBoot_timeFrac : (s.modBoot f).timeFrac = s.timeFrac := rfl
@[simp] theorem State.modBoot_timeHold : (s.modBoot f).timeHold = s.timeHold := rfl
@[simp] theorem State.modBoot_timeLocks : (s.modBoot f).timeLocks = s.timeLocks := rfl
@[simp] theorem State.modBoot_offsets : (s.modBoot f).offsets = s.offsets := rfl
@[simp] theorem State.modBoot_slew : (s.modBoot f).slew = s.slew := rfl
@[simp] theorem State.modBoot_portA : (s.modBoot f).portA = s.portA := rfl
@[simp] theorem State.modBoot_portB : (s.modBoot f).portB = s.portB := rfl
@[simp] theorem State.modBoot_opens : (s.modBoot f).opens = s.opens := rfl
@[simp] theorem State.modBoot_nextDesc : (s.modBoot f).nextDesc = s.nextDesc := rfl
@[simp] theorem State.modBoot_commits : (s.modBoot f).commits = s.commits := rfl
@[simp] theorem State.modBoot_ctxs : (s.modBoot f).ctxs = s.ctxs := rfl
@[simp] theorem State.modBoot_hbm : (s.modBoot f).hbm = s.hbm := rfl
@[simp] theorem State.modBoot_hbmPoison : (s.modBoot f).hbmPoison = s.hbmPoison := rfl
@[simp] theorem State.modBoot_hbmFlips : (s.modBoot f).hbmFlips = s.hbmFlips := rfl
@[simp] theorem State.modBoot_slices : (s.modBoot f).slices = s.slices := rfl
@[simp] theorem State.modBoot_slicePoison : (s.modBoot f).slicePoison = s.slicePoison := rfl
@[simp] theorem State.modBoot_sliceFlips : (s.modBoot f).sliceFlips = s.sliceFlips := rfl
@[simp] theorem State.modBoot_locals : (s.modBoot f).locals = s.locals := rfl
@[simp] theorem State.modBoot_localPoison : (s.modBoot f).localPoison = s.localPoison := rfl
@[simp] theorem State.modBoot_localFlips : (s.modBoot f).localFlips = s.localFlips := rfl
@[simp] theorem State.modBoot_lines : (s.modBoot f).lines = s.lines := rfl
@[simp] theorem State.modBoot_linePoison : (s.modBoot f).linePoison = s.linePoison := rfl
@[simp] theorem State.modBoot_vregs : (s.modBoot f).vregs = s.vregs := rfl
@[simp] theorem State.modBoot_vregPoison : (s.modBoot f).vregPoison = s.vregPoison := rfl
@[simp] theorem State.modBoot_jigStore : (s.modBoot f).jigStore = s.jigStore := rfl
@[simp] theorem State.modBoot_tableFaults : (s.modBoot f).tableFaults = s.tableFaults := rfl
@[simp] theorem State.modBoot_frames : (s.modBoot f).frames = s.frames := rfl
@[simp] theorem State.modBoot_preserved : (s.modBoot f).preserved = s.preserved := rfl
@[simp] theorem State.modBoot_scrub : (s.modBoot f).scrub = s.scrub := rfl
@[simp] theorem State.modBoot_corrected : (s.modBoot f).corrected = s.corrected := rfl
@[simp] theorem State.modBoot_places : (s.modBoot f).places = s.places := rfl
@[simp] theorem State.modBoot_swaps : (s.modBoot f).swaps = s.swaps := rfl
@[simp] theorem State.modBoot_leaving : (s.modBoot f).leaving = s.leaving := rfl
@[simp] theorem State.modBoot_members : (s.modBoot f).members = s.members := rfl
@[simp] theorem State.modBoot_lostNodes : (s.modBoot f).lostNodes = s.lostNodes := rfl
@[simp] theorem State.modBoot_departed : (s.modBoot f).departed = s.departed := rfl
@[simp] theorem State.modBoot_lead : (s.modBoot f).lead = s.lead := rfl
@[simp] theorem State.modBoot_plans : (s.modBoot f).plans = s.plans := rfl
@[simp] theorem State.modBoot_attempt : (s.modBoot f).attempt = s.attempt := rfl
@[simp] theorem State.modBoot_retracted : (s.modBoot f).retracted = s.retracted := rfl
@[simp] theorem State.modBoot_stopped : (s.modBoot f).stopped = s.stopped := rfl
@[simp] theorem State.modBoot_owed : (s.modBoot f).owed = s.owed := rfl
@[simp] theorem State.modBoot_lastJob : (s.modBoot f).lastJob = s.lastJob := rfl
@[simp] theorem State.modBoot_heldInputs : (s.modBoot f).heldInputs = s.heldInputs := rfl
@[simp] theorem State.modBoot_strict : (s.modBoot f).strict = s.strict := rfl
@[simp] theorem State.modBoot_strictAreas : (s.modBoot f).strictAreas = s.strictAreas := rfl
@[simp] theorem State.modBoot_past : (s.modBoot f).past = s.past := rfl
@[simp] theorem State.modBoot_forwards : (s.modBoot f).forwards = s.forwards := rfl
@[simp] theorem State.modBoot_told : (s.modBoot f).told = s.told := rfl
@[simp] theorem State.modBoot_telling : (s.modBoot f).telling = s.telling := rfl
@[simp] theorem State.modBoot_edits : (s.modBoot f).edits = s.edits := rfl
@[simp] theorem State.modBoot_unsent : (s.modBoot f).unsent = s.unsent := rfl
@[simp] theorem State.modBoot_shadowOpen : (s.modBoot f).shadowOpen = s.shadowOpen := rfl
@[simp] theorem State.modBoot_shadowMarks : (s.modBoot f).shadowMarks = s.shadowMarks := rfl
@[simp] theorem State.modBoot_logHalf : (s.modBoot f).logHalf = s.logHalf := rfl
@[simp] theorem State.modBoot_period : (s.modBoot f).period = s.period := rfl
@[simp] theorem State.modBoot_switchWait : (s.modBoot f).switchWait = s.switchWait := rfl
@[simp] theorem State.modBoot_sealsHeld : (s.modBoot f).sealsHeld = s.sealsHeld := rfl
@[simp] theorem State.modBoot_retractsHeld : (s.modBoot f).retractsHeld = s.retractsHeld := rfl
@[simp] theorem State.modBoot_replansDue : (s.modBoot f).replansDue = s.replansDue := rfl
@[simp] theorem State.modBoot_dueFaults : (s.modBoot f).dueFaults = s.dueFaults := rfl
@[simp] theorem State.modBoot_heldEdits : (s.modBoot f).heldEdits = s.heldEdits := rfl
@[simp] theorem State.modBoot_credits : (s.modBoot f).credits = s.credits := rfl
@[simp] theorem State.modBoot_links : (s.modBoot f).links = s.links := rfl
@[simp] theorem State.modBoot_drained : (s.modBoot f).drained = s.drained := rfl
@[simp] theorem State.modBoot_xlate : (s.modBoot f).xlate = s.xlate := rfl
@[simp] theorem State.modBoot_hung : (s.modBoot f).hung = s.hung := rfl
@[simp] theorem State.modBoot_resting : (s.modBoot f).resting = s.resting := rfl
@[simp] theorem State.modBoot_outst : (s.modBoot f).outst = s.outst := rfl
@[simp] theorem State.modBoot_nextTag : (s.modBoot f).nextTag = s.nextTag := rfl
@[simp] theorem State.modBoot_parked : (s.modBoot f).parked = s.parked := rfl
@[simp] theorem State.modBoot_lent : (s.modBoot f).lent = s.lent := rfl
@[simp] theorem State.modBoot_wants : (s.modBoot f).wants = s.wants := rfl
@[simp] theorem State.modBoot_stalled : (s.modBoot f).stalled = s.stalled := rfl
@[simp] theorem State.modBoot_forwarding : (s.modBoot f).forwarding = s.forwarding := rfl
@[simp] theorem State.modBoot_ships : (s.modBoot f).ships = s.ships := rfl
@[simp] theorem State.modBoot_stor : (s.modBoot f).stor = s.stor := rfl
@[simp] theorem State.modBoot_loads : (s.modBoot f).loads = s.loads := rfl
@[simp] theorem State.modBoot_joins : (s.modBoot f).joins = s.joins := rfl
@[simp] theorem State.modBoot_eth : (s.modBoot f).eth = s.eth := rfl
@[simp] theorem State.modBoot_out : (s.modBoot f).out = s.out := rfl
@[simp] theorem State.modBoot_fresh : (s.modBoot f).fresh = s.fresh := rfl
@[simp] theorem State.modBoot_pending : (s.modBoot f).pending = s.pending := rfl
end modBoot

section setActive
variable (l : List (RstLevel × Nat))
@[simp] theorem State.setActive_regs : (s.setActive l).regs = s.regs := rfl
@[simp] theorem State.setActive_mregs : (s.setActive l).mregs = s.mregs := rfl
@[simp] theorem State.setActive_shadows : (s.setActive l).shadows = s.shadows := rfl
@[simp] theorem State.setActive_staged : (s.setActive l).staged = s.staged := rfl
@[simp] theorem State.setActive_dowels : (s.setActive l).dowels = s.dowels := rfl
@[simp] theorem State.setActive_broken : (s.setActive l).broken = s.broken := rfl
@[simp] theorem State.setActive_retained : (s.setActive l).retained = s.retained := rfl
@[simp] theorem State.setActive_retainedBad : (s.setActive l).retainedBad = s.retainedBad := rfl
@[simp] theorem State.setActive_fuses : (s.setActive l).fuses = s.fuses := rfl
@[simp] theorem State.setActive_flash : (s.setActive l).flash = s.flash := rfl
@[simp] theorem State.setActive_boot : (s.setActive l).boot = s.boot := rfl
@[simp] theorem State.setActive_power : (s.setActive l).power = s.power := rfl
@[simp] theorem State.setActive_pkg : (s.setActive l).pkg = s.pkg := rfl
@[simp] theorem State.setActive_time : (s.setActive l).time = s.time := rfl
@[simp] theorem State.setActive_timeFrac : (s.setActive l).timeFrac = s.timeFrac := rfl
@[simp] theorem State.setActive_timeHold : (s.setActive l).timeHold = s.timeHold := rfl
@[simp] theorem State.setActive_timeLocks : (s.setActive l).timeLocks = s.timeLocks := rfl
@[simp] theorem State.setActive_offsets : (s.setActive l).offsets = s.offsets := rfl
@[simp] theorem State.setActive_slew : (s.setActive l).slew = s.slew := rfl
@[simp] theorem State.setActive_portA : (s.setActive l).portA = s.portA := rfl
@[simp] theorem State.setActive_portB : (s.setActive l).portB = s.portB := rfl
@[simp] theorem State.setActive_opens : (s.setActive l).opens = s.opens := rfl
@[simp] theorem State.setActive_nextDesc : (s.setActive l).nextDesc = s.nextDesc := rfl
@[simp] theorem State.setActive_commits : (s.setActive l).commits = s.commits := rfl
@[simp] theorem State.setActive_ctxs : (s.setActive l).ctxs = s.ctxs := rfl
@[simp] theorem State.setActive_hbm : (s.setActive l).hbm = s.hbm := rfl
@[simp] theorem State.setActive_hbmPoison : (s.setActive l).hbmPoison = s.hbmPoison := rfl
@[simp] theorem State.setActive_hbmFlips : (s.setActive l).hbmFlips = s.hbmFlips := rfl
@[simp] theorem State.setActive_slices : (s.setActive l).slices = s.slices := rfl
@[simp] theorem State.setActive_slicePoison : (s.setActive l).slicePoison = s.slicePoison := rfl
@[simp] theorem State.setActive_sliceFlips : (s.setActive l).sliceFlips = s.sliceFlips := rfl
@[simp] theorem State.setActive_locals : (s.setActive l).locals = s.locals := rfl
@[simp] theorem State.setActive_localPoison : (s.setActive l).localPoison = s.localPoison := rfl
@[simp] theorem State.setActive_localFlips : (s.setActive l).localFlips = s.localFlips := rfl
@[simp] theorem State.setActive_lines : (s.setActive l).lines = s.lines := rfl
@[simp] theorem State.setActive_linePoison : (s.setActive l).linePoison = s.linePoison := rfl
@[simp] theorem State.setActive_vregs : (s.setActive l).vregs = s.vregs := rfl
@[simp] theorem State.setActive_vregPoison : (s.setActive l).vregPoison = s.vregPoison := rfl
@[simp] theorem State.setActive_jigStore : (s.setActive l).jigStore = s.jigStore := rfl
@[simp] theorem State.setActive_tableFaults : (s.setActive l).tableFaults = s.tableFaults := rfl
@[simp] theorem State.setActive_frames : (s.setActive l).frames = s.frames := rfl
@[simp] theorem State.setActive_preserved : (s.setActive l).preserved = s.preserved := rfl
@[simp] theorem State.setActive_scrub : (s.setActive l).scrub = s.scrub := rfl
@[simp] theorem State.setActive_corrected : (s.setActive l).corrected = s.corrected := rfl
@[simp] theorem State.setActive_places : (s.setActive l).places = s.places := rfl
@[simp] theorem State.setActive_swaps : (s.setActive l).swaps = s.swaps := rfl
@[simp] theorem State.setActive_leaving : (s.setActive l).leaving = s.leaving := rfl
@[simp] theorem State.setActive_members : (s.setActive l).members = s.members := rfl
@[simp] theorem State.setActive_lostNodes : (s.setActive l).lostNodes = s.lostNodes := rfl
@[simp] theorem State.setActive_departed : (s.setActive l).departed = s.departed := rfl
@[simp] theorem State.setActive_lead : (s.setActive l).lead = s.lead := rfl
@[simp] theorem State.setActive_plans : (s.setActive l).plans = s.plans := rfl
@[simp] theorem State.setActive_attempt : (s.setActive l).attempt = s.attempt := rfl
@[simp] theorem State.setActive_retracted : (s.setActive l).retracted = s.retracted := rfl
@[simp] theorem State.setActive_stopped : (s.setActive l).stopped = s.stopped := rfl
@[simp] theorem State.setActive_owed : (s.setActive l).owed = s.owed := rfl
@[simp] theorem State.setActive_lastJob : (s.setActive l).lastJob = s.lastJob := rfl
@[simp] theorem State.setActive_heldInputs : (s.setActive l).heldInputs = s.heldInputs := rfl
@[simp] theorem State.setActive_strict : (s.setActive l).strict = s.strict := rfl
@[simp] theorem State.setActive_strictAreas : (s.setActive l).strictAreas = s.strictAreas := rfl
@[simp] theorem State.setActive_past : (s.setActive l).past = s.past := rfl
@[simp] theorem State.setActive_forwards : (s.setActive l).forwards = s.forwards := rfl
@[simp] theorem State.setActive_told : (s.setActive l).told = s.told := rfl
@[simp] theorem State.setActive_telling : (s.setActive l).telling = s.telling := rfl
@[simp] theorem State.setActive_edits : (s.setActive l).edits = s.edits := rfl
@[simp] theorem State.setActive_unsent : (s.setActive l).unsent = s.unsent := rfl
@[simp] theorem State.setActive_shadowOpen : (s.setActive l).shadowOpen = s.shadowOpen := rfl
@[simp] theorem State.setActive_shadowMarks : (s.setActive l).shadowMarks = s.shadowMarks := rfl
@[simp] theorem State.setActive_logHalf : (s.setActive l).logHalf = s.logHalf := rfl
@[simp] theorem State.setActive_period : (s.setActive l).period = s.period := rfl
@[simp] theorem State.setActive_switchWait : (s.setActive l).switchWait = s.switchWait := rfl
@[simp] theorem State.setActive_sealsHeld : (s.setActive l).sealsHeld = s.sealsHeld := rfl
@[simp] theorem State.setActive_retractsHeld : (s.setActive l).retractsHeld = s.retractsHeld := rfl
@[simp] theorem State.setActive_replansDue : (s.setActive l).replansDue = s.replansDue := rfl
@[simp] theorem State.setActive_dueFaults : (s.setActive l).dueFaults = s.dueFaults := rfl
@[simp] theorem State.setActive_heldEdits : (s.setActive l).heldEdits = s.heldEdits := rfl
@[simp] theorem State.setActive_credits : (s.setActive l).credits = s.credits := rfl
@[simp] theorem State.setActive_links : (s.setActive l).links = s.links := rfl
@[simp] theorem State.setActive_drained : (s.setActive l).drained = s.drained := rfl
@[simp] theorem State.setActive_xlate : (s.setActive l).xlate = s.xlate := rfl
@[simp] theorem State.setActive_hung : (s.setActive l).hung = s.hung := rfl
@[simp] theorem State.setActive_resting : (s.setActive l).resting = s.resting := rfl
@[simp] theorem State.setActive_outst : (s.setActive l).outst = s.outst := rfl
@[simp] theorem State.setActive_nextTag : (s.setActive l).nextTag = s.nextTag := rfl
@[simp] theorem State.setActive_parked : (s.setActive l).parked = s.parked := rfl
@[simp] theorem State.setActive_lent : (s.setActive l).lent = s.lent := rfl
@[simp] theorem State.setActive_wants : (s.setActive l).wants = s.wants := rfl
@[simp] theorem State.setActive_stalled : (s.setActive l).stalled = s.stalled := rfl
@[simp] theorem State.setActive_forwarding : (s.setActive l).forwarding = s.forwarding := rfl
@[simp] theorem State.setActive_ships : (s.setActive l).ships = s.ships := rfl
@[simp] theorem State.setActive_stor : (s.setActive l).stor = s.stor := rfl
@[simp] theorem State.setActive_loads : (s.setActive l).loads = s.loads := rfl
@[simp] theorem State.setActive_joins : (s.setActive l).joins = s.joins := rfl
@[simp] theorem State.setActive_eth : (s.setActive l).eth = s.eth := rfl
@[simp] theorem State.setActive_out : (s.setActive l).out = s.out := rfl
@[simp] theorem State.setActive_fresh : (s.setActive l).fresh = s.fresh := rfl
@[simp] theorem State.setActive_pending : (s.setActive l).pending = s.pending := rfl
end setActive

section modDesc
variable (i : Nat) (f : Desc → Desc)
@[simp] theorem State.modDesc_regs : (s.modDesc i f).regs = s.regs := rfl
@[simp] theorem State.modDesc_mregs : (s.modDesc i f).mregs = s.mregs := rfl
@[simp] theorem State.modDesc_shadows : (s.modDesc i f).shadows = s.shadows := rfl
@[simp] theorem State.modDesc_staged : (s.modDesc i f).staged = s.staged := rfl
@[simp] theorem State.modDesc_dowels : (s.modDesc i f).dowels = s.dowels := rfl
@[simp] theorem State.modDesc_broken : (s.modDesc i f).broken = s.broken := rfl
@[simp] theorem State.modDesc_retained : (s.modDesc i f).retained = s.retained := rfl
@[simp] theorem State.modDesc_retainedBad : (s.modDesc i f).retainedBad = s.retainedBad := rfl
@[simp] theorem State.modDesc_fuses : (s.modDesc i f).fuses = s.fuses := rfl
@[simp] theorem State.modDesc_flash : (s.modDesc i f).flash = s.flash := rfl
@[simp] theorem State.modDesc_rst : (s.modDesc i f).rst = s.rst := rfl
@[simp] theorem State.modDesc_boot : (s.modDesc i f).boot = s.boot := rfl
@[simp] theorem State.modDesc_power : (s.modDesc i f).power = s.power := rfl
@[simp] theorem State.modDesc_pkg : (s.modDesc i f).pkg = s.pkg := rfl
@[simp] theorem State.modDesc_time : (s.modDesc i f).time = s.time := rfl
@[simp] theorem State.modDesc_timeFrac : (s.modDesc i f).timeFrac = s.timeFrac := rfl
@[simp] theorem State.modDesc_timeHold : (s.modDesc i f).timeHold = s.timeHold := rfl
@[simp] theorem State.modDesc_timeLocks : (s.modDesc i f).timeLocks = s.timeLocks := rfl
@[simp] theorem State.modDesc_offsets : (s.modDesc i f).offsets = s.offsets := rfl
@[simp] theorem State.modDesc_slew : (s.modDesc i f).slew = s.slew := rfl
@[simp] theorem State.modDesc_portA : (s.modDesc i f).portA = s.portA := rfl
@[simp] theorem State.modDesc_portB : (s.modDesc i f).portB = s.portB := rfl
@[simp] theorem State.modDesc_nextDesc : (s.modDesc i f).nextDesc = s.nextDesc := rfl
@[simp] theorem State.modDesc_commits : (s.modDesc i f).commits = s.commits := rfl
@[simp] theorem State.modDesc_ctxs : (s.modDesc i f).ctxs = s.ctxs := rfl
@[simp] theorem State.modDesc_hbm : (s.modDesc i f).hbm = s.hbm := rfl
@[simp] theorem State.modDesc_hbmPoison : (s.modDesc i f).hbmPoison = s.hbmPoison := rfl
@[simp] theorem State.modDesc_hbmFlips : (s.modDesc i f).hbmFlips = s.hbmFlips := rfl
@[simp] theorem State.modDesc_slices : (s.modDesc i f).slices = s.slices := rfl
@[simp] theorem State.modDesc_slicePoison : (s.modDesc i f).slicePoison = s.slicePoison := rfl
@[simp] theorem State.modDesc_sliceFlips : (s.modDesc i f).sliceFlips = s.sliceFlips := rfl
@[simp] theorem State.modDesc_locals : (s.modDesc i f).locals = s.locals := rfl
@[simp] theorem State.modDesc_localPoison : (s.modDesc i f).localPoison = s.localPoison := rfl
@[simp] theorem State.modDesc_localFlips : (s.modDesc i f).localFlips = s.localFlips := rfl
@[simp] theorem State.modDesc_lines : (s.modDesc i f).lines = s.lines := rfl
@[simp] theorem State.modDesc_linePoison : (s.modDesc i f).linePoison = s.linePoison := rfl
@[simp] theorem State.modDesc_vregs : (s.modDesc i f).vregs = s.vregs := rfl
@[simp] theorem State.modDesc_vregPoison : (s.modDesc i f).vregPoison = s.vregPoison := rfl
@[simp] theorem State.modDesc_jigStore : (s.modDesc i f).jigStore = s.jigStore := rfl
@[simp] theorem State.modDesc_tableFaults : (s.modDesc i f).tableFaults = s.tableFaults := rfl
@[simp] theorem State.modDesc_frames : (s.modDesc i f).frames = s.frames := rfl
@[simp] theorem State.modDesc_preserved : (s.modDesc i f).preserved = s.preserved := rfl
@[simp] theorem State.modDesc_scrub : (s.modDesc i f).scrub = s.scrub := rfl
@[simp] theorem State.modDesc_corrected : (s.modDesc i f).corrected = s.corrected := rfl
@[simp] theorem State.modDesc_places : (s.modDesc i f).places = s.places := rfl
@[simp] theorem State.modDesc_swaps : (s.modDesc i f).swaps = s.swaps := rfl
@[simp] theorem State.modDesc_leaving : (s.modDesc i f).leaving = s.leaving := rfl
@[simp] theorem State.modDesc_members : (s.modDesc i f).members = s.members := rfl
@[simp] theorem State.modDesc_lostNodes : (s.modDesc i f).lostNodes = s.lostNodes := rfl
@[simp] theorem State.modDesc_departed : (s.modDesc i f).departed = s.departed := rfl
@[simp] theorem State.modDesc_lead : (s.modDesc i f).lead = s.lead := rfl
@[simp] theorem State.modDesc_plans : (s.modDesc i f).plans = s.plans := rfl
@[simp] theorem State.modDesc_attempt : (s.modDesc i f).attempt = s.attempt := rfl
@[simp] theorem State.modDesc_retracted : (s.modDesc i f).retracted = s.retracted := rfl
@[simp] theorem State.modDesc_stopped : (s.modDesc i f).stopped = s.stopped := rfl
@[simp] theorem State.modDesc_owed : (s.modDesc i f).owed = s.owed := rfl
@[simp] theorem State.modDesc_lastJob : (s.modDesc i f).lastJob = s.lastJob := rfl
@[simp] theorem State.modDesc_heldInputs : (s.modDesc i f).heldInputs = s.heldInputs := rfl
@[simp] theorem State.modDesc_strict : (s.modDesc i f).strict = s.strict := rfl
@[simp] theorem State.modDesc_strictAreas : (s.modDesc i f).strictAreas = s.strictAreas := rfl
@[simp] theorem State.modDesc_past : (s.modDesc i f).past = s.past := rfl
@[simp] theorem State.modDesc_forwards : (s.modDesc i f).forwards = s.forwards := rfl
@[simp] theorem State.modDesc_told : (s.modDesc i f).told = s.told := rfl
@[simp] theorem State.modDesc_telling : (s.modDesc i f).telling = s.telling := rfl
@[simp] theorem State.modDesc_edits : (s.modDesc i f).edits = s.edits := rfl
@[simp] theorem State.modDesc_unsent : (s.modDesc i f).unsent = s.unsent := rfl
@[simp] theorem State.modDesc_shadowOpen : (s.modDesc i f).shadowOpen = s.shadowOpen := rfl
@[simp] theorem State.modDesc_shadowMarks : (s.modDesc i f).shadowMarks = s.shadowMarks := rfl
@[simp] theorem State.modDesc_logHalf : (s.modDesc i f).logHalf = s.logHalf := rfl
@[simp] theorem State.modDesc_period : (s.modDesc i f).period = s.period := rfl
@[simp] theorem State.modDesc_switchWait : (s.modDesc i f).switchWait = s.switchWait := rfl
@[simp] theorem State.modDesc_sealsHeld : (s.modDesc i f).sealsHeld = s.sealsHeld := rfl
@[simp] theorem State.modDesc_retractsHeld : (s.modDesc i f).retractsHeld = s.retractsHeld := rfl
@[simp] theorem State.modDesc_replansDue : (s.modDesc i f).replansDue = s.replansDue := rfl
@[simp] theorem State.modDesc_dueFaults : (s.modDesc i f).dueFaults = s.dueFaults := rfl
@[simp] theorem State.modDesc_heldEdits : (s.modDesc i f).heldEdits = s.heldEdits := rfl
@[simp] theorem State.modDesc_credits : (s.modDesc i f).credits = s.credits := rfl
@[simp] theorem State.modDesc_links : (s.modDesc i f).links = s.links := rfl
@[simp] theorem State.modDesc_drained : (s.modDesc i f).drained = s.drained := rfl
@[simp] theorem State.modDesc_xlate : (s.modDesc i f).xlate = s.xlate := rfl
@[simp] theorem State.modDesc_hung : (s.modDesc i f).hung = s.hung := rfl
@[simp] theorem State.modDesc_resting : (s.modDesc i f).resting = s.resting := rfl
@[simp] theorem State.modDesc_outst : (s.modDesc i f).outst = s.outst := rfl
@[simp] theorem State.modDesc_nextTag : (s.modDesc i f).nextTag = s.nextTag := rfl
@[simp] theorem State.modDesc_parked : (s.modDesc i f).parked = s.parked := rfl
@[simp] theorem State.modDesc_lent : (s.modDesc i f).lent = s.lent := rfl
@[simp] theorem State.modDesc_wants : (s.modDesc i f).wants = s.wants := rfl
@[simp] theorem State.modDesc_stalled : (s.modDesc i f).stalled = s.stalled := rfl
@[simp] theorem State.modDesc_forwarding : (s.modDesc i f).forwarding = s.forwarding := rfl
@[simp] theorem State.modDesc_ships : (s.modDesc i f).ships = s.ships := rfl
@[simp] theorem State.modDesc_stor : (s.modDesc i f).stor = s.stor := rfl
@[simp] theorem State.modDesc_loads : (s.modDesc i f).loads = s.loads := rfl
@[simp] theorem State.modDesc_joins : (s.modDesc i f).joins = s.joins := rfl
@[simp] theorem State.modDesc_eth : (s.modDesc i f).eth = s.eth := rfl
@[simp] theorem State.modDesc_out : (s.modDesc i f).out = s.out := rfl
@[simp] theorem State.modDesc_fresh : (s.modDesc i f).fresh = s.fresh := rfl
@[simp] theorem State.modDesc_pending : (s.modDesc i f).pending = s.pending := rfl
end modDesc

section modShip
variable (n : ShipName) (b : Bool) (f : Ship → Ship)
@[simp] theorem State.modShip_regs : (s.modShip n b f).regs = s.regs := rfl
@[simp] theorem State.modShip_mregs : (s.modShip n b f).mregs = s.mregs := rfl
@[simp] theorem State.modShip_shadows : (s.modShip n b f).shadows = s.shadows := rfl
@[simp] theorem State.modShip_staged : (s.modShip n b f).staged = s.staged := rfl
@[simp] theorem State.modShip_dowels : (s.modShip n b f).dowels = s.dowels := rfl
@[simp] theorem State.modShip_broken : (s.modShip n b f).broken = s.broken := rfl
@[simp] theorem State.modShip_retained : (s.modShip n b f).retained = s.retained := rfl
@[simp] theorem State.modShip_retainedBad : (s.modShip n b f).retainedBad = s.retainedBad := rfl
@[simp] theorem State.modShip_fuses : (s.modShip n b f).fuses = s.fuses := rfl
@[simp] theorem State.modShip_flash : (s.modShip n b f).flash = s.flash := rfl
@[simp] theorem State.modShip_rst : (s.modShip n b f).rst = s.rst := rfl
@[simp] theorem State.modShip_boot : (s.modShip n b f).boot = s.boot := rfl
@[simp] theorem State.modShip_power : (s.modShip n b f).power = s.power := rfl
@[simp] theorem State.modShip_pkg : (s.modShip n b f).pkg = s.pkg := rfl
@[simp] theorem State.modShip_time : (s.modShip n b f).time = s.time := rfl
@[simp] theorem State.modShip_timeFrac : (s.modShip n b f).timeFrac = s.timeFrac := rfl
@[simp] theorem State.modShip_timeHold : (s.modShip n b f).timeHold = s.timeHold := rfl
@[simp] theorem State.modShip_timeLocks : (s.modShip n b f).timeLocks = s.timeLocks := rfl
@[simp] theorem State.modShip_offsets : (s.modShip n b f).offsets = s.offsets := rfl
@[simp] theorem State.modShip_slew : (s.modShip n b f).slew = s.slew := rfl
@[simp] theorem State.modShip_portA : (s.modShip n b f).portA = s.portA := rfl
@[simp] theorem State.modShip_portB : (s.modShip n b f).portB = s.portB := rfl
@[simp] theorem State.modShip_opens : (s.modShip n b f).opens = s.opens := rfl
@[simp] theorem State.modShip_nextDesc : (s.modShip n b f).nextDesc = s.nextDesc := rfl
@[simp] theorem State.modShip_commits : (s.modShip n b f).commits = s.commits := rfl
@[simp] theorem State.modShip_ctxs : (s.modShip n b f).ctxs = s.ctxs := rfl
@[simp] theorem State.modShip_hbm : (s.modShip n b f).hbm = s.hbm := rfl
@[simp] theorem State.modShip_hbmPoison : (s.modShip n b f).hbmPoison = s.hbmPoison := rfl
@[simp] theorem State.modShip_hbmFlips : (s.modShip n b f).hbmFlips = s.hbmFlips := rfl
@[simp] theorem State.modShip_slices : (s.modShip n b f).slices = s.slices := rfl
@[simp] theorem State.modShip_slicePoison : (s.modShip n b f).slicePoison = s.slicePoison := rfl
@[simp] theorem State.modShip_sliceFlips : (s.modShip n b f).sliceFlips = s.sliceFlips := rfl
@[simp] theorem State.modShip_locals : (s.modShip n b f).locals = s.locals := rfl
@[simp] theorem State.modShip_localPoison : (s.modShip n b f).localPoison = s.localPoison := rfl
@[simp] theorem State.modShip_localFlips : (s.modShip n b f).localFlips = s.localFlips := rfl
@[simp] theorem State.modShip_lines : (s.modShip n b f).lines = s.lines := rfl
@[simp] theorem State.modShip_linePoison : (s.modShip n b f).linePoison = s.linePoison := rfl
@[simp] theorem State.modShip_vregs : (s.modShip n b f).vregs = s.vregs := rfl
@[simp] theorem State.modShip_vregPoison : (s.modShip n b f).vregPoison = s.vregPoison := rfl
@[simp] theorem State.modShip_jigStore : (s.modShip n b f).jigStore = s.jigStore := rfl
@[simp] theorem State.modShip_tableFaults : (s.modShip n b f).tableFaults = s.tableFaults := rfl
@[simp] theorem State.modShip_frames : (s.modShip n b f).frames = s.frames := rfl
@[simp] theorem State.modShip_preserved : (s.modShip n b f).preserved = s.preserved := rfl
@[simp] theorem State.modShip_scrub : (s.modShip n b f).scrub = s.scrub := rfl
@[simp] theorem State.modShip_corrected : (s.modShip n b f).corrected = s.corrected := rfl
@[simp] theorem State.modShip_places : (s.modShip n b f).places = s.places := rfl
@[simp] theorem State.modShip_swaps : (s.modShip n b f).swaps = s.swaps := rfl
@[simp] theorem State.modShip_leaving : (s.modShip n b f).leaving = s.leaving := rfl
@[simp] theorem State.modShip_members : (s.modShip n b f).members = s.members := rfl
@[simp] theorem State.modShip_lostNodes : (s.modShip n b f).lostNodes = s.lostNodes := rfl
@[simp] theorem State.modShip_departed : (s.modShip n b f).departed = s.departed := rfl
@[simp] theorem State.modShip_lead : (s.modShip n b f).lead = s.lead := rfl
@[simp] theorem State.modShip_plans : (s.modShip n b f).plans = s.plans := rfl
@[simp] theorem State.modShip_attempt : (s.modShip n b f).attempt = s.attempt := rfl
@[simp] theorem State.modShip_retracted : (s.modShip n b f).retracted = s.retracted := rfl
@[simp] theorem State.modShip_stopped : (s.modShip n b f).stopped = s.stopped := rfl
@[simp] theorem State.modShip_owed : (s.modShip n b f).owed = s.owed := rfl
@[simp] theorem State.modShip_lastJob : (s.modShip n b f).lastJob = s.lastJob := rfl
@[simp] theorem State.modShip_heldInputs : (s.modShip n b f).heldInputs = s.heldInputs := rfl
@[simp] theorem State.modShip_strict : (s.modShip n b f).strict = s.strict := rfl
@[simp] theorem State.modShip_strictAreas : (s.modShip n b f).strictAreas = s.strictAreas := rfl
@[simp] theorem State.modShip_past : (s.modShip n b f).past = s.past := rfl
@[simp] theorem State.modShip_forwards : (s.modShip n b f).forwards = s.forwards := rfl
@[simp] theorem State.modShip_told : (s.modShip n b f).told = s.told := rfl
@[simp] theorem State.modShip_telling : (s.modShip n b f).telling = s.telling := rfl
@[simp] theorem State.modShip_edits : (s.modShip n b f).edits = s.edits := rfl
@[simp] theorem State.modShip_unsent : (s.modShip n b f).unsent = s.unsent := rfl
@[simp] theorem State.modShip_shadowOpen : (s.modShip n b f).shadowOpen = s.shadowOpen := rfl
@[simp] theorem State.modShip_shadowMarks : (s.modShip n b f).shadowMarks = s.shadowMarks := rfl
@[simp] theorem State.modShip_logHalf : (s.modShip n b f).logHalf = s.logHalf := rfl
@[simp] theorem State.modShip_period : (s.modShip n b f).period = s.period := rfl
@[simp] theorem State.modShip_switchWait : (s.modShip n b f).switchWait = s.switchWait := rfl
@[simp] theorem State.modShip_sealsHeld : (s.modShip n b f).sealsHeld = s.sealsHeld := rfl
@[simp] theorem State.modShip_retractsHeld : (s.modShip n b f).retractsHeld = s.retractsHeld := rfl
@[simp] theorem State.modShip_replansDue : (s.modShip n b f).replansDue = s.replansDue := rfl
@[simp] theorem State.modShip_dueFaults : (s.modShip n b f).dueFaults = s.dueFaults := rfl
@[simp] theorem State.modShip_heldEdits : (s.modShip n b f).heldEdits = s.heldEdits := rfl
@[simp] theorem State.modShip_credits : (s.modShip n b f).credits = s.credits := rfl
@[simp] theorem State.modShip_links : (s.modShip n b f).links = s.links := rfl
@[simp] theorem State.modShip_drained : (s.modShip n b f).drained = s.drained := rfl
@[simp] theorem State.modShip_xlate : (s.modShip n b f).xlate = s.xlate := rfl
@[simp] theorem State.modShip_hung : (s.modShip n b f).hung = s.hung := rfl
@[simp] theorem State.modShip_resting : (s.modShip n b f).resting = s.resting := rfl
@[simp] theorem State.modShip_outst : (s.modShip n b f).outst = s.outst := rfl
@[simp] theorem State.modShip_nextTag : (s.modShip n b f).nextTag = s.nextTag := rfl
@[simp] theorem State.modShip_parked : (s.modShip n b f).parked = s.parked := rfl
@[simp] theorem State.modShip_lent : (s.modShip n b f).lent = s.lent := rfl
@[simp] theorem State.modShip_wants : (s.modShip n b f).wants = s.wants := rfl
@[simp] theorem State.modShip_stalled : (s.modShip n b f).stalled = s.stalled := rfl
@[simp] theorem State.modShip_forwarding : (s.modShip n b f).forwarding = s.forwarding := rfl
@[simp] theorem State.modShip_stor : (s.modShip n b f).stor = s.stor := rfl
@[simp] theorem State.modShip_loads : (s.modShip n b f).loads = s.loads := rfl
@[simp] theorem State.modShip_joins : (s.modShip n b f).joins = s.joins := rfl
@[simp] theorem State.modShip_eth : (s.modShip n b f).eth = s.eth := rfl
@[simp] theorem State.modShip_out : (s.modShip n b f).out = s.out := rfl
@[simp] theorem State.modShip_fresh : (s.modShip n b f).fresh = s.fresh := rfl
@[simp] theorem State.modShip_pending : (s.modShip n b f).pending = s.pending := rfl
end modShip

section setPort
variable (p : EPort) (v : Port)
@[simp] theorem State.setPort_regs : (s.setPort p v).regs = s.regs := by cases p <;> rfl
@[simp] theorem State.setPort_mregs : (s.setPort p v).mregs = s.mregs := by cases p <;> rfl
@[simp] theorem State.setPort_shadows : (s.setPort p v).shadows = s.shadows := by cases p <;> rfl
@[simp] theorem State.setPort_staged : (s.setPort p v).staged = s.staged := by cases p <;> rfl
@[simp] theorem State.setPort_dowels : (s.setPort p v).dowels = s.dowels := by cases p <;> rfl
@[simp] theorem State.setPort_broken : (s.setPort p v).broken = s.broken := by cases p <;> rfl
@[simp] theorem State.setPort_retained : (s.setPort p v).retained = s.retained := by cases p <;> rfl
@[simp] theorem State.setPort_retainedBad : (s.setPort p v).retainedBad = s.retainedBad := by cases p <;> rfl
@[simp] theorem State.setPort_fuses : (s.setPort p v).fuses = s.fuses := by cases p <;> rfl
@[simp] theorem State.setPort_flash : (s.setPort p v).flash = s.flash := by cases p <;> rfl
@[simp] theorem State.setPort_rst : (s.setPort p v).rst = s.rst := by cases p <;> rfl
@[simp] theorem State.setPort_boot : (s.setPort p v).boot = s.boot := by cases p <;> rfl
@[simp] theorem State.setPort_power : (s.setPort p v).power = s.power := by cases p <;> rfl
@[simp] theorem State.setPort_pkg : (s.setPort p v).pkg = s.pkg := by cases p <;> rfl
@[simp] theorem State.setPort_time : (s.setPort p v).time = s.time := by cases p <;> rfl
@[simp] theorem State.setPort_timeFrac : (s.setPort p v).timeFrac = s.timeFrac := by cases p <;> rfl
@[simp] theorem State.setPort_timeHold : (s.setPort p v).timeHold = s.timeHold := by cases p <;> rfl
@[simp] theorem State.setPort_timeLocks : (s.setPort p v).timeLocks = s.timeLocks := by cases p <;> rfl
@[simp] theorem State.setPort_offsets : (s.setPort p v).offsets = s.offsets := by cases p <;> rfl
@[simp] theorem State.setPort_slew : (s.setPort p v).slew = s.slew := by cases p <;> rfl
@[simp] theorem State.setPort_opens : (s.setPort p v).opens = s.opens := by cases p <;> rfl
@[simp] theorem State.setPort_nextDesc : (s.setPort p v).nextDesc = s.nextDesc := by cases p <;> rfl
@[simp] theorem State.setPort_commits : (s.setPort p v).commits = s.commits := by cases p <;> rfl
@[simp] theorem State.setPort_ctxs : (s.setPort p v).ctxs = s.ctxs := by cases p <;> rfl
@[simp] theorem State.setPort_hbm : (s.setPort p v).hbm = s.hbm := by cases p <;> rfl
@[simp] theorem State.setPort_hbmPoison : (s.setPort p v).hbmPoison = s.hbmPoison := by cases p <;> rfl
@[simp] theorem State.setPort_hbmFlips : (s.setPort p v).hbmFlips = s.hbmFlips := by cases p <;> rfl
@[simp] theorem State.setPort_slices : (s.setPort p v).slices = s.slices := by cases p <;> rfl
@[simp] theorem State.setPort_slicePoison : (s.setPort p v).slicePoison = s.slicePoison := by cases p <;> rfl
@[simp] theorem State.setPort_sliceFlips : (s.setPort p v).sliceFlips = s.sliceFlips := by cases p <;> rfl
@[simp] theorem State.setPort_locals : (s.setPort p v).locals = s.locals := by cases p <;> rfl
@[simp] theorem State.setPort_localPoison : (s.setPort p v).localPoison = s.localPoison := by cases p <;> rfl
@[simp] theorem State.setPort_localFlips : (s.setPort p v).localFlips = s.localFlips := by cases p <;> rfl
@[simp] theorem State.setPort_lines : (s.setPort p v).lines = s.lines := by cases p <;> rfl
@[simp] theorem State.setPort_linePoison : (s.setPort p v).linePoison = s.linePoison := by cases p <;> rfl
@[simp] theorem State.setPort_vregs : (s.setPort p v).vregs = s.vregs := by cases p <;> rfl
@[simp] theorem State.setPort_vregPoison : (s.setPort p v).vregPoison = s.vregPoison := by cases p <;> rfl
@[simp] theorem State.setPort_jigStore : (s.setPort p v).jigStore = s.jigStore := by cases p <;> rfl
@[simp] theorem State.setPort_tableFaults : (s.setPort p v).tableFaults = s.tableFaults := by cases p <;> rfl
@[simp] theorem State.setPort_frames : (s.setPort p v).frames = s.frames := by cases p <;> rfl
@[simp] theorem State.setPort_preserved : (s.setPort p v).preserved = s.preserved := by cases p <;> rfl
@[simp] theorem State.setPort_scrub : (s.setPort p v).scrub = s.scrub := by cases p <;> rfl
@[simp] theorem State.setPort_corrected : (s.setPort p v).corrected = s.corrected := by cases p <;> rfl
@[simp] theorem State.setPort_places : (s.setPort p v).places = s.places := by cases p <;> rfl
@[simp] theorem State.setPort_swaps : (s.setPort p v).swaps = s.swaps := by cases p <;> rfl
@[simp] theorem State.setPort_leaving : (s.setPort p v).leaving = s.leaving := by cases p <;> rfl
@[simp] theorem State.setPort_members : (s.setPort p v).members = s.members := by cases p <;> rfl
@[simp] theorem State.setPort_lostNodes : (s.setPort p v).lostNodes = s.lostNodes := by cases p <;> rfl
@[simp] theorem State.setPort_departed : (s.setPort p v).departed = s.departed := by cases p <;> rfl
@[simp] theorem State.setPort_lead : (s.setPort p v).lead = s.lead := by cases p <;> rfl
@[simp] theorem State.setPort_plans : (s.setPort p v).plans = s.plans := by cases p <;> rfl
@[simp] theorem State.setPort_attempt : (s.setPort p v).attempt = s.attempt := by cases p <;> rfl
@[simp] theorem State.setPort_retracted : (s.setPort p v).retracted = s.retracted := by cases p <;> rfl
@[simp] theorem State.setPort_stopped : (s.setPort p v).stopped = s.stopped := by cases p <;> rfl
@[simp] theorem State.setPort_owed : (s.setPort p v).owed = s.owed := by cases p <;> rfl
@[simp] theorem State.setPort_lastJob : (s.setPort p v).lastJob = s.lastJob := by cases p <;> rfl
@[simp] theorem State.setPort_heldInputs : (s.setPort p v).heldInputs = s.heldInputs := by cases p <;> rfl
@[simp] theorem State.setPort_strict : (s.setPort p v).strict = s.strict := by cases p <;> rfl
@[simp] theorem State.setPort_strictAreas : (s.setPort p v).strictAreas = s.strictAreas := by cases p <;> rfl
@[simp] theorem State.setPort_past : (s.setPort p v).past = s.past := by cases p <;> rfl
@[simp] theorem State.setPort_forwards : (s.setPort p v).forwards = s.forwards := by cases p <;> rfl
@[simp] theorem State.setPort_told : (s.setPort p v).told = s.told := by cases p <;> rfl
@[simp] theorem State.setPort_telling : (s.setPort p v).telling = s.telling := by cases p <;> rfl
@[simp] theorem State.setPort_edits : (s.setPort p v).edits = s.edits := by cases p <;> rfl
@[simp] theorem State.setPort_unsent : (s.setPort p v).unsent = s.unsent := by cases p <;> rfl
@[simp] theorem State.setPort_shadowOpen : (s.setPort p v).shadowOpen = s.shadowOpen := by cases p <;> rfl
@[simp] theorem State.setPort_shadowMarks : (s.setPort p v).shadowMarks = s.shadowMarks := by cases p <;> rfl
@[simp] theorem State.setPort_logHalf : (s.setPort p v).logHalf = s.logHalf := by cases p <;> rfl
@[simp] theorem State.setPort_period : (s.setPort p v).period = s.period := by cases p <;> rfl
@[simp] theorem State.setPort_switchWait : (s.setPort p v).switchWait = s.switchWait := by cases p <;> rfl
@[simp] theorem State.setPort_sealsHeld : (s.setPort p v).sealsHeld = s.sealsHeld := by cases p <;> rfl
@[simp] theorem State.setPort_retractsHeld : (s.setPort p v).retractsHeld = s.retractsHeld := by cases p <;> rfl
@[simp] theorem State.setPort_replansDue : (s.setPort p v).replansDue = s.replansDue := by cases p <;> rfl
@[simp] theorem State.setPort_dueFaults : (s.setPort p v).dueFaults = s.dueFaults := by cases p <;> rfl
@[simp] theorem State.setPort_heldEdits : (s.setPort p v).heldEdits = s.heldEdits := by cases p <;> rfl
@[simp] theorem State.setPort_credits : (s.setPort p v).credits = s.credits := by cases p <;> rfl
@[simp] theorem State.setPort_links : (s.setPort p v).links = s.links := by cases p <;> rfl
@[simp] theorem State.setPort_drained : (s.setPort p v).drained = s.drained := by cases p <;> rfl
@[simp] theorem State.setPort_xlate : (s.setPort p v).xlate = s.xlate := by cases p <;> rfl
@[simp] theorem State.setPort_hung : (s.setPort p v).hung = s.hung := by cases p <;> rfl
@[simp] theorem State.setPort_resting : (s.setPort p v).resting = s.resting := by cases p <;> rfl
@[simp] theorem State.setPort_outst : (s.setPort p v).outst = s.outst := by cases p <;> rfl
@[simp] theorem State.setPort_nextTag : (s.setPort p v).nextTag = s.nextTag := by cases p <;> rfl
@[simp] theorem State.setPort_parked : (s.setPort p v).parked = s.parked := by cases p <;> rfl
@[simp] theorem State.setPort_lent : (s.setPort p v).lent = s.lent := by cases p <;> rfl
@[simp] theorem State.setPort_wants : (s.setPort p v).wants = s.wants := by cases p <;> rfl
@[simp] theorem State.setPort_stalled : (s.setPort p v).stalled = s.stalled := by cases p <;> rfl
@[simp] theorem State.setPort_forwarding : (s.setPort p v).forwarding = s.forwarding := by cases p <;> rfl
@[simp] theorem State.setPort_ships : (s.setPort p v).ships = s.ships := by cases p <;> rfl
@[simp] theorem State.setPort_stor : (s.setPort p v).stor = s.stor := by cases p <;> rfl
@[simp] theorem State.setPort_loads : (s.setPort p v).loads = s.loads := by cases p <;> rfl
@[simp] theorem State.setPort_joins : (s.setPort p v).joins = s.joins := by cases p <;> rfl
@[simp] theorem State.setPort_eth : (s.setPort p v).eth = s.eth := by cases p <;> rfl
@[simp] theorem State.setPort_out : (s.setPort p v).out = s.out := by cases p <;> rfl
@[simp] theorem State.setPort_fresh : (s.setPort p v).fresh = s.fresh := by cases p <;> rfl
@[simp] theorem State.setPort_pending : (s.setPort p v).pending = s.pending := by cases p <;> rfl
end setPort

section modAttempt
variable (f : Attempt → Attempt)
@[simp] theorem State.modAttempt_regs : (s.modAttempt f).regs = s.regs := by unfold State.modAttempt; split <;> rfl
@[simp] theorem State.modAttempt_mregs : (s.modAttempt f).mregs = s.mregs := by unfold State.modAttempt; split <;> rfl
@[simp] theorem State.modAttempt_shadows : (s.modAttempt f).shadows = s.shadows := by unfold State.modAttempt; split <;> rfl
@[simp] theorem State.modAttempt_staged : (s.modAttempt f).staged = s.staged := by unfold State.modAttempt; split <;> rfl
@[simp] theorem State.modAttempt_dowels : (s.modAttempt f).dowels = s.dowels := by unfold State.modAttempt; split <;> rfl
@[simp] theorem State.modAttempt_broken : (s.modAttempt f).broken = s.broken := by unfold State.modAttempt; split <;> rfl
@[simp] theorem State.modAttempt_retained : (s.modAttempt f).retained = s.retained := by unfold State.modAttempt; split <;> rfl
@[simp] theorem State.modAttempt_retainedBad : (s.modAttempt f).retainedBad = s.retainedBad := by unfold State.modAttempt; split <;> rfl
@[simp] theorem State.modAttempt_fuses : (s.modAttempt f).fuses = s.fuses := by unfold State.modAttempt; split <;> rfl
@[simp] theorem State.modAttempt_flash : (s.modAttempt f).flash = s.flash := by unfold State.modAttempt; split <;> rfl
@[simp] theorem State.modAttempt_rst : (s.modAttempt f).rst = s.rst := by unfold State.modAttempt; split <;> rfl
@[simp] theorem State.modAttempt_boot : (s.modAttempt f).boot = s.boot := by unfold State.modAttempt; split <;> rfl
@[simp] theorem State.modAttempt_power : (s.modAttempt f).power = s.power := by unfold State.modAttempt; split <;> rfl
@[simp] theorem State.modAttempt_pkg : (s.modAttempt f).pkg = s.pkg := by unfold State.modAttempt; split <;> rfl
@[simp] theorem State.modAttempt_time : (s.modAttempt f).time = s.time := by unfold State.modAttempt; split <;> rfl
@[simp] theorem State.modAttempt_timeFrac : (s.modAttempt f).timeFrac = s.timeFrac := by unfold State.modAttempt; split <;> rfl
@[simp] theorem State.modAttempt_timeHold : (s.modAttempt f).timeHold = s.timeHold := by unfold State.modAttempt; split <;> rfl
@[simp] theorem State.modAttempt_timeLocks : (s.modAttempt f).timeLocks = s.timeLocks := by unfold State.modAttempt; split <;> rfl
@[simp] theorem State.modAttempt_offsets : (s.modAttempt f).offsets = s.offsets := by unfold State.modAttempt; split <;> rfl
@[simp] theorem State.modAttempt_slew : (s.modAttempt f).slew = s.slew := by unfold State.modAttempt; split <;> rfl
@[simp] theorem State.modAttempt_portA : (s.modAttempt f).portA = s.portA := by unfold State.modAttempt; split <;> rfl
@[simp] theorem State.modAttempt_portB : (s.modAttempt f).portB = s.portB := by unfold State.modAttempt; split <;> rfl
@[simp] theorem State.modAttempt_opens : (s.modAttempt f).opens = s.opens := by unfold State.modAttempt; split <;> rfl
@[simp] theorem State.modAttempt_nextDesc : (s.modAttempt f).nextDesc = s.nextDesc := by unfold State.modAttempt; split <;> rfl
@[simp] theorem State.modAttempt_commits : (s.modAttempt f).commits = s.commits := by unfold State.modAttempt; split <;> rfl
@[simp] theorem State.modAttempt_ctxs : (s.modAttempt f).ctxs = s.ctxs := by unfold State.modAttempt; split <;> rfl
@[simp] theorem State.modAttempt_hbm : (s.modAttempt f).hbm = s.hbm := by unfold State.modAttempt; split <;> rfl
@[simp] theorem State.modAttempt_hbmPoison : (s.modAttempt f).hbmPoison = s.hbmPoison := by unfold State.modAttempt; split <;> rfl
@[simp] theorem State.modAttempt_hbmFlips : (s.modAttempt f).hbmFlips = s.hbmFlips := by unfold State.modAttempt; split <;> rfl
@[simp] theorem State.modAttempt_slices : (s.modAttempt f).slices = s.slices := by unfold State.modAttempt; split <;> rfl
@[simp] theorem State.modAttempt_slicePoison : (s.modAttempt f).slicePoison = s.slicePoison := by unfold State.modAttempt; split <;> rfl
@[simp] theorem State.modAttempt_sliceFlips : (s.modAttempt f).sliceFlips = s.sliceFlips := by unfold State.modAttempt; split <;> rfl
@[simp] theorem State.modAttempt_locals : (s.modAttempt f).locals = s.locals := by unfold State.modAttempt; split <;> rfl
@[simp] theorem State.modAttempt_localPoison : (s.modAttempt f).localPoison = s.localPoison := by unfold State.modAttempt; split <;> rfl
@[simp] theorem State.modAttempt_localFlips : (s.modAttempt f).localFlips = s.localFlips := by unfold State.modAttempt; split <;> rfl
@[simp] theorem State.modAttempt_lines : (s.modAttempt f).lines = s.lines := by unfold State.modAttempt; split <;> rfl
@[simp] theorem State.modAttempt_linePoison : (s.modAttempt f).linePoison = s.linePoison := by unfold State.modAttempt; split <;> rfl
@[simp] theorem State.modAttempt_vregs : (s.modAttempt f).vregs = s.vregs := by unfold State.modAttempt; split <;> rfl
@[simp] theorem State.modAttempt_vregPoison : (s.modAttempt f).vregPoison = s.vregPoison := by unfold State.modAttempt; split <;> rfl
@[simp] theorem State.modAttempt_jigStore : (s.modAttempt f).jigStore = s.jigStore := by unfold State.modAttempt; split <;> rfl
@[simp] theorem State.modAttempt_tableFaults : (s.modAttempt f).tableFaults = s.tableFaults := by unfold State.modAttempt; split <;> rfl
@[simp] theorem State.modAttempt_frames : (s.modAttempt f).frames = s.frames := by unfold State.modAttempt; split <;> rfl
@[simp] theorem State.modAttempt_preserved : (s.modAttempt f).preserved = s.preserved := by unfold State.modAttempt; split <;> rfl
@[simp] theorem State.modAttempt_scrub : (s.modAttempt f).scrub = s.scrub := by unfold State.modAttempt; split <;> rfl
@[simp] theorem State.modAttempt_corrected : (s.modAttempt f).corrected = s.corrected := by unfold State.modAttempt; split <;> rfl
@[simp] theorem State.modAttempt_places : (s.modAttempt f).places = s.places := by unfold State.modAttempt; split <;> rfl
@[simp] theorem State.modAttempt_swaps : (s.modAttempt f).swaps = s.swaps := by unfold State.modAttempt; split <;> rfl
@[simp] theorem State.modAttempt_leaving : (s.modAttempt f).leaving = s.leaving := by unfold State.modAttempt; split <;> rfl
@[simp] theorem State.modAttempt_members : (s.modAttempt f).members = s.members := by unfold State.modAttempt; split <;> rfl
@[simp] theorem State.modAttempt_lostNodes : (s.modAttempt f).lostNodes = s.lostNodes := by unfold State.modAttempt; split <;> rfl
@[simp] theorem State.modAttempt_departed : (s.modAttempt f).departed = s.departed := by unfold State.modAttempt; split <;> rfl
@[simp] theorem State.modAttempt_lead : (s.modAttempt f).lead = s.lead := by unfold State.modAttempt; split <;> rfl
@[simp] theorem State.modAttempt_plans : (s.modAttempt f).plans = s.plans := by unfold State.modAttempt; split <;> rfl
@[simp] theorem State.modAttempt_retracted : (s.modAttempt f).retracted = s.retracted := by unfold State.modAttempt; split <;> rfl
@[simp] theorem State.modAttempt_stopped : (s.modAttempt f).stopped = s.stopped := by unfold State.modAttempt; split <;> rfl
@[simp] theorem State.modAttempt_owed : (s.modAttempt f).owed = s.owed := by unfold State.modAttempt; split <;> rfl
@[simp] theorem State.modAttempt_lastJob : (s.modAttempt f).lastJob = s.lastJob := by unfold State.modAttempt; split <;> rfl
@[simp] theorem State.modAttempt_heldInputs : (s.modAttempt f).heldInputs = s.heldInputs := by unfold State.modAttempt; split <;> rfl
@[simp] theorem State.modAttempt_strict : (s.modAttempt f).strict = s.strict := by unfold State.modAttempt; split <;> rfl
@[simp] theorem State.modAttempt_strictAreas : (s.modAttempt f).strictAreas = s.strictAreas := by unfold State.modAttempt; split <;> rfl
@[simp] theorem State.modAttempt_past : (s.modAttempt f).past = s.past := by unfold State.modAttempt; split <;> rfl
@[simp] theorem State.modAttempt_forwards : (s.modAttempt f).forwards = s.forwards := by unfold State.modAttempt; split <;> rfl
@[simp] theorem State.modAttempt_told : (s.modAttempt f).told = s.told := by unfold State.modAttempt; split <;> rfl
@[simp] theorem State.modAttempt_telling : (s.modAttempt f).telling = s.telling := by unfold State.modAttempt; split <;> rfl
@[simp] theorem State.modAttempt_edits : (s.modAttempt f).edits = s.edits := by unfold State.modAttempt; split <;> rfl
@[simp] theorem State.modAttempt_unsent : (s.modAttempt f).unsent = s.unsent := by unfold State.modAttempt; split <;> rfl
@[simp] theorem State.modAttempt_shadowOpen : (s.modAttempt f).shadowOpen = s.shadowOpen := by unfold State.modAttempt; split <;> rfl
@[simp] theorem State.modAttempt_shadowMarks : (s.modAttempt f).shadowMarks = s.shadowMarks := by unfold State.modAttempt; split <;> rfl
@[simp] theorem State.modAttempt_logHalf : (s.modAttempt f).logHalf = s.logHalf := by unfold State.modAttempt; split <;> rfl
@[simp] theorem State.modAttempt_period : (s.modAttempt f).period = s.period := by unfold State.modAttempt; split <;> rfl
@[simp] theorem State.modAttempt_switchWait : (s.modAttempt f).switchWait = s.switchWait := by unfold State.modAttempt; split <;> rfl
@[simp] theorem State.modAttempt_sealsHeld : (s.modAttempt f).sealsHeld = s.sealsHeld := by unfold State.modAttempt; split <;> rfl
@[simp] theorem State.modAttempt_retractsHeld : (s.modAttempt f).retractsHeld = s.retractsHeld := by unfold State.modAttempt; split <;> rfl
@[simp] theorem State.modAttempt_replansDue : (s.modAttempt f).replansDue = s.replansDue := by unfold State.modAttempt; split <;> rfl
@[simp] theorem State.modAttempt_dueFaults : (s.modAttempt f).dueFaults = s.dueFaults := by unfold State.modAttempt; split <;> rfl
@[simp] theorem State.modAttempt_heldEdits : (s.modAttempt f).heldEdits = s.heldEdits := by unfold State.modAttempt; split <;> rfl
@[simp] theorem State.modAttempt_credits : (s.modAttempt f).credits = s.credits := by unfold State.modAttempt; split <;> rfl
@[simp] theorem State.modAttempt_links : (s.modAttempt f).links = s.links := by unfold State.modAttempt; split <;> rfl
@[simp] theorem State.modAttempt_drained : (s.modAttempt f).drained = s.drained := by unfold State.modAttempt; split <;> rfl
@[simp] theorem State.modAttempt_xlate : (s.modAttempt f).xlate = s.xlate := by unfold State.modAttempt; split <;> rfl
@[simp] theorem State.modAttempt_hung : (s.modAttempt f).hung = s.hung := by unfold State.modAttempt; split <;> rfl
@[simp] theorem State.modAttempt_resting : (s.modAttempt f).resting = s.resting := by unfold State.modAttempt; split <;> rfl
@[simp] theorem State.modAttempt_outst : (s.modAttempt f).outst = s.outst := by unfold State.modAttempt; split <;> rfl
@[simp] theorem State.modAttempt_nextTag : (s.modAttempt f).nextTag = s.nextTag := by unfold State.modAttempt; split <;> rfl
@[simp] theorem State.modAttempt_parked : (s.modAttempt f).parked = s.parked := by unfold State.modAttempt; split <;> rfl
@[simp] theorem State.modAttempt_lent : (s.modAttempt f).lent = s.lent := by unfold State.modAttempt; split <;> rfl
@[simp] theorem State.modAttempt_wants : (s.modAttempt f).wants = s.wants := by unfold State.modAttempt; split <;> rfl
@[simp] theorem State.modAttempt_stalled : (s.modAttempt f).stalled = s.stalled := by unfold State.modAttempt; split <;> rfl
@[simp] theorem State.modAttempt_forwarding : (s.modAttempt f).forwarding = s.forwarding := by unfold State.modAttempt; split <;> rfl
@[simp] theorem State.modAttempt_ships : (s.modAttempt f).ships = s.ships := by unfold State.modAttempt; split <;> rfl
@[simp] theorem State.modAttempt_stor : (s.modAttempt f).stor = s.stor := by unfold State.modAttempt; split <;> rfl
@[simp] theorem State.modAttempt_loads : (s.modAttempt f).loads = s.loads := by unfold State.modAttempt; split <;> rfl
@[simp] theorem State.modAttempt_joins : (s.modAttempt f).joins = s.joins := by unfold State.modAttempt; split <;> rfl
@[simp] theorem State.modAttempt_eth : (s.modAttempt f).eth = s.eth := by unfold State.modAttempt; split <;> rfl
@[simp] theorem State.modAttempt_out : (s.modAttempt f).out = s.out := by unfold State.modAttempt; split <;> rfl
@[simp] theorem State.modAttempt_fresh : (s.modAttempt f).fresh = s.fresh := by unfold State.modAttempt; split <;> rfl
@[simp] theorem State.modAttempt_pending : (s.modAttempt f).pending = s.pending := by unfold State.modAttempt; split <;> rfl
end modAttempt

/-! ## What the updates write -/

@[simp] theorem State.emit_out (o : Out) : (s.emit o).out = o :: s.out := rfl
@[simp] theorem State.modPower_power (f : Power → Power) : (s.modPower f).power = f s.power := rfl
@[simp] theorem State.modBoot_boot (f : Boot → Boot) : (s.modBoot f).boot = f s.boot := rfl
@[simp] theorem State.setActive_rst (l : List (RstLevel × Nat)) : (s.setActive l).rst = { s.rst with active := l } := rfl
@[simp] theorem State.setPort_port (p : EPort) (v : Port) : (s.setPort p v).port p = v := by cases p <;> rfl

end Sys2Proof.Machine
end

