-- ==== Sys2Proof/Laws/Registers.lean ====
section
/-! SUPPORT. Bits, fields and registers: what reads after a write, and what each register operation leaves. -/

namespace Sys2Proof.Machine

/-! ## Bits and fields of a word -/

theorem bit_ext {v w : Word} (h : ∀ j, bit v j = bit w j) : v = w := BitVec.eq_of_getLsbD_eq fun i _ => h i

theorem bit_and {v w : Word} {j : Nat} : bit (v &&& w) j = (bit v j && bit w j) := by simp [bit]
theorem bit_or {v w : Word} {j : Nat} : bit (v ||| w) j = (bit v j || bit w j) := by simp [bit]
theorem bit_not {v : Word} {j : Nat} (h : j < 32) : bit (~~~ v) j = !bit v j := by simp [bit, h]
theorem bit_high {v : Word} {j : Nat} (h : 32 ≤ j) : bit v j = false := by simp [bit, BitVec.getLsbD_of_ge _ _ h]
theorem bit_ofNat {n j : Nat} : bit (BitVec.ofNat 32 n : Word) j = (decide (j < 32) && n.testBit j) := by
  simp [bit, BitVec.getLsbD_ofNat]

theorem bit_mask {m l j : Nat} : bit (mask m l) j = decide (j < 32 ∧ l ≤ j ∧ j < m + 1 - l + l) := by
  simp only [mask, bit_ofNat, Nat.testBit_mul_two_pow, Nat.testBit_two_pow_sub_one]
  by_cases h1 : j < 32 <;> by_cases h2 : l ≤ j <;> simp [h1, h2] <;> omega

/-- Each bit after a field is set. -/
theorem bit_setFld {w : Word} {m l v j : Nat} (hm : m < 32) (hl : l ≤ m) :
    bit (setFld w m l v) j = if l ≤ j ∧ j ≤ m then v.testBit (j - l) else bit w j := by
  by_cases h32 : j < 32
  · simp only [setFld, bit_or, bit_and, bit_not h32, bit_mask, bit_ofNat, Nat.testBit_mul_two_pow, Nat.testBit_mod_two_pow]
    by_cases h1 : l ≤ j <;> by_cases h2 : j ≤ m
    · have : j < m + 1 - l + l := by omega
      have : j - l < m + 1 - l := by omega
      simp [*]
    · have : ¬ j < m + 1 - l + l := by omega
      have : ¬ j - l < m + 1 - l := by omega
      simp [*]
    · simp [h1, h32]
    · simp [h1, h32]
  · rw [bit_high (by omega), bit_high (by omega), if_neg (by omega)]

theorem bit_setBit {w : Word} {i j : Nat} {b : Bool} (h : i < 32) :
    bit (setBit w i b) j = if j = i then b else bit w j := by
  rw [setBit, bit_setFld h (Nat.le_refl i)]
  by_cases e : j = i
  · subst e; cases b <;> simp
  · rw [if_neg e, if_neg (by omega)]

theorem fld_eq_of_bits {v w : Word} {m l : Nat} (h : ∀ j, l ≤ j → j ≤ m → bit v j = bit w j) : fld v m l = fld w m l := by
  apply Nat.eq_of_testBit_eq
  intro i
  simp only [fld, Nat.testBit_mod_two_pow, Nat.testBit_shiftRight]
  by_cases hi : i < m + 1 - l
  · have := h (l + i) (by omega) (by omega)
    simp only [bit, BitVec.getLsbD] at this
    simp [hi, this]
  · simp [hi]

/-- A field reads as written, cut to its width. -/
theorem fld_setFld {w : Word} {m l v : Nat} (hm : m < 32) (hl : l ≤ m) :
    fld (setFld w m l v) m l = v % 2 ^ (m + 1 - l) := by
  apply Nat.eq_of_testBit_eq
  intro i
  simp only [fld, Nat.testBit_mod_two_pow, Nat.testBit_shiftRight]
  by_cases hi : i < m + 1 - l
  · have := bit_setFld (w := w) (v := v) (j := l + i) hm hl
    rw [if_pos ⟨by omega, by omega⟩, Nat.add_sub_cancel_left] at this
    simp only [bit, BitVec.getLsbD] at this
    simp [hi, this]
  · simp [hi]

/-- A field that does not meet the written one reads as before. -/
theorem fld_setFld_other {w : Word} {m l v m' l' : Nat} (hm : m < 32) (hl : l ≤ m) (h : m' < l ∨ m < l') :
    fld (setFld w m l v) m' l' = fld w m' l' := by
  apply fld_eq_of_bits
  intro j h1 h2
  rw [bit_setFld hm hl, if_neg (by omega)]

/-! ## Registers -/

variable (s : State) (o o' n : Nat) (v : Word)

@[simp] theorem State.reg_setReg_same : (s.setReg o v).reg o = v := peek_poke_same

theorem State.reg_setReg_other {s : State} {o o' : Nat} {v : Word} (h : o' ≠ o) : (s.setReg o v).reg o' = s.reg o' :=
  peek_poke_other' h

@[simp] theorem State.mreg_setMreg_same : (s.setMreg o v).mreg o = v := peek_poke_same

theorem State.mreg_setMreg_other {s : State} {o o' : Nat} {v : Word} (h : o' ≠ o) : (s.setMreg o v).mreg o' = s.mreg o' :=
  peek_poke_other' h

theorem State.reg_setReg : (s.setReg o v).reg o' = if o' = o then v else s.reg o' := by
  by_cases h : o' = o
  · subst h; simp
  · rw [if_neg h, State.reg_setReg_other h]

theorem State.mreg_setMreg : (s.setMreg o v).mreg o' = if o' = o then v else s.mreg o' := by
  by_cases h : o' = o
  · subst h; simp
  · rw [if_neg h, State.mreg_setMreg_other h]

/-- A register reads the same when the registers and the member are the same. -/
theorem State.reg_congr {s t : State} (h : t.regs = s.regs) (f : t.fuses = s.fuses) : t.reg o = s.reg o := by
  simp only [State.reg, h, f]

theorem State.mreg_congr {s t : State} (h : t.mregs = s.mregs) (f : t.fuses = s.fuses) : t.mreg o = s.mreg o := by
  simp only [State.mreg, h, f]

@[simp] theorem State.reg_setMreg : (s.setMreg o v).reg o' = s.reg o' := rfl
@[simp] theorem State.mreg_setReg : (s.setReg o v).mreg o' = s.mreg o' := rfl
@[simp] theorem State.reg_emit (x : Out) : (s.emit x).reg o = s.reg o := rfl
@[simp] theorem State.mreg_emit (x : Out) : (s.emit x).mreg o = s.mreg o := rfl
@[simp] theorem State.reg_modPower (f : Power → Power) : (s.modPower f).reg o = s.reg o := rfl
@[simp] theorem State.mreg_modPower (f : Power → Power) : (s.modPower f).mreg o = s.mreg o := rfl

/-! ## Halves of a pair -/

theorem hiOf_some {o hi : Nat} (h : hiOf o = some hi) : hi = o + 4 := by
  unfold hiOf at h
  dsimp only at h
  split at h
  · exact (Option.some.inj h).symm
  · cases h

/-- The low halves, by the blocks that hold them. -/
inductive LowHalf (o : Nat) : Prop where
  | single (h : o ∈ [0x4, 0x10_0008, 0x20_0020, 0x20_003C, 0x30_0000, 0x40_0004, 0x40_0040, 0x40_0048])
  | ring (h : 0x3_0000 ≤ o ∧ o < 0x3_8000 ∧ (o % 0x100 = 0 ∨ o % 0x100 = 8 ∨ o % 0x100 = 0x10))
  | page (h : 0x4_0000 ≤ o ∧ o < 0x4_0200 ∧ o % 0x100 = 0)
  | step (h : 0xD_0008 ≤ o ∧ o < 0xD_0408 ∧ (o - 0xD_0008) % 0x10 < 4)
  | count (h : 0xD_C000 ≤ o ∧ o < 0xD_D800 ∧ o % 8 = 0)
  | core (h : 0x50_0104 ≤ o ∧ o < 0x50_0184 ∧ (o - 0x50_0104) % 0x10 < 4)
  | qstat (h : 0x70_0000 ≤ o ∧ o < 0x70_4000 ∧ 8 ≤ o % 0x100 ∧ o % 8 = 0)

theorem hiOf_low {o hi : Nat} (h : hiOf o = some hi) : LowHalf o ∧ o % 4 = 0 := by
  unfold hiOf at h
  dsimp only at h
  split at h
  · rename_i hc
    simp only [inRun, Bool.and_eq_true, Bool.or_eq_true, decide_eq_true_eq] at hc
    refine ⟨?_, ?_⟩
    · have k := hc.1
      iterate 14 (refine Or.elim k ?_ ?_ <;> intro k)
      all_goals first
        | exact .single (by subst k; decide)
        | exact .ring (by omega)
        | exact .page (by omega)
        | exact .step (by omega)
        | exact .count (by omega)
        | exact .core (by omega)
        | exact .qstat (by omega)
    · rcases Nat.decEq (o % 4) 0 with e | e
      · exact absurd hc.2 (by simp [regInfo, e])
      · exact e
  · cases h

/-- No offset four bytes from a low half is one. -/
theorem LowHalf.apart {o : Nat} (h : LowHalf o) (h4 : o % 4 = 0) : ¬ LowHalf (o + 4) := by
  intro g
  rcases h with h | h | h | h | h | h | h <;> rcases g with g | g | g | g | g | g | g <;>
    (try simp only [List.mem_cons, List.not_mem_nil, or_false] at h g) <;> omega

/-- The high half of a pair is no low half. -/
theorem hiOf_hi {o hi : Nat} (h : hiOf o = some hi) : hiOf hi = none := by
  rcases e : hiOf hi with _ | x
  · rfl
  · have := hiOf_some h
    subst this
    exact absurd (hiOf_low e).1 ((hiOf_low h).1.apart (hiOf_low h).2)

/-- The low half of a pair is no high half. -/
theorem loOf_lo {o hi : Nat} (h : hiOf o = some hi) : loOf o = none := by
  unfold loOf
  split
  · rename_i h4
    rcases e : hiOf (o - 4) with _ | x
    · rfl
    · have g := (hiOf_low e).1.apart (hiOf_low e).2
      rw [Nat.sub_add_cancel h4] at g
      exact absurd (hiOf_low h).1 g
  · rfl

theorem loOf_hi {o hi : Nat} (h : hiOf o = some hi) : loOf hi = some o := by
  have e := hiOf_some h
  subst e
  simp [loOf, h]

/-! ## Window writes -/

variable {s o o' v} {p : Path} {h : HostView} {t : State}

/-- A path that does not reach the window changes nothing. -/
theorem State.windowWrite_unreached (hr : s.reaches p = false) : s.windowWrite p o v h = s := by
  simp [State.windowWrite, hr]

/-- A write that an access rule refuses. -/
theorem State.windowWrite_refused (hr : s.reaches p = true) (hw : s.writeAccess p o ≠ stOk) :
    s.windowWrite p o v h = (s.logAccess p o (s.writeAccess p o) true).emit (.writeStatus p (s.writeAccess p o)) := by
  simp [State.windowWrite, hr, hw]

/-- A write that its register takes. -/
theorem State.windowWrite_ok (hm : s.MayWrite p o) (e : s.applyWrite p o v h = some t) :
    s.windowWrite p o v h = t.emit (.writeStatus p stOk) := by
  simp [State.windowWrite, hm.1, hm.2, e]

/-- A write that its register refuses. -/
theorem State.windowWrite_denied (hm : s.MayWrite p o) (e : s.applyWrite p o v h = none) :
    s.windowWrite p o v h = (s.logAccess p o stDenied true).emit (.writeStatus p stDenied) := by
  simp [State.windowWrite, hm.1, hm.2, e]

/-- A register that is no half of a pair takes its word at once. -/
theorem State.applyWrite_word (h1 : hiOf o = none) (h2 : loOf o = none) : s.applyWrite p o v h = s.wordWrite p o v h := by
  simp [State.applyWrite, h1, h2]

/-- A `_LO` write is staged. -/
theorem State.applyWrite_lo {hi : Nat} (h1 : hiOf o = some hi) :
    s.applyWrite p o v h = some { s with staged := enlist (pathKey p o) v s.staged } := by
  simp [State.applyWrite, h1]

theorem State.plainWrite_eq {i : RegInfo} (e : regInfo o = some i) :
    s.plainWrite o v = s.setReg o ((s.reg o &&& ~~~ i.rw &&& ~~~ (i.w1c &&& v)) ||| (v &&& i.rw)) := by
  simp [State.plainWrite, e]

/-- What a plain write leaves in its register. -/
theorem written_plainWrite {i : RegInfo} (e : regInfo o = some i) : Written i (s.reg o) v ((s.plainWrite o v).reg o) := by
  intro j
  rw [State.plainWrite_eq e, State.reg_setReg_same]
  by_cases h32 : j < 32
  · simp only [bit_or, bit_and, bit_not h32]
    cases bit i.rw j <;> cases bit i.w1c j <;> simp
  · simp [bit_high (Nat.le_of_not_lt h32)]

theorem State.reg_plainWrite_other (h : o' ≠ o) : (s.plainWrite o v).reg o' = s.reg o' := by
  unfold State.plainWrite
  split
  · rfl
  · exact State.reg_setReg_other h

theorem State.plainWrite_frame : s.plainWrite o v = { s with regs := (s.plainWrite o v).regs } := by
  unfold State.plainWrite
  split <;> rfl

theorem State.logAccess_frame (status : Nat) (w : Bool) :
    s.logAccess p o status w = { s with regs := (s.logAccess p o status w).regs } := by
  unfold State.logAccess
  split <;> split <;> rfl

end Sys2Proof.Machine
end

