-- ==== Sys2Proof/WellFormed.lean ====
section
/-! DEFINITION. Which commands carry operands that their row can carry. A meaning is given to every command, well formed
or not; a command that is not well formed is one that no host, switch or tray sends. -/

namespace Sys2Proof
open Machine

/-- A descriptor of sixteen words with its row's opcode, and for a `DIAG` row its function in OBJECT (R300, R375). -/
def Submission.wf (u : Submission) (op : Nat) (function : Option Nat) : Bool :=
  u.words.length = 16 && hOpcode u.words = op &&
    match function with | none => true | some f => hObject u.words = f

/-- The fields of a message header fit their widths (R321). -/
def MsgHdr.wf (m : MsgHdr) : Bool :=
  m.src < 4096 && m.job < 2 ^ 16 && m.part < 64 && m.tag < 2 ^ 32 && m.offset < 2 ^ 40 && m.step < 2 ^ 48 && m.attempt < 256

/-- A body of whole lines, of at most 8,192 bytes (R322, R323). -/
def linesOk (data : List Byte) : Bool := !data.isEmpty && data.length % 128 = 0 && data.length ≤ 8192

/-- The header of an atomic: its OFFSET is 8-byte aligned (R323). -/
def MsgHdr.atomicOk (m : MsgHdr) : Bool := m.wf && m.offset % 8 = 0

/-- The names of a SHIP message fit their widths (R323). -/
def ShipName.wf (n : ShipName) : Bool :=
  n.srcNode < 4096 && n.srcCtx < 64 && n.srcHandle < 2 ^ 32 && n.dstNode < 4096 && n.dstCtx < 64 && n.dstHandle < 2 ^ 32

/-- Sixty-four bits. -/
def u64 (v : Nat) : Bool := v < 2 ^ 64

/-- The command can be sent as its row says. -/
def Instr.wf : Instr → Bool
  | .ctxCreate u => u.wf opCtxCreate none
  | .ctxDestroy u => u.wf opCtxDestroy none
  | .load u => u.wf opLoad none
  | .jigLoad u => u.wf opJigLoad none
  | .seqOpen u => u.wf opSeqOpen none
  | .seqAppend u => u.wf opSeqAppend none
  | .seqCancel u => u.wf opSeqCancel none
  | .seqClose u => u.wf opSeqClose none
  | .seqParams u => u.wf opSeqParams none
  | .pageMap u => u.wf opPageMap none
  | .pageUnmap u => u.wf opPageUnmap none
  | .kvShip u => u.wf opKvShip none
  | .kvAccept u => u.wf opKvAccept none
  | .stepPolicy u => u.wf opStepPolicy none
  | .benchSplit u => u.wf opBenchSplit none
  | .fence u => u.wf opFence none
  | .checkpoint u => u.wf opCheckpoint none
  | .restore u => u.wf opRestore none
  | .trainStep u => u.wf opTrainStep none
  | .faultRead u => u.wf opDiag (some 1)
  | .tableRead u => u.wf opDiag (some 2)
  | .join u => u.wf opDiag (some 3)
  | .depart u => u.wf opDiag (some 4)
  | .spdm u => u.wf opDiag (some 0x10)
  | .imagePush u => u.wf opDiag (some 0x11)
  | .clkEnWrite _ offset _ => isEnable offset
  | .loRead _ offset => (hiOf offset).isSome
  | .loWrite _ offset _ => (hiOf offset).isSome
  | .hiWrite _ offset _ => (loOf offset).isSome
  | .windowRead _ count => 1 ≤ count && count ≤ 16
  | .memberSet partition nodes => partition < 64 && nodes.all fun n => n < 4096
  | .bcbWrite _ bytes => 1 ≤ bytes.length && bytes.length ≤ 64
  | .pldmSetHbTimeout value => value ≤ 255
  | .pldmSetStagedEffecter id _ => [2, 3, 4, 6].contains id
  | .sensorChange sensor _ => [1, 2, 3].contains sensor || (16 ≤ sensor && sensor < 24) || (32 ≤ sensor && sensor ≤ 36)
  | .challenge _ nonce => nonce.length = 32
  | .getMeasurements _ index nonce => index ≤ 255 && nonce.length = 32
  | .etcenLinkUp _ _ badLanes => badLanes.all fun b => 1 ≤ b.1 && b.1 ≤ 3 && b.2 < 8
  | .sealMessage m => m.node < 4096 && m.attempt < 256
  | .report r => r.node < 4096
  | .retract m => m.node < 4096 && m.attempt < 256
  | .departMessage node cause => node < 4096 && cause ≤ 2
  | .memberLost node => node < 4096
  | .pendingMsg src kind _ attempt => src < 4096 && kind ≤ 1 && attempt < 256
  | .read m lines => m.wf && 1 ≤ lines && lines ≤ 64
  | .write m bs => m.wf && linesOk bs
  | .atomicAdd m operand => m.atomicOk && u64 operand
  | .atomicSwap m operand => m.atomicOk && u64 operand
  | .atomicCompareAndSwap m compare new => m.atomicOk && u64 compare && u64 new
  | .accAdd m states => m.wf && 1 ≤ states.length && states.length ≤ 256 && states.all fun b => b.length = 24
  | .mcastWrite m _ dests index bs => m.wf && dests.all (fun n => n < 4096) && index < dests.length && linesOk bs
  | .groupEnd m layer expert member adds => m.wf && layer < 2 ^ 16 && expert < 1024 && member < 4096 && adds < 2 ^ 32
  | .shipOffer n _ _ layout _ _ _ => n.wf && layout.length = 12
  | .shipGrant n node logical pages => n.wf && node < 4096 && logical.length ≤ pages.length
  | .writesDone n member _ => n.wf && member < 4096
  | .shipDone n _ => n.wf
  | .shipAccepted n => n.wf
  | .shipRefused n _ => n.wf
  | .shipTimeout n => n.wf
  | .nak _ seq => seq < 4096
  | .linkId _ swId swPort plane => swId < 2 ^ 16 && swPort < 256 && plane < 32
  | .priorityFlowControl _ _ quanta => quanta < 2 ^ 16
  | .gaugeFault c _ _ => match c with | .island _ n => n ≤ 73 | _ => true
  | .droopPersist _ island => island ≤ 73
  | .resetRelease _ selfTest slotId _ => selfTest.length = 8 && slotId < 16
  | .memPlaceMove .. | .memPlaceMakeReadOnly .. | .memPlaceMakeWritable .. | .migrationCopyDone .. | .ethSetupCmd ..
  | .rstCmdPackageWarm .. | .rstCmdDie .. | .rstCmdCore .. | .rstCmdPort .. | .rstCmdReleaseHold .. | .qstatClear ..
  | .qstatFreeze .. | .resume .. | .retrain .. | .xbarStallMaxClear .. | .thermClear .. | .memInjectArm .. | .acquire ..
  | .release .. | .breakDowel .. | .ringEnable .. | .ringDisable .. | .intStrictWrite .. | .clkSscWrite .. | .clkMuxBreak ..
  | .fabCableWrite .. | .secOwnerFuse .. | .rstPresValidClear .. | .pwrCapWrite .. | .pwrSafeWrite .. | .kick
  | .registerWrite .. | .windowWrite .. | .mgmtRead .. | .mgmtWrite .. | .faultClear | .stateSetIdle | .stateSetNap
  | .stateSetSleep | .stateSetOff | .pldmSetPowerCap .. | .pldmSetSafeCap .. | .setEventReceiver | .requestUpdate
  | .pldmImageData .. | .activateFirmware | .updateWriteDone .. | .recoverySelfReset | .getVersion .. | .getCapabilities ..
  | .negotiateAlgorithms .. | .getDigests .. | .getCertificate .. | .keyExchange .. | .pskExchange .. | .doorbellPoll ..
  | .nudge .. | .recordRelease .. | .headReread .. | .irqModTimeout .. | .hotResetPort .. | .hotResetPackage ..
  | .etcenLinkDown .. | .etcenTrainRetry .. | .portLost .. | .planPointReached | .idlePlan | .idleApply | .plan ..
  | .stepStart | .stageEnd .. | .tileCheck .. | .replayDone .. | .windowEnd .. | .combineRound .. | .stallWatchdog ..
  | .sealSend | .sealTimeout .. | .sealDeadlineExpired | .sealPendingSend | .requestPendingSend .. | .requestTimeout ..
  | .timeRequest .. | .timeReply .. | .timeExchangeTick | .timeHoldover | .acceptTimeout .. | .ack .. | .data .. | .nack ..
  | .creditReturn .. | .limfelePortTrained .. | .limfelePortDown .. | .limfeleTrainRetry .. | .planeMaskRepublish
  | .storageCompletion .. | .storageTimeout .. | .congestionNotification .. | .keepAlive .. | .ethernetLinkChange ..
  | .shadowCompare .. | .cowCopyDone .. | .contextRelease .. | .quarantineIdleRelease .. | .switchReady .. | .scrubLine ..
  | .criticalStateError .. | .droopStretch .. | .clampTick .. | .capEffectTimeout | .heartbeatExpired | .lowInput ..
  | .lowInputRelease | .inputFailing | .inputLost | .throttle .. | .throttleReleaseTick | .hardThrottle
  | .hardThrottleRelease | .trip | .leak | .coolFail | .coolantConditionEnd .. | .eject | .idleEntry | .pwrOkRise
  | .pwrOkFall | .rstNAssert | .rstNRelease | .mgmtWatchdog | .clockLossFaultN | .xbStartDelayEnd .. | .readyReport
  | .flitCrcFail .. | .powerApplied | .loadLastLineWritten .. | .registerRead .. => true

end Sys2Proof
end

