-- ==== Sys2Proof/Tests/Slice0.lean ====
section
/-! SUPPORT. Tests: ill-formed commands that the check refuses, a state for each statement's hypotheses, and single steps
whose results the spec gives. -/

open Sys2Proof Sys2Proof.Machine

/-! ## Ill-formed commands -/

namespace Sys2Proof.Tests

set_option Elab.async false

/-- Host memory with the bytes of a few addresses. -/
def host (cells : List (Nat × Byte)) : HostView := ⟨cells, [], 0⟩

/-- A descriptor on port A, pair 0: its first four words, its body from 0x10 on, then zeros. -/
def descr (w0 tag object length : Word) (body : List Word) (cells : List (Nat × Byte)) : Submission :=
  { port := .a, pair := 0, words := (w0 :: tag :: object :: length :: body ++ List.replicate 12 0#32).take 16,
    host := host cells }

/-- A message header with offset, step and attempt in range. -/
def hdr : MsgHdr := { src := 1, job := 7, part := 0, tag := 5, offset := 0, step := 3, attempt := 1, poison := false }

def shipName : ShipName := { job := 7, srcNode := 1, srcCtx := 0, srcHandle := 2, dstNode := 0, dstCtx := 0, dstHandle := 2 }

def sealMsg : SealMsg :=
  { node := 1, job := 7, step := 3, attempt := 1, pass := true, planes := 0, sig := 0, faults := [], edits := [], copying := [], slots := [],
    loss := 0 }

theorem test_illformed_opcode : Instr.wf (.ctxCreate (descr 0x02#32 0#32 0#32 0#32 [] [])) = false := by decide
theorem test_illformed_length : Instr.wf (.fence ⟨.a, 0, [0x40#32], host []⟩) = false := by decide
theorem test_illformed_function : Instr.wf (.join (descr 0x60#32 0#32 4#32 0#32 [] [])) = false := by decide
theorem test_wellformed_join : Instr.wf (.join (descr 0x60#32 0#32 3#32 0#32 [] [])) = true := by decide
theorem test_illformed_clkEn : Instr.wf (.clkEnWrite .i3c 0x50_0044 0#32) = false := by decide
theorem test_illformed_loRead : Instr.wf (.loRead .i3c oFabNode) = false := by decide
theorem test_illformed_loWrite : Instr.wf (.loWrite .i3c oEthHi 0#32) = false := by decide
theorem test_illformed_hiWrite : Instr.wf (.hiWrite .i3c oEthLo 0#32) = false := by decide
theorem test_illformed_windowRead : Instr.wf (.windowRead 0 17) = false ∧ Instr.wf (.windowRead 0 0) = false := by decide
theorem test_wellformed_windowRead : Instr.wf (.windowRead 0 16) = true := by decide
theorem test_illformed_memberSet : Instr.wf (.memberSet 64 [0]) = false ∧ Instr.wf (.memberSet 63 [4096]) = false := by decide
theorem test_illformed_bcbWrite : Instr.wf (.bcbWrite 0 []) = false ∧
    Instr.wf (.bcbWrite 0 (List.replicate 65 0#8)) = false := by decide
theorem test_illformed_hbTimeout : Instr.wf (.pldmSetHbTimeout 256) = false := by decide
theorem test_illformed_effecter : Instr.wf (.pldmSetStagedEffecter 5 0) = false := by decide
theorem test_illformed_sensor : Instr.wf (.sensorChange 24 0) = false ∧ Instr.wf (.sensorChange 37 0) = false := by decide
theorem test_illformed_challenge : Instr.wf (.challenge .i3c []) = false := by decide
theorem test_illformed_measurements : Instr.wf (.getMeasurements .i3c 256 (List.replicate 32 0#8)) = false := by decide
theorem test_illformed_linkUp : Instr.wf (.etcenLinkUp .a 3 [(4, 0)]) = false ∧
    Instr.wf (.etcenLinkUp .a 3 [(1, 8)]) = false := by decide
theorem test_illformed_seal : Instr.wf (.sealMessage { sealMsg with node := 4096 }) = false ∧
    Instr.wf (.sealMessage { sealMsg with attempt := 256 }) = false := by decide
theorem test_illformed_report : Instr.wf (.report ⟨4096, 0, 0, 0, 0, none, false, [], [], [], [], none, none⟩) = false := by decide
theorem test_illformed_retract : Instr.wf (.retract ⟨7, 3, 256, 1, 0x21, 0, false⟩) = false := by decide
theorem test_illformed_depart : Instr.wf (.departMessage 1 3) = false ∧ Instr.wf (.departMessage 4096 0) = false := by decide
theorem test_illformed_memberLost : Instr.wf (.memberLost 4096) = false := by decide
theorem test_illformed_pending : Instr.wf (.pendingMsg 1 2 0 0) = false := by decide
theorem test_illformed_read : Instr.wf (.read hdr 65) = false ∧ Instr.wf (.read { hdr with src := 4096 } 1) = false ∧
    Instr.wf (.read { hdr with offset := 2 ^ 40 } 1) = false := by decide
theorem test_illformed_write : Instr.wf (.write hdr [0#8]) = false ∧ Instr.wf (.write hdr []) = false := by decide
theorem test_illformed_atomics : Instr.wf (.atomicAdd hdr (2 ^ 64)) = false ∧ Instr.wf (.atomicSwap hdr (2 ^ 64)) = false ∧
    Instr.wf (.atomicCompareAndSwap hdr 0 (2 ^ 64)) = false := by decide
theorem test_illformed_accAdd : Instr.wf (.accAdd hdr []) = false ∧ Instr.wf (.accAdd hdr [[0#8]]) = false := by decide
theorem test_illformed_mcast : Instr.wf (.mcastWrite hdr true [1] 1 (List.replicate 128 0#8)) = false := by decide
theorem test_illformed_groupEnd : Instr.wf (.groupEnd hdr 0 1024 0 0) = false ∧
    Instr.wf (.groupEnd hdr (2 ^ 16) 0 0 0) = false := by decide
theorem test_illformed_shipOffer : Instr.wf (.shipOffer shipName 0 none [] 7 [] []) = false := by decide
theorem test_illformed_shipGrant : Instr.wf (.shipGrant shipName 1 [0, 1] [5]) = false := by decide
theorem test_illformed_writesDone : Instr.wf (.writesDone shipName 4096 0) = false := by decide
theorem test_illformed_ship : Instr.wf (.shipDone { shipName with srcCtx := 64 } 0) = false ∧
    Instr.wf (.shipAccepted { shipName with dstCtx := 64 }) = false ∧
    Instr.wf (.shipRefused { shipName with srcHandle := 2 ^ 32 } 0) = false ∧
    Instr.wf (.shipTimeout { shipName with dstNode := 4096 }) = false := by decide
theorem test_illformed_nak : Instr.wf (.nak 0 4096) = false := by decide
theorem test_illformed_linkId : Instr.wf (.linkId 0 (2 ^ 16) 0 0) = false ∧ Instr.wf (.linkId 0 0 256 0) = false ∧
    Instr.wf (.linkId 0 0 0 32) = false := by decide
theorem test_illformed_pause : Instr.wf (.priorityFlowControl 0 0 (2 ^ 16)) = false := by decide
theorem test_illformed_gauge : Instr.wf (.gaugeFault (.island 0 74) false false) = false := by decide
theorem test_illformed_droop : Instr.wf (.droopPersist 0 74) = false := by decide
theorem test_illformed_release : Instr.wf (.resetRelease .cold [] 0 true) = false ∧
    Instr.wf (.resetRelease .cold (List.replicate 8 true) 16 true) = false := by decide

/-! ## A state for each statement's hypotheses -/

/-- A T8 out of reset whose firmware is ready, with both Etcen links up, every clock enabled, every dowel held by one path,
as the lone member and lead of partition 0 with number 0. -/
def up (p : Path) : State :=
  { State.reset with
    rst := { Rst.reset with active := [] }
    boot := { Boot.reset with ready := true, mgmtUp := true }
    dowels := List.replicate 16 (ownerNo p)
    members := [0]
    regs := [(oLinkStat .a, 2#32), (oLinkStat .b, 2#32), (oFabNode, 0#32), (oClkEnPkg, 7#32)] ++
      (List.range 8).flatMap fun d =>
        [(oClkEnBlk d, 0x3FFFFFF#32), (oClkEnCoreLo d, 0xFFFFFFFF#32), (oClkEnCoreHi d, 0xFFFF#32)] }

/-- The next state of a command. -/
def next (c : Instr) (s : State) : State := match exec c s with | .next t => t | _ => s

/-- The state after a step. -/
def stepped (s : State) : State := match step s with | .next t => t | _ => s

theorem witness_IdleStepAdvancesTime_rate :
    let s := { up .i3c with eth := { Eth.reset with rates := [(1023, 40)] } }
    s.pending = [] ∧ fld (s.reg oBootStat) 31 29 ≠ 1 ∧ s.timeFrac < 2 ^ 32 ∧ s.time < 2 ^ 63 ∧ s.eth.rates = [(1023, 40)] ∧
      (up .i3c).eth.rates = [] ∧ s.LinksStill := by unfold State.LinksStill; decide +kernel
/-- A message of 248 bytes waits on port 31, which has one credit for it, beside the last sequence number. -/
def queued : State :=
  let m : Queued := ⟨2, 1, 0, none, List.replicate 248 7#8, 0⟩
  { (up .i3c).setReg (oPortStat 31) 2#32 with
    timeHold := 10, credits := [(31 * 4 + 2, 1)]
    links := [(31, { FabLink.fresh with next := 4095, sent := [(4094, [])], queue := [m] })] }

theorem witness_IdleStepAdvancesTime_flit :
    let s := queued
    let m : Queued := ⟨2, 1, 0, none, List.replicate 248 7#8, 0⟩
    s.pending = [] ∧ fld (s.reg oBootStat) 31 29 ≠ 1 ∧ s.timeFrac < 2 ^ 32 ∧ s.time < 2 ^ 63 ∧ s.drained = s.out.length ∧
      s.eth.paused = [] ∧ s.eth.rates = [] ∧ 10 ≤ s.timeHold ∧ s.links = [(31, { s.link 31 with queue := [m], back := [] })] ∧
      (s.link 31).sent.length < 512 ∧ fld (s.reg (oPortStat 31)) 1 0 = 2 ∧ m.vc < 3 ∧ m.sent = 0 ∧ m.bytes.length = 248 ∧
      0 < s.credit 31 m.vc := by decide +kernel
/-- The flit takes the credit, and the sequence number after 4,095 is 0. -/
theorem test_flit_sent : (stepped queued).credit 31 2 = 0 ∧ ((stepped queued).link 31).next = 0 ∧
    ((stepped queued).link 31).sent.map (·.1) = [4094, 4095] := by decide +kernel
theorem witness_IdleStepAdvancesTime_held :
    let s := { up .i3c with timeHold := 10 }
    s.pending = [] ∧ fld (s.reg oBootStat) 31 29 ≠ 1 ∧ s.timeFrac < 2 ^ 32 ∧ s.time < 2 ^ 63 ∧ 10 ≤ s.timeHold ∧ s.LinksStill := by
  unfold State.LinksStill; decide +kernel
theorem witness_IdleStepAdvancesTime_root :
    (up .i3c).pending = [] ∧ fld ((up .i3c).reg oBootStat) 31 29 ≠ 1 ∧ (up .i3c).timeFrac < 2 ^ 32 ∧ (up .i3c).time < 2 ^ 63 ∧
      (up .i3c).timeHold = 0 ∧ (up .i3c).isLead = true ∧ (up .i3c).LinksStill := by unfold State.LinksStill; decide +kernel
theorem witness_IdleStepAdvancesTime_steered :
    let s := { up .i3c with members := [5, 0], slew := -(10 * 2 ^ 32) + 1, timeFrac := 2 ^ 32 - 1 }
    s.pending = [] ∧ fld (s.reg oBootStat) 31 29 ≠ 1 ∧ s.timeFrac < 2 ^ 32 ∧ s.time < 2 ^ 63 ∧ s.timeHold = 0 ∧
      s.isLead = false ∧ (-10 * 2 ^ 32 : Int) < s.slew ∧ s.slew < 10 * 2 ^ 32 ∧ s.LinksStill := by unfold State.LinksStill; decide +kernel

/-- A state that meets the invariant with memory, an owner and a classed unit, and a command that waits. -/
def kept : State :=
  { up .epA with
    hbm := [(0, 1#8), (9, 2#8)], slices := [(3, 1#8)], locals := [(4, 1#8)]
    fuses := { Fuses.reset with ownerEn := true, svn := 64 }
    flash := { Flash.reset with history := [⟨1, 0, 5, 6, 0, 0, false⟩] }
    pending := [.powerApplied, .faultClear] }

theorem witness_InvariantKept : kept.Inv ∧ (stepped kept).pending = [.faultClear] := by
  unfold State.Inv; decide
theorem witness_FusesNeverGoBack : kept.Inv ∧ (stepped kept).fuses.svn = 64 ∧ kept.fuses.ownerEn = true := by
  unfold State.Inv; decide
theorem witness_ClassingsNeverLost : (⟨1, 0, 5, 6, 0, 0, false⟩ : FaultEntry) ∈ kept.flash.history ∧
    (stepped { kept with pending := [.faultClear] }).flash.history = [⟨1, 0, 5, 6, 0, 0, false⟩] := by decide

/-- The pair 0 of port A runs with completion and token rings of 2^6 entries, and its doorbell page is polled. -/
def ringUp (p : Path) : State :=
  ((up p).setPair .a 0 { Pair.off with state := .running }).setReg (oPollCtl .a) 0x00323001#32

theorem witness_RegisterWriteSetsFields :
    (plainOffset (oIrqMod .b 63) = true ∧ regInfo (oIrqMod .b 63) = some (RegInfo.rwOf 0x00FFFFFF#32 1#32) ∧
      (up .epB).MayWrite .epB (oIrqMod .b 63)) ∧
    plainOffset oClkGauge = true ∧ (regInfo oClkGauge).isSome = true ∧ (up .i3c).MayWrite .i3c oClkGauge ∧
    (up .epB).MayWrite .epB (oIrqVec .b 63) := by
  unfold State.MayWrite; decide
theorem witness_LoReadCapturesHi :
    let s := up .epA
    hiOf oTimeLo = some oTimeHi ∧ s.reaches .epA = true ∧ s.accessStatus oTimeLo = stOk ∧ s.accessStatus oTimeHi = stOk ∧
      oTimeLo ∉ s.retainedBad ∧ oTimeHi ∉ s.retainedBad := by decide
theorem witness_HiWriteCompletesPair_lo :
    hiOf (oRing .a 63 + 16) = some (oRing .a 63 + 20) ∧ (up .epA).MayWrite .epA (oRing .a 63 + 16) := by
  unfold State.MayWrite; decide
theorem witness_HiWriteCompletesPair_off :
    ((up .epA).pair .b 63).state = .off ∧ (up .epA).MayWrite .epA (oRing .b 63 + 8 * 2 + 4) ∧
      bit ((up .epA).reg (oPollCtl .b)) 0 = false ∧ (up .epA).MayWrite .epA (oDbLo .b + 4) ∧
      (up .epA).MayWrite .epA (oEthLo + 4) := by unfold State.MayWrite; decide
theorem witness_HiWriteCompletesPair_kept :
    ((ringUp .epA).pair .a 0).state ≠ .off ∧ (ringUp .epA).MayWrite .epA (oRing .a 0 + 4) ∧
      bit ((ringUp .epA).reg (oPollCtl .a)) 0 = true ∧ (ringUp .epA).MayWrite .epA (oDbLo .a + 4) := by
  unfold State.MayWrite; decide
theorem witness_RefusedAccessOnlyLogs_unreached : State.reset.reaches .epA = false := by decide
theorem witness_RefusedAccessOnlyLogs_guard :
    let s := up .i3c
    guardOf oFabNode = some 2 ∧ s.dowels.getD 2 0 ≠ ownerNo .epA ∧ s.accessStatus oFabNode = stOk ∧ s.reaches .epA = true ∧
      s.writeAccess .epA oFabNode ≠ stOk := by decide
theorem witness_RefusedAccessOnlyLogs_gated :
    let s := (up .i3c).setReg oClkEnPkg 0#32
    s.reaches .epB = true ∧ s.accessStatus oEthLo = stGated ∧ s.writeAccess .epB oEthLo ≠ stOk := by decide
theorem witness_RefusedAccessOnlyLogs_unaligned :
    (up .i3c).reaches .i3c = true ∧ (up .i3c).accessStatus 1 = stDenied ∧ (up .i3c).writeAccess .i3c 1 ≠ stOk := by decide
theorem witness_DowelOperations : (up .i3c).MayWrite .i3c (oDowel 0) ∧ (up .i3c).MayWrite .epB (oDowel 15) := by
  unfold State.MayWrite; decide
theorem witness_ClearAndArmCommands :
    (up .epA).MayWrite .epA (oQstat 63) ∧ (up .epA).MayWrite .epA (oStallMax 7) ∧ (up .epA).MayWrite .epA (oPres 7) ∧
      (up .epA).MayWrite .epA oInject ∧ (up .epA).residentOn (fld 0x700#32 10 8) = false := by unfold State.MayWrite; decide

/-- A context of two HBM pages on die 0 and no KV pool, with no work. -/
def ctx0 : Ctx :=
  { job := 7, kind := 1, priority := 0, range := 2, quantum := 1, jigFrames := [], lendJob := 0, lendFirst := 0, lendCount := 0,
    state := .active, fault := 0, pages := [(0, hbmEntry 0 true), (1, hbmEntry 1 false)], jigs := [], jigPlaces := [], oldJigs := [], buckets := [],
    kv := List.replicate 12 0#32, spec := List.replicate 68 0#32, stateFirst := 0, stateCount := 0, step := 4, seqs := [],
    tables := [], copies := [], policy := policyDefault, groupMax := [], bench := benchDefault, ratio := 0, sinceRatio := 65535,
    bookMatch := false, teardown := none, teardownStep := 0, teardownNode := 0, destroyDesc := none, holdDesc := none }

/-- The package with that context as number 0. -/
def live (p : Path) : State := { up p with ctxs := [(0, ctx0)], frames := [0, 1] }

theorem witness_ClearAndArmCommands_resident :
    (live .epA).MayWrite .epA oInject ∧ (live .epA).residentOn (fld 0#32 10 8) = true := by unfold State.MayWrite; decide
theorem witness_ClockWrites :
    (up .i3c).MayWrite .i3c oClkSsc ∧ (up .i3c).MayWrite .i3c (oClkEnBlk 7) ∧
      (up .i3c).reg (oClkEnBlk 7) &&& ~~~ 0#32 &&& (up .i3c).usedEnables (oClkEnBlk 7) = 0#32 ∧
      (up .i3c).MayWrite .i3c (oClkEnCoreLo 7) ∧ (up .i3c).MayWrite .i3c (oClkEnCoreHi 7) ∧
      (up .i3c).attempt.isNone = true ∧ (up .i3c).power.hard = false ∧ (up .i3c).usedEnables (oClkEnCoreLo 7) = 0#32 ∧ (up .i3c).usedEnables (oClkEnCoreHi 7) = 0#32 := by
  unfold State.MayWrite; decide
theorem witness_ClockWrites_used :
    let s := (up .i3c).setReg oTgtStat 2#32
    s.MayWrite .i3c oClkEnPkg ∧ s.reg oClkEnPkg &&& ~~~ 0#32 &&& s.usedEnables oClkEnPkg ≠ 0#32 := by
  unfold State.MayWrite; decide
theorem witness_BreakOfHungMultiplexer :
    let s := { up .i3c with hung := [47, 7 * 128 + 48] }
    s.MayWrite .i3c (oMuxBreak 0) ∧ s.MayWrite .i3c (oMuxBreak 7) ∧ s.dead = false ∧ s.pkgInReset = false ∧ 7 < s.fuses.dies ∧
      s.hung.find? (fun k => k / 128 = 0) = some 47 ∧ s.hung.find? (fun k => k / 128 = 7) = some (7 * 128 + 48) ∧
      s.hung.find? (fun k => k / 128 = 0) ≠ some 127 := by unfold State.MayWrite; decide
theorem witness_CablePlanWrite : (up .epB).MayWrite .epB (oCable 0) ∧ (up .epB).MayWrite .epB (oCable 31) := by
  unfold State.MayWrite; decide
theorem witness_RingEnableAndDisable_good :
    let s := up .epA
    s.MayWrite .epA (oRingCtl .b 63) ∧ (s.pair .b 63).state = .off ∧
      (∀ k < 3, s.reg (oRing .b 63 + 8 * k) &&& 0xFFF#32 = 0#32) ∧
      ∀ k < 3, 6 ≤ fld (s.reg (oRingSize .b 63)) (8 * k + 4) (8 * k) ∧ fld (s.reg (oRingSize .b 63)) (8 * k + 4) (8 * k) ≤ 16 := by
  unfold State.MayWrite; decide
theorem witness_RingEnableAndDisable_bad :
    let s := (up .epA).setReg (oRingSize .a 0) 0x00060611#32
    s.MayWrite .epA (oRingCtl .a 0) ∧ (s.pair .a 0).state = .off ∧ ¬ fld (s.reg (oRingSize .a 0)) 4 0 ≤ 16 := by
  unfold State.MayWrite; decide
theorem witness_RingEnableAndDisable_running :
    let s := ringUp .epA
    s.MayWrite .epA (oRingCtl .a 0) ∧ (s.pair .a 0).state = .running ∧ s.openCount .a 0 = 0 ∧
      ∀ r ∈ (s.port .a).held, r.pair ≠ 0 := by unfold State.MayWrite; decide
theorem witness_RingEnableAndDisable_drains :
    let s := { ringUp .epA with opens := [⟨1, .a, 0, [], [], false, .running, false⟩] }
    s.MayWrite .epA (oRingCtl .a 0) ∧ (s.pair .a 0).state = .running ∧ s.openCount .a 0 ≠ 0 := by unfold State.MayWrite; decide
theorem witness_StrictAreaFrames :
    let s := up .epA
    s.MayWrite .epA oStrictLo ∧ s.MayWrite .epA oStrictHi ∧ s.reg oStrictLo = 0#32 ∧ s.reg oStrictHi = 0#32 ∧
      s.strictAreas = [] ∧ s.diesInService.find? (fun d => 4 ≤ s.freeCount d) = some 0 := by
  unfold State.MayWrite; decide +kernel
theorem witness_StrictAreaFrames_none :
    let s := { up .epA with fuses := { Fuses.reset with dies := 0 } }
    s.MayWrite .epA oStrictLo ∧ s.MayWrite .epA oStrictHi ∧ s.reg oStrictLo = 0#32 ∧ s.reg oStrictHi = 0#32 ∧
      s.strictAreas = [] ∧ s.diesInService.find? (fun d => 4 ≤ s.freeCount d) = none := by unfold State.MayWrite; decide
theorem witness_StrictAreaFrames_clear :
    let s := { (up .epA).setReg oStrictHi (BitVec.ofNat 32 (2 ^ 31)) with strictAreas := [(63, [0, 1, 2, 3])] }
    s.MayWrite .epA oStrictLo ∧ s.MayWrite .epA oStrictHi ∧ s.reg oStrictLo = 0#32 ∧
      s.reg oStrictHi = BitVec.ofNat 32 (2 ^ (63 - 32)) ∧ s.strictAreas = [(63, [0, 1, 2, 3])] ∧ ∀ r ∈ s.strict, r.ctx ≠ 63 := by
  unfold State.MayWrite; decide

/-- The owner hash staged is SM3 of the empty key, whose digest is that of GB/T 32905 for the empty message. -/
def staged : State :=
  let ws : List Word := [0x831DB21A#32, 0x7FA1CF55#32, 0x4819618E#32, 0x8F1AE831#32, 0xC7C8BE22#32, 0x74FBFE28#32, 0xEB35D07E#32,
    0x2BAA8250#32]
  let s := (ws.zip (List.range 8)).foldl (fun s e => s.setReg (oOwnerStage e.2) e.1) (up .i3c)
  { s with boot := { s.boot with ownerOk := true } }

theorem witness_OwnerFuse :
    staged.MayWrite .i3c oOwnerFuse ∧ fld 0x4F57#32 15 0 = 0x4F57 ∧ staged.fuses.ownerEn = false ∧ staged.recovery = false ∧
      staged.boot.ownerOk = true ∧
      sm3 staged.boot.ownerKey = bytesOf ((List.range 8).map fun k => staged.reg (oOwnerStage k)) := by
  unfold State.MayWrite; decide +kernel
theorem witness_OwnerFuse_denied : (up .i3c).MayWrite .i3c oOwnerFuse ∧ (up .i3c).boot.ownerOk = false := by
  unfold State.MayWrite; decide
theorem witness_OwnerFuse_path : (up .epA).MayWrite .epA oOwnerFuse := by unfold State.MayWrite; decide

/-- Host memory of zeros is a setup record that uses no target. -/
theorem witness_SetupRetrainResume_setup :
    (up .epA).MayWrite .epA oEthCmd ∧ hostWords (host []) ((up .epA).reg64 oEthLo) 512 = some (List.replicate 512 0#32) := by
  unfold State.MayWrite; decide +kernel
theorem witness_SetupRetrainResume_retrain : (up .epA).MayWrite .epA (oLinkCtl .b) ∧ (up .epA).etcenReady .b = true := by
  unfold State.MayWrite; decide
theorem witness_SetupRetrainResume_resume :
    let s := { up .epA with members := [0, 1], lostNodes := [1] }
    s.MayWrite .epA oIntStat ∧ s.isLead = true ∧ s.degraded = true := by unfold State.MayWrite; decide

/-- The last page of the context may be made writable: its page map has two pages. -/
theorem witness_PlacementCommands_write :
    (live .epA).ctx 0 = some ctx0 ∧ ctx0.state = .active ∧ ctx0.teardown = none ∧ (live .epA).planned ctx0.job = false ∧
      (live .epA).MayWrite .epA (oPlace .epA) ∧ (live .epA).places = [] ∧ (live .epA).swaps = [] ∧ 1 + 1 ≤ ctx0.range ∧
      fld 0x1000#32 5 0 = 0 ∧ fld 0x1000#32 13 12 ≠ 2 ∧ entryValid (ctx0.page 1) = true ∧ entryFabric (ctx0.page 1) = false := by
  unfold State.MayWrite; decide
theorem witness_PlacementCommands_move :
    (live .epA).ctx 0 = some ctx0 ∧ ctx0.state = .active ∧ (live .epA).planned ctx0.job = false ∧
      (live .epA).MayWrite .epA (oPlace .epA) ∧ (live .epA).places = [] ∧ 1 + 1 ≤ ctx0.range ∧
      (let target := 0x00001700#32
       fld target 5 0 = 0 ∧ fld target 13 12 = 1 ∧ bit target 11 = false ∧ fld target 10 8 = 7) ∧
      (live .epA).stacks.contains 7 = true ∧ entryValid (ctx0.page 1) = true ∧ entryWritable (ctx0.page 1) = false ∧
      ¬ (entryHbm (ctx0.page 1) = true ∧ entryDie (ctx0.page 1) = 7) ∧ (live .epA).freeFrame 7 = some (7 * 2 ^ 15) := by
  unfold State.MayWrite; decide +kernel

/-- A move of the context's page 1 to die 7 whose copy is under way. -/
def moving : State :=
  { live .epA with frames := [0, 1, 7 * 2 ^ 15],
                   places := [⟨.epA, 0, 0, false, 0, false, 7, true, 1, 1, 2, some (7 * 2 ^ 15)⟩] }

theorem witness_PlacementCommands_copied :
    moving.ctx 0 = some ctx0 ∧ ctx0.state = .active ∧ moving.planned ctx0.job = false ∧
      moving.places = [⟨.epA, 0, 0, false, 0, false, 7, true, 1, 1, 2, some (7 * 2 ^ 15)⟩] ∧ moving.swaps = [] ∧
      moving.hbmFlips = [] ∧ bit (moving.reg oInject) 31 = false ∧ moving.attempt = none ∧ entryHbm (ctx0.page 1) = true := by
  decide
theorem witness_WarmResetSources :
    let s := up .i3c
    s.dead = false ∧ s.pkgInReset = false ∧ s.MayWrite .i3c oRstCmd ∧ (up .epB).linkUp .b = true ∧
      (up .epB).dowels.getD 15 0 = ownerNo (portPath .b) ∧ (up .epB).dead = false ∧ (up .epB).pkgInReset = false := by
  unfold State.MayWrite; decide

/-- The package in recovery with a recovery image in the slot. -/
def recovering : State :=
  let s := (up .i3c).setRegFld oBootStat 31 29 5
  { s with boot := { s.boot with recoverAt := true } }

theorem witness_WarmResetSources_recovery :
    recovering.dead = false ∧ recovering.pkgInReset = false ∧ recovering.recovery = true ∧ recovering.boot.recoverAt = true := by
  decide
theorem witness_ColdResetSources :
    (up .i3c).rst.powered = true ∧ bit ((up .i3c).reg oPinOut) 2 = false ∧
      { up .i3c with rst := { Rst.reset with powered := false } }.rst.powered = false := by decide
theorem witness_NarrowResets :
    let s := up .i3c
    s.dead = false ∧ s.pkgInReset = false ∧ s.attempt = none ∧ 7 < s.fuses.dies ∧ s.MayWrite .i3c oRstCmd ∧
      s.linkUp .b = true ∧ s.isPort 3 = true ∧ s.isPort 47 = true ∧ s.isPort 4 = false := by unfold State.MayWrite; decide
theorem witness_ResetReleases_held : State.reset.inReset .cold = true ∧
    { State.reset with rst := { Rst.reset with pwrOk := false } }.heldLevel .cold = true := by decide
theorem witness_ResetReleases_package :
    let s := State.reset
    s.inReset .cold = true ∧ s.heldLevel .cold = false ∧ s.heldLevel .warm = false ∧ s.rst.cmdHold = none ∧
      s.retireUnits.passing [false, true, true, true, true, true, true, true] = [1, 2, 3, 4, 5, 6, 7] := by decide
theorem witness_ResetReleases_core :
    let s := { up .i3c with rst := { (up .i3c).rst with active := [(.core 7 47, 0)] } }
    s.inReset (.core 7 47) = true ∧ s.rst.cmdHold ≠ some (.core 7 47) ∧ s.dieInReset 7 = false ∧ s.attempt = none := by decide
theorem witness_ResetReleases_die :
    let s := { up .i3c with rst := { (up .i3c).rst with active := [(.die 7, 0)] } }
    s.inReset (.die 7) = true ∧ s.rst.cmdHold = none ∧ s.pkgInReset = false ∧ s.dieOut 7 = false := by decide
theorem witness_ResetReleases_port :
    let s := { up .i3c with rst := { (up .i3c).rst with active := [(.port 47, 0)] } }
    s.inReset (.port 47) = true ∧ s.rst.cmdHold ≠ some (.port 47) ∧ s.dieInReset (portDie 47) = false := by decide
theorem witness_ResetReleases_clock :
    let s := { up .i3c with rst := { (up .i3c).rst with active := [(.warm, 5)], clockHold := [.xa] } }
    s.inReset .warm = true ∧ s.rst.clockHold ≠ [] := by decide
theorem witness_BootEvents :
    { State.reset with boot := { Boot.reset with xbWait := true } }.boot.xbWait = true ∧
      (let s := (up .i3c).setRegFld oBootStat 31 29 3
       s.bootState = 3 ∧ s.pkgInReset = false ∧ s.dead = false ∧ (∀ d ∈ s.diesInService, s.dieInReset d = false) ∧
         s.dieOut 0 = false) := by decide

theorem witness_WindowReadStops_whole :
    (up .i3c).mgmtOn = true ∧ 1 ≤ 2 ∧ 2 ≤ 16 ∧ (∀ k < 2, ((up .i3c).wordRead oTimeLo k).1 = stOk) ∧
      hiOf oTimeLo = some (oTimeLo + 4 * 1) := by decide
theorem witness_WindowReadStops_gated :
    let s := (up .i3c).setReg oClkEnPkg 6#32
    s.mgmtOn = true ∧ (∀ k < 2, (s.wordRead oEthCmd k).1 = stOk) ∧ (s.wordRead oEthCmd 2).1 = stGated := by decide
/-- The least and the greatest caps of the T8's classes are legal, one below the least is not. -/
theorem witness_PowerRegisters :
    let s := up .i3c
    s.mgmtOn = true ∧ capInRange s.fuses.dies (0x50001168#32 &&& 0xF0001FFF#32) = false ∧
      capInRange s.fuses.dies (0x50000168#32 &&& 0xF0001FFF#32) = true ∧ fld 0x50000168#32 30 28 < 6 ∧ s.attempt = none ∧
      s.power.condition = false ∧ s.thermalLow = false ∧ capInRange s.fuses.dies (0x000010B3#32 &&& 0x00FF1FFF#32) = false ∧
      capInRange s.fuses.dies (0x00FF10B4#32 &&& 0x00FF1FFF#32) = true ∧ 7 < s.fuses.dies := by decide
theorem witness_FaultClearKeepsClassings : (up .i3c).mgmtOn = true := by decide
theorem witness_MemberSetAndBcbWrite :
    let s := up .i3c
    s.mgmtOn = true ∧ s.ctxs = [] ∧ [0, 4095].Pairwise (· < ·) ∧ s.node ∈ [0, 4095] ∧ ¬ [4095, 0].Pairwise (· < ·) ∧
      448 + (List.replicate 64 1#8).length ≤ 512 ∧ 512 < 449 + (List.replicate 64 1#8).length := by decide
theorem witness_LowPowerStates :
    let s := up .i3c
    s.dead = false ∧ s.pkg = .on ∧ s.plans = [] ∧ s.attempt = none ∧ s.mgmtOn = true ∧ s.ctxs = [] ∧
      s.power.waitState = none := by decide
theorem witness_LowPowerStates_other :
    (∀ p ∈ [PkgState.on, .idle, .nap, .sleep], { up .i3c with pkg := p }.mgmtOn = true) ∧ (live .i3c).mgmtOn = true ∧
      (live .i3c).ctxs ≠ [] ∧ (up .i3c).node ≠ 0xFFF ∧ (up .i3c).members ≠ [] ∧
      (let s := { up .i3c with power := { Power.reset with waitState := some .sleep } }
       s.dead = false ∧ s.pkg = .on ∧ s.plans = [] ∧ s.attempt = none ∧ s.ctxs = []) := by decide
theorem witness_PldmEffecters :
    let s := up .i3c
    s.mgmtOn = true ∧ s.boot.staged.length = 4 ∧ 1805 % 10 ≠ 0 ∧
      (let w : Word := BitVec.ofNat 32 (1800 / 10 + s.boot.staged.getD 0 0 * 2 ^ 12 + s.boot.staged.getD 1 0 * 2 ^ 28 +
         s.boot.staged.getD 2 0 * 2 ^ 31) &&& 0xF0001FFF#32
       capInRange s.fuses.dies w = true ∧ fld w 30 28 < 6) ∧
      (let w : Word := BitVec.ofNat 32 (1790 / 10 + s.boot.staged.getD 0 0 * 2 ^ 12 + s.boot.staged.getD 1 0 * 2 ^ 28 +
         s.boot.staged.getD 2 0 * 2 ^ 31) &&& 0xF0001FFF#32
       ¬ capInRange s.fuses.dies w = true) ∧
      capInRange s.fuses.dies (setFld (BitVec.ofNat 32 (2600 / 10 + s.boot.staged.getD 3 0 * 2 ^ 12)) 23 16
        (fld (s.mreg mSafe) 23 16) &&& 0x00FF1FFF#32) = true ∧ capInRange s.fuses.dies (s.mreg mSafe) = true := by decide
theorem witness_EventsAreTold :
    let s := { up .i3c with boot := { (up .i3c).boot with receiver := true } }
    s.mgmtOn = true ∧ bit (s.reg oRstCause) 7 = false ∧ s.boot.receiver = true ∧ s.smbus = false ∧ s.fuses.dies ≤ 8 ∧
      s.sensorNow 36 = some 0 ∧ assoc 36 s.boot.sensors ≠ some 0 ∧
      bit ((s.setReg oRstCause 0x81#32).reg oRstCause) 7 = true := by decide

/-! ### A signed firmware image

Its keys are the public key of GB/T 32918.5's example, and its two signatures were made outside the model with that
example's private key. It has one component, of length 0, whose digest is SM3 of the empty message. -/

def sampleKey : Nat × Nat :=
  (0x09F9DF311E5421A150DD7D161E4BC5C672179FAD1833FC076BB08FF356F35020,
    0xCCEA490CE26775A52DC6EA718CC1AA600AED05FBF35E084A6632F6072DA9AD13)

def sampleHash : List Byte := beBytes 32 0x3d92bed6d685f38bff5ccd052119e1ecc071c2f3d915245c8d9c5a2cb131a89d

def image : List Byte :=
  let key := beBytes 32 sampleKey.1 ++ beBytes 32 sampleKey.2
  bytesOf [0x485A4601#32, 1#32, 576#32, 0#32, 0#32, 0#32, 0#32, 0#32] ++ key ++ key ++
    beBytes 32 0x87878A086E515F7ADD0BBAFFBF68B8F0FFD40F02AEAFB5F55385E0B30DE23903 ++
    beBytes 32 0xD590A75BFF4C3B88923553050D87B994614D2908BFC5B21AA94EA0CF54D32842 ++
    beBytes 32 0xCD6A0584FF7F5D332572F91063ABE5885EA5BD5F90A1459412A31A668AD44052 ++
    beBytes 32 0xC9831755BC2BA55AA6F5F1C8F7BB5DDB89E46D4DA988AAEE8C4EC79CB3593785 ++ List.replicate 224 0#8 ++
    List.replicate 32 0#8 ++ beBytes 32 0x1ab21d8355cfa17f8e61194831e81a8f22bec8c728fefb747ed035eb5082aa2b

/-- Before the image's last 32 bytes came over the management bus. -/
def updating : State :=
  { up .i3c with fuses := { Fuses.reset with rootHash := sampleHash }
                 boot := { (up .i3c).boot with update := some ⟨none, none, 0, image.take 544, false, false⟩ } }

theorem witness_FirmwareUpdates_service :
    (up .i3c).mgmtOn = true ∧ (up .i3c).boot.update = none ∧ updating.mgmtOn = true ∧ updating.boot.update ≠ none ∧
      bit (((up .i3c).setRegBit oBootStat 18 true).reg oBootStat) 18 = true := by decide
theorem witness_FirmwareUpdates_header :
    updating.mgmtOn = true ∧ updating.boot.update = some ⟨none, none, 0, image.take 544, false, false⟩ ∧
      (image.take 544).length + (image.drop 544).length ≤ maxImage ∧ headerIn (image.take 544 ++ []) = false ∧
      headerIn (image.take 544 ++ image.drop 544) = true := by decide +kernel
theorem witness_FirmwareUpdates_failed : authHeader Fuses.reset (image.take 544 ++ image.drop 544) ≠ 0 := by decide +kernel
theorem witness_FirmwareUpdates_passed : authHeader updating.fuses (image.take 544 ++ image.drop 544) = 0 := by decide +kernel
theorem witness_FirmwareUpdates_written :
    let u : Update := ⟨none, none, 576, image, true, false⟩
    u.started = true ∧ u.len ≤ u.bytes.length ∧ u.desc = none ∧ recovering.recovery = true ∧ (up .i3c).recovery = false ∧
      ∀ e ∈ imgEntries u.bytes, componentOk u.bytes e = true := by decide +kernel
theorem witness_FirmwareUpdates_bad :
    (imgEntries (image.take 575 ++ [0#8])).any (fun e => !componentOk (image.take 575 ++ [0#8]) e) = true := by decide +kernel

/-- A path whose connection has agreed the algorithms. -/
def agreed : State := { recovering with boot := { recovering.boot with spdm := [(.i3c, ⟨true, true, true⟩)] } }

theorem witness_SpdmResponses :
    (up .epB).spdmOn .epB = true ∧ agreed.spdmOn .i3c = true ∧ (agreed.spdmConn .i3c).version = true ∧
      (agreed.spdmConn .i3c).caps = true ∧ (agreed.spdmConn .i3c).algs = true ∧ agreed.recovery = true ∧
      agreed.measurement 1 = some (List.replicate 32 0#8) ∧ (agreed.measurement 6).isSome = true := by decide +kernel

/-- Host memory whose doorbell page holds a tail for pair 0. -/
def page (tail : Byte) : HostView := host [(0, tail)]

theorem witness_DoorbellReads_off : (up .epA).linkUp .a = true ∧ (up .epA).polls .a = false := by decide
theorem witness_DoorbellReads_failed :
    (ringUp .epA).linkUp .a = true ∧ (ringUp .epA).polls .a = true ∧ 0 ∈ (ringUp .epA).activePairs .a ∧
      hostWords ⟨[], [(0, 4)], 1⟩ ((ringUp .epA).reg64 (oDbLo .a) + 16 * 0) 3 = none := by decide
theorem witness_DoorbellReads_quiet :
    let s := ringUp .epA
    s.linkUp .a = true ∧ s.polls .a = true ∧ (∀ i < 64, hostWords (page 0#8) (s.reg64 (oDbLo .a) + 16 * i) 3 = some [0#32, 0#32, 0#32]) ∧
      ∀ i ∈ s.activePairs .a, (s.pair .a i).state = .running →
        (wordAt [0#32, 0#32, 0#32] 0).toNat = (s.pair .a i).sqTail ∧ (s.pair .a i).sqTail = (s.pair .a i).sqHead := by
  decide +kernel
theorem witness_DoorbellReads_fetch :
    let s := ringUp .epA
    s.linkUp .a = true ∧ s.polls .a = true ∧ s.activePairs .a = [0] ∧ (s.pair .a 0).state = .running ∧
      (s.pair .a 0).sqTail = (s.pair .a 0).sqHead ∧ (s.pair .a 0).sqHead < 2 ^ 32 ∧
      hostWords (page 1#8) (s.reg64 (oDbLo .a) + 16 * 0) 3 = some [1#32, 0#32, 0#32] ∧
      ((wordAt [1#32, 0#32, 0#32] 0).toNat + 2 ^ 32 - (s.pair .a 0).sqHead) % 2 ^ 32 = 1 ∧ s.heldByFence .a 0 = false ∧
      hostWords (page 1#8) (s.reg64 (oRing .a 0) + 64 * ((s.pair .a 0).sqHead % 2 ^ fld (s.reg (oRingSize .a 0)) 4 0)) 16 =
        some (1#32 :: List.replicate 15 0#32) ∧
      hostWords (page 65#8) (s.reg64 (oDbLo .a) + 16 * 0) 3 = some [65#32, 0#32, 0#32] ∧
      2 ^ fld (s.reg (oRingSize .a 0)) 4 0 < ((wordAt [65#32, 0#32, 0#32] 0).toNat + 2 ^ 32 - (s.pair .a 0).sqHead) % 2 ^ 32 := by
  decide +kernel

/-- A draining pair whose entry holds a tail too far ahead. -/
theorem witness_DoorbellReads_draining :
    let s := (ringUp .epA).setPair .a 0 { Pair.off with state := .draining }
    s.linkUp .a = true ∧ s.polls .a = true ∧ s.activePairs .a = [0] ∧ (s.pair .a 0).state = .draining ∧
      hostWords (page 65#8) (s.reg64 (oDbLo .a) + 16 * 0) 3 = some [65#32, 0#32, 0#32] ∧
      2 ^ fld (s.reg (oRingSize .a 0)) 4 0 < ((wordAt [65#32, 0#32, 0#32] 0).toNat + 2 ^ 32 - (s.pair .a 0).sqHead) % 2 ^ 32 ∧
      (wordAt [65#32, 0#32, 0#32] 0).toNat ≠ (s.pair .a 0).sqTail ∧
      ((s.pair .a 0).sqTail + 2 ^ 32 - (s.pair .a 0).sqHead) % 2 ^ 32 ≤ 2 ^ fld (s.reg (oRingSize .a 0)) 4 0 := by decide +kernel

/-- A record is held for pair 0, whose interrupts are on with COUNT 1 and an age limit. -/
def holding : State :=
  let s := ((ringUp .epA).setReg (oIrqVec .a 0) 0x80000007#32).setReg (oIrqMod .a 0) 0x00000A01#32
  let s := s.setPair .a 0 { s.pair .a 0 with irqCount := 1 }
  s.setPort .a { s.port .a with held := [⟨0, false, false, List.replicate 8 0#32, false, 0⟩] }

theorem witness_HeldRecordsAndInterrupts :
    holding.linkUp .a = true ∧ (holding.port .a).held = [⟨0, false, false, List.replicate 8 0#32, false, 0⟩] ∧
      holding.hasRoom .a 0 false = true ∧ (holding.pair .a 0).state = .running ∧
      (∀ r ∈ (holding.port .a).held, r.pair < 64) ∧
      hostWords (host []) (holding.reg64 (oDbLo .a) + 16 * 0) 3 = some [0#32, 0#32, 0#32] ∧
      bit (holding.reg (oIrqVec .a 0)) 31 = true ∧ fld (holding.reg (oIrqMod .a 0)) 23 8 ≠ 0 ∧ (holding.pair .a 0).irqCount ≠ 0 := by
  decide

/-- Generation 2 passes on lanes 0 to 3, and generation 3 not at all. -/
theorem witness_EtcenTraining :
    let s := (up .epB).setReg (oLinkStat .b) 1#32
    fld (s.reg (oLinkStat .b)) 1 0 = 1 ∧ min (fld (s.reg (oLinkCtl .b)) 1 0) 3 = 3 ∧ bit (s.reg (oLinkCtl .b)) 2 = true ∧
      (([(3, 0), (3, 7), (2, 4)] : List (Nat × Nat)).filter fun b => b.1 = 2 && b.2 < 8).map (·.2) = [4] ∧
      (up .epA).linkUp .a = true ∧ State.reset.linkUp .a = false ∧ State.reset.dowelsWf = true ∧
      (let d := (up .epA).setReg (oLinkStat .a) 0#32
       fld (d.reg (oLinkStat .a)) 1 0 = 0 ∧ d.etcenReady .a = true) := by decide
theorem witness_EffectiveCap :
    (up .i3c).dead = false ∧ fld (((up .i3c).setMreg mSafe 0x00FF10B4#32).mreg mSafe) 23 16 ≠ 0 ∧
      ((up .i3c).setMreg mSafe 0x00FF10B4#32).dead = false ∧
      { up .i3c with power := { Power.reset with thermal := some 2550 } }.power.thermal = some 2550 := by decide

/-- The clocks run: compute above the floor of class B, memory and links at it. -/
def clocked : State :=
  { up .i3c with power := { Power.reset with clocks := [1600, 1200, 1200], waiting := some 0x000010F0#32 } }

theorem witness_EffectiveCap_held :
    let p : Power := { Power.reset with waiting := some 0x000010F0#32, capHeld := true }
    p.waiting = some 0x000010F0#32 ∧ p.capHeld = true ∧ p.vinLow = false ∧ p.leak = false ∧ p.cool = false ∧ p.hbExpired = false ∧
      p.thermal = none := by decide

theorem witness_DroopClampAndHardThrottle :
    clocked.dead = false ∧ 7 < clocked.fuses.dies ∧ clocked.islandRuns 7 0 = true ∧ clocked.islandRuns 7 73 = true ∧
      ({ clocked with rst := { Rst.reset with active := [(.core 7 0, 0)] } } : State).islandRuns 7 0 = false ∧ clocked.lowMhz ≤ (clocked.islandMhz (7 * 128 + 0) - 1) / 100 * 100 ∧
      (clocked.islandMhz (7 * 128 + 73) - 1) / 100 * 100 < clocked.lowMhz ∧ clocked.power.hard = false ∧
      clocked.power.phaseLearned = false ∧ clocked.power.clocks.length = 3 ∧ clocked.groupMhz 0 ≠ 0 ∧
      clocked.power.waiting = some 0x000010F0#32 ∧ clocked.power.condition = false ∧ clocked.thermalLow = false ∧
      (groupOrder clocked.power.order = [] ++ 0 :: [1, 2] ∧ 10 * clocked.effCap < 1801 ∧ clocked.lowMhz < clocked.groupMhz 0) ∧
      (groupOrder clocked.power.order = [0, 1] ++ 2 :: [] ∧ 1800 ≤ 10 * clocked.effCap ∧ clocked.groupMhz 2 < 2100) := by decide
theorem witness_DroopClampAndHardThrottle_learned :
    let s := { clocked with power := { clocked.power with phaseLearned := true } }
    s.dead = false ∧ s.power.hard = false ∧ s.power.phaseLearned = true ∧ s.power.clocks.length = 3 ∧ s.groupMhz 0 ≠ 0 ∧
      600 < s.groupMhz 0 ∧ 10 * s.effCap < 18001 ∧ 0 ≤ 10 * s.effCap := by decide
theorem witness_DroopClampAndHardThrottle_held :
    let s := { clocked with power := { clocked.power with vinLow := true, clocks := [1200, 0, 1200] } }
    s.dead = false ∧ s.power.waiting = some 0x000010F0#32 ∧ s.power.condition = true ∧ s.power.cap ≤ fld 0x000010F0#32 11 0 ∧
      10 * s.effCap < 1801 ∧ ∀ f ∈ s.power.clocks, f ≤ s.lowMhz := by decide
theorem witness_InputFailingTripAndEject :
    let s := { (live .i3c).setReg (oPortStat 31) 2#32 with members := [0, 1] }
    s.dead = false ∧ s.departed = false ∧ s.limState 31 = 2 ∧ s.peers = [1] := by decide

/-- A member that is not the lead, with planes 0 and 31 in its mask, and an offset gathered on plane 0. -/
def follower : State :=
  { (up .i3c).setReg oPlanes 0x80000001#32 with members := [5, 0], offsets := [(0, 1001 * 2 ^ 17)] }

theorem witness_CommonTime :
    (up .i3c).isLead = true ∧ follower.leadNode = some 5 ∧ follower.isLead = false ∧ follower.departed = false ∧
      bit (follower.reg oPlanes) 31 = true ∧ assoc 31 follower.offsets = none ∧
      (∀ p < 32, bit (follower.reg oPlanes) p = true → p ≠ 31 → (assoc p follower.offsets).isSome = true) ∧
      follower.attempt = none ∧ 1000 * 2 ^ 17 < median ((enlist 31 (1001 * 2 ^ 17 : Int) follower.offsets).map (·.2)) ∧
      follower.time * 2 ^ 32 + follower.timeFrac + 1001 * 2 ^ 17 * 2 ^ 15 < 2 ^ 96 := by decide
theorem witness_CommonTime_other :
    let s := { follower with offsets := [] }
    bit (s.reg oPlanes) 0 = true ∧ assoc 31 s.offsets = none ∧ bit (s.reg oPlanes) 31 = true ∧ (assoc 0 s.offsets).isSome = false ∧
      fld ((s.setRegFld oTimeStat 1 0 3).reg oTimeStat) 1 0 ≠ 0 := by decide

/-- Limfele port 31 in a state, with PORTS_EN and V2_EN, and the plan of R339 enforced when asked. -/
def ported (state : Nat) (enforce : Bool) : State :=
  ((up .i3c).setReg oFabCtl (if enforce then 0xB#32 else 0x3#32)).setRegFld (oPortStat 31) 1 0 state

theorem witness_LimfeleLinks :
    (ported 1 false).limReady 31 = true ∧ (ported 1 false).limState 31 = 1 ∧ (ported 1 true).limReady 31 = true ∧
      (ported 2 false).limState 31 = 2 ∧ (ported 3 true).limState 31 = 3 ∧ (ported 0 true).limReady 31 = true ∧
      (ported 0 true).limState 31 = 0 ∧ (ported 2 false).flash.history.length + 2 ≤ 65536 ∧ (ported 2 false).isLead = true ∧
      (ported 2 false).idle = true ∧ (ported 2 false).peers = [] ∧ (ported 2 false).outst = [] ∧
      follower.leadNode = some 5 ∧ follower.idle = true ∧ bit ((ported 1 false).reg oFabCtl) 3 = false := by decide
/-- A message and a request wait for port 31, which trains with plane 31 in the mask. -/
theorem witness_LimfeleLinks_waiting :
    let m : Queued := ⟨0, 1, 0, some 5, [1#8], 1⟩
    let o : Outst := ⟨5, 1, none, 0, ⟨{ hdr with step := 0 }, .read 1⟩, .ship shipName, 0, false⟩
    let s (n : Nat) : State := { (ported n false).setReg oPlanes 0x80000000#32 with
      links := [(31, { FabLink.fresh with next := 9, queue := [m], sent := [(8, [1#8])] })], outst := [o] }
    (s 1).limReady 31 = true ∧ (s 1).limState 31 = 1 ∧ (s 1).outst = [o] ∧ o.plane = none ∧ o.req.hdr.step = 0 ∧
      bit ((s 1).reg oPlanes) 31 = true ∧ (s 2).limState 31 = 2 ∧ ((s 2).link 31).queue = [m] ∧ m.vc = 0 ∧
      (((s 2).link 31).sent.dropWhile fun e => e.1 != 8 % 4096) ≠ [] := by decide
theorem witness_LimfeleLinks_cables :
    let s := ((ported 2 true).setReg (oCable 31) 0x80FF0001#32).setReg (oCable 0) 0x80010002#32
    s.limState 31 ≠ 0 ∧ bit (s.reg (oCable 31)) 31 = true ∧ fld (s.reg (oCable 31)) 23 0 = 255 % 2 ^ 8 * 2 ^ 16 + 1 % 2 ^ 16 ∧
      bit (s.reg (oCable 0)) 31 = true ∧ fld (s.reg (oCable 0)) 23 0 = 1 % 2 ^ 8 * 2 ^ 16 + 2 % 2 ^ 16 ∧ 0 < 4 * s.fuses.dies := by
  decide
/-- A request waits on port 31, where no other port of the mask is up, or port 1 is. -/
theorem witness_LimfeleLinks_moves :
    let m : Queued := ⟨0, 1, 0, some 4, List.replicate 248 7#8, 0⟩
    let s : State := { (ported 2 false).setReg oPlanes 0x80000003#32 with links := [(31, { FabLink.fresh with queue := [m] })] }
    let u := s.setReg (oPortStat 1) 2#32
    s.limState 31 = 2 ∧ m ∈ (s.link 31).queue ∧ m.vc = 0 ∧ m.tag = some 4 ∧
      (∀ q < 32, q ≠ 31 → ¬ (bit (s.reg oPlanes) q = true ∧ s.limState q = 2)) ∧
      u.limState 31 = 2 ∧ bit (u.reg oPlanes) 1 = true ∧ u.limState 1 = 2 := by decide +kernel
theorem witness_EthernetLinks :
    fieldAt (up .i3c).eth.setup (0x40 * 1) 6 4 = 0 ∧ fieldAt (up .i3c).eth.setup (0x40 * 1) 6 4 ≠ 7 ∧
      0 < peek 100 (up .i3c).eth.rates 1023 ∧ ((up .i3c).setReg oTgtStat 0x80000000#32).conn 15 = 2 ∧ (up .i3c).conn 15 ≠ 2 := by
  decide
/-- A storage command waits for the end of a pause on the priority of port 0, whose domain is on and clocked. -/
theorem witness_EthernetLinks_paused :
    let j : StorJob := ⟨3, 1, 0, true, 0, 1, 0, 0, 256, false, some 7, false, []⟩
    let s : State := { up .i3c with stor := [j], eth := { (up .i3c).eth with paused := [(0, 0, 99)] } }
    fieldAt s.eth.setup (0x40 * 0) 6 4 = 0 ∧ s.stor = [j] ∧ s.eth.alive = [] ∧ (∀ e ∈ s.eth.paused, e.1 = 0 ∧ e.2.1 = 0) ∧ s.time < 99 ∧
      bit (wordAt s.eth.setup (0x100 + 0x40 * 0)) 1 = false ∧ s.ethRuns 0 = true ∧ State.reset.ethRuns 0 = false := by decide

/-- The package with the context and one open descriptor whose pair is ready for its completion. -/
def opened (d : Desc) : State := { ringUp .epA with ctxs := [(0, ctx0)], frames := [0, 1], opens := [d], nextDesc := d.id + 1 }

def anyDesc (op : Word) (phase : Phase) : Desc := ⟨1, .a, 0, op :: List.replicate 15 0#32, [], false, phase, false⟩

def storing (read load : Bool) : StorJob := ⟨3, 1, 0, read, 0, 1, 0, 2 ^ 21 - 128, 256, load, some 0, true, []⟩

theorem witness_StorageCompletions :
    let d := anyDesc 0x42#32 .running
    let s (read : Bool) : State := { opened d with stor := [storing read false] }
    (s true).desc? d.id = some d ∧ d.orphan = false ∧ (s true).Ready d.port d.pair ∧ (s true).ctx 0 = some ctx0 ∧
      (storing true false).desc = d.id ∧ (storing true false).addr % 128 = 0 ∧ (storing true false).len % 128 = 0 ∧ (s true).Clean ∧ (s true).storJob 3 = some (storing true false) ∧
      (s false).storJob 3 = some (storing false false) ∧ ctx0.OnHbm (2 ^ 21 - 128) 256 ∧
      (List.replicate 256 0#8).length = 256 ∧
      ∀ e ∈ (s true).opens, e.id ≠ d.id → hOpcode e.words ≠ opCheckpoint ∧ hOpcode e.words ≠ opRestore := by
  unfold State.Ready State.Clean Ctx.OnHbm; decide +kernel
theorem witness_StorageCompletions_load :
    let d : Desc := { anyDesc 0x03#32 .running with
      words := [0x03#32, 0#32, 0#32, 256#32, 0#32, 0#32, 0#32, 0#32, 0x001FFF80#32] ++ List.replicate 7 0#32,
      buf := List.replicate 64 0#32 }
    let s : State := { opened d with stor := [storing true true], loads := [⟨1, 0, [], false, 0, stOk, 0, 0⟩] }
    s.desc? d.id = some d ∧ d.orphan = false ∧ s.Ready d.port d.pair ∧ s.ctx 0 = some ctx0 ∧ s.Clean ∧
      s.load? d.id = some ⟨d.id, 0, [], false, 0, stOk, 0, 0⟩ ∧ hContext d.words = 0 ∧ fieldAt d.words 0x24 31 16 = 0 ∧
      addr48 d.words 0x20 0x24 = 2 ^ 21 - 128 ∧ hLength d.words = 256 ∧ s.storJob 3 = some (storing true true) ∧
      ctx0.OnHbm (2 ^ 21 - 128) 256 ∧ fieldAt d.words 0x10 1 0 = 0 ∧ (bytesOf d.buf).take 256 = List.replicate 256 0#8 := by
  unfold State.Ready State.Clean Ctx.OnHbm; decide +kernel

/-! ### A context with a KV pool of two pages, a sequence and a jig image -/

/-- An image with one FP32 operand descriptor of one column, one stage of expert layer 3 with one expert window on die 0,
and the layer's parameters with one expert. -/
def jig0 : List Byte :=
  let dir := List.replicate 18 0#32 ++ [0x80#32, 48#32, 0xB0#32, 16#32, 0xC0#32, 16#32, 0#32, 0#32, 0#32, 0#32, 0xD0#32, 32#32,
    0#32, 0#32]
  bytesOf (dir ++ [0x40#32, 0x3F800000#32, 1#32, 1#32] ++ List.replicate 8 0#32 ++ [0x00030001#32, 100#32, 0#32, 0x00010000#32] ++
    [1#32, 0#32, 10#32, 4#32] ++ [0x00010003#32, 1#32, 0#32, 0#32, 0#32, 0#32, 0#32, 0#32])

def table2 : Table :=
  { handle := 2, home := 0, base := 0x110000, pages := 2, committed := 300, resv := 0, waiting := false, closing := 0,
    running := true, draw := .default, con := .default }

def seq2 : Seq :=
  { handle := 2, state := .decode, committed := 300, queue := [42], rootPublished := false, maxLen := 512, cls := 0, stops := [],
    quota := 0, prefixGroup := 0, prefixLen := 0, gen := some 1, pre := none, maxNew := 8, published := 0, autoClose := false,
    paramsFollow := false, draw := .default, con := .default, auto := 0, pen := [], cands := [], candsPo := false, order := 1,
    mapping := false, closing := none, closedIn := 0, roots := [], left := [], kept := [] }

def ctx1 : Ctx :=
  { ctx0 with
    kv := [0x00010000#32, 0x00010001#32, 0#32, 0#32, 2#32, 0#32, 0x100000#32, 0#32, 0x140000#32, 0#32, 0#32, 0#32]
    jigs := [(5, jig0)], seqs := [seq2], tables := [table2] }

def plan5 : Plan :=
  { job := 7, step := 5, attempt := 0, pred := 4, start := 0, slot := 5, digest := 0, ratio := 0, mask := 0, rows := [],
    policy := policyDefault, groups := [], bench := benchDefault, bucket := 0, train := none }

def att5 : Attempt := { Attempt.fresh plan5 0 0 with img := jig0, loaded := true, todo := [] }

/-- Two members, of which this one leads, with that context and no step. -/
def pair2 : State :=
  { ringUp .epA with ctxs := [(0, ctx1)], frames := [0, 1], members := [0, 1], opens := [anyDesc 0x10#32 .running], nextDesc := 2 }

/-- Step 5 of its job in flight there. -/
def inStep : State := { pair2 with attempt := some att5 }

theorem witness_FabricReadsWritesAndAtomics :
    let m := { hdr with step := 0, offset := 2 ^ 21 - 128 }
    let w := { hdr with step := 0, offset := 2 ^ 21 - 8 }
    m.step = 0 ∧ pair2.ctxOfJob m.job = some (0, ctx1) ∧ m.part = pair2.partition ∧ pair2.Clean ∧ 1 ≤ 2 ∧ m.offset % 128 = 0 ∧
      ctx1.OnHbm m.offset (128 * 2) ∧ w.offset % 8 = 0 ∧ ctx1.OnHbm w.offset 8 ∧ ctx1.OnWritable w.offset 8 ∧
      ctx1.OnHbm w.offset (List.replicate 8 1#8).length ∧ ctx1.OnWritable w.offset (List.replicate 8 1#8).length := by
  unfold State.Clean Ctx.OnHbm Ctx.OnWritable; decide +kernel
theorem witness_FabricReadsWritesAndAtomics_refused :
    let m := { hdr with job := 8 }
    pair2.ctxOfJob m.job = none ∧ (∀ e ∈ pair2.ctxs, e.2.lendJob ≠ m.job ∨ e.2.lendJob = 0) ∧
      pair2.ctxOfJob hdr.job = some (0, ctx1) ∧ { hdr with part := 63 }.part ≠ pair2.partition ∧ pair2.attempt = none ∧
      hdr.step ≠ 0 ∧ hdr.attempt < 256 ∧ hdr.step ≤ ctx1.step ∧ ctx1.step < { hdr with step := 5 }.step ∧
      assoc hdr.job pair2.retracted = none := by decide +kernel
theorem witness_AccAddGroupEndAndMulticast_region :
    let m := { hdr with step := 5, attempt := 0, offset := 3 }
    inStep.attempt = some att5 ∧ inStep.ctxOfJob m.job = some (0, ctx1) ∧ att5.plan.job = m.job ∧ att5.plan.step = m.step ∧
      att5.plan.attempt = m.attempt ∧ m.step ≠ 0 ∧ m.part = inStep.partition ∧
      inStep.regionDeclared m.job (m.offset % 2 ^ 16) = true ∧ (combineOf att5 (m.offset % 2 ^ 16)).rounded = false ∧
      (combineOf { att5 with combines := [⟨3, [], 0, 0, 0, true⟩] } (m.offset % 2 ^ 16)).rounded = true ∧
      ({ inStep with attempt := some { att5 with combines := [⟨3, [], 0, 0, 0, true⟩] } } : State).regionDeclared m.job 3 = true ∧
      inStep.canSeal = true ∧ ({ inStep with rst := { Rst.reset with active := [(.die 0, 0)] } } : State).canSeal = false := by
  decide +kernel
theorem witness_AccAddGroupEndAndMulticast_tree :
    let m := { hdr with step := 0 }
    m.step = 0 ∧ pair2.Clean ∧ pair2.nextTag < 2 ^ 32 ∧ pair2.ctxOfJob m.job = some (0, ctx1) ∧ List.replicate 128 1#8 ≠ [] ∧
      ctx1.OnHbm m.offset (List.replicate 128 1#8).length ∧ m.part = pair2.partition ∧
      ctx1.OnWritable m.offset (List.replicate 128 1#8).length ∧ 4 * 0 + 1 < [0, 1].length ∧ [0, 1].length ≤ 4 * 1 + 1 := by
  unfold State.Clean Ctx.OnHbm Ctx.OnWritable; decide +kernel

def sent (p : Purpose) (step : Nat) : Outst :=
  ⟨5, 1, some 0, 0, ⟨{ hdr with step := step }, .write []⟩, p, 0, false⟩

theorem witness_ResponsesAndTimeouts :
    let s (o : Outst) : State := { inStep with
      outst := [o], loads := [⟨1, 0, [], false, 2, stOk, 0, 0⟩], forwarding := [⟨hdr, [5]⟩, ⟨{ hdr with tag := 6 }, [5, 7]⟩],
      parked := [(some 3, ⟨hdr, .write []⟩)] }
    (∀ o ∈ [sent .step 5, sent (.load 1) 0, sent (.mcast 1 5) 0, sent (.mcast 1 6) 0],
      (s o).outst.find? (fun q => q.tag = 5 && q.dst = 1) = some o ∧ (s o).outst.find? (fun q => q.tag = 5) = some o) ∧
      (s (sent (.load 1) 0)).load? 1 = some ⟨1, 0, [], false, 2, stOk, 0, 0⟩ ∧
      (s (sent .step 5)).forwarding.find? (fun g => g.hdr.src = 1 && g.hdr.tag = 5) = some ⟨hdr, [5]⟩ ∧
      (s (sent .step 5)).forwarding.find? (fun g => g.hdr.src = 1 && g.hdr.tag = 6) = some ⟨{ hdr with tag := 6 }, [5, 7]⟩ ∧
      (s (sent .step 5)).attempt = some att5 ∧ att5.ctx = (sent .step 5).ctx ∧ (sent (.load 1) 0).req.hdr.step = 0 ∧
      (sent (.load 1) 0).reissued = false ∧ (sent .step 5).req.hdr.step ≠ 0 ∧
      (s (sent .step 5)).parked.find? (fun r => r.2.hdr.src = 1) = some (some 3, ⟨hdr, .write []⟩) ∧ (s (sent .step 5)).canSeal = true ∧
      ({ s (sent .step 5) with rst := { Rst.reset with active := [(.die 0, 0)] } } : State).canSeal = false ∧
      (sent (.line 0 9) 5).purpose = .line 0 9 ∧ inStep.ctx (sent .step 5).ctx = some ctx1 ∧ inStep.planned ctx1.job = true ∧
      (∀ q ∈ (s { sent (.load 1) 0 with plane := none }).outst, q.tag = 5 → q.plane = none) ∧
      (s (sent (.load 1) 0)).outst.find? (fun q => q.tag = 5 && q.plane.isSome) = some (sent (.load 1) 0) ∧ att5.todo = [] ∧ att5.ending = false ∧ (List.replicate 128 1#8).length = 128 ∧
      pair2.attempt = none := by decide +kernel
theorem witness_ResponsesAndTimeouts_lend :
    let q : Place := ⟨.epA, 0, 0, true, 1, false, 0, true, 1, 1, 2, none⟩
    let s : State := { pair2 with outst := [sent (.lend .epA 0 1) 0], places := [q] }
    s.outst.find? (fun q => q.tag = 5 && q.dst = 1) = some (sent (.lend q.path q.ctx q.first) 0) ∧ s.places = [q] ∧ q.fabric = true ∧
      q.started = true ∧ q.copying = none ∧ q.next = q.first ∧ q.last = q.first + 1 ∧ s.ctx q.ctx = some ctx1 ∧
      s.planned ctx1.job = false ∧ s.attempt = none ∧ s.swaps = [] ∧ entryHbm (ctx1.page q.first) = true := by decide +kernel

def shipOf (out : Bool) (desc : Nat) (offered : Bool) : Ship := { Ship.fresh shipName 0 out desc with offered := offered, committed := 300 }

/-- The ship's source is node 1 here, context 0, sequence 9; the sequence ships. -/
def shipping (h : Ship) : State :=
  { pair2 with ships := [h], ctxs := [(0, { ctx1 with seqs := [{ seq2 with state := .shipping }] })] }

theorem witness_ShipMessages_offer :
    let h := shipOf false 1 false
    let x := { ctx1 with seqs := [{ seq2 with state := .receiving }] }
    let s : State := { pair2 with ships := [h], ctxs := [(0, x)] }
    pair2.ship? shipName false = none ∧ s.ship? shipName false = some h ∧ s.ctx shipName.dstCtx = some x ∧ h.desc ≠ 0 ∧
      h.offered = false ∧ h.ended = none ∧ x.job = 7 ∧ x.seq? shipName.dstHandle = some { seq2 with state := .receiving } ∧
      seq2.closing = none ∧ ¬ x.job = 8 ∧ 511 + (some 1 : Option Nat).toList.length ≤ seq2.maxLen ∧
      seq2.maxLen < 512 + (some 1 : Option Nat).toList.length := by decide +kernel
theorem witness_ShipMessages_grant :
    let x := { ctx1 with pages := [(0, hbmEntry 0 true), (1, hbmEntry 1 true)] }
    let s : State := { pair2 with ctxs := [(0, x)] }
    let slots := [0, 1].flatMap fun j => x.planes.map fun lh => s.ptEntry x table2 (localIndex x.runLog2 s.members.length j) lh.1 lh.2
    s.ctxOfJob shipName.job = some (0, x) ∧ x.table? shipName.srcHandle = some table2 ∧ x.Sound ∧ s.Clean ∧ s.hbmPoison = [] ∧
      s.tableFaults = [] ∧ (∀ e ∈ slots, x.OnHbm (x.pageAddr e.page) x.pageSize) ∧ slots ≠ [] ∧ [7] ≠ [] := by
  unfold State.Clean Ctx.OnHbm Ctx.Sound; decide +kernel
theorem witness_ShipMessages_done :
    let h := shipOf true 1 true
    let g := shipOf false 1 true
    (shipping h).ship? shipName true = some h ∧ (shipping h).ctx shipName.srcCtx = some { ctx1 with seqs := [{ seq2 with state := .shipping }] } ∧
      h.desc ≠ 0 ∧ h.offered = true ∧ h.arrived = false ∧ (∀ e ∈ h.done, e.1 ≠ 1) ∧
      (shipping h).sourceMembers { ctx1 with seqs := [{ seq2 with state := .shipping }] } shipName h.committed = [0, 1] ∧
      (shipping g).ship? shipName false = some g ∧ g.ended = none := by decide +kernel
theorem witness_ShipMessages_ends :
    let d := anyDesc 0x10#32 .running
    let h := shipOf true 1 true
    let g := shipOf false 1 true
    let k := shipOf false 1 false
    (shipping h).ship? shipName true = some h ∧ (shipping h).ship? shipName false = none ∧ h.desc = d.id ∧ d.id ≠ 0 ∧ h.ended = none ∧
      (shipping h).desc? d.id = some d ∧ d.orphan = false ∧ (shipping h).Ready d.port d.pair ∧
      (shipping h).seq? shipName.srcCtx shipName.srcHandle = some { seq2 with state := .shipping } ∧ h.arrived = false ∧
      (shipping g).ship? shipName true = none ∧ (shipping g).ship? shipName false = some g ∧ g.desc = d.id ∧
      (shipping g).Ready d.port d.pair ∧ seq2.gen = some d.id ∧ g.offered = true ∧ g.arrived = false ∧ k.offered = false ∧
      (shipping k).ships = [k] ∧ (0 : Fin 64).val = shipName.dstCtx := by
  unfold State.Ready; decide +kernel

/-! ### Steps -/

/-- The step in flight while the seal agent's die is in reset. -/
def unsealing : State := { inStep with rst := { inStep.rst with active := [(.die 0, 0)] } }

/-- The plan of step 5 waits at the front. -/
def planned : State := { pair2 with plans := [plan5], opens := [] }

def passing (node : Nat) : SealMsg := { sealMsg with node := node, step := 5, attempt := 0 }

def refusing : SealMsg := { sealMsg with step := 5, attempt := 0, pass := false, faults := [⟨wholeCtx, 7, stFault⟩] }

theorem witness_StepStartsAndStages_start :
    planned.nextPlan = some plan5 ∧ pair2.nextPlan = none ∧ planned.ctxOfJob plan5.job = some (0, ctx1) ∧
      planned.mayStart plan5 ctx1 = true ∧
      (let s := { planned with sealsHeld := [passing 1] }
       ∀ m ∈ s.sealsHeld, (m.job = plan5.job && m.step = plan5.step && m.attempt = plan5.attempt) = true ∧ isRefusal m = false ∧
         m.pass = true) ∧ planned.parked = [] ∧ planned.retractsHeld = [] ∧ planned.Clean ∧ (∀ r ∈ plan5.rows, planned.isHome r.handle = true) ∧
      (∀ e ∈ ctx1.pages, entryFabric e.2 = false) ∧ (plan5.rows.map (·.handle)).Nodup ∧
      { planned with plans := [{ plan5 with start := 1 }] }.mayStart { plan5 with start := 1 } ctx1 = false := by
  unfold State.Clean; decide +kernel
theorem witness_StepStartsAndStages_refused :
    let s := { planned with sealsHeld := [refusing] }
    s.nextPlan = some plan5 ∧ s.ctxOfJob plan5.job = some (0, ctx1) ∧ s.mayStart plan5 ctx1 = true ∧ refusing ∈ s.sealsHeld ∧
      (refusing.job = plan5.job && refusing.step = plan5.step && refusing.attempt = plan5.attempt) = true ∧
      isRefusal refusing = true ∧ { refusing with faults := [] }.pass = false ∧
      (let u := { planned with retractsHeld := [⟨7, 5, 0, 1, stTimeout, 0, false⟩] }
       ∃ r ∈ u.retractsHeld, r.job = plan5.job ∧ r.step = plan5.step ∧ r.attempt = plan5.attempt) := by decide +kernel
theorem witness_StepStartsAndStages_stage :
    let a := { att5 with cycle := 100, windows := [0], bufs := [(0, .rows [FRow.of [1#32] false]), (1, .rows [FRow.of [2#32] false])] }
    let s := { inStep with attempt := some a }
    s.attempt = some a ∧ a.sealed = false ∧ s.ctx a.ctx = some ctx1 ∧ a.todo = [] ∧ a.ending = false ∧ a.wants = [] ∧ a.waits = false ∧
      a.lags = [] ∧ a.span.2 ≤ a.cycle ∧ (∀ iw ∈ a.windowsNow, iw.1 ∈ a.windows) ∧ s.coreOk a 7 47 = true ∧
      (∀ p ∈ [Work.input 3 [[1#32]], .vec (.float .add) 3 0 1 0 7 47, .vec (.float (.toFmt .e4m3)) 3 0 1 0 7 47,
        .vec (.int .add 1#32) 3 0 1 0 7 47], a.fits p = true) ∧
      (∀ n ∈ [0, 1, 0], a.unready n = false) ∧ a.heldRow 0 = false ∧ a.rowOn 47 0 = true ∧ s.bufRows 0 = [FRow.of [1#32] false] ∧ (FRow.of [1#32] false).cells.length = 1 ∧
      IntOp.add.residueOk 1#32 2#32 (IntOp.add.eval 1#32 2#32 ^^^ 1#32) = false ∧
      { a with sealed := true }.sealed = true := by decide +kernel
theorem witness_StepStartsAndStages_windows :
    let a := { att5 with cycle := 100 }
    let w := (jigWindows a.img).getD 0 []
    a.windowsNow.find? (fun iw => iw.1 = 0) = some (0, w) ∧ a.windowOver w = true ∧ { a with cycle := 1 }.windowOver w = false ∧
      a.windowsNow.find? (fun iw => iw.1 = 1) = none ∧ att5.windows.contains 0 = false ∧ att5.sealed = false ∧ a.todo = [] ∧
      a.ending = false ∧ (∀ t ∈ a.tiles, a.mayLeave t = false) ∧ a.layerNow = some 3 ∧ a.kindNow = some 1 ∧
      windowExpert a.img inStep.fuses.dies 3 0 = some 0 ∧ windowExpert a.img inStep.fuses.dies 3 1 = none ∧
      expertRec att5.img 3 = some ⟨0x00010003#32, 1#32, 0#32, 0#32, 0#32, 0#32, [0#32, 0#32]⟩ ∧
      0 < ExpertRec.experts ⟨0x00010003#32, 1#32, 0#32, 0#32, 0#32, 0#32, [0#32, 0#32]⟩ ∧
      (jigOperand att5.img 0).isSome = true ∧ inStep.ctx att5.ctx = some ctx1 ∧ inStep.members.Nodup ∧
      inStep.node ∈ inStep.inService ∧ { att5 with windows := [0] }.windows.contains 0 = true := by decide +kernel

/-- A tile of one output on core 47 of die 0, with its checker sum and count. -/
def tile (release : Release) (failed : Bool) (replays : List Nat) : Tile :=
  { die := 0, core := 47, bank := false, desc := 0, row := 0, col := 0, batch := [0], wide := false, outs := [[⟨5#168, false, false, 1⟩]],
    chk := [⟨5#176, false, 1⟩], invalid := [[false]], fmt := .fp32, release := release, failed := failed, passed := false, due := 0,
    replays := replays }

def tiled (t : Tile) : Attempt := { att5 with tiles := [t] }

theorem witness_CheckersAndReplays_check :
    let t := tile (.rows 2) false []
    let r : LenRow := ⟨2, 300, .decode, 1, [], 0, 0⟩
    ({ inStep with attempt := some (tiled t) } : State).ctx (tiled t).ctx = some ctx1 ∧
      (tiled t).tiles.findIdx? (fun t => t.on 0 47 && !t.failed && !t.passed) = some 0 ∧ (tiled t).undecided t = false ∧ t.due = 0 ∧
      { t with due := 1 }.due ≠ 0 ∧ inStep.openMoves (tiled t) = [] ∧ (tiled t).tiles[0]? = some t ∧
      (∀ r ∈ (t.seen []).zip t.chk, r.1 = [] ∨ rowPasses r.1 r.2 = true) ∧
      ¬ (∀ r ∈ (t.seen [(0, 0, 1)]).zip t.chk, r.1 = [] ∨ rowPasses r.1 r.2 = true) ∧
      (tiled t).todo = [] ∧ (tiled t).ending = false ∧ (jigOperand (tiled t).img t.desc).isSome = true ∧ t.release = .rows 2 ∧
      t.outs = [[⟨5#168, false, false, 1⟩]] ∧ t.invalid = [[false]] ∧ (tiled t).skips t = [] ∧
      (tile (.home 3 [(1, 0)]) false []).release = .home 3 [(1, 0)] ∧ (0 : Nat) = inStep.node ∧
      (combineOf (tiled t) 3).rounded = false ∧ (1 : Nat) ≠ inStep.node ∧
      { (tiled t).plan with rows := [r] }.rows[(⟨0, 0, 0, 0, 0, 0, false, 47, []⟩ : HalfWalk).seq]? = some r ∧ inStep.isHome 2 = true ∧
      inStep.isHome 9 = false := by decide +kernel
/-- One half of page 0 of an attention part here: its other half has not come, or has. -/
theorem witness_CheckersAndReplays_walk :
    let w (u : Bool) : HalfWalk := ⟨0, 0, 3, 0, 0, 0, u, 47, []⟩
    let r : LenRow := ⟨2, 300, .decode, 1, [], 0, 0⟩
    let t := tile (.walk (w false) .none) false []
    let a (ws : List HalfWalk) : Attempt := { tiled t with plan := { plan5 with rows := [r] }, walks := ws }
    (a []).plan.rows[(w false).seq]? = some r ∧ t.release = .walk (w false) .none ∧
      inStep.partDone { a [w false] with tiles := [] } ctx1 (w false) = none ∧
      (inStep.partDone { a [w true, w false] with tiles := [] } ctx1 (w false)).isSome = true := by decide +kernel
theorem witness_CheckersAndReplays_replay :
    ∀ replays ∈ [[], [3]], let t := tile (.rows 2) true replays
    (tiled t).tiles.findIdx? (fun t => t.on 0 47 && t.failed) = some 0 ∧ (tiled t).tiles[0]? = some t ∧ t.due = 0 ∧
      (tiled t).undecided t = false ∧ (jigOperand (tiled t).img t.desc).isSome = true ∧ t.release = .rows 2 ∧
      inStep.flash.history.length + 4 ≤ 65536 := by decide +kernel
theorem witness_CheckersAndReplays_held :
    ∀ goal ∈ [HeldFor.row 2 0, .reg 3071], let h : Held := ⟨0, 47, goal, FRow.of [3#32] false, []⟩
    let a := { att5 with held := [h] }
    a.tiles.findIdx? (fun t => t.on 0 47 && t.failed) = none ∧
      a.held.findIdx? (fun h => h.die = (0 : Fin 8).val && h.core = (47 : Fin 48).val) = some 0 ∧ a.held[0]? = some h ∧
      ({ inStep with attempt := some a } : State).ctx a.ctx = some ctx1 := by decide +kernel
theorem witness_CombineAndStall_round :
    let rows : List LenRow := [⟨2, 300, .decode, 1, [], 0, 0⟩]
    let k : Combine := ⟨3, [(0, ⟨5#168, false, false, 1⟩)], 2, 1, 1, false⟩
    let a := { att5 with plan := { plan5 with rows := rows }, combines := [k] }
    let e : ExpertRec := ⟨0x00010003#32, 1#32, 0#32, 0#32, 0#32, 0#32, [0#32, 0#32]⟩
    let s := { inStep with attempt := some a }
    s.attempt = some a ∧ s.ctx a.ctx = some ctx1 ∧ expertRec a.img 3 = some e ∧
      (jigOperand a.img e.downDesc).isSome = true ∧ combineOf a 3 = k ∧ k.rounded = false ∧
      k.markers = e.experts * s.members.length ∧ k.adds = k.due ∧ (s.homedRows a)[0]? = some (0, 0) ∧ a.kvFillAt 0 3 = false ∧
      combineOf att5 3 ≠ k ∧ (combineOf att5 3).markers ≠ e.experts * s.members.length ∧ a.todo = [] ∧
      a.ending = false := by decide +kernel
/-- An image whose schedule section of reductions is not empty. -/
def jigR : List Byte :=
  let dir := List.replicate 18 0#32 ++ [0x80#32, 48#32, 0xB0#32, 16#32, 0xC0#32, 16#32, 0#32, 0#32, 0xD0#32, 16#32]
  bytesOf (dir ++ List.replicate 4 0#32 ++ [0x40#32, 0x3F800000#32, 1#32, 1#32] ++ List.replicate 24 0#32)

/-- Where Config has the manual's reductions (log entry 24), one add of region 9 is all that it waits for. -/
theorem witness_CombineAndStall_region (h : Config.regions jigR = [(9, 0, 1)]) :
    let k : Combine := ⟨9, [(0, ⟨5#168, false, false, 1⟩)], 0, 1, 0, false⟩
    let a := { att5 with img := jigR, combines := [k] }
    expertRec a.img 9 = none ∧ (accRegions a.img).find? (fun r => r.1 = 9) = some (9, 0, 1) ∧
      (accRegions a.img).find? (fun r => r.1 = 8) = none ∧ (jigOperand a.img 0).isSome = true ∧ combineOf a 9 = k ∧ k.rounded = false ∧
      k.adds = 1 ∧ a.todo = [] ∧ a.ending = false ∧ (combineOf { a with combines := [] } 9).adds ≠ 1 := by
  have r : accRegions jigR = [(9, 0, 1)] := by
    have e : (jigSec jigR 5).isEmpty = false := by decide +kernel
    simp [accRegions, e, h]
  simp only [r]; decide +kernel
theorem witness_CombineAndStall_stall :
    65536 ≤ fld (pair2.reg (oStallLimit 7)) 23 0 ∧ fld (pair2.reg (oStallLimit 7)) 23 0 < 65537 ∧ pair2.attempt = none ∧
      inStep.attempt = some att5 ∧ inStep.canSeal = true ∧ unsealing.canSeal = false ∧ unsealing.attempt = some att5 := by decide +kernel

/-- The share of step 5 is done. -/
def done5 : Attempt := { att5 with stage := 1, cycle := 0, combines := [⟨3, [], 2, 0, 0, true⟩] }

theorem witness_SealsAndCommit_send :
    let s : State := { pair2 with attempt := some done5 }
    let b := { done5 with seals := [passing 1] }
    s.attempt = some done5 ∧ done5.sealed = false ∧ s.shareDone done5 = true ∧ s.shadowPending = false ∧ s.canSeal = true ∧ done5.failed = none ∧ unsealing.canSeal = false ∧
      { done5 with failed := some stTimeout }.failed ≠ none ∧
      ¬ (∀ n ∈ s.peers, ∃ m ∈ done5.seals, m.node = n ∧ m.pass = true) ∧ s.shareDone att5 = false ∧
      (∀ n ∈ s.peers, ∃ m ∈ b.seals, m.node = n ∧ m.pass = true) ∧ ({ pair2 with attempt := some b } : State).shareDone b = true := by
  decide +kernel

/-- The lone member, whose attempt wrote one line of a plain context. -/
def writing : Attempt := { att5 with img := [], writes := [(130, 7#8), (131, 8#8)] }
def lone : State := { live .epA with attempt := some writing }

theorem witness_SealsAndCommit_plain :
    lone.attempt = some writing ∧ writing.sealed = false ∧ lone.shareDone writing = true ∧ lone.shadowPending = false ∧ lone.canSeal = true ∧ writing.failed = none ∧
      lone.tableFaults = [] ∧ lone.dueFaults = [] ∧
      lone.ctxs = [(writing.ctx, ctx0)] ∧ lone.members = [lone.node] ∧ lone.lostNodes = [] ∧ writing.seals = [] ∧ lone.opens = [] ∧
      lone.ships = [] ∧ writing.faults = [] ∧ writing.plan.rows = [] ∧ writing.plan.train = none ∧ ctx0.state = .active ∧
      ctx0.teardown = none ∧ ctx0.poolPages = 0 ∧ ctx0.seqs = [] ∧ ctx0.tables = [] ∧ ctx0.copies = [] ∧ lone.edits = [] ∧
      lone.heldEdits = [] ∧ lone.unsent = [] ∧ lone.swaps = [] ∧ lone.places = [] ∧ lone.strict = [] ∧ lone.Clean ∧
      writing.writes ≠ [] ∧ (∀ w ∈ writing.writes, w.1 / 128 = 1) ∧ entryHbm (ctx0.page (pageOf (128 * 1))) = true := by
  unfold State.Clean; decide +kernel
theorem witness_SealsAndCommit_message :
    let sealed : Attempt := { done5 with sealed := true, seals := [passing 0] }
    let s (a : Attempt) : State := { pair2 with attempt := some a }
    (passing 2).node ∉ (s done5).inService ∧ attemptKey 3 1 < (s done5).attemptFloor 7 ∧ (s done5).attemptFloor 7 ≤ attemptKey 5 0 ∧
      { passing 1 with pass := false }.faults = [] ∧ isRefusal { passing 1 with pass := false } = false ∧ (passing 1).node ∈ (s done5).inService ∧ isRefusal (passing 1) = false ∧
      (passing 1).job = done5.plan.job ∧ (passing 1).step = done5.plan.step ∧ (passing 1).attempt = done5.plan.attempt ∧
      (∀ k ∈ done5.seals, k.node ≠ 1) ∧ (∀ k ∈ sealed.seals, k.node ≠ 1) ∧ sealed.sealed = true ∧
      (∀ n ∈ (s sealed).inService, ∃ k ∈ sealed.seals ++ [passing 1], k.node = n ∧ k.pass = true) ∧
      (∃ k ∈ sealed.seals, k.node = (passing 0).node) ∧ { passing 1 with step := 6 }.step ≠ done5.plan.step ∧
      attemptKey 5 0 ≤ attemptKey 6 0 ∧ (passing 1).node = { passing 1 with step := 6 }.node := by decide +kernel
theorem witness_SealsAndCommit_held :
    let s : State := { pair2 with attempt := some done5, shadowOpen := [⟨⟨0, 1, 0⟩, 0, 4⟩] }
    s.attempt = some done5 ∧ done5.sealed = false ∧ s.shareDone done5 = true ∧ s.shadowPending = true ∧ s.canSeal = true ∧
      (let u := { s with rst := unsealing.rst }
       u.canSeal = false ∧ u.shareDone done5 = true ∧ u.shadowPending = true) := by decide +kernel
theorem witness_RetractionsAndLoss_timeout :
    let a : Attempt := { done5 with sealed := true, seals := [passing 0] }
    let s : State := { pair2 with attempt := some a }
    let f : State := { s with members := [0, 1, 5], regs := (oFabNode, 1#32) :: s.regs.filter (·.1 != oFabNode) }
    s.attempt = some a ∧ a.sealed = true ∧ 1 ∈ s.peers ∧ (∀ m ∈ a.seals, m.node ≠ 1) ∧ s.isLead = true ∧ s.lead.retracted + 1 < 4 ∧
      s.degraded = false ∧ a.overran = false ∧ s.ctxs = [(a.ctx, ctx1)] ∧ f.isLead = false ∧ f.lead.retracted + 1 < 4 ∧
      s.tableFaults = [] ∧ s.heldEdits = [] ∧ s.Clean ∧ { ctx1 with tables := [] }.copies = [] ∧
      5 ∈ f.peers ∧ (∀ m ∈ a.seals, m.node ≠ 5) ∧ 4 ≤ { Lead.empty with retracted := 3 }.retracted + 1 ∧ ctx1.teardown = none ∧
      ctx1.destroyDesc = none ∧ 2 ∉ s.peers ∧ stTimeout ≠ stSuspect ∧ s.attemptFloor 7 ≤ attemptKey 5 0 := by
  unfold State.Clean; decide +kernel
/-- The context of a retracted step stays. -/
theorem witness_RetractionsAndLoss_survives :
    let a : Attempt := { done5 with sealed := true, seals := [passing 0] }
    let s : State := { pair2 with attempt := some a }
    ((next (.sealTimeout 1) s).ctx 0).map (·.teardown) = some none ∧ s.ctxs.map (·.1) = [0] := by decide +kernel
/-- The fourth retraction in a row of the step, and an overrun of its window with and without a larger bucket entry. -/
theorem witness_RetractionsAndLoss_replan :
    let x := { ctx1 with kind := 0, buckets := bytesOf ([0x00080580#32, 0x00100010#32, 16#32, 0#32, 0x00090580#32, 0x00100010#32, 16#32, 0#32] ++
      List.replicate 120 0#32) }
    let a : Attempt := { done5 with sealed := true, overran := true, seals := [passing 0] }
    let s : State := { pair2 with attempt := some a, ctxs := [(0, x)], lead := { Lead.empty with retracted := 3, retractedOf := (7, 5) } }
    s.lead.retractedOf = (a.plan.job, a.plan.step) ∧ 4 ≤ 1 + s.lead.retracted ∧ s.isLead = true ∧ s.canSeal = true ∧
      a.plan.train = none ∧ (x.overrunBucket a).map (·.jig) = some 5 ∧ ctx1.overrunBucket a = none ∧ s.lead.retractedOf ≠ (7, 6) ∧
      s.ctxs = [(a.ctx, x)] ∧ x.teardown = none ∧ x.destroyDesc = none ∧ unsealing.canSeal = false ∧ a.overran = true := by
  decide +kernel
theorem witness_RetractionsAndLoss_message :
    let m : RetractMsg := ⟨7, 9, 0, 1, stFault, 0, false⟩
    let p : SeqPast := ⟨0, 2, 4, 299, [42], 1⟩
    let s : State := { pair2 with past := [p] }
    pair2.namedAttempt m = none ∧ pair2.attemptFloor 7 ≤ attemptKey 9 0 ∧ attemptKey 4 0 < pair2.attemptFloor 7 ∧ m.cause ≠ stSuspect ∧ pair2.ctxOfJob 8 = none ∧ s.ctxOfJob 7 = some (0, ctx1) ∧
      s.strictOn 0 = false ∧ distinct ((s.past.filter fun p => p.ctx = 0 && 4 ≤ p.step && p.step ≤ 4).map (·.handle)) = [2] := by
  decide +kernel
theorem witness_RetractionsAndLoss_lost :
    1 ∈ pair2.peers ∧ 2 ∉ pair2.peers ∧ pair2.idle = true ∧ pair2.ctx 0 = some ctx1 ∧ ctx1.state = .active ∧ ctx1.teardown = none ∧
      ctx1.bookMatch = false ∧ (ctx1.seqs.map (·.handle)).Nodup ∧ ctx1.seq? 2 = some seq2 ∧ seq2.closing = none ∧
      (∀ d ∈ pair2.opens, hOpcode d.words ≠ opCheckpoint ∧ hOpcode d.words ≠ opRestore) ∧
      (∀ i < 1, memberOf ctx1.runLog2 (pair2.homeIdx 2) pair2.members.length i ≠ pair2.memberIndex 1) ∧ 256 * 1 < seq2.committed ∧
      memberOf ctx1.runLog2 (pair2.homeIdx 2) pair2.members.length 1 = pair2.memberIndex 1 := by decide +kernel

/-- A serving context with a bucket for its image, whose sequence its home reports. -/
def serving : State :=
  let x := { ctx1 with kind := 0, buckets := bytesOf ([0x00080580#32, 0x00100010#32, 16#32, 0#32] ++ List.replicate 124 0#32) }
  let r : Report := ⟨0, 7, 2, 0, 0, none, false, [], [⟨2, 0, some .decode, false, 0, 1, 300, 0, 1, 0, 0, 0⟩], [], [], none, none⟩
  { pair2 with ctxs := [(0, x)], lead := { Lead.empty with reports := [r], admitted := [(7, 2)] } }

/-- The training context of `pair2` with a waiting step. -/
def training : State :=
  { pair2 with lead := { Lead.empty with trains := [⟨0, 7, 1, .train (List.replicate 12 0#32)⟩] } }

theorem witness_Planning_plan :
    (∀ s ∈ [serving, training], s.idle = true ∧ s.isLead = true ∧ s.degraded = false ∧ s.lead.replan = none) ∧
      (serving.chooseCtx.map fun e => (e.1, e.2.kind)) = some (0, 0) ∧ (training.chooseCtx.map fun e => (e.1, e.2.kind)) = some (0, 1) ∧
      training.lead.trains.all (fun f => match f.what with | .train _ => true | _ => false) = true ∧ (up .epA).chooseCtx = none ∧
      (let s : State := { serving with attempt := some { att5 with loaded := true } }
       (s.attempt.map s.atPlanPoint).getD false = true ∧ s.plans.isEmpty = true ∧ s.isLead = true ∧ s.chooseCtx.isSome = true) ∧
      (∀ s ∈ [serving, training], s.Clean ∧ s.hbmPoison = []) := by unfold State.Clean; decide +kernel
theorem witness_Planning_members :
    (pair2.departed = false ∧ pair2.attemptFloor plan5.job ≤ attemptKey plan5.step plan5.attempt ∧
      pair2.activeOfJob plan5.job = some (0, ctx1) ∧ ctx1.jig? plan5.slot = some jig0 ∧ jigDigest jig0 = plan5.digest ∧
      pair2.degraded = false ∧ pair2.lastJob = 0 ∧ pair2.attempt = none ∧ pair2.plans = [] ∧ { ctx1 with step := 0 }.step = 0) ∧
      (ctx1.jig? { plan5 with slot := 6 }.slot = none ∧ pair2.ctx 0 = some ctx1 ∧ ctx1.teardown = none ∧ ctx1.destroyDesc = none ∧
        pair2.canSeal = true ∧ { pair2 with rst := unsealing.rst }.canSeal = false) ∧
      ¬ pair2.attemptFloor plan5.job ≤ attemptKey 4 255 ∧
      ((up .epA).departed = false ∧ (up .epA).attemptFloor plan5.job ≤ attemptKey plan5.step plan5.attempt ∧
        (up .epA).activeOfJob plan5.job = none) := by decide +kernel
theorem witness_Planning_reports :
    let r : Report := ⟨1, 7, 0, 0, 0, none, false, [], [], [], [], none, none⟩
    r.edits = [] ∧ r.copying = none ∧ r.mask = none ∧ (maskReport 5 3).mask = some 3 ∧ follower.leadNode = some 5 ∧ follower.idle = true ∧
      inStep.leadNode ≠ some 5 ∧ follower.isLead = false ∧ pair2.isLead = true ∧
      pair2.idle = true ∧ inStep.isLead = true ∧ inStep.idle = false ∧
      (let s := { inStep with members := [1, 0], regs := (oFabNode, 0#32) :: inStep.regs }
       s.isLead = false ∧ s.planned 7 = true ∧ (s.ctxOfJob 7).isSome = true) ∧ [(7, Edit.close 2 false)] ≠ [] := by decide +kernel
theorem witness_Planning_depart :
    let d : Desc := { anyDesc 0xFFFF0060#32 (.boundary false) with words := [0xFFFF0060#32, 0#32, 4#32] ++ List.replicate 13 0#32 }
    let s : State := { opened d with ctxs := [], members := [0, 1] }
    s.ctxs = [] ∧ s.idle = true ∧ s.opens = [d] ∧ hOpcode d.words = opDiag ∧ hObject d.words = 4 ∧ d.phase = .boundary false ∧
      d.orphan = false ∧ hContext d.words = 0xFFFF ∧ s.Ready d.port d.pair ∧
      ({ s with attempt := some att5 } : State).idle = false := by
  unfold State.Ready; decide +kernel

theorem witness_ShadowAndContexts_compare :
    let u : UnitName := ⟨7, 1, 47⟩
    let v : UnitName := ⟨7, 1, 0⟩
    let h : HeldInputs := ⟨0, plan5, [], [], [], [], 0, []⟩
    let s : State := { pair2 with
      shadowOpen := [⟨u, 0, 5⟩, ⟨⟨7, 5, 6⟩, 0, 5⟩, ⟨⟨7, 5, 5⟩, 0, 5⟩], opens := [], heldInputs := [h], shadowMarks := [⟨u, 0, 3, true⟩] }
    s.shadowOpen.find? (fun o => o.unit = u && o.step = 5) = some ⟨u, 0, 5⟩ ∧
      s.shadowOpen.find? (fun o => o.unit = u && o.step = 6) = none ∧ (∀ e ∈ s.ctxs, e.2.state = .active ∧ e.2.teardown = none) ∧
      s.opens = [] ∧ s.dueFaults = [] ∧ s.places = [] ∧ s.flash.history.length + 2 * [v].length + 2 ≤ 65536 ∧ ¬ (u.kind = 5 ∧ u.unit = 6) ∧
      s.shadowOpen.find? (fun o => o.unit = ⟨7, 5, 6⟩ && o.step = 5) = some ⟨⟨7, 5, 6⟩, 0, 5⟩ ∧
      s.shadowOpen.find? (fun o => o.unit = ⟨7, 5, 5⟩ && o.step = 5) = some ⟨⟨7, 5, 5⟩, 0, 5⟩ ∧ v.kind = 1 ∧ v.die = u.die ∧ v ≠ u ∧
      Third.neither ≠ .original ∧ s.lastFailed u = true ∧ s.classed u = false ∧ s.heldInput 0 5 = some h := by decide +kernel
theorem witness_ShadowAndContexts_copy :
    let k : Copy := ⟨2, 1, [1], none, false, false⟩
    let x := { ctx1 with copies := [k, { k with page := 0, abandoned := true }] }
    let s : State := { pair2 with ctxs := [(0, x)] }
    let e := s.ptEntry x table2 (localIndex x.runLog2 s.members.length 1) 0 0
    pair2.ctx 63 = none ∧ s.ctx 0 = some x ∧ x.copies.find? (fun k => k.handle = 2 && k.page = 1 && !k.done && !k.new.isEmpty) = some k ∧
      x.copies.find? (fun k => k.handle = 2 && k.page = 0 && !k.done && !k.new.isEmpty) =
        some { k with page := 0, abandoned := true } ∧ s.tableFaults = [] ∧
      x.OnHbm x.tableBase (x.tableEnd - x.tableBase) ∧ s.hbmPoison = [] ∧
      k.abandoned = false ∧ x.table? 2 = some table2 ∧ x.planes = [(0, 0)] ∧ k.new = [1] ∧ s.Clean ∧
      e.page < x.poolPages ∧ 1 < x.poolPages ∧ x.poolBase % 128 = 0 ∧ x.OnHbm x.poolBase (x.poolPages * x.pageSize) ∧
      x.OnWritable (x.pageAddr 1) x.pageSize := by
  unfold State.Clean Ctx.OnHbm Ctx.OnWritable; decide +kernel
theorem witness_ShadowAndContexts_release :
    let d := anyDesc 0x02#32 .waiting
    let torn (st : Nat) (k : Option Nat) : Ctx := { ctx1 with teardown := some st, destroyDesc := k }
    let s (x : Ctx) (os : List Desc) : State := { pair2 with ctxs := [(0, x)], opens := os }
    (s ctx1 []).ctx 0 = some ctx1 ∧ ctx1.teardown = none ∧ (s (torn stFault none) []).ctx 0 = some (torn stFault none) ∧
      (s (torn stFault none) []).opens = [] ∧ stFault ≠ stCancelled ∧ (s (torn stFault none) []).places = [] ∧
      (s (torn stFault none) []).canRelease 0 (torn stFault none) = true ∧
      ({ s (torn stFault none) [] with attempt := some att5 } : State).canRelease 0 (torn stFault none) = false ∧
      (s (torn stCancelled (some 1)) [d]).opens = [d] ∧ d.isFence = false ∧
      (s (torn stCancelled (some 1)) [d]).canRelease 0 (torn stCancelled (some 1)) = true ∧ d.id = 1 ∧ d.orphan = false ∧
      (s (torn stCancelled (some 1)) [d]).Ready d.port d.pair ∧ ∀ k < 8, (s (torn stCancelled (some 1)) [d]).presValid k = false := by
  unfold State.Ready; decide +kernel
theorem witness_ShadowAndContexts_quarantine :
    pair2.ctx 63 = none ∧ pair2.ctx 0 = some ctx1 ∧ inStep.planned ctx1.job = true ∧ pair2.planned ctx1.job = false ∧
      (∀ o ∈ pair2.replaysOpen, o.ctx ≠ 0) ∧ (∀ p < ctx1.poolPages, pair2.pageRead 0 ctx1 p = false) ∧ pair2.Clean ∧
      ctx1.OnHbm ctx1.tableBase (ctx1.tableEnd - ctx1.tableBase) ∧ pair2.tableFaults = [] ∧ pair2.hbmPoison = [] ∧ ctx1.OnWritable ctx1.tableBase (16 * ctx1.poolPages) ∧
      (∃ o ∈ ({ pair2 with shadowOpen := [⟨⟨0, 1, 0⟩, 0, 4⟩] } : State).replaysOpen, o.ctx = 0) := by
  unfold State.Clean Ctx.OnHbm Ctx.OnWritable; decide +kernel
theorem witness_ShadowAndContexts_switch :
    let s : State := { planned with lastJob := 6 }
    s.attempt = none ∧ (∀ o ∈ s.replaysOpen, o.unit.die ≠ 7) ∧ s.lastJob ≠ 0 ∧ s.nextPlan = some plan5 ∧ s.lastJob ≠ plan5.job ∧
      planned.lastJob = 0 := by decide +kernel

/-- Word 0 of the line that scrub reads next in the last pseudo-channel of die 7 has one, two or three bits in error. -/
def flipped (m : Nat) : State := { up .epA with hbmFlips := [(lineKey 7 (lineAt 63 0), m)] }

theorem witness_ScrubAndGauges_scrub :
    State.reset.scrubs 7 = false ∧ (up .epA).scrubs 7 = true ∧ bit ((up .epA).reg oInject) 31 = false ∧ (up .epA).hbmFlips = [] ∧
      flipCount 1 = 1 ∧ flipCount 3 = 2 ∧ flipCount 7 = 3 ∧ (flipped 7).scrubs 7 = true ∧
      (flipped 7).hbmFlips = [(lineKey 7 (lineAt 63 (peek 0 (flipped 7).scrub 7)), 7)] ∧ (flipped 7).service = true ∧
      (flipped 7).flash.history.length < 65536 ∧
      ({ flipped 7 with boot := { (flipped 7).boot with ready := false } } : State).service = false := by decide +kernel
theorem witness_ScrubAndGauges_gauges :
    let s := up .epA
    let b := s.setRegBit oClkSrc 8 true
    s.dead = false ∧ { s with pkg := .off }.dead = true ∧ s.rst.clockHold.contains .xa = false ∧ s.refXb = false ∧ b.refXb = true ∧
      b.dead = false ∧ { s with rst := { s.rst with clockHold := [.pll 7 1] } }.rst.clockHold.contains (.pll 7 1) = true ∧
      s.inReset .cold = false ∧ 7 < s.fuses.dies ∧ s.islandRuns 7 47 = true ∧ s.islandRuns 7 70 = true ∧ s.islandRuns 7 74 = false ∧
      s.attempt = none ∧ s.hung.contains (7 * 128 + 70) = false ∧ s.flash.history.length < 65535 ∧
      s.rst.clockHold.contains (.pll 7 0) = false ∧ inStep.islandRuns 0 0 = true ∧ inStep.dead = false ∧ inStep.canSeal = true ∧ unsealing.islandRuns 1 0 = true ∧
      unsealing.canSeal = false ∧ unsealing.attempt = some att5 := by decide +kernel

/-! ### Descriptors -/

/-- A descriptor of context 0 with its opcode, OBJECT and body. -/
def sub (op object : Word) (body : List Word) : Submission := descr op 0#32 object 0#32 body []

/-- What R301's checks of a submission come to. -/
def passes (s : State) (u : Submission) (op : Nat) (fn : Option Nat) : Bool :=
  let ws := rowWords op fn u.words
  (s.headerFault u.port u.pair.val ws).isNone && (s.contextStatus ws).isNone && (ownFault ws).isNone

/-- SEQ_PARAMS of draw fields at their default: TOP_P and REP_PEN are 1.0. -/
def drawBody : List Word := [0#32, 0#32, 0x3F800000#32, 0#32, 0x3F800000#32]

/-- KV_SHIP and KV_ACCEPT between sequence 2 of context 0 here and sequence 2 of context 63 of node 4095. -/
def farBody : List Word := [0x003F0FFF#32, 2#32]

theorem witness_DescriptorsWait :
    pair2.linkUp .a = true ∧ pair2.service = true ∧ pair2.recovery = false ∧ pair2.pairServed .a 0 = true ∧ pair2.opensWf = true ∧
      pair2.ctx 0 = some ctx1 ∧ pair2.isHome 2 = true ∧ pair2.isHome 9 = false ∧ pair2.Ready .a 0 := by
  unfold State.Ready; decide +kernel
theorem witness_DescriptorsWait_rows :
    passes pair2 (sub 0x12#32 2#32 []) opSeqCancel none = true ∧ passes pair2 (sub 0x13#32 9#32 []) opSeqClose none = true ∧
      passes pair2 (sub 0x21#32 2#32 [1#32]) opPageUnmap none = true ∧ passes pair2 (sub 0x22#32 2#32 farBody) opKvShip none = true ∧
      passes pair2 (sub 0x23#32 2#32 (farBody ++ [4194304#32])) opKvAccept none = true ∧
      passes pair2 (sub 0x14#32 2#32 drawBody) opSeqParams none = true ∧
      passes pair2 (sub 0x20#32 2#32 [3#32, 0#32, 0x00010000#32, 256#32]) opPageMap none = true ∧
      passes pair2 (sub 0x10#32 2#32 [0#32, 0#32, 0#32, 4194304#32]) opSeqOpen none = true ∧
      passes pair2 (sub 0x11#32 2#32 []) opSeqAppend none = true ∧ fieldAt (sub 0x10#32 2#32 []).words 0x18 22 0 = 0 := by
  decide +kernel
theorem witness_DescriptorsWait_buffers :
    let biases := sub 0x14#32 2#32 [0x00010001#32, 0#32, 0#32]
    let map := sub 0x20#32 2#32 [0#32, 1#32, 0x00010000#32, 256#32, 0#32, 0#32]
    let jig := descr 0x04#32 0#32 0x100#32 512#32 [0x1000#32] []
    let zeros (n : Nat) : List Word := wordsOf ((List.range n).map fun i => pair2.ctxByte ctx1 i)
    passes pair2 biases opSeqParams none = true ∧ fieldAt biases.words 0x10 1 0 ≠ 0 ∧ fieldAt biases.words 0x10 3 2 ≠ 2 ∧
      8 * fieldAt biases.words 0x10 26 16 = 8 ∧ ctx1.OnHbm 0 8 ∧ (∀ e ∈ biasPairs (zeros 8), finite32 e.2 = true) ∧
      8 * fieldAt (sub 0x14#32 2#32 [1#32]).words 0x10 26 16 = 0 ∧ passes pair2 (sub 0x14#32 2#32 [1#32]) opSeqParams none = true ∧
      passes pair2 map opPageMap none = true ∧ fieldAt map.words 0x14 1 0 ≠ 0 ∧
      4 * ((pair2.mapNeed ctx1 2 0 1).length * ctx1.perPage) = 4 ∧ ctx1.OnHbm 0 4 ∧ pair2.Clean ∧
      passes pair2 jig opJigLoad none = true ∧ ctx1.jigRefused jig.words = false ∧ hLength jig.words = 512 ∧ ctx1.OnHbm 0x1000 512 ∧
      (∀ i < 512, pair2.ctxPoison ctx1 (0x1000 + i) = false) ∧ pair2.hbmPoison = [] ∧ imageFault pair2 ctx1 jig.words (List.replicate 512 0#8) = none := by
  unfold State.Clean Ctx.OnHbm; decide +kernel
theorem witness_DescriptorsWait_policies :
    passes pair2 (sub 0x30#32 0#32 [0#32, 0x40002000#32, 0x40002000#32, 0xFFFF#32]) opStepPolicy none = true ∧
      passes pair2 (sub 0x30#32 0#32 [1#32, 0x3FF#32, 0x2000#32]) opStepPolicy none = true ∧
      passes pair2 (sub 0x31#32 0#32 [0xFFFF0020#32]) opBenchSplit none = true ∧
      passes pair2 (sub 0x50#32 0#32 [6#32]) opTrainStep none = true ∧ ctx1.kind = 1 ∧
      passes inStep (sub 0x41#32 0#32 [0#32, 0#32, 0#32, 0#32, 0#32, 1#32]) opCheckpoint none = true ∧
      passes inStep (sub 0x42#32 0#32 [0#32, 0#32, 0#32, 0#32, 0#32, 1#32]) opRestore none = true ∧ inStep.planned ctx1.job = true ∧
      inStep.pairServed .a 0 = true := by decide +kernel
theorem witness_DescriptorsWait_train :
    let img := bytesOf (List.replicate 20 0#32 ++ [0x80#32, 16#32] ++ List.replicate 10 0#32 ++ [5#32, 0#32, 0#32, 0#32])
    { ctx1 with jigs := [(6, img)] }.jig? 6 = some img ∧ (jigStageTable img).map stKind = [5] := by decide +kernel

/-- One open descriptor that waits for the boundary of an idle context whose sequence is in a state. -/
def quiet (st : SeqState) (op object : Word) (body buf : List Word) : Desc × Ctx × State :=
  let d : Desc := ⟨1, .a, 0, (sub op object body).words, buf, false, .boundary false, false⟩
  let x := { ctx1 with seqs := [{ seq2 with state := st, gen := some 7 }],
                       tables := [{ table2 with pages := 1 }, { table2 with handle := 3, base := 0x120000, pages := 1 }],
                       pages := [(0, hbmEntry 0 true), (1, hbmEntry 1 true)], jigFrames := [3] }
  (d, x, { opened d with ctxs := [(0, x)] })

/-- The hypotheses of `State.Quiet` on such a state. -/
theorem witness_DescriptorsTakeEffect_quiet :
    let r := quiet .decode 0x12#32 2#32 [] []
    r.2.2.Quiet 0 r.2.1 r.1 := by
  refine ⟨?_, ⟨false, rfl⟩, rfl, by decide⟩
  unfold State.Lone Ctx.Sound State.Clean State.Ready; decide +kernel
theorem witness_DescriptorsTakeEffect_open :
    let r := quiet .decode 0x10#32 4#32 [0#32, 0#32, 1#32, 0x04000200#32, 8#32] [42#32]
    hOpcode r.1.words = opSeqOpen ∧ hObject r.1.words = 4 ∧ r.2.1.seq? 4 = none ∧ r.2.2.homed < 65536 ∧ r.1.buf.map (·.toNat) ≠ [] ∧
      (r.1.buf.map (·.toNat)).length ≤ r.1.fields.maxLen ∧ r.1.fields.generate = true ∧
      r.2.2.poolCovers r.2.1 4 r.1.fields.maxLen = true ∧ r.2.1.queued + 1 ≤ 16777216 ∧
      (let a := quiet .decode 0x23#32 4#32 (farBody ++ [0x200#32]) []
       hOpcode a.1.words = opKvAccept ∧ a.2.1.seq? 4 = none ∧ a.2.2.homed < 65536 ∧
         a.2.2.poolCovers a.2.1 4 a.1.fields.maxLen = true) := by decide +kernel
/-- Sequence 2 once its turn has ended. -/
def ready2 : Seq := { seq2 with state := .ready, gen := some 7 }

theorem witness_DescriptorsTakeEffect_append :
    let r := quiet .ready 0x11#32 2#32 [0#32, 0#32, 1#32, 0x04000000#32, 8#32] [43#32]
    hOpcode r.1.words = opSeqAppend ∧ r.2.1.seq? 2 = some ready2 ∧ ready2.queue ++ r.1.buf.map (·.toNat) ≠ [] ∧
      ready2.committed + (ready2.queue ++ r.1.buf.map (·.toNat)).length ≤ ready2.maxLen ∧ r.2.1.queued + 1 ≤ 16777216 := by
  decide +kernel
theorem witness_DescriptorsTakeEffect_sequence :
    (∀ op, (quiet .ready op 2#32 [] []).2.1.seq? 2 = some ready2 ∧ (quiet .ready op 5#32 [] []).2.1.seq? 5 = none) ∧
      ready2.autoClose = false := ⟨fun _ => ⟨rfl, rfl⟩, rfl⟩
theorem witness_DescriptorsTakeEffect_cancel :
    (quiet .shipping 0x12#32 2#32 [] []).2.1.seq? 2 = some { ready2 with state := .shipping } ∧
      (quiet .prefill 0x12#32 2#32 [] []).2.1.seq? 2 = some { ready2 with state := .prefill } := by decide +kernel
theorem witness_DescriptorsTakeEffect_params :
    fieldAt (quiet .ready 0x14#32 2#32 drawBody []).1.words 0x10 1 0 = 0 ∧
      fieldAt (quiet .ready 0x14#32 2#32 [1#32] []).1.words 0x10 1 0 ≠ 0 := by decide +kernel
theorem witness_DescriptorsTakeEffect_map :
    let r := quiet .ready 0x20#32 2#32 [3#32, 0#32, 0x00010000#32, 256#32] []
    let td := { table2 with committed := 0, pages := 1 }
    let ts := { table2 with handle := 3, base := 0x120000, pages := 1 }
    let qs := { seq2 with handle := 3, state := .ready, gen := none }
    let x := { r.2.1 with tables := [td, ts], seqs := [{ ready2 with committed := 0 }, qs] }
    let s := { r.2.2 with ctxs := [(0, x)] }
    fieldAt r.1.words 0x14 1 0 = 0 ∧ x.table? 2 = some td ∧ x.table? (wordAt r.1.words 0x10).toNat = some ts ∧
      td.committed = 256 * fieldAt r.1.words 0x18 15 0 ∧ fieldAt r.1.words 0x1C 22 0 ≤ table2.committed ∧
      fieldAt r.1.words 0x1C 22 0 % 256 = 0 ∧ x.seq? (wordAt r.1.words 0x10).toNat = some qs ∧
      fieldAt r.1.words 0x18 31 16 = 1 ∧ x.mappers 0 (qs.rootAt 0) < 65535 ∧ s.tablesCover x { ready2 with committed := 0 } 0 1 = true ∧
      s.members = [s.node] ∧ (wordAt r.1.words 0x10).toNat ≠ 2 ∧
      ∀ j ∈ s.mapNeed x 2 (fieldAt r.1.words 0x18 15 0) (fieldAt r.1.words 0x18 31 16), localIndex x.runLog2 1 j < td.pages ∧
        ∀ lh ∈ x.planes, let e := s.ptEntry x ts (localIndex x.runLog2 1 j) lh.1 lh.2
          e.page < x.poolPages ∧ (s.pageDesc x e.page).refs < 65535 := by
  decide +kernel
theorem witness_DescriptorsTakeEffect_jig :
    let r := quiet .ready 0x04#32 6#32 [] (List.replicate 128 0#32)
    let d := { r.1 with words := r.1.words.set 3 512#32 }
    hOpcode d.words = opJigLoad ∧ hObject d.words ≠ bucketSlot ∧ r.2.1.jigRefused d.words = false ∧
      r.2.1.jigRoom (some 6) d.image.length = some 2 ∧
      (let b := (quiet .ready 0x04#32 0x100#32 [] (List.replicate 128 0#32)).1
       hOpcode b.words = opJigLoad ∧ hObject b.words = bucketSlot ∧ r.2.1.jigRefused b.words = false ∧
         (r.2.1.jigRoom (some bucketSlot) b.image.length).isSome = true) := by decide +kernel
/-- A lone descriptor whose ship, out or in, has heard one thing since the last boundary. -/
def shippingAt (out : Bool) (k : ShipNews) : Desc × Ctx × Ship × State :=
  let r := quiet .ready (if out then 0x22#32 else 0x23#32) 2#32 farBody []
  let d := { r.1 with phase := .waiting }
  let q := { seq2 with state := if out then .shipping else .receiving, gen := if out then none else some 1 }
  let x := { r.2.1 with seqs := [q] }
  let h := { Ship.fresh shipName 0 out 1 with offered := true, accepted := true, pending := some 42, committed := 300, news := [(k, false)] }
  (d, x, h, { opened d with ctxs := [(0, x)], ships := [h] })

theorem witness_ShipMessages_boundary :
    ∀ e ∈ [(true, ShipNews.accepted), (true, .ends stDenied stDenied 0), (false, .arrived), (false, .ends stTimeout stTimeout 0)],
      let r := shippingAt e.1 e.2
      r.2.2.2.Shipping 0 r.2.1 r.1 r.2.2.1 e.2 ∧ r.2.2.1.out = e.1 ∧ r.2.2.1.accepted = true ∧ r.2.2.1.pending = some 42 ∧
        r.2.1.seq? 2 = some { seq2 with state := if e.1 then .shipping else .receiving, gen := if e.1 then none else some 1 } := by
  have w (k : ShipNews) : ∃ late : Bool, [(k, false)] = [(k, late)] := ⟨false, rfl⟩
  intro e he
  simp only [List.mem_cons, List.not_mem_nil, or_false] at he
  unfold State.Shipping State.Lone Ctx.Sound State.Clean State.Ready
  rcases he with rfl | rfl | rfl | rfl <;> refine ⟨⟨by decide +kernel, rfl, rfl, rfl, rfl, rfl, rfl, w _⟩, rfl, rfl, rfl, rfl⟩
theorem witness_DescriptorsTakeEffect_policy :
    let s (f : Forward) : State := { (quiet .ready 0x30#32 0#32 [] []).2.2 with forwards := [⟨0, 7, 1, f⟩] }
    ∀ f ∈ [Forward.limits policyDefault, .bench benchDefault, .train []], (s f).isLead = true ∧ (s f).node = 0 ∧ ctx1.job = 7 ∧
      (s f).forwards = [⟨(s f).node, ctx1.job, 1, f⟩] := by decide +kernel

/-- The record of a plain serving context: no KV pool and no speculation. -/
theorem witness_DescriptorsActAtOnce_create :
    let u : Submission := sub 0x003F0001#32 0#32 [0x1000#32, 0#32, 8#32, 1#32, 0x00010001#32]
    let ws := rowWords opCtxCreate none u.words
    let s : State := { pair2 with opens := [] }
    passes s u opCtxCreate none = true ∧ s.ctx 63 = none ∧ (∀ e ∈ s.ctxs, e.2.job ≠ 8 ∧ e.2.lendJob ≠ 8) ∧ hContext ws = 63 ∧
      fieldAt ws 0x18 15 0 = 8 ∧ fieldAt ws 0x18 17 16 < 2 ∧
      hostWords u.host (addrAt ws 0x10 0x14) 96 = some (List.replicate 96 0#32) ∧ recordOk (List.replicate 96 0#32) 0 1 0 0 = true ∧
      s.preserved = [] ∧ s.fuses.dies ≤ 8 ∧ 1 + 1 ≤ s.freeTotal ∧
      passes s (sub 0x01#32 0#32 [0x1000#32, 0#32, 7#32, 1#32, 0x00010001#32]) opCtxCreate none = true := by decide +kernel
theorem witness_DescriptorsActAtOnce_destroy :
    let s : State := { pair2 with opens := [] }
    passes s (sub 0x02#32 0#32 []) opCtxDestroy none = true ∧ s.ctx 0 = some ctx1 ∧ ctx1.state = .active ∧ ctx1.teardown = none ∧
      s.places = [] ∧ s.planned ctx1.job = false ∧ s.opens = [] ∧ (∀ o ∈ s.replaysOpen, o.ctx ≠ 0) ∧
      inStep.planned ctx1.job = true ∧ (∀ e ∈ inStep.opens, e.isFence = false) ∧ (∀ f ∈ inStep.dueFaults, f.1 ≠ 0) ∧
      passes inStep (sub 0x02#32 0#32 []) opCtxDestroy none = true := by decide +kernel
theorem witness_DescriptorsActAtOnce_load :
    let u := descr 0x03#32 0#32 0#32 128#32 [0#32, 0x1000#32] []
    passes pair2 u opLoad none = true ∧ fieldAt u.words 0x10 1 0 = 0 ∧
      hostRead u.host (addrAt u.words 0x14 0x18) (hLength u.words) = some (List.replicate 128 0#8) ∧
      (let v := descr 0x03#32 0#32 0#32 128#32 [0#32, 0x1000#32, 0#32, 0#32, 0#32, 0x00020000#32, 0x100#32, 0#32] []
       passes pair2 v opLoad none = true ∧ 4 * fieldAt v.words 0x24 31 16 = 8 ∧ addr48 v.words 0x28 0x2C = 0x100 ∧ ctx1.OnHbm 0x100 8 ∧
         pair2.Clean ∧ (∀ i < 8, pair2.ctxPoison ctx1 (0x100 + i) = false)) := by
  unfold State.Clean Ctx.OnHbm; decide +kernel
theorem witness_DescriptorsActAtOnce_fence :
    let s (p : Phase) : State :=
      { pair2 with opens := [⟨1, .a, 0, (sub 0x10#32 2#32 [0#32, 0#32, 1#32, 0x04000200#32, 8#32]).words, [], false, p, false⟩] }
    passes (s .running) (sub 0xFFFF0040#32 0#32 [1#32]) opFence none = true ∧ (∀ e ∈ (s .running).opens, e.isFence = false) ∧
      (∀ e ∈ (s .running).opens, e.effective = true) ∧ (∃ e ∈ (s (.boundary false)).opens, e.effective = false) := by decide +kernel
theorem witness_DescriptorsActAtOnce_transfer :
    let s : State := { pair2 with opens := [], hbmPoison := [] }
    let t := s.setReg oTgtStat 0x80000000#32
    let ck := sub 0x41#32 0#32 [15#32, 1#32, 0#32, 0#32, 0#32, 1#32]
    let rs := sub 0x42#32 0#32 [15#32, 1#32, 0#32, 0#32, 0#32, 1#32]
    passes s ck opCheckpoint none = true ∧ passes s rs opRestore none = true ∧ s.planned ctx1.job = false ∧ ctx1.holdDesc = none ∧
      s.opens = [] ∧ s.connected 15 = false ∧ t.connected 15 = true ∧ fieldAt ck.words 0x10 3 0 = 15 ∧
      xferFirst ck.words = 0 ∧ xferPages ck.words = 1 ∧ ctx1.writeFault 0 (2 ^ 21) true = none ∧ t.hbmPoison = [] ∧ t.Clean ∧
      ctx1.OnHbm 0 (2 ^ 21) ∧ ctx1.teardown = none ∧ t.stor = [] ∧ t.eth.alive = [] ∧ t.tgtPaused 15 = false := by unfold State.Clean Ctx.OnHbm; decide +kernel
theorem witness_DescriptorsActAtOnce_diag :
    let s : State := { pair2 with flash := { Flash.reset with history := [⟨1, 0, 5, 6, 0, 0, false⟩] } }
    passes s (sub 0x60#32 1#32 [0#32, 0#32, 16#32, 0#32]) opDiag (some 1) = true ∧
      window 0 (16 / 16) s.flash.history ≠ [] ∧ passes s (sub 0x60#32 2#32 [0#32, 0#32, 16#32, 2#32]) opDiag (some 2) = true ∧
      ctx1.table? 2 = some table2 ∧ ctx1.table? 9 = none ∧ 0 < min (table2.pages * ctx1.perPage - 0) (16 / 8) ∧
      ctx1.OnHbm (table2.base + 8 * 0) (8 * 2) ∧ s.Clean ∧ (∀ i < 16, s.ctxPoison ctx1 (table2.base + i) = false) ∧
      passes s (sub 0x60#32 3#32 []) opDiag (some 3) = true ∧ { s with lastJob := 7 }.mayJoin = false ∧ s.mayJoin = true ∧
      { s with lostNodes := [5], lastJob := 7 }.mayJoin = true ∧ s.mirrors ctx1 = false ∧ s.mirrors { ctx1 with bookMatch := true } = true ∧
      passes s (sub 0xFFFF0060#32 4#32 []) opDiag (some 4) = true := by
  unfold State.Clean Ctx.OnHbm; decide +kernel
theorem witness_DescriptorsActAtOnce_spdm :
    let u := sub 0xFFFF0060#32 0x10#32 [0x1000#32, 0#32, 64#32, 0x2000#32]
    passes pair2 u opDiag (some 0x10) = true ∧
      hostRead u.host (addrAt u.words 0x1C 0x20) 4 = some (List.replicate 4 0#8) ∧ leNat (List.replicate 4 0#8) ≤ 2 ^ 20 ∧
      hostRead u.host (addrAt u.words 0x1C 0x20 + 4) (leNat (List.replicate 4 0#8)) = some [] := by decide +kernel
theorem witness_DescriptorsActAtOnce_image :
    let cells := ((image.zipIdx 0x1000).filter (·.1 ≠ 0#8)).map fun e => (e.2, e.1)
    let u := descr 0xFFFF0060#32 0#32 0x11#32 0#32 [0x1000#32, 0#32, 576#32] cells
    let s : State := { pair2 with fuses := { Fuses.reset with rootHash := sampleHash } }
    passes s u opDiag (some 0x11) = true ∧ s.dowels.getD 6 0 = ownerNo (portPath u.port) ∧ s.slotHeld = false ∧
      hostRead u.host (addrAt u.words 0x10 0x14) (min (wordAt u.words 0x18).toNat maxImage) = some image ∧
      s.service = true ∧ (up .epB).dowels.getD 6 0 ≠ ownerNo (portPath u.port) := by decide +kernel

/-! ## Results that the spec works out

The expected values are those of the spec's worked examples, by chapter. -/

/-- A block of E2M1 or E4M3 inputs: the listed words, then +0. -/
def blockOf (l : List Word) : List Word := l ++ List.replicate (32 - l.length) 0#32

/-- Number formats, the ordinary block in E2M1: scale 0x70, bytes D7 22 60. -/
theorem test_quantise_e2m1 :
    let b := quantise .e2m1 (blockOf [0x4039999A#32, 0xBFA66666#32, 0x3F19999A#32, 0x3EC00000#32, 0xBDCCCCCD#32, 0x40100000#32]) false
    b.2 = .ordinary ∧ b.1.scale = 0x70 ∧ (b.1.bytes .e2m1) = [0xD7#8, 0x22#8, 0x60#8] ++ List.replicate 13 0#8 := by decide +kernel
/-- The same block in INT4 under the clamp: scale 0x6E, bytes D7 11 50. -/
theorem test_quantise_int4 :
    let b := quantise (.int4 true) (blockOf [0x4039999A#32, 0xBFA66666#32, 0x3F19999A#32, 0x3EC00000#32, 0xBDCCCCCD#32, 0x40100000#32]) false
    b.1.scale = 0x6E ∧ (b.1.bytes (.int4 true)).take 3 = [0xD7#8, 0x11#8, 0x50#8] ∧
      (b.1.values (.int4 true)).take 3 = [0x40440000#32, 0xBFA80000#32, 0x3EE00000#32] := by decide +kernel
/-- The four other classes. -/
theorem test_quantise_classes :
    let q l := quantise .e2m1 (blockOf l) false
    (q [0x80000000#32]).2 = .zero ∧
      ((q [0x37FBA882#32, 0xB727C5AC#32, 0x360637BD#32]).2 = .flushed ∧ (q [0x37FBA882#32]).1.scale = 0) ∧
      ((q [0x49742400#32, 0x49127C00#32, 0xC8927C00#32]).2 = .saturated ∧
        (q [0x49742400#32, 0x49127C00#32, 0xC8927C00#32]).1.scale = 0xFE ∧
        (q [0x49742400#32, 0x49127C00#32, 0xC8927C00#32]).1.elems.take 3 = [7, 7, 0xD]) ∧
      (q [0x3F800000#32, 0x7FC00000#32, 0x40000000#32]).2 = .invalid ∧ (q [0x7FC00000#32]).1.scale = 0xFF := by decide +kernel
/-- Exact accumulation: 2^24 + 1 - 2^24 is 1 in either order, and 0.5 after the scale. -/
theorem test_two_orders :
    let b (s e : Nat) : Block := ⟨s, e :: List.replicate 31 0, false, false⟩
    let p (a : Acc) (x y : Block) := a.pair .e2m1 .e2m1 x y
    let a := p (p (p .empty (b 0xC8 6) (b 0xC8 6)) (b 0x78 2) (b 0x78 2)) (b 0xC8 0xE) (b 0xC8 6)
    let c := p (p (p .empty (b 0xC8 0xE) (b 0xC8 6)) (b 0x78 2) (b 0x78 2)) (b 0xC8 6) (b 0xC8 6)
    a = c ∧ a.value = 1#168 <<< 80 ∧ a.count = 96 ∧ (roundOutput 0x3F000000#32 .bf16 false a).code = 0x3F00 := by decide +kernel
/-- Outliers: the example group's slots, its overflow, and the scales of blocks 0, 4 and 7. -/
theorem test_outlier_group :
    let half (i : Nat) : Word := if i % 2 = 0 then 0x3F000000#32 else 0xBF000000#32
    let big (i : Nat) : Option Word := assoc i [(7, 0x42200000#32), (70, 0xC1C80000#32), (130, 0x41F00000#32), (131, 0x41400000#32),
      (200, 0x41C80000#32), (250, 0xC1A00000#32)]
    let g := extractGroup 4 0x40 ((List.range 256).map fun i => (big i).getD (half i))
    let q := (quantiseRow .e2m1 none (g.rest.map fun v => (v, false))).1
    let w := (quantiseRow .e4m3 none (g.rest.map fun v => (v, false))).1
    g.slots.map Slot.word = [0x00075100#32, 0x0046CE40#32, 0x00824F80#32, 0x00C84E40#32] ∧ g.overflow = true ∧
      q.map (·.scale) = [0x5B, 0x5B, 0x5B, 0x5B, 0x80, 0x5B, 0x5B, 0x86] ∧
      (w.map (·.scale)).take 1 = [0x2A] ∧ (w[4]?).map (fun b => (b.scale, b.elems.take 4)) = some (0x4E, [0x59, 0xD9, 0, 0x7E]) ∧
      (w[7]?).map (fun b => (b.scale, b.elems.getD 26 0, b.elems.getD 25 0)) = some (0x54, 0xFD, 0xD3) := by decide +kernel
/-- Memory: the pseudo-channels of line 0x01234567 of a die and of three neighbours, reached from its context address. -/
theorem test_pseudo_channel :
    lineOf (hbmEntry (frameKey 5 1165) true) 0x00034562B380 = (5, 0x01234567) ∧ pageOf 0x00034562B380 = 0x1A2B ∧
      [0, 1, 64, 4096].map (fun n => pseudoChannel (0x01234567 + n)) = [15, 0, 12, 14] := by decide +kernel
/-- Fabric: the plane of that address on node 35, with every plane up and with plane 13 down. -/
theorem test_plane_hash :
    ((up .epA).setReg oPlanes 0xFFFFFFFF#32).hashPlane 35 0x00034562B380 = some 29 ∧
      ((up .epA).setReg oPlanes 0xFFFFDFFF#32).hashPlane 35 0x00034562B380 = some 31 := by decide +kernel
/-- Sequences: the home of handle 0x1234 among 36 members. -/
theorem test_home : homeIndex 36 0x1234 = 1 := by decide +kernel
/-- Experts: the rows that experts 0, 1 and 3 of the example layer take. -/
theorem test_expert_choice :
    let r : ExpertRec := ⟨BitVec.ofNat 32 (2 ^ 28 + 4 * 2 ^ 16), 2#32, 0x3E800000#32, 0#32, 0#32, 0#32, []⟩
    let col (l : List Word) := (chooseRows r ((List.range 7).zip l)).map (·.1)
    col [0x3F666666#32, 0x3F59999A#32, 0x3F400000#32, 0x3F4CCCCD#32, 0x3F733333#32, 0x3F333333#32, 0x3F6147AE#32] = [0, 4] ∧
      col [0x3E99999A#32, 0x3E99999A#32, 0x3DCCCCCD#32, 0x3E4CCCCD#32, 0x3E99999A#32, 0x3DCCCCCD#32, 0x3EE66666#32] = [0, 6] ∧
      col (List.replicate 7 0x3E4CCCCD#32) = [] ∧ r.minScore = 0x3E800000#32 ∧ r.cap = 2 ∧ r.experts = 4 := by decide +kernel
/-- Sampler: the draw vector of R277, and the truncation and draw of the example. -/
theorem test_draw :
    drawInt 0x0123456789ABCDEFFEDCBA9876543210 0x0123456789ABCDEF 0xFEDCBA98 0x76543210 = 0x681EDF := by decide +kernel
theorem test_truncate :
    let d := { DrawParams.default with topK := 4, minP := 0x3D4CCCCD#32, topP := 0x3F666666#32 }
    let p : List Word := [0x3F000000#32, 0x3E800000#32, 0x3E000000#32, 0x3D800000#32]
    truncate d p = 4 ∧ drawRank 0x3EC00000#32 p = 0 := by decide +kernel
/-- Speculation: the walk of the five-node template. -/
theorem test_walk :
    walk [0, 0, 1, 1, 3] (fun k => [500, 17, 42, 9, 88, 3].getD k 0) (fun k => [17, 88, 0, 0, 61, 0][k]?) = ⟨[17, 88, 61], [1, 4], 4, false⟩ := by
  decide +kernel
/-- The register map: the three absolute offsets of the example. -/
theorem test_offsets : oCoreState 3 17 = 0x00B20144 ∧ oRingCtl .b 10 = 0x00034A1C ∧ oQstat 9 + 0x48 = 0x00700948 := by decide
/-- The dovetail topology by member, and the four hops from die 0 to die 7. -/
theorem test_dovetail_routes : State.reset.route 0 7 = some [1, 2, 3, 7] ∧
    { State.reset with fuses := { Fuses.reset with dies := 4 } }.route 0 3 = some [1, 3] ∧
    (List.range 8).map (fun d => (neighbours 8 d).length) = [2, 3, 3, 2, 2, 3, 3, 2] ∧ neighbours 2 0 = [1] := by decide
/-- Stored FP8 values as the format table gives them: a signed zero, infinities, the largest E4M3 value, NaN. -/
theorem test_stored_fp8 : widenOut .e4m3 0x80 = 0x80000000#32 ∧ widenOut .e5m2 0x7C = 0x7F800000#32 ∧
    widenOut .e5m2 0xFC = 0xFF800000#32 ∧ widenOut .e4m3 0x7E = 0x43E00000#32 ∧ widenOut .e4m3 0xFF = 0x7FC00000#32 := by decide

end Sys2Proof.Tests
end

/-! SUPPORT. The window's registers: their values at reset, what a plain write, a read of a `_LO` register and a write of a
`_HI` register do, and the statements settled from these (R5 to R9, R309, R313, R347, R469). -/

namespace Sys2Proof.Machine

/-! ## The registers at reset -/

/-- With nothing listed, every register reads its reset value. -/
theorem State.reg_reset (o : Nat) : State.reset.reg o = resetWord 8 o := rfl

/-- A list of one value reads it everywhere when the default is that value too. -/
theorem getD_replicate_self {α : Type} (d : α) (m n : Nat) : (List.replicate m d).getD n d = d := by
  rw [List.getD_eq_getElem?_getD, List.getElem?_replicate]
  by_cases h : n < m
  · rw [if_pos h, Option.getD_some]
  · rw [if_neg h, Option.getD_none]

theorem State.dowel_reset (n : Nat) : State.reset.dowels.getD n 0 = 0 := getD_replicate_self 0 16 n

theorem State.broken_reset (n : Nat) : State.reset.broken.getD n false = false := getD_replicate_self false 16 n

theorem State.pair_reset (p : EPort) (i : Nat) : State.reset.pair p i = Pair.off := by cases p <;> rfl

/-- Settles O3: nothing is listed at reset, so every register reads its reset value, and every other part is empty. -/
theorem resetValues : Obligations.ResetValues := by
  unfold Obligations.ResetValues
  refine ⟨State.reg_reset, by decide, fun n => ⟨State.dowel_reset n, State.broken_reset n⟩, by decide, by decide,
    State.pair_reset, rfl, rfl, rfl, rfl, rfl, fun k => ⟨rfl, rfl⟩⟩

/-! ## Reads of a pair's halves -/

theorem unlist_of_assoc_none {α : Type} {k : Nat} {l : List (Nat × α)} (h : assoc k l = none) : unlist k l = l := by
  induction l with
  | nil => rfl
  | cons e l ih =>
    obtain ⟨j, v⟩ := e
    have hj : j ≠ k := by rintro rfl; simp [assoc] at h
    simp only [assoc, hj, if_false] at h
    rw [unlist, List.filter_cons_of_pos (by simpa using hj), ← unlist, ih h]

section
variable {s : State} {p : Path} {o hi : Nat}

/-- A read of a low half returns its value, and captures that of its high half for the path. -/
theorem State.windowRead_lo (hp : hiOf o = some hi) (ha : s.accessStatus o = stOk) (hr : o ∉ s.retainedBad) :
    s.windowRead p o =
      (stOk, s.readValue p o, { s with shadows := enlist (pathKey p hi) (s.readValue p hi) s.shadows }) := by
  simp [State.windowRead, ha, hr, loOf_lo hp, hp]

/-- A read of a high half returns the path's shadow and uses it up; with none, it returns the register's value. -/
theorem State.windowRead_hi (hp : hiOf o = some hi) (ha : s.accessStatus hi = stOk) (hr : hi ∉ s.retainedBad) :
    s.windowRead p hi =
      (stOk, (assoc (pathKey p hi) s.shadows).getD (s.readValue p hi),
        { s with shadows := unlist (pathKey p hi) s.shadows }) := by
  rcases e : assoc (pathKey p hi) s.shadows with _ | w
  · simp [State.windowRead, ha, hr, loOf_hi hp, hiOf_hi hp, e, unlist_of_assoc_none e]
  · simp [State.windowRead, ha, hr, loOf_hi hp, e]

theorem exec_registerRead (hr : s.reaches p = true) :
    exec (.registerRead p o) s =
      .next ((s.windowRead p o).2.2.emit (.readData p (s.windowRead p o).1 (s.windowRead p o).2.1)) := by
  change Host.Outcome.next (s.readAndAnswer p o) = _
  simp [State.readAndAnswer, hr]

theorem exec_loRead : exec (.loRead p o) s = exec (.registerRead p o) s := rfl

end

/-- Settles O9: the two halves' reads, and how a list reads after a key is listed or removed. -/
theorem loReadCapturesHi : Obligations.LoReadCapturesHi := by
  unfold Obligations.LoReadCapturesHi
  intro p o hi s hp hreach hlo hhi hglo hghi
  refine ⟨⟨_, exec_loRead.trans (exec_registerRead hreach), exec_registerRead hreach, ?_⟩,
    ⟨_, exec_registerRead hreach, ?_⟩⟩
  · rw [State.windowRead_lo hp hlo hglo]
    exact ⟨rfl, assoc_enlist_same, fun k hk => assoc_enlist_other hk⟩
  · rw [State.windowRead_hi hp hhi hghi]
    exact ⟨assoc_unlist_same, fun k hk => assoc_unlist_other hk, rfl⟩

/-! ## Ring registers -/

section
variable {port : EPort} {i d : Nat}

/-- A ring register's offset lies in its port's ring sets, and tells the port, the pair and the place in the set. -/
theorem inSpan_oRing (hi : i < 64) (hd : d < 0x100) : inSpan (oRing port i + d) 0x3_0000 0x8000 = true := by
  cases port <;> exact decide_eq_true (by simp only [oRing, portNo]; omega)

theorem oRing_mod (hd : d < 0x100) : (oRing port i + d) % 0x100 = d := by
  cases port <;> simp only [oRing, portNo] <;> omega

theorem oRing_port (hi : i < 64) (hd : d < 0x100) : (if oRing port i + d < 0x3_4000 then EPort.a else .b) = port := by
  cases port
  · exact if_pos (by simp only [oRing, portNo]; omega)
  · exact if_neg (by simp only [oRing, portNo]; omega)

theorem oRing_pair (hi : i < 64) (hd : d < 0x100) : (oRing port i + d) % 0x4000 / 0x100 = i := by
  cases port <;> simp only [oRing, portNo] <;> omega

theorem regInfo_oRing (hi : i < 64) (hd : d < 0x100) (h4 : d % 4 = 0) : regInfo (oRing port i + d) = ringInfo d := by
  have hm := oRing_mod (port := port) (i := i) hd
  have hs : 0x3_0000 ≤ oRing port i + d ∧ oRing port i + d < 0x3_8000 := by
    simpa [inSpan] using inSpan_oRing (port := port) hi hd
  have hsub : (oRing port i + d - 0x3_0000) % 0x100 = d := by omega
  rw [regInfo, if_neg (by omega), if_neg (by omega), if_neg (by omega), if_neg (by omega), if_pos (by omega),
    if_pos (by omega), hsub]

end

/-! ## Registers that are no half of a pair -/

/-- The offset is neither half of a register pair. -/
def NoHalf (o : Nat) : Prop := ∀ l, LowHalf l → l ≠ o ∧ l + 4 ≠ o

theorem NoHalf.hiOf_none {o : Nat} (h : NoHalf o) : hiOf o = none := by
  rcases e : hiOf o with _ | x
  · rfl
  · exact absurd rfl (h o (hiOf_low e).1).1

theorem NoHalf.loOf_none {o : Nat} (h : NoHalf o) : loOf o = none := by
  unfold loOf
  split
  · rename_i h4
    rcases e : hiOf (o - 4) with _ | x
    · rfl
    · exact absurd (Nat.sub_add_cancel h4) (h (o - 4) (hiOf_low e).1).2
  · rfl

/-- Behind its three bases a ring set holds no halves. -/
theorem oRing_noHalf {port : EPort} {i d : Nat} (hi : i < 64) (h1 : 0x18 ≤ d) (h2 : d < 0x100) : NoHalf (oRing port i + d) := by
  intro l g
  have hm := oRing_mod (port := port) (i := i) h2
  have hs := inSpan_oRing (port := port) hi h2
  simp only [inSpan, decide_eq_true_eq] at hs
  rcases g with g | g | g | g | g | g | g
  · simp only [List.mem_cons, List.not_mem_nil, or_false] at g
    omega
  all_goals omega

/-! ## Registers with no effect but their fields -/

/-- The offsets where a write means more than the fields of the register's table (`State.wordWrite`). -/
def actsOnWrite (o : Nat) : Bool :=
  o = oLinkCtl .a || o = oLinkCtl .b || (inSpan o 0x3_0000 0x8000 && o % 0x100 = 0x18) ||
    (inSpan o 0x3_0000 0x8000 && o % 0x100 = 0x1C) || (inSpan o 0x3_0000 0x8000 && o % 0x100 = 0x24) ||
    inSpan o 0xC_0000 0x40 || o = oBroken || o = oInject || (inRun o 0x10_0200 0x20 3 0x18 && (o - 0x10_0200) % 0x20 = 0xC) ||
    o = oFabNode || o = oFabCtl || inSpan o (oCable 0) 0x80 || o = oEthCmd || o = oIntCtl || o = oIntStat || o = oClkSsc ||
    isEnable o || (inSpan o (oMuxStat 0) 0x40 && o % 8 = 4) || o = oRstCause || o = oRstCmd || inSpan o 0x58_0200 0x80 ||
    inSpan o oRetained 0x4000 || o = oOwnerFuse || (inSpan o 0x70_0000 0x4000 && o % 0x100 = 0) ||
    (0x80_0000 ≤ o && o % 0x10_0000 = 0x2_0000) || (0x80_0000 ≤ o && o % 0x10_0000 = 0x2_0008)

theorem State.wordWrite_plain {s : State} {p : Path} {o : Nat} {v : Word} {h : HostView} (ho : actsOnWrite o = false) :
    s.wordWrite p o v h = some (s.plainWrite o v) := by
  simp only [actsOnWrite, Bool.or_eq_false_iff, decide_eq_false_iff_not, and_assoc] at ho
  simp [State.wordWrite, ho]

/-- The plain registers, by the blocks that hold them. -/
inductive PlainReg (o : Nat) : Prop where
  | single (h : o = 0x1_000C ∨ o = 0x2_000C ∨ o = 0x1_0014 ∨ o = 0x2_0014 ∨ o = 0x4_0008 ∨ o = 0x4_0108 ∨ o = 0xD_0400 ∨
      o = 0x10_0000 ∨ o = 0x20_0004 ∨ o = 0x50_0008)
  | ring (h : 0x3_0000 ≤ o ∧ o < 0x3_8000 ∧ o % 0x100 = 0x20)
  | pll (h : 0x50_0010 ≤ o ∧ o < 0x50_0030)
  | cause (h : 0x58_0010 ≤ o ∧ o < 0x58_0030)
  | backup (h : 0x58_0108 ≤ o ∧ o < 0x58_0120)
  | owner (h : 0x60_0040 ≤ o ∧ o < 0x60_0060)
  | qstat (h : 0x70_0000 ≤ o ∧ o < 0x70_4000 ∧ o % 0x100 = 4)
  | die (h : 0x80_0000 ≤ o ∧ (o % 0x10_0000 = 0x2_0004 ∨ 0x2_0100 ≤ o % 0x10_0000))

theorem plainOffset_reg {o : Nat} (h : plainOffset o = true) : PlainReg o := by
  simp only [plainOffset, inRun, inSpan, Bool.and_eq_true, Bool.or_eq_true, decide_eq_true_eq, List.contains_iff_mem,
    List.mem_cons, List.not_mem_nil, or_false] at h
  rcases h with ((((((h | h) | h) | h) | h) | h) | h) | h
  · exact .single h
  · exact .ring (by omega)
  · exact .pll (by omega)
  · exact .cause (by omega)
  · exact .backup (by simp only [oBkup] at h; omega)
  · exact .owner (by simp only [oOwnerStage] at h; omega)
  · exact .qstat (by omega)
  · exact .die (by omega)

theorem PlainReg.noHalf {o : Nat} (h : PlainReg o) : NoHalf o := by
  intro l g
  rcases g with g | g | g | g | g | g | g
  · simp only [List.mem_cons, List.not_mem_nil, or_false] at g
    rcases h with h | h | h | h | h | h | h | h <;> omega
  all_goals rcases h with h | h | h | h | h | h | h | h <;> omega

theorem PlainReg.no_effect {o : Nat} (h : PlainReg o) : actsOnWrite o = false := by
  rw [Bool.eq_false_iff]
  intro g
  simp only [actsOnWrite, inSpan, inRun, isEnable, Bool.and_eq_true, Bool.or_eq_true, decide_eq_true_eq] at g
  simp only [oLinkCtl, oPortBlk, oBroken, oInject, oFabNode, oFabCtl, oCable, oEthCmd, oIntCtl, oIntStat, oClkSsc,
    oClkEnPkg, oMuxStat, oRstCause, oRstCmd, oRetained, oOwnerFuse] at g
  rcases h with h | h | h | h | h | h | h | h <;> omega

/-! ## Writes of a word -/

section
variable {s u : State} {p : Path} {o : Nat} {v : Word} {h : HostView}

theorem exec_registerWrite : exec (.registerWrite p o v h) s = .next (s.windowWrite p o v h) := rfl

theorem exec_windowWrite : exec (.windowWrite o v h) s = exec (.registerWrite .i3c o v h) s := rfl

/-- The write is answered OK and leaves `u`, but for the written fields of its register (`RegisterWriteSetsFields`). -/
def State.TakesFields (s u : State) (p : Path) (o : Nat) (v : Word) (h : HostView) (i : RegInfo) : Prop :=
  ∃ t, exec (.registerWrite p o v h) s = .next t ∧ (p = .i3c → exec (.windowWrite o v h) s = .next t) ∧
    Written i (s.reg o) v (t.reg o) ∧ s.SameRegs t [o] ∧ t = { u with regs := t.regs, out := .writeStatus p stOk :: s.out }

theorem State.takesFields {i : RegInfo} (hi : regInfo o = some i) (hm : s.MayWrite p o) (hn : NoHalf o)
    (hw : s.wordWrite p o v h = some { u with regs := (s.plainWrite o v).regs })
    (hf : u.fuses = s.fuses) (ho : u.out = s.out) : s.TakesFields u p o v h i := by
  have e : exec (.registerWrite p o v h) s =
      .next { u with regs := (s.plainWrite o v).regs, out := .writeStatus p stOk :: s.out } := by
    rw [exec_registerWrite, State.windowWrite_ok hm ((State.applyWrite_word hn.hiOf_none hn.loOf_none).trans hw), ← ho]
    rfl
  have hf' : (s.plainWrite o v).fuses = s.fuses := by rw [State.plainWrite_frame]
  have hr (o' : Nat) : State.reg { u with regs := (s.plainWrite o v).regs, out := .writeStatus p stOk :: s.out } o' =
      (s.plainWrite o v).reg o' := State.reg_congr _ rfl (hf.trans hf'.symm)
  refine ⟨_, e, ?_, ?_, ?_, rfl⟩
  · rintro rfl; exact exec_windowWrite.trans e
  · rw [hr]
    exact written_plainWrite hi
  · intro o' ho'
    rw [hr]
    exact State.reg_plainWrite_other (by simpa using ho')

theorem State.takesFields_plain {i : RegInfo} (hp : PlainReg o) (hi : regInfo o = some i) (hm : s.MayWrite p o) :
    s.TakesFields s p o v h i := by
  refine State.takesFields hi hm hp.noHalf ?_ rfl rfl
  rw [State.wordWrite_plain hp.no_effect, ← State.plainWrite_frame]

end

/-! ## `IRQ_VEC` -/

section
variable {s : State} {p : Path} {port : EPort} {k : Nat} {v : Word} {h : HostView}

/-- The pair keeps no count from now on (R309). -/
def State.endCount (s : State) (port : EPort) (k : Nat) : State :=
  s.setPair port k { s.pair port k with irqCount := 0, irqOldest := none }

theorem State.endCount_regs (r : List (Nat × Word)) :
    State.endCount { s with regs := r } port k = { s.endCount port k with regs := r } := by cases port <;> rfl

theorem State.endCount_fuses : (s.endCount port k).fuses = s.fuses := by cases port <;> rfl

theorem State.endCount_out : (s.endCount port k).out = s.out := by cases port <;> rfl

/-- `IRQ_VEC` takes its fields, and IRQ_EN = 0 ends the pair's count. -/
theorem State.wordWrite_irqVec (hk : k < 64) :
    s.wordWrite p (oIrqVec port k) v h =
      some (if bit v 31 then s.plainWrite (oIrqVec port k) v else (s.plainWrite (oIrqVec port k) v).endCount port k) := by
  have hs : inSpan (oIrqVec port k) 0x3_0000 0x8000 = true := inSpan_oRing hk (by decide)
  have hm : oIrqVec port k % 0x100 = 0x24 := oRing_mod (by decide)
  have hport : (if oIrqVec port k < 0x3_4000 then EPort.a else .b) = port := oRing_port hk (by decide)
  have hpair : oIrqVec port k % 0x4000 / 0x100 = k := oRing_pair hk (by decide)
  have hlink (q : EPort) : oIrqVec port k ≠ oLinkCtl q := by
    intro e
    rw [e] at hm
    cases q <;> exact absurd hm (by decide)
  rw [State.wordWrite, if_neg (hlink .a), if_neg (hlink .b), if_neg (by simp [hm]), if_neg (by simp [hm]),
    if_pos (by simp [hs, hm]), hport, hpair]
  rfl

/-- A write of `IRQ_VEC` leaves the written fields, and with IRQ_EN = 0 no count. -/
theorem State.takesFields_irqVec (hk : k < 64) (hm : s.MayWrite p (oIrqVec port k)) :
    s.TakesFields (if bit v 31 then s else s.endCount port k) p (oIrqVec port k) v h (RegInfo.rwOf 0x8000FFFF#32 0#32) := by
  have hi : regInfo (oIrqVec port k) = some (RegInfo.rwOf 0x8000FFFF#32 0#32) := regInfo_oRing hk (by decide) (by decide)
  have hn : NoHalf (oIrqVec port k) := oRing_noHalf hk (by decide) (by decide)
  have hw := State.wordWrite_irqVec (s := s) (p := p) (port := port) (v := v) (h := h) hk
  cases hv : bit v 31
  · rw [if_neg (by simp)]
    refine State.takesFields hi hm hn ?_ State.endCount_fuses State.endCount_out
    rw [hw, hv, if_neg (by simp), State.plainWrite_frame, State.endCount_regs]
  · rw [if_pos rfl]
    refine State.takesFields hi hm hn ?_ rfl rfl
    rw [hw, hv, if_pos rfl, ← State.plainWrite_frame]

end

/-- Settles O8: a plain register is no half of a pair and has no meaning of its own among `State.wordWrite`'s, so that its
fields are written and nothing else; `IRQ_VEC` is written so too, and ends the pair's count. -/
theorem registerWriteSetsFields : Obligations.RegisterWriteSetsFields := by
  unfold Obligations.RegisterWriteSetsFields
  exact fun p v h s => ⟨fun o i hp hi hm => State.takesFields_plain (plainOffset_reg hp) hi hm,
    fun port k hm => State.takesFields_irqVec k.isLt hm⟩

/-! ## Writes of a pair's halves -/

section
variable {s : State} {p : Path} {o hi n j : Nat} {v lo w : Word} {h : HostView}

theorem exec_loWrite : exec (.loWrite p o v) s = .next (s.windowWrite p o v noHost) := rfl

theorem exec_hiWrite : exec (.hiWrite p o v) s = .next (s.windowWrite p o v noHost) := rfl

/-- A `_HI` write hands its register pair the staged low half, or with none the stored one, and uses the staged one up. -/
theorem State.applyWrite_hi (hp : hiOf o = some hi) :
    s.applyWrite p hi v h = { s with staged := unlist (pathKey p o) s.staged }.pairWrite o
      ((assoc (pathKey p o) s.staged).getD (s.reg o)) v := by
  simp [State.applyWrite, hiOf_hi hp, loOf_hi hp]

/-- A register whose bits from `n` up are RW, and whose others are reserved, takes these. -/
theorem bit_plainWrite_from (e : regInfo o = some (RegInfo.rwOf (mask 31 n) 0#32)) (hn : n < 32) :
    bit ((s.plainWrite o v).reg o) j = if n ≤ j then bit v j else bit (s.reg o) j := by
  by_cases h32 : j < 32
  · have hj : j < 31 + 1 - n + n := by omega
    rw [written_plainWrite e j]
    simp only [RegInfo.rwOf, RegInfo.ro, bit_mask, h32, hj, true_and, and_true, decide_eq_true_eq]
    simp [bit]
  · have hj : 32 ≤ j := by omega
    rw [bit_high hj, if_pos (by omega), bit_high hj]

/-- Both halves of a pair take their fields (R7). -/
def State.writeBoth (s : State) (o : Nat) (lo w : Word) : State := (s.plainWrite o lo).plainWrite (o + 4) w

theorem State.writeBoth_frame : s.writeBoth o lo w = { s with regs := (s.writeBoth o lo w).regs } := by
  rw [State.writeBoth, State.plainWrite_frame, State.plainWrite_frame (s := s)]

theorem State.reg_writeBoth_other (h1 : j ≠ o) (h2 : j ≠ o + 4) : (s.writeBoth o lo w).reg j = s.reg j := by
  rw [State.writeBoth, State.reg_plainWrite_other h2, State.reg_plainWrite_other h1]

theorem bit_writeBoth_lo (e : regInfo o = some (RegInfo.rwOf (mask 31 n) 0#32)) (hn : n < 32) :
    bit ((s.writeBoth o lo w).reg o) j = if n ≤ j then bit lo j else bit (s.reg o) j := by
  rw [State.writeBoth, State.reg_plainWrite_other (by omega), bit_plainWrite_from e hn]

theorem State.reg_writeBoth_hi (e : regInfo (o + 4) = some (RegInfo.rwOf (mask 31 0) 0#32)) :
    (s.writeBoth o lo w).reg (o + 4) = w :=
  bit_ext fun j => by rw [State.writeBoth, bit_plainWrite_from e (by decide), if_pos (Nat.zero_le j)]

/-- The pair at `o`, a full high word over the bits from `n` up of the low one, takes a 64-bit value at once where `takes`
says so, and otherwise ignores it. -/
structure State.PairTakes (s : State) (o n : Nat) (takes : Bool) : Prop where
  pair : hiOf o = some (o + 4)
  width : n < 32
  low : regInfo o = some (RegInfo.rwOf (mask 31 n) 0#32)
  high : regInfo (o + 4) = some (RegInfo.rwOf (mask 31 0) 0#32)
  write : ∀ lo w l, State.pairWrite { s with staged := l } o lo w =
    some (if takes then State.writeBoth { s with staged := l } o lo w else { s with staged := l })

/-- A `_HI` write to such a pair, with everything it leaves. -/
theorem State.PairTakes.hiWrite {takes : Bool} (ht : s.PairTakes o n takes) (hm : s.MayWrite p (o + 4)) :
    ∃ t, exec (.hiWrite p (o + 4) v) s = .next t ∧ assoc (pathKey p o) t.staged = none ∧
      (∀ q, q ≠ pathKey p o → assoc q t.staged = assoc q s.staged) ∧ s.SameRegs t [o, o + 4] ∧
      (∀ j, bit (t.reg o) j =
        if takes && decide (n ≤ j) then bit ((assoc (pathKey p o) s.staged).getD (s.reg o)) j else bit (s.reg o) j) ∧
      t.reg (o + 4) = (if takes then v else s.reg (o + 4)) ∧
      t = { s with regs := t.regs, staged := t.staged, out := .writeStatus p stOk :: s.out } := by
  refine ⟨_, by rw [exec_hiWrite, State.windowWrite_ok hm ((State.applyWrite_hi ht.pair).trans (ht.write _ _ _))], ?_⟩
  cases takes with
  | false =>
    exact ⟨assoc_unlist_same, fun q hq => assoc_unlist_other hq, fun _ _ => rfl, fun _ => rfl, rfl, rfl⟩
  | true =>
    simp only [if_true, Bool.true_and, decide_eq_true_eq, State.reg_emit]
    refine ⟨?_, fun q hq => ?_, fun j hj => ?_, fun j => ?_, ?_, ?_⟩
    · rw [State.writeBoth_frame]
      exact assoc_unlist_same
    · rw [State.writeBoth_frame]
      exact assoc_unlist_other hq
    · obtain ⟨h1, h2⟩ : j ≠ o ∧ j ≠ o + 4 := by simpa using hj
      exact State.reg_writeBoth_other h1 h2
    · exact bit_writeBoth_lo ht.low ht.width
    · exact State.reg_writeBoth_hi ht.high
    · rw [State.writeBoth_frame]
      rfl

end

/-! ## The pairs that `HI_WRITE` completes -/

/-- The bases of a ring set pair their halves. -/
theorem hiOf_ring {o : Nat} (h1 : 0x3_0000 ≤ o) (h2 : o < 0x3_8000) (h3 : o % 0x100 = 0 ∨ o % 0x100 = 8 ∨ o % 0x100 = 0x10)
    (hr : (regInfo o).isSome = true) : hiOf o = some (o + 4) := by
  rcases h3 with h3 | h3 | h3 <;> simp [hiOf, h1, h2, h3, hr]

section
variable {s : State} {port : EPort} {i k : Nat}

/-- A ring base is taken while its pair is off (R313). -/
theorem State.pairTakes_ring (hi : i < 64) (hk : k < 3) :
    s.PairTakes (oRing port i + 8 * k) 12 (decide ((s.pair port i).state = .off)) where
  pair := by
    have hr : regInfo (oRing port i + 8 * k) = ringInfo (8 * k) := regInfo_oRing hi (by omega) (by omega)
    have hs := inSpan_oRing (port := port) (d := 8 * k) hi (by omega)
    simp only [inSpan, decide_eq_true_eq] at hs
    have hm := oRing_mod (port := port) (i := i) (d := 8 * k) (by omega)
    refine hiOf_ring (by omega) (by omega) (by omega) ?_
    rw [hr]
    match k, hk with
    | 0, _ | 1, _ | 2, _ => decide
  width := by decide
  low := by
    rw [regInfo_oRing hi (by omega) (by omega)]
    match k, hk with
    | 0, _ | 1, _ | 2, _ => decide
  high := by
    rw [Nat.add_assoc, regInfo_oRing hi (by omega) (by omega)]
    match k, hk with
    | 0, _ | 1, _ | 2, _ => decide
  write lo w l := by
    have hs := inSpan_oRing (port := port) (d := 8 * k) hi (by omega)
    have hport := oRing_port (port := port) (d := 8 * k) hi (by omega)
    have hpair := oRing_pair (port := port) (d := 8 * k) hi (by omega)
    rw [State.pairWrite, if_pos hs, hport, hpair]
    simp only [decide_eq_true_eq]
    rfl

/-- A doorbell page is taken while its port does not poll (R290). -/
theorem State.pairTakes_page : s.PairTakes (oDbLo port) 12 (!bit (s.reg (oPollCtl port)) 0) where
  pair := by cases port <;> decide
  width := by decide
  low := by cases port <;> decide
  high := by cases port <;> decide
  write lo w l := by
    have hs : inSpan (oDbLo port) 0x3_0000 0x8000 = false := by cases port <;> decide
    have hp : (decide (oDbLo port = oDbLo .a) || decide (oDbLo port = oDbLo .b)) = true := by cases port <;> decide
    rw [State.pairWrite, if_neg (by simp [hs]), if_pos hp]
    change some (if bit (s.reg (oPollCtl port)) 0 = true then _ else _) = _
    cases bit (s.reg (oPollCtl port)) 0 <;> rfl

/-- The Ethernet setup address is always taken (R347). -/
theorem State.pairTakes_eth : s.PairTakes oEthLo 11 true where
  pair := by decide
  width := by decide
  low := by decide
  high := by decide
  write lo w l := by
    rw [State.pairWrite, if_neg (by decide), if_neg (by decide), if_neg (by decide), if_neg (by decide)]
    rfl

end

/-- Settles O10: a `_LO` write stages its word, and each of the three pairs takes a 64-bit value by its `_HI` write or, where
the spec has it ignored, keeps what it held. -/
theorem hiWriteCompletesPair : Obligations.HiWriteCompletesPair := by
  unfold Obligations.HiWriteCompletesPair
  refine ⟨fun p o hi v s hp hm => ?_, fun p port i k v s o takes ho hm => ?_⟩
  · exact ⟨_, by rw [exec_loWrite, State.windowWrite_ok hm (State.applyWrite_lo hp)], rfl, assoc_enlist_same,
      fun k hk => assoc_enlist_other hk⟩
  · have hne (q : EPort) : oDbLo q ≠ oEthLo := by cases q <;> decide
    rcases ho with ⟨rfl, rfl⟩ | ⟨rfl, rfl⟩ | ⟨rfl, rfl⟩
    · have hr : oRing port i + 8 * k ≠ oEthLo := by
        have hs := inSpan_oRing (port := port) (d := 8 * k) i.isLt (by omega)
        exact fun e => absurd (e ▸ hs) (by decide)
      rw [if_neg hr]
      exact (State.pairTakes_ring i.isLt k.isLt).hiWrite hm
    · rw [if_neg (hne port)]
      exact State.pairTakes_page.hiWrite hm
    · rw [if_pos rfl]
      exact State.pairTakes_eth.hiWrite hm

end Sys2Proof.Machine

/-! SUPPORT. The commands that clear or arm: registers whose write means more than the fields of their table, and the statement
settled from these (R60, R129, R186, R440). -/

namespace Sys2Proof.Machine

/-! ## Writes that change one register -/

section
variable {s t : State} {p : Path} {o i j : Nat} {v : Word} {b : Bool} {h : HostView}

/-- `t` is `s` but for what the register at `o` holds. -/
structure State.OnlyReg (s t : State) (o : Nat) : Prop where
  others : s.SameRegs t [o]
  frame : t = { s with regs := t.regs }

theorem State.onlyReg_plainWrite : s.OnlyReg (s.plainWrite o v) o where
  others _ ho' := State.reg_plainWrite_other (by simpa using ho')
  frame := State.plainWrite_frame

theorem State.OnlyReg.setReg (ht : s.OnlyReg t o) : s.OnlyReg (t.setReg o v) o where
  others o' ho' := (State.reg_setReg_other (by simpa using ho')).trans (ht.others o' ho')
  frame := by rw [State.setReg, ht.frame]

theorem State.onlyReg_setReg : s.OnlyReg (s.setReg o v) o := State.OnlyReg.setReg ⟨fun _ _ => rfl, rfl⟩

theorem State.onlyReg_write_setRegBit : s.OnlyReg ((s.plainWrite o v).setRegBit o i b) o := State.onlyReg_plainWrite.setReg

theorem State.onlyReg_setRegFld {m l n : Nat} : s.OnlyReg (s.setRegFld o m l n) o := State.onlyReg_setReg

/-- The answer to a write is one more output. -/
theorem State.OnlyReg.answered (ht : s.OnlyReg t o) (x : Out) :
    s.SameRegs (t.emit x) [o] ∧ t.emit x = { s with regs := (t.emit x).regs, out := x :: s.out } := by
  refine ⟨ht.others, ?_⟩
  rw [ht.frame]
  rfl

/-- A write that a register takes, no half of a pair, is answered OK. -/
theorem State.windowWrite_taken (hm : s.MayWrite p o) (hhi : hiOf o = none) (hlo : loOf o = none)
    (hw : s.wordWrite p o v h = some t) : s.windowWrite p o v h = t.emit (.writeStatus p stOk) :=
  State.windowWrite_ok hm ((State.applyWrite_word hhi hlo).trans hw)

/-- An RW bit takes the written one. -/
theorem bit_plainWrite_rw {r : RegInfo} (e : regInfo o = some r) (hj : bit r.rw j = true) :
    bit ((s.plainWrite o v).reg o) j = bit v j := (written_plainWrite e j).trans (if_pos hj)

theorem bit_setRegBit (hi : i < 32) : bit ((s.setRegBit o i b).reg o) j = if j = i then b else bit (s.reg o) j := by
  rw [State.setRegBit, State.reg_setReg_same, bit_setBit hi]

end

/-! ## Words of the registers from the preserved regions on -/

section
variable {s : State} {p : Path} {o b n : Nat} {v : Word} {h : HostView}

theorem inSpan_above (ho : b + n ≤ o) : inSpan o b n = false := decide_eq_false (by omega)

/-- From the preserved regions on, only QSTAT's 64-bit counters are halves of pairs. -/
theorem noHalf_from_oPres (ho : oPres 0 ≤ o) (hq : o % 0x100 < 8 ∨ o < oQstat 0 ∨ oDieWin 0 ≤ o) : NoHalf o := by
  intro l g
  simp only [oPres, oQstat, oDieWin] at ho hq
  rcases g with g | g | g | g | g | g | g
  · simp only [List.mem_cons, List.not_mem_nil, or_false] at g
    omega
  all_goals omega

/-- The offsets of the meanings that `State.wordWrite` has ahead of the preserved regions'. -/
def actsBelowPres (o : Nat) : Bool :=
  o = oLinkCtl .a || o = oLinkCtl .b || (inSpan o 0x3_0000 0x8000 && o % 0x100 = 0x18) ||
    (inSpan o 0x3_0000 0x8000 && o % 0x100 = 0x1C) || (inSpan o 0x3_0000 0x8000 && o % 0x100 = 0x24) ||
    inSpan o 0xC_0000 0x40 || o = oBroken || o = oInject || (inRun o 0x10_0200 0x20 3 0x18 && (o - 0x10_0200) % 0x20 = 0xC) ||
    o = oFabNode || o = oFabCtl || inSpan o (oCable 0) 0x80 || o = oEthCmd || o = oIntCtl || o = oIntStat || o = oClkSsc ||
    isEnable o || (inSpan o (oMuxStat 0) 0x40 && o % 8 = 4) || o = oRstCause || o = oRstCmd

theorem actsBelowPres_false (ho : oPres 0 ≤ o) : actsBelowPres o = false := by
  rw [Bool.eq_false_iff]
  intro g
  simp only [actsBelowPres, inSpan, inRun, isEnable, Bool.and_eq_true, Bool.or_eq_true, decide_eq_true_eq] at g
  simp only [oLinkCtl, oPortBlk, oBroken, oInject, oFabNode, oFabCtl, oCable, oEthCmd, oIntCtl, oIntStat, oClkSsc,
    oClkEnPkg, oMuxStat, oRstCause, oRstCmd, oPres] at g ho
  omega

/-- A write of a region's first word with VALID clear frees the region (R440). -/
theorem State.wordWrite_pres (ho : oPres 0 ≤ o) (hs : inSpan o 0x58_0200 0x80 = true) (h0 : o % 0x10 = 0) :
    s.wordWrite p o v h =
      some (if bit v 31 then s.plainWrite o v else (s.plainWrite o v).freeRegion ((o - 0x58_0200) / 0x10)) := by
  have hb := actsBelowPres_false ho
  simp only [actsBelowPres, Bool.or_eq_false_iff, decide_eq_false_iff_not, and_assoc] at hb
  simp [State.wordWrite, hb, hs, h0]

/-- In the QSTAT blocks and the die windows three registers mean more than their fields. -/
theorem State.wordWrite_from_oQstat (ho : oQstat 0 ≤ o) : s.wordWrite p o v h =
    if inSpan o 0x70_0000 0x4000 && o % 0x100 = 0 then
      some ((s.plainWrite o v).setRegBit o 2 (bit v 0 || bit (s.reg o) 2))
    else if 0x80_0000 ≤ o && o % 0x10_0000 = 0x2_0000 then some (s.plainWrite o (setFld v 23 0 (max 0x1000 (fld v 23 0))))
    else if 0x80_0000 ≤ o && o % 0x10_0000 = 0x2_0008 then some (if bit v 31 then s.setRegFld o 23 0 0 else s)
    else some (s.plainWrite o v) := by
  have hb := actsBelowPres_false (Nat.le_trans (by decide) ho)
  have hpres : inSpan o 0x58_0200 0x80 = false := inSpan_above (Nat.le_trans (by decide) ho)
  have hret : inSpan o oRetained 0x4000 = false := inSpan_above (Nat.le_trans (by decide) ho)
  have hown : o ≠ oOwnerFuse := Nat.ne_of_gt (Nat.lt_of_lt_of_le (by decide) ho)
  simp only [actsBelowPres, Bool.or_eq_false_iff, decide_eq_false_iff_not, and_assoc] at hb
  simp [State.wordWrite, hb, hpres, hret, hown]

end

/-! ## QSTAT_CTL -/

section
variable {s : State} {p : Path} {v : Word} {h : HostView} (c : Fin 64)

theorem oQstat_noHalf : NoHalf (oQstat c.val) :=
  noHalf_from_oPres (by simp only [oPres, oQstat]; omega) (.inl (by rw [oQstat]; omega))

theorem regInfo_oQstat : ∀ c : Fin 64, regInfo (oQstat c.val) = some (RegInfo.rwOf 2#32 0#32) := by decide

theorem State.wordWrite_oQstat : s.wordWrite p (oQstat c.val) v h =
    some ((s.plainWrite (oQstat c.val) v).setRegBit (oQstat c.val) 2 (bit v 0 || bit (s.reg (oQstat c.val)) 2)) := by
  have hs : inSpan (oQstat c.val) 0x70_0000 0x4000 = true := decide_eq_true (by rw [oQstat]; omega)
  have h0 : oQstat c.val % 0x100 = 0 := by rw [oQstat]; omega
  rw [State.wordWrite_from_oQstat (by simp only [oQstat]; omega), hs, h0]
  rfl

/-- A write of QSTAT_CTL takes FREEZE, and its CLEAR makes a clear pending (R60). -/
theorem State.windowWrite_oQstat (hm : s.MayWrite p (oQstat c.val)) : ∃ t, s.windowWrite p (oQstat c.val) v h = t ∧
    bit (t.reg (oQstat c.val)) 2 = (bit v 0 || bit (s.reg (oQstat c.val)) 2) ∧
    bit (t.reg (oQstat c.val)) 1 = bit v 1 ∧ s.SameRegs t [oQstat c.val] ∧
    t = { s with regs := t.regs, out := .writeStatus p stOk :: s.out } := by
  have hn := oQstat_noHalf c
  refine ⟨_, State.windowWrite_taken hm hn.hiOf_none hn.loOf_none (State.wordWrite_oQstat c), ?_, ?_,
    State.onlyReg_write_setRegBit.answered _⟩
  · rw [State.reg_emit, bit_setRegBit (by decide), if_pos rfl]
  · rw [State.reg_emit, bit_setRegBit (by decide), if_neg (by decide), bit_plainWrite_rw (regInfo_oQstat c) (by decide)]

/-- QSTAT_CLEAR writes CLEAR beside FREEZE as it stands. -/
theorem State.qstatClear_pending (hm : s.MayWrite p (oQstat c.val)) :
    ∃ t, exec (.qstatClear p c) s = .next t ∧ bit (t.reg (oQstat c.val)) 2 = true ∧
      bit (t.reg (oQstat c.val)) 1 = bit (s.reg (oQstat c.val)) 1 ∧ s.SameRegs t [oQstat c.val] ∧
      t = { s with regs := t.regs, out := .writeStatus p stOk :: s.out } := by
  obtain ⟨t, e, hclear, hfreeze, ht⟩ := State.windowWrite_oQstat (h := noHost)
    (v := s.reg (oQstat c.val) &&& 2#32 ||| 1#32) c hm
  refine ⟨t, congrArg Host.Outcome.next e, hclear.trans ?_, hfreeze.trans ?_, ht⟩
  · rw [bit_or, show bit (1#32 : Word) 0 = true from rfl, Bool.or_true, Bool.true_or]
  · rw [bit_or, bit_and, show bit (2#32 : Word) 1 = true from rfl, show bit (1#32 : Word) 1 = false from rfl, Bool.and_true,
      Bool.or_false]

/-- QSTAT_FREEZE writes FREEZE alone. -/
theorem State.qstatFreeze_frozen (hm : s.MayWrite p (oQstat c.val)) (on : Bool) :
    ∃ t, exec (.qstatFreeze p c on) s = .next t ∧ bit (t.reg (oQstat c.val)) 1 = on ∧
      bit (t.reg (oQstat c.val)) 2 = bit (s.reg (oQstat c.val)) 2 ∧ s.SameRegs t [oQstat c.val] ∧
      t = { s with regs := t.regs, out := .writeStatus p stOk :: s.out } := by
  obtain ⟨t, e, hclear, hfreeze, ht⟩ := State.windowWrite_oQstat (h := noHost) (v := if on then 2#32 else 0#32) c hm
  exact ⟨t, congrArg Host.Outcome.next e, hfreeze.trans (by cases on <;> rfl), hclear.trans (by cases on <;> rfl), ht⟩

end

/-! ## XBAR_STALL_MAX -/

section
variable {s : State} {p : Path} (d : Fin 8)

theorem oStallMax_in_window : oDieWin 0 ≤ oStallMax d.val := by
  simp only [oStallMax, oDieWin]
  omega

theorem oStallMax_noHalf : NoHalf (oStallMax d.val) :=
  noHalf_from_oPres (Nat.le_trans (by decide) (oStallMax_in_window d)) (.inr (.inr (oStallMax_in_window d)))

theorem State.wordWrite_oStallMax {v : Word} {h : HostView} (hv : bit v 31 = true) :
    s.wordWrite p (oStallMax d.val) v h = some (s.setRegFld (oStallMax d.val) 23 0 0) := by
  have hw : 0x80_0000 ≤ oStallMax d.val := oStallMax_in_window d
  have hq : inSpan (oStallMax d.val) 0x70_0000 0x4000 = false := inSpan_above (Nat.le_trans (by decide) hw)
  have hd : oStallMax d.val % 0x10_0000 = 0x2_0008 := by rw [oStallMax, oDieWin]; omega
  rw [State.wordWrite_from_oQstat (Nat.le_trans (by decide) hw), hq, hd, hv]
  simp [hw]

/-- XBAR_STALL_MAX.CLEAR sets MAX to 0 (R129). -/
theorem State.xbarStallMaxClear_zero (hm : s.MayWrite p (oStallMax d.val)) :
    ∃ t, exec (.xbarStallMaxClear p d) s = .next t ∧ fld (t.reg (oStallMax d.val)) 23 0 = 0 ∧
      s.SameRegs t [oStallMax d.val] ∧ t = { s with regs := t.regs, out := .writeStatus p stOk :: s.out } := by
  have hn := oStallMax_noHalf d
  have e := State.windowWrite_taken hm hn.hiOf_none hn.loOf_none
    (State.wordWrite_oStallMax (v := 0x80000000#32) (h := noHost) d rfl)
  refine ⟨_, congrArg Host.Outcome.next e, ?_, State.onlyReg_setRegFld.answered _⟩
  rw [State.reg_emit, State.setRegFld, State.reg_setReg_same, fld_setFld (by decide) (by decide), Nat.zero_mod]

end

/-! ## MEM_INJECT -/

section
variable {s : State} {p : Path} {v : Word} {h : HostView}

theorem regInfo_oInject : regInfo oInject = some (RegInfo.rwOf 0x0000773F#32 0#32) := by decide

theorem State.wordWrite_oInject : s.wordWrite p oInject v h =
    if bit v 31 && s.residentOn (fld v 10 8) then none
    else some ((s.plainWrite oInject v).setRegBit oInject 31 (bit v 31 || bit (s.reg oInject) 31)) := by
  simp [State.wordWrite, oInject, oLinkCtl, oPortBlk, oBroken, inSpan]

/-- A write that arms is refused while a context is resident on the die that it names (R186). -/
theorem State.applyWrite_arm : s.applyWrite p oInject (setBit v 31 true) h =
    if s.residentOn (fld v 10 8) then none
    else some ((s.plainWrite oInject (setBit v 31 true)).setRegBit oInject 31 true) := by
  have harm : bit (setBit v 31 true) 31 = true := by rw [bit_setBit (by decide), if_pos rfl]
  have hdie : fld (setBit v 31 true) 10 8 = fld v 10 8 := fld_setFld_other (by decide) (by decide) (by decide)
  rw [State.applyWrite_word (by decide) (by decide), State.wordWrite_oInject, harm, hdie]
  rfl

/-- With no context resident on the die the injection is armed with the written fields. -/
theorem State.memInjectArm_arms (hm : s.MayWrite p oInject) (hr : s.residentOn (fld v 10 8) = false) :
    ∃ t, exec (.memInjectArm p v) s = .next t ∧ bit (t.reg oInject) 31 = true ∧
      (t.reg oInject) &&& 0x0000773F#32 = v &&& 0x0000773F#32 ∧ s.SameRegs t [oInject] ∧
      t = { s with regs := t.regs, out := .writeStatus p stOk :: s.out } := by
  have hw := State.applyWrite_arm (s := s) (p := p) (v := v) (h := noHost)
  rw [hr, if_neg (by decide)] at hw
  refine ⟨_, congrArg Host.Outcome.next (State.windowWrite_ok hm hw), ?_, bit_ext fun j => ?_,
    State.onlyReg_write_setRegBit.answered _⟩
  · rw [State.reg_emit, bit_setRegBit (by decide), if_pos rfl]
  · rw [State.reg_emit, bit_and, bit_and]
    rcases hj : bit (0x0000773F#32 : Word) j with _ | _
    · rw [Bool.and_false, Bool.and_false]
    · have h31 : j ≠ 31 := by rintro rfl; exact absurd hj (by decide)
      rw [bit_setRegBit (by decide), if_neg h31, bit_plainWrite_rw regInfo_oInject hj, bit_setBit (by decide), if_neg h31]

/-- A refused access that was not gated leaves its trace in the ports' error logs alone (R290). -/
theorem State.sameRegs_logAccess {o status : Nat} {w : Bool} (hs : status ≠ 0x31) :
    s.SameRegs (s.logAccess p o status w) [oErrLog .a, oErrLog .b] := by
  intro o' ho'
  obtain ⟨ha, hb⟩ : o' ≠ oErrLog .a ∧ o' ≠ oErrLog .b := by simpa using ho'
  rw [State.logAccess, if_neg hs]
  cases p with
  | epA => exact State.reg_setReg_other ha
  | epB => exact State.reg_setReg_other hb
  | i3c => rfl

/-- With a context resident on the die the command is answered DENIED. -/
theorem State.memInjectArm_denied (hm : s.MayWrite p oInject) (hr : s.residentOn (fld v 10 8) = true) :
    ∃ t, exec (.memInjectArm p v) s = .next t ∧ s.SameRegs t [oErrLog .a, oErrLog .b] ∧
      t = { s with regs := t.regs, out := .writeStatus p stDenied :: s.out } := by
  have hw := State.applyWrite_arm (s := s) (p := p) (v := v) (h := noHost)
  rw [hr, if_pos rfl] at hw
  have hl : s.SameRegs (s.logAccess p oInject stDenied true) [oErrLog .a, oErrLog .b] := State.sameRegs_logAccess (by decide)
  refine ⟨_, congrArg Host.Outcome.next (State.windowWrite_denied hm hw), hl, ?_⟩
  rw [State.logAccess_frame]
  rfl

end

/-! ## RST_PRES -/

section
variable {s t : State} {p : Path} {o : Nat} {v : Word} {h : HostView} {k f : Nat}

@[simp] theorem State.reg_freeRegion : (s.freeRegion k).reg o = s.reg o := rfl

theorem State.mem_preserved_freeRegion {e : Nat × Nat × Nat} :
    e ∈ (s.freeRegion k).preserved ↔ e ∈ s.preserved ∧ e.1 ≠ k := by
  simp only [State.freeRegion, List.mem_filter, bne_iff_ne]

theorem State.mem_frames_freeRegion :
    f ∈ (s.freeRegion k).frames ↔ f ∈ s.frames ∧ ∀ e ∈ s.preserved, e.1 = k → f ≠ entryKey e.2.2 := by
  simp only [State.freeRegion, State.giveFrames, List.mem_filter, Bool.not_eq_true', List.contains_eq_mem, decide_eq_false_iff_not,
    List.mem_map, not_exists, not_and, decide_eq_true_eq, and_imp, ne_eq, eq_comm (a := f)]

/-- After a write that frees a region: the other regions' records, the frames that it did not hold, and all else as before. -/
theorem State.OnlyReg.freeRegion (ht : s.OnlyReg t o) (k : Nat) (x : Out) :
    s.SameRegs ((t.freeRegion k).emit x) [o] ∧
      (∀ e, e ∈ ((t.freeRegion k).emit x).preserved ↔ e ∈ s.preserved ∧ e.1 ≠ k) ∧
      (∀ f, f ∈ ((t.freeRegion k).emit x).frames ↔ f ∈ s.frames ∧ ∀ e ∈ s.preserved, e.1 = k → f ≠ entryKey e.2.2) ∧
      (t.freeRegion k).emit x = { s with
        regs := ((t.freeRegion k).emit x).regs, preserved := ((t.freeRegion k).emit x).preserved,
        frames := ((t.freeRegion k).emit x).frames, out := x :: s.out } := by
  have hp : t.preserved = s.preserved := by rw [ht.frame]
  have hf : t.frames = s.frames := by rw [ht.frame]
  refine ⟨ht.others, fun e => ?_, fun f => ?_, ?_⟩
  · rw [← hp]
    exact State.mem_preserved_freeRegion
  · rw [← hp, ← hf]
    exact State.mem_frames_freeRegion
  · rw [ht.frame]
    rfl

theorem oPres_noHalf (k : Fin 8) : NoHalf (oPres k.val) :=
  noHalf_from_oPres (by simp only [oPres]; omega) (.inr (.inl (by simp only [oPres, oQstat]; omega)))

theorem regInfo_oPres : ∀ k : Fin 8, regInfo (oPres k.val) =
    some { RegInfo.rwOf 0x8000FFFF#32 0#32 with keepWarm := 0xFFFFFFFF#32 } := by decide

theorem State.wordWrite_oPres (k : Fin 8) (hv : bit v 31 = false) :
    s.wordWrite p (oPres k.val) v h = some ((s.plainWrite (oPres k.val) v).freeRegion k.val) := by
  have hs : inSpan (oPres k.val) 0x58_0200 0x80 = true := decide_eq_true (by rw [oPres]; omega)
  have h0 : oPres k.val % 0x10 = 0 := by rw [oPres]; omega
  have hk : (oPres k.val - 0x58_0200) / 0x10 = k.val := by rw [oPres]; omega
  rw [State.wordWrite_pres (by simp only [oPres]; omega) hs h0, hv, hk]
  rfl

/-- Clearing VALID frees the region's held frames and its record (R440). -/
theorem State.rstPresValidClear_frees (k : Fin 8) (hm : s.MayWrite p (oPres k.val)) :
    ∃ t, exec (.rstPresValidClear p k) s = .next t ∧ bit (t.reg (oPres k.val)) 31 = false ∧ s.SameRegs t [oPres k.val] ∧
      (∀ e, e ∈ t.preserved ↔ e ∈ s.preserved ∧ e.1 ≠ k.val) ∧
      (∀ f, f ∈ t.frames ↔ f ∈ s.frames ∧ ∀ e ∈ s.preserved, e.1 = k.val → f ≠ entryKey e.2.2) ∧
      t = { s with regs := t.regs, preserved := t.preserved, frames := t.frames, out := .writeStatus p stOk :: s.out } := by
  have hn := oPres_noHalf k
  have hv : bit (setBit (s.reg (oPres k.val)) 31 false) 31 = false := by rw [bit_setBit (by decide), if_pos rfl]
  have e := State.windowWrite_taken hm hn.hiOf_none hn.loOf_none (State.wordWrite_oPres (h := noHost) k hv)
  refine ⟨_, congrArg Host.Outcome.next e, ?_, State.onlyReg_plainWrite.freeRegion k.val _⟩
  rw [State.reg_emit, State.reg_freeRegion, bit_plainWrite_rw (regInfo_oPres k) (by decide), hv]

end

/-- Settles O13: each command is a write of one register, which the register takes, or which MEM_INJECT refuses while a context
is resident on the die. -/
theorem clearAndArmCommands : Obligations.ClearAndArmCommands := by
  unfold Obligations.ClearAndArmCommands
  exact fun p s =>
    ⟨fun c hm => ⟨State.qstatClear_pending c hm, State.qstatFreeze_frozen c hm⟩,
      fun d hm => State.xbarStallMaxClear_zero d hm,
      fun v hm => ⟨State.memInjectArm_arms hm, State.memInjectArm_denied hm⟩,
      fun k hm => State.rstPresValidClear_frees k hm⟩

end Sys2Proof.Machine

/-! SUPPORT. A refutation: the page manager frees quarantined pages one by one, and judges each by page tables as they then
stand (R201). The statement does not ask that page tables lie above the page descriptors (R194). -/

namespace Sys2Proof.Machine

/-! ## A page table that lies over the page descriptors -/

/-- The table of sequence 2: one local page, whose entry takes the first eight bytes of the table area. -/
def overlapTable : Table :=
  { handle := 2, home := 0, base := 0, pages := 1, committed := 0, resv := 0, waiting := false, closing := 0, running := false,
    draw := .default, con := .default }

/-- A context of one HBM page with one layer and head group: a pool of two pages from 1 MiB on, and its table area at 0, where the
page descriptors and that table both begin. -/
def overlapCtx : Ctx :=
  { job := 7, kind := 0, priority := 0, range := 1, quantum := 1, jigFrames := [], lendJob := 0, lendFirst := 0, lendCount := 0
    state := .active, fault := 0, pages := [(0, hbmEntry 0 true)], jigs := [], jigPlaces := [], oldJigs := [], buckets := []
    kv := [0x00010000#32, 0x00010001#32, 0x100000#32, 0#32, 2#32, 0#32, 0#32, 0#32, 0#32, 0#32, 0#32, 0#32]
    spec := [], stateFirst := 0, stateCount := 0, step := 0, seqs := [], tables := [overlapTable], copies := []
    policy := policyDefault, groupMax := [], bench := benchDefault, ratio := 0, sinceRatio := 0, bookMatch := false
    teardown := none, teardownStep := 0, teardownNode := 0, destroyDesc := none, holdDesc := none }

/-- Both pool pages are quarantined. Read as a table entry, the first descriptor is not valid. -/
def overlapDescs : List PageDesc := [⟨1, 0, .quarantined, 0, 0⟩, ⟨0, 0, .quarantined, 0, 0⟩]

/-- An idle package that ships sequence 2 of that context. -/
def overlapState : State :=
  { State.reset with
    ctxs := [(0, overlapCtx)]
    hbm := pokeBytes [] (overlapCtx.byteKey 0) (overlapDescs.flatMap PageDesc.bytes)
    ships := [{ Ship.fresh ⟨7, 0, 0, 2, 1, 0, 2⟩ 0 true 0 with offered := true }] }

/-- Every hypothesis of the clause about quarantined pages holds: the context is idle, its table area clean and writable HBM, and
no pool page is read. -/
theorem overlapState_meets_hypotheses :
    overlapState.ctx 0 = some overlapCtx ∧ overlapState.planned overlapCtx.job = false ∧
      (∀ o ∈ overlapState.replaysOpen, o.ctx ≠ 0) ∧
      (∀ p < overlapCtx.poolPages, overlapState.pageRead 0 overlapCtx p = false) ∧
      overlapState.Clean ∧ overlapState.tableFaults = [] ∧
      overlapCtx.OnHbm overlapCtx.tableBase (overlapCtx.tableEnd - overlapCtx.tableBase) ∧
      overlapCtx.OnWritable overlapCtx.tableBase (16 * overlapCtx.poolPages) ∧
      ∀ i < overlapCtx.tableEnd - overlapCtx.tableBase,
        overlapState.ctxPoison overlapCtx (overlapCtx.tableBase + i) = false := by
  unfold State.Clean Ctx.OnHbm Ctx.OnWritable
  decide +kernel

/-- Page 1 is quarantined in a pool of two pages. -/
theorem overlapState_quarantined :
    1 < overlapCtx.poolPages ∧ (overlapState.pageDesc overlapCtx 1).state = .quarantined := by decide +kernel

/-- Once page 0 has become free, its descriptor's OWNER makes the table entry valid and its first word names page 1, which the ship
then reads: page 1 stays quarantined. -/
theorem overlapState_keeps_page_one :
    (overlapState.modPageDesc overlapCtx 0 fun d => { d with state := .free, owner := noOwner }).pageRead 0 overlapCtx 1 = true ∧
      ((overlapState.idleFrees 0 overlapCtx).pageDesc overlapCtx 1).state = .quarantined := by decide +kernel

/-- A release of quarantined pages while idle that is not held up. -/
theorem exec_quarantineIdleRelease {s : State} {c : Fin 64} {x : Ctx} (hx : s.ctx c.val = some x)
    (hp : s.planned x.job = false) (ho : ∀ o ∈ s.replaysOpen, o.ctx ≠ c.val) :
    exec (.quarantineIdleRelease c) s = .next (s.idleFrees c.val x) := by
  have hany : (s.replaysOpen.any fun o => o.ctx = c.val) = false := by simpa using ho
  change execQuarantineIdleRelease c s = _
  simp [execQuarantineIdleRelease, hx, hp, hany]

/-- Refutes O56: not every quarantined page becomes free. Where a shipped sequence's page table lies over the page descriptors,
which the statement does not rule out, the release of page 0 rewrites a table entry, and page 1 then counts as read and stays
quarantined. -/
theorem not_shadowAndContexts : ¬ Obligations.ShadowAndContexts := by
  unfold Obligations.ShadowAndContexts
  rintro ⟨-, -, -, hquarantine, -⟩
  obtain ⟨hctx, hplanned, hreplays, hread, hclean, hfaults, hhbm, hwritable, hpoison⟩ := overlapState_meets_hypotheses
  obtain ⟨-, hrelease⟩ := hquarantine 0 overlapState
  obtain ⟨-, hfree⟩ := hrelease overlapCtx hctx
  obtain ⟨t, hexec, hdescs, -⟩ := hfree hplanned hreplays hread hclean hfaults hhbm hwritable hpoison
  rw [exec_quarantineIdleRelease (c := 0) hctx hplanned hreplays] at hexec
  have ht : overlapState.idleFrees 0 overlapCtx = t := Host.Outcome.next.inj hexec
  obtain ⟨hone, hquarantined⟩ := overlapState_quarantined
  obtain ⟨-, hkept⟩ := overlapState_keeps_page_one
  have hfreed := congrArg PageDesc.state (hdescs 1 hone)
  rw [if_pos hquarantined, ← ht, hkept] at hfreed
  exact absurd hfreed (by decide)

end Sys2Proof.Machine

/-! SUPPORT. A refutation: the boundary of an idle context raises a fault that waits for it (R379), after what a ship's home has heard
takes effect (R266). The statement does not ask that no fault of the context waits. -/

namespace Sys2Proof.Machine

/-! ## A fault that waits when the ship's refusal takes effect -/

/-- Sequence 2 while `KV_SHIP` sends it: 300 committed slots and its pending token. -/
def shippingSeq : Seq :=
  { handle := 2, state := .shipping, committed := 300, queue := [42], rootPublished := false, maxLen := 512, cls := 0, stops := []
    quota := 0, prefixGroup := 0, prefixLen := 0, gen := none, pre := none, maxNew := 8, published := 0, autoClose := false
    paramsFollow := false, draw := .default, con := .default, auto := 0, pen := [], cands := [], candsPo := false, order := 1
    mapping := false, closing := none, closedIn := 0, roots := [], left := [], kept := [] }

/-- A context of one HBM page and two pool pages that homes the sequence, its page table above the page descriptors. -/
def shippingCtx : Ctx :=
  { overlapCtx with tables := [{ overlapTable with base := 0x2000, committed := 300 }], seqs := [shippingSeq] }

/-- The `KV_SHIP` of sequence 2 to node 1, which waits for the ship's end. -/
def shippingDesc : Desc :=
  { id := 1, port := .a, pair := 0, words := [0x22#32, 0#32, 2#32, 0#32, 1#32, 2#32] ++ List.replicate 10 0#32, buf := []
    bufPo := false, phase := .waiting, orphan := false }

/-- Its ship, which the destination has refused since the last boundary. -/
def refusedShip : Ship :=
  { Ship.fresh ⟨7, 0, 0, 2, 1, 0, 2⟩ 0 true 1 with
    committed := 300, pending := some 42, offered := true, news := [(.ends stDenied stDenied 0, false)] }

/-- The idle source home, with a `PAGE_FAULT` of the context that no seal has named. -/
def faultDueState : State :=
  { State.reset with
    rst := { Rst.reset with active := [] }
    boot := { Boot.reset with ready := true, mgmtUp := true }
    regs := [(oLinkStat .a, 2#32)]
    portA := { Port.reset with pairs := [(0, { Pair.off with state := .running })] }
    members := [0, 1], frames := [0], ctxs := [(0, shippingCtx)], opens := [shippingDesc], nextDesc := 2
    ships := [refusedShip], dueFaults := [(0, stPage)] }

/-- The descriptor is alone, and waits for a ship of which the home has heard one thing, its refusal. -/
theorem faultDueState_shipping :
    faultDueState.Shipping 0 shippingCtx shippingDesc refusedShip (.ends stDenied stDenied 0) := by
  have hlone : faultDueState.Lone 0 shippingCtx shippingDesc := by
    unfold State.Lone Ctx.Sound State.Clean State.Ready
    decide +kernel
  exact ⟨hlone, rfl, rfl, rfl, rfl, rfl, rfl, false, rfl⟩

/-- The boundary tears the context down with the waiting fault, so that sequence 2 is closed and not READY. -/
theorem faultDueState_closes_sequence :
    faultDueState.idleApply.seq? 0 2 = none := by decide +kernel

/-- `IDLE_APPLY` is the boundary of every idle context. -/
theorem exec_idleApply (s : State) : exec .idleApply s = .next s.idleApply := rfl

/-- Refutes O49: a refused ship does not always return its sequence to READY. Where a fault of the context waits in `dueFaults`,
which the statement does not rule out, the boundary that applies the refusal also raises that fault, and the context's teardown
closes the sequence. -/
theorem not_shipMessages : ¬ Obligations.ShipMessages := by
  unfold Obligations.ShipMessages
  rintro ⟨-, hboundary⟩
  obtain ⟨hsource, -⟩ :=
    hboundary faultDueState 0 shippingCtx shippingDesc refusedShip (.ends stDenied stDenied 0) shippingSeq faultDueState_shipping
  obtain ⟨-, hends⟩ := hsource rfl rfl rfl
  obtain ⟨t, ⟨hexec, hready⟩, -⟩ := hends stDenied stDenied 0 rfl
  rw [exec_idleApply] at hexec
  have ht : faultDueState.idleApply = t := Host.Outcome.next.inj hexec
  have hclosed : t.seq? 0 2 = none := ht ▸ faultDueState_closes_sequence
  exact Option.some_ne_none _ (hready.symm.trans hclosed)

end Sys2Proof.Machine
